-- ==== Sys2Proof/Machine/Real.lean ====
section
/-! DEFINITION. Exact arithmetic for spec/02 and spec/04: rationals, the reals the spec's functions take on exact operands
(R9, R65, R104), and the decision of a rounding of such a real. An irrational value is enclosed between two rationals, at
rising precision until both ends give one result (log 13). -/

namespace Sys2Proof.Machine

/-! ## Rationals -/

/-- The rational n / d; d is positive in every value the model forms. -/
structure Q where
  n : Int
  d : Nat
  deriving DecidableEq, Repr

def Q.ofInt (i : Int) : Q := ⟨i, 1⟩
def Q.zero : Q := ⟨0, 1⟩
def Q.one : Q := ⟨1, 1⟩
def Q.add (x y : Q) : Q := if x.d = y.d then ⟨x.n + y.n, x.d⟩ else ⟨x.n * y.d + y.n * x.d, x.d * y.d⟩
def Q.neg (x : Q) : Q := ⟨-x.n, x.d⟩
def Q.sub (x y : Q) : Q := x.add y.neg
def Q.mul (x y : Q) : Q := ⟨x.n * y.n, x.d * y.d⟩
/-- 1 / x, for x ≠ 0. -/
def Q.inv (x : Q) : Q := if x.n < 0 then ⟨-x.d, x.n.natAbs⟩ else ⟨x.d, x.n.natAbs⟩
def Q.abs (x : Q) : Q := ⟨x.n.natAbs, x.d⟩
def Q.lt (x y : Q) : Bool := x.n * y.d < y.n * x.d
def Q.le (x y : Q) : Bool := x.n * y.d ≤ y.n * x.d
def Q.eq (x y : Q) : Bool := x.n * y.d == y.n * x.d
def Q.isZero (x : Q) : Bool := x.n == 0
/-- floor of x. -/
def Q.floor (x : Q) : Int := x.n / (x.d : Int)
/-- 2^k for any integer k. -/
def Q.pow2 (k : Int) : Q := if k < 0 then ⟨1, 2 ^ k.natAbs⟩ else ⟨2 ^ k.natAbs, 1⟩
/-- x · 2^k. -/
def Q.shl (x : Q) (k : Int) : Q := if k < 0 then ⟨x.n, x.d * 2 ^ k.natAbs⟩ else ⟨x.n * 2 ^ k.natAbs, x.d⟩
def Q.sq (x : Q) : Q := x.mul x

/-- floor(log2 x) for x > 0. -/
def Q.log2 (x : Q) : Int :=
  let a := x.n.natAbs
  let e : Int := (Nat.log2 a : Int) - (Nat.log2 x.d : Int)
  if (Q.pow2 e).le x then e else e - 1

/-- The integer k with x = 2^k, if there is one. -/
def Q.pow2? (x : Q) : Option Int :=
  if x.n ≤ 0 then none
  else
    let e := x.log2
    if (Q.pow2 e).eq x then some e else none

/-- Integer square root, by bits from 4^k downwards. -/
def isqrtGo (n : Nat) : Nat → Nat → Nat
  | 0, r => r
  | k + 1, r =>
    let t := r + 2 ^ k
    isqrtGo n k (if t * t ≤ n then t else r)

def isqrt (n : Nat) : Nat := isqrtGo n (Nat.log2 n / 2 + 1) 0

/-- The rational square root of x ≥ 0, if it is rational. -/
def Q.sqrt? (x : Q) : Option Q :=
  let t := x.n.natAbs * x.d
  let r := isqrt t
  if r * r = t then some ⟨r, x.d⟩ else none

/-! ## Enclosures

An enclosure at precision p is a pair of integers (lo, hi) that stands for [lo / 2^p, hi / 2^p]. -/

structure Enc where
  lo : Int
  hi : Int
  deriving DecidableEq, Repr

/-- floor(a / 2^p) and ceil(a / 2^p). -/
def shrF (a : Int) (p : Nat) : Int := a / (2 ^ p : Nat)
def shrC (a : Int) (p : Nat) : Int := -((-a) / (2 ^ p : Nat))

def Enc.ofQ (p : Nat) (x : Q) : Enc :=
  let t := x.n * (2 ^ p : Nat)
  ⟨t / (x.d : Int), -((-t) / (x.d : Int))⟩

def Enc.add (x y : Enc) : Enc := ⟨x.lo + y.lo, x.hi + y.hi⟩
def Enc.neg (x : Enc) : Enc := ⟨-x.hi, -x.lo⟩
def min4 (a b c d : Int) : Int := min (min a b) (min c d)
def max4 (a b c d : Int) : Int := max (max a b) (max c d)

def Enc.mul (p : Nat) (x y : Enc) : Enc :=
  let a := x.lo * y.lo
  let b := x.lo * y.hi
  let c := x.hi * y.lo
  let d := x.hi * y.hi
  ⟨shrF (min4 a b c d) p, shrC (max4 a b c d) p⟩

/-- 1 / x; a pair that spans 0 gives a pair far too wide, so that no decision is made on it. -/
def Enc.inv (p : Nat) (x : Enc) : Enc :=
  if 0 < x.lo ∨ x.hi < 0 then
    let t : Int := (2 ^ (2 * p) : Nat)
    ⟨t / x.hi, -((-t) / x.lo)⟩
  else ⟨-(2 ^ (4 * p) : Nat), (2 ^ (4 * p) : Nat)⟩

/-- x / n for a natural n > 0. -/
def Enc.divNat (x : Enc) (n : Nat) : Enc := ⟨x.lo / (n : Int), -((-x.hi) / (n : Int))⟩

/-- Sum of the powers x, x^3 / 3, x^5 / 5 ... for x = 1 / m at precision p: atanh (alternating: atan) of 1 / m, with an
error of at most one unit a term. -/
def atanGo (m2 : Nat) (alt : Bool) : Nat → Nat → Bool → Int → Int → Int
  | 0, _, _, _, acc => acc
  | fuel + 1, k, neg, t, acc =>
    if t = 0 then acc
    else atanGo m2 alt fuel (k + 2) (alt && !neg) (t / (m2 : Int))
      (if neg then acc - t / (k : Int) else acc + t / (k : Int))

def atanInv (p m : Nat) (alt : Bool) : Enc :=
  let q := p + 16
  let v := atanGo (m * m) alt (q + 1) 1 false ((2 ^ q : Nat) / (m : Int)) 0
  let err : Int := 2 * (q + 4)
  ⟨shrF (v - err) 16, shrC (v + err) 16⟩

/-- ln 2 = 18 atanh(1/26) - 2 atanh(1/4801) + 8 atanh(1/8749). -/
def encLn2 (p : Nat) : Enc :=
  let q := p + 8
  let a := atanInv q 26 false
  let b := atanInv q 4801 false
  let c := atanInv q 8749 false
  let r : Enc := ⟨18 * a.lo - 2 * b.hi + 8 * c.lo, 18 * a.hi - 2 * b.lo + 8 * c.hi⟩
  ⟨shrF r.lo 8, shrC r.hi 8⟩

/-- π = 16 atan(1/5) - 4 atan(1/239). -/
def encPi (p : Nat) : Enc :=
  let q := p + 8
  let a := atanInv q 5 true
  let b := atanInv q 239 true
  let r : Enc := ⟨16 * a.lo - 4 * b.hi, 16 * a.hi - 4 * b.lo⟩
  ⟨shrF r.lo 8, shrC r.hi 8⟩

/-- Taylor terms t, t·x/k, ... of exp, from the term `t` with index k. -/
def expGo (p : Nat) (x : Enc) : Nat → Nat → Enc → Enc → Enc
  | 0, _, _, acc => acc
  | fuel + 1, k, t, acc =>
    let t' := (t.mul p x).divNat k
    let acc' := acc.add t'
    if max t'.lo.natAbs t'.hi.natAbs ≤ 1 then acc' else expGo p x fuel (k + 1) t' acc'

/-- exp x for an enclosed |x| ≤ 1: the tail after the last term is below twice that term and one unit. -/
def encExpSmall (p : Nat) (x : Enc) : Enc :=
  let q := p + 16
  let x' : Enc := ⟨x.lo * 65536, x.hi * 65536⟩
  let one : Int := (2 ^ q : Nat)
  let r := expGo q x' (q + 8) 1 ⟨one, one⟩ ⟨one, one⟩
  ⟨shrF (r.lo - 8) 16, shrC (r.hi + 8) 16⟩

/-- x · 2^k on an enclosure. -/
def Enc.shl (x : Enc) (k : Int) : Enc :=
  if k < 0 then ⟨shrF x.lo k.natAbs, shrC x.hi k.natAbs⟩
  else ⟨x.lo * (2 ^ k.natAbs : Nat), x.hi * (2 ^ k.natAbs : Nat)⟩

/-- 2^x for a rational x. -/
def encExp2 (p : Nat) (x : Q) : Enc :=
  let n := x.floor
  let f := x.sub (Q.ofInt n)
  let q := p + n.natAbs + 16
  let r := encExpSmall q ((Enc.ofQ q f).mul q (encLn2 q))
  let s := r.shl n
  ⟨shrF s.lo (n.natAbs + 16), shrC s.hi (n.natAbs + 16)⟩

/-- e^x for a rational x with |x| below 2^20. -/
def encExp (p : Nat) (x : Q) : Enc :=
  let q := p + 64
  let y := (Enc.ofQ q x).mul q ((encLn2 q).inv q)
  let n := shrF y.lo q
  let q := p + 16 + n.natAbs
  let r := (Enc.ofQ q x).add ((Enc.mul q (Enc.ofQ q (Q.ofInt n)) (encLn2 q)).neg)
  let h : Enc := ⟨shrF r.lo 1, shrC r.hi 1⟩
  let e := encExpSmall q h
  let s := (e.mul q e).shl n
  ⟨shrF s.lo (16 + n.natAbs), shrC s.hi (16 + n.natAbs)⟩

/-- Terms z^(2j+1) / (2j+1) of atanh. -/
def atanhGo (p : Nat) (z2 : Enc) : Nat → Nat → Enc → Enc → Enc
  | 0, _, _, acc => acc
  | fuel + 1, k, t, acc =>
    let acc' := acc.add (t.divNat k)
    if max t.lo.natAbs t.hi.natAbs ≤ 1 then acc' else atanhGo p z2 fuel (k + 2) (t.mul p z2) acc'

/-- log2 x for a rational x > 0. -/
def encLog2 (p : Nat) (x : Q) : Enc :=
  let q := p + 32
  let e := x.log2
  let m := x.shl (-e)
  let z := (m.sub Q.one).mul (m.add Q.one).inv
  let zq := Enc.ofQ q z
  let s := atanhGo q (zq.mul q zq) (q + 8) 1 zq ⟨0, 0⟩
  let ln : Enc := ⟨2 * s.lo - 64, 2 * s.hi + 64⟩
  let r := (ln.mul q ((encLn2 q).inv q)).add (Enc.ofQ q (Q.ofInt e))
  ⟨shrF r.lo 32, shrC r.hi 32⟩

/-- Terms of sin or cos: t, -t·x²/(k(k+1)), ... -/
def trigGo (p : Nat) (x2 : Enc) : Nat → Nat → Enc → Enc → Enc
  | 0, _, _, acc => acc
  | fuel + 1, k, t, acc =>
    let acc' := acc.add t
    if max t.lo.natAbs t.hi.natAbs ≤ 1 then acc'
    else trigGo p x2 fuel (k + 2) (((t.mul p x2).divNat (k * (k + 1))).neg) acc'

/-- sin(πf) for a rational 0 ≤ f ≤ 1/2. -/
def encSinSmall (p : Nat) (f : Q) : Enc :=
  let q := p + 32
  let x := (Enc.ofQ q f).mul q (encPi q)
  let s := trigGo q (x.mul q x) (q + 8) 2 x ⟨0, 0⟩
  ⟨shrF (s.lo - 64) 32, shrC (s.hi + 64) 32⟩

/-- x mod 2 in [0, 2). -/
def Q.mod2 (x : Q) : Q := x.sub (Q.ofInt (2 * (x.mul ⟨1, 2⟩).floor))

/-- sin(πx) for any rational x. -/
def encSinPi (p : Nat) (x : Q) : Enc :=
  let r := x.mod2
  let (sgn, r) := if Q.one.le r then (true, r.sub Q.one) else (false, r)
  let r := if (⟨1, 2⟩ : Q).lt r then Q.one.sub r else r
  let e := encSinSmall p r
  if sgn then e.neg else e

/-- √x for a rational x ≥ 0. -/
def encSqrt (p : Nat) (x : Q) : Enc :=
  let t := x.n.natAbs * 2 ^ (2 * p) / x.d
  let r := isqrt t
  ⟨r, r + 1⟩

/-- tanh x = (e^2x - 1) / (e^2x + 1) for a rational x with |x| below 2^16. -/
def encTanh (p : Nat) (x : Q) : Enc :=
  let q := p + 16
  let a := x.abs
  let e := encExp q (a.shl 1)
  let one : Int := (2 ^ q : Nat)
  let r := (e.add ⟨-one, -one⟩).mul q ((e.add ⟨one, one⟩).inv q)
  let r : Enc := ⟨shrF r.lo 16, shrC r.hi 16⟩
  if x.n < 0 then r.neg else r

/-! ## Reals -/

/-- A real that a function of the spec takes on exact operands. -/
inductive RE where
  | rat (x : Q)
  | ln2 | pi
  | exp2 (x : Q) | log2 (x : Q) | sqrt (x : Q) | sinpi (x : Q) | tanh (x : Q)
  | add (x y : RE) | mul (x y : RE) | neg (x : RE) | inv (x : RE)
  deriving DecidableEq, Repr

/-- The value, when it is written with rationals alone. -/
def RE.rat? : RE → Option Q
  | .rat x => some x
  | .ln2 | .pi | .exp2 _ | .log2 _ | .sqrt _ | .sinpi _ | .tanh _ => none
  | .add x y =>
    match x.rat?, y.rat? with
    | some a, some b => some (a.add b)
    | _, _ => none
  | .mul x y =>
    match x.rat?, y.rat? with
    | some a, some b => some (a.mul b)
    | some a, none => if a.isZero then some .zero else none
    | none, some b => if b.isZero then some .zero else none
    | _, _ => none
  | .neg x => x.rat?.map Q.neg
  | .inv x => x.rat?.map Q.inv

/-- Enclosure at precision p. -/
def RE.enc (p : Nat) : RE → Enc
  | .rat x => Enc.ofQ p x
  | .ln2 => encLn2 p
  | .pi => encPi p
  | .exp2 x => encExp2 p x
  | .log2 x => encLog2 p x
  | .sqrt x => encSqrt p x
  | .sinpi x => encSinPi p x
  | .tanh x => encTanh p x
  | .add x y => (x.enc p).add (y.enc p)
  | .mul x y => (x.enc p).mul p (y.enc p)
  | .neg x => (x.enc p).neg
  | .inv x => (x.enc p).inv p

/-- Precisions tried in turn (log 13). -/
def precisions : List Nat := [192, 768, 3072, 12288]

/-- The value of a monotone or piecewise constant `f` at x: exact for a rational, and otherwise the value on which both
ends of an enclosure agree. -/
def RE.decideAt {α : Type} [DecidableEq α] (f : Q → α) (x : RE) : List Nat → α
  | [] => f ⟨(x.enc 12288).lo, 2 ^ 12288⟩
  | p :: ps =>
    let e := x.enc p
    let lo := f ⟨e.lo, 2 ^ p⟩
    if lo = f ⟨e.hi, 2 ^ p⟩ then lo else x.decideAt f ps

def RE.decide {α : Type} [DecidableEq α] (x : RE) (f : Q → α) : α :=
  match x.rat? with
  | some q => f q
  | none => x.decideAt f precisions

def RE.zero : RE := .rat .zero
def RE.one : RE := .rat .one
def RE.ofInt (i : Int) : RE := .rat (.ofInt i)

/-- Sum, difference and product, kept rational where both operands are. -/
def RE.plus (x y : RE) : RE :=
  match x, y with
  | .rat a, .rat b => .rat (a.add b)
  | x, y => .add x y
def RE.times (x y : RE) : RE :=
  match x, y with
  | .rat a, .rat b => .rat (a.mul b)
  | .rat a, y => if a.isZero then .zero else .mul (.rat a) y
  | x, .rat b => if b.isZero then .zero else .mul x (.rat b)
  | x, y => .mul x y
def RE.minus : RE → RE
  | .rat a => .rat a.neg
  | x => .neg x
def RE.sub (x y : RE) : RE := x.plus y.minus
def RE.recip : RE → RE
  | .rat a => .rat a.inv
  | x => .inv x
def RE.sq (x : RE) : RE := x.times x
def RE.sum (xs : List RE) : RE := xs.foldl RE.plus .zero

/-- Sign of a real: -1, 0 or 1 (0 only for a rational 0). -/
def RE.sign (x : RE) : Int := x.decide fun q => if q.n < 0 then -1 else if q.n = 0 then 0 else 1
def RE.isZero (x : RE) : Bool := x.rat? == some Q.zero || (x.rat?.any Q.isZero)
def RE.abs (x : RE) : RE := if x.sign < 0 then x.minus else x

/-- 2^x: exact for an integer; beyond ±5000 a power of two that lies, as 2^x does, outside every format's range. -/
def RE.mkExp2 (x : Q) : RE :=
  if (Q.ofInt 5000).lt x then .rat (Q.pow2 5000)
  else if x.lt (Q.ofInt (-5000)) then .rat (Q.pow2 (-5000))
  else if (Q.ofInt x.floor).eq x then .rat (Q.pow2 x.floor) else .exp2 x

/-- log2 x for x > 0. -/
def RE.mkLog2 (x : Q) : RE :=
  match x.pow2? with
  | some k => .rat (.ofInt k)
  | none => .log2 x

/-- √x for x ≥ 0. -/
def RE.mkSqrt (x : Q) : RE :=
  match x.sqrt? with
  | some r => .rat r
  | none => .sqrt x

/-- sin(πx): rational exactly at multiples of 1/2, for a dyadic x. -/
def RE.mkSinPi (x : Q) : RE :=
  let r := x.mod2
  if r.isZero || r.eq Q.one then .zero
  else if r.eq ⟨1, 2⟩ then .one
  else if r.eq ⟨3, 2⟩ then .ofInt (-1)
  else .sinpi r

def RE.mkCosPi (x : Q) : RE := RE.mkSinPi (x.add ⟨1, 2⟩)

/-- tanh x; beyond ±2000 a value below 1 that every rounding, and every rounding of a charge or a derivative, treats as it treats tanh x:
its distance from 1 is not 0 and is below every format's last place. -/
def RE.mkTanh (x : Q) : RE :=
  if x.isZero then .zero
  else if (Q.ofInt 2000).lt x.abs then
    let t := Q.one.sub (Q.pow2 (-11000))
    .rat (if x.n < 0 then t.neg else t)
  else .tanh x

end Sys2Proof.Machine
end

