-- ==== Sys2Proof/Machine/Formats.lean ====
section
/-! DEFINITION. Number formats, rounding, the variance of a rounding and conversion fates (spec/02 R47 to R62). A
finite value of a format is a magnitude code: code + 1 is the next grid point, beyond the largest finite code too (R55). -/

namespace Sys2Proof.Machine

/-! ## Flags (Table 1.3) -/

def fInexact : Word := 1
def fUnderflow : Word := 2
def fOverflow : Word := 4
def fDivZero : Word := 8
def fInvalid : Word := 16
def fSaturated : Word := 32
def fOutlierOvf : Word := 64
def fUncert : Word := 128
def fScaleNan : Word := 256
def fTagFail : Word := 512

/-! ## Formats -/

/-- Floating-point formats (Tables 2.1 and 2.2). -/
inductive Fmt where
  | f64 | f32 | f16 | bf16 | e4m3 | e5m2 | e2m3 | e3m2 | e2m1 | lns6
  deriving DecidableEq, Repr

/-- Width in bits. -/
def Fmt.width : Fmt → Nat
  | .f64 => 64 | .f32 => 32 | .f16 => 16 | .bf16 => 16
  | .e4m3 => 8 | .e5m2 => 8 | .e2m3 => 6 | .e3m2 => 6 | .e2m1 => 4 | .lns6 => 6

/-- Fraction bits M. -/
def Fmt.frac : Fmt → Nat
  | .f64 => 52 | .f32 => 23 | .f16 => 10 | .bf16 => 7
  | .e4m3 => 3 | .e5m2 => 2 | .e2m3 => 3 | .e3m2 => 2 | .e2m1 => 1 | .lns6 => 5

def Fmt.bias : Fmt → Nat
  | .f64 => 1023 | .f32 => 127 | .f16 => 15 | .bf16 => 127
  | .e4m3 => 7 | .e5m2 => 15 | .e2m3 => 1 | .e3m2 => 3 | .e2m1 => 1 | .lns6 => 4

/-- Magnitude code of the largest finite value. -/
def Fmt.maxCode : Fmt → Nat
  | .f64 => 0x7FEFFFFFFFFFFFFF | .f32 => 0x7F7FFFFF | .f16 => 0x7BFF | .bf16 => 0x7F7F
  | .e4m3 => 0x7E | .e5m2 => 0x7B | .e2m3 => 0x1F | .e3m2 => 0x1F | .e2m1 => 0x7 | .lns6 => 0x1F

/-- Magnitude code of infinity, where the format has one. -/
def Fmt.infCode : Fmt → Option Nat
  | .f64 => some 0x7FF0000000000000 | .f32 => some 0x7F800000 | .f16 => some 0x7C00 | .bf16 => some 0x7F80
  | .e5m2 => some 0x7C | _ => none

/-- Canonical NaN, where the format has one. -/
def Fmt.nanCode : Fmt → Option Nat
  | .f64 => some 0x7FF8000000000000 | .f32 => some 0x7FC00000 | .f16 => some 0x7E00 | .bf16 => some 0x7FC0
  | .e4m3 => some 0x7F | .e5m2 => some 0x7E | .lns6 => some 0x20 | _ => none

/-- Whether SAT governs a rounding to the format (R56). -/
def Fmt.narrow : Fmt → Bool
  | .f64 | .f32 => false
  | _ => true

/-- E2M3, E3M2 and E2M1: no infinity and no NaN. -/
def Fmt.finiteOnly : Fmt → Bool
  | .e2m3 | .e3m2 | .e2m1 => true
  | _ => false

/-- emax_elem of Table 2.2, for the element formats of blocks. -/
def Fmt.emaxElem : Fmt → Nat
  | .e4m3 => 8 | .e5m2 => 15 | .e2m3 => 2 | .e3m2 => 4 | .e2m1 => 2 | .lns6 => 3 | _ => 0

/-- Narrow-format codes of Table 1.2. -/
def Fmt.ofNarrow : Nat → Option Fmt
  | 1 => some .e4m3 | 2 => some .e5m2 | 3 => some .e2m3 | 4 => some .e3m2 | 5 => some .e2m1
  | 6 => some .lns6 | 7 => some .bf16 | 8 => some .f16 | _ => none

/-- Least exponent of a normal number. -/
def Fmt.emin (f : Fmt) : Int := 1 - (f.bias : Int)

/-- The magnitude that a code stands for, beyond the largest finite code too (R50, R51, R55). -/
def Fmt.mag (f : Fmt) (c : Nat) : RE :=
  match f with
  | .lns6 => if c = 0 then .zero else .mkExp2 ⟨(c : Int) - 16, 4⟩
  | _ =>
    let m := f.frac
    let e := c / 2 ^ m
    if e = 0 then .rat ((Q.ofInt c).shl (f.emin - m))
    else .rat ((Q.ofInt (c % 2 ^ m + 2 ^ m : Nat)).shl (f.emin + (e : Int) - 1 - m))

/-- The code of the largest grid point not above the magnitude x ≥ 0, for a rational x. -/
def Fmt.floorCode (f : Fmt) (x : Q) : Nat :=
  if x.n ≤ 0 then 0 else
  match f with
  | .lns6 =>
    -- 2^(c/4 - 4) ≤ x exactly when 2^(c - 16) ≤ x^4
    (max 0 ((x.sq.sq).log2 + 16)).toNat
  | _ =>
    let e := max x.log2 f.emin
    let k := ((x.shl ((f.frac : Int) - e)).floor).toNat
    (e - f.emin).toNat * 2 ^ f.frac + k

/-- A decoded operand: NaN (signalling or quiet), infinity, or a sign and a magnitude. -/
inductive FV where
  | nan (sig : Bool)
  | inf (neg : Bool)
  | fin (neg : Bool) (m : RE)
  deriving DecidableEq, Repr

/-- `Decode(fmt, w)` (R11). -/
def Fmt.decode (f : Fmt) (w : Nat) : FV :=
  let w := w % 2 ^ f.width
  let s := w / 2 ^ (f.width - 1) == 1
  let c := w % 2 ^ (f.width - 1)
  match f with
  | .lns6 => if c = 0 then (if s then .nan false else .fin false .zero) else .fin s (f.mag c)
  | .e4m3 => if c = 0x7F then .nan false else .fin s (f.mag c)
  | _ =>
    if c ≤ f.maxCode then .fin s (f.mag c)
    else if f.infCode = some c then .inf s
    else if f = .e5m2 then .nan false
    else .nan (c / 2 ^ (f.frac - 1) % 2 == 0)

/-- Sign bit and magnitude code put together. -/
def Fmt.code (f : Fmt) (neg : Bool) (c : Nat) : Nat := if neg then c + 2 ^ (f.width - 1) else c

/-- Canonical NaN; the formats without one deliver +0 (Table 2.4). -/
def Fmt.nan (f : Fmt) : Nat := f.nanCode.getD 0

/-- The signed real of a finite value. -/
def FV.real : FV → RE
  | .fin neg m => if neg then m.minus else m
  | _ => .zero

def FV.isNan : FV → Bool | .nan _ => true | _ => false
def FV.isInf : FV → Bool | .inf _ => true | _ => false
def FV.isFin : FV → Bool | .fin _ _ => true | _ => false
def FV.isSig : FV → Bool | .nan s => s | _ => false
def FV.isZero : FV → Bool | .fin _ m => m.isZero | _ => false
def FV.sign : FV → Bool | .nan _ => false | .inf s => s | .fin s _ => s
def FV.neg : FV → FV
  | .nan s => .nan s | .inf s => .inf !s | .fin s m => .fin (!s) m
/-- The rational magnitude of a finite value of a format other than LNS6. -/
def FV.mag : FV → Q
  | .fin _ m => m.rat?.getD .zero
  | _ => .zero
/-- The signed rational of a finite value of a format other than LNS6. -/
def FV.q : FV → Q
  | .fin neg m => let q := m.rat?.getD .zero; if neg then q.neg else q
  | _ => .zero

/-! ## Rounding -/

/-- Rounding modes (R55). -/
inductive Rm where
  | rne | rtz | ru | rd | sr
  deriving DecidableEq, Repr

def Rm.ofCode : Nat → Rm
  | 1 => .rtz | 2 => .ru | 3 => .rd | 4 => .sr | _ => .rne

/-- What a rounding delivers: the bit pattern, the flags, and what RoundVar needs of it (R59): the magnitude code below
the value, whether the value was exact, whether the result came from an overflow row, and the result's magnitude code
where it is finite. -/
structure Rnd where
  bits : Nat
  flags : Word
  lower : Nat
  exact : Bool
  ovf : Bool
  fin : Option Nat
  deriving DecidableEq, Repr

/-- Which of a and b (R55): true for the larger magnitude. `r` is floor(((v - a)/(b - a)) 2^24) of the signed grid and is
used under SR alone. -/
def pickUp (rm : Rm) (neg : Bool) (nearUp tie : Bool) (lowerOdd : Bool) (r w24 : Nat) : Bool :=
  match rm with
  | .rne => if tie then lowerOdd else nearUp
  | .rtz => false
  | .ru => !neg
  | .rd => neg
  | .sr => if neg then !(r + w24 ≥ 2 ^ 24) else r + w24 ≥ 2 ^ 24

/-- Magnitude code after rounding the magnitude, and what is known of it: (lower code, exact, chosen code). -/
def Fmt.roundMag (f : Fmt) (rm : Rm) (neg : Bool) (w24 : Nat) (x : RE) : Nat × Bool × Nat :=
  let lower := x.decide f.floorCode
  let a := f.mag lower
  let b := f.mag (lower + 1)
  -- position of x in [a, b): 0 at a
  let d := x.sub a
  if d.sign ≤ 0 then (lower, true, lower)
  else
    let step := b.sub a
    let half := (d.plus d).sub step
    let near := half.sign
    let t : Nat :=
      match rm with
      | .sr =>
        let pos := if neg then (b.sub x) else d
        (((pos.times step.recip).times (.rat (Q.pow2 24))).decide Q.floor).toNat
      | _ => 0
    let up := pickUp rm neg (near > 0) (near = 0) (lower % 2 == 1) t w24
    (lower, false, if up then lower + 1 else lower)

/-- Smallest normal magnitude (R57); for LNS6 the smallest nonzero. -/
def Fmt.minNormal (f : Fmt) : RE :=
  match f with
  | .lns6 => f.mag 1
  | _ => .rat (Q.pow2 f.emin)

/-- The overflow row of Table 2.3: bits, flags and, where the result is ±max, its code. -/
def Fmt.overflow (f : Fmt) (rm : Rm) (sat neg : Bool) : Nat × Word × Option Nat :=
  let mx := (f.code neg f.maxCode, some f.maxCode)
  if f.finiteOnly || (sat && f.narrow) then (mx.1, fSaturated ||| fInexact, mx.2)
  else
    let toMax := match rm with
      | .rne | .sr => false
      | .rtz => true
      | .ru => neg
      | .rd => !neg
    if toMax then (mx.1, fOverflow ||| fInexact, mx.2)
    else
      let o := match f.infCode with
        | some c => f.code neg c
        | none => f.nan
      (o, fOverflow ||| fInexact, none)

/-- `RoundTo` of a finite value with the sign of v and the magnitude x (R55 to R57). -/
def Fmt.roundFin (f : Fmt) (rm : Rm) (sat : Bool) (w24 : Nat) (neg : Bool) (x : RE) : Rnd :=
  if x.isZero then ⟨if f = .lns6 then 0 else f.code neg 0, 0, 0, true, false, some 0⟩
  else
    let (lower, exact, c) := f.roundMag rm neg w24 x
    if exact && lower ≤ f.maxCode then ⟨f.code neg lower, 0, lower, true, false, some lower⟩
    else if c > f.maxCode then
      let (b, fl, m) := f.overflow rm sat neg
      ⟨b, fl, lower, false, true, m⟩
    else
      let tiny := (x.sub f.minNormal).sign < 0
      let fl := if tiny then fInexact ||| fUnderflow else fInexact
      let bits := if c = 0 ∧ f = .lns6 then 0 else f.code neg c
      ⟨bits, fl, lower, false, false, some c⟩

/-- R60 and Table 2.4 for a floating-point target. -/
def Fmt.roundTo (f : Fmt) (rm : Rm) (sat : Bool) (w24 : Nat) (v : FV) : Rnd :=
  match v with
  | .nan sig =>
    let fl := if sig || f.finiteOnly then fInvalid else 0
    ⟨f.nan, fl, 0, true, false, none⟩
  | .inf neg =>
    match f.infCode with
    | some c => ⟨f.code neg c, 0, 0, true, false, none⟩
    | none =>
      if f.finiteOnly then ⟨f.code neg f.maxCode, fSaturated, 0, true, false, some f.maxCode⟩
      else if sat then ⟨f.code neg f.maxCode, fSaturated, 0, true, false, some f.maxCode⟩
      else ⟨f.nan, fInvalid, 0, true, false, none⟩
  | .fin neg m => f.roundFin rm sat w24 neg m

/-- A real as a finite value; a zero takes the given sign. -/
def FV.ofRE (zeroNeg : Bool) (x : RE) : FV :=
  let s := x.sign
  if s < 0 then .fin true x.minus else if s = 0 then .fin zeroNeg .zero else .fin false x

/-! ## Variance of a rounding (R59) -/

/-- A variance or glove value: +∞ or a real. -/
inductive VV where
  | inf | re (x : RE)
  deriving DecidableEq, Repr

def VV.zero : VV := .re .zero
def VV.add : VV → VV → VV
  | .re x, .re y => .re (x.plus y)
  | _, _ => .inf
def VV.scale (k : RE) : VV → VV
  | .re x => .re (x.times k)
  | .inf => .inf

/-- RoundVar before its own rounding, exact. -/
def Fmt.roundVar (f : Fmt) (rm : Rm) (v : FV) (r : Rnd) : VV :=
  match v with
  | .nan _ | .inf _ => .zero
  | .fin _ x =>
    if r.exact then .zero
    else match r.fin with
      | none => .inf
      | some c =>
        if r.ovf then .re ((x.sub (f.mag c)).sq)
        else
          let a := f.mag r.lower
          let b := f.mag (r.lower + 1)
          match rm with
          | .rne => .re ((b.sub a).sq.times (.rat ⟨1, 12⟩))
          | .sr => .re ((x.sub a).times (b.sub x))
          | _ => .re ((b.sub a).sq.times (.rat ⟨1, 3⟩))

/-! ## binary32 helpers -/

/-- RoundTo(F32, x, rm) of a real, bits only. -/
def f32Of (rm : Rm) (x : RE) : Word := BitVec.ofNat 32 (Fmt.f32.roundTo rm false 0 (FV.ofRE false x)).bits

def f32Inf : Word := 0x7F800000
def f32NInf : Word := 0xFF800000
def f32Nan : Word := 0x7FC00000

/-- RoundUpVar (R104): RU, and +∞ for a NaN. -/
def roundUpVar : VV → Word
  | .inf => f32Inf
  | .re x => f32Of .ru x

/-- RoundAway (R104). -/
def roundAway (x : RE) : Word := if x.sign < 0 then f32Of .rd x else f32Of .ru x

/-- The value of a binary32 word. -/
def f32 (w : Word) : FV := Fmt.f32.decode w.toNat

/-! ## Conversion to an integer (R60) -/

/-- Integer targets. -/
inductive ITy where
  | i32 | u32 | i64
  deriving DecidableEq, Repr

def ITy.lo : ITy → Int
  | .i32 => -2 ^ 31 | .u32 => 0 | .i64 => -2 ^ 63
def ITy.hi : ITy → Int
  | .i32 => 2 ^ 31 - 1 | .u32 => 2 ^ 32 - 1 | .i64 => 2 ^ 63 - 1

/-- A real rounded to an integer under a mode: the integer and whether it is exact. RNE ties go to even. -/
def roundInt (rm : Rm) (w24 : Nat) (x : RE) : Int × Bool :=
  let a := x.decide Q.floor
  let d := x.sub (.ofInt a)
  if d.sign ≤ 0 then (a, true)
  else
    let near := (d.plus d |>.sub .one).sign
    let up : Bool := match rm with
      | .rne => if near = 0 then a % 2 == 1 else near > 0
      | .rtz => a < 0
      | .ru => true
      | .rd => false
      | .sr => ((d.times (.rat (Q.pow2 24))).decide Q.floor).toNat + w24 ≥ 2 ^ 24
    (if up then a + 1 else a, false)

/-- Conversion of a value to an integer type: the integer and the flags. -/
def ITy.convert (t : ITy) (rm : Rm) (w24 : Nat) (v : FV) : Int × Word :=
  match v with
  | .nan _ => (0, fInvalid)
  | .inf neg => (if neg then t.lo else t.hi, fInvalid)
  | .fin _ _ =>
    let (i, exact) := roundInt rm w24 v.real
    if i < t.lo then (t.lo, fInvalid)
    else if i > t.hi then (t.hi, fInvalid)
    else (i, if exact then 0 else fInexact)

end Sys2Proof.Machine
end

