-- ==== Sys2Proof/Config.lean ====
section
/-! DEFINITION. The free values: what the spec leaves open (R6, R7, R8 and the log entries named). None has a body, so no
statement can rest on a value of one. -/

namespace Sys2Proof.Config

/-- An undefined word (R6, log 1): the counter `tick` of the step and an index within the step. -/
opaque freeWord : Nat → Nat → BitVec 32
/-- A byte of a line shown under a key that it was not written under: the tick at which it is first shown so, its address (R372,
log 16). -/
opaque scrambled : Nat → Nat → BitVec 8
/-- A free choice among alternatives (log 1, log 22). -/
opaque freeNat : Nat → Nat → Nat
/-- The place of a lane in the order of the lanes of one instruction of a deterministic launch (R196, R288, log 22). -/
opaque laneRank : Nat → Nat
/-- Which of several launches of a die that carry one LAUNCHID a wired barrier binds: the LAUNCHID (R8, R352, log 23). -/
opaque boundTwin : Nat → Nat
/-- Nanoseconds that pass in a step (log 4). -/
opaque timeStep : Nat → Nat
/-- Clock cycles that an island runs in a step: tick, die (0 or 1), island (log 4). -/
opaque clockStep : Nat → Nat → Nat → Nat
/-- The L2 set of a line (R231 names sets and states no mapping, log 1). -/
opaque l2Set : Nat → Nat
/-- Byte i of a save area, from the tick of the save: the format is the device's own (R317, log 14). -/
opaque saveByte : Nat → Nat → BitVec 8
/-- Byte i of a sealed image, from the tick (R158, log 14). -/
opaque imageByte : Nat → Nat → BitVec 8
/-- The format version of save areas that this package writes (R317, log 14). -/
opaque formatVersion : Nat
/-- Whether `sys.ctxld` accepts another format version (R317, log 14). -/
opaque acceptsVersion : Nat → Bool
/-- The key named for the destination of a sealing, 0 for the package's own: from the tick (R374, log 14). -/
opaque sealKey : Nat → Nat
/-- Whether the package holds a migration key agreed with another package: tick, key (R374, log 14). -/
opaque holdsKey : Nat → Nat → Bool
/-- Whether both signatures of a firmware image verify (R370, log 15). -/
opaque firmwareSigned : Nat → Nat → Bool
/-- Whether a firmware image raises the fused minimum (R370, log 15). -/
opaque firmwareRaises : Nat → Bool
/-- The answer to an SPDM request, from the identity, the measurements of firmware, configuration and fuses, and the request (R371,
log 15). -/
opaque spdmAnswer : Nat → List Nat → List (BitVec 8) → List (BitVec 8)
/-- Cores that fail the self-test of a reset: tick, die (R349, log 34). -/
opaque failedCores : Nat → Nat → BitVec 160
/-- A telemetry reading: tick, die, and which field (R369, log 4). -/
opaque sensor : Nat → Nat → Nat → Nat
/-- Whether the packages' roots of trust have established a security association: tick, die, index (R373, log 15). -/
opaque saEstablished : Nat → Nat → Nat → Bool
/-- Whether a die lacks the resources to queue a loaded team (R158 status 3, log 14). -/
opaque lacksResources : Nat → Bool

end Sys2Proof.Config
end

