-- ==== Sys2Proof/Syntax.lean ====
section
/-! DEFINITION. The syntax: one record per instruction format of spec/03 (tables 3.3 to 3.8, R87, R93)
and of spec/08 (format X), and `Instr`, one constructor per row of spec/opcode_table.json. An instruction
constructor carries every bit of its words below the opcode, reserved fields included, so that the rank-3
checks of a field stand in the machine and nothing of a word is lost. An event constructor carries what
names the event (which die, group, gang, lane, or the data an outside agent brings). -/

namespace Sys2Proof

/-- The two compute dies, R1. -/
inductive DieId where
  | cd0 | cd1
  deriving DecidableEq, Repr

/-- Second operand of format S by MODE (R87, R127). `rsv` are bits [9:4] under MODE 0b10 and 0b11. -/
inductive SOp where
  | reg (sb : BitVec 6) (func : BitVec 4)
  | imm10 (v : BitVec 10)
  | imm32 (rsv : BitVec 6) (func : BitVec 4) (w : Word)
  | imm64 (rsv : BitVec 6) (func : BitVec 4) (lo hi : Word)
  deriving DecidableEq, Repr

/-- Format S (Table 3.5). -/
structure SForm where
  sd : BitVec 6
  sa : BitVec 6
  op : SOp
  deriving DecidableEq, Repr

/-- Format E (Table 3.4); `sel` are bits [5:0] (R161, R117). -/
structure EForm where
  c : BitVec 7
  type : BitVec 3
  rnd : BitVec 3
  sat : BitVec 1
  neg : BitVec 3
  abs : BitVec 3
  sreg : BitVec 6
  sel : BitVec 6
  deriving DecidableEq, Repr

/-- Format A with its E word and immediate word, where they follow (Table 3.3, R82, R83). -/
structure VForm where
  d : BitVec 7
  a : BitVec 7
  b : BitVec 7
  hold : BitVec 3
  e : Option EForm
  imm : Option Word
  deriving DecidableEq, Repr

/-- Format M (Table 3.6). -/
structure MForm where
  vd : BitVec 7
  sb : BitVec 6
  vo : BitVec 7
  iscale : BitVec 2
  tag : BitVec 2
  imm16 : BitVec 16
  scope : BitVec 3
  order : BitVec 2
  policy : BitVec 3
  swz : BitVec 3
  width : BitVec 3
  rsv : BitVec 2
  deriving DecidableEq, Repr

/-- Format P (R93). -/
structure PForm where
  opr : BitVec 7
  pmod : BitVec 17
  deriving DecidableEq, Repr

/-- `mx.crew` (Table 8.1). -/
structure CrewForm where
  qmask : BitVec 4
  rsv0 : BitVec 20
  rsv1 : BitVec 8
  gq : BitVec 24
  deriving DecidableEq, Repr

/-- `mx.zero` (R248). -/
structure ZeroForm where
  mask : BitVec 8
  rsv0 : BitVec 16
  w1 : Word
  deriving DecidableEq, Repr

/-- The arithmetic matrix instructions (Table 8.3). -/
structure MxForm where
  acc : BitVec 3
  vb : BitVec 7
  sa : BitVec 6
  tm : BitVec 2
  ss : BitVec 6
  fa : BitVec 4
  fb : BitVec 4
  scaled : BitVec 1
  bc : BitVec 2
  swz : BitVec 3
  sv : BitVec 6
  vbv : BitVec 7
  rsv1 : BitVec 5
  pitch : BitVec 12
  rsv2 : BitVec 20
  deriving DecidableEq, Repr

/-- `mx.ldc` (R249), less its KIND, which picks the constructor. -/
structure LdcForm where
  acc : BitVec 3
  vb : BitVec 7
  sa : BitVec 6
  tm : BitVec 2
  rsv0 : BitVec 4
  pitch : BitVec 12
  nreg : BitVec 5
  swz : BitVec 3
  rsv1 : BitVec 12
  deriving DecidableEq, Repr

/-- `mx.stc` (Table 8.4). -/
structure StcForm where
  acc : BitVec 3
  rsv0 : BitVec 7
  sa : BitVec 6
  tm : BitVec 2
  rsv1 : BitVec 6
  outf : BitVec 4
  rsv2 : BitVec 4
  var : BitVec 1
  rsv3 : BitVec 2
  swz : BitVec 3
  rnd : BitVec 3
  sat : BitVec 1
  rsv4 : BitVec 14
  pitch : BitVec 12
  rsv5 : BitVec 20
  deriving DecidableEq, Repr

/-- `mx.stat` (R252). -/
structure StatForm where
  sd : BitVec 6
  acc : BitVec 3
  rsv0 : BitVec 15
  w1 : Word
  deriving DecidableEq, Repr

/-- The copy commands, `coll.start` and `launch` (Table 8.6). -/
structure CpForm where
  sd : BitVec 6
  ss : BitVec 6
  sl : BitVec 6
  dtm : BitVec 2
  stm : BitVec 2
  rsv0 : BitVec 2
  scope : BitVec 3
  policy : BitVec 3
  dswz : BitVec 3
  sswz : BitVec 3
  sx : BitVec 6
  xsp : BitVec 2
  rsv1 : BitVec 12
  spitch : BitVec 16
  dpitch : BitVec 16
  deriving DecidableEq, Repr

/-- `cp.close` (SD, SE, EVT), `cp.wait` (SB) and `evt.add` (SA, SV, AFTER): R261, R262, R267. -/
structure EvForm where
  r1 : BitVec 6
  r2 : BitVec 6
  bit : BitVec 1
  rsv0 : BitVec 11
  scope : BitVec 3
  rsv1 : BitVec 29
  deriving DecidableEq, Repr

/-- A link of the package: the die-to-die links of Table 12.1 and the external ports of Table 12.3. -/
inductive LinkId where
  | cdCd
  | cdXd (c x : DieId)
  | uaLink (x : DieId) (port : Nat)
  | uet (x : DieId) (port : Nat)
  | pcie (x : DieId)
  deriving DecidableEq, Repr

/-- The thermal limits of R366. -/
inductive ThermalEvent where
  | die100 (up : Bool) | die110 | dieBelow95 | hbm85 (up : Bool) | hbm95 | hbmBelow90 | die120
  deriving DecidableEq, Repr

/-- Where an uncorrectable error is found (Table 11.9). -/
inductive ErrSite where
  | hbm (pa : Nat)
  | l2 (pa : Nat) (dirty : Bool)
  | l1 (pa : Nat) (dirty : Bool)
  | teamSpad (team off : Nat)
  | dieSpad (off : Nat)
  | regs (gid : Nat)
  | array (gid acc row : Nat) (residue : Bool)
  | writeLog (gid lane : Nat)
  | validation (gid lane : Nat) (pa : Nat)
  deriving DecidableEq, Repr

/-- What patrol scrub finds at a line (R367). -/
inductive ScrubFinding where
  | clean | correctable (cls : Nat) | uncorrectable (site : ErrSite)
  deriving DecidableEq, Repr

/-- A request of another package for a word of this package's memory (R361). -/
inductive RemoteOp where
  | load (bytes : Nat)
  | store (data : List Byte)
  | atomic (atop : Nat) (w64 : Bool) (operand : DWord)
  | cas (w64 : Bool) (cmp new : DWord)
  deriving DecidableEq, Repr

/-- TDISP states of a function (R371). -/
inductive TdispState where
  | unlocked | locked | run
  deriving DecidableEq, Repr

/-- One constructor per row of spec/opcode_table.json. -/
inductive Instr where
  -- scalar ALU, opcodes 0x01 to 0x24
  | nop (f : SForm)
  | sMov (f : SForm) | sMovk (f : SForm) | sAdd (f : SForm) | sSub (f : SForm)
  | sMul (f : SForm) | sMulhu (f : SForm) | sMulhs (f : SForm)
  | sDivu (f : SForm) | sDivs (f : SForm) | sRemu (f : SForm) | sRems (f : SForm)
  | sAnd (f : SForm) | sOr (f : SForm) | sXor (f : SForm) | sAndn (f : SForm)
  | sShl (f : SForm) | sShr (f : SForm) | sSar (f : SForm)
  | sPopc (f : SForm) | sClz (f : SForm) | sCtz (f : SForm)
  | sMins (f : SForm) | sMinu (f : SForm) | sMaxs (f : SForm) | sMaxu (f : SForm)
  | sCmp (f : SForm) | sSel (f : SForm) | sBfx (f : SForm) | sBfi (f : SForm)
  | sLea (f : SForm) | sLeaPc (f : SForm) | sGetlane (f : SForm)
  | sRdsr (f : SForm) | sWrsr (f : SForm) | sSetfmt (f : SForm) | sGetfmt (f : SForm)
  | drawbaseWrite (f : SForm)
  -- vector ALU, opcodes 0x30 to 0x6F
  | vMov (f : VForm) | vSetlane (f : VForm) | vIota (f : VForm) | vAdd (f : VForm) | vSub (f : VForm)
  | vMul (f : VForm) | vMulhu (f : VForm) | vMulhs (f : VForm) | vMad (f : VForm)
  | vAnd (f : VForm) | vOr (f : VForm) | vXor (f : VForm) | vAndn (f : VForm)
  | vShl (f : VForm) | vShr (f : VForm) | vSar (f : VForm)
  | vMins (f : VForm) | vMinu (f : VForm) | vMaxs (f : VForm) | vMaxu (f : VForm)
  | vIcmp (f : VForm) | vSel (f : VForm) | vPopc (f : VForm) | vClz (f : VForm)
  | vBfx (f : VForm) | vBfi (f : VForm) | vAdd64 (f : VForm) | vSub64 (f : VForm)
  | vShfl (f : VForm) | vShflx (f : VForm) | vIred (f : VForm) | vIscan (f : VForm)
  | vFadd (f : VForm) | vFsub (f : VForm) | vFmul (f : VForm) | vFfma (f : VForm)
  | vFmin (f : VForm) | vFmax (f : VForm) | vFdiv (f : VForm) | vFsqrt (f : VForm)
  | vFrsq (f : VForm) | vFrcp (f : VForm) | vFexp2 (f : VForm) | vFlog2 (f : VForm)
  | vFsinpi (f : VForm) | vFcospi (f : VForm) | vFtanh (f : VForm) | vFround (f : VForm)
  | vFcmp (f : VForm) | vFclass (f : VForm) | vFcvt (f : VForm) | vCvtfi (f : VForm) | vCvtif (f : VForm)
  | vQpack (f : VForm) | vQunpack (f : VForm) | vMxquant (f : VForm) | vMxdeq (f : VForm)
  | vFdot2 (f : VForm) | vFred (f : VForm) | vFscan (f : VForm)
  | vRndu (f : VForm) | vRndn (f : VForm) | vRndg (f : VForm) | vArgmax (f : VForm)
  -- distribution instructions, opcodes 0x70 to 0x76, and prefixes
  | vDvar (f : VForm) | vDset (f : VForm) | vDgetd (f : VForm) | vDsetd (f : VForm)
  | vDclr (f : VForm) | vDnoise (f : VForm) | vDchk (f : VForm)
  | pfxDual (p : PForm) | pfxMom (p : PForm) | pfxPt (p : PForm) | pfxSr (p : PForm)
  -- memory, opcodes 0x80 to 0x9C
  | vLd (m : MForm) | vSt (m : MForm) | vLdsp (m : MForm) | vStsp (m : MForm)
  | sLd (m : MForm) | sSt (m : MForm) | vLdl (m : MForm) | vStl (m : MForm)
  | vAtom (m : MForm) | vCas (m : MForm) | vRed (m : MForm) | sAtom (m : MForm) | sCas (m : MForm)
  | chunkTake (m : MForm) | monArm (m : MForm) | monWait (m : MForm) | fence (m : MForm)
  | txBegin (m : MForm) | txEnd (m : MForm) | txAbort (m : MForm) | txStat (m : MForm)
  | keyWait (m : MForm) | keyPass (m : MForm)
  | tagSet (m : MForm) | tagGet (m : MForm) | tagGetWait (m : MForm)
  | prefetch (m : MForm) | cacheRetain (m : MForm) | cacheUnpin (m : MForm)
  | cacheOpIfetch (m : MForm) | cacheOpEvl1 (m : MForm) | cacheOpEvl2 (m : MForm)
  -- matrix, opcodes 0xA0 to 0xA8
  | mxCrew (x : CrewForm) | mxZero (x : ZeroForm)
  | mxMma (x : MxForm) | mxMmad (x : MxForm) | mxMmac (x : MxForm) | mxMma64 (x : MxForm)
  | mxLdc (x : LdcForm) | mxLdcVar (x : LdcForm) | mxLdcB (x : LdcForm) | mxLdcF64 (x : LdcForm)
  | mxStc (x : StcForm) | mxStat (x : StatForm)
  -- copy, collective and launch, opcodes 0xB0 to 0xB9
  | cpLoad (c : CpForm) | cpStore (c : CpForm) | cpGather (c : CpForm) | cpXfer (c : CpForm)
  | cpFill (c : CpForm) | cpClose (v : EvForm) | cpWait (v : EvForm)
  | collStart (c : CpForm) | launch (c : CpForm) | evtAdd (v : EvForm)
  -- control, opcodes 0xC0 to 0xCD
  | br (off : BitVec 24)
  | brc (sr : BitVec 6) (cond : BitVec 3) (off : BitVec 15)
  | brm (rsv : BitVec 6) (cond : BitVec 3) (off : BitVec 15)
  | jmp (t lr : BitVec 6) (link : BitVec 1) (rsv : BitVec 11)
  | call (lr : BitVec 6) (off : BitVec 18)
  | ret (t : BitVec 6) (rsv : BitVec 18)
  | part (m h : BitVec 6) (all : BitVec 1) (toff : BitVec 11)
  | regang (rsv : BitVec 24)
  | bar (num : BitVec 4) (roles : BitVec 3) (arrive : BitVec 1) (rsv : BitVec 16)
  | wbar (num : BitVec 6) (arrive : BitVec 1) (rsv : BitVec 17)
  | yield (rsv : BitVec 24) | exit (rsv : BitVec 24)
  | trap (code : BitVec 8) (rsv : BitVec 16) | brk (code : BitVec 8) (rsv : BitVec 16)
  -- system, opcodes 0xF0 to 0xFA
  | sysRdcr (sd : BitVec 6) (sel : BitVec 10) (rsv : BitVec 8)
  | sysWrcr (sa : BitVec 6) (sel : BitVec 10) (rsv : BitVec 8)
  | sysEret (rsv : BitVec 24)
  | sysTlbiAll (sa : BitVec 6) (rsv : BitVec 16)
  | sysTlbiPage (sa : BitVec 6) (rsv : BitVec 16)
  | sysTlbiCore (sa : BitVec 6) (rsv : BitVec 16)
  | sysReplay (rsv : BitVec 24)
  | sysFltpop (sd : BitVec 6) (rsv : BitVec 18)
  | sysCtxsv (sd sa sb : BitVec 6) (rsv : BitVec 6)
  | sysCtxld (sd sa : BitVec 6) (rsv : BitVec 12)
  | sysPreempt (sa sb : BitVec 6) (force : BitVec 2) (rsv : BitVec 10)
  | sysIpi (sa : BitVec 6) (rsv : BitVec 18)
  | sysHalt (rsv : BitVec 24)
  -- events of issue and completion
  | clauseIssueSelect (d : DieId) (core quad : Nat)
  | clauseFetch (gid gang : Nat)
  | longLatencyComplete (gid op : Nat) (word : Option Nat)
  | faultSplitRejoin (gid split : Nat)
  | monWaitWake (gid gang : Nat) | monWaitDeadline (gid gang : Nat)
  | txCommit (gid lane : Nat) | lockGrant (d : DieId)
  | keyedOpPerform (gid : Nat) | keyRoundPass (team : Nat)
  | tagWaitSatisfy (gid gang lane : Nat)
  | crewOpExecute (op : Nat)
  | copyCommandExecute (gid cmd : Nat) | batchComplete (gid : Nat)
  | collectiveExecute (coll : Nat)
  | collectiveMessageReceive (d : DieId) (comm seq rank : Nat) (data : List DWord)
  | collectiveRankTimeout (coll : Nat)
  | peerLaunchAppend (d : DieId)
  | wbarRelease (n : Nat)
  | heldGangHandlerEntry (gid : Nat) | poisonDelivery (gid gang : Nat)
  -- translation and fault events
  | pageWalk (d : DieId) (core : Nat) (va : DWord) (write fetch priv lostRace : Bool)
  | faultReplay (d : DieId) (v : DWord) (tr : Bool)
  -- host register writes: `tr` where the writer is within the trusted domain of the function (R371)
  | interruptStatusWrite (d : DieId) (v : Word) (tr : Bool) | interruptEnableWrite (d : DieId) (v : Word) (tr : Bool)
  | faultBufferStatusWrite (d : DieId) (v : Word) (tr : Bool)
  | dspadGrantWrite (d : DieId) (n : Nat) (v : DWord) (tr : Bool)
  | launchAnchorWrite (d : DieId) (n : Nat) (v : DWord) (tr : Bool)
  | wbarMemberWrite (d : DieId) (core : Nat) (v : DWord) (tr : Bool)
  | wbarBindWrite (d : DieId) (n : Nat) (v : DWord) (tr : Bool)
  | powerLimitWrite (d : DieId) (v : Word) (tr : Bool)
  | freqReq (d : DieId) (v : DWord) (tr : Bool) | linkReq (d : DieId) (v : DWord) (tr : Bool)
  | powerRequestComplete (d : DieId)
  | controlRegisterWrite (d : DieId) (off : Nat) (v : DWord) (tr : Bool)
  -- launch front-end and dispatcher
  | listWatchWake (d : DieId) (n : Nat) | recordTake (d : DieId) (n : Nat)
  | conditionTest (launch : Nat) | conditionPoll (launch : Nat)
  | teamDispatch (d : DieId) | dispatchWaitTimeout (launch : Nat) | islandPowerUp (d : DieId) (island : Nat)
  | launchComplete (launch : Nat)
  -- pre-emption
  | preemptDrainDeadline (d : DieId) | preemptDiscard (d : DieId) | preemptSave (d : DieId)
  -- package
  | linkDown (l : LinkId) | linkUp (l : LinkId) | flitRetry (l : LinkId)
  | thermalLimitCrossing (d : DieId) (e : ThermalEvent) | powerClockAdjust (d : DieId) (steps : Nat)
  | telemetryUpdate (d : DieId)
  | patrolScrub (d : DieId) (f : ScrubFinding) | wearRemap (d : DieId) (pa : Nat)
  | uncorrectableError (d : DieId) (site : ErrSite) | correctableError (d : DieId) (cls : Nat)
  | functionReset (d : DieId) (held memOff : Bool) | firmwareImageVerify (image version : Nat)
  | spdmRequest (d : DieId) (req : List Byte) | contextKeySlotUpdate (d : DieId) (slot : Nat) (fill : Bool)
  | tdispStateChange (d : DieId) (t : TdispState)
  | bar2Access (d : DieId) (off : Nat) (wr : Option (List Byte)) (bytes : Nat)
  | remoteMemoryRequest (pa : Nat) (r : RemoteOp)
  | packagePowerOnReset
  | cxlMemRequest (pa : Nat) (wr : Option (List Byte)) (bytes : Nat)
  | cxlCacheSnoop (pa : Nat) (data : List Byte)
  deriving DecidableEq, Repr

end Sys2Proof
end

