-- ==== Sys2Proof/Decode.lean ====
section
/-! DEFINITION. Decoding and encoding of instruction words (spec/03 R82 to R95, spec/05 Tables 3.5, 5.2, 5.3,
spec/08 Tables 8.1 to 8.6). `decode` is total on any list of words, rejects by name, and keeps every bit of the
words below the opcode, reserved fields included; `encode` is written from the same tables. -/

namespace Sys2Proof

/-- Why a list of words is no instruction (R75 step 4, R95, R96; `field` is a field value that has no row, R5). -/
inductive DecErr where
  | opcode | field | truncated
  deriving DecidableEq, Repr

/-- The instruction the words begin with and how many words it has, or a rejection. -/
inductive Dec where
  | ok (i : Instr) (len : Nat)
  | bad (e : DecErr)
  deriving DecidableEq, Repr

/-- What an opcode selects (Table 3.9, Table 3.10). -/
inductive OpKind where
  | reserved
  | s (c : SForm → Instr) | lea | wrsr
  | v (always : Bool) (c : VForm → Instr)
  | m (c : MForm → Instr) | tagGet | cacheOp
  | p (c : PForm → Instr)
  | crew | zero | mx (c : MxForm → Instr) | ldc | stc | stat
  | cp (c : CpForm → Instr) | ev (c : EvForm → Instr)
  | one (c : Word → Instr) | tlbi

/-- Bits [lo + n - 1 : lo] of a word. -/
abbrev fld (w : Word) (lo n : Nat) : BitVec n := w.extractLsb' lo n

/-- Row 0x0_ of Table 3.10. -/
def opRow0 : Nat → OpKind
  | 0x1 => .s .nop
  | 0x2 => .s .sMov
  | 0x3 => .s .sMovk
  | 0x4 => .s .sAdd
  | 0x5 => .s .sSub
  | 0x6 => .s .sMul
  | 0x7 => .s .sMulhu
  | 0x8 => .s .sMulhs
  | 0x9 => .s .sDivu
  | 0xA => .s .sDivs
  | 0xB => .s .sRemu
  | 0xC => .s .sRems
  | 0xD => .s .sAnd
  | 0xE => .s .sOr
  | 0xF => .s .sXor
  | _ => .reserved

/-- Row 0x1_ of Table 3.10. -/
def opRow1 : Nat → OpKind
  | 0x0 => .s .sAndn
  | 0x1 => .s .sShl
  | 0x2 => .s .sShr
  | 0x3 => .s .sSar
  | 0x4 => .s .sPopc
  | 0x5 => .s .sClz
  | 0x6 => .s .sCtz
  | 0x7 => .s .sMins
  | 0x8 => .s .sMinu
  | 0x9 => .s .sMaxs
  | 0xA => .s .sMaxu
  | 0xB => .s .sCmp
  | 0xC => .s .sSel
  | 0xD => .s .sBfx
  | 0xE => .s .sBfi
  | _ => .lea

/-- Row 0x2_ of Table 3.10. -/
def opRow2 : Nat → OpKind
  | 0x0 => .s .sGetlane
  | 0x1 => .s .sRdsr
  | 0x2 => .wrsr
  | 0x3 => .s .sSetfmt
  | 0x4 => .s .sGetfmt
  | _ => .reserved

/-- Row 0x3_ of Table 3.10. -/
def opRow3 : Nat → OpKind
  | 0x0 => .v false .vMov
  | 0x1 => .v true .vSetlane
  | 0x2 => .v false .vIota
  | 0x3 => .v false .vAdd
  | 0x4 => .v false .vSub
  | 0x5 => .v false .vMul
  | 0x6 => .v false .vMulhu
  | 0x7 => .v false .vMulhs
  | 0x8 => .v true .vMad
  | 0x9 => .v false .vAnd
  | 0xA => .v false .vOr
  | 0xB => .v false .vXor
  | 0xC => .v false .vAndn
  | 0xD => .v false .vShl
  | 0xE => .v false .vShr
  | _ => .v false .vSar

/-- Row 0x4_ of Table 3.10. -/
def opRow4 : Nat → OpKind
  | 0x0 => .v false .vMins
  | 0x1 => .v false .vMinu
  | 0x2 => .v false .vMaxs
  | 0x3 => .v false .vMaxu
  | 0x4 => .v true .vIcmp
  | 0x5 => .v true .vSel
  | 0x6 => .v false .vPopc
  | 0x7 => .v false .vClz
  | 0x8 => .v true .vBfx
  | 0x9 => .v true .vBfi
  | 0xA => .v false .vAdd64
  | 0xB => .v false .vSub64
  | 0xC => .v true .vShfl
  | 0xD => .v false .vShflx
  | 0xE => .v true .vIred
  | _ => .v true .vIscan

/-- Row 0x5_ of Table 3.10. -/
def opRow5 : Nat → OpKind
  | 0x0 => .v true .vFadd
  | 0x1 => .v true .vFsub
  | 0x2 => .v true .vFmul
  | 0x3 => .v true .vFfma
  | 0x4 => .v true .vFmin
  | 0x5 => .v true .vFmax
  | 0x6 => .v true .vFdiv
  | 0x7 => .v true .vFsqrt
  | 0x8 => .v true .vFrsq
  | 0x9 => .v true .vFrcp
  | 0xA => .v true .vFexp2
  | 0xB => .v true .vFlog2
  | 0xC => .v true .vFsinpi
  | 0xD => .v true .vFcospi
  | 0xE => .v true .vFtanh
  | _ => .v true .vFround

/-- Row 0x6_ of Table 3.10. -/
def opRow6 : Nat → OpKind
  | 0x0 => .v true .vFcmp
  | 0x1 => .v true .vFclass
  | 0x2 => .v true .vFcvt
  | 0x3 => .v true .vCvtfi
  | 0x4 => .v true .vCvtif
  | 0x5 => .v true .vQpack
  | 0x6 => .v true .vQunpack
  | 0x7 => .v true .vMxquant
  | 0x8 => .v true .vMxdeq
  | 0x9 => .v true .vFdot2
  | 0xA => .v true .vFred
  | 0xB => .v true .vFscan
  | 0xC => .v false .vRndu
  | 0xD => .v false .vRndn
  | 0xE => .v false .vRndg
  | _ => .v true .vArgmax

/-- Row 0x7_ of Table 3.10. -/
def opRow7 : Nat → OpKind
  | 0x0 => .v true .vDvar
  | 0x1 => .v true .vDset
  | 0x2 => .v true .vDgetd
  | 0x3 => .v true .vDsetd
  | 0x4 => .v true .vDclr
  | 0x5 => .v true .vDnoise
  | 0x6 => .v true .vDchk
  | _ => .reserved

/-- Row 0x8_ of Table 3.10. -/
def opRow8 : Nat → OpKind
  | 0x0 => .m .vLd
  | 0x1 => .m .vSt
  | 0x2 => .m .vLdsp
  | 0x3 => .m .vStsp
  | 0x4 => .m .sLd
  | 0x5 => .m .sSt
  | 0x6 => .m .vLdl
  | 0x7 => .m .vStl
  | 0x8 => .m .vAtom
  | 0x9 => .m .vCas
  | 0xA => .m .vRed
  | 0xB => .m .sAtom
  | 0xC => .m .sCas
  | 0xD => .m .chunkTake
  | 0xE => .m .monArm
  | _ => .m .monWait

/-- Row 0x9_ of Table 3.10. -/
def opRow9 : Nat → OpKind
  | 0x0 => .m .fence
  | 0x1 => .m .txBegin
  | 0x2 => .m .txEnd
  | 0x3 => .m .txAbort
  | 0x4 => .m .txStat
  | 0x5 => .m .keyWait
  | 0x6 => .m .keyPass
  | 0x7 => .m .tagSet
  | 0x8 => .tagGet
  | 0x9 => .m .prefetch
  | 0xA => .m .cacheRetain
  | 0xB => .m .cacheUnpin
  | 0xC => .cacheOp
  | _ => .reserved

/-- Row 0xA_ of Table 3.10. -/
def opRowA : Nat → OpKind
  | 0x0 => .crew
  | 0x1 => .zero
  | 0x2 => .mx .mxMma
  | 0x3 => .mx .mxMmad
  | 0x4 => .mx .mxMmac
  | 0x5 => .mx .mxMma64
  | 0x6 => .ldc
  | 0x7 => .stc
  | 0x8 => .stat
  | _ => .reserved

/-- Row 0xB_ of Table 3.10. -/
def opRowB : Nat → OpKind
  | 0x0 => .cp .cpLoad
  | 0x1 => .cp .cpStore
  | 0x2 => .cp .cpGather
  | 0x3 => .cp .cpXfer
  | 0x4 => .cp .cpFill
  | 0x5 => .ev .cpClose
  | 0x6 => .ev .cpWait
  | 0x7 => .cp .collStart
  | 0x8 => .cp .launch
  | 0x9 => .ev .evtAdd
  | _ => .reserved

/-- Row 0xC_ of Table 3.10. -/
def opRowC : Nat → OpKind
  | 0x0 => .one fun w => .br (fld w 0 24)
  | 0x1 => .one fun w => .brc (fld w 18 6) (fld w 15 3) (fld w 0 15)
  | 0x2 => .one fun w => .brm (fld w 18 6) (fld w 15 3) (fld w 0 15)
  | 0x3 => .one fun w => .jmp (fld w 18 6) (fld w 12 6) (fld w 11 1) (fld w 0 11)
  | 0x4 => .one fun w => .call (fld w 18 6) (fld w 0 18)
  | 0x5 => .one fun w => .ret (fld w 18 6) (fld w 0 18)
  | 0x6 => .one fun w => .part (fld w 18 6) (fld w 12 6) (fld w 11 1) (fld w 0 11)
  | 0x7 => .one fun w => .regang (fld w 0 24)
  | 0x8 => .one fun w => .bar (fld w 20 4) (fld w 17 3) (fld w 16 1) (fld w 0 16)
  | 0x9 => .one fun w => .wbar (fld w 18 6) (fld w 17 1) (fld w 0 17)
  | 0xA => .one fun w => .yield (fld w 0 24)
  | 0xB => .one fun w => .exit (fld w 0 24)
  | 0xC => .one fun w => .trap (fld w 16 8) (fld w 0 16)
  | 0xD => .one fun w => .brk (fld w 16 8) (fld w 0 16)
  | _ => .reserved

/-- Row 0xD_ of Table 3.10. -/
def opRowD : Nat → OpKind
  | 0x0 => .p .pfxDual
  | 0x1 => .p .pfxMom
  | 0x2 => .p .pfxPt
  | 0x3 => .p .pfxSr
  | _ => .reserved

/-- Row 0xF_ of Table 3.10. -/
def opRowF : Nat → OpKind
  | 0x0 => .one fun w => .sysRdcr (fld w 18 6) (fld w 8 10) (fld w 0 8)
  | 0x1 => .one fun w => .sysWrcr (fld w 18 6) (fld w 8 10) (fld w 0 8)
  | 0x2 => .one fun w => .sysEret (fld w 0 24)
  | 0x3 => .tlbi
  | 0x4 => .one fun w => .sysReplay (fld w 0 24)
  | 0x5 => .one fun w => .sysFltpop (fld w 18 6) (fld w 0 18)
  | 0x6 => .one fun w => .sysCtxsv (fld w 18 6) (fld w 12 6) (fld w 6 6) (fld w 0 6)
  | 0x7 => .one fun w => .sysCtxld (fld w 18 6) (fld w 12 6) (fld w 0 12)
  | 0x8 => .one fun w => .sysPreempt (fld w 18 6) (fld w 12 6) (fld w 10 2) (fld w 0 10)
  | 0x9 => .one fun w => .sysIpi (fld w 18 6) (fld w 0 18)
  | 0xA => .one fun w => .sysHalt (fld w 0 24)
  | _ => .reserved

/-- Table 3.10: what the opcode in bits [31:24] selects. 0x00, 0xFF and 0xE0 to 0xEF are no instructions (R96). -/
def opKind (op : Nat) : OpKind :=
  let lo := op % 16
  match op / 16 with
  | 0 => opRow0 lo
  | 1 => opRow1 lo
  | 2 => opRow2 lo
  | 3 => opRow3 lo
  | 4 => opRow4 lo
  | 5 => opRow5 lo
  | 6 => opRow6 lo
  | 7 => opRow7 lo
  | 8 => opRow8 lo
  | 9 => opRow9 lo
  | 10 => opRowA lo
  | 11 => opRowB lo
  | 12 => opRowC lo
  | 13 => opRowD lo
  | 15 => opRowF lo
  | _ => .reserved

/-- The opcode of an instruction's first word. -/
def opcodeOf (w : Word) : Nat := (fld w 24 8).toNat

/-- Format S (Table 3.5, R87): the fields and the words it takes. -/
def decS (w : Word) (rest : List Word) : Option (SForm × Nat) :=
  match fld w 10 2, rest with
  | 0, _ => some (⟨fld w 18 6, fld w 12 6, .reg (fld w 4 6) (fld w 0 4)⟩, 1)
  | 1, _ => some (⟨fld w 18 6, fld w 12 6, .imm10 (fld w 0 10)⟩, 1)
  | 2, x :: _ => some (⟨fld w 18 6, fld w 12 6, .imm32 (fld w 4 6) (fld w 0 4) x⟩, 2)
  | 3, x :: y :: _ => some (⟨fld w 18 6, fld w 12 6, .imm64 (fld w 4 6) (fld w 0 4) x y⟩, 3)
  | _, _ => none

/-- FUNC of a format S operand, 0 under MODE 0b01 (R127). -/
def SOp.func : SOp → BitVec 4
  | .reg _ f | .imm32 _ f _ | .imm64 _ f _ _ => f
  | .imm10 _ => 0

/-- Format E (Table 3.4). -/
def decE (w : Word) : EForm :=
  ⟨fld w 25 7, fld w 22 3, fld w 19 3, fld w 18 1, fld w 15 3, fld w 12 3, fld w 6 6, fld w 0 6⟩

/-- R83: whether an E word follows. -/
def needsE (always : Bool) (a b : BitVec 7) : Bool := always || a == 124 || b == 124

/-- R83: whether an immediate word follows. -/
def needsImm (a b : BitVec 7) (e : Option EForm) : Bool :=
  a == 125 || b == 125 || (e.any fun e => e.c == 125)

/-- Format A with its E and immediate words (Table 3.3, R82, R83). -/
def decV (always : Bool) (w : Word) (rest : List Word) : Option (VForm × Nat) :=
  let a := fld w 10 7
  let b := fld w 3 7
  let e? : Option (Option EForm × List Word) :=
    if needsE always a b then
      match rest with
      | x :: r => some (some (decE x), r)
      | [] => none
    else some (none, rest)
  match e? with
  | none => none
  | some (e, r) =>
    let n := if e.isSome then 2 else 1
    if needsImm a b e then
      match r with
      | x :: _ => some (⟨fld w 17 7, a, b, fld w 0 3, e, some x⟩, n + 1)
      | [] => none
    else some (⟨fld w 17 7, a, b, fld w 0 3, e, none⟩, n)

/-- Format M (Table 3.6). -/
def decM (w x : Word) : MForm :=
  ⟨fld w 17 7, fld w 11 6, fld w 4 7, fld w 2 2, fld w 0 2,
   fld x 16 16, fld x 13 3, fld x 11 2, fld x 8 3, fld x 5 3, fld x 2 3, fld x 0 2⟩

/-- Format P (R93). -/
def decP (w : Word) : PForm := ⟨fld w 17 7, fld w 0 17⟩

/-- `mx.crew` (Table 8.1). -/
def decCrew (w x : Word) : CrewForm := ⟨fld w 20 4, fld w 0 20, fld x 24 8, fld x 0 24⟩

/-- `mx.zero` (R248). -/
def decZero (w x : Word) : ZeroForm := ⟨fld w 16 8, fld w 0 16, x⟩

/-- The arithmetic matrix instructions (Table 8.3). -/
def decMx (w x y : Word) : MxForm :=
  ⟨fld w 21 3, fld w 14 7, fld w 8 6, fld w 6 2, fld w 0 6,
   fld x 28 4, fld x 24 4, fld x 23 1, fld x 21 2, fld x 18 3, fld x 12 6, fld x 5 7, fld x 0 5,
   fld y 20 12, fld y 0 20⟩

/-- `mx.ldc` less its KIND (R249). -/
def decLdc (w x : Word) : LdcForm :=
  ⟨fld w 21 3, fld w 14 7, fld w 8 6, fld w 6 2, fld w 0 4, fld x 20 12, fld x 15 5, fld x 12 3, fld x 0 12⟩

/-- `mx.stc` (Table 8.4). -/
def decStc (w x y : Word) : StcForm :=
  ⟨fld w 21 3, fld w 14 7, fld w 8 6, fld w 6 2, fld w 0 6,
   fld x 28 4, fld x 24 4, fld x 23 1, fld x 21 2, fld x 18 3, fld x 15 3, fld x 14 1, fld x 0 14,
   fld y 20 12, fld y 0 20⟩

/-- `mx.stat` (R252). -/
def decStat (w x : Word) : StatForm := ⟨fld w 18 6, fld w 15 3, fld w 0 15, x⟩

/-- The copy commands, `coll.start` and `launch` (Table 8.6). -/
def decCp (w x y : Word) : CpForm :=
  ⟨fld w 18 6, fld w 12 6, fld w 6 6, fld w 4 2, fld w 2 2, fld w 0 2,
   fld x 29 3, fld x 26 3, fld x 23 3, fld x 20 3, fld x 14 6, fld x 12 2, fld x 0 12,
   fld y 16 16, fld y 0 16⟩

/-- `cp.close`, `cp.wait` and `evt.add` (R261, R262, R267). -/
def decEv (w x : Word) : EvForm :=
  ⟨fld w 18 6, fld w 12 6, fld w 11 1, fld w 0 11, fld x 29 3, fld x 0 29⟩

/-- `s.lea.pc` is 0x1F with FUNC [3] set (R135). -/
def leaOf (f : SForm) : Instr := if f.op.func.getLsbD 3 then .sLeaPc f else .sLea f

/-- A write of selector 0x12 is DRAWBASE's (R38), every other one is `s.wrsr`'s (R133). -/
def wrsrOf (f : SForm) : Instr :=
  match f.op with
  | .imm10 v => if v = 0x12 then .drawbaseWrite f else .sWrsr f
  | _ => .sWrsr f

/-- `tag.get` by TAG (R205); TAG 3 has no row. -/
def tagGetOf (m : MForm) : Option Instr :=
  if m.tag = 0 then some (.tagGet m) else if m.tag = 3 then none else some (.tagGetWait m)

/-- `cache.op` by TAG (R232); TAG 3 is reserved. -/
def cacheOpOf (m : MForm) : Option Instr :=
  if m.tag = 0 then some (.cacheOpIfetch m) else if m.tag = 1 then some (.cacheOpEvl1 m)
  else if m.tag = 2 then some (.cacheOpEvl2 m) else none

/-- `mx.ldc` by KIND (R249). -/
def ldcOf (kind : BitVec 2) (x : LdcForm) : Instr :=
  if kind = 0 then .mxLdc x else if kind = 1 then .mxLdcVar x else if kind = 2 then .mxLdcB x else .mxLdcF64 x

/-- `sys.tlbi` by KIND (R156); KIND 3 traps ILLEGAL_OPERAND. -/
def tlbiOf (w : Word) : Option Instr :=
  let k := fld w 16 2
  if k = 0 then some (.sysTlbiAll (fld w 18 6) (fld w 0 16))
  else if k = 1 then some (.sysTlbiPage (fld w 18 6) (fld w 0 16))
  else if k = 2 then some (.sysTlbiCore (fld w 18 6) (fld w 0 16))
  else none

/-- Two-word formats. -/
def dec2 (rest : List Word) (c : Word → Option Instr) : Dec :=
  match rest with
  | x :: _ => match c x with
    | some i => .ok i 2
    | none => .bad .field
  | [] => .bad .truncated

/-- Three-word formats. -/
def dec3 (rest : List Word) (c : Word → Word → Instr) : Dec :=
  match rest with
  | x :: y :: _ => .ok (c x y) 3
  | _ => .bad .truncated

/-- Formats of a varying number of words. -/
def decN {α : Type} (r : Option (α × Nat)) (c : α → Instr) : Dec :=
  match r with
  | some (f, n) => .ok (c f) n
  | none => .bad .truncated

/-- The instruction that the words begin with (R82 to R95). -/
def decode : List Word → Dec
  | [] => .bad .truncated
  | w :: rest =>
    match opKind (opcodeOf w) with
    | .reserved => .bad .opcode
    | .s c => decN (decS w rest) c
    | .lea => decN (decS w rest) leaOf
    | .wrsr => decN (decS w rest) wrsrOf
    | .v always c => decN (decV always w rest) c
    | .m c => dec2 rest fun x => some (c (decM w x))
    | .tagGet => dec2 rest fun x => tagGetOf (decM w x)
    | .cacheOp => dec2 rest fun x => cacheOpOf (decM w x)
    | .p c => .ok (c (decP w)) 1
    | .crew => dec2 rest fun x => some (.mxCrew (decCrew w x))
    | .zero => dec2 rest fun x => some (.mxZero (decZero w x))
    | .mx c => dec3 rest fun x y => c (decMx w x y)
    | .ldc => dec2 rest fun x => some (ldcOf (fld w 4 2) (decLdc w x))
    | .stc => dec3 rest fun x y => .mxStc (decStc w x y)
    | .stat => dec2 rest fun x => some (.mxStat (decStat w x))
    | .cp c => dec3 rest fun x y => c (decCp w x y)
    | .ev c => dec2 rest fun x => some (c (decEv w x))
    | .one c => .ok (c w) 1
    | .tlbi => match tlbiOf w with
      | some i => .ok i 1
      | none => .bad .field

/-! ## Encoding -/

/-- An opcode byte. -/
abbrev opb (n : Nat) : BitVec 8 := BitVec.ofNat 8 n

def encS (op : Nat) (f : SForm) : List Word :=
  match f.op with
  | .reg sb func => [opb op ++ f.sd ++ f.sa ++ 0#2 ++ sb ++ func]
  | .imm10 v => [opb op ++ f.sd ++ f.sa ++ 1#2 ++ v]
  | .imm32 r func x => [opb op ++ f.sd ++ f.sa ++ 2#2 ++ r ++ func, x]
  | .imm64 r func x y => [opb op ++ f.sd ++ f.sa ++ 3#2 ++ r ++ func, x, y]

def encE (e : EForm) : Word := e.c ++ e.type ++ e.rnd ++ e.sat ++ e.neg ++ e.abs ++ e.sreg ++ e.sel

def encV (op : Nat) (f : VForm) : List Word :=
  (opb op ++ f.d ++ f.a ++ f.b ++ f.hold) :: (f.e.toList.map encE ++ f.imm.toList)

def encM (op : Nat) (m : MForm) : List Word :=
  [opb op ++ m.vd ++ m.sb ++ m.vo ++ m.iscale ++ m.tag,
   m.imm16 ++ m.scope ++ m.order ++ m.policy ++ m.swz ++ m.width ++ m.rsv]

def encP (op : Nat) (p : PForm) : List Word := [opb op ++ p.opr ++ p.pmod]

def encCrew (x : CrewForm) : List Word := [opb 0xA0 ++ x.qmask ++ x.rsv0, x.rsv1 ++ x.gq]

def encZero (x : ZeroForm) : List Word := [opb 0xA1 ++ x.mask ++ x.rsv0, x.w1]

def encMx (op : Nat) (x : MxForm) : List Word :=
  [opb op ++ x.acc ++ x.vb ++ x.sa ++ x.tm ++ x.ss,
   x.fa ++ x.fb ++ x.scaled ++ x.bc ++ x.swz ++ x.sv ++ x.vbv ++ x.rsv1,
   x.pitch ++ x.rsv2]

def encLdc (kind : Nat) (x : LdcForm) : List Word :=
  [opb 0xA6 ++ x.acc ++ x.vb ++ x.sa ++ x.tm ++ BitVec.ofNat 2 kind ++ x.rsv0,
   x.pitch ++ x.nreg ++ x.swz ++ x.rsv1]

def encStc (x : StcForm) : List Word :=
  [opb 0xA7 ++ x.acc ++ x.rsv0 ++ x.sa ++ x.tm ++ x.rsv1,
   x.outf ++ x.rsv2 ++ x.var ++ x.rsv3 ++ x.swz ++ x.rnd ++ x.sat ++ x.rsv4,
   x.pitch ++ x.rsv5]

def encStat (x : StatForm) : List Word := [opb 0xA8 ++ x.sd ++ x.acc ++ x.rsv0, x.w1]

def encCp (op : Nat) (c : CpForm) : List Word :=
  [opb op ++ c.sd ++ c.ss ++ c.sl ++ c.dtm ++ c.stm ++ c.rsv0,
   c.scope ++ c.policy ++ c.dswz ++ c.sswz ++ c.sx ++ c.xsp ++ c.rsv1,
   c.spitch ++ c.dpitch]

def encEv (op : Nat) (v : EvForm) : List Word :=
  [opb op ++ v.r1 ++ v.r2 ++ v.bit ++ v.rsv0, v.scope ++ v.rsv1]

/-- The words of an instruction; an event of the table has none. -/
def encode : Instr → List Word
  | .nop f => encS 0x01 f
  | .sMov f => encS 0x02 f
  | .sMovk f => encS 0x03 f
  | .sAdd f => encS 0x04 f
  | .sSub f => encS 0x05 f
  | .sMul f => encS 0x06 f
  | .sMulhu f => encS 0x07 f
  | .sMulhs f => encS 0x08 f
  | .sDivu f => encS 0x09 f
  | .sDivs f => encS 0x0A f
  | .sRemu f => encS 0x0B f
  | .sRems f => encS 0x0C f
  | .sAnd f => encS 0x0D f
  | .sOr f => encS 0x0E f
  | .sXor f => encS 0x0F f
  | .sAndn f => encS 0x10 f
  | .sShl f => encS 0x11 f
  | .sShr f => encS 0x12 f
  | .sSar f => encS 0x13 f
  | .sPopc f => encS 0x14 f
  | .sClz f => encS 0x15 f
  | .sCtz f => encS 0x16 f
  | .sMins f => encS 0x17 f
  | .sMinu f => encS 0x18 f
  | .sMaxs f => encS 0x19 f
  | .sMaxu f => encS 0x1A f
  | .sCmp f => encS 0x1B f
  | .sSel f => encS 0x1C f
  | .sBfx f => encS 0x1D f
  | .sBfi f => encS 0x1E f
  | .sLea f => encS 0x1F f
  | .sLeaPc f => encS 0x1F f
  | .sGetlane f => encS 0x20 f
  | .sRdsr f => encS 0x21 f
  | .sWrsr f => encS 0x22 f
  | .drawbaseWrite f => encS 0x22 f
  | .sSetfmt f => encS 0x23 f
  | .sGetfmt f => encS 0x24 f
  | .vMov f => encV 0x30 f
  | .vSetlane f => encV 0x31 f
  | .vIota f => encV 0x32 f
  | .vAdd f => encV 0x33 f
  | .vSub f => encV 0x34 f
  | .vMul f => encV 0x35 f
  | .vMulhu f => encV 0x36 f
  | .vMulhs f => encV 0x37 f
  | .vMad f => encV 0x38 f
  | .vAnd f => encV 0x39 f
  | .vOr f => encV 0x3A f
  | .vXor f => encV 0x3B f
  | .vAndn f => encV 0x3C f
  | .vShl f => encV 0x3D f
  | .vShr f => encV 0x3E f
  | .vSar f => encV 0x3F f
  | .vMins f => encV 0x40 f
  | .vMinu f => encV 0x41 f
  | .vMaxs f => encV 0x42 f
  | .vMaxu f => encV 0x43 f
  | .vIcmp f => encV 0x44 f
  | .vSel f => encV 0x45 f
  | .vPopc f => encV 0x46 f
  | .vClz f => encV 0x47 f
  | .vBfx f => encV 0x48 f
  | .vBfi f => encV 0x49 f
  | .vAdd64 f => encV 0x4A f
  | .vSub64 f => encV 0x4B f
  | .vShfl f => encV 0x4C f
  | .vShflx f => encV 0x4D f
  | .vIred f => encV 0x4E f
  | .vIscan f => encV 0x4F f
  | .vFadd f => encV 0x50 f
  | .vFsub f => encV 0x51 f
  | .vFmul f => encV 0x52 f
  | .vFfma f => encV 0x53 f
  | .vFmin f => encV 0x54 f
  | .vFmax f => encV 0x55 f
  | .vFdiv f => encV 0x56 f
  | .vFsqrt f => encV 0x57 f
  | .vFrsq f => encV 0x58 f
  | .vFrcp f => encV 0x59 f
  | .vFexp2 f => encV 0x5A f
  | .vFlog2 f => encV 0x5B f
  | .vFsinpi f => encV 0x5C f
  | .vFcospi f => encV 0x5D f
  | .vFtanh f => encV 0x5E f
  | .vFround f => encV 0x5F f
  | .vFcmp f => encV 0x60 f
  | .vFclass f => encV 0x61 f
  | .vFcvt f => encV 0x62 f
  | .vCvtfi f => encV 0x63 f
  | .vCvtif f => encV 0x64 f
  | .vQpack f => encV 0x65 f
  | .vQunpack f => encV 0x66 f
  | .vMxquant f => encV 0x67 f
  | .vMxdeq f => encV 0x68 f
  | .vFdot2 f => encV 0x69 f
  | .vFred f => encV 0x6A f
  | .vFscan f => encV 0x6B f
  | .vRndu f => encV 0x6C f
  | .vRndn f => encV 0x6D f
  | .vRndg f => encV 0x6E f
  | .vArgmax f => encV 0x6F f
  | .vDvar f => encV 0x70 f
  | .vDset f => encV 0x71 f
  | .vDgetd f => encV 0x72 f
  | .vDsetd f => encV 0x73 f
  | .vDclr f => encV 0x74 f
  | .vDnoise f => encV 0x75 f
  | .vDchk f => encV 0x76 f
  | .pfxDual f => encP 0xD0 f
  | .pfxMom f => encP 0xD1 f
  | .pfxPt f => encP 0xD2 f
  | .pfxSr f => encP 0xD3 f
  | .vLd f => encM 0x80 f
  | .vSt f => encM 0x81 f
  | .vLdsp f => encM 0x82 f
  | .vStsp f => encM 0x83 f
  | .sLd f => encM 0x84 f
  | .sSt f => encM 0x85 f
  | .vLdl f => encM 0x86 f
  | .vStl f => encM 0x87 f
  | .vAtom f => encM 0x88 f
  | .vCas f => encM 0x89 f
  | .vRed f => encM 0x8A f
  | .sAtom f => encM 0x8B f
  | .sCas f => encM 0x8C f
  | .chunkTake f => encM 0x8D f
  | .monArm f => encM 0x8E f
  | .monWait f => encM 0x8F f
  | .fence f => encM 0x90 f
  | .txBegin f => encM 0x91 f
  | .txEnd f => encM 0x92 f
  | .txAbort f => encM 0x93 f
  | .txStat f => encM 0x94 f
  | .keyWait f => encM 0x95 f
  | .keyPass f => encM 0x96 f
  | .tagSet f => encM 0x97 f
  | .tagGet f => encM 0x98 f
  | .tagGetWait f => encM 0x98 f
  | .prefetch f => encM 0x99 f
  | .cacheRetain f => encM 0x9A f
  | .cacheUnpin f => encM 0x9B f
  | .cacheOpIfetch f => encM 0x9C f
  | .cacheOpEvl1 f => encM 0x9C f
  | .cacheOpEvl2 f => encM 0x9C f
  | .mxCrew f => encCrew f
  | .mxZero f => encZero f
  | .mxMma f => encMx 0xA2 f
  | .mxMmad f => encMx 0xA3 f
  | .mxMmac f => encMx 0xA4 f
  | .mxMma64 f => encMx 0xA5 f
  | .mxLdc f => encLdc 0 f
  | .mxLdcVar f => encLdc 1 f
  | .mxLdcB f => encLdc 2 f
  | .mxLdcF64 f => encLdc 3 f
  | .mxStc f => encStc f
  | .mxStat f => encStat f
  | .cpLoad f => encCp 0xB0 f
  | .cpStore f => encCp 0xB1 f
  | .cpGather f => encCp 0xB2 f
  | .cpXfer f => encCp 0xB3 f
  | .cpFill f => encCp 0xB4 f
  | .collStart f => encCp 0xB7 f
  | .launch f => encCp 0xB8 f
  | .cpClose f => encEv 0xB5 f
  | .cpWait f => encEv 0xB6 f
  | .evtAdd f => encEv 0xB9 f
  | .br o => [opb 0xC0 ++ o]
  | .brc s c o => [opb 0xC1 ++ s ++ c ++ o]
  | .brm s c o => [opb 0xC2 ++ s ++ c ++ o]
  | .jmp t l k r => [opb 0xC3 ++ t ++ l ++ k ++ r]
  | .call l o => [opb 0xC4 ++ l ++ o]
  | .ret t r => [opb 0xC5 ++ t ++ r]
  | .part m h a o => [opb 0xC6 ++ m ++ h ++ a ++ o]
  | .regang r => [opb 0xC7 ++ r]
  | .bar n ro a r => [opb 0xC8 ++ n ++ ro ++ a ++ r]
  | .wbar n a r => [opb 0xC9 ++ n ++ a ++ r]
  | .yield r => [opb 0xCA ++ r]
  | .exit r => [opb 0xCB ++ r]
  | .trap c r => [opb 0xCC ++ c ++ r]
  | .brk c r => [opb 0xCD ++ c ++ r]
  | .sysRdcr d c r => [opb 0xF0 ++ d ++ c ++ r]
  | .sysWrcr a c r => [opb 0xF1 ++ a ++ c ++ r]
  | .sysEret r => [opb 0xF2 ++ r]
  | .sysTlbiAll a r => [opb 0xF3 ++ a ++ 0#2 ++ r]
  | .sysTlbiPage a r => [opb 0xF3 ++ a ++ 1#2 ++ r]
  | .sysTlbiCore a r => [opb 0xF3 ++ a ++ 2#2 ++ r]
  | .sysReplay r => [opb 0xF4 ++ r]
  | .sysFltpop d r => [opb 0xF5 ++ d ++ r]
  | .sysCtxsv d a b r => [opb 0xF6 ++ d ++ a ++ b ++ r]
  | .sysCtxld d a r => [opb 0xF7 ++ d ++ a ++ r]
  | .sysPreempt a b f r => [opb 0xF8 ++ a ++ b ++ f ++ r]
  | .sysIpi a r => [opb 0xF9 ++ a ++ r]
  | .sysHalt r => [opb 0xFA ++ r]
  | .clauseIssueSelect _ _ _ => []
  | .clauseFetch _ _ => []
  | .longLatencyComplete _ _ _ => []
  | .faultSplitRejoin _ _ => []
  | .monWaitWake _ _ => []
  | .monWaitDeadline _ _ => []
  | .txCommit _ _ => []
  | .lockGrant _ => []
  | .keyedOpPerform _ => []
  | .keyRoundPass _ => []
  | .tagWaitSatisfy _ _ _ => []
  | .crewOpExecute _ => []
  | .copyCommandExecute _ _ => []
  | .batchComplete _ => []
  | .collectiveExecute _ => []
  | .collectiveMessageReceive _ _ _ _ _ => []
  | .collectiveRankTimeout _ => []
  | .peerLaunchAppend _ => []
  | .wbarRelease _ => []
  | .heldGangHandlerEntry _ => []
  | .poisonDelivery _ _ => []
  | .pageWalk _ _ _ _ _ _ _ => []
  | .faultReplay _ _ _ => []
  | .interruptStatusWrite _ _ _ => []
  | .interruptEnableWrite _ _ _ => []
  | .faultBufferStatusWrite _ _ _ => []
  | .dspadGrantWrite _ _ _ _ => []
  | .launchAnchorWrite _ _ _ _ => []
  | .wbarMemberWrite _ _ _ _ => []
  | .wbarBindWrite _ _ _ _ => []
  | .powerLimitWrite _ _ _ => []
  | .freqReq _ _ _ => []
  | .linkReq _ _ _ => []
  | .powerRequestComplete _ => []
  | .controlRegisterWrite _ _ _ _ => []
  | .listWatchWake _ _ => []
  | .recordTake _ _ => []
  | .conditionTest _ => []
  | .conditionPoll _ => []
  | .teamDispatch _ => []
  | .dispatchWaitTimeout _ => []
  | .islandPowerUp _ _ => []
  | .launchComplete _ => []
  | .preemptDrainDeadline _ => []
  | .preemptDiscard _ => []
  | .preemptSave _ => []
  | .linkDown _ => []
  | .linkUp _ => []
  | .flitRetry _ => []
  | .thermalLimitCrossing _ _ => []
  | .powerClockAdjust _ _ => []
  | .telemetryUpdate _ => []
  | .patrolScrub _ _ => []
  | .wearRemap _ _ => []
  | .uncorrectableError _ _ => []
  | .correctableError _ _ => []
  | .functionReset _ _ _ => []
  | .firmwareImageVerify _ _ => []
  | .spdmRequest _ _ => []
  | .contextKeySlotUpdate _ _ _ => []
  | .tdispStateChange _ _ => []
  | .bar2Access _ _ _ _ => []
  | .remoteMemoryRequest _ _ => []
  | .packagePowerOnReset => []
  | .cxlMemRequest _ _ _ => []
  | .cxlCacheSnoop _ _ => []

/-! ## The words of a table row -/

/-- The 32-bit words of a bit string given as a number, first word lowest, followed by zero words up to the longest
instruction (three words). -/
def wordsOfBits (nbits w : Nat) : List Word :=
  let pick (k : Nat) : Word := if 32 * k < nbits then BitVec.ofNat 32 (w / 2 ^ (32 * k)) else 0
  [pick 0, pick 1, pick 2]

/-- The instruction that `decode` reads from an instruction whose bits are `w`, numbered as the opcode table numbers
them; bits above `nbits` are zero. -/
def decodeTableWord (nbits w : Nat) : Option Instr :=
  match decode (wordsOfBits nbits w) with
  | .ok i _ => some i
  | .bad _ => none

end Sys2Proof
end

