-- ==== Sys2Proof/Machine/Checks.lean ====
section
/-! DEFINITION. The rank-3 checks that an instruction word decides alone (R5, R82 to R93, R161 to R163, R193, R195, R197 and
the field tables of spec/05, 07 and 08): a failing check traps ILLEGAL_OPERAND at the word. The checks that need the state
(registers, FMT, prefixes, role) stand with the meanings. -/

namespace Sys2Proof

/-! ## Format S -/

/-- MODE is 0b00 with SB 0 and FUNC 0, as an instruction without a second operand holds it (R87). -/
def SOp.isUnary : SOp → Bool
  | .reg sb func => sb = 0 ∧ func = 0
  | _ => false

/-- Bits [9:4] under MODE 0b10 and 0b11 are reserved (R127). -/
def SOp.rsvOk : SOp → Bool
  | .imm32 r _ _ | .imm64 r _ _ _ => r = 0
  | _ => true

/-- An instruction that assigns no FUNC (R87). -/
def sPlain (f : SForm) : Bool := SOp.rsvOk f.op && f.op.func == 0

/-- The immediate word of MODE 0b10, for the instructions that require that mode. -/
def SOp.word? : SOp → Option Word
  | .imm32 0 0 w => some w
  | _ => none

end Sys2Proof

namespace Sys2Proof.Machine

/-- `s.movk` (R132): MODE 0b10, SA 0, bits [31:18] of the immediate zero. -/
def sMovkOk (f : SForm) : Bool :=
  f.sa == 0 && ((SOp.word? f.op).any fun w => fld w 18 14 == 0)

/-- `s.getlane` (R132). -/
def sGetlaneOk (f : SForm) : Bool :=
  (SOp.word? f.op).any fun w =>
    fld w 14 18 == 0 && fld w 7 1 == 0 && (fld w 0 7).toNat < 120 && (fld w 13 1 == 1 || f.sa == 0)

/-- The special-register selector of `s.rdsr` and `s.wrsr`: MODE 0b01 with IMM10 [9:6] zero (R133). -/
def srSel (f : SForm) : Option Nat :=
  match f.op with
  | .imm10 v => if v.toNat < 64 then some v.toNat else none
  | _ => none

/-! ## Formats A and E -/

/-- What the C field of an instruction holds (R83, R168, R187). -/
inductive CUse where
  | none | source | lane | aux
  deriving DecidableEq, Repr

/-- How a vector instruction uses the fields of its A and E words (Tables 4.4, 6.1 and the descriptions of spec/06). Types are
TYPE codes, with 7 replaced by the packed code it stands for; `sel` is SEL. -/
structure VSpec where
  a : Bool := true
  b : Nat → Nat → Bool := fun _ _ => true
  c : CUse := .none
  implicit : Nat := 5
  types : List Nat := [4, 5]
  rnd : Bool := false
  sat : Nat → Nat → Bool := fun _ _ => false
  fp : Nat → Nat → Nat := fun _ _ => 0
  sel : Nat → Nat → Bool := fun _ s => s == 0
  /-- SREG is a mask, a destination or an address, so that code 124 is not available. -/
  sreg : Nat → Bool := fun _ => false
  /-- D must be 123. -/
  d123 : Nat → Bool := fun _ => false
  pairD : Nat → Nat → Bool := fun _ _ => false
  /-- Prefixes: `pfx.dual` and `pfx.mom`; `pfx.pt`; and the draws a lane may need under `pfx.sr`, 0 where the prefix is not
  admitted (Table 4.6, R125). -/
  mom : Bool := false
  pt : Bool := true
  draws : Nat → Nat → Nat := fun _ _ => 0
  /-- A reduction by a tree, in which a lane draws at most once at each of its levels (R189). -/
  tree : Bool := false

/-- TYPE codes that name register pairs as sources (R84). -/
def pairType (t : Nat) : Bool := t == 3 || t == 6

/-- TYPE with hx2 replaced by the packed type that HT selects (R163). -/
def effType (ht : Bool) (t : Nat) : Nat := if t = 7 then (if ht then 2 else 1) else t

/-- The draws that a lane may need in a group of a width. -/
def VSpec.drawsAt (sp : VSpec) (t s width : Nat) : Nat :=
  if sp.tree then min (sp.draws t s) (Nat.log2 width) else sp.draws t s

/-- The TYPE in force. -/
def VSpec.type (sp : VSpec) (ht : Bool) (f : VForm) : Nat :=
  match f.e with
  | some e => effType ht e.type.toNat
  | none => sp.implicit

end Sys2Proof.Machine

namespace Sys2Proof

/-- SEL, 0 without an E word. -/
def VForm.sel (f : VForm) : Nat := match f.e with | some e => e.sel.toNat | none => 0
def VForm.c (f : VForm) : Nat := match f.e with | some e => e.c.toNat | none => 123
def VForm.sreg (f : VForm) : Nat := match f.e with | some e => e.sreg.toNat | none => 0
def VForm.sat (f : VForm) : Bool := match f.e with | some e => e.sat == 1 | none => false
def VForm.rnd (f : VForm) : Nat := match f.e with | some e => e.rnd.toNat | none => 0
/-- Bit i of NEG and of ABS for source i (0 is a). -/
def VForm.negBit (f : VForm) (i : Nat) : Bool := match f.e with | some e => e.neg.getLsbD (2 - i) | none => false
def VForm.absBit (f : VForm) (i : Nat) : Bool := match f.e with | some e => e.abs.getLsbD (2 - i) | none => false

end Sys2Proof

namespace Sys2Proof.Machine

/-- A source code: 0 to 125; a pair source is an even register, the zero code, a broadcast or an immediate (R82, R84). -/
def srcOk (pair : Bool) (c : Nat) : Bool :=
  c ≤ 125 && (!pair || (c < 120 && c % 2 == 0) || c ≥ 123)

/-- A destination code: 0 to 123; a pair destination is an even register (R82, R163). -/
def dstOk (pair : Bool) (d : Nat) : Bool :=
  if pair then d < 120 && d % 2 == 0 else d ≤ 123

/-- The E word's fields under a specification (R83, R161, R162, R395). -/
def eOk (sp : VSpec) (ht : Bool) (f : VForm) (e : EForm) : Bool :=
  let t := effType ht e.type.toNat
  let s := e.sel.toNat
  let uses124 := f.a == 124 || f.b == 124 || (sp.c == .source && e.c == 124)
  (if e.type = 7 then sp.types.contains 1 && sp.types.contains 2 else sp.types.contains t) &&
  e.rnd.toNat ≤ 5 && (sp.rnd || e.rnd == 0) &&
  (e.sat == 0 || sp.sat t s) &&
  ((e.neg.toNat ||| e.abs.toNat) &&& (7 - sp.fp t s)) == 0 &&
  sp.sel t s &&
  (sp.sreg s || uses124 || e.sreg == 0)

/-- The C field. -/
def cOk (sp : VSpec) (f : VForm) (t : Nat) : Bool :=
  match f.e with
  | none => true
  | some e =>
    match sp.c with
    | .none => e.c == 123
    | .source => srcOk (pairType t) e.c.toNat
    | .lane => e.c.toNat < 32
    | .aux => e.c.toNat < 120 && e.c != f.d

/-- Every rank-3 check of a vector word that neither prefixes nor registers decide. -/
def vOk (sp : VSpec) (ht : Bool) (f : VForm) : Bool :=
  let t := sp.type ht f
  let s := f.sel
  let b := sp.b t s
  f.hold != 4 &&
  dstOk (sp.pairD t s) f.d.toNat && (!sp.d123 s || f.d == 123) &&
  (if sp.a then srcOk (pairType t) f.a.toNat else f.a == 123) &&
  (if b then srcOk (pairType t) f.b.toNat else f.b == 123) &&
  (!sp.sreg s || (f.a != 124 && f.b != 124 && f.c != 124)) &&
  (f.hold == 0 || !pairType t) &&
  cOk sp f t &&
  (f.e.all fun e => eOk sp ht f e)

/-! The specifications, one for each shape of spec/06 and spec/04. -/

/-- Two integer sources (Table 6.2). -/
def spInt2 : VSpec := {}
/-- One integer source. -/
def spInt1 : VSpec := { b := fun _ _ => false }
/-- `v.mov`: also f32. Table 6.1 accepts TYPE 0 for `v.mov` and `v.shflx`, and R161 names 4 and 5 alone for a word with E: the model
follows the table (log 37). -/
def spMov : VSpec := { b := fun _ _ => false, types := [0, 4, 5] }
/-- `v.setlane` (R168). -/
def spSetlane : VSpec := { b := fun _ _ => false, c := .lane }
/-- `v.mad` (R167). -/
def spMad : VSpec := { c := .source, sat := fun _ _ => true }
/-- `v.icmp` (R170). -/
def spIcmp : VSpec := { sel := fun _ s => s < 6, sreg := fun _ => true, d123 := fun _ => true }
/-- `v.sel` (R171). -/
def spSel : VSpec := { sreg := fun _ => true }
/-- `v.bfi` (R169). -/
def spBfi : VSpec := { c := .source }
/-- `v.add64` and `v.sub64` (R172). -/
def spInt64 : VSpec := { implicit := 6, types := [6], pairD := fun _ _ => true }
/-- `v.shfl` and `v.shflx` (R173). -/
def spShfl : VSpec := { types := [0, 4, 5], sreg := fun _ => true }
def spShflx : VSpec := { types := [0, 4, 5] }
/-- `v.ired` and `v.iscan` (R174, R175). -/
def spIred : VSpec :=
  { b := fun _ _ => false, sel := fun _ s => s < 6, sreg := fun _ => true, d123 := fun _ => true }
def spIscan : VSpec := { b := fun _ _ => false, sel := fun _ s => s % 8 < 6 && s < 16 }

/-- The four floating-point types, and the packed ones among them (R176). -/
def fpTypes : List Nat := [0, 1, 2, 3]
def packed (t : Nat) : Bool := t == 1 || t == 2
def perElem (t _s : Nat) : Nat := if packed t then 2 else 1

/-- Arithmetic of Table 6.3 with one, two and three sources. -/
def spArith1 : VSpec :=
  { b := fun _ _ => false, implicit := 0, types := fpTypes, rnd := true, sat := fun t _ => packed t,
    fp := fun _ _ => 4, pairD := fun t _ => t == 3, mom := true, draws := perElem }
def spArith2 : VSpec :=
  { implicit := 0, types := fpTypes, rnd := true, sat := fun t _ => packed t,
    fp := fun _ _ => 6, pairD := fun t _ => t == 3, mom := true, draws := perElem }
def spArith3 : VSpec :=
  { c := .source, implicit := 0, types := fpTypes, rnd := true, sat := fun t _ => packed t,
    fp := fun _ _ => 7, pairD := fun t _ => t == 3, mom := true, draws := perElem }
/-- `v.fmin` and `v.fmax`: no rounding, so no `pfx.sr` (R177, Table 4.6). -/
def spPick : VSpec :=
  { implicit := 0, types := fpTypes, rnd := true, sat := fun t _ => packed t,
    fp := fun _ _ => 6, pairD := fun t _ => t == 3, mom := true }
/-- `v.fdot2` (R179, R395). -/
def spDot2 : VSpec :=
  { c := .source, implicit := 1, types := [1, 2], rnd := true, fp := fun _ _ => 6, mom := true, draws := fun _ _ => 1 }
/-- `v.fcmp` and `v.fclass` (R180, R181). -/
def spFcmp : VSpec :=
  { implicit := 0, types := [0, 3], fp := fun _ _ => 6, sel := fun _ s => s < 8, sreg := fun _ => true,
    d123 := fun _ => true }
def spFclass : VSpec := { b := fun _ _ => false, implicit := 0, types := fpTypes, fp := fun _ _ => 4 }
/-- `v.fcvt` (R182): the f32-to-packed form reads b. -/
def fcvtB (t s : Nat) : Bool := t == 0 && packed s
def spFcvt : VSpec :=
  { b := fcvtB, implicit := 0, types := fpTypes, rnd := true, sat := fun _ s => packed s,
    fp := fun t s => if fcvtB t s then 6 else 4,
    sel := fun t s => s < 4 && !(packed t && s == 3) && !(t == 3 && packed s),
    pairD := fun t s => s == 3 || (packed t && s == 0), mom := true,
    draws := fun t s => if packed t || packed s then 2 else 1 }
/-- `v.cvtfi` and `v.cvtif` (R183). -/
def spCvtfi : VSpec :=
  { b := fun _ _ => false, implicit := 0, types := [0, 3], rnd := true, fp := fun _ _ => 4,
    sel := fun _ s => s == 4 || s == 5 || s == 6, pairD := fun _ s => s == 6, draws := fun _ _ => 1 }
def spCvtif : VSpec :=
  { b := fun _ _ => false, implicit := 4, types := [4, 5, 6], rnd := true, sel := fun _ s => s == 0 || s == 3,
    pairD := fun _ s => s == 3, mom := true, draws := fun _ _ => 1 }
/-- `v.qpack`, `v.qunpack`, `v.mxquant` and `v.mxdeq` (R185 to R188). -/
def spQpack : VSpec :=
  { b := fun _ _ => false, implicit := 0, types := [0], rnd := true, sat := fun _ _ => true, fp := fun _ _ => 4,
    sel := fun _ s => s < 2, mom := true, draws := fun _ _ => 1 }
def spQunpack : VSpec :=
  { b := fun _ _ => false, implicit := 0, types := [0], rnd := true, sel := fun _ s => s < 2, mom := true,
    draws := fun _ _ => 1 }
def spMxquant : VSpec :=
  { c := .aux, implicit := 0, types := [0], rnd := true, fp := fun _ _ => 6, sel := fun _ s => s < 8, mom := true,
    draws := fun _ _ => 1 }
def spMxdeq : VSpec :=
  { implicit := 0, types := [0], rnd := true, sel := fun _ s => s < 4, sreg := fun s => s ≥ 2, mom := true,
    draws := fun _ _ => 1 }
/-- `v.fred` and `v.fscan` (R189, R190); a lane may need a draw for each level of the tree, which are five at
the full width. -/
def spFred : VSpec :=
  { b := fun _ _ => false, implicit := 0, types := [0, 3], rnd := true, fp := fun _ _ => 4,
    sel := fun _ s => s % 4 < 3 && (s < 4 || (8 ≤ s && s < 12)), sreg := fun s => s ≥ 8, d123 := fun s => s ≥ 8,
    pairD := fun t s => t == 3 && s < 8, mom := true, draws := fun _ s => if s % 4 = 0 then 5 else 0,
    tree := true }
def spFscan : VSpec :=
  { b := fun _ _ => false, implicit := 0, types := [0, 3], rnd := true, fp := fun _ _ => 4,
    sel := fun _ s => s % 4 < 3 && (s < 4 || (8 ≤ s && s < 12)), pairD := fun t _ => t == 3, mom := true,
    draws := fun _ s => if s % 4 = 0 then 1 else 0 }
/-- `v.argmax` (R191). -/
def spArgmax : VSpec :=
  { implicit := 0, types := [0], fp := fun _ _ => 4, pairD := fun _ _ => true, mom := true }
/-- The samplers (R192): no source, no hold. -/
def spRnd : VSpec := { a := false, b := fun _ _ => false, implicit := 0, types := [0] }

/-- The samplers hold HOLD at 0 (R192). -/
def rndOk (f : VForm) : Bool := vOk spRnd false f && f.hold == 0

/-- Sources that must be a register code (R186, R188). -/
def streamOk (sp : VSpec) (f : VForm) : Bool := vOk sp false f && f.a.toNat < 120

/-! ## Distribution instructions (R117, Table 4.4) -/

/-- Which of A and B a distribution instruction reads. -/
def dOk (usesA usesB gw : Bool) (f : VForm) : Bool :=
  match f.e with
  | none => false
  | some e =>
    f.hold == 0 && e.type == 0 && e.rnd == 0 && e.sat == 0 && e.neg == 0 && e.abs == 0 && e.c == 123 &&
    (if usesA then f.a.toNat ≤ 125 else f.a == 123) && (if usesB then f.b.toNat ≤ 125 else f.b == 123) &&
    e.sel.toNat < (if gw then 5 else 1) &&
    (f.a == 124 || f.b == 124 || e.sreg == 0)

def dvarOk (f : VForm) : Bool := dOk true false false f && f.d.toNat ≤ 123
def dsetOk (f : VForm) : Bool := dOk true true false f && f.d.toNat ≤ 123
def dgetdOk (f : VForm) : Bool := dOk true false true f && f.d.toNat ≤ 123
def dsetdOk (f : VForm) : Bool := dOk false true true f && f.d.toNat < 120
def dclrOk (f : VForm) : Bool := dOk false false false f && f.d.toNat < 120
def dnoiseOk (f : VForm) : Bool := dOk false true true f && f.d.toNat < 120
/-- `v.dchk` names its destination in SREG. -/
def dchkOk (f : VForm) : Bool :=
  match f.e with
  | none => false
  | some e =>
    f.hold == 0 && e.type == 0 && e.rnd == 0 && e.sat == 0 && e.neg == 0 && e.abs == 0 && e.c == 123 &&
    f.a.toNat ≤ 123 && f.b == 123 && e.sel == 0 && f.d == 123

/-! ## Format M (R88, R89, R193, R195, R197, R200) -/

/-- How a memory instruction uses its fields (Table 7.1). -/
structure MSpec where
  lane : Bool
  sb : Bool := true
  vd : Bool := true
  tags : Nat := 1
  widths : List Nat := []
  orders : List Nat := [0]
  scope : Bool := false
  policy : Bool := false
  swz : Bool := false
  imm : Bool := true

def mWidthOk (sp : MSpec) (m : MForm) : Bool :=
  if sp.widths.isEmpty then m.width == 0 else sp.widths.contains m.width.toNat

/-- The fields that Table 7.1, R88 and R89 decide. -/
def mOk (sp : MSpec) (m : MForm) : Bool :=
  m.rsv == 0 && m.tag.toNat < sp.tags && mWidthOk sp m &&
  sp.orders.contains m.order.toNat &&
  (if sp.scope then m.scope != 7 else m.scope == 0) &&
  (if sp.policy then m.policy.toNat < 4 else m.policy == 0) &&
  (m.swz == 0 || (sp.swz && m.width != 5)) &&
  (sp.imm || m.imm16 == 0) && (sp.sb || m.sb == 0) && (sp.vd || m.vd == 0) &&
  (if sp.lane then m.vo.toNat ≤ 123 else m.vo == 123 && m.iscale == 0 && m.vd.toNat < 64)

/-- Registers a vector access of a width moves (R89). -/
def mRegs (m : MForm) : Nat := match m.width.toNat with | 3 => 2 | 4 => 4 | 5 => 8 | _ => 1
/-- Bytes of an access. -/
def mBytes (m : MForm) : Nat := 2 ^ m.width.toNat
/-- ATOP of an atomic (Table 3.6). -/
def mAtop (m : MForm) : Nat := m.imm16.toNat / 4096

def vdOk (m : MForm) : Bool := m.vd.toNat % mRegs m == 0
/-- SX extends a value only (R195). -/
def sxOk (lim : Nat) (m : MForm) : Bool := m.tag == 0 || m.width.toNat < lim

def vLdOk (m : MForm) : Bool :=
  mOk { lane := true, tags := 2, widths := [0, 1, 2, 3, 4, 5], orders := [0, 1], scope := true, policy := true } m &&
  vdOk m && sxOk 2 m
def vStOk (m : MForm) : Bool :=
  mOk { lane := true, widths := [0, 1, 2, 3, 4, 5], orders := [0, 2], scope := true, policy := true } m && vdOk m
def vLdlOk (m : MForm) : Bool :=
  mOk { lane := true, tags := 2, widths := [0, 1, 2, 3, 4, 5], scope := true, policy := true } m && vdOk m && sxOk 2 m
def vStlOk (m : MForm) : Bool :=
  mOk { lane := true, widths := [0, 1, 2, 3, 4, 5], scope := true, policy := true } m && vdOk m
/-- A tag mode needs b32 or wider (R200). -/
def vLdspOk (m : MForm) : Bool :=
  mOk { lane := true, tags := 3, widths := [0, 1, 2, 3, 4, 5], orders := [0, 1], scope := true, swz := true } m &&
  vdOk m && (m.tag == 0 || m.width.toNat ≥ 2)
def vStspOk (m : MForm) : Bool :=
  mOk { lane := true, tags := 3, widths := [0, 1, 2, 3, 4, 5], orders := [0, 2], scope := true, swz := true } m &&
  vdOk m && (m.tag == 0 || m.width.toNat ≥ 2)
def sLdOk (m : MForm) : Bool :=
  mOk { lane := false, tags := 2, widths := [0, 1, 2, 3], orders := [0, 1], scope := true, policy := true } m && sxOk 3 m
def sStOk (m : MForm) : Bool :=
  mOk { lane := false, widths := [0, 1, 2, 3], orders := [0, 2], scope := true, policy := true } m
def atomSpec (lane : Bool) (orders : List Nat) : MSpec :=
  { lane := lane, widths := [2, 3], orders := orders, scope := true, policy := true }
def vAtomOk (m : MForm) : Bool := mOk (atomSpec true [0, 1, 2, 3]) m && vdOk m && mAtop m < 14
def vRedOk (m : MForm) : Bool := mOk (atomSpec true [0, 2]) m && vdOk m && mAtop m < 14 && mAtop m != 8
def sAtomOk (m : MForm) : Bool := mOk (atomSpec false [0, 1, 2, 3]) m && mAtop m < 14
/-- R208. -/
def vCasOk (m : MForm) : Bool :=
  mOk (atomSpec true [0, 1, 2, 3]) m && mAtop m == 0 && m.vd.toNat % (2 * mRegs m) == 0
def sPairOk (n : Nat) : Bool := n % 2 == 0 && n < 62
def sCasOk (m : MForm) : Bool := mOk (atomSpec false [0, 1, 2, 3]) m && mAtop m == 0 && sPairOk m.vd.toNat
def chunkTakeOk (m : MForm) : Bool := mOk { lane := false } m && sPairOk m.vd.toNat
def monArmOk (m : MForm) : Bool := mOk { lane := false, vd := false } m
def monWaitOk (m : MForm) : Bool := mOk { lane := false, vd := false, imm := false } m
def fenceOk (m : MForm) : Bool :=
  mOk { lane := false, sb := false, vd := false, imm := false, orders := [0, 1, 2, 3], scope := true } m
/-- No field: `tx.begin`, `key.wait`, `key.pass`. -/
def bareOk (m : MForm) : Bool := mOk { lane := false, sb := false, vd := false, imm := false } m
def txEndOk (m : MForm) : Bool := mOk { lane := false, sb := false, imm := false } m
/-- R219: the code stands in bits [23:16] of word 1, and code 0 traps. -/
def txAbortOk (m : MForm) : Bool :=
  mOk { lane := false, sb := false, vd := false } m && m.imm16.toNat < 256 && m.imm16 != 0
/-- `tx.stat` is lane-level and has no address (R222). -/
def txStatOk (m : MForm) : Bool :=
  mOk { lane := true, sb := false, imm := false, widths := [2, 4] } m && m.vo == 123 && m.iscale == 0 && vdOk m
def tagSetOk (m : MForm) : Bool :=
  mOk { lane := true, vd := false, tags := 3, widths := [2, 3, 4, 5], scope := true, swz := true } m
def tagGetOk (m : MForm) : Bool :=
  mOk { lane := true, widths := [2], scope := true, swz := true } m
def tagGetWaitOk (m : MForm) : Bool :=
  mOk { lane := true, tags := 3, widths := [2, 3, 4, 5], scope := true, swz := true } m && vdOk m && m.tag != 0
def prefetchOk (m : MForm) : Bool := mOk { lane := true, vd := false, tags := 3 } m
def linesOk (tags : Nat) (m : MForm) : Bool := mOk { lane := false, vd := false, tags := tags } m

/-! ## Format X -/

def popcount4 (q : BitVec 4) : Nat := (q.getLsbD 0).toNat + (q.getLsbD 1).toNat + (q.getLsbD 2).toNat + (q.getLsbD 3).toNat

/-- GQ of quadrant q in the GQ fields of Table 1.4 and Table 8.1. -/
def gqOf (gq : BitVec 24) (q : Nat) : Nat := (gq.extractLsb' (6 * q) 6).toNat

/-- R233, check 1. -/
def crewOk (x : CrewForm) : Bool :=
  x.rsv0 == 0 && x.rsv1 == 0 && (popcount4 x.qmask == 2 || popcount4 x.qmask == 4) &&
  (List.range 4).all fun q => x.qmask.getLsbD q || gqOf x.gq q == 0
def zeroOk (x : ZeroForm) : Bool := x.rsv0 == 0 && x.w1 == 0 && x.mask != 0

/-- Shape of an operation on one format (Table 8.2): bits nb of an element, K, and bytes of an A row. -/
def mxShape (complex : Bool) (f : Nat) : Option (Nat × Nat × Nat) :=
  match complex, f with
  | false, 7 | false, 8 => some (16, 32, 64)
  | false, 1 | false, 2 => some (8, 64, 64)
  | false, 3 | false, 4 | false, 6 => some (6, 64, 48)
  | false, 5 => some (4, 128, 64)
  | false, 9 => some (32, 8, 32)
  | true, 7 | true, 8 => some (32, 16, 64)
  | true, 9 => some (64, 4, 32)
  | _, 10 => some (64, 4, 32)
  | _, _ => none

/-- The sets of R239 from which both formats come. -/
def mxPair (fa fb : Nat) (sets : List (List Nat)) : Bool := sets.any fun s => s.contains fa && s.contains fb
def narrowSets : List (List Nat) := [[1, 2], [3, 4], [5], [6]]
/-- Registers of B, R of Table 8.2. -/
def mxR (nb k : Nat) : Nat := k * nb / 64

/-- The checks at the member that its words decide (R239, R240, R241): `sets` are the legal pairs. The pitch is compared with the A row
alone (log 42). -/
def mxOk (complex : Bool) (sets : List (List Nat)) (dist : Bool) (x : MxForm) : Bool :=
  let fa := x.fa.toNat
  let fb := x.fb.toNat
  x.rsv1 == 0 && x.rsv2 == 0 && x.tm != 3 && mxPair fa fb sets &&
  (x.scaled == 0 || (mxPair fa fb narrowSets && !complex)) && (x.scaled == 1 || (x.ss == 0 && x.bc == 0)) &&
  (dist || (x.sv == 0 && x.vbv == 0)) &&
  match mxShape complex fa with
  | none => false
  | some (nb, k, row) =>
    x.pitch != 0 && 16 * x.pitch.toNat ≥ row && (!(complex || fa == 10) || x.acc.getLsbD 0 == false) &&
    x.vb.toNat + mxR nb k ≤ 120 && (!dist || x.vbv.toNat + mxR 6 k ≤ 120)

def mmaOk : MxForm → Bool := mxOk false (([7, 8] :: narrowSets) ++ [[9]]) false
def mmadOk : MxForm → Bool := mxOk false ([7, 8] :: narrowSets) true
def mmacOk : MxForm → Bool := mxOk true [[7, 8], [9]] false
def mma64Ok : MxForm → Bool := mxOk false [[10]] false

/-- R249. `row` needs the crew's size and is checked with it. -/
def ldcOk (kind : Nat) (x : LdcForm) : Bool :=
  x.rsv0 == 0 && x.rsv1 == 0 && x.tm != 3 && x.pitch != 0 &&
  (if kind = 2 then x.acc == 0 && 1 ≤ x.nreg.toNat && x.nreg.toNat ≤ 24 && x.vb.toNat + x.nreg.toNat ≤ 120
   else x.vb == 0 && x.nreg == 0) &&
  (kind != 3 || x.acc.getLsbD 0 == false)

/-- R250. -/
def stcOk (x : StcForm) : Bool :=
  x.rsv0 == 0 && x.rsv1 == 0 && x.rsv2 == 0 && x.rsv3 == 0 && x.rsv4 == 0 && x.rsv5 == 0 &&
  x.tm.toNat < 2 && x.rnd.toNat ≤ 5 && x.pitch != 0 &&
  1 ≤ x.outf.toNat && x.outf.toNat ≤ 10 &&
  (x.outf != 10 || x.acc.getLsbD 0 == false) && (x.var == 0 || x.outf == 9)

def statOk (x : StatForm) : Bool := x.rsv0 == 0 && x.w1 == 0

/-- R257, check 1(a), for the five copy commands: the sides that are scratchpad, and gather's index list. -/
def cpOk (dspad sspad : Option Bool) (gather fill : Bool) (c : CpForm) : Bool :=
  let d := c.xsp.getLsbD 1
  let s := c.xsp.getLsbD 0
  c.rsv0 == 0 && c.rsv1 == 0 && c.dtm != 3 && c.stm != 3 && c.scope != 7 && c.policy.toNat < 4 &&
  (dspad.all (· == d)) && (sspad.all (· == s)) && (gather || c.sx == 0) &&
  (d || (c.dtm == 0 && c.dswz == 0)) &&
  (s || ((c.stm == 0 || gather) && c.sswz == 0)) &&
  (!fill || (c.stm == 0 && c.sswz == 0 && c.spitch == 0)) &&
  -- POLICY needs a global side (R197)
  (c.policy == 0 || !d || (!s && !fill))

def cpLoadOk : CpForm → Bool := cpOk (some true) (some false) false false
def cpStoreOk : CpForm → Bool := cpOk (some false) (some true) false false
def cpGatherOk (c : CpForm) : Bool := cpOk (some true) (some false) true false c
def cpXferOk : CpForm → Bool := cpOk none none false false
def cpFillOk : CpForm → Bool := cpOk none (some false) false true

/-- R264: only SS and SCOPE, which is 6. -/
def collOk (c : CpForm) : Bool :=
  c.sd == 0 && c.sl == 0 && c.dtm == 0 && c.stm == 0 && c.rsv0 == 0 && c.scope == 6 && c.policy == 0 && c.dswz == 0 &&
  c.sswz == 0 && c.sx == 0 && c.xsp == 0 && c.rsv1 == 0 && c.spitch == 0 && c.dpitch == 0

/-- R266: SS, PRI in word 1 [11:10] and PEER in [9]. -/
def launchOk (c : CpForm) : Bool :=
  c.sd == 0 && c.sl == 0 && c.dtm == 0 && c.stm == 0 && c.rsv0 == 0 && c.scope == 0 && c.policy == 0 && c.dswz == 0 &&
  c.sswz == 0 && c.sx == 0 && c.xsp == 0 && c.rsv1.extractLsb' 0 9 == 0 && c.spitch == 0 && c.dpitch == 0

/-- R261: SE is used with EVT = 1. -/
def closeOk (v : EvForm) : Bool := v.rsv0 == 0 && v.rsv1 == 0 && v.scope != 7 && (v.bit == 1 || v.r2 == 0)
/-- R262. -/
def waitOk (v : EvForm) : Bool := v.rsv0 == 0 && v.rsv1 == 0 && v.scope != 7 && v.bit == 0 && v.r2 == 0
/-- R267. -/
def evtAddOk (v : EvForm) : Bool := v.rsv0 == 0 && v.rsv1 == 0 && v.scope != 7

/-! ## Prefixes (Table 4.5) -/

def pfxDualOk (p : PForm) : Bool := p.opr == 0 && p.pmod.toNat < 4
def pfxMomOk (p : PForm) : Bool :=
  p.opr == 0 && p.pmod.toNat < 8 && (p.pmod.toNat % 4 == 1 || p.pmod.toNat % 4 == 2)
def pfxPtOk (p : PForm) : Bool := p.opr == 0 && p.pmod == 0
def pfxSrOk (p : PForm) : Bool := p.opr.toNat ≤ 122 && p.pmod == 0

/-! ## Control registers by selector (Tables 5.4, 10.1, 11.4) -/

/-- A selector that names a register (R153). -/
def crExists (n : Nat) : Bool :=
  n ≤ 2 || (0x10 ≤ n && n ≤ 0x23) || (0x30 ≤ n && n ≤ 0x34) || (0x38 ≤ n && n ≤ 0x3F) ||
  (0x60 ≤ n && n ≤ 0x65) || (0x68 ≤ n && n ≤ 0x70) || (0x74 ≤ n && n ≤ 0x76) || n == 0x78 || n == 0x79 ||
  (0x80 ≤ n && n ≤ 0x8A)

/-- A register that `sys.wrcr` may write. -/
def crWritable (n : Nat) : Bool :=
  crExists n && !(n ≤ 2 || (0x10 ≤ n && n ≤ 0x23) || n == 0x34 || n == 0x62 || n == 0x68 || n == 0x6A || n == 0x6B ||
    n == 0x74 || n == 0x8A)

/-! ## The fields of every instruction -/

/-- The rank-3 checks that the words of an instruction decide alone; HT matters to none of them (R163). -/
def fieldsOk : Instr → Bool
  | .nop f => f.sd == 0 && f.sa == 0 && SOp.isUnary f.op
  | .sMov f => f.sa == 0 && sPlain f
  | .sMovk f => sMovkOk f
  | .sAdd f | .sSub f | .sMul f | .sMulhu f | .sMulhs f | .sDivu f | .sDivs f | .sRemu f | .sRems f
  | .sAnd f | .sOr f | .sXor f | .sAndn f | .sShl f | .sShr f | .sSar f
  | .sMins f | .sMinu f | .sMaxs f | .sMaxu f | .sSel f | .sBfi f => sPlain f
  | .sPopc f | .sClz f | .sCtz f => SOp.isUnary f.op
  | .sCmp f => SOp.rsvOk f.op && f.op.func.toNat < 12
  | .sBfx f => SOp.rsvOk f.op && f.op.func.toNat < 2
  | .sLea f => SOp.rsvOk f.op && f.op.func.toNat < 4
  | .sLeaPc f =>
    f.sa == 0 && SOp.rsvOk f.op && 8 ≤ f.op.func.toNat && f.op.func.toNat < 12 &&
      (match f.op with | .imm32 .. | .imm64 .. => true | _ => false)
  | .sGetlane f => sGetlaneOk f
  | .sRdsr f => f.sa == 0 && (srSel f).any (· < 0x14)
  | .sWrsr f => f.sd == 0 && (srSel f).any fun n => n == 0 || n == 1
  | .drawbaseWrite f => f.sd == 0 && srSel f == some 0x12
  | .sSetfmt f => f.sd == 0 && sPlain f
  | .sGetfmt f => f.sa == 0 && SOp.isUnary f.op
  | .vMov f => vOk spMov false f
  | .vSetlane f => vOk spSetlane false f
  | .vIota f | .vAdd f | .vSub f | .vMul f | .vMulhu f | .vMulhs f | .vAnd f | .vOr f | .vXor f | .vAndn f
  | .vShl f | .vShr f | .vSar f | .vMins f | .vMinu f | .vMaxs f | .vMaxu f | .vBfx f => vOk spInt2 false f
  | .vMad f => vOk spMad false f
  | .vIcmp f => vOk spIcmp false f
  | .vSel f => vOk spSel false f
  | .vPopc f | .vClz f => vOk spInt1 false f
  | .vBfi f => vOk spBfi false f
  | .vAdd64 f | .vSub64 f => vOk spInt64 false f
  | .vShfl f => vOk spShfl false f
  | .vShflx f => vOk spShflx false f
  | .vIred f => vOk spIred false f
  | .vIscan f => vOk spIscan false f
  | .vFadd f | .vFsub f | .vFmul f | .vFdiv f => vOk spArith2 false f
  | .vFmin f | .vFmax f => vOk spPick false f
  | .vFfma f => vOk spArith3 false f
  | .vFsqrt f | .vFrsq f | .vFrcp f | .vFexp2 f | .vFlog2 f | .vFsinpi f | .vFcospi f | .vFtanh f | .vFround f =>
    vOk spArith1 false f
  | .vFcmp f => vOk spFcmp false f
  | .vFclass f => vOk spFclass false f
  | .vFcvt f => vOk spFcvt false f
  | .vCvtfi f => vOk spCvtfi false f
  | .vCvtif f => vOk spCvtif false f
  | .vQpack f => vOk spQpack false f
  | .vQunpack f => streamOk spQunpack f
  | .vMxquant f => vOk spMxquant false f
  | .vMxdeq f => streamOk spMxdeq f
  | .vFdot2 f => vOk spDot2 false f
  | .vFred f => vOk spFred false f
  | .vFscan f => vOk spFscan false f
  | .vRndu f | .vRndn f | .vRndg f => rndOk f
  | .vArgmax f => vOk spArgmax false f
  | .vDvar f => dvarOk f
  | .vDset f => dsetOk f
  | .vDgetd f => dgetdOk f
  | .vDsetd f => dsetdOk f
  | .vDclr f => dclrOk f
  | .vDnoise f => dnoiseOk f
  | .vDchk f => dchkOk f
  | .pfxDual p => pfxDualOk p
  | .pfxMom p => pfxMomOk p
  | .pfxPt p => pfxPtOk p
  | .pfxSr p => pfxSrOk p
  | .vLd m => vLdOk m
  | .vSt m => vStOk m
  | .vLdsp m => vLdspOk m
  | .vStsp m => vStspOk m
  | .sLd m => sLdOk m
  | .sSt m => sStOk m
  | .vLdl m => vLdlOk m
  | .vStl m => vStlOk m
  | .vAtom m => vAtomOk m
  | .vCas m => vCasOk m
  | .vRed m => vRedOk m
  | .sAtom m => sAtomOk m
  | .sCas m => sCasOk m
  | .chunkTake m => chunkTakeOk m
  | .monArm m => monArmOk m
  | .monWait m => monWaitOk m
  | .fence m => fenceOk m
  | .txBegin m | .keyWait m | .keyPass m => bareOk m
  | .txEnd m => txEndOk m
  | .txAbort m => txAbortOk m
  | .txStat m => txStatOk m
  | .tagSet m => tagSetOk m
  | .tagGet m => tagGetOk m
  | .tagGetWait m => tagGetWaitOk m
  | .prefetch m => prefetchOk m
  | .cacheRetain m | .cacheUnpin m => linesOk 1 m
  | .cacheOpIfetch m | .cacheOpEvl1 m | .cacheOpEvl2 m => linesOk 3 m
  | .mxCrew x => crewOk x
  | .mxZero x => zeroOk x
  | .mxMma x => mmaOk x
  | .mxMmad x => mmadOk x
  | .mxMmac x => mmacOk x
  | .mxMma64 x => mma64Ok x
  | .mxLdc x => ldcOk 0 x
  | .mxLdcVar x => ldcOk 1 x
  | .mxLdcB x => ldcOk 2 x
  | .mxLdcF64 x => ldcOk 3 x
  | .mxStc x => stcOk x
  | .mxStat x => statOk x
  | .cpLoad c => cpLoadOk c
  | .cpStore c => cpStoreOk c
  | .cpGather c => cpGatherOk c
  | .cpXfer c => cpXferOk c
  | .cpFill c => cpFillOk c
  | .cpClose v => closeOk v
  | .cpWait v => waitOk v
  | .collStart c => collOk c
  | .launch c => launchOk c
  | .evtAdd v => evtAddOk v
  | .br _ | .brc .. | .call .. | .part .. => true
  | .brm r c _ => r == 0 && c.toNat < 4
  | .jmp _ l k r => r == 0 && (k == 1 || l == 0)
  | .ret _ r => r == 0
  | .regang r | .yield r | .exit r => r == 0
  | .bar _ _ _ r => r == 0
  | .wbar _ _ r => r == 0
  | .trap _ r | .brk _ r => r == 0
  | .sysRdcr _ c r => r == 0 && crExists c.toNat
  | .sysWrcr _ c r => r == 0 && crWritable c.toNat
  | .sysEret r | .sysReplay r | .sysHalt r => r == 0
  | .sysTlbiAll a r | .sysTlbiCore a r => a == 0 && r == 0
  | .sysTlbiPage _ r => r == 0
  | .sysFltpop d r => r == 0 && sPairOk d.toNat
  | .sysCtxsv _ _ _ r => r == 0
  | .sysCtxld _ _ r => r == 0
  | .sysPreempt _ _ f r => r == 0 && f != 3
  | .sysIpi _ r => r == 0
  | .clauseIssueSelect .. => true
  | .clauseFetch .. => true
  | .longLatencyComplete .. => true
  | .faultSplitRejoin .. => true
  | .monWaitWake .. => true
  | .monWaitDeadline .. => true
  | .txCommit .. => true
  | .lockGrant .. => true
  | .keyedOpPerform .. => true
  | .keyRoundPass .. => true
  | .tagWaitSatisfy .. => true
  | .crewOpExecute .. => true
  | .copyCommandExecute .. => true
  | .batchComplete .. => true
  | .collectiveExecute .. => true
  | .collectiveMessageReceive .. => true
  | .collectiveRankTimeout .. => true
  | .peerLaunchAppend .. => true
  | .wbarRelease .. => true
  | .heldGangHandlerEntry .. => true
  | .poisonDelivery .. => true
  | .pageWalk .. => true
  | .faultReplay .. => true
  | .interruptStatusWrite .. => true
  | .interruptEnableWrite .. => true
  | .faultBufferStatusWrite .. => true
  | .dspadGrantWrite .. => true
  | .launchAnchorWrite .. => true
  | .wbarMemberWrite .. => true
  | .wbarBindWrite .. => true
  | .powerLimitWrite .. => true
  | .freqReq .. => true
  | .linkReq .. => true
  | .powerRequestComplete .. => true
  | .controlRegisterWrite .. => true
  | .listWatchWake .. => true
  | .recordTake .. => true
  | .conditionTest .. => true
  | .conditionPoll .. => true
  | .teamDispatch .. => true
  | .dispatchWaitTimeout .. => true
  | .islandPowerUp .. => true
  | .launchComplete .. => true
  | .preemptDrainDeadline .. => true
  | .preemptDiscard .. => true
  | .preemptSave .. => true
  | .linkDown .. => true
  | .linkUp .. => true
  | .flitRetry .. => true
  | .thermalLimitCrossing .. => true
  | .powerClockAdjust .. => true
  | .telemetryUpdate .. => true
  | .patrolScrub .. => true
  | .wearRemap .. => true
  | .uncorrectableError .. => true
  | .correctableError .. => true
  | .functionReset .. => true
  | .firmwareImageVerify .. => true
  | .spdmRequest .. => true
  | .contextKeySlotUpdate .. => true
  | .tdispStateChange .. => true
  | .bar2Access .. => true
  | .remoteMemoryRequest .. => true
  | .packagePowerOnReset => true
  | .cxlMemRequest .. => true
  | .cxlCacheSnoop .. => true

end Sys2Proof.Machine
end

