-- ==== Sys2Proof/Machine/Bits.lean ====
section
/-! DEFINITION. Bit-field, sign-extension, lane-mask and list helpers. -/

namespace Sys2Proof.Machine

/-- `Bits(x, lo + n - 1, lo)` of a number. -/
def nbits (x lo n : Nat) : Nat := x / 2 ^ lo % 2 ^ n

/-- `SignExtend` of an n-bit field to a doubleword. -/
def sx64 {n : Nat} (x : BitVec n) : DWord := x.signExtend 64
/-- Zero extension to a doubleword. -/
def zx64 {n : Nat} (x : BitVec n) : DWord := x.zeroExtend 64

def dw (n : Nat) : DWord := BitVec.ofNat 64 n
def wd (n : Nat) : Word := BitVec.ofNat 32 n
def lo32 (x : DWord) : Word := x.extractLsb' 0 32
def hi32 (x : DWord) : Word := x.extractLsb' 32 32
/-- A doubleword from its low and high words (R3). -/
def pair64 (lo hi : Word) : DWord := hi ++ lo

/-- Ones in bits [n - 1 : 0]. -/
def maskW (n : Nat) : Word := wd (2 ^ n - 1)

/-- A mask with the bits of the lanes. -/
def maskOf (ls : List Nat) : Word := ls.foldl (fun m l => m ||| wd (2 ^ l)) 0
def mask64 (ls : List Nat) : DWord := ls.foldl (fun m l => m ||| dw (2 ^ l)) 0

/-- The lanes below w whose bit is set. -/
def lanesOf (w : Nat) (m : Word) : List Nat := (List.range w).filter fun l => m.getLsbD l

/-- Canonical: the sign extension of its 57 low bits (R139, R322). -/
def canonical (a : DWord) : Bool := (a.extractLsb' 0 57).signExtend 64 == a

/-- Replace element i of a list, where it has one. -/
def setAt {α : Type} (xs : List α) (i : Nat) (x : α) : List α := xs.set i x
def modAt {α : Type} (xs : List α) (i : Nat) (f : α → α) : List α :=
  match xs[i]? with
  | some x => xs.set i (f x)
  | none => xs

/-- Little-endian value of bytes, and the n bytes of a value (R3). -/
def leNat : List Byte → Nat
  | [] => 0
  | b :: bs => b.toNat + 256 * leNat bs
def leBytes : Nat → Nat → List Byte
  | 0, _ => []
  | n + 1, x => BitVec.ofNat 8 x :: leBytes n (x / 256)

def le32 (bs : List Byte) : Word := wd (leNat (bs.take 4))
def le64 (bs : List Byte) : DWord := dw (leNat (bs.take 8))

/-- Number of ones, leading and trailing zeros of an n-bit value. -/
def popc (n x : Nat) : Nat := ((List.range n).filter fun i => x.testBit i).length
def clz (n x : Nat) : Nat := if x = 0 then n else n - 1 - Nat.log2 x
def ctz (n x : Nat) : Nat := ((List.range n).find? fun i => x.testBit i).getD n

/-- Saturating increment. -/
def satInc (lim x : Nat) : Nat := if x < lim then x + 1 else lim

/-- n rounded up to a multiple of k > 0. -/
def ceilTo (k n : Nat) : Nat := (n + k - 1) / k * k

/-- Insert into a sorted list of numbers without repeats. -/
def insNat : List Nat → Nat → List Nat
  | [], x => [x]
  | y :: ys, x => if x < y then x :: y :: ys else if x = y then y :: ys else y :: insNat ys x

/-- A free index below n; nothing is free where there is one choice. -/
def freeIndex (free n : Nat) : Nat := if n ≤ 1 then 0 else free % n

end Sys2Proof.Machine
end

