-- ==== Sys2Proof/Machine/State.lean ====
section
/-! DEFINITION. The state of the package as plain data: everything spec/00 to spec/12 gives the machine (INVENTORY.md,
'State', lists every item with its rule and its reset value), the reasons a step can stop, and the state after reset. -/

namespace Sys2Proof.Machine

/-- Bytes by address, in one canonical form (`Mem.wf`, Machine/Mem.lean): addresses strictly rising, and no byte equal to
what an unlisted address reads as (0, log 2). -/
abbrev Mem := List Host.Cell

/-- Why a step stops without a next state. -/
inductive Fault where
  /-- Raised by `exec` on an instruction word when no gang is focused: no agent issues it. No run reaches it, since
  `step` runs a word only for the focused gang. Safe. -/
  | noIssuingGang
  /-- Raised by `step` when the first entry of the agenda is an instruction word and not an event: the agenda names
  agents, and no hardware issues a word that way. Safe. -/
  | agendaNotEvent
  deriving DecidableEq, Repr

/-- Why an instruction has no meaning. -/
inductive Refusal where
  /-- Raised by the arms of `exec` whose instruction has no meaning yet. Safe. -/
  | notModelled (mnemonic : String)
  deriving DecidableEq, Repr

/-- Trap codes (Table 11.7). -/
inductive Trap where
  | illegalOpcode | illegalOperand | classMismatch | clauseFormat | regRange | maskPartial | misaligned
  | pageFault | protection | scaleLayout | tagFault | poison | peerUnavailable | modeConflict | privilege
  | software | breakpoint | crew | keyOrder | partDepth | launchReject
  deriving DecidableEq, Repr

/-- Roles of a group (R14). -/
inductive Role where
  | vector | copy | matrix
  deriving DecidableEq, Repr

/-! ## Lane -/

/-- Causes of an abort (Table 7.6). -/
inductive TxCause where
  | none | conflict | readLog | writeLog | explicit | fault | memError | forbidden | serialPreempted
  deriving DecidableEq, Repr

/-- Transaction state of a lane (R215 to R222). Logs hold granules by physical address / 8. -/
structure LaneTx where
  inTx : Bool
  nl : Nat
  doomed : Bool
  cause : TxCause
  xcode : Byte
  faddr : DWord
  ran : Bool
  committed : Bool
  locked : Bool
  rlog : List (Nat × DWord)
  wlog : List (Nat × DWord)
  deriving DecidableEq, Repr

/-- An operand latch of a lane (R32, R85): `life` is 0 outside its window; a hold sets 3 and every instruction of the
clause takes 1 from it as it ends, the holding one included; 4 is a value written by a destination code, valid to the end
of the clause. -/
structure Latch where
  val : Word
  life : Nat
  deriving DecidableEq, Repr

/-- State of a lane (R19 to R24). `gloves` has one entry of 1 + K words for each of the DW capable registers. -/
structure Lane where
  v : List Word
  gloves : List (List Word)
  draw : Word
  lpm : Mem
  exited : Bool
  latches : List Latch
  tx : LaneTx
  deriving DecidableEq, Repr

/-! ## Slice and gang -/

/-- A part record (R26). -/
structure PartRec where
  hinge : DWord
  fmt : Word
  em : BitVec 4
  deriving DecidableEq, Repr

/-- A fetched clause (R71, R75): the address and the word of its header, and the N words after it. -/
structure Clause where
  addr : DWord
  hdr : Word
  words : List Word
  deriving DecidableEq, Repr

/-- A prefix read and not yet used (R93). -/
inductive Pfx where
  | dual (p : PForm) | mom (p : PForm) | pt (p : PForm) | sr (p : PForm)
  deriving DecidableEq, Repr

/-- A wait after which the gang issues its instruction again (R309). -/
inductive Wait where
  /-- `bar` or `wbar` issued again before the phase it arrived in completed (R146, R147). -/
  | barNext (n : Nat) | wbarNext (n : Nat)
  /-- `key.wait` (R228), and a `key.pass` repeated before its pass is recorded (R228). -/
  | key | keyNext
  /-- `cp.wait` (R262), and 16 incomplete batches (R261). -/
  | cpWait | cpRoom
  /-- A memory instruction while commits of a `tx.end` are outstanding (R221). -/
  | commit
  /-- `mx.crew` while crew operations of the old MXCREW are outstanding (R233), a barrier while they are (R253). -/
  | crewDrain
  /-- A crew operation while another gang's entry is in the group's slot (R235, R45). -/
  | slot
  /-- `exit` before every access of its gang has returned (R339). -/
  | exitReturn
  /-- `sys.preempt` while BUSY (R159). -/
  | preemptBusy
  /-- An access to lines that an engine has registered and not yet written (R258). -/
  | engine (lines : List Nat)
  /-- An instruction behind accesses of its group that wait for the key (R226, R278). -/
  | keyed
  /-- An access behind an earlier one that slices of its split set have not performed (R275, R330, log 47). -/
  | behind
  /-- An access to an SC page behind words that the group's copy commands still move on SC pages (R282). -/
  | scCopies
  deriving DecidableEq, Repr

/-- Where a scratchpad address leads (Table 7.2): a byte of a team's allocation, or of the die scratchpad. -/
inductive Place where
  | team (id off : Nat)
  | die (d : DieId) (off : Nat)
  deriving DecidableEq, Repr

/-- A waiting tag access (R202, R203): when it arrived, its width in bytes, the tag it waits for, the lanes not yet
resolved with their addresses and places, and the lanes that met FAULT with their addresses. -/
structure TagWait where
  arrived : Nat
  n : Nat
  want : Nat
  todo : List (Nat × DWord × Place)
  faulted : List (Nat × DWord)
  deriving DecidableEq, Repr

/-- Where a parked gang waits (R309, R330). -/
inductive Park where
  /-- A translation fault; `released` once a replay lets the access be made again (R330, R334). -/
  | fault (released : Bool)
  /-- The catch-up point of a fault split (R18). -/
  | catchUp
  /-- The hinge of the top part record (R142). -/
  | hinge
  /-- A waiting barrier (R146, R147). -/
  | bar (n : Nat) | wbar (n : Nat)
  /-- A rendezvous slot (R235), and `mx.ldc.b` until its registers are written (R249). -/
  | crew | crewB (op : Nat)
  /-- A waiting tag access (R202, R203). -/
  | tag (w : TagWait)
  /-- `mon.wait` with its deadline (R213). -/
  | mon (deadline : DWord)
  /-- The serial-lock queue (R224). -/
  | lock
  /-- A trap taken while the group is in handler mode under another gang's entry (R343). -/
  | held
  /-- `sys.halt` (R160). -/
  | halt
  /-- Released inside its clause: it waits for the issue slot (R309), while its group is held or halted too (R340, R160). -/
  | resume
  | wait (w : Wait)
  deriving DecidableEq, Repr

/-- A byte range that an access parked on a fault is still to touch (R330): its virtual address, its physical address where it
has a translation, and its length. -/
structure ParkedAcc where
  va : DWord
  pa : Option Nat
  n : Nat
  deriving DecidableEq, Repr

/-- A gang (R16). `pc` is the address of the next word to issue; `clause` is none until the clause at `pc` is fetched.
`split` names the split set of R18, `op` the long-latency result of the instruction it is parked on, `prev` the header of
the clause it fell through from (R74). -/
structure Gang where
  id : Nat
  slices : List Nat
  pc : DWord
  fmt : Word
  clause : Option Clause
  /-- Its clause has been selected and its words issue. -/
  begun : Bool
  pfx : List Pfx
  park : Option Park
  split : Option Nat
  op : Option Nat
  prev : Option DWord
  /-- Poisoned returns waiting for the gang's next clauses, in program order (R339): the address of the instruction, the lanes
  and the virtual address. -/
  poison : List (DWord × Word × DWord)
  /-- What the instruction on which the gang is parked on a fault is still to access, and its order code (R275, R330). -/
  parked : List ParkedAcc
  parkedOrder : Nat
  /-- A replay re-executes the instruction, so that its accesses walk afresh (R334). -/
  afresh : Bool
  /-- 0 after its own clause or a yield of its group; else 1 more than the clauses issued on its quadrant while it was ready
  (R149, R309). -/
  age : Nat
  /-- Clauses issued on its quadrant while it was ready, which no YIELD restarts: the age bound (R309, R320). -/
  bypassed : Nat
  deriving DecidableEq, Repr

/-! ## Group -/

/-- A register word that a long-latency operation is to write (R80). -/
inductive Tgt where
  | vreg (lane reg : Nat) | glove (lane reg word : Nat) | sreg (n : Nat) (mask : DWord)
  deriving DecidableEq, Repr

/-- An outstanding long-latency operation (R79): the scoreboard entry, how many gangs and keyed accesses have yet to
perform their part, the writes not yet delivered, and the words that later instructions have written since (R81). -/
structure PendOp where
  id : Nat
  entry : Nat
  waiting : Nat
  writes : List (Tgt × DWord)
  dead : List Tgt
  deriving DecidableEq, Repr

/-- A `tx.end` whose commits are outstanding (R215, R221). -/
structure TxClose where
  op : Nat
  sd : Nat
  lanes : Word
  todo : List Nat
  mask : Word
  conflict : Bool
  allDone : Bool
  round : Nat
  deriving DecidableEq, Repr

/-- Transaction state of a group (R39, R223, R224). -/
structure GroupTx where
  depth : Nat
  conflicts : Nat
  xcode : Byte
  cause : TxCause
  lockHeld : Bool
  lockQueued : Bool
  close : Option TxClose
  deriving DecidableEq, Repr

/-- What one lane of a keyed operation does when it is performed (R226). -/
inductive KeyAct where
  | atom (atop : Nat) (w64 : Bool) (b : DWord) (ret : Option (List Tgt))
  | cas (w64 : Bool) (cmp new : DWord) (ret : List Tgt)
  | store (data : List Byte)
  | commit
  deriving DecidableEq, Repr

/-- Whether an access of an engine, of the front-end or of the key waits for a replay, or is made again by one and so walks
afresh (R334). -/
inductive Redo where
  | none | waits | again
  deriving DecidableEq, Repr

/-- A keyed access waiting for the key: its round, its lane (32 + j for a group-level access of a gang whose first slice is j), the
address of its instruction, the split set it was issued in (R18), its number in the order of issue, whether every later access of
the group waits for it (R44, R199, R214), whether it lies on an SC page (R282), its long-latency operation, its addresses, and
whether it is parked because its home cannot be reached (R272). -/
structure KeyedAcc where
  round : Nat
  lane : Nat
  pc : DWord
  split : Option Nat
  num : Nat
  barred : Bool
  sc : Bool
  op : Option Nat
  va : DWord
  pa : Nat
  act : KeyAct
  wait : Redo
  deriving DecidableEq, Repr

/-- The group's monitor (R212): the armed line by physical address / 128, and whether it has fired. -/
structure Monitor where
  line : Nat
  fired : Bool
  deriving DecidableEq, Repr

/-- TRAP_CAUSE to HSCRATCH_3 of a group (Table 11.4). -/
structure TrapRegs where
  cause : DWord
  resume : DWord
  pc : DWord
  addr : DWord
  state : DWord
  hscratch : List DWord
  deriving DecidableEq, Repr

/-- What a trap delivers (R340). -/
structure TrapInfo where
  code : Trap
  lanes : Word
  sw : Byte
  pc : DWord
  addr : DWord
  resume : DWord
  hdr : DWord
  deriving DecidableEq, Repr

/-- Handler mode of a group (R340 to R344): the slices in it, the header of the trapping clause, and the hold of a
double trap. -/
structure Handler where
  slices : List Nat
  hdr : DWord
  /-- The split set that the slices had at entry (R18). -/
  split : Option Nat
  double : Bool
  deriving DecidableEq, Repr

/-- The kinds of copy command (R256, R264, R266). -/
inductive CopyKind where
  | load | store | gather | xfer | fill | coll | launch
  deriving DecidableEq, Repr

/-- A global destination page of a copy command, translated at issue: the page of virtual addresses, the first physical
address, whether its words are keyed (R263), and whether it is an SC page (R282). -/
structure DstPage where
  page : Nat
  pa : Nat
  keyed : Bool
  sc : Bool
  deriving DecidableEq, Repr

/-- A copy, collective or launch command that has issued (R255 to R266). `todo` are the word numbers (row major) not yet
moved; `round` is the key round at issue (R263); `wait` is set while the engine waits for a replay (R260). -/
structure CopyCmd where
  id : Nat
  kind : CopyKind
  batch : Nat
  dst : DWord
  src : DWord
  idx : DWord
  rowBytes : Nat
  rows : Nat
  dpitch : Nat
  spitch : Nat
  dtm : Nat
  stm : Nat
  dswz : Nat
  sswz : Nat
  dspad : Bool
  sspad : Bool
  scope : Nat
  pri : Nat
  peer : Bool
  todo : List Nat
  round : Nat
  wait : Redo
  /-- When the command moved its first word (R202). -/
  started : Option Nat
  /-- Global destination pages translated at issue (R257, R263). -/
  dmap : List DstPage
  /-- Indices of `cp.gather` read so far, by row, or why one could not be read (R256). -/
  gidx : List (Nat × (Nat ⊕ Trap))
  /-- Words left unwritten (R260). -/
  lost : List Nat
  /-- Privilege of the issuing gang (R296, R341). -/
  priv : Bool
  deriving DecidableEq, Repr

/-- A closed batch that is incomplete, or failed and not yet reported (R261, R262). -/
structure Batch where
  num : Nat
  evt : Option DWord
  failed : Option Trap
  complete : Bool
  wait : Redo
  /-- `cp.wait` has reported its failure: it is kept for the additions deferred behind it (R262, R396). -/
  reported : Bool
  deriving DecidableEq, Repr

/-- An event addition deferred behind closed batches (R267, R396); `num` is its number in the order of issue. -/
structure EvtAdd where
  addr : DWord
  val : DWord
  after : Nat
  num : Nat
  wait : Redo
  deriving DecidableEq, Repr

/-- An accumulator tile of a member: 16 rows of means and of variance twins, the status flags of R246, the rows marked
in error with the kind of the first error (Table 8.5), and OPS (R252). -/
structure Acc where
  c : List (List Word)
  tw : List (List Word)
  status : Word
  marks : BitVec 16
  kind : Nat
  ops : Word
  deriving DecidableEq, Repr

/-- A `mx.stat` whose earlier crew operations are not all complete (R252): its long-latency operation, the accumulator, its
target, and those operations. -/
structure MxStat where
  op : Nat
  acc : Nat
  tgt : Tgt
  after : List Nat
  deriving DecidableEq, Repr

/-- An entry of a rendezvous slot (R235): the gang, the words, the prefixes, the scalar values and the modes. -/
structure SlotEntry where
  gang : Nat
  words : List Word
  pfx : List Pfx
  vals : List DWord
  rm : Nat
  sat : Bool
  so : Bool
  deriving DecidableEq, Repr

/-- Bytes that a lane of a split set has stored in a deterministic launch, at the instruction at `pc`: from a physical address, or
from a place of a scratchpad (R18, R288, log 22). -/
structure SplitStore where
  split : Nat
  pc : DWord
  lane : Nat
  start : Nat ⊕ Place
  n : Nat
  deriving DecidableEq, Repr

/-- A group (R29). `idx` to `priv` are fixed at dispatch (R14). -/
structure GroupId where
  id : Nat
  team : Nat
  idx : Nat
  role : Role
  quad : Nat
  width : Nat
  nr : Nat
  dw : Nat
  k : Nat
  sregs : Nat
  lpmBytes : Nat
  deriving DecidableEq, Repr

structure Group where
  ident : GroupId
  s : List DWord
  em : Word
  flags : Word
  sb : List Nat
  mxcrew : DWord
  lanes : List Lane
  parts : List (List PartRec)
  gangs : List Gang
  pend : List PendOp
  tx : GroupTx
  mon : Option Monitor
  trap : TrapRegs
  handler : Option Handler
  held : List (Nat × TrapInfo)
  /-- Rounds of `key.pass` recorded, the slices that have issued the present one, and the keyed accesses waiting. -/
  round : Nat
  passed : List Nat
  keyq : List KeyedAcc
  /-- Copy commands since the last close, the number of the last closed batch, its batches, commands and additions. -/
  copyCount : Nat
  lastBatch : Nat
  batches : List Batch
  cmds : List CopyCmd
  adds : List EvtAdd
  /-- The first failure of a command of the batch not yet closed (R260). -/
  openFail : Option Trap
  accs : List Acc
  slot : Option SlotEntry
  stats : List MxStat
  splitStores : List SplitStore
  deriving DecidableEq, Repr

/-! ## Team, launch and crew operations -/

/-- A scratchpad: bytes by offset, and by word number the tag in bits [1:0] and the poison mark in bit 2 (R200). -/
structure Spad where
  bytes : Mem
  marks : Mem
  deriving DecidableEq, Repr

/-- The phase of a barrier (R145): ROLES of its first arrival, and the arrivals; an arrival holds the group, its ROLES and
ARRIVE, the slices that have issued it, and whether the group has arrived. -/
structure BarArr where
  group : Nat
  roles : Nat
  arrive : Bool
  slices : List Nat
  done : Bool
  deriving DecidableEq, Repr

structure BarPhase where
  num : Nat
  roles : Option Nat
  arrs : List BarArr
  deriving DecidableEq, Repr

/-- A team (R13 to R15). `launch` is the launch's own number; `set` are the members of the cluster set in order. -/
structure Team where
  id : Nat
  launch : Nat
  die : DieId
  teamId : Nat
  core : Nat
  cluster : Nat
  set : List Nat
  member : Nat
  spadBytes : Nat
  spad : Spad
  bars : List BarPhase
  sideEffect : Bool
  progress : Nat
  round : Nat
  deriving DecidableEq, Repr

/-- A condition of a launch record (R300). -/
structure Cond where
  addr : DWord
  val : DWord
  met : Bool
  wait : Redo
  deriving DecidableEq, Repr

/-- The fields of a kernel header that the machine uses (Table 10.5). -/
structure KHdr where
  width : Nat
  counts : List Nat
  vregs : List Nat
  sregs : Nat
  dwin : Nat
  kcnt : Nat
  det : Bool
  cluster : Bool
  fmt : Word
  spad : Nat
  lpm : Nat
  preload : BitVec 16
  hint : Nat
  deriving DecidableEq, Repr

/-- A launch taken and not completed (R294, R297, R299): `recPa` is where its record lies (log 30), `spans` are the tangent
spans of R115, `ready` orders the launches whose conditions hold (R305), `running` says that STATUS is 0x02. `todo` are the
TEAMIDs not dispatched, in order; `live` the teams resident or saved; `waiting` and `expired` the wait of its next team
(R305); `undone` the completion words still to raise (R295) once it is completed or rejected (`finished`). `seen` is the record as it was
taken, without the fields that the device writes (R8, R294, log 23). -/
structure Launch where
  id : Nat
  die : DieId
  list : Nat
  priv : Bool
  record : DWord
  recPa : Nat
  khdr : DWord
  args : DWord
  seedLo : Word
  seedHi : Word
  gx : Nat
  gy : Nat
  gz : Nat
  launchId : Word
  conds : List Cond
  spans : List (DWord × DWord × DWord)
  hdr : KHdr
  ready : Option Nat
  running : Bool
  todo : List Nat
  live : List Nat
  waiting : Bool
  expired : Bool
  undone : List DWord
  doneWait : Redo
  finished : Bool
  seen : List Byte
  /-- Bytes of the record that are still to be written, since its home cannot be reached, and their wait for a replay (R351). -/
  owed : List (Nat × Byte)
  owedWait : Redo
  deriving DecidableEq, Repr

/-- A launch that has completed (R319): the die, its LAUNCHID and the number of its teams. -/
structure PastLaunch where
  die : DieId
  launchId : Word
  teams : Nat
  deriving DecidableEq, Repr

/-- A scratchpad word that a crew operation reads: the row of the operation that it belongs to (64 for every row), its
address after swizzling, and its tag mode. -/
structure CrewRead where
  row : Nat
  addr : DWord
  mode : Nat
  deriving DecidableEq, Repr

/-- A scratchpad word that `mx.stc` writes; `bad` where its row is marked in error (R250). -/
structure CrewWrite where
  row : Nat
  addr : DWord
  word : Word
  bad : Bool
  deriving DecidableEq, Repr

/-- An error that a crew operation met: the row, the kind of Table 8.5 and the address of the word. -/
structure CrewErr where
  row : Nat
  kind : Nat
  addr : DWord
  deriving DecidableEq, Repr

/-- An accepted crew operation (R235, R237): the core, its members in order, the words, prefixes, scalar values and modes,
and the registers or draws captured (per member, register and lane); when it started; the scratchpad words still to be
read, those read, the errors met, the words still to be written, and the flags and count of a store (R250). -/
structure CrewOp where
  id : Nat
  team : Nat
  members : List Nat
  quads : List Nat
  words : List Word
  pfx : List Pfx
  vals : List DWord
  rm : Nat
  sat : Bool
  so : Bool
  bregs : List (List (List Word))
  vregs : List (List (List Word))
  started : Option Nat
  reads : List CrewRead
  got : List (DWord × Word)
  errs : List CrewErr
  writes : List CrewWrite
  flags : Word
  satCount : Nat
  deriving DecidableEq, Repr

/-- A collective of one rank in flight (R264, R265, R357). `seq` numbers the rank's collectives on COMM, and `routes` is its route
table as it was read (R356). -/
structure Coll where
  id : Nat
  die : DieId
  group : Nat
  cmd : Nat
  comm : Nat
  seq : Nat
  ranks : Nat
  myRank : Nat
  routes : List DWord
  op : Nat
  type : Nat
  count : Nat
  src : DWord
  dst : DWord
  event : DWord
  sa : Nat
  launchId : Word
  failed : Option Trap
  wait : Redo
  /-- 0 before SRC is read, 1 before DST is written, 2 before EVENT is raised. -/
  stage : Nat
  /-- 1 once its node of the tree has gone up, 2 once the result has gone down (R357). -/
  sent : Nat
  deriving DecidableEq, Repr

/-- What a rank has of a collective from a rank (R357): its own contribution, the node of a child in the tree, or the result from
its parent: OP, TYPE and COUNT, a failure, and the elements. -/
structure CollMsg where
  die : DieId
  comm : Nat
  seq : Nat
  rank : Nat
  shape : Nat × Nat × Nat
  failed : Option Trap
  data : List DWord
  deriving DecidableEq, Repr

/-! ## Die -/

/-- A fault-buffer entry (Table 11.5). -/
structure FaultRec where
  launchId : Word
  lcore : Nat
  level : Nat
  count : Nat
  vpage : BitVec 48
  code : Nat
  source : Nat
  sub : Nat
  write : Bool
  /-- A replay has begun since the entry was appended; the accesses that it re-executes do not change the entry (R334, log 40). -/
  stale : Bool
  deriving DecidableEq, Repr

/-- A TLB entry (R327): of a core's L1 TLB or, with `core` none, of the L2 TLB; the first address it maps, its level,
the leaf and the leaf's own address. -/
structure TlbEntry where
  core : Option Nat
  base : Nat
  level : Nat
  leaf : DWord
  slot : Nat
  deriving DecidableEq, Repr

/-- A table entry of levels 3 to 1 held by a die's walk caches (R327): its own address, its level, the first address of the
region it covers, and the entry. -/
structure WalkEntry where
  slot : Nat
  level : Nat
  base : Nat
  entry : DWord
  deriving DecidableEq, Repr

/-- A 64 KiB frame of a die's memory that has been used under more than one key (R372, log 16): its number; the key under which memory
shows it, a slot or none for the die's shared key; its bytes when it came to be shown so; and its bytes under its other keys, as
far as no line of them has been written since under another. -/
structure KeyPage where
  frame : Nat
  key : Option Nat
  first : Mem
  others : List (Option Nat × Mem)
  deriving DecidableEq, Repr

/-- Its address. -/
def KeyPage.base (p : KeyPage) : Nat := p.frame * 65536

/-- The path of a pre-emption request (R313). -/
inductive PrePath where
  | none | drain | discard | save
  deriving DecidableEq, Repr

/-- The request in hand (R159, R313). -/
structure PreReq where
  teamUid : Nat
  path : PrePath
  deadline : Nat
  deriving DecidableEq, Repr

/-- PREEMPT_REQUEST and its registers (Table 5.6, Table 10.1). -/
structure Preempt where
  busy : Bool
  path : PrePath
  error : Nat
  team : Word
  req : Option PreReq
  area : DWord
  bytes : Word
  savedAt : DWord
  deriving DecidableEq, Repr

/-- Where the front-end stands in a list (R294): the address whose NEXT it reads, whether it watches it, and a stall
(R295). -/
structure ListPos where
  cur : Option DWord
  watching : Bool
  stalled : Redo
  deriving DecidableEq, Repr

/-- A core-array island (R363, R364). -/
structure Island where
  on : Bool
  ceiling : Nat
  mhz : Nat
  clock : DWord
  deriving DecidableEq, Repr

/-- A pending change of a clock or a link width (R364, R365): an island's ceiling and a link's width from POWER_REQUEST, and the
steps that the device lowers every island by, for heat (R366) or for the package limit (R363). -/
inductive PowerReq where
  | freq (island mhz : Nat) | width (link width : Nat) | steps (heat : Bool) (n : Nat)
  deriving DecidableEq, Repr

/-- Control registers of a die (Tables 5.4, 10.1, 11.4, 12.2) that hold a value of their own. -/
structure CtlRegs where
  pageTableRoot : DWord
  trapVector : DWord
  txRetryLimit : Byte
  retainBase : List DWord
  retainLimit : List DWord
  poolBase : DWord
  poolSize : Word
  poolHead : Nat
  poolTail : Word
  badEntry : Bool
  emptySeen : Bool
  spare : Option Nat
  errAddr : DWord
  errStatus : Word
  doubleTrap : DWord
  intStatus : Word
  intEnable : Word
  anchors : List DWord
  grants : List DWord
  commTable : DWord
  telemetry : DWord
  powerReq : DWord
  wbarMember : List DWord
  deriving DecidableEq, Repr

/-- Power, thermal and telemetry state of a die (R363 to R369); `limitSteps` and `heatSteps` are the 25 MHz steps that the package
limit and the 100 °C limit take from every island. -/
structure PowerState where
  islands : List Island
  limitSteps : Nat
  heatSteps : Nat
  reqs : List PowerReq
  active : Option PowerReq
  linkWidths : List Nat
  hold : Bool
  throttle : BitVec 16
  seq : DWord
  ce : List Word
  ue : DWord
  deriving DecidableEq, Repr

/-- A compute die with the function that presents it (R1). -/
structure Die where
  ctl : CtlRegs
  coreEnable : BitVec 160
  faults : List FaultRec
  dropped : Bool
  preempt : Preempt
  lists : List ListPos
  tlb : List TlbEntry
  walks : List WalkEntry
  ifetch : List (Nat × List Byte)
  retained : List Nat
  dspad : Spad
  lockHolder : Option Nat
  lockQueue : List (Nat × Nat)
  ipi : List Nat
  power : PowerState
  memUp : Bool
  coresHeld : Bool
  ready : Bool
  /-- The MSI-X table: a message's address and data, its mask, and the pending bits, by vector (R332). -/
  msix : List (DWord × Word)
  masked : List Bool
  pendingMsg : List Bool
  tdisp : TdispState
  keySlots : List Nat
  keyGen : Nat
  keyPages : List KeyPage
  /-- Pages used under the die's shared key: address and bytes (R372, log 16). -/
  sharedSpans : List (Nat × Nat)
  peerAppends : List (Nat × Nat × DWord × Nat)
  collSeq : List (Nat × Nat)
  deriving DecidableEq, Repr

/-! ## Package -/

/-- A wired-barrier number (R352 to R355): its binding, the teams arrived in the phase with their ARRIVE, the cores that
have held a bound team. -/
structure Wbar where
  bind : DWord
  arrs : List (Nat × BarArr)
  arrived : List Nat
  /-- Teams of a completed phase that the release line has still to wake (R353). -/
  released : List Nat
  history : List (DieId × Nat)
  deriving DecidableEq, Repr

/-- A saved or sealed team or cluster set (R46, R316, R158): where its area or image lies, the bytes written there, and the
state it holds; `version` is its format and `key` the key it is sealed under (R317, R374); `queued` marks a team that `sys.ctxld` has
queued for dispatch on `die`, with the wait of R305. -/
structure Saved where
  die : DieId
  addr : DWord
  bytes : List Byte
  image : Bool
  launch : Launch
  teams : List Team
  groups : List Group
  ops : List CrewOp
  version : Nat
  key : Nat
  queued : Bool
  waiting : Bool
  expired : Bool
  deriving DecidableEq, Repr

/-- Firmware of the package (R370): none verified since the reset, an image that has been verified, or recovery firmware. -/
inductive Firmware where
  | unverified | measured | recovery
  deriving DecidableEq, Repr

/-- A message or reply that leaves the package: MSI-X (R332), data returned to the host or to another package. -/
inductive Out where
  | msix (d : DieId) (vector : Nat) (addr : DWord) (data : Word)
  | data (d : Option DieId) (bytes : List Byte)
  /-- A node or the result of a collective to a rank outside the package, with its route (R356, R357). -/
  | contribution (d : DieId) (route : DWord) (bytes : List Byte)
  | refused (d : DieId)
  | surpriseDown (d : DieId)
  deriving DecidableEq, Repr

/-- The whole package. `agenda`, `focus`, `tick` and `nextId` are the model's own: what comes next (an event, or `none` for
the next word of the focused gang), the gang that issues, the counter of free values, the place in the round of events that come
by themselves, and the next unused number. -/
structure State where
  cd0 : Die
  cd1 : Die
  mem : Mem
  poison : List Nat
  launches : List Launch
  past : List PastLaunch
  teams : List Team
  groups : List Group
  crewOps : List CrewOp
  colls : List Coll
  collMsgs : List CollMsg
  wbars : List Wbar
  saved : List Saved
  timeNs : DWord
  powerLimit : Word
  linksDown : List LinkId
  firmware : Firmware
  /-- The firmware image that runs and its security version. -/
  fwImage : Nat × Nat
  fusedMin : Nat
  identity : Nat
  shutdown : Bool
  outs : List Out
  agenda : List (Option Instr)
  focus : Option (Nat × Nat)
  tick : Nat
  turn : Nat
  nextId : Nat
  deriving DecidableEq, Repr

/-! ## Reset -/

/-- Control registers after a reset of the die's function (Tables 5.4, 10.1, 11.4, 12.2; log 8). -/
def CtlRegs.reset : CtlRegs where
  pageTableRoot := 0
  trapVector := 0
  txRetryLimit := 8
  retainBase := List.replicate 4 0
  retainLimit := List.replicate 4 0
  poolBase := 0
  poolSize := 0
  poolHead := 0
  poolTail := 0
  badEntry := false
  emptySeen := false
  spare := none
  errAddr := 0
  errStatus := 0
  doubleTrap := 0
  intStatus := 0
  intEnable := 0
  anchors := List.replicate 4 0
  grants := List.replicate 4 0
  commTable := 0
  telemetry := 0
  powerReq := 0
  wbarMember := List.replicate 160 0

def Island.reset : Island := ⟨false, 1600, 1600, 0⟩

def PowerState.reset : PowerState where
  islands := List.replicate 4 Island.reset
  limitSteps := 0
  heatSteps := 0
  reqs := []
  active := none
  linkWidths := List.replicate 13 0
  hold := false
  throttle := 0
  seq := 0
  ce := List.replicate 8 0
  ue := 0

def Preempt.reset : Preempt := ⟨false, .none, 0, 0, none, 0, 0, 0⟩

def ListPos.reset : ListPos := ⟨none, false, .none⟩

/-- A die after reset; all 160 cores pass the test (log 7). -/
def Die.reset : Die where
  ctl := .reset
  coreEnable := BitVec.allOnes 160
  faults := []
  dropped := false
  preempt := .reset
  lists := List.replicate 4 .reset
  tlb := []
  walks := []
  ifetch := []
  retained := []
  dspad := ⟨[], []⟩
  lockHolder := none
  lockQueue := []
  ipi := []
  power := .reset
  memUp := true
  coresHeld := false
  ready := true
  msix := List.replicate 4 (0, 0)
  masked := List.replicate 4 true
  pendingMsg := List.replicate 4 false
  tdisp := .unlocked
  keySlots := []
  keyGen := 0
  keyPages := []
  sharedSpans := []
  peerAppends := []
  collSeq := []

def Wbar.reset : Wbar := ⟨0, [], [], [], []⟩

/-- The package right after reset. -/
def State.reset : State where
  cd0 := .reset
  cd1 := .reset
  mem := []
  poison := []
  launches := []
  past := []
  teams := []
  groups := []
  crewOps := []
  colls := []
  collMsgs := []
  wbars := List.replicate 64 .reset
  saved := []
  timeNs := 0
  powerLimit := 3600
  linksDown := []
  firmware := .measured
  fwImage := (0, 0)
  fusedMin := 0
  identity := 0
  shutdown := false
  outs := []
  agenda := []
  focus := none
  tick := 0
  turn := 0
  nextId := 1

end Sys2Proof.Machine
end

