-- ==== Sys2Proof/Machine/Mem.lean ====
section
/-! DEFINITION. Memory as a canonical list of bytes (log 2), scratchpads with their tags and poison marks (R200), and the
physical address map (Table 11.1). -/

namespace Sys2Proof.Machine

/-! ## Bytes -/

/-- The byte at an address; an unlisted byte reads 0 (log 2). -/
def Mem.read : Mem → Nat → Byte
  | [], _ => 0
  | (k, v) :: r, a => if k = a then v else if a < k then 0 else Mem.read r a

/-- Write one byte; a zero byte is not listed. -/
def Mem.write : Mem → Nat → Byte → Mem
  | [], a, b => if b = 0 then [] else [(a, b)]
  | (k, v) :: r, a, b =>
    if a < k then (if b = 0 then (k, v) :: r else (a, b) :: (k, v) :: r)
    else if a = k then (if b = 0 then r else (a, b) :: r)
    else (k, v) :: Mem.write r a b

/-- n bytes from an address. -/
def Mem.readN (m : Mem) (a : Nat) : Nat → List Byte
  | 0 => []
  | n + 1 => Mem.read m a :: Mem.readN m (a + 1) n

def Mem.writeN (m : Mem) (a : Nat) : List Byte → Mem
  | [] => m
  | b :: bs => Mem.writeN (Mem.write m a b) (a + 1) bs

/-- Zero the bytes a to a + n - 1. -/
def Mem.zero (m : Mem) (a n : Nat) : Mem := m.filter fun c => !(a ≤ c.1 && c.1 < a + n)

def Mem.word (m : Mem) (a : Nat) : Word := le32 (Mem.readN m a 4)
def Mem.dword (m : Mem) (a : Nat) : DWord := le64 (Mem.readN m a 8)

/-- Addresses strictly rising from a bound, and no zero byte. -/
def Mem.wfFrom : Nat → Mem → Bool
  | _, [] => true
  | lo, (k, v) :: r => lo ≤ k && v != 0 && Mem.wfFrom (k + 1) r

/-- The canonical form. -/
def Mem.wf (m : Mem) : Bool := Mem.wfFrom 0 m

/-! ## Scratchpads -/

def tagEmpty : Nat := 0
def tagFull : Nat := 1
def tagFault : Nat := 2

/-- Tag of the word that holds a byte offset. -/
def Spad.tag (p : Spad) (off : Nat) : Nat := (Mem.read p.marks (off / 4)).toNat % 4
/-- Poison mark of that word. -/
def Spad.poisoned (p : Spad) (off : Nat) : Bool := (Mem.read p.marks (off / 4)).getLsbD 2
def Spad.setTag (p : Spad) (off t : Nat) : Spad :=
  let o := (Mem.read p.marks (off / 4)).toNat
  { p with marks := Mem.write p.marks (off / 4) (BitVec.ofNat 8 (o / 4 * 4 + t)) }
def Spad.clearPoison (p : Spad) (off : Nat) : Spad :=
  let o := (Mem.read p.marks (off / 4)).toNat
  { p with marks := Mem.write p.marks (off / 4) (BitVec.ofNat 8 (o % 4)) }
def Spad.setPoison (p : Spad) (off : Nat) : Spad :=
  { p with marks := Mem.write p.marks (off / 4) (BitVec.ofNat 8 6) }
/-- A tag of FAULT or 0b11, which is read as FAULT (R200). -/
def isFault (t : Nat) : Bool := t ≥ 2

/-- The word offsets that n bytes from an offset touch. -/
def wordsOf (off n : Nat) : List Nat := (List.range ((off + n + 3) / 4 - off / 4)).map fun i => (off / 4 + i) * 4

/-- Store bytes; a store of whole words clears their poison marks (R200). -/
def Spad.store (p : Spad) (off : Nat) (bs : List Byte) : Spad :=
  let p := { p with bytes := Mem.writeN p.bytes off bs }
  if bs.length ≥ 4 then (wordsOf off bs.length).foldl Spad.clearPoison p else p

/-- Zero bytes with EMPTY tags and clear marks, for the words from byte lo up to hi (R194, R296). -/
def Spad.clear (p : Spad) (lo n : Nat) : Spad :=
  { bytes := Mem.zero p.bytes lo n, marks := Mem.zero p.marks (lo / 4) (n / 4) }

/-! ## The physical address map (Table 11.1) -/

/-- What a physical address belongs to. -/
inductive Owner where
  | hbm (d : DieId) | remote | host | unassigned
  deriving DecidableEq, Repr

def ownerOf (pa : Nat) : Owner :=
  if pa < 0x8000000000 then .hbm .cd0
  else if pa < 0x10000000000 then .hbm .cd1
  else if pa < 0x4000000000000 then .unassigned
  else if pa < 0x8000000000000 then .remote
  else .host

def otherDie : DieId → DieId
  | .cd0 => .cd1 | .cd1 => .cd0
def dieNum : DieId → Nat
  | .cd0 => 0 | .cd1 => 1

/-- The 128-byte line of a physical address. -/
def lineOf (pa : Nat) : Nat := pa / 128

end Sys2Proof.Machine
end

