-- ==== Sys2Proof/Machine/Ops.lean ====
section
/-! DEFINITION. The named operations over the state: registers, lanes, gangs, flags, interrupts, the fault buffer, taking a
trap and returning from one (spec/01, spec/11 R330 to R344), and the frame in which an instruction of the focused gang acts. -/

namespace Sys2Proof.Machine

/-- The outcome of a step of this machine. -/
abbrev Res := Host.Outcome State Fault Refusal

/-! ## Dies, launches, teams and groups -/

def State.die (s : State) : DieId → Die
  | .cd0 => s.cd0
  | .cd1 => s.cd1

def State.modDie (s : State) (d : DieId) (f : Die → Die) : State :=
  match d with
  | .cd0 => { s with cd0 := f s.cd0 }
  | .cd1 => { s with cd1 := f s.cd1 }

def State.modCtl (s : State) (d : DieId) (f : CtlRegs → CtlRegs) : State :=
  s.modDie d fun x => { x with ctl := f x.ctl }

def State.group? (s : State) (id : Nat) : Option Group := s.groups.find? fun g => g.ident.id == id
def State.team? (s : State) (id : Nat) : Option Team := s.teams.find? fun t => t.id == id
def State.launch? (s : State) (id : Nat) : Option Launch := s.launches.find? fun l => l.id == id

def State.modGroup (s : State) (id : Nat) (f : Group → Group) : State :=
  { s with groups := s.groups.map fun g => if g.ident.id = id then f g else g }
def State.modTeam (s : State) (id : Nat) (f : Team → Team) : State :=
  { s with teams := s.teams.map fun t => if t.id = id then f t else t }
def State.modLaunch (s : State) (id : Nat) (f : Launch → Launch) : State :=
  { s with launches := s.launches.map fun l => if l.id = id then f l else l }

/-- The groups of a team, in index order. -/
def State.groupsOf (s : State) (team : Nat) : List Group := s.groups.filter fun g => g.ident.team == team

/-! ## Lanes, slices and gangs -/

/-- Lanes of a slice (R13). -/
def lanesOfSlice (j : Nat) : List Nat := [4 * j, 4 * j + 1, 4 * j + 2, 4 * j + 3]

/-- Lanes of a gang in increasing order. -/
def Gang.lanes (gg : Gang) : List Nat := gg.slices.flatMap lanesOfSlice
def Gang.mask (gg : Gang) : Word := maskOf gg.lanes

def liveBits : List Lane → Nat → Word
  | [], _ => 0
  | l :: ls, i => (if l.exited then 0 else wd (2 ^ i)) ||| liveBits ls (i + 1)

/-- Lanes that have not exited. -/
def Group.live (g : Group) : Word := liveBits g.lanes 0

/-- `em` as it reads: bits at and above the width and of exited lanes are zero (R30). -/
def Group.emRead (g : Group) : Word := g.em &&& g.live

/-- The active lanes of a gang (R43). -/
def Group.active (g : Group) (gg : Gang) : Word := g.emRead &&& gg.mask
def Group.activeLanes (g : Group) (gg : Gang) : List Nat := lanesOf g.ident.width (g.active gg)

def Group.gang? (g : Group) (id : Nat) : Option Gang := g.gangs.find? fun x => x.id == id
def Group.modGang (g : Group) (id : Nat) (f : Gang → Gang) : Group :=
  { g with gangs := g.gangs.map fun x => if x.id = id then f x else x }
def Group.modLane (g : Group) (l : Nat) (f : Lane → Lane) : Group := { g with lanes := modAt g.lanes l f }

def Lane.blank : Lane := ⟨[], [], 0, [], true, [], ⟨false, 0, false, .none, 0, 0, false, false, false, [], []⟩⟩
def Group.lane (g : Group) (l : Nat) : Lane := g.lanes.getD l .blank

/-- Whether slice j has a live lane. -/
def Group.sliceLive (g : Group) (j : Nat) : Bool := (lanesOfSlice j).any fun l => !(g.lane l).exited && l < g.ident.width
/-- The live slices of the group. -/
def Group.liveSlices (g : Group) : List Nat := (List.range (g.ident.width / 4)).filter g.sliceLive
/-- A group ends when all its lanes have exited (R43). -/
def Group.ended (g : Group) : Bool := g.live == 0

/-- The gang's slices are in handler mode (R340). -/
def Group.inHandler (g : Group) (gg : Gang) : Bool := g.handler.any fun h => gg.slices.all h.slices.contains

def roleCode : Role → Nat
  | .vector => 0 | .copy => 1 | .matrix => 2

/-! ## Register writes and outstanding results (R80, R81) -/

/-- Drop what an outstanding operation would still write to a word written now. -/
def Tgt.drop (hit : Tgt) : Tgt → Option Tgt
  | .sreg n m =>
    match hit with
    | .sreg n' m' => if n = n' then (if m &&& ~~~m' = 0 then none else some (.sreg n (m &&& ~~~m'))) else some (.sreg n m)
    | _ => some (.sreg n m)
  | t => if t = hit then none else some t

def dropWrites (hit : Tgt) (ws : List (Tgt × DWord)) : List (Tgt × DWord) :=
  ws.filterMap fun w => (hit.drop w.1).map fun t => (t, w.2)

/-- A later instruction has written a word: the operation writes it no more, now or with results that are still to come. -/
def PendOp.overwrite (hit : Tgt) (o : PendOp) : PendOp :=
  { o with writes := dropWrites hit o.writes, dead := if o.waiting = 0 || o.dead.contains hit then o.dead else hit :: o.dead }

def cancelOps (hit : Tgt) (ops : List PendOp) : List PendOp := ops.map (·.overwrite hit)

def Group.cancel (g : Group) (hit : Tgt) : Group :=
  if g.pend.isEmpty then g else { g with pend := cancelOps hit g.pend }

/-- Scalar register n; s63 is `em` (R30). -/
def Group.readS (g : Group) (n : Nat) : DWord := if n = 63 then zx64 g.emRead else g.s.getD n 0

/-- Put bits of a scalar register under a mask; `em` takes only bits of live lanes (R30). -/
def Group.putS (g : Group) (n : Nat) (m v : DWord) : Group :=
  if n = 63 then
    let k := lo32 m &&& g.live
    { g with em := (g.em &&& ~~~k) ||| (lo32 v &&& k) }
  else { g with s := modAt g.s n fun o => (o &&& ~~~m) ||| (v &&& m) }

/-- Write scalar register n by a gang: `em` in the gang's lanes alone (R30, R31). -/
def Group.writeS (g : Group) (gg : Gang) (n : Nat) (v : DWord) : Group :=
  let m : DWord := if n = 63 then zx64 gg.mask else BitVec.allOnes 64
  (g.cancel (.sreg n m)).putS n m v

/-- A mask written as `v.dchk` writes it (R123): the gang's bits, the other lanes' kept, zero at and above the width. -/
def Group.writeMask (g : Group) (gg : Gang) (n : Nat) (v : Word) : Group :=
  if n = 63 then g.writeS gg 63 (zx64 v)
  else
    let old := g.readS n
    let w := maskW g.ident.width
    let x := ((lo32 old &&& w) &&& ~~~gg.mask) ||| (v &&& gg.mask)
    g.writeS gg n (zx64 x)

def zeroGlove (k : Nat) : List Word := List.replicate (1 + k) 0

/-- Vector register word of a lane. -/
def Lane.vreg (l : Lane) (n : Nat) : Word := l.v.getD n 0
/-- Glove words of a register; +0.0 where it has none (R22). -/
def Lane.glove (l : Lane) (k n : Nat) : List Word := (l.gloves[n]?).getD (zeroGlove k)

/-- Put a register word of a lane, and its glove words where it has any. -/
def Lane.put (l : Lane) (n : Nat) (w : Word) (gl : List Word) : Lane :=
  { l with v := setAt l.v n w, gloves := setAt l.gloves n gl }

/-- Write a vector register of a lane with its glove (R22, R81, R111). -/
def Group.writeV (g : Group) (l n : Nat) (w : Word) (gl : List Word) : Group :=
  let g := g.cancel (.vreg l n)
  let g := if n < g.ident.dw then (List.range (1 + g.ident.k)).foldl (fun g i => g.cancel (.glove l n i)) g else g
  g.modLane l fun x => x.put n w gl

/-- Write one glove word of a lane's register. -/
def Group.writeGloveWord (g : Group) (l n i : Nat) (w : Word) : Group :=
  (g.cancel (.glove l n i)).modLane l fun x => { x with gloves := modAt x.gloves n fun gl => setAt gl i w }

/-- OR bits into FLAGS (R34). -/
def Group.raise (g : Group) (f : Word) : Group := { g with flags := g.flags ||| f }

/-- Deliver one write of a long-latency operation (R80). -/
def Group.deliver (g : Group) (t : Tgt) (v : DWord) : Group :=
  match t with
  | .vreg l n => g.modLane l fun x => { x with v := setAt x.v n (lo32 v) }
  | .glove l n i => g.modLane l fun x => { x with gloves := modAt x.gloves n fun gl => setAt gl i (lo32 v) }
  | .sreg n m => g.putS n m v

/-- Add a long-latency operation on the entry `e` (R79). -/
def Group.addPend (g : Group) (o : PendOp) : Group :=
  { g with pend := g.pend ++ [o], sb := modAt g.sb o.entry (· + 1) }

/-! ## Traps -/

/-- Table 11.7. -/
def Trap.code : Trap → Nat
  | .illegalOpcode => 0x01 | .illegalOperand => 0x02 | .classMismatch => 0x03 | .clauseFormat => 0x04
  | .regRange => 0x05 | .maskPartial => 0x06 | .misaligned => 0x07 | .pageFault => 0x08 | .protection => 0x09
  | .scaleLayout => 0x0A | .tagFault => 0x0B | .poison => 0x0C | .peerUnavailable => 0x0D | .modeConflict => 0x0E
  | .privilege => 0x0F | .software => 0x10 | .breakpoint => 0x11 | .crew => 0x12 | .keyOrder => 0x13
  | .partDepth => 0x14 | .launchReject => 0x15

/-- What an instruction raises: the code, the lanes that raised it, TRAP_ADDR and SWCODE. -/
structure Tq where
  code : Trap
  lanes : Word := 0
  addr : DWord := 0
  sw : Byte := 0
  deriving DecidableEq, Repr

/-- Checks in order: the first that fails decides (R337). -/
def need (b : Bool) (t : Trap) : Except Tq Unit := if b then .ok () else .error { code := t }

/-! ## Interrupts (R332) -/

/-- Vector of a status bit. -/
def intVector (bit : Nat) : Nat := match bit with | 2 => 1 | 3 => 2 | 4 => 3 | _ => 0

/-- Send a message: a masked vector keeps it pending. -/
def State.sendMsi (s : State) (d : DieId) (v : Nat) : State :=
  if (s.die d).masked.getD v false then s.modDie d fun x => { x with pendingMsg := setAt x.pendingMsg v true }
  else
    let m := (s.die d).msix.getD v (0, 0)
    { s with outs := s.outs ++ [.msix d v m.1 m.2] }

/-- An event sets its status bit; an enabled bit that changes from 0 to 1 sends its message. -/
def State.interrupt (s : State) (d : DieId) (bit : Nat) : State :=
  let c := (s.die d).ctl
  let old := c.intStatus.getLsbD bit
  let s := s.modCtl d fun c => { c with intStatus := c.intStatus ||| wd (2 ^ bit) }
  if !old && c.intEnable.getLsbD bit then s.sendMsi d (intVector bit) else s

/-! ## The fault buffer (R331, R333) -/

def FaultRec.same (a b : FaultRec) : Bool :=
  a.vpage == b.vpage && a.code == b.code && a.sub == b.sub && a.source == b.source

/-- Offer a fault to a die's buffer. An access that a replay makes again changes no entry that was there when the replay began (R334,
log 40). -/
def State.offerFault (s : State) (d : DieId) (r : FaultRec) (again : Bool := false) : State :=
  let x := s.die d
  if x.faults.any (·.same r) then
    let join (y : FaultRec) : FaultRec :=
      if y.same r && !(again && y.stale) then { y with count := satInc 65535 y.count, write := y.write || r.write } else y
    s.modDie d fun x => { x with faults := x.faults.map join }
  else if x.faults.length < 8 then
    let s := s.modDie d fun x => { x with faults := x.faults ++ [r] }
    if x.faults.isEmpty then s.interrupt d 0 else s
  else (s.modDie d fun x => { x with dropped := true }).interrupt d 1

/-- The 128 bits of an entry (Table 11.5). -/
def FaultRec.bits (r : FaultRec) : DWord × DWord :=
  (r.vpage ++ BitVec.ofNat 8 r.code ++ BitVec.ofNat 4 r.source ++ BitVec.ofNat 2 r.sub ++ BitVec.ofBool r.write ++ 1#1,
   r.launchId ++ BitVec.ofNat 8 r.lcore ++ BitVec.ofNat 2 r.level ++ 0#6 ++ BitVec.ofNat 16 r.count)

/-! ## The frame of an instruction -/

/-- What an instruction of the focused gang acts on. -/
structure Cx where
  s : State
  g : Group
  gg : Gang
  t : Team
  l : Launch

/-- A gang with its group, team and launch. -/
def State.cxOf (s : State) (gid k : Nat) : Option Cx :=
  match s.group? gid with
  | none => none
  | some g =>
    match g.gang? k, s.team? g.ident.team with
    | some gg, some t =>
      match s.launch? t.launch with
      | some l => some ⟨s, g, gg, t, l⟩
      | none => none
    | _, _ => none

/-- The focused gang with its group, team and launch. -/
def State.cx? (s : State) : Option Cx :=
  match s.focus with
  | none => none
  | some (gid, k) => s.cxOf gid k

/-- Words of the gang's clause from its pc on, and the instruction they begin with. -/
def Gang.restWords (gg : Gang) : List Word :=
  match gg.clause with
  | some c => c.words.drop ((gg.pc - c.addr).toNat / 4 - 1)
  | none => []
def Gang.instr? (gg : Gang) : Option Instr :=
  match decode gg.restWords with
  | .ok i _ => some i
  | .bad _ => none

/-- Act for the focused gang. -/
def issue (s : State) (f : Cx → Res) : Res :=
  match s.cx? with
  | none => .fault .noIssuingGang
  | some c => f c

/-- The gang is in a privileged context or in handler mode (R296, R341). -/
def Cx.priv (c : Cx) : Bool := c.l.priv || c.g.inHandler c.gg
/-- A scalar register may be named (R29, R341). -/
def Cx.sregOk (c : Cx) (n : Nat) : Bool := n == 63 || n < c.g.ident.sregs || c.g.inHandler c.gg
def Cx.active (c : Cx) : Word := c.g.active c.gg
def Cx.lanes (c : Cx) : List Nat := c.g.activeLanes c.gg
/-- A transaction context: handler accesses are never transactional (R341). -/
def Cx.handler (c : Cx) : Bool := c.g.inHandler c.gg
def Cx.die (c : Cx) : DieId := c.t.die

/-- Address of the first word of the instruction, its prefixes included (R340). -/
def Gang.firstWord (gg : Gang) : DWord := gg.pc - dw (4 * gg.pfx.length)
/-- Header of the clause being issued. -/
def Gang.hdrAddr (gg : Gang) : DWord := match gg.clause with | some c => c.addr | none => gg.pc

/-! ## Advancing -/

/-- A latch after an instruction of its clause (R85). -/
def Latch.tick (x : Latch) : Latch := if x.life = 4 then x else { x with life := x.life - 1 }
def Latch.close (x : Latch) : Latch := { x with life := 0 }

def Group.modLanes (g : Group) (ls : List Nat) (f : Lane → Lane) : Group := ls.foldl (fun g l => g.modLane l f) g

def Group.ageLatches (g : Group) (gg : Gang) : Group :=
  g.modLanes gg.lanes fun x => { x with latches := x.latches.map Latch.tick }
def Group.closeLatches (g : Group) (gg : Gang) : Group :=
  g.modLanes gg.lanes fun x => { x with latches := x.latches.map Latch.close }

/-- Whether n words from the gang's pc end its clause. -/
def Gang.atEnd (gg : Gang) (n : Nat) : Bool :=
  match gg.clause with
  | some c => gg.pc + dw (4 * n) == c.addr + dw (4 * (c.words.length + 1))
  | none => true

/-- The gang after an instruction of n words. -/
def Gang.advance (gg : Gang) (n : Nat) : Gang :=
  let e := gg.atEnd n
  { gg with
    pc := gg.pc + dw (4 * n), pfx := [], park := none, op := none
    clause := if e then none else gg.clause
    begun := gg.begun && !e
    prev := if e then some gg.hdrAddr else none, parked := [], parkedOrder := 0
    afresh := false }

/-- The group after an instruction of n words of the gang (R76, R85). -/
def Group.advance (g : Group) (gg : Gang) (n : Nat) : Group :=
  let g := if gg.atEnd n then g.closeLatches gg else g.ageLatches gg
  g.modGang gg.id fun x => x.advance n

/-- A gang that starts at an address. -/
def Gang.start (id : Nat) (slices : List Nat) (pc : DWord) (fmt : Word) : Gang where
  id := id
  slices := slices
  pc := pc
  fmt := fmt
  clause := none
  begun := false
  pfx := []
  park := none
  split := none
  op := none
  prev := none
  poison := []
  parked := []
  parkedOrder := 0
  afresh := false
  age := 1
  bypassed := 0

/-- The gang after a transfer to an address. -/
def Gang.goto (gg : Gang) (pc : DWord) : Gang :=
  { gg with
    pc := pc, pfx := [], park := none, op := none, clause := none, begun := false, prev := none
    parked := [], parkedOrder := 0
    afresh := false }

def Group.goto (g : Group) (gg : Gang) (pc : DWord) : Group := (g.closeLatches gg).modGang gg.id fun x => x.goto pc

/-- The gang after an instruction of n words in which it was parked: inside its clause it waits for the issue slot. -/
def Gang.released (gg : Gang) (n : Nat) : Gang :=
  { gg.advance n with park := if gg.atEnd n then none else some .resume }

/-- The group after an instruction of n words in which the gang was parked. -/
def Group.release (g : Group) (gg : Gang) (n : Nat) : Group :=
  (g.advance gg n).modGang gg.id fun x => { x with park := (gg.released n).park }

/-- The gang parked at its instruction. -/
def Group.parkGang (g : Group) (gg : Gang) (p : Park) : Group := g.modGang gg.id fun x => { x with park := some p }

/-- Put a group back. -/
def State.putGroup (s : State) (g : Group) : State := s.modGroup g.ident.id fun _ => g

/-- The instruction of n words has taken effect with the group `g`. -/
def Cx.done (c : Cx) (n : Nat) (g : Group) : Res := .next (c.s.putGroup (g.advance c.gg n))
/-- The gang parks at the instruction. -/
def Cx.park (c : Cx) (p : Park) : Res := .next (c.s.modGroup c.g.ident.id fun g => g.parkGang c.gg p)

/-! ## Taking a trap (R340, R341, R343, R344) -/

/-- Double trap: the group is held with its trap registers as they stand. -/
def State.doubleTrap (s : State) (gid : Nat) (gg : Gang) (hdr : DWord) : State :=
  match s.group? gid with
  | none => s
  | some g =>
    match s.team? g.ident.team with
    | none => s
    | some t =>
      let l := s.launch? t.launch
      let h : Handler := match g.handler with
        | some h => { h with double := true }
        | none => ⟨gg.slices, hdr, none, true⟩
      let s := s.modGroup gid fun g => { g with handler := some h }
      let s := s.modCtl t.die fun c =>
        if c.doubleTrap = 0 then
          { c with doubleTrap := pair64 (wd t.teamId) ((l.map (·.launchId)).getD 0) }
        else c
      s.interrupt t.die 2

/-- Bits [63:32] LANES, [23:16] SLICES, [15:8] SWCODE, [7:0] CODE. -/
def trapCause (i : TrapInfo) (slices : List Nat) : DWord :=
  i.lanes ++ 0#8 ++ BitVec.ofNat 8 (maskOf slices).toNat ++ i.sw ++ BitVec.ofNat 8 i.code.code

/-- Handler entry of a gang (R340, steps 2 and 3). -/
def Group.enterHandler (g : Group) (gg : Gang) (vec : DWord) (i : TrapInfo) : Group :=
  let g := { g with
    trap := { g.trap with
      cause := trapCause i gg.slices, resume := i.resume, pc := i.pc, addr := i.addr
      state := pair64 gg.fmt g.emRead }
    handler := some ⟨gg.slices, i.hdr, gg.split, false⟩
    -- an instruction that is to issue again takes back its part in an outstanding result
    pend := g.pend.map fun (o : PendOp) => if gg.op = some o.id then { o with waiting := o.waiting - 1 } else o }
  let g := { g with em := g.em ||| (gg.mask &&& g.live) }
  (g.goto gg vec).modGang gg.id fun x => { x with fmt := 0, split := none }

/-- A trap of a gang whose turn it is: entry, or a double trap. -/
def State.enterTrap (s : State) (gid : Nat) (gg : Gang) (i : TrapInfo) : State :=
  match s.group? gid with
  | none => s
  | some g =>
    match s.team? g.ident.team with
    | none => s
    | some t =>
      let vec := (s.die t.die).ctl.trapVector
      if vec = 0 || g.inHandler gg then s.doubleTrap gid gg i.hdr
      else s.modGroup gid fun g => g.enterHandler gg vec i

/-- A trap of a gang: its turn, or the wait for the entries of other gangs that come before it to end. -/
def State.takeTrap (s : State) (gid : Nat) (gg : Gang) (i : TrapInfo) : State :=
  match s.group? gid with
  | none => s
  | some g =>
    match s.team? g.ident.team with
    | none => s
    | some t =>
      if (s.die t.die).ctl.trapVector ≠ 0 && !g.inHandler gg && (g.handler.isSome || !g.held.isEmpty) then
        s.modGroup gid fun g => { g.parkGang gg .held with held := g.held ++ [(gg.id, i)] }
      else s.enterTrap gid gg i

/-- A trap raised at the instruction: TRAP_PC and TRAP_RESUME name its first word, prefixes included (R340). -/
def Cx.trap (c : Cx) (q : Tq) : Res :=
  let a := c.gg.firstWord
  .next (c.s.takeTrap c.g.ident.id c.gg ⟨q.code, q.lanes, q.sw, a, q.addr, a, c.gg.hdrAddr⟩)

/-- A software trap or breakpoint: the resume point is the word after the instruction (R151). -/
def Cx.trapAfter (c : Cx) (q : Tq) : Res :=
  .next (c.s.takeTrap c.g.ident.id c.gg ⟨q.code, q.lanes, q.sw, c.gg.pc, q.addr, c.gg.pc + 4, c.gg.hdrAddr⟩)

/-- Return from the handler (R342): every slice in handler mode leaves it (log 27). FMT and their `em` bits come from
TRAP_STATE, and they go on at `pc`, inside the clause `cl` where that is given, in the split set they had. Slices that the
handler parted stay apart (R16, R17). -/
def Group.leaveHandler (g : Group) (h : Handler) (pc : DWord) (cl : Option Clause) : Group :=
  let mine (x : Gang) : Bool := x.slices.all h.slices.contains
  let out := g.gangs.filter mine
  let ops := out.filterMap (·.op)
  let em := hi32 g.trap.state
  let k := maskOf (h.slices.flatMap lanesOfSlice) &&& g.live
  let g := out.foldl Group.closeLatches g
  let back (x : Gang) : Gang := { x.goto pc with fmt := lo32 g.trap.state, clause := cl, split := h.split }
  -- the restored bits are a later write of `em` (R81)
  let g := g.cancel (.sreg 63 (zx64 k))
  { g with
    em := (g.em &&& ~~~k) ||| (em &&& k), handler := none
    gangs := g.gangs.map fun x => if mine x then back x else x
    pend := g.pend.map fun o => { o with waiting := o.waiting - ops.count o.id } }

/-! ## Instructions that touch the group alone -/

/-- An instruction of n words whose effect lies in its group: a trap, or the group after it. -/
def local1 (n : Nat) (s : State) (f : Cx → Except Tq Group) : Res :=
  issue s fun c =>
    match f c with
    | .error q => c.trap q
    | .ok g => c.done n g

/-- Words of a scalar instruction. -/
def sLen (f : SForm) : Nat := match f.op with | .reg .. | .imm10 _ => 1 | .imm32 .. => 2 | .imm64 .. => 3
/-- Words of a vector instruction. -/
def vLen (f : VForm) : Nat := 1 + (if f.e.isSome then 1 else 0) + (if f.imm.isSome then 1 else 0)

/-- Set the side-effect bit of a team, and of every member of its cluster set (R312). -/
def State.markSide (s : State) (t : Team) : State :=
  { s with teams := s.teams.map fun x => if x.id = t.id || t.set.contains x.id then { x with sideEffect := true } else x }

/-- A fresh number. -/
def State.fresh (s : State) : Nat × State := (s.nextId, { s with nextId := s.nextId + 1 })

end Sys2Proof.Machine
end

