-- ==== Sys2Proof/Machine/Operands.lean ====
section
/-! DEFINITION. Operand forms: the second operand of format S (R87, R127), the sources, holds and destinations of formats A
and E (R82 to R85, R163), draw words and the generator (R20, R58, R67, R125), prefixes and effective modes (R102, R124 to
R126), and the fields of FMT (Table 1.1). -/

namespace Sys2Proof.Machine

/-! ## FMT (Table 1.1) -/

def fmtNfa (f : Word) : Nat := (fld f 0 4).toNat
def fmtNfb (f : Word) : Nat := (fld f 4 4).toNat
def fmtHt (f : Word) : Bool := f.getLsbD 8
def fmtRm (f : Word) : Nat := (fld f 9 3).toNat
def fmtDm (f : Word) : Nat := (fld f 12 2).toNat
def fmtSo (f : Word) : Bool := f.getLsbD 14
def fmtSat (f : Word) : Bool := f.getLsbD 15
def fmtDk (f : Word) : Nat := (fld f 16 2).toNat
def fmtIdl (f : Word) : Bool := f.getLsbD 18
def fmtUte (f : Word) : Nat := (fld f 24 8).toNat

/-- `Count` of a DK code (R102). -/
def dkCount (c : Nat) : Nat := match c with | 0 => 0 | 1 => 1 | 2 => 2 | _ => 4

/-- The checks of R27 on a whole value, against the component count K. -/
def fmtCheck (k : Nat) (f : Word) : Option Trap :=
  if fmtNfa f > 8 ∨ fmtNfb f > 8 ∨ fmtRm f > 4 ∨ fmtDm f = 3 ∨ fld f 19 5 ≠ 0 then some .illegalOperand
  else if fmtDm f = 2 ∧ (fmtIdl f ∨ fmtDk f ≠ 0) then some .modeConflict
  else if dkCount (fmtDk f) > k then some .illegalOperand
  else none

/-! ## Format S -/

end Sys2Proof.Machine

namespace Sys2Proof

/-- Second operand (R127). -/
def SOp.value (g : Machine.Group) : SOp → DWord
  | .reg sb _ => g.readS sb.toNat
  | .imm10 v => Machine.sx64 v
  | .imm32 _ _ w => Machine.sx64 w
  | .imm64 _ _ lo hi => Machine.pair64 lo hi

def SOp.regs : SOp → List Nat
  | .reg sb _ => [sb.toNat]
  | _ => []

end Sys2Proof

namespace Sys2Proof.Machine

/-- Registers a scalar instruction names: each must be addressable (R29, R87). -/
def Cx.sregsOk (c : Cx) (rs : List Nat) : Bool := rs.all c.sregOk

/-! ## Latches (R32, R85) -/

/-- A latch of a lane as it reads: an undefined value outside its window. -/
def Lane.latch (x : Lane) (tick lane n : Nat) : Word :=
  match x.latches[n]? with
  | some t => if t.life = 0 then Config.freeWord tick (1000 + 3 * lane + n) else t.val
  | none => Config.freeWord tick (1000 + 3 * lane + n)

def Lane.setLatch (x : Lane) (n : Nat) (v : Word) (life : Nat) : Lane :=
  { x with latches := setAt x.latches n ⟨v, life⟩ }

/-! ## Sources of formats A and E -/

/-- A 32-bit source of a lane (Table 3.3, R84). -/
def Cx.src (c : Cx) (f : VForm) (code lane : Nat) : Word :=
  if code < 120 then (c.g.lane lane).vreg code
  else if code < 123 then (c.g.lane lane).latch c.s.tick lane (code - 120)
  else if code = 124 then lo32 (c.g.readS f.sreg)
  else if code = 125 then f.imm.getD 0
  else 0

/-- A binary32 value widened exactly to binary64; a NaN keeps its sign and its fraction, and so stays signalling (R84). -/
def widen64 (w : Word) : DWord :=
  if (f32 w).isNan then w.extractLsb' 31 1 ++ 0x7FF#11 ++ w.extractLsb' 0 23 ++ 0#29
  else dw (Fmt.f64.roundTo .rne false 0 (f32 w)).bits

/-- A 64-bit source: a register pair, all of a scalar, or a widened immediate (R84); `fp` selects binary64. -/
def Cx.src64 (c : Cx) (f : VForm) (fp : Bool) (code lane : Nat) : DWord :=
  if code < 120 then pair64 ((c.g.lane lane).vreg code) ((c.g.lane lane).vreg (code + 1))
  else if code = 124 then c.g.readS f.sreg
  else if code = 125 then
    let w := f.imm.getD 0
    if fp then widen64 w else sx64 w
  else 0

/-- Glove words of a source: only a register below DW has any (R22, R82). -/
def Cx.srcGlove (c : Cx) (code lane : Nat) : List Word :=
  if code < c.g.ident.dw then (c.g.lane lane).glove c.g.ident.k code else zeroGlove c.g.ident.k

/-! ## Register ranges (rank 4) -/

/-- A vector operand code names an addressable register, or no register (R19, R84). -/
def Cx.vregOk (c : Cx) (pair : Bool) (code : Nat) : Bool :=
  code ≥ 120 || code + (if pair then 1 else 0) < c.g.ident.nr

/-! ## Prefixes -/

def Pfx.isDual : Pfx → Bool | .dual _ => true | _ => false
def Pfx.isMom : Pfx → Bool | .mom _ => true | _ => false
def Pfx.isPt : Pfx → Bool | .pt _ => true | _ => false
def Pfx.isSr : Pfx → Bool | .sr _ => true | _ => false

def dualOf (ps : List Pfx) : Option PForm := ps.findSome? fun p => match p with | .dual x => some x | _ => none
def momOf (ps : List Pfx) : Option PForm := ps.findSome? fun p => match p with | .mom x => some x | _ => none
def srOf (ps : List Pfx) : Option PForm := ps.findSome? fun p => match p with | .sr x => some x | _ => none

def Pfx.fieldsOk : Pfx → Bool
  | .dual p => pfxDualOk p
  | .mom p => pfxMomOk p
  | .pt p => pfxPtOk p
  | .sr p => pfxSrOk p

/-- Effective distribution mode, second-order switch and dual count (R102). -/
structure Modes where
  dm : Nat
  so : Bool
  dc : Nat
  deriving DecidableEq, Repr

def effModes (fmt : Word) (ps : List Pfx) : Modes :=
  if ps.any Pfx.isPt then ⟨0, false, 0⟩
  else
    let (dm, so) := match momOf ps with
      | some p => (p.pmod.toNat % 4, p.pmod.getLsbD 2)
      | none => (fmtDm fmt, fmtSo fmt)
    let dc := match dualOf ps with
      | some p => if p.pmod.toNat = 0 then dkCount (fmtDk fmt) else dkCount p.pmod.toNat
      | none => if fmtIdl fmt then dkCount (fmtDk fmt) else 0
    ⟨dm, so, dc⟩

/-- The rank-3 checks of prefixes before a vector instruction (Tables 4.5 and 4.6, R125). -/
def pfxOk (sp : VSpec) (k : Nat) (fmt : Word) (ps : List Pfx) (rnd draws : Nat) : Bool :=
  ps.all Pfx.fieldsOk &&
  (match dualOf ps with
   | some p =>
     sp.mom && !ps.any Pfx.isPt && !((momOf ps).any fun m => m.pmod.toNat % 4 == 2) &&
     (if p.pmod.toNat = 0 then fmtDk fmt != 0 && dkCount (fmtDk fmt) ≤ k else dkCount p.pmod.toNat ≤ k)
   | none => true) &&
  (!ps.any Pfx.isMom || (sp.mom && !ps.any Pfx.isPt)) &&
  (!ps.any Pfx.isPt || sp.pt) &&
  (match srOf ps with
   | some p => draws > 0 && (rnd == 0 || rnd == 5) && (p.opr.toNat < 120 || draws ≤ 1)
   | none => true)

/-- A register OPR + j at or above NR (R125). -/
def pfxRange (nr : Nat) (ps : List Pfx) (draws : Nat) : Bool :=
  match srOf ps with
  | some p => p.opr.toNat ≥ 120 || p.opr.toNat + draws ≤ nr
  | none => true

/-! ## The checks of a vector instruction, ranks 3 to 5 -/

/-- Ranks 3, 4 and 5 for a vector instruction under a specification; `extra` are its own rank-3 checks. -/
def Cx.vCheck (c : Cx) (sp : VSpec) (f : VForm) (extra : Bool := true) : Except Tq Unit := do
  let ht := fmtHt c.gg.fmt
  let t := sp.type ht f
  let s := f.sel
  let draws := sp.drawsAt t s c.g.ident.width
  need (vOk sp ht f && extra && pfxOk sp c.g.ident.k c.gg.fmt c.gg.pfx f.rnd draws) .illegalOperand
  let pr := pairType t
  let srcs := (if sp.a then [f.a.toNat] else []) ++ (if sp.b t s then [f.b.toNat] else []) ++
    (if sp.c == .source then [f.c] else [])
  need (c.vregOk (sp.pairD t s) f.d.toNat && srcs.all (c.vregOk pr) &&
    (sp.c != .aux || f.c < c.g.ident.nr) &&
    (!(sp.sreg s || srcs.contains 124) || c.sregOk f.sreg) &&
    pfxRange c.g.ident.nr c.gg.pfx draws) .regRange
  let m := effModes c.gg.fmt c.gg.pfx
  need (!(sp.mom && m.dm == 2 && m.dc > 0)) .modeConflict

/-! ## Destinations -/

/-- The gang has an active lane (Table 1.9). -/
def Cx.anyActive (c : Cx) : Bool := c.active != 0

/-- Copy a source into a latch in the active lanes (R85). For `v.shfl` and `v.shflx` the word held of source a is the lane's own word of
a, not the one read from another lane (log 37). -/
def Cx.hold (c : Cx) (f : VForm) (g : Group) : Group :=
  let h := f.hold.toNat
  if h = 0 then g
  else
    let code := if h < 4 then f.a.toNat else f.b.toNat
    let n := (h - 1) % 4
    c.lanes.foldl (fun g l => g.modLane l fun x => x.setLatch n (c.src f code l) 3) g

/-- Write a 32-bit result of a lane: a register with its glove, a latch, or nothing (Table 3.3). -/
def Group.putD (g : Group) (d lane : Nat) (w : Word) (gl : List Word) : Group :=
  if d < 120 then g.writeV lane d w gl
  else if d < 123 then g.modLane lane fun x => x.setLatch (d - 120) w 4
  else g

/-- Write a pair result of a lane: the glove goes to the lower register, the upper one receives +0.0 (R108). -/
def Group.putD64 (g : Group) (d lane : Nat) (w : DWord) (gl : List Word) : Group :=
  (g.writeV lane d (lo32 w) gl).writeV lane (d + 1) (hi32 w) (zeroGlove g.ident.k)

/-! ## Draw words (R20, R58, R67, R125) -/

/-- One round of Philox-4×32. -/
def philoxRound (c : Nat × Nat × Nat × Nat) (k0 k1 : Nat) : Nat × Nat × Nat × Nat :=
  let p0 := 0xD2511F53 * c.1
  let p1 := 0xCD9E8D57 * c.2.2.1
  ((p1 / 2 ^ 32) ^^^ c.2.1 ^^^ k0, p1 % 2 ^ 32, (p0 / 2 ^ 32) ^^^ c.2.2.2 ^^^ k1, p0 % 2 ^ 32)

def philoxGo : Nat → Nat × Nat × Nat × Nat → Nat → Nat → Nat × Nat × Nat × Nat
  | 0, c, _, _ => c
  | n + 1, c, k0, k1 =>
    philoxGo n (philoxRound c k0 k1) ((k0 + 0x9E3779B9) % 2 ^ 32) ((k1 + 0xBB67AE85) % 2 ^ 32)

/-- Ten rounds; the key rises before every round but the first. -/
def philox (c : Nat × Nat × Nat × Nat) (k0 k1 : Nat) : Nat × Nat × Nat × Nat := philoxGo 10 c k0 k1

/-- Word number n of a lane's sequence (R67). -/
def drawWordAt (seedLo seedHi : Word) (gidx lane : Nat) (teamId : Nat) (launchId n : Word) : Word :=
  let o := philox (n.toNat / 4, gidx * 32 + lane, teamId, launchId.toNat) seedLo.toNat seedHi.toNat
  wd (match n.toNat % 4 with | 0 => o.1 | 1 => o.2.1 | 2 => o.2.2.1 | _ => o.2.2.2)

/-- `DrawWord(l)`: the word and the group with the lane's counter advanced. -/
def Cx.drawWord (c : Cx) (g : Group) (lane : Nat) : Word × Group :=
  let n := (g.lane lane).draw
  (drawWordAt c.l.seedLo c.l.seedHi g.ident.idx lane c.t.teamId c.l.launchId n,
   g.modLane lane fun x => { x with draw := x.draw + 1 })

/-- The j-th draw of a lane in this instruction: explicit under `pfx.sr`, otherwise `DrawWord` (R58, R125). -/
def Cx.drawFor (c : Cx) (g : Group) (lane j : Nat) : Word × Group :=
  match srOf c.gg.pfx with
  | some p =>
    let r := p.opr.toNat
    (if r < 120 then (c.g.lane lane).vreg (r + j) else (c.g.lane lane).latch c.s.tick lane (r - 120), g)
  | none => c.drawWord g lane

/-- A draw where the mode is SR; other modes take none. -/
def Cx.drawIf (c : Cx) (rm : Rm) (g : Group) (lane j : Nat) : Nat × Group :=
  match rm with
  | .sr => let (w, g) := c.drawFor g lane j; (w.toNat / 256, g)
  | _ => (0, g)

/-- The rounding mode of an instruction (Table 3.4, R125). -/
def Cx.rm (c : Cx) (rnd : Nat) : Rm :=
  if c.gg.pfx.any Pfx.isSr then .sr
  else if rnd = 0 then Rm.ofCode (fmtRm c.gg.fmt) else Rm.ofCode (rnd - 1)

/-- The effective SAT (R162). -/
def Cx.satOf (c : Cx) (f : VForm) : Bool := fmtSat c.gg.fmt || f.sat

end Sys2Proof.Machine
end

