-- ==== Sys2Proof/Machine/Flags.lean ====
section
/-! DEFINITION. Conditions and flag computations: the conditions of compares and branches (R130, R137, R138, R170, R180),
the widening of UNCERT (R103, Table 1.3), and the layout of the status words that software reads (Tables 1.4 to 1.7). The
flag bits themselves stand in Machine/Formats.lean. -/

namespace Sys2Proof.Machine

/-- The condition FUNC of `s.cmp` on two doublewords (R130). -/
def sCond (func : Nat) (a b : DWord) : Bool :=
  match func with
  | 0 => a == b
  | 1 => a != b
  | 2 => a.slt b
  | 3 => !(a.slt b)
  | 4 => a.ult b
  | 5 => !(a.ult b)
  | 6 => !(b.slt a)
  | 7 => b.slt a
  | 8 => !(b.ult a)
  | 9 => b.ult a
  | 10 => a &&& b != 0
  | _ => a &&& b == 0

/-- The condition COND of `brc` (R137). -/
def brcCond (cond : Nat) (v : DWord) : Bool :=
  match cond with
  | 0 => v == 0
  | 1 => v != 0
  | 2 => v.slt 0
  | 3 => !(v.slt 0)
  | 4 => (0 : DWord).slt v
  | 5 => !((0 : DWord).slt v)
  | 6 => v.getLsbD 0
  | _ => !v.getLsbD 0

/-- The condition COND of `brm` on the active and the live lanes of a gang (R138). -/
def brmCond (cond : Nat) (active live : Word) : Bool :=
  match cond with
  | 0 => active == 0
  | 1 => active != 0
  | 2 => active == live
  | _ => active != live

/-- TXSTATUS (Table 1.6). -/
def GroupTx.status (t : GroupTx) (cause : Nat) : Word :=
  t.xcode ++ 0#6 ++ BitVec.ofBool t.lockQueued ++ BitVec.ofBool t.lockHeld ++ BitVec.ofNat 8 t.conflicts ++
    BitVec.ofNat 4 cause ++ 0#1 ++ BitVec.ofNat 3 t.depth

/-- Codes of the abort causes (Table 7.6). -/
def TxCause.code : TxCause → Nat
  | .none => 0 | .conflict => 1 | .readLog => 2 | .writeLog => 3 | .explicit => 4 | .fault => 5 | .memError => 6
  | .forbidden => 7 | .serialPreempted => 8

/-- KEYROUND (Table 1.7). -/
def keyRoundWord (held : Bool) (round : Nat) : DWord := BitVec.ofBool held ++ 0#31 ++ BitVec.ofNat 32 round

end Sys2Proof.Machine
end

