-- ==== Sys2Proof/Machine/Glove.lean ====
section
/-! DEFINITION. Exact results of the floating-point operations with their special cases (Tables 2.5, 6.3), their partial
derivatives (Table 4.3), and the propagation rule of gloves (spec/04 R102 to R110). -/

namespace Sys2Proof.Machine

/-! ## Exact results -/

/-- An exact result and the flags that its special cases set. -/
structure FR where
  v : FV
  fl : Word := 0
  deriving DecidableEq, Repr

def FR.invalid : FR := ⟨.nan false, fInvalid⟩

/-- The NaN that NaN operands give (R48). -/
def FR.nanOf (xs : List FV) : FR := ⟨.nan (xs.any FV.isSig), 0⟩

/-- Sign of an exactly zero sum (R176): the common sign, or + except under RD. -/
def zeroSign (rm : Rm) (xs : List FV) : Bool :=
  if xs.all (fun x => x.isZero && x.sign) then true
  else if xs.all (fun x => x.isZero && !x.sign) then false
  else rm = .rd

/-- Exact sum. A NaN among the terms gives NaN, and infinities of both signs beside it set no INVALID (log 42). -/
def sumFV (rm : Rm) (xs : List FV) : FR :=
  if xs.any FV.isNan then .nanOf xs
  else if xs.any (fun x => x.isInf && x.sign) && xs.any (fun x => x.isInf && !x.sign) then .invalid
  else match xs.find? FV.isInf with
    | some x => ⟨x, 0⟩
    | none => ⟨FV.ofRE (zeroSign rm xs) (RE.sum (xs.map FV.real)), 0⟩

/-- Magnitude of a finite value. -/
def FV.magRE : FV → RE
  | .fin _ m => m
  | _ => .zero

/-- Exact product. -/
def mulFV (a b : FV) : FR :=
  let s := a.sign != b.sign
  if (a.isInf && b.isZero) || (a.isZero && b.isInf) then .invalid
  else if a.isNan || b.isNan then .nanOf [a, b]
  else if a.isInf || b.isInf then ⟨.inf s, 0⟩
  else ⟨.fin s (a.magRE.times b.magRE), 0⟩

/-- Exact a × b + c. -/
def fmaFV (rm : Rm) (a b c : FV) : FR :=
  let p := mulFV a b
  if p.v.isNan || c.isNan then ⟨.nan (a.isSig || b.isSig || c.isSig), p.fl⟩ else sumFV rm [p.v, c]

def divFV (a b : FV) : FR :=
  let s := a.sign != b.sign
  if a.isNan || b.isNan then .nanOf [a, b]
  else if (a.isInf && b.isInf) || (a.isZero && b.isZero) then .invalid
  else if a.isInf then ⟨.inf s, 0⟩
  else if b.isInf then ⟨.fin s .zero, 0⟩
  else if b.isZero then ⟨.inf s, fDivZero⟩
  else ⟨.fin s (a.magRE.times b.magRE.recip), 0⟩

/-- A function of one operand on finite nonzero values, with its result at a zero and at an infinity; a NaN operand gives NaN. -/
def oneFV (a : FV) (zero inf : Bool → FR) (fin : Q → FR) : FR :=
  match a with
  | .nan _ => .nanOf [a]
  | .inf s => inf s
  | .fin s m => if m.isZero then zero s else fin (let q := m.rat?.getD .zero; if s then q.neg else q)

def sqrtFV (a : FV) : FR :=
  oneFV a (fun s => ⟨.fin s .zero, 0⟩) (fun s => if s then .invalid else ⟨.inf false, 0⟩)
    fun q => if q.n < 0 then .invalid else ⟨.fin false (.mkSqrt q), 0⟩
def rsqFV (a : FV) : FR :=
  oneFV a (fun s => ⟨.inf s, fDivZero⟩) (fun s => if s then .invalid else ⟨.fin false .zero, 0⟩)
    fun q => if q.n < 0 then .invalid else ⟨.fin false (RE.mkSqrt q.inv), 0⟩
def rcpFV (a : FV) : FR := divFV (.fin false .one) a
def exp2FV (a : FV) : FR :=
  oneFV a (fun _ => ⟨.fin false .one, 0⟩) (fun s => ⟨if s then .fin false .zero else .inf false, 0⟩)
    fun q => ⟨.fin false (.mkExp2 q), 0⟩
def log2FV (a : FV) : FR :=
  oneFV a (fun _ => ⟨.inf true, fDivZero⟩) (fun s => if s then .invalid else ⟨.inf false, 0⟩)
    fun q => if q.n < 0 then .invalid else ⟨FV.ofRE false (.mkLog2 q), 0⟩
def sinpiFV (a : FV) : FR :=
  oneFV a (fun s => ⟨.fin s .zero, 0⟩) (fun _ => .invalid) fun q => ⟨FV.ofRE (q.n < 0) (.mkSinPi q), 0⟩
def cospiFV (a : FV) : FR :=
  oneFV a (fun _ => ⟨.fin false .one, 0⟩) (fun _ => .invalid) fun q => ⟨FV.ofRE false (.mkCosPi q), 0⟩
def tanhFV (a : FV) : FR :=
  oneFV a (fun s => ⟨.fin s .zero, 0⟩) (fun s => ⟨.fin s .one, 0⟩) fun q => ⟨FV.ofRE false (.mkTanh q), 0⟩

/-! ## Partial derivatives (Table 4.3); none where infinite or undefined -/

abbrev Part := Option RE

/-- First partials, and the nonzero second derivatives by pair of sources. -/
structure Parts where
  g : List Part
  sec : List ((Nat × Nat) × Part) := []
  deriving DecidableEq, Repr

def zeroP : Part := some .zero
def oneP : Part := some .one
/-- A source's value as a partial. -/
def finP (x : FV) : Part := if x.isFin then some x.real else none
def half : RE := .rat ⟨1, 2⟩
def re (i : Int) : RE := .ofInt i

/-- Partials of a function of one operand: at a positive or any nonzero finite value, and at an infinity where the limit is
zero (log 18). -/
def partsDiv (a b : FV) : Parts :=
  if b.isInf then ⟨[zeroP, if a.isFin then zeroP else none], []⟩
  else if !b.isFin || b.isZero then ⟨[none, none], [((0, 1), none), ((1, 1), none)]⟩
  else
    let ib := b.real.recip
    let ib2 := ib.sq
    if !a.isFin then ⟨[some ib, none], [((0, 1), some ib2.minus), ((1, 1), none)]⟩
    else
      ⟨[some ib, some (a.real.times ib2).minus],
       [((0, 1), some ib2.minus), ((1, 1), some ((re 2).times (a.real.times (ib2.times ib))))]⟩

def parts1 (g f : Part) : Parts := ⟨[g], [((0, 0), f)]⟩
def FV.pos (a : FV) : Bool := a.isFin && !a.isZero && !a.sign
def FV.pinf (a : FV) : Bool := a.isInf && !a.sign

def partsSqrt (a : FV) : Parts :=
  if a.pinf then parts1 zeroP zeroP
  else if !a.pos then parts1 none none
  else
    let s := RE.mkSqrt a.q
    parts1 (some (half.times s.recip)) (some ((RE.rat ⟨-1, 4⟩).times (a.real.times s).recip))
def partsRsq (a : FV) : Parts :=
  if a.pinf then parts1 zeroP zeroP
  else if !a.pos then parts1 none none
  else
    let i := (a.real.times (RE.mkSqrt a.q)).recip
    parts1 (some ((RE.rat ⟨-1, 2⟩).times i)) (some ((RE.rat ⟨3, 4⟩).times (i.times a.real.recip)))
def partsRcp (a : FV) : Parts :=
  if a.isInf then parts1 zeroP zeroP
  else if !a.isFin || a.isZero then parts1 none none
  else
    let i := a.real.recip
    parts1 (some i.sq.minus) (some ((re 2).times (i.sq.times i)))
def partsExp2 (a : FV) : Parts :=
  if a.isInf && a.sign then parts1 zeroP zeroP
  else if !a.isFin then parts1 none none
  else
    let g := (RE.mkExp2 a.q).times .ln2
    parts1 (some g) (some (g.times .ln2))
def partsLog2 (a : FV) : Parts :=
  if a.pinf then parts1 zeroP zeroP
  else if !a.pos then parts1 none none
  else
    let i := (a.real.times .ln2).recip
    parts1 (some i) (some (i.times a.real.recip).minus)
def partsSin (a : FV) : Parts :=
  if !a.isFin then parts1 none none
  else parts1 (some (RE.pi.times (.mkCosPi a.q))) (some ((RE.pi.sq.times (.mkSinPi a.q)).minus))
def partsCos (a : FV) : Parts :=
  if !a.isFin then parts1 none none
  else parts1 (some (RE.pi.times (.mkSinPi a.q)).minus) (some ((RE.pi.sq.times (.mkCosPi a.q)).minus))
def partsTanh (a : FV) : Parts :=
  if a.isInf then parts1 zeroP zeroP
  else if !a.isFin then parts1 none none
  else
    let t := RE.mkTanh a.q
    let u := RE.one.sub t.sq
    parts1 (some u) (some ((re (-2)).times (t.times u)))
def partsMul (a b : FV) : Parts := ⟨[finP b, finP a], [((0, 1), oneP)]⟩

/-! ## The propagation rule (R104 to R106) -/

/-- A glove word that is not a zero (R106). -/
def nzW (w : Word) : Bool := w &&& 0x7FFFFFFF != 0

/-- The value of a variance word; a NaN counts as +∞. -/
def varW (w : Word) : VV :=
  match f32 w with
  | .fin _ m => .re m
  | _ => .inf

/-- Σ g² · word0, with a term of a zero word or a zero partial dropped; none where Table 4.2 gives +∞. -/
def sumVar (gs : List Part) (ws : List Word) : Option VV :=
  (gs.zip ws).foldl (fun acc gw =>
    match acc with
    | none => none
    | some v =>
      if !nzW gw.2 then some v
      else match gw.1 with
        | none => none
        | some g => if g.isZero then some v else some (v.add ((varW gw.2).scale g.sq))) (some .zero)

/-- A sum of g · d over one component: the exact sum by IEEE rules. -/
def sumComp (gs : List Part) (ws : List Word) : FV :=
  let terms := (gs.zip ws).filterMap fun gw =>
    if !nzW gw.2 then none
    else match gw.1 with
      | none => some (FV.nan false)
      | some g =>
        if g.isZero then none
        else match f32 gw.2 with
          | .nan _ => some (.nan false)
          | .inf s => some (.inf (s != (g.sign < 0)))
          | x => some (FV.ofRE false (g.times x.real))
  if terms.any FV.isNan || (terms.any (fun x => x.isInf && x.sign) && terms.any (fun x => x.isInf && !x.sign)) then .nan false
  else match terms.find? FV.isInf with
    | some x => x
    | none => FV.ofRE false (RE.sum (terms.map FV.real))

/-- Total variance of a source (R105); none where every word is zero. -/
def totalVar (tracked : Bool) (gl : List Word) : Option VV :=
  let w0 := gl.headD 0
  let v0 : Option VV := if nzW w0 then some (varW w0) else none
  if !tracked then v0
  else (gl.drop 1).foldl (fun acc w =>
    if !nzW w then acc
    else
      let t : VV := match f32 w with
        | .fin _ m => .re m.sq
        | _ => .inf
      some ((acc.getD .zero).add t)) v0

def VV.prod : VV → VV → VV
  | .re x, .re y => .re (x.times y)
  | _, _ => .inf

/-- `SecondOrder` (R105); none where a nonzero variance meets an undefined derivative. -/
def secondOrder (tracked : Bool) (sec : List ((Nat × Nat) × Part)) (gls : List (List Word)) : Option VV :=
  sec.foldl (fun acc e =>
    match acc with
    | none => none
    | some v =>
      match totalVar tracked (gls.getD e.1.1 []), totalVar tracked (gls.getD e.1.2 []) with
      | some si, some sj =>
        match e.2 with
        | none => none
        | some f =>
          if f.isZero then some v
          else
            let t := (si.prod sj).scale f.sq
            some (v.add (if e.1.1 = e.1.2 then t.scale half else t))
      | _, _ => some v) (some .zero)

/-- A component by the rule of its mode. -/
def compOut (away : Bool) (x : FV) : Word :=
  match x with
  | .nan _ => f32Nan
  | .inf s => if s then f32NInf else f32Inf
  | _ => if away then roundAway x.real else f32Of .rne x.real

/-- The signs that NEG and ABS give a partial: true for −1 (R106). -/
def signPart (neg : Bool) (p : Part) : Part := if neg then p.map RE.minus else p

/-- The destination glove (R103, R104, R106): the exact result, its RoundVar, whether it overflowed, the partials of the
modified sources and their signs, and the source gloves. `flat` gives tangents a zero partial (R107). Table 4.2 is applied to each
sum by its own input words, which in rows 2 and 3 are word 0 and the components of the effective mode (log 18). -/
def gloveOut (m : Modes) (k : Nat) (y : FV) (rv : VV) (p : Parts) (negs : List Bool) (flat : Bool)
    (gls : List (List Word)) : List Word :=
  if m.dm = 0 ∧ m.dc = 0 then zeroGlove k
  else
    let nc := if m.dm = 2 then k else m.dc
    let word (j : Nat) : List Word := gls.map fun gl => gl.getD j 0
    let comps := List.range nc
    let pad (w0 : Word) (ds : List Word) : List Word := (w0 :: ds) ++ List.replicate (k - nc) 0
    if y.isNan then
      let some' := (word 0).any nzW || comps.any fun j => (word (j + 1)).any nzW
      pad (if m.dm ≠ 0 ∧ some' then f32Inf else 0)
        (comps.map fun j => if (word (j + 1)).any nzW then f32Nan else 0)
    else
      let gs := (p.g.zip negs).map fun x => signPart x.2 x.1
      let w0 : Word :=
        if m.dm = 0 then 0
        else
          let badComp := m.dm = 2 ∧ comps.any fun j => (word (j + 1)).any fun w => !(f32 w).isFin
          let so := if m.so then secondOrder (m.dm = 2) p.sec gls else some .zero
          match sumVar gs (word 0), so with
          | some v, some o => if badComp then f32Inf else roundUpVar ((v.add rv).add o)
          | _, _ => f32Inf
      let tg := if flat && m.dm ≠ 2 then gs.map fun _ => zeroP else gs
      pad w0 (comps.map fun j => compOut (m.dm = 2) (sumComp tg (word (j + 1))))

/-- A glove of word 0 alone (R108: `v.cvtif`, `v.fdot2`). -/
def varGlove (m : Modes) (k : Nat) (rv : VV) : List Word :=
  (if m.dm = 0 then 0 else roundUpVar rv) :: List.replicate k 0

end Sys2Proof.Machine
end

