-- ==== Sys2Proof/Machine/VecInt.lean ====
section
/-! DEFINITION. Vector integer and bit instructions, shuffles, integer reductions and scans, opcodes 0x30 to 0x4F (spec/06
R166 to R175). -/

namespace Sys2Proof.Machine

/-! ## Shapes -/

/-- TYPE in force. -/
def Cx.type (c : Cx) (sp : VSpec) (f : VForm) : Nat := sp.type (fmtHt c.gg.fmt) f

/-- `pfx.pt` before the instruction. -/
def Cx.point (c : Cx) : Bool := c.gg.pfx.any Pfx.isPt

/-- A 32-bit result in each active lane, with an all-zero glove (R111, R166). -/
def vIntN (sp : VSpec) (f : VForm) (s : State) (res : Cx → Nat → Word) : Res :=
  local1 (vLen f) s fun c => do
    c.vCheck sp f
    pure (c.lanes.foldl (fun g l => g.putD f.d.toNat l (res c l) (zeroGlove c.g.ident.k)) (c.hold f c.g))

def vInt2 (f : VForm) (s : State) (res : Word → Word → Word) : Res :=
  vIntN spInt2 f s fun c l => res (c.src f f.a.toNat l) (c.src f f.b.toNat l)

def vInt1 (f : VForm) (s : State) (res : Word → Word) : Res :=
  vIntN spInt1 f s fun c l => res (c.src f f.a.toNat l)

/-- A move: the value of a source code as a chosen lane reads it, with its whole glove, or an all-zero glove under `pfx.pt`
(R109). -/
def vMove (sp : VSpec) (f : VForm) (s : State) (pick : Cx → Nat → Nat × Nat) : Res :=
  local1 (vLen f) s fun c => do
    c.vCheck sp f
    let put (g : Group) (l : Nat) : Group :=
      let (code, from') := pick c l
      let gl := if c.point then zeroGlove c.g.ident.k else c.srcGlove code from'
      g.putD f.d.toNat l (c.src f code from') gl
    pure (c.lanes.foldl put (c.hold f c.g))

/-- The lanes of the gang whose condition holds, as a mask in SREG (R123, R170); nothing with no active lane (R43). -/
def Cx.putMask (c : Cx) (sreg : Nat) (ls : List Nat) (g : Group) : Group :=
  if c.anyActive then g.writeMask c.gg sreg (maskOf ls) else g

/-! ## Values -/

def sh5 (b : Word) : Nat := b.toNat % 32

/-- Position and width of the field that b describes (R169). -/
def vbfPos (b : Word) : Nat := b.toNat % 32
def vbfWidth (b : Word) : Nat := min (nbits b.toNat 5 6) (32 - vbfPos b)

def vBfxV (sx : Bool) (a b : Word) : Word :=
  let w := vbfWidth b
  let v := nbits a.toNat (vbfPos b) w
  if sx && w > 0 && v.testBit (w - 1) then wd v ||| ~~~wd (2 ^ w - 1) else wd v

def vBfiV (a b c : Word) : Word :=
  let m := wd ((2 ^ vbfWidth b - 1) * 2 ^ vbfPos b)
  (c &&& ~~~m) ||| ((a <<< vbfPos b) &&& m)

/-- R167: the result and whether it was clamped. -/
def vMadV (signed sat : Bool) (a b c : Word) : Word × Bool :=
  if !sat then (a * b + c, false)
  else if signed then
    let x := a.toInt * b.toInt + c.toInt
    if x < -2 ^ 31 then (0x80000000, true) else if x > 2 ^ 31 - 1 then (0x7FFFFFFF, true) else (BitVec.ofInt 32 x, false)
  else
    let x := a.toNat * b.toNat + c.toNat
    if x > 2 ^ 32 - 1 then (0xFFFFFFFF, true) else (wd x, false)

/-- The condition SEL of `v.icmp` (R170). -/
def iCond (sel : Nat) (signed : Bool) (a b : Word) : Bool :=
  let lt (x y : Word) : Bool := if signed then x.slt y else x.ult y
  match sel with
  | 0 => a == b
  | 1 => a != b
  | 2 => lt a b
  | 3 => !(lt a b)
  | 4 => !(lt b a)
  | _ => lt b a

/-- The operations of R174 on 32-bit values. -/
def iOp (op : Nat) (signed : Bool) (x y : Word) : Word :=
  let lt (x y : Word) : Bool := if signed then x.slt y else x.ult y
  match op with
  | 0 => x + y
  | 1 => x &&& y
  | 2 => x ||| y
  | 3 => x ^^^ y
  | 4 => if lt y x then y else x
  | _ => if lt x y then y else x

/-- Their identities (R175). -/
def iIdent (op : Nat) (signed : Bool) : Word :=
  match op with
  | 0 | 2 | 3 => 0
  | 1 => 0xFFFFFFFF
  | 4 => if signed then 0x7FFFFFFF else 0xFFFFFFFF
  | _ => if signed then 0x80000000 else 0

/-- Extension of a word to a doubleword by its type. -/
def extW (signed : Bool) (w : Word) : DWord := if signed then sx64 w else zx64 w

/-- `v.ired` over a non-empty list of values (R174). -/
def iRed (op : Nat) (signed : Bool) (ws : List Word) : DWord :=
  match ws with
  | [] => 0
  | w :: rest =>
    if op = 0 then ws.foldl (fun a x => a + extW signed x) 0
    else
      let r := rest.foldl (iOp op signed) w
      if op < 4 then zx64 r else extW signed r

/-! ## The instructions of Table 6.2 -/

def execVMov (f : VForm) (s : State) : Res := vMove spMov f s fun _ l => (f.a.toNat, l)

/-- R168. -/
def execVSetlane (f : VForm) (s : State) : Res :=
  local1 (vLen f) s fun c => do
    c.vCheck spSetlane f (f.c < c.g.ident.width)
    let g := c.hold f c.g
    if c.lanes.contains f.c then
      pure (g.putD f.d.toNat f.c (c.src f f.a.toNat f.c) (zeroGlove c.g.ident.k))
    else pure g

def execVIota (f : VForm) (s : State) : Res :=
  vIntN spInt2 f s fun c l => c.src f f.a.toNat l + wd l * c.src f f.b.toNat l
def execVAdd (f : VForm) (s : State) : Res := vInt2 f s fun a b => a + b
def execVSub (f : VForm) (s : State) : Res := vInt2 f s fun a b => a - b
def execVMul (f : VForm) (s : State) : Res := vInt2 f s fun a b => a * b
def execVMulhu (f : VForm) (s : State) : Res := vInt2 f s fun a b => wd (a.toNat * b.toNat / 2 ^ 32)
def execVMulhs (f : VForm) (s : State) : Res := vInt2 f s fun a b => BitVec.ofInt 32 (a.toInt * b.toInt / 2 ^ 32)

/-- R167. -/
def execVMad (f : VForm) (s : State) : Res :=
  local1 (vLen f) s fun c => do
    c.vCheck spMad f
    let signed := c.type spMad f == 4
    let put (g : Group) (l : Nat) : Group :=
      let (w, clamped) := vMadV signed f.sat (c.src f f.a.toNat l) (c.src f f.b.toNat l) (c.src f f.c l)
      let g := if clamped then g.raise fSaturated else g
      g.putD f.d.toNat l w (zeroGlove c.g.ident.k)
    pure (c.lanes.foldl put (c.hold f c.g))

def execVAnd (f : VForm) (s : State) : Res := vInt2 f s fun a b => a &&& b
def execVOr (f : VForm) (s : State) : Res := vInt2 f s fun a b => a ||| b
def execVXor (f : VForm) (s : State) : Res := vInt2 f s fun a b => a ^^^ b
def execVAndn (f : VForm) (s : State) : Res := vInt2 f s fun a b => a &&& ~~~b
def execVShl (f : VForm) (s : State) : Res := vInt2 f s fun a b => a <<< sh5 b
def execVShr (f : VForm) (s : State) : Res := vInt2 f s fun a b => a >>> sh5 b
def execVSar (f : VForm) (s : State) : Res := vInt2 f s fun a b => a.sshiftRight (sh5 b)
def execVMins (f : VForm) (s : State) : Res := vInt2 f s (iOp 4 true)
def execVMinu (f : VForm) (s : State) : Res := vInt2 f s (iOp 4 false)
def execVMaxs (f : VForm) (s : State) : Res := vInt2 f s (iOp 5 true)
def execVMaxu (f : VForm) (s : State) : Res := vInt2 f s (iOp 5 false)

/-- R170. -/
def execVIcmp (f : VForm) (s : State) : Res :=
  local1 (vLen f) s fun c => do
    c.vCheck spIcmp f
    let holds (l : Nat) : Bool := iCond f.sel (c.type spIcmp f == 4) (c.src f f.a.toNat l) (c.src f f.b.toNat l)
    pure (c.putMask f.sreg (c.lanes.filter holds) (c.hold f c.g))

/-- R171. -/
def execVSel (f : VForm) (s : State) : Res :=
  vMove spSel f s fun c l => (if (c.g.readS f.sreg).getLsbD l then f.a.toNat else f.b.toNat, l)

def execVPopc (f : VForm) (s : State) : Res := vInt1 f s fun a => wd (popc 32 a.toNat)
def execVClz (f : VForm) (s : State) : Res := vInt1 f s fun a => wd (clz 32 a.toNat)

/-- R169. -/
def execVBfx (f : VForm) (s : State) : Res :=
  vIntN spInt2 f s fun c l => vBfxV (c.type spInt2 f == 4) (c.src f f.a.toNat l) (c.src f f.b.toNat l)
def execVBfi (f : VForm) (s : State) : Res :=
  vIntN spBfi f s fun c l => vBfiV (c.src f f.a.toNat l) (c.src f f.b.toNat l) (c.src f f.c l)

/-- R172. -/
def vInt64 (f : VForm) (s : State) (res : DWord → DWord → DWord) : Res :=
  local1 (vLen f) s fun c => do
    c.vCheck spInt64 f
    let put (g : Group) (l : Nat) : Group :=
      g.putD64 f.d.toNat l (res (c.src64 f false f.a.toNat l) (c.src64 f false f.b.toNat l)) (zeroGlove c.g.ident.k)
    pure (c.lanes.foldl put c.g)

def execVAdd64 (f : VForm) (s : State) : Res := vInt64 f s fun a b => a + b
def execVSub64 (f : VForm) (s : State) : Res := vInt64 f s fun a b => a - b

/-! ## Across lanes -/

/-- R173: the lane read, or the lane's own. -/
def Cx.shflFrom (c : Cx) (members : DWord) (l j : Nat) : Nat :=
  if j < c.g.ident.width && members.getLsbD j && c.lanes.contains j then j else l

def execVShfl (f : VForm) (s : State) : Res :=
  vMove spShfl f s fun c l => (f.a.toNat, c.shflFrom (c.g.readS f.sreg) l ((c.src f f.b.toNat l).toNat % 32))
def execVShflx (f : VForm) (s : State) : Res :=
  vMove spShflx f s fun c l =>
    (f.a.toNat, c.shflFrom (BitVec.allOnes 64) l (l ^^^ ((c.src f f.b.toNat l).toNat % 32)))

/-- R174. -/
def execVIred (f : VForm) (s : State) : Res :=
  local1 (vLen f) s fun c => do
    c.vCheck spIred f
    let g := c.hold f c.g
    if c.anyActive then
      pure (g.writeS c.gg f.sreg (iRed (f.sel % 8) (c.type spIred f == 4) (c.lanes.map fun l => c.src f f.a.toNat l)))
    else pure g

/-- R175: the accumulator before a lane and the group with the lanes below it written. -/
def execVIscan (f : VForm) (s : State) : Res :=
  local1 (vLen f) s fun c => do
    c.vCheck spIscan f
    let op := f.sel % 8
    let signed := c.type spIscan f == 4
    let put (acc : Word × Group) (l : Nat) : Word × Group :=
      let x := iOp op signed acc.1 (c.src f f.a.toNat l)
      (x, acc.2.putD f.d.toNat l (if f.sel ≥ 8 then acc.1 else x) (zeroGlove c.g.ident.k))
    pure (c.lanes.foldl put (iIdent op signed, c.hold f c.g)).2

end Sys2Proof.Machine
end

