-- ==== Sys2Proof/Machine/Float.lean ====
section
/-! DEFINITION. Floating-point arithmetic, comparison, classification and conversion, opcodes 0x50 to 0x64 and 0x69, with
the gloves they propagate (spec/06 R176 to R183, spec/04 R104 to R111). -/

namespace Sys2Proof.Machine

/-! ## Elements -/

/-- Element format of a TYPE code (R176). -/
def typeFmt (t : Nat) : Fmt := match t with | 1 => .f16 | 2 => .bf16 | 3 => .f64 | _ => .f32
/-- Elements of a TYPE. -/
def typeElems (t : Nat) : Nat := if packed t then 2 else 1

/-- ABS, then NEG, on the sign bit of an element (R83). -/
def absNeg (fm : Fmt) (abs neg : Bool) (w : Nat) : Nat :=
  let top := 2 ^ (fm.width - 1)
  let w := if abs then w % top else w
  if neg then (if w / top % 2 = 1 then w - top else w + top) else w

/-- The unmodified bits of element e of a source. -/
def Cx.rawElem (c : Cx) (f : VForm) (t code lane e : Nat) : Nat :=
  if t = 3 then (c.src64 f true code lane).toNat
  else
    let w := (c.src f code lane).toNat
    if packed t then nbits w (16 * e) 16 else w

/-- The bits of element e of source number i (0 is a), after ABS and NEG. -/
def Cx.elem (c : Cx) (f : VForm) (t i code lane e : Nat) : Nat :=
  absNeg (typeFmt t) (f.absBit i) (f.negBit i) (c.rawElem f t code lane e)

/-- Whether NEG and ABS multiply the partial of a source by −1 (R106). -/
def Cx.negPart (c : Cx) (f : VForm) (t i code lane : Nat) : Bool :=
  let w := c.rawElem f t code lane 0
  let s := w / 2 ^ ((typeFmt t).width - 1) % 2 = 1
  (f.absBit i && s) != f.negBit i

/-- The sources a form names, in order. -/
def srcCodes (f : VForm) : List Nat := [f.a.toNat, f.b.toNat, f.c]

/-! ## Arithmetic (Table 6.3) -/

/-- What an arithmetic instruction computes: the exact function, the partials, the rounding and its variance, and whether
its tangents are zero (R107). -/
structure FOp where
  n : Nat
  val : Rm → List FV → FR
  parts : List FV → Parts
  round : Fmt → Rm → Bool → Nat → FV → Nat × Word × VV
  flat : Bool := false

/-- One rounding with its charge (R55 to R59). -/
def stdRound (fm : Fmt) (rm : Rm) (sat : Bool) (w24 : Nat) (v : FV) : Nat × Word × VV :=
  let r := fm.roundTo rm sat w24 v
  (r.bits, r.flags, fm.roundVar rm v r)

/-- Rounding to an integer of the same format (R178). -/
def intRound (fm : Fmt) (rm : Rm) (_sat : Bool) (w24 : Nat) (v : FV) : Nat × Word × VV :=
  match v with
  | .fin s m =>
    let (i, exact) := roundInt rm w24 v.real
    if exact then ((fm.roundTo .rne false 0 (.fin s m)).bits, 0, .zero)
    else
      let y := (RE.ofInt i).abs
      let a := v.real.decide Q.floor
      let d := v.real.sub (.ofInt a)
      let rv := match rm with
        | .rne => RE.rat ⟨1, 12⟩
        | .sr => d.times (RE.one.sub d)
        | _ => RE.rat ⟨1, 3⟩
      ((fm.roundTo .rne false 0 (.fin s y)).bits, fInexact, .re rv)
  | _ => let r := fm.roundTo rm false 0 v; (r.bits, r.flags, .zero)

/-- One source's value as its element is decoded. -/
def Cx.fval (c : Cx) (f : VForm) (t i code lane e : Nat) : FV := (typeFmt t).decode (c.elem f t i code lane e)

def op1 (v : FV → FR) (p : FV → Parts) : FOp :=
  ⟨1, fun _ xs => v (xs.headD (.fin false .zero)), fun xs => p (xs.headD (.fin false .zero)), stdRound, false⟩
def op2 (v : Rm → FV → FV → FR) (p : FV → FV → Parts) : FOp :=
  ⟨2, fun rm xs => match xs with | [a, b] => v rm a b | _ => .invalid,
    fun xs => match xs with | [a, b] => p a b | _ => ⟨[], []⟩, stdRound, false⟩

def opAdd : FOp := op2 (fun rm a b => sumFV rm [a, b]) fun _ _ => ⟨[oneP, oneP], []⟩
def opSub : FOp := op2 (fun rm a b => sumFV rm [a, b.neg]) fun _ _ => ⟨[oneP, some (re (-1))], []⟩
def opMul : FOp := op2 (fun _ a b => mulFV a b) partsMul
def opDiv : FOp := op2 (fun _ a b => divFV a b) partsDiv
def opFma : FOp :=
  { n := 3
    val := fun rm xs => match xs with | [a, b, c] => fmaFV rm a b c | _ => .invalid
    parts := fun xs => match xs with
      | [a, b, _] => ⟨[finP b, finP a, oneP], [((0, 1), oneP)]⟩
      | _ => ⟨[], []⟩
    round := stdRound }
def opIdent : FOp := op1 (fun a => ⟨a, 0⟩) fun _ => ⟨[oneP], []⟩
def opRound : FOp := { opIdent with round := intRound, flat := true }

/-- The result of one element in a lane: its bits, its flags, the exact value and the charge. -/
structure FEl where
  bits : Nat
  fl : Word
  y : FV
  rv : VV
  deriving DecidableEq, Repr

/-- Elements e, e + 1, … of a lane in order, each with its draw under SR; the group carries the draw counters. -/
def Cx.fElems (c : Cx) (f : VForm) (op : FOp) (t : Nat) (rm : Rm) (sat : Bool) (lane : Nat) :
    Nat → Nat → Group → List FEl × Group
  | 0, _, g => ([], g)
  | n + 1, e, g =>
    let xs := (List.range op.n).map fun i => c.fval f t i ((srcCodes f).getD i 123) lane e
    let (w, g) := c.drawIf rm g lane e
    let y := op.val rm xs
    let (b, fl, rv) := op.round (typeFmt t) rm sat w y.v
    let (rest, g) := c.fElems f op t rm sat lane n (e + 1) g
    (⟨b, y.fl ||| fl, y.v, rv⟩ :: rest, g)

/-- Bits of the elements put together. -/
def packBits (t : Nat) (es : List FEl) : Nat :=
  match es with
  | [a, b] => if packed t then a.bits + 65536 * b.bits else a.bits
  | a :: _ => a.bits
  | [] => 0

/-- Write a result of a TYPE with its glove. -/
def Group.putT (g : Group) (pair : Bool) (d lane bits : Nat) (gl : List Word) : Group :=
  if pair then g.putD64 d lane (dw bits) gl else g.putD d lane (wd bits) gl

/-- Effective modes of the instruction (R102). -/
def Cx.modes (c : Cx) : Modes := effModes c.gg.fmt c.gg.pfx

/-- The glove of an unpacked arithmetic result (R104). -/
def Cx.fGlove (c : Cx) (f : VForm) (op : FOp) (t lane : Nat) (e : FEl) : List Word :=
  let is := List.range op.n
  let codes := (srcCodes f)
  gloveOut c.modes c.g.ident.k e.y e.rv
    (op.parts (is.map fun i => c.fval f t i (codes.getD i 123) lane 0))
    (is.map fun i => c.negPart f t i (codes.getD i 123) lane) op.flat
    (is.map fun i => c.srcGlove (codes.getD i 123) lane)

/-- One lane of an arithmetic instruction. -/
def Cx.fLane (c : Cx) (f : VForm) (op : FOp) (t : Nat) (rm : Rm) (sat : Bool) (g : Group) (lane : Nat) : Group :=
  let (es, g) := c.fElems f op t rm sat lane (typeElems t) 0 g
  let gl := match es with
    | [e] => c.fGlove f op t lane e
    | _ => zeroGlove c.g.ident.k
  let g := g.raise (es.foldl (fun a e => a ||| e.fl) 0)
  g.putT (t == 3) f.d.toNat lane (packBits t es) gl

/-- An arithmetic instruction (R176). -/
def vArith (sp : VSpec) (op : FOp) (f : VForm) (s : State) : Res :=
  local1 (vLen f) s fun c => do
    c.vCheck sp f
    pure (c.lanes.foldl (c.fLane f op (c.type sp f) (c.rm f.rnd) (c.satOf f)) (c.hold f c.g))

def execVFadd (f : VForm) (s : State) : Res := vArith spArith2 opAdd f s
def execVFsub (f : VForm) (s : State) : Res := vArith spArith2 opSub f s
def execVFmul (f : VForm) (s : State) : Res := vArith spArith2 opMul f s
def execVFfma (f : VForm) (s : State) : Res := vArith spArith3 opFma f s
def execVFdiv (f : VForm) (s : State) : Res := vArith spArith2 opDiv f s
def execVFsqrt (f : VForm) (s : State) : Res := vArith spArith1 (op1 sqrtFV partsSqrt) f s
def execVFrsq (f : VForm) (s : State) : Res := vArith spArith1 (op1 rsqFV partsRsq) f s
def execVFrcp (f : VForm) (s : State) : Res := vArith spArith1 (op1 rcpFV partsRcp) f s
def execVFexp2 (f : VForm) (s : State) : Res := vArith spArith1 (op1 exp2FV partsExp2) f s
def execVFlog2 (f : VForm) (s : State) : Res := vArith spArith1 (op1 log2FV partsLog2) f s
def execVFsinpi (f : VForm) (s : State) : Res := vArith spArith1 (op1 sinpiFV partsSin) f s
def execVFcospi (f : VForm) (s : State) : Res := vArith spArith1 (op1 cospiFV partsCos) f s
def execVFtanh (f : VForm) (s : State) : Res := vArith spArith1 (op1 tanhFV partsTanh) f s
def execVFround (f : VForm) (s : State) : Res := vArith spArith1 opRound f s

/-! ## Minimum and maximum (R177) -/

/-- Order of two values that are not NaN: whether a is below b. -/
def FV.below (a b : FV) : Bool :=
  match a, b with
  | .inf s, .inf t => s && !t
  | .inf s, _ => s
  | _, .inf t => !t
  | _, _ => a.q.lt b.q
def FV.equal (a b : FV) : Bool :=
  match a, b with
  | .inf s, .inf t => s == t
  | .fin _ _, .fin _ _ => a.q.eq b.q
  | _, _ => false

/-- Which operand `v.fmin` or `v.fmax` delivers: none when both are NaN. -/
inductive Pick where
  | a | b | nan
  deriving DecidableEq, Repr

def pickFV (max : Bool) (x y : FV) : Pick :=
  if x.isNan && y.isNan then .nan
  else if x.isNan then .b
  else if y.isNan then .a
  else if x.equal y then .a
  else if (if max then y.below x else x.below y) then .a else .b

/-- Bits and flags of the delivered operand. -/
def pickBits (fm : Fmt) (max : Bool) (x y : Nat) : Nat × Word × Pick :=
  let a := fm.decode x
  let b := fm.decode y
  let p := pickFV max a b
  let fl := if a.isSig || b.isSig then fInvalid else 0
  (match p with | .a => x | .b => y | .nan => fm.nan, fl, p)

/-- One lane of `v.fmin` or `v.fmax`. -/
def Cx.pickLane (c : Cx) (f : VForm) (max : Bool) (t : Nat) (g : Group) (lane : Nat) : Group :=
  let el (e : Nat) : Nat × Word × Pick :=
    pickBits (typeFmt t) max (c.elem f t 0 f.a.toNat lane e) (c.elem f t 1 f.b.toNat lane e)
  let r0 := el 0
  if packed t then
    let r1 := el 1
    (g.raise (r0.2.1 ||| r1.2.1)).putD f.d.toNat lane (wd (r0.1 + 65536 * r1.1)) (zeroGlove c.g.ident.k)
  else
    let y : FV := match r0.2.2 with | .nan => .nan false | _ => .fin false .zero
    let p : Parts := match r0.2.2 with
      | .b => ⟨[zeroP, oneP], []⟩
      | _ => ⟨[oneP, zeroP], []⟩
    let gl := gloveOut c.modes c.g.ident.k y .zero p [c.negPart f t 0 f.a.toNat lane, c.negPart f t 1 f.b.toNat lane] false
      [c.srcGlove f.a.toNat lane, c.srcGlove f.b.toNat lane]
    (g.raise r0.2.1).putT (t == 3) f.d.toNat lane r0.1 gl

def vPick (max : Bool) (f : VForm) (s : State) : Res :=
  local1 (vLen f) s fun c => do
    c.vCheck spPick f
    pure (c.lanes.foldl (c.pickLane f max (c.type spPick f)) (c.hold f c.g))

def execVFmin (f : VForm) (s : State) : Res := vPick false f s
def execVFmax (f : VForm) (s : State) : Res := vPick true f s

/-! ## `v.fdot2` (R179) -/

def Cx.dot2Lane (c : Cx) (f : VForm) (t : Nat) (rm : Rm) (g : Group) (lane : Nat) : Group :=
  let x (i code e : Nat) : FV := c.fval f t i code lane e
  let p0 := mulFV (x 0 f.a.toNat 0) (x 1 f.b.toNat 0)
  let p1 := mulFV (x 0 f.a.toNat 1) (x 1 f.b.toNat 1)
  let cv := f32 (c.src f f.c lane)
  let ins := [x 0 f.a.toNat 0, x 1 f.b.toNat 0, x 0 f.a.toNat 1, x 1 f.b.toNat 1, cv]
  -- infinite products of opposite sign set INVALID whatever c is
  let opp := p0.v.isInf && p1.v.isInf && p0.v.sign != p1.v.sign
  let y : FR := if p0.v.isNan || p1.v.isNan || cv.isNan then
      ⟨.nan (ins.any FV.isSig), p0.fl ||| p1.fl ||| (if opp then fInvalid else 0)⟩
    else sumFV rm [p0.v, p1.v, cv]
  let (w, g) := c.drawIf rm g lane 0
  let (b, fl, rv) := stdRound .f32 rm false w y.v
  (g.raise (y.fl ||| fl)).putD f.d.toNat lane (wd b) (varGlove c.modes c.g.ident.k rv)

def execVFdot2 (f : VForm) (s : State) : Res :=
  local1 (vLen f) s fun c => do
    c.vCheck spDot2 f
    pure (c.lanes.foldl (c.dot2Lane f (c.type spDot2 f) (c.rm f.rnd)) (c.hold f c.g))

/-! ## Comparison and classification (R180, R181) -/

/-- Whether the condition SEL holds, and the flags. -/
def fCond (sel : Nat) (a b : FV) : Bool × Word :=
  let un := a.isNan || b.isNan
  let sig := a.isSig || b.isSig
  let lt := !un && a.below b
  let gt := !un && b.below a
  let eq := !un && a.equal b
  let r : Bool := match sel with
    | 0 => eq
    | 1 => !eq
    | 2 => lt
    | 3 => gt || eq
    | 4 => lt || eq
    | 5 => gt
    | 6 => un
    | _ => !un
  (r, if sig || (un && 2 ≤ sel && sel ≤ 5) then fInvalid else 0)

def execVFcmp (f : VForm) (s : State) : Res :=
  local1 (vLen f) s fun c => do
    c.vCheck spFcmp f
    let t := c.type spFcmp f
    let r (l : Nat) : Bool × Word := fCond f.sel (c.fval f t 0 f.a.toNat l 0) (c.fval f t 1 f.b.toNat l 0)
    let g := c.lanes.foldl (fun g l => g.raise (r l).2) (c.hold f c.g)
    pure (c.putMask f.sreg (c.lanes.filter fun l => (r l).1) g)

/-- The class mask of an element (R181). -/
def classOf (fm : Fmt) (w : Nat) : Nat :=
  let c := w % 2 ^ (fm.width - 1)
  match fm.decode w with
  | .nan true => 256
  | .nan false => 512
  | .inf s => if s then 1 else 128
  | .fin s _ =>
    if c = 0 then (if s then 8 else 16)
    else if c < 2 ^ fm.frac then (if s then 4 else 32)
    else if s then 2 else 64

def execVFclass (f : VForm) (s : State) : Res :=
  vIntN spFclass f s fun c l =>
    let t := c.type spFclass f
    let m (e : Nat) : Nat := classOf (typeFmt t) (c.elem f t 0 f.a.toNat l e)
    wd (if packed t then m 0 + 65536 * m 1 else m 0)

/-! ## Conversion (R182, R183) -/

/-- One element converted, with its draw. -/
def Cx.cvtElem (c : Cx) (fm : Fmt) (rm : Rm) (sat : Bool) (lane j : Nat) (v : FV) (g : Group) : FEl × Group :=
  let (w, g) := c.drawIf rm g lane j
  let (b, fl, rv) := stdRound fm rm sat w v
  (⟨b, fl, v, rv⟩, g)

/-- One lane of `v.fcvt`. -/
def Cx.fcvtLane (c : Cx) (f : VForm) (t : Nat) (rm : Rm) (sat : Bool) (g : Group) (lane : Nat) : Group :=
  let dst := f.sel
  let fm := typeFmt dst
  let z := zeroGlove c.g.ident.k
  let d := f.d.toNat
  if packed t || packed dst then
    let v0 := c.fval f t 0 f.a.toNat lane 0
    let v1 := if packed t then c.fval f t 0 f.a.toNat lane 1 else c.fval f t 1 f.b.toNat lane 0
    let (e0, g) := c.cvtElem fm rm sat lane 0 v0 g
    let (e1, g) := c.cvtElem fm rm sat lane 1 v1 g
    let g := g.raise (e0.fl ||| e1.fl)
    if packed dst then g.putD d lane (wd (e0.bits + 65536 * e1.bits)) z
    else (g.writeV lane d (wd e0.bits) z).writeV lane (d + 1) (wd e1.bits) z
  else
    let (e, g) := c.cvtElem fm rm sat lane 0 (c.fval f t 0 f.a.toNat lane 0) g
    (g.raise e.fl).putT (dst == 3) d lane e.bits (c.fGlove f opIdent t lane e)

def execVFcvt (f : VForm) (s : State) : Res :=
  local1 (vLen f) s fun c => do
    c.vCheck spFcvt f
    pure (c.lanes.foldl (c.fcvtLane f (c.type spFcvt f) (c.rm f.rnd) (c.satOf f)) (c.hold f c.g))

/-- Integer target of a TYPE code. -/
def intTy (t : Nat) : ITy := match t with | 4 => .i32 | 5 => .u32 | _ => .i64

def execVCvtfi (f : VForm) (s : State) : Res :=
  local1 (vLen f) s fun c => do
    c.vCheck spCvtfi f
    let t := c.type spCvtfi f
    let rm := c.rm f.rnd
    let put (g : Group) (lane : Nat) : Group :=
      let (w, g) := c.drawIf rm g lane 0
      let (i, fl) := (intTy f.sel).convert rm w (c.fval f t 0 f.a.toNat lane 0)
      (g.raise fl).putT (f.sel == 6) f.d.toNat lane (BitVec.ofInt 64 i).toNat (zeroGlove c.g.ident.k)
    pure (c.lanes.foldl put (c.hold f c.g))

/-- The integer a source holds under a TYPE. -/
def Cx.intSrc (c : Cx) (f : VForm) (t code lane : Nat) : Int :=
  match t with
  | 4 => (c.src f code lane).toInt
  | 5 => (c.src f code lane).toNat
  | _ => (c.src64 f false code lane).toInt

def execVCvtif (f : VForm) (s : State) : Res :=
  local1 (vLen f) s fun c => do
    c.vCheck spCvtif f
    let t := c.type spCvtif f
    let rm := c.rm f.rnd
    let put (g : Group) (lane : Nat) : Group :=
      let v := FV.ofRE false (.ofInt (c.intSrc f t f.a.toNat lane))
      let (e, g) := c.cvtElem (typeFmt f.sel) rm false lane 0 v g
      (g.raise e.fl).putT (f.sel == 3) f.d.toNat lane e.bits (varGlove c.modes c.g.ident.k e.rv)
    pure (c.lanes.foldl put (c.hold f c.g))

end Sys2Proof.Machine
end

