-- ==== Sys2Proof/Machine/Atomic.lean ====
section
/-! DEFINITION. The values that atomics and reductions write (Table 7.4, R206). -/

namespace Sys2Proof.Machine

/-- Minimum or maximum of two integers of a width, as numbers. -/
def pickInt (signed max : Bool) (w o b : Nat) : Nat :=
  let v (x : Nat) : Int := if signed ∧ x ≥ 2 ^ (w - 1) then (x : Int) - 2 ^ w else x
  if max then (if v o < v b then b else o) else (if v b < v o then b else o)

/-- NewValue(ATOP, o, b) on numbers of 32 or 64 bits. -/
def atomNew (atop : Nat) (w64 : Bool) (o b : Nat) : Nat :=
  let w := if w64 then 64 else 32
  let fm : Fmt := if w64 then .f64 else .f32
  match atop with
  | 0 => (o + b) % 2 ^ w
  | 1 => o &&& b
  | 2 => o ||| b
  | 3 => o ^^^ b
  | 4 => pickInt true false w o b
  | 5 => pickInt false false w o b
  | 6 => pickInt true true w o b
  | 7 => pickInt false true w o b
  | 8 => b
  | 9 => (fm.roundTo .rne false 0 (sumFV .rne [fm.decode o, fm.decode b]).v).bits
  | 10 => (pickBits fm false o b).1
  | 11 => (pickBits fm true o b).1
  | 12 => if o ≥ b then 0 else o + 1
  | _ => if o = 0 ∨ o > b then b else o - 1

end Sys2Proof.Machine
end

