-- ==== Sys2Proof/Machine/Clause.lean ====
section
/-! DEFINITION. Clauses (spec/03 R71 to R75, R79, Table 3.9): the header's fields, the checks of a whole clause, and where its
instructions begin. -/

namespace Sys2Proof.Machine

/-! ## The header (Table 3.1) -/

def hdrN (h : Word) : Nat := (fld h 24 4).toNat
def hdrClass (h : Word) : Nat := (fld h 21 3).toNat
def hdrWait (h : Word) (k : Nat) : Bool := h.getLsbD (15 + k)
def hdrSet (h : Word) : Nat := (fld h 12 3).toNat
def hdrYield (h : Word) : Bool := h.getLsbD 11

/-- R75 step 2. -/
def headerOk (h : Word) : Bool := hdrN h != 0 && hdrClass h < 6 && hdrSet h != 6 && fld h 0 11 == 0

/-- R72 and R341: the classes a role may issue; a handler may issue MEM and SYS besides. -/
def roleMay (r : Role) (cls : Nat) (handler : Bool) : Bool :=
  cls == 0 || cls == 4 || (handler && (cls == 1 || cls == 5)) ||
  (match r with | .vector => cls == 1 || cls == 5 | .copy => cls == 3 | .matrix => cls == 2)

/-- R75 step 3: a SYS clause in an unprivileged context traps PRIVILEGE. -/
def roleCheck (r : Role) (cls : Nat) (priv handler : Bool) : Except Tq Unit := do
  need (cls != 5 || priv) .privilege
  need (roleMay r cls handler) .classMismatch

/-! ## Opcodes -/

/-- Class of an opcode (Table 3.9), 6 for a prefix. -/
def opClass (op : Nat) : Option Nat :=
  match opKind op with
  | .reserved => none
  | _ =>
    if op < 0x80 then some 0 else if op < 0xA0 then some 1 else if op < 0xB0 then some 2 else if op < 0xC0 then some 3
    else if op < 0xD0 then some 4 else if op < 0xE0 then some 6 else some 5

/-- Control transfers (R73). -/
def isTransfer (op : Nat) : Bool := (0xC0 ≤ op && op ≤ 0xC6) || op == 0xCB || op == 0xF2

/-- Table 3.2. -/
def isLong (op : Nat) : Bool :=
  [0x80, 0x82, 0x84, 0x86, 0x88, 0x89, 0x8B, 0x8C, 0x8D, 0x92, 0x94, 0x98, 0xA8].contains op

/-- Words of the instruction that the words begin with; none where they are too few. -/
def instrLen (ws : List Word) : Option Nat :=
  match decode ws with
  | .ok _ n => some n
  | .bad .field => some (if (ws.head?.map opcodeOf) == some 0xF3 then 1 else 2)
  | .bad _ => none

/-- R75 step 4: the first failing word, counted from 0, with its trap. `ps` are the prefixes before the instruction. -/
def scanWords (cls : Nat) (noSet : Bool) : Nat → Nat → List Word → List Nat → Option (Trap × Nat)
  | 0, _, _, _ => none
  | _, _, [], _ => none
  | fuel + 1, i, w :: rest, ps =>
    let op := opcodeOf w
    match opClass op with
    | none => some (.illegalOpcode, i)
    | some k =>
      if !(k == cls || (k == 6 && (cls == 0 || cls == 2))) then some (.classMismatch, i)
      else
        match instrLen (w :: rest) with
        | none => some (.clauseFormat, i)
        | some n =>
          let tail := rest.drop (n - 1)
          if k == 6 then
            if tail.isEmpty || ps.contains op then some (.clauseFormat, i)
            else scanWords cls noSet fuel (i + n) tail (op :: ps)
          else if (isTransfer op && !tail.isEmpty) || (noSet && isLong op) then some (.clauseFormat, i)
          else scanWords cls noSet fuel (i + n) tail []

def scanClause (h : Word) (ws : List Word) : Option (Trap × Nat) :=
  scanWords (hdrClass h) (hdrSet h == 7) ws.length 0 ws []

/-- Where instructions begin, counted from 0; a run of prefixes begins the instruction it prefixes. -/
def startsOf : Nat → Nat → Bool → List Word → List Nat
  | 0, _, _, _ => []
  | _, _, _, [] => []
  | fuel + 1, i, fresh, w :: rest =>
    let n := (instrLen (w :: rest)).getD 1
    (if fresh then [i] else []) ++
      startsOf fuel (i + n) (opClass (opcodeOf w) != some 6) (rest.drop (n - 1))

/-- Opcodes of a clause's instructions, prefixes left out. -/
def opsOf : Nat → List Word → List Nat
  | 0, _ => []
  | _, [] => []
  | fuel + 1, w :: rest =>
    let n := (instrLen (w :: rest)).getD 1
    (if opClass (opcodeOf w) == some 6 then [] else [opcodeOf w]) ++ opsOf fuel (rest.drop (n - 1))

/-- Long-latency instructions of a clause (R79). -/
def longCount (ws : List Word) : Nat := ((opsOf ws.length ws).filter isLong).length

/-- A word of the clause that begins an instruction, or is the first prefix of one (R342). -/
def beginsInstr (cl : Clause) (a : DWord) : Bool :=
  (startsOf cl.words.length 0 true cl.words).any fun i => a == cl.addr + dw (4 * (i + 1))

end Sys2Proof.Machine
end

