-- ==== Sys2Proof/Machine/Key.lean ====
section
/-! DEFINITION. Who holds the key (R226, R227), and the key state a program reads (R40). -/

namespace Sys2Proof.Machine

/-- The resident teams of a launch. -/
def State.launchTeams (s : State) (lid : Nat) : List Team := s.teams.filter fun t => t.launch == lid

/-- Rounds that a saved team had passed; an older area or image of it shows fewer (R227, R318). -/
def State.savedPassed (s : State) (lid t n : Nat) : Bool :=
  s.saved.any fun v => v.teams.any fun x => x.launch == lid && x.teamId == t && n < x.round

/-- TEAMID t of a launch has passed round n; a team that has ended passes every round (R227), and one that is saved keeps
its key state (R318). -/
def State.passed (s : State) (l : Launch) (t n : Nat) : Bool :=
  match (s.launchTeams l.id).find? fun x => x.teamId == t with
  | some x => n < x.round
  | none => if l.live.contains t then s.savedPassed l.id t n else !l.todo.contains t

/-- Number of teams of a launch (R298). -/
def Launch.size (l : Launch) : Nat := l.gx * l.gy * l.gz

/-- Round n has gone through team t: it passes through the teams in increasing TEAMID, so every team up to t has passed it
(R227, log 26). -/
def State.roundThrough (s : State) (l : Launch) (t n : Nat) : Bool := (List.range (t + 1)).all fun i => s.passed l i n

/-- Team t of the launch holds round n (R227): team t - 1 has passed it, and the highest team the round before. -/
def State.teamHolds (s : State) (l : Launch) (t n : Nat) : Bool :=
  (t == 0 || s.roundThrough l (t - 1) n) && (n == 0 || s.roundThrough l (l.size - 1) (n - 1))

/-- Address of word w of a side: rows of ROWBYTES at a pitch of 16-byte units (R255). -/
def CopyCmd.wordVa (k : CopyCmd) (base : DWord) (pitch w : Nat) : DWord :=
  let per := k.rowBytes / 4
  base + dw (w / per * 16 * pitch + w % per * 4)
/-- Address of the source of word w: a table row by its index for a gather. -/
def CopyCmd.srcVa (k : CopyCmd) (w : Nat) : DWord :=
  match k.kind with
  | .gather =>
    let per := k.rowBytes / 4
    let i := match k.gidx.find? fun e => e.1 == w / per with | some (_, .inl i) => i | _ => 0
    k.src + dw (i * 16 * k.spitch + w % per * 4)
  | _ => k.wordVa k.src k.spitch w

/-- The page of the global destination of word w, as it was translated at issue. -/
def CopyCmd.dstPage (k : CopyCmd) (w : Nat) : Option DstPage :=
  k.dmap.find? fun e => e.page == (k.wordVa k.dst k.dpitch w).toNat / 65536

/-- Keyed words of copy commands of rounds up to n are still to be written (R263). -/
def CopyCmd.keyedLeft (k : CopyCmd) : Bool := k.todo.any fun w => (k.dstPage w).any (·.keyed)
def Group.keyedCopies (g : Group) (n : Nat) : Bool := g.cmds.any fun k => k.round ≤ n && k.keyedLeft

/-- No keyed access or copy of the group of rounds up to n is still to be performed. -/
def Group.roundDone (g : Group) (n : Nat) : Bool := !g.keyedCopies n && g.keyq.all fun a => n < a.round

/-- The group's pass of round n is recorded: it has issued the `key.pass`, or has ended, and the release that goes before the record
has been performed (R227, R228). -/
def Group.passRecorded (g : Group) (n : Nat) : Bool := (g.ended || n < g.round) && g.roundDone n

/-- The group holds the key for round n: its team holds the round, and every lower-indexed group of the team has passed it
(R227, R228). -/
def State.groupHolds (s : State) (l : Launch) (t : Team) (g : Group) (n : Nat) : Bool :=
  s.teamHolds l t.teamId n && (s.groupsOf t.id).all fun h => h.ident.idx ≥ g.ident.idx || h.passRecorded n

/-- Every live group of the team has passed its round, and every keyed operation of it has been performed (R227). -/
def State.roundPasses (s : State) (l : Launch) (t : Team) : Bool :=
  let gs := s.groupsOf t.id
  l.hdr.det && (gs.any fun g => !g.ended) && gs.all fun g => g.passRecorded t.round

/-- ROUND rises by 1 for each round that the team passes (R227): at most n of them. -/
def State.passRounds (tid : Nat) : Nat → State → State
  | 0, s => s
  | n + 1, s =>
    match s.team? tid with
    | none => s
    | some t =>
      match s.launch? t.launch with
      | none => s
      | some l => if s.roundPasses l t then State.passRounds tid n (s.modTeam tid fun t => { t with round := t.round + 1 }) else s

/-- The rounds of a team as they stand after something that may have let it pass one (R227). -/
def State.settleKey (s : State) (tid : Nat) : State := State.passRounds tid (((s.groupsOf tid).map (·.round)).foldl max 0) s

/-- KEYROUND reads zero in a launch without the deterministic flag (R40). -/
def State.keyState (s : State) (l : Launch) (t : Team) : Bool × Nat :=
  if l.hdr.det then (s.teamHolds l t.teamId t.round, t.round) else (false, 0)

/-- A group's keyed accesses of its earlier rounds and instructions have all been performed. -/
def Group.keyIdle (g : Group) : Bool := g.keyq.isEmpty

/-- An acquire or a fence keeps the group's later memory instructions behind a keyed access that waits (R44, R199, R214). -/
def Group.keyBarred (g : Group) : Bool := g.keyq.any (·.barred)

/-- Put the later memory instructions of the group behind its waiting keyed accesses. -/
def Group.barKeyed (g : Group) : Group := { g with keyq := g.keyq.map fun a => { a with barred := true } }

/-- `a` comes before `b` in the order in which an undivided gang would have issued them: earlier instructions of one split set,
and lower lanes of one instruction (R18, R226). -/
def KeyedAcc.before (a b : KeyedAcc) : Bool :=
  a.split.isSome && a.split == b.split && (a.pc.toNat < b.pc.toNat || (a.pc == b.pc && a.lane < b.lane))

/-- Add a keyed access in issue order. -/
def insKeyed (a : KeyedAcc) : List KeyedAcc → List KeyedAcc
  | [] => [a]
  | b :: bs => if a.before b then a :: b :: bs else b :: insKeyed a bs

/-- Slices of the access's split set may still issue an access that comes before it. -/
def Group.keyedBehind (g : Group) (a : KeyedAcc) : Bool :=
  match a.split with
  | none => false
  | some k => (g.gangs.any fun x => x.split == some k && x.pc.toNat ≤ a.pc.toNat) || g.handler.any fun h => h.split == some k

end Sys2Proof.Machine
end

