-- ==== Sys2Proof/Machine/Spaces.lean ====
section
/-! DEFINITION. The scratchpad windows (Table 7.2, R194, R296), swizzling (R90), and the marks that accesses leave on the
team and the gang: the side-effect bit (R312) and a pending POISON (R339). -/

namespace Sys2Proof.Machine

/-- First and one-past-last granted byte of the die window for a list (R296). -/
def grantRange (g : DWord) : Nat × Nat :=
  if g.getLsbD 63 then (256 * nbits g.toNat 0 18, 256 * min (nbits g.toNat 32 19) 262144) else (0, 0)

/-- The place of n bytes at a scratchpad address; none is PROTECTION (R194). -/
def Cx.place (c : Cx) (a : DWord) (n : Nat) : Option Place :=
  let x := a.toNat
  if x < 0x80000 then (if x + n ≤ c.t.spadBytes then some (.team c.t.id x) else none)
  else if 0x1000000 ≤ x ∧ x < 0x1200000 then
    let off := nbits x 0 19
    if !c.l.hdr.cluster then none
    else match c.t.set[nbits x 19 2]? with
      | none => none
      | some id =>
        match c.s.team? id with
        | some t => if off + n ≤ t.spadBytes then some (.team id off) else none
        | none => none
  else if 0x40000000 ≤ x ∧ x < 0x44000000 then
    let off := nbits x 0 26
    let r := grantRange ((c.s.die c.die).ctl.grants.getD c.l.list 0)
    if r.1 ≤ off ∧ off + n ≤ r.2 then some (.die c.die off) else none
  else none

/-- The scratchpad of a place. -/
def State.spad (s : State) : Place → Spad
  | .team id _ => ((s.team? id).map (·.spad)).getD ⟨[], []⟩
  | .die d _ => (s.die d).dspad
def Place.off : Place → Nat
  | .team _ o | .die _ o => o
def Place.same : Place → Place → Bool
  | .team a _, .team b _ => a == b
  | .die a _, .die b _ => a == b
  | _, _ => false
def State.modSpad (s : State) (p : Place) (f : Spad → Spad) : State :=
  match p with
  | .team id _ => s.modTeam id fun t => { t with spad := f t.spad }
  | .die d _ => s.modDie d fun x => { x with dspad := f x.dspad }

def State.spadRead (s : State) (p : Place) (n : Nat) : List Byte := Mem.readN (s.spad p).bytes p.off n
def State.spadPoison (s : State) (p : Place) (n : Nat) : Bool := (wordsOf p.off n).any (s.spad p).poisoned

/-- Two spans of a scratchpad share a byte. -/
def placesOverlap (a : Place) (n : Nat) (b : Place) (k : Nat) : Bool :=
  a.same b && a.off < b.off + k && b.off < a.off + n

/-- A write here reaches outside the team (R312). -/
def Cx.outside (c : Cx) : Place → Bool
  | .team id _ => id != c.t.id
  | .die .. => true

/-- R90. -/
def swizzle (a : DWord) (k : Nat) : DWord := if k = 0 then a else a ^^^ dw (nbits a.toNat (6 + k) 3 * 16)

/-- Pending poison by the address of its instruction: lanes of one instruction together, with the address of the first. -/
def insPoison (e : DWord × Word × DWord) : List (DWord × Word × DWord) → List (DWord × Word × DWord)
  | [] => [e]
  | x :: xs =>
    if x.1 = e.1 then (x.1, x.2.1 ||| e.2.1, x.2.2) :: xs
    else if e.1.toNat < x.1.toNat then e :: x :: xs else x :: insPoison e xs

/-- Pending poison of two gangs that issue as one. -/
def joinPoison (a b : List (DWord × Word × DWord)) : List (DWord × Word × DWord) := b.foldl (fun ps e => insPoison e ps) a

/-- The slice with which a pending poison goes where its gang divides: the lowest that met it (log 40). -/
def Gang.poisonHome (x : Gang) (e : DWord × Word × DWord) : Nat :=
  (x.slices.find? fun j => e.2.1 &&& maskOf (lanesOfSlice j) != 0).getD (x.slices.headD 0)

/-- What goes with some slices of a gang: each poisoned return is delivered once (R339). -/
def Gang.poisonOf (x : Gang) (js : List Nat) : List (DWord × Word × DWord) := x.poison.filter fun e => js.contains (x.poisonHome e)

/-- A poisoned return leaves a trap for the gang's next clause (R339). -/
def Gang.setPoison (gg : Gang) (pc : DWord) (lanes : Word) (va : DWord) : Gang :=
  { gg with poison := insPoison (pc, lanes, va) gg.poison }

def Group.gangPoison (g : Group) (gg : Gang) (lanes : List Nat) (va : DWord) : Group :=
  if lanes.isEmpty then g else g.modGang gg.id fun x => x.setPoison gg.firstWord (maskOf lanes) va

end Sys2Proof.Machine
end

