-- ==== Sys2Proof/Machine/Translate.lean ====
section
/-! DEFINITION. Address translation: the page table, the walk, first-touch backing and the TLBs (spec/11 R321 to R329,
spec/09 R271 to R273, spec/12 R372). -/

namespace Sys2Proof.Machine

/-! ## Entries -/

def pteV (e : DWord) : Bool := e.getLsbD 0
def pteLeaf (e : DWord) : Bool := e.getLsbD 1
def pteReadOnly (e : DWord) : Bool := e.getLsbD 2
def pteNoExec (e : DWord) : Bool := e.getLsbD 3
def pteSc (e : DWord) : Bool := e.getLsbD 4
def pteSharedDet (e : DWord) : Bool := e.getLsbD 5
def pteFirstTouch (e : DWord) : Bool := e.getLsbD 6
def ptePeer (e : DWord) : Bool := e.getLsbD 8
def pteEncrypt (e : DWord) : Bool := e.getLsbD 9
def pteDirty (e : DWord) : Bool := e.getLsbD 11
def ptePriv (e : DWord) : Bool := e.getLsbD 12
def pteKey (e : DWord) : Nat := (e.extractLsb' 52 8).toNat
/-- FRAME, as an address. -/
def pteFrame (e : DWord) : Nat := (e.extractLsb' 16 36).toNat * 65536
/-- NEXT, as an address. -/
def pteNext (e : DWord) : Nat := (e.extractLsb' 8 44).toNat * 256

/-- Bytes that a leaf of a level maps (Table 11.2). -/
def pageSize (level : Nat) : Nat := match level with | 2 => 2 ^ 30 | 1 => 2 ^ 21 | _ => 2 ^ 16
/-- Index into the table of a level (Table 11.2). -/
def tableIndex (va level : Nat) : Nat :=
  match level with
  | 3 => nbits va 39 18
  | 2 => nbits va 30 9
  | 1 => nbits va 21 9
  | _ => nbits va 16 5
/-- Alignment of the table below an entry of a level. -/
def nextAlign (level : Nat) : Nat := if level = 1 then 256 else 4096

/-- A leaf that R325, case 4, calls malformed. -/
def leafMalformed (d : DieId) (level : Nat) (e : DWord) : Bool :=
  e.extractLsb' 60 4 != 0#4 || e.extractLsb' 13 3 != 0#3 || (level > 0 && pteFirstTouch e) ||
  pteFrame e % pageSize level != 0 || ownerOf (pteFrame e) == .unassigned ||
  (ptePeer e && ownerOf (pteFrame e) == .hbm d)

/-- A table entry that R325, case 4, calls malformed. -/
def tableMalformed (level : Nat) (e : DWord) : Bool :=
  e.extractLsb' 52 12 != 0#12 || e.extractLsb' 2 6 != 0#6 || pteNext e % nextAlign level != 0

/-- Where a walk ends (R325, cases 1 to 4), or meets a table that it cannot reach (R351). -/
inductive WalkEnd where
  | leaf (slot level : Nat) (e : DWord)
  | back (slot : Nat) (e : DWord)
  | fault (sub level : Nat)
  | down (level : Nat)
  deriving DecidableEq, Repr

def subNotPresent : Nat := 0
def subPoolEmpty : Nat := 1
def subMalformed : Nat := 2

/-- Bytes of the addresses that an entry of a level covers (Table 11.2). -/
def levelSpan (level : Nat) : Nat := match level with | 3 => 2 ^ 39 | _ => pageSize level

def WalkEntry.covers (va : Nat) (w : WalkEntry) : Bool := w.base ≤ va && va < w.base + levelSpan w.level

/-- An entry as a die's walker reads it: levels 3 to 1 through its walk caches (R327). -/
def lookEntry (m : Mem) (ws : List WalkEntry) (slot : Nat) : DWord :=
  match ws.find? fun w => w.slot == slot with
  | some w => w.entry
  | none => Mem.dword m slot

/-- The walk from the table at `base`, through the levels in the list; `up` says which addresses the die reaches. A table where
nothing lies is malformed (log 11). -/
def walkFrom (look : Nat → DWord) (up : Nat → Bool) (d : DieId) (va : Nat) : Nat → List Nat → WalkEnd
  | _, [] => .fault subMalformed 0
  | base, level :: ls =>
    let slot := base + 8 * tableIndex va level
    if ownerOf slot = .unassigned then .fault subMalformed level
    else if !up slot then .down level
    else
      let e := look slot
      if level = 0 then
        if !pteV e && pteFirstTouch e then .back slot e
        else if !pteV e then .fault subNotPresent 0
        else if !pteLeaf e || leafMalformed d 0 e then .fault subMalformed 0
        else .leaf slot 0 e
      else if pteFirstTouch e then .fault subMalformed level
      else if !pteV e then .fault subNotPresent level
      else if pteLeaf e then
        if level = 3 || leafMalformed d level e then .fault subMalformed level else .leaf slot level e
      else if tableMalformed level e then .fault subMalformed level
      else walkFrom look up d va (pteNext e) ls

/-- The table entries of levels 3 to 1 that the walk goes through. -/
def walkPath (look : Nat → DWord) (up : Nat → Bool) (va : Nat) : Nat → List Nat → List WalkEntry
  | _, [] => []
  | base, level :: ls =>
    let slot := base + 8 * tableIndex va level
    let e := look slot
    if level = 0 || ownerOf slot = .unassigned || !up slot || pteFirstTouch e || !pteV e || pteLeaf e || tableMalformed level e
    then []
    else ⟨slot, level, va / levelSpan level * levelSpan level, e⟩ :: walkPath look up va (pteNext e) ls

/-- The root table's address: bits [51:21] of PAGE_TABLE_ROOT (R322). -/
def rootOf (c : CtlRegs) : Nat := (c.pageTableRoot.extractLsb' 21 31).toNat * 2097152

/-- Whether the controllers and links that an access to a physical address needs are up (R272, R346, R351). -/
def State.reachable (s : State) (d : DieId) (pa : Nat) : Bool :=
  match ownerOf pa with
  | .hbm x => (s.die x).memUp && (x == d || !s.linksDown.contains .cdCd)
  | _ => true

/-- A table entry for a die's walker. One on a poisoned line is used, and written back, as if the line were good, and so is an entry of
the pool (R345, log 11). -/
def State.look (s : State) (d : DieId) (slot : Nat) : DWord := lookEntry s.mem (s.die d).walks slot

/-- The walker can read an entry: from its walk caches, or over links that are up (R351). -/
def State.canLook (s : State) (d : DieId) (slot : Nat) : Bool := (s.die d).walks.any (·.slot == slot) || s.reachable d slot

def State.walk (s : State) (d : DieId) (va : Nat) : WalkEnd :=
  walkFrom (s.look d) (s.canLook d) d va (rootOf (s.die d).ctl) [3, 2, 1, 0]

/-- The walk caches keep the table entries that a walk goes through. -/
def State.keepPath (s : State) (d : DieId) (va : Nat) : State :=
  let p := walkPath (s.look d) (s.canLook d) va (rootOf (s.die d).ctl) [3, 2, 1, 0]
  s.modDie d fun x => { x with walks := p.filter (fun w => !x.walks.any fun y => y.slot == w.slot) ++ x.walks }

/-! ## Permissions -/

/-- What an access asks for. -/
structure Acc3 where
  write : Bool
  fetch : Bool
  priv : Bool
  deriving DecidableEq, Repr

/-- The key slot of an encrypted page is filled on the die that owns the frame (R372). -/
def State.keyOk (s : State) (d : DieId) (e : DWord) : Bool :=
  !pteEncrypt e ||
    (match ownerOf (pteFrame e) with
     | .hbm x => (s.die x).keySlots.contains (pteKey e)
     | _ => (s.die d).keySlots.contains (pteKey e))

/-- Case 5 of R325. -/
def State.permitted (s : State) (d : DieId) (e : DWord) (a : Acc3) : Bool :=
  !(a.write && pteReadOnly e) && !(a.fetch && pteNoExec e) && (a.priv || !ptePriv e) && s.keyOk d e

/-! ## Data under context keys (R372, log 16) -/

/-- Addresses of the doublewords of a table that memory lists. -/
def liveSlots (m : Mem) (base n : Nat) : List Nat :=
  ((m.filter fun c => base ≤ c.1 && c.1 < base + 8 * n).map fun c => base + (c.1 - base) / 8 * 8).dedup

/-- The frames that leaves with ENCRYPT_CONTEXT map below a table: address, size and key slot. -/
def encFrames (m : Mem) (d : DieId) : Nat → Nat → List (Nat × Nat × Nat)
  | 0, base => (liveSlots m base 32).filterMap fun a =>
      let e := Mem.dword m a
      if pteV e && pteLeaf e && pteEncrypt e && !leafMalformed d 0 e then some (pteFrame e, 65536, pteKey e) else none
  | n + 1, base => (liveSlots m base (if n = 2 then 262144 else 512)).flatMap fun a =>
      let e := Mem.dword m a
      if !pteV e || pteFirstTouch e then []
      else if pteLeaf e then
        (if n < 2 && pteEncrypt e && !leafMalformed d (n + 1) e then [(pteFrame e, pageSize (n + 1), pteKey e)] else [])
      else if tableMalformed (n + 1) e then []
      else encFrames m d n (pteNext e)

/-- The frames that either die maps encrypted. -/
def State.encAll (s : State) : List (Nat × Nat × Nat) :=
  [DieId.cd0, DieId.cd1].flatMap fun d => encFrames s.mem d 3 (rootOf (s.die d).ctl)

/-- The key under which a leaf's data lies: a context's slot, or none for the shared key of the die. -/
def leafKey (e : DWord) : Option Nat := if pteEncrypt e then some (pteKey e) else none

/-- A line of a frame has come to differ. -/
def lineDiffers (m first : Mem) (line : Nat) : Bool := Mem.readN m (128 * line) 128 != Mem.readN first (128 * line) 128

/-- Lines of the 64 KiB frame at `base`. -/
def frameLines (base : Nat) : List Nat := (List.range 512).map (base / 128 + ·)

/-- Lines whose data lies under another key read as free bytes. -/
def scramble (tick : Nat) (lines : List Nat) (m : Mem) : Mem :=
  lines.foldl (fun m l => Mem.writeN m (128 * l) ((List.range 128).map fun i => Config.scrambled tick (128 * l + i))) m

/-- The frame at `base` of memory. -/
def Mem.frame (m : Mem) (base : Nat) : Mem := m.filter fun c => base ≤ c.1 && c.1 < base + 65536

/-- A frame's bytes put in the place of those that memory shows. -/
def Mem.putFrame (m : Mem) (base : Nat) (f : Mem) : Mem := Mem.writeN m base (Mem.readN f base 65536)

/-- What a frame holds under the keys that it is not shown under: a line written since is lost there. -/
def KeyPage.settle (p : KeyPage) (m : Mem) (tick : Nat) : List (Option Nat × Mem) :=
  let changed := (frameLines p.base).filter (lineDiffers m p.first)
  p.others.map fun o => (o.1, scramble tick changed o.2)

/-- A frame that has been shown under one key alone. -/
def KeyPage.plain (frame : Nat) (m : Mem) : KeyPage := ⟨frame, none, Mem.frame m (frame * 65536), []⟩

/-- A frame shown under a key: the bytes last shown under it, scrambled where there are none (R372, log 16). -/
def KeyPage.turn (p : KeyPage) (k : Option Nat) (m : Mem) (tick : Nat) : KeyPage :=
  let all := (p.key, Mem.frame m p.base) :: p.settle m tick
  let shown := match all.find? fun o => o.1 == k with
    | some o => o.2
    | none => scramble tick (frameLines p.base) []
  ⟨p.frame, k, shown, all.filter fun o => o.1 != k⟩

/-- Memory shows a frame of a die under another key from now on. -/
def State.turnFrame (s : State) (d : DieId) (p : KeyPage) (k : Option Nat) : State :=
  if p.key = k then s
  else
    let q := p.turn k s.mem s.tick
    { s with mem := Mem.putFrame s.mem p.base q.first }.modDie d fun x =>
      { x with keyPages := q :: x.keyPages.filter fun y => y.frame != p.frame }

/-- A span of a die's memory is used under the shared key. -/
def State.noteShared (s : State) (base n : Nat) : State :=
  match ownerOf base with
  | .hbm d => s.modDie d fun x =>
      { x with sharedSpans := if x.sharedSpans.contains (base, n) then x.sharedSpans else (base, n) :: x.sharedSpans }
  | _ => s

/-- A frame of a die that a context's key comes to for the first time. What no access has used under the shared key counts as the
context's own (log 16); else it is turned to the context's key. -/
def State.firstKey (s : State) (d : DieId) (frame slot : Nat) : State :=
  if (s.die d).sharedSpans.any fun x => x.1 < (frame + 1) * 65536 && frame * 65536 < x.1 + x.2 then
    s.turnFrame d (.plain frame s.mem) (some slot)
  else s.modDie d fun x => { x with keyPages := { KeyPage.plain frame s.mem with key := some slot } :: x.keyPages }

/-- An access at a physical address through a key: its frame is shown under that key from then on. -/
def State.useKey (s : State) (pa : Nat) (k : Option Nat) : State :=
  match ownerOf pa with
  | .hbm d =>
    match (s.die d).keyPages.find? fun p => p.frame == pa / 65536 with
    | some p => s.turnFrame d p k
    | none => match k with | none => s | some slot => s.firstKey d (pa / 65536) slot
  | _ => s

/-- A fresh frame, zeroed for a leaf: it holds its zeros under the leaf's key. -/
def State.freshKey (s : State) (base : Nat) (e : DWord) : State :=
  match ownerOf base with
  | .hbm d => s.modDie d fun x =>
      let rest := x.keyPages.filter fun p => p.frame != base / 65536
      { x with keyPages := if pteEncrypt e then ⟨base / 65536, leafKey e, [], []⟩ :: rest else rest }
  | _ => s

/-- An access of n bytes at a physical address that goes through no leaf sees the shared key. -/
def State.useShared (s : State) (pa n : Nat) : State := (s.useKey pa none).useKey (pa + n - 1) none

/-- What a slot that is emptied leaves of a frame: its bytes under the slot are lost (R372). -/
def KeyPage.lose (p : KeyPage) (slot : Nat) (m : Mem) (tick : Nat) : KeyPage :=
  let left := (p.settle m tick).filter fun o => o.1 != some slot
  if p.key = some slot then ⟨p.frame, p.key, scramble tick (frameLines p.base) [], left⟩
  else { p with first := Mem.frame m p.base, others := left }

/-- The slot of a die is emptied: what its frames hold under it is lost, and what a leaf maps under it that no access has used is no
longer the context's. -/
def State.loseKey (s : State) (d : DieId) (slot : Nat) : State :=
  let s := (s.encAll.filter fun f => ownerOf f.1 == .hbm d && f.2.2 == slot).foldl (fun s f => s.noteShared f.1 f.2.1) s
  let ps : List KeyPage := (s.die d).keyPages.map fun p => p.lose slot s.mem s.tick
  let gone : List KeyPage := ps.filter fun p => p.key == some slot
  let m : Mem := gone.foldl (fun m p => Mem.putFrame m p.base p.first) s.mem
  { s with mem := m }.modDie d fun x => { x with keyPages := ps }

/-! ## First-touch backing (R328, R329) -/

/-- Ring entries: a power of two from 1 to 2^20, any other value taken as 0, which is no pool. -/
def ringSize (v : Word) : Nat :=
  let n := v.toNat
  if n ≠ 0 ∧ n ≤ 2 ^ 20 ∧ n &&& (n - 1) = 0 then n else 0

def poolSize (c : CtlRegs) : Nat := ringSize c.poolSize

def poolBase (c : CtlRegs) : Nat := (c.poolBase.extractLsb' 12 40).toNat * 4096

/-- Take the next good entry of the ring, skipping bad ones. -/
def takePool (m : Mem) (d : DieId) (size tail : Nat) : Nat → CtlRegs → Option Nat × CtlRegs
  | 0, c => (none, c)
  | fuel + 1, c =>
    let h := c.poolHead % size
    if h = tail then (none, c)
    else
      let f := (Mem.dword m (poolBase c + 8 * h)).toNat
      let c := { c with poolHead := (h + 1) % size }
      if f % 65536 = 0 ∧ ownerOf f = .hbm d ∧ f < 2 ^ 52 then (some f, c)
      else takePool m d size tail fuel { c with badEntry := true }

/-- A frame for a backing: the held one first. -/
def State.takeFrame (s : State) (d : DieId) : Option Nat × State :=
  let c := (s.die d).ctl
  match c.spare with
  | some f => (some f, s.modCtl d fun c => { c with spare := none })
  | none =>
    let n := poolSize c
    if n = 0 then (none, s)
    else
      let (f, c') := takePool s.mem d n (c.poolTail.toNat % n) n c
      (f, s.modCtl d fun _ => c')

/-- Bytes of physical memory are written: every monitor armed on one of the lines fires (R212). -/
def fireLines (ls : List Nat) (g : Group) : Group :=
  match g.mon with
  | some m => if ls.contains m.line then { g with mon := some { m with fired := true } } else g
  | none => g

def linesOf (pa n : Nat) : List Nat := (List.range (lineOf (pa + n - 1) + 1 - lineOf pa)).map (lineOf pa + ·)

def State.writePa (s : State) (pa : Nat) (bs : List Byte) : State :=
  if bs.isEmpty then s
  else { s with mem := Mem.writeN s.mem pa bs, groups := s.groups.map (fireLines (linesOf pa bs.length)) }

/-- The walker's own update of an entry (R326). -/
def State.setEntry (s : State) (slot : Nat) (e : DWord) : State := s.writePa slot (leBytes 8 e.toNat)

/-- ACCESSED, and DIRTY for a write. -/
def touched (e : DWord) (write : Bool) : DWord := e ||| 0x400 ||| (if write then 0x800 else 0)

/-- The entry that a backing installs: V, the frame and ACCESSED are set, and DIRTY says whether the access writes. -/
def backedEntry (e : DWord) (f : Nat) (write : Bool) : DWord :=
  touched ((e &&& ~~~(0x000FFFFFFFFF0800 : DWord)) ||| dw f ||| 1) write

/-- Back the page of an entry with V = 0 and FIRST_TOUCH = 1: the new entry, or none when the pool is empty. -/
def State.backPage (s : State) (d : DieId) (slot : Nat) (e : DWord) (write : Bool) : Option DWord × State :=
  let (f, s) := s.takeFrame d
  match f with
  | none => (none, (s.modCtl d fun c => { c with emptySeen := true }).interrupt d 5)
  | some f =>
    let s := { s with mem := Mem.zero s.mem f 65536 }
    let e' := backedEntry e f write
    (some e', (s.freshKey f e').setEntry slot e')

/-- The same when the other die's walker installs its own frame first: the frame, zeroed already, is returned and held (R273,
R329). A die whose cores are held in reset makes no walk (R346). -/
def State.lostBacking (s : State) (d : DieId) (slot : Nat) (e : DWord) (write : Bool) : Option DWord × State :=
  if (s.die (otherDie d)).coresHeld then s.backPage d slot e write
  else
    let (f, s1) := s.takeFrame d
    let (w, s2) := s1.backPage (otherDie d) slot e write
    match f, w with
    | some f, some e' =>
      let e'' := touched e' write
      let s2 := { s2 with mem := Mem.zero s2.mem f 65536 }
      (some e'', (s2.modCtl d fun c => { c with spare := some f }).setEntry slot e'')
    | _, _ => s.backPage d slot e write

/-! ## TLBs and translation -/

/-- Outcome of a translation: the physical address with its leaf; a fault that parks; an unavailable peer; PROTECTION. -/
inductive Tr where
  | ok (pa : Nat) (leaf : DWord)
  | fault (sub level : Nat)
  | down (level : Nat)
  | prot
  deriving DecidableEq, Repr

def TlbEntry.hits (va : Nat) (core : Option Nat) (t : TlbEntry) : Bool :=
  t.core == core && t.base == va / pageSize t.level * pageSize t.level

/-- L1 of the core first, then the L2 (R327). -/
def findTlb (ts : List TlbEntry) (core : Option Nat) (va : Nat) : Option TlbEntry :=
  match ts.find? (TlbEntry.hits va core) with
  | some t => some t
  | none => ts.find? (TlbEntry.hits va none)

def dropPage (va : Nat) (core : Option Nat) (ts : List TlbEntry) : List TlbEntry := ts.filter fun t => !t.hits va core

/-- The newest n entries of one TLB, and the entries of the others. -/
def capTlb (core : Option Nat) : Nat → List TlbEntry → List TlbEntry
  | _, [] => []
  | n, t :: ts =>
    if t.core = core then (match n with | 0 => capTlb core 0 ts | n + 1 => t :: capTlb core n ts)
    else t :: capTlb core n ts

/-- An L1 TLB holds 256 entries, and the L2 TLB 32 slices of 1,024 (R327); the oldest makes room (log 11). -/
def fillTlb (ts : List TlbEntry) (core : Option Nat) (va level slot : Nat) (e : DWord) : List TlbEntry :=
  let base := va / pageSize level * pageSize level
  let ts := capTlb none 32768 (⟨none, base, level, e, slot⟩ :: dropPage va none ts)
  match core with
  | some c => capTlb (some c) 256 (⟨some c, base, level, e, slot⟩ :: dropPage va (some c) ts)
  | none => ts

/-- The physical address under a leaf. -/
def paOf (e : DWord) (level va : Nat) : Nat := pteFrame e / pageSize level * pageSize level + va % pageSize level

/-- The end of a translation with its leaf known. -/
def State.finishTr (s : State) (d : DieId) (va level : Nat) (e : DWord) (a : Acc3) : Tr :=
  if !s.permitted d e a then .prot
  else
    let pa := paOf e level va
    if s.reachable d pa then .ok pa e else .down level

/-- A TLB of a die takes a leaf, and the translation ends. A leaf of the shared key has its page used under it (R372). -/
def State.fillAndFinish (s : State) (d : DieId) (core : Option Nat) (va level slot : Nat) (e : DWord) (a : Acc3) : Tr × State :=
  let s := if pteEncrypt e then s else s.noteShared (pteFrame e) (pageSize level)
  let s := s.modDie d fun x => { x with tlb := fillTlb x.tlb core va level slot e }
  (s.finishTr d va level e a, s)

/-- The end of a walk that had a page backed (R329): the entry that stands then is judged again. -/
def State.walkBacked (r : Option DWord × State) (d : DieId) (core : Option Nat) (va slot : Nat) (a : Acc3) : Tr × State :=
  match r.1 with
  | none => (.fault subPoolEmpty 0, r.2)
  | some e => if !pteLeaf e || leafMalformed d 0 e then (.fault subMalformed 0, r.2) else r.2.fillAndFinish d core va 0 slot e a

/-- The end of a walk at a leaf: ACCESSED, and DIRTY for a write, where the access is permitted (R325, R326). -/
def State.walkLeaf (s : State) (d : DieId) (core : Option Nat) (va level slot : Nat) (e : DWord) (a : Acc3) : Tr × State :=
  if !s.permitted d e a then (.prot, s)
  else
    let e' := touched e a.write
    (if e' = e then s else s.setEntry slot e').fillAndFinish d core va level slot e' a

/-- The end of a walk, by what it found. -/
def State.walkEnd (s : State) (d : DieId) (core : Option Nat) (va : Nat) (a : Acc3) (lost : Bool) (found : WalkEnd) : Tr × State :=
  match found with
  | .fault sub level => (.fault sub level, s)
  | .down level => (.down level, s)
  | .back slot e => State.walkBacked (if lost then s.lostBacking d slot e a.write else s.backPage d slot e a.write) d core va slot a
  | .leaf slot level e => s.walkLeaf d core va level slot e a

/-- A walk for an access (R325, R326, R329). -/
def State.walkFor (s : State) (d : DieId) (core : Option Nat) (va : Nat) (a : Acc3) (lost : Bool) : Tr × State :=
  (s.keepPath d va).walkEnd d core va a lost (s.walk d va)

/-- The leaf of a virtual address for an access of a die, through the TLBs or by a walk; an access that a replay re-executes
walks afresh (R334). -/
def State.lookUp (s : State) (d : DieId) (core : Option Nat) (va : DWord) (a : Acc3) (afresh : Bool) : Tr × State :=
  if !canonical va then (.prot, s)
  else
    let v := (va.extractLsb' 0 57).toNat
    match (if afresh then none else findTlb (s.die d).tlb core v) with
    | some t =>
      if a.write && !pteDirty t.leaf && s.permitted d t.leaf a then s.walkFor d core v a false
      else (s.finishTr d v t.level t.leaf a, s)
    | none => s.walkFor d core v a false

/-- Translate a virtual address for an access of a die, which sees the data under the key of the leaf (R372). -/
def State.translate (s : State) (d : DieId) (core : Option Nat) (va : DWord) (a : Acc3) (afresh : Bool := false) : Tr × State :=
  match s.lookUp d core va a afresh with
  | (.ok pa leaf, s) => (.ok pa leaf, s.useKey pa (leafKey leaf))
  | r => r

/-- Translate a read without any effect: none for a line that is untranslatable or not permitted. -/
def State.probeBy (s : State) (d : DieId) (core : Option Nat) (va : DWord) (priv : Bool) (afresh : Bool := false) :
    Option (Nat × DWord) :=
  if !canonical va then none
  else
    let v := (va.extractLsb' 0 57).toNat
    let fin (level : Nat) (e : DWord) : Option (Nat × DWord) :=
      match s.finishTr d v level e ⟨false, false, priv⟩ with | .ok pa e => some (pa, e) | _ => none
    match (if afresh then none else findTlb (s.die d).tlb core v) with
    | some t => fin t.level t.leaf
    | none => match s.walk d v with | .leaf _ level e => fin level e | _ => none

def State.probe (s : State) (d : DieId) (core : Nat) (va : DWord) (priv : Bool) (afresh : Bool := false) : Option (Nat × DWord) :=
  s.probeBy d (some core) va priv afresh

/-! ## Fault records -/

/-- The record of a fault (Table 11.5). -/
def faultRec (launchId : Word) (lcore source : Nat) (va : DWord) (write : Bool) (tr : Tr) : FaultRec :=
  let (code, sub, level) := match tr with
    | .fault sub level => (0x08, sub, level)
    | .down level => (0x0D, 0, level)
    | _ => (0x08, 0, 0)
  ⟨launchId, lcore, level, 1, va.extractLsb' 16 48, code, source, sub, write, false⟩

/-- Whether a translation parks its access (R330). -/
def Tr.parks : Tr → Bool
  | .fault .. | .down _ => true
  | _ => false

/-- Whether a line among n bytes at an address is poisoned. -/
def State.poisoned (s : State) (pa n : Nat) : Bool := (linesOf pa n).any s.poison.contains

def State.readPa (s : State) (pa n : Nat) : List Byte := Mem.readN s.mem pa n

end Sys2Proof.Machine
end

