-- ==== Sys2Proof/Machine/Tx.lean ====
section
/-! DEFINITION. Transactions of a lane: dooming, the read and write logs, the commit, and the closing of a transaction
(spec/07 R215 to R225). Logs hold granules by physical address / 8 (log 25). -/

namespace Sys2Proof.Machine

/-- Whether the lane is in a transaction that the access of this gang obeys (R341). -/
def Cx.inTx (c : Cx) (l : Nat) : Bool := (c.g.lane l).tx.inTx && !c.handler

/-- Doom a lane in an undoomed transaction; the first cause stays (R216). -/
def LaneTx.doom (t : LaneTx) (cause : TxCause) (xcode : Byte) (faddr : DWord) : LaneTx :=
  if t.inTx && !t.doomed then { t with doomed := true, cause := cause, xcode := xcode, faddr := faddr } else t

def Group.modTx (g : Group) (l : Nat) (f : LaneTx → LaneTx) : Group := g.modLane l fun x => { x with tx := f x.tx }
def State.modTx (s : State) (gid l : Nat) (f : LaneTx → LaneTx) : State := s.modGroup gid fun g => g.modTx l f
def State.doom (s : State) (gid l : Nat) (cause : TxCause) (faddr : DWord) : State :=
  s.modTx gid l fun t => t.doom cause 0 faddr

/-- A forbidden group-level instruction while DEPTH > 0 dooms every undoomed lane of the gang in a transaction (R217). -/
def Group.forbid (g : Group) (gg : Gang) : Group :=
  if g.tx.depth > 0 && !g.inHandler gg then gg.lanes.foldl (fun g l => g.modTx l fun t => t.doom .forbidden 0 0) g else g

/-- A granule of the logs or of memory as a transactional load sees it (R216): the value and the lane's logs after it. -/
def txGranule (m : Mem) (k : Nat) (t : LaneTx) : DWord × LaneTx :=
  match t.wlog.find? fun e => e.1 == k with
  | some e => (e.2, t)
  | none =>
    match t.rlog.find? fun e => e.1 == k with
    | some e => (e.2, t)
    | none =>
      if t.rlog.length ≥ 32 then (0, t.doom .readLog 0 0)
      else
        let v := Mem.dword m (8 * k)
        (v, { t with rlog := t.rlog ++ [(k, v)] })

/-- The granules that n bytes at a physical address touch. -/
def granules (pa n : Nat) : List Nat := (List.range ((pa + n - 1) / 8 + 1 - pa / 8)).map (pa / 8 + ·)

/-- A transactional load of n bytes; zeros once the lane is doomed. -/
def txLoad (m : Mem) (pa n : Nat) (t : LaneTx) : List Byte × LaneTx :=
  let (bs, t) := (granules pa n).foldl (fun (acc : List Byte × LaneTx) k =>
    if acc.2.doomed then acc
    else let (v, t) := txGranule m k acc.2; (acc.1 ++ leBytes 8 v.toNat, t)) ([], t)
  if t.doomed then (List.replicate n 0, t) else ((bs.drop (pa % 8)).take n, t)

/-- Put a granule into the write log (R216). -/
def LaneTx.logWrite (t : LaneTx) (k : Nat) (v : DWord) : LaneTx :=
  if t.wlog.any fun e => e.1 == k then { t with wlog := t.wlog.map fun e => if e.1 = k then (k, v) else e }
  else if t.wlog.length ≥ 16 then t.doom .writeLog 0 0
  else { t with wlog := t.wlog ++ [(k, v)] }

/-- Bytes of a granule replaced by those of a store. -/
def mergeGranule (old : List Byte) (k pa : Nat) (bs : List Byte) : List Byte :=
  (List.range 8).map fun i =>
    if pa ≤ 8 * k + i ∧ 8 * k + i < pa + bs.length then bs.getD (8 * k + i - pa) 0 else old.getD i 0

/-- A transactional store: a partial granule is loaded first (R216). -/
def txStore (m : Mem) (pa : Nat) (bs : List Byte) (t : LaneTx) : LaneTx :=
  (granules pa bs.length).foldl (fun t k =>
    if t.doomed then t
    else
      let whole : Bool := pa ≤ 8 * k && 8 * k + 8 ≤ pa + bs.length
      let (old, t) := if whole then (0, t) else txGranule m k t
      if t.doomed then t else t.logWrite k (le64 (mergeGranule (leBytes 8 old.toNat) k pa bs))) t

/-! ## Commit (R220) -/

/-- How a commit of a lane ends. -/
inductive CommitEnd where
  | ok | conflict | memError
  deriving DecidableEq, Repr

def State.validate (s : State) (t : LaneTx) : CommitEnd :=
  if t.rlog.any fun e => s.poisoned (8 * e.1) 8 then .memError
  else if t.rlog.all fun e => Mem.dword s.mem (8 * e.1) == e.2 then .ok else .conflict

/-- Insert a granule by address. -/
def insGranule (e : Nat × DWord) : List (Nat × DWord) → List (Nat × DWord)
  | [] => [e]
  | x :: xs => if e.1 < x.1 then e :: x :: xs else x :: insGranule e xs

/-- Apply a write log in increasing address order. -/
def State.applyLog (s : State) (ws : List (Nat × DWord)) : State :=
  (ws.foldl (fun a e => insGranule e a) []).foldl (fun s e => s.writePa (8 * e.1) (leBytes 8 e.2.toNat)) s

/-! ## Closing -/

/-- A lane's transaction closed with an outcome (R215, R222). -/
def LaneTx.close (t : LaneTx) (committed locked : Bool) (cause : TxCause) (xcode : Byte) : LaneTx :=
  { t with inTx := false, nl := 0, ran := true, committed := committed, locked := locked, cause := cause, xcode := xcode }

/-- The group's record of an abort cause (R39). -/
def GroupTx.note (t : GroupTx) (cause : TxCause) : GroupTx := if cause = .none then t else { t with cause := cause }

/-- CONFLICTS after a closing `tx.end` (R223). -/
def GroupTx.count (t : GroupTx) (conflict allDone : Bool) : GroupTx :=
  if conflict then { t with conflicts := satInc 255 t.conflicts }
  else if allDone then { t with conflicts := 0 } else t

/-- Release the serial lock (R224). -/
def State.releaseLock (s : State) (d : DieId) (gid : Nat) : State :=
  if (s.die d).lockHolder = some gid then
    (s.modDie d fun x => { x with lockHolder := none }).modGroup gid fun g =>
      { g with tx := { g.tx with lockHeld := false, conflicts := 0 } }
  else s

end Sys2Proof.Machine
end

