-- ==== Sys2Proof/Machine/Access.lean ====
section
/-! DEFINITION. The one way in which a memory instruction makes its accesses to global memory: addresses (R89), tangent
shadows (R116), the checks of rank 7 (R338), translation with its parks and fault splits (R330, R18), transactional and
locked lanes (R216 to R218, R225), keyed accesses (R226), poison (R339) and long-latency results (R79 to R81). -/

namespace Sys2Proof.Machine

/-! ## Long-latency operations (R79) -/

/-- Scoreboard entry SET of the clause being issued (Table 3.1). -/
def Gang.setEntry (gg : Gang) : Nat := match gg.clause with | some c => (fld c.hdr 12 3).toNat | none => 0

/-- The operation of the gang's instruction: the one it is parked with, or a new one that waits for this gang. -/
def Cx.openOp (c : Cx) (s : State) : Nat × State :=
  match c.gg.op with
  | some k => (k, s)
  | none =>
    let (k, s) := s.fresh
    (k, s.modGroup c.g.ident.id fun g => g.addPend ⟨k, c.gg.setEntry, 1, [], []⟩)

def Group.modOp (g : Group) (op : Nat) (f : PendOp → PendOp) : Group :=
  { g with pend := g.pend.map fun o => if o.id = op then f o else o }

/-- Results that arrive for an operation; a word that a later instruction has written since is not theirs to write (R81). -/
def PendOp.add (ws : List (Tgt × DWord)) (o : PendOp) : PendOp :=
  { o with writes := o.writes ++ o.dead.foldl (fun ws hit => dropWrites hit ws) ws }

/-- Results for the operation to deliver. -/
def Group.addWrites (g : Group) (op : Nat) (ws : List (Tgt × DWord)) : Group := g.modOp op (·.add ws)
/-- One party of the operation has performed its part. -/
def Group.opPart (g : Group) (op : Nat) : Group := g.modOp op fun o => { o with waiting := o.waiting - 1 }

/-- An operation of an instruction that completes at once with its results (R79). -/
def Cx.result (c : Cx) (s : State) (ws : List (Tgt × DWord)) : State :=
  let (k, s) := c.openOp s
  s.modGroup c.g.ident.id fun g => (g.addWrites k ws).opPart k

/-- Targets of n registers of a lane from `r`: the register words, and after them the glove words that are cleared (R111). -/
def Group.vTgts (g : Group) (lane r n : Nat) : List Tgt :=
  (List.range n).map (fun i => .vreg lane (r + i)) ++
  (List.range n).flatMap fun i =>
    if r + i < g.ident.dw then (List.range (1 + g.ident.k)).map fun j => .glove lane (r + i) j else []

/-- A scalar destination: `em` in the gang's lanes alone (R30). -/
def Gang.sTgt (gg : Gang) (n : Nat) : Tgt := .sreg n (if n = 63 then zx64 gg.mask else BitVec.allOnes 64)

/-- Value of the bytes of a narrow load, extended to 64 bits (R195). -/
def extBytes (sx : Bool) (bs : List Byte) : DWord :=
  let v := leNat bs
  let w := 8 * bs.length
  if sx && w < 64 && v.testBit (w - 1) then dw (v + 2 ^ 64 - 2 ^ w) else dw v

/-- Bytes word by word into targets; targets past the bytes receive zero. -/
def wordWrites : List Tgt → List Byte → List (Tgt × DWord)
  | [], _ => []
  | t :: ts, bs => (t, zx64 (le32 bs)) :: wordWrites ts (bs.drop 4)

/-- The writes of a load (R195). -/
def loadWrites (sx : Bool) (ts : List Tgt) (bs : List Byte) : List (Tgt × DWord) :=
  match ts with
  | .sreg n m :: _ => [(.sreg n m, extBytes sx bs)]
  | t :: ts => if bs.length < 4 then (t, extBytes sx bs) :: ts.map fun t => (t, 0) else wordWrites (t :: ts) bs
  | [] => []

/-! ## Requests -/

/-- What a sub-access does. -/
inductive MAct where
  | load (sx : Bool) (tgts : List Tgt)
  | act (k : KeyAct)
  deriving DecidableEq, Repr

def MAct.isWrite : MAct → Bool | .load .. => false | .act _ => true
def MAct.isStore : MAct → Bool | .act (.store _) => true | _ => false

/-- One access to global memory: n bytes at a virtual address. -/
structure Sub where
  va : DWord
  n : Nat
  act : MAct
  deriving DecidableEq, Repr

/-- What a lane asks for, or the group with `lane` none: its access, and its tangent shadows. -/
structure Req where
  lane : Option Nat
  subs : List Sub
  deriving DecidableEq, Repr

/-- The tangent span that holds an address (R115). -/
def Cx.span (c : Cx) (a : DWord) : Option (DWord × DWord × DWord) :=
  c.l.spans.find? fun t => t.1.toNat ≤ a.toNat && a.toNat < t.1.toNat + t.2.1.toNat

/-- Addresses of the shadows of n registers from `r` (R116): register offset, component, address. -/
def Cx.shadows (c : Cx) (r n bytes : Nat) (a : DWord) : List (Nat × Nat × DWord) :=
  let dk := min (dkCount (fmtDk c.gg.fmt)) c.g.ident.k
  if fmtIdl c.gg.fmt && 4 ≤ bytes then
    match c.span a with
    | some (_, _, stride) =>
      (List.range n).flatMap fun i =>
        if r + i < c.g.ident.dw then
          (List.range dk).map fun k => (i, k, a + dw (4 * i) + stride * dw (k + 1))
        else []
    | none => []
  else []

/-! ## Addresses (R89) -/

/-- The offset operand of a lane: a register, a latch or none. -/
def Cx.offset (c : Cx) (vo lane : Nat) : DWord :=
  if vo < 120 then sx64 ((c.g.lane lane).vreg vo)
  else if vo < 123 then sx64 ((c.g.lane lane).latch c.s.tick lane (vo - 120))
  else 0

/-- The address of a lane before swizzling, with immediate `imm`. -/
def Cx.laneAddr (c : Cx) (m : MForm) (imm : DWord) (lane : Nat) : DWord :=
  c.g.readS m.sb.toNat + (c.offset m.vo.toNat lane <<< m.iscale.toNat) + imm

def imm16 (m : MForm) : DWord := sx64 m.imm16
/-- IMM12 of an atomic (Table 3.6). -/
def imm12 (m : MForm) : DWord := sx64 (m.imm16.extractLsb' 0 12)

/-- Ranks 3 and 4 of a memory instruction: n vector registers from VD (none for 0), the offset register, SB, and the scalar
registers named beside it. -/
def Cx.mCheck (c : Cx) (ok : Bool) (m : MForm) (n : Nat) (sregs : List Nat) : Except Tq Unit := do
  need (ok && c.gg.pfx.isEmpty) .illegalOperand
  need (c.sregsOk (m.sb.toNat :: sregs) && (n == 0 || m.vd.toNat + n ≤ c.g.ident.nr) &&
    (m.vo.toNat ≥ 120 || m.vo.toNat < c.g.ident.nr)) .regRange

/-- The same for an instruction that has no address, and so names neither SB nor an offset register (R193). -/
def Cx.bareCheck (c : Cx) (ok : Bool) (m : MForm) (n : Nat) (sregs : List Nat) : Except Tq Unit := do
  need (ok && c.gg.pfx.isEmpty) .illegalOperand
  need (c.sregsOk sregs && (n == 0 || m.vd.toNat + n ≤ c.g.ident.nr)) .regRange

/-- A trap of lanes at rank 7, with the address of the lowest of them. -/
def laneTrap (t : Trap) (bad : List (Nat × DWord)) : Tq :=
  { code := t, lanes := maskOf (bad.map (·.1)), addr := (bad.head?.map (·.2)).getD 0 }

/-! ## Performing an access -/

/-- An indivisible access performed at a physical address: the state, and what it returns (R207 to R209). A compare that fails writes
nothing, and so fires no monitor (R212, log 50). -/
def State.doAct (s : State) (pa : Nat) (k : KeyAct) : State × List (Tgt × DWord) :=
  match k with
  | .atom atop w64 b ret =>
    let n := if w64 then 8 else 4
    let o := leNat (s.readPa pa n)
    (s.writePa pa (leBytes n (atomNew atop w64 o (b.toNat % 2 ^ (8 * n)))), loadWrites false (ret.getD []) (leBytes n o))
  | .cas w64 cmp new ret =>
    let n := if w64 then 8 else 4
    let o := leNat (s.readPa pa n)
    (if o = cmp.toNat % 2 ^ (8 * n) then s.writePa pa (leBytes n new.toNat) else s, loadWrites false ret (leBytes n o))
  | .store bs => (s.writePa pa bs, [])
  | .commit => (s, [])

/-- Bytes that a keyed action touches. -/
def KeyAct.size : KeyAct → Nat
  | .atom _ w64 _ _ | .cas w64 _ _ _ => if w64 then 8 else 4
  | .store bs => bs.length
  | .commit => 0

/-- A sub-access with its physical address. -/
structure Piece where
  lane : Option Nat
  sub : Sub
  pa : Nat
  shared : Bool
  sc : Bool
  deriving DecidableEq, Repr

def Piece.overlaps (p q : Piece) : Bool := p.pa < q.pa + q.sub.n && q.pa < p.pa + p.sub.n

/-- What performing gave: the state, the results, and the lanes that met poison. -/
structure Perf where
  s : State
  ws : List (Tgt × DWord)
  bad : List (Option Nat × DWord)

/-- Perform the pieces of one lane: none of them where one lies on a poisoned line (R339). -/
def Perf.lane (r : Perf) (ps : List Piece) : Perf :=
  match ps.find? fun p => r.s.poisoned p.pa p.sub.n with
  | some p => { r with bad := r.bad ++ [(p.lane, p.sub.va)] }
  | none =>
    ps.foldl (fun r p =>
      match p.sub.act with
      | .load sx ts => { r with ws := r.ws ++ loadWrites sx ts (r.s.readPa p.pa p.sub.n) }
      | .act k => let (s, ws) := r.s.doAct p.pa k; { r with s := s, ws := r.ws ++ ws }) r

/-- A free order of a list (log 22). -/
def freeOrder {α : Type} (tick : Nat) : Nat → List α → List α
  | 0, _ => []
  | n + 1, xs =>
    let i := freeIndex (Config.freeNat tick n) xs.length
    match xs[i]? with
    | some x => x :: freeOrder tick n (xs.eraseIdx i)
    | none => xs

/-- Whether the order of two lanes' pieces can be seen: common bytes, and one of them writes. -/
def clash (a b : List Piece) : Bool :=
  a.any fun p => b.any fun q => p.overlaps q && (p.sub.act.isWrite || q.sub.act.isWrite)

def anyClash : List (List Piece) → Bool
  | [] => false
  | p :: ps => ps.any (clash p) || anyClash ps

/-- Lane b comes before lane a in a deterministic launch: an order of the lanes that no timing and no fault changes (R288, log 22). -/
def laneAfter (a b : Nat) : Bool :=
  Config.laneRank b < Config.laneRank a || (Config.laneRank a == Config.laneRank b && b < a)

/-- Put x into a list in the order of the lanes. -/
def insLane {α : Type} (lane : α → Nat) (x : α) : List α → List α
  | [] => [x]
  | y :: ys => if laneAfter (lane y) (lane x) then x :: y :: ys else y :: insLane lane x ys

/-- The order of lanes where it can be seen: a free one, and in a deterministic launch the fixed one. -/
def orderLanes {α : Type} (lane : α → Nat) (tick : Nat) (det : Bool) (xs : List α) : List α :=
  if det then xs.foldl (fun ys x => insLane lane x ys) [] else freeOrder tick xs.length xs

/-- The lanes of one instruction are mutually unordered (R196, R275, log 22). -/
def laneOrder (tick : Nat) (det : Bool) (ps : List (List Piece)) : List (List Piece) :=
  if anyClash ps then orderLanes (fun p => ((p.head?.bind (·.lane)).getD 0)) tick det ps else ps

/-! ## Stores of the slices of a split set (R18, R288, log 22) -/

/-- The byte lies among those of a store. -/
def SplitStore.covers (e : SplitStore) : Nat ⊕ Place → Bool
  | .inl b => match e.start with | .inl a => a ≤ b && b < a + e.n | .inr _ => false
  | .inr q => match e.start with | .inr p => p.same q && p.off ≤ q.off && q.off < p.off + e.n | .inl _ => false

/-- In a deterministic launch, a byte that a lane of the split set has stored at this same instruction, and whose lane comes after
`lane`, keeps that value: the slices may issue it at different times. -/
def Cx.outranked (c : Cx) (lane : Nat) (b : Nat ⊕ Place) : Bool :=
  c.l.hdr.det && c.g.splitStores.any fun e =>
    c.gg.split == some e.split && e.pc == c.gg.pc && laneAfter e.lane lane && e.covers b

/-- The bytes of a store, with what memory holds where they are outranked. -/
def Cx.storeBytes (c : Cx) (s : State) (lane pa : Nat) (bs : List Byte) : List Byte :=
  bs.zipIdx.map fun b => if c.outranked lane (.inl (pa + b.2)) then Mem.read s.mem (pa + b.2) else b.1

/-- A piece as its lane performs it now. -/
def Cx.ranked (c : Cx) (s : State) (p : Piece) : Piece :=
  match p.lane, p.sub.act with
  | some l, .act (.store bs) =>
    if c.g.splitStores.isEmpty then p else { p with sub := { p.sub with act := .act (.store (c.storeBytes s l p.pa bs)) } }
  | _, _ => p

/-- What the slices that have stored leave for the others of their split set. -/
def Cx.noteStores (c : Cx) (split : Option Nat) (es : List (Nat × (Nat ⊕ Place) × Nat)) (s : State) : State :=
  match split with
  | some k =>
    if c.l.hdr.det then
      s.modGroup c.g.ident.id fun g =>
        { g with splitStores := g.splitStores ++ es.map fun e => ⟨k, c.gg.pc, e.1, e.2.1, e.2.2⟩ }
    else s
  | none => s

/-! ## Transactional lanes (R216 to R218) -/

/-- The access of an undoomed transactional lane; false once it has doomed the lane. -/
def Cx.txSub (c : Cx) (l : Nat) (b : Sub) (s : State) : List (Tgt × DWord) × State :=
  let gid := c.g.ident.id
  let zeros := match b.act with | .load sx ts => loadWrites sx ts (List.replicate b.n 0) | .act _ => []
  let doom (s : State) (cause : TxCause) (a : DWord) : List (Tgt × DWord) × State := (zeros, s.doom gid l cause a)
  let t : LaneTx := (((s.group? gid).map fun (g : Group) => g.lane l).getD Lane.blank).tx
  if t.doomed then (zeros, s)
  else if b.va.toNat % b.n != 0 then doom s .fault b.va
  else
    match s.translate c.die (some c.t.core) b.va ⟨b.act.isWrite, false, c.priv⟩ c.gg.afresh with
    | (.ok pa _, s) =>
      if ownerOf pa != Owner.hbm c.die then doom s .forbidden 0
      else if s.poisoned pa b.n then doom s .fault b.va
      else
        match b.act with
        | .load sx ts =>
          let (bs, t) := txLoad s.mem pa b.n t
          (loadWrites sx ts bs, s.modTx gid l fun _ => t)
        | .act (.store bs) => ([], s.modTx gid l fun _ => txStore s.mem pa bs t)
        | .act _ => ([], s)
    | (_, s) => doom s .fault b.va

/-- All accesses of a transactional lane; a forbidden one is not performed and dooms it (R217). -/
def Cx.txReq (c : Cx) (forbidden : Bool) (r : Req) (ws : List (Tgt × DWord)) (s : State) :
    List (Tgt × DWord) × State :=
  match r.lane with
  | none => (ws, s)
  | some l =>
    let s := if forbidden then s.doom c.g.ident.id l .forbidden 0 else s
    r.subs.foldl (fun acc b => let (w, s) := c.txSub l b acc.2; (acc.1 ++ w, s)) (ws, s)

/-! ## Translation of the other lanes -/

/-- Translate every sub-access of the requests. -/
def Cx.trReqs (c : Cx) (rs : List Req) (s : State) : List (Req × List (Sub × Tr)) × State :=
  rs.foldl (fun acc r =>
    let (ts, s) := r.subs.foldl (fun (a : List (Sub × Tr) × State) b =>
      let (t, s) := a.2.translate c.die (some c.t.core) b.va ⟨b.act.isWrite, false, c.priv⟩ c.gg.afresh
      (a.1 ++ [(b, t)], s)) ([], acc.2)
    (acc.1 ++ [(r, ts)], s)) ([], s)

/-- Pieces of a request whose translations succeeded. -/
def piecesOf (r : Req) (ts : List (Sub × Tr)) : List Piece :=
  ts.filterMap fun t => match t.2 with
    | .ok pa leaf => some ⟨r.lane, t.1, pa, pteSharedDet leaf, pteSc leaf⟩
    | _ => none

/-- Offer the faults of an instruction of the gang: once for each page and outcome, since its slices join one walk (R331, R386,
log 40). -/
def Cx.offerFaults (c : Cx) (ts : List (Sub × Tr)) (s : State) : State :=
  let recs := ts.filterMap fun t =>
    if t.2.parks then some (faultRec c.l.launchId c.t.core 0 t.1.va t.1.act.isWrite t.2) else none
  recs.eraseDups.foldl (fun s r => s.offerFault c.die r c.gg.afresh) s

/-! ## Lines that an engine has registered (R258) -/

/-- The destination of word w of a copy command, physical. -/
def CopyCmd.dstPa (k : CopyCmd) (w : Nat) : Option Nat :=
  (k.dstPage w).map fun e => e.pa + (k.wordVa k.dst k.dpitch w).toNat % 65536

/-- Lines registered and not yet written; `keyed` asks for those of keyed words too (R263). -/
def CopyCmd.linesOf (k : CopyCmd) (keyed : Bool) : List Nat :=
  if k.dmap.isEmpty then []
  else ((k.todo.filter fun w => keyed || !(k.dstPage w).any (·.keyed)).filterMap k.dstPa).map lineOf

/-! ### What a collective is still to touch (R258, R264, R283) -/

/-- Bytes of an element of a TYPE (Table 8.7). -/
def collBytes (type : Nat) : Nat := match type with | 1 => 2 | 2 | 5 | 6 => 8 | _ => 4

/-- A descriptor is legal (R265). -/
def collLegal (b : List Byte) : Bool :=
  let at' (i n : Nat) : Nat := leNat ((b.drop i).take n)
  let op := at' 24 1
  let type := at' 25 1
  op ≤ 3 && type ≤ 6 && (op == 3) == (type == 6) && 1 ≤ at' 16 8 && at' 16 8 ≤ 2 ^ 32 && at' 26 2 < 4096 &&
  at' 28 4 == 0 && at' 40 24 == 0

/-- The spans that it reads, its DST, and its EVENT word. -/
structure CollLeft where
  reads : List (DWord × Nat)
  dst : Option (DWord × Nat)
  event : Option DWord

/-- What a `coll.start` is still to touch: until the engine has read the descriptor, as the descriptor stands (log 43). -/
def State.collLeft (s : State) (d : DieId) (k : CopyCmd) : CollLeft :=
  let word (a : DWord) : Option DWord := if a = 0 then none else some a
  match s.colls.find? fun x => x.cmd == k.id with
  | some x =>
    let n := x.count * collBytes x.type
    let on := x.failed.isNone
    ⟨if on && x.stage == 0 then [(x.src, n)] else [], if on && x.stage < 2 then some (x.dst, n) else none, word x.event⟩
  | none =>
    match s.probeBy d none k.src k.priv with
    | none => ⟨[(k.src, 64)], none, none⟩
    | some (pa, _) =>
      let b := s.readPa pa 64
      let at' (i n : Nat) : Nat := leNat ((b.drop i).take n)
      let n := at' 16 8 * collBytes (at' 25 1)
      if collLegal b then ⟨[(k.src, 64), (dw (at' 0 8), n)], some (dw (at' 8 8), n), word (dw (at' 32 8))⟩
      else ⟨[(k.src, 64)], none, word (dw (at' 32 8))⟩

/-- The parts of n bytes from an address that lie in one 64 KiB page each. -/
def spanParts (va : DWord) (n : Nat) : List (DWord × Nat) :=
  let o := va.toNat % 65536
  if n = 0 then []
  else (List.range ((o + n - 1) / 65536 + 1)).map fun i =>
    let lo := i * 65536 - o
    (va + dw lo, min n ((i + 1) * 65536 - o) - lo)

/-- Lines of a span, as far as it is mapped. -/
def State.spanLines (s : State) (d : DieId) (priv : Bool) (va : DWord) (n : Nat) : List Nat :=
  (spanParts va n).flatMap fun p => match s.probeBy d none p.1 priv with
    | some (pa, _) => linesOf pa p.2
    | none => []

/-- Lines that a collective is still to write. -/
def State.collLines (s : State) (g : Group) (k : CopyCmd) : List Nat :=
  if k.kind == .coll then
    match s.team? g.ident.team with
    | some t => (s.collLeft t.die k).dst.toList.flatMap fun x => s.spanLines t.die k.priv x.1 x.2
    | none => []
  else []

/-- Lines that a command is still to write. -/
def State.cmdLines (s : State) (g : Group) (k : CopyCmd) : List Nat := k.linesOf true ++ s.collLines g k

def State.engineLines (s : State) : List Nat := s.groups.flatMap fun g => g.cmds.flatMap (s.cmdLines g)

/-- Lines registered by commands that issued before the number `n`: an engine's own accesses wait for them too (R258, R283), but a
collective not for those of the other ranks of its match (log 43). -/
def State.linesBefore (s : State) (n : Nat) (but : List Nat := []) : List Nat :=
  s.groups.flatMap fun g => (g.cmds.filter fun k => k.id < n && !but.contains k.id).flatMap (s.cmdLines g)

/-- Lines that a keyed access or a commit of a group waits for, with its number: not those of the group's later commands, which follow
it, nor of keyed words, which the key orders (R226, R258, R263). -/
def State.linesFor (s : State) (gid n : Nat) : List Nat :=
  s.groups.flatMap fun g => (g.cmds.filter fun k => g.ident.id != gid || k.id < n).flatMap fun k =>
    k.linesOf false ++ s.collLines g k

/-- Lines that the collectives issued before the number `n` are still to write. -/
def State.collsBefore (s : State) (n : Nat) : List Nat :=
  s.groups.flatMap fun g => (g.cmds.filter fun k => k.id < n).flatMap (s.collLines g)

/-- Lines of other packages and of the host that a command of the group is still to write (R286). -/
def Cx.farLines (c : Cx) (k : CopyCmd) : List Nat :=
  (c.s.cmdLines c.g k).filter fun l => ownerOf (128 * l) == .remote || ownerOf (128 * l) == .host
def Cx.farLeft (c : Cx) : List Nat := c.g.cmds.flatMap c.farLines

/-! ### Accesses of the group's engines to SC pages (R282) -/

/-- The source of word w lies on an SC page, as its translation stands. -/
def Cx.srcSc (c : Cx) (k : CopyCmd) (w : Nat) : Bool :=
  (k.kind == .gather || (!k.sspad && [CopyKind.load, .store, .xfer].contains k.kind)) &&
  (c.s.probe c.die c.t.core (k.srcVa w) k.priv).any fun x => pteSc x.2

/-- Word w reads or writes an SC page. -/
def Cx.scWord (c : Cx) (k : CopyCmd) (w : Nat) : Bool := (k.dstPage w).any (·.sc) || c.srcSc k w

/-- A span touches an SC page. -/
def Cx.scSpan (c : Cx) (priv : Bool) (va : DWord) (n : Nat) : Bool :=
  (spanParts va n).any fun p => (c.s.probeBy c.die none p.1 priv).any fun x => pteSc x.2

/-- A collective is still to touch an SC page. -/
def Cx.scColl (c : Cx) (k : CopyCmd) : Bool :=
  k.kind == .coll &&
    (let x := c.s.collLeft c.die k
     (x.reads ++ x.dst.toList ++ (x.event.map fun a => (a, 8)).toList).any fun y => c.scSpan k.priv y.1 y.2)

/-- The command has accesses to SC pages left to make. -/
def Cx.scLeft (c : Cx) (k : CopyCmd) : Bool := k.todo.any (c.scWord k) || c.scColl k

/-- An event word that an engine adds to lies on an SC page. -/
def Cx.scEvent (c : Cx) (a : DWord) : Bool := (c.s.probe c.die c.t.core a c.l.priv).any fun x => pteSc x.2

/-- Additions that are deferred, and batches with an event word: those on SC pages that `adds` and `batches` name. -/
def Cx.scAdds (c : Cx) (adds : EvtAdd → Bool) (batches : Batch → Bool) : Bool :=
  (c.g.adds.any fun a => adds a && c.scEvent a.addr) ||
  c.g.batches.any fun b => !b.complete && batches b && b.evt.any c.scEvent

/-- The group's engines are still to make an access to an SC page. -/
def Cx.scBusy (c : Cx) : Bool := c.g.cmds.any c.scLeft || c.scAdds (fun _ => true) fun _ => true

/-! ### Numbers of batches (R261, R262) -/

/-- The number after a batch: 1 after the last. -/
def nextBatch (n : Nat) : Nat := if n ≥ 0xFFFFFFFF then 1 else n + 1
/-- The distance forward from batch b to batch n (R262). -/
def batchDist (b n : Nat) : Nat := (n + 0xFFFFFFFF - b) % 0xFFFFFFFF
/-- Batch b is at or before batch n. -/
def batchUpTo (b n : Nat) : Bool := batchDist b n < 2147483648

/-- Batch b was closed before the batch n. -/
def batchBefore (b n : Nat) : Bool := b != n && batchUpTo b n

/-- Accesses to SC pages that the group issued before a command are still to be made by its engines. -/
def Cx.scBefore (c : Cx) (k : CopyCmd) : Bool :=
  (c.g.cmds.any fun x => x.id < k.id && c.scLeft x) ||
  c.scAdds (fun a => a.num < k.id) fun b => batchBefore b.num k.batch

/-! ## Splitting a gang (R18) -/

/-- Part of the gang parks: the slices of `parked` become a gang of their own, in the split set, with what they are to access.
A pending poison goes with the slices that met it, and one that both parts met stays with those that continue. -/
def Cx.splitGang (c : Cx) (parked : List Nat) (op : Option Nat) (acc : List ParkedAcc) (order : Nat) (s : State) : Nat × State :=
  let (sid, s) := match c.gg.split with | some k => (k, s) | none => s.fresh
  let (gid, s) := s.fresh
  let rest := c.gg.slices.filter fun j => !parked.contains j
  let stays (e : DWord × Word × DWord) : Bool := e.2.1 == 0 || e.2.1 &&& maskOf (rest.flatMap lanesOfSlice) != 0
  (sid, s.modGroup c.g.ident.id fun g =>
    let g := g.modGang c.gg.id fun x => { x with slices := rest, split := some sid, poison := x.poison.filter stays }
    { g with gangs := g.gangs ++
        [{ c.gg with
            id := gid, slices := parked, park := some (.fault false), split := some sid, op := op, age := 0, bypassed := 0
            poison := c.gg.poison.filter fun e => !stays e, parked := acc, parkedOrder := order }] })

/-! ## The order of a split set (R18, R275, R330, log 47) -/

/-- Memory instructions of a lane whose accesses other slices can meet. -/
def isLaneMem (op : Nat) : Bool := [0x80, 0x81, 0x82, 0x83, 0x88, 0x89, 0x8A, 0x97, 0x98].contains op

/-- The gang stands at an earlier instruction of its split set than `gg`. -/
def Gang.behind (x gg : Gang) : Bool := gg.split.isSome && x.split == gg.split && x.id != gg.id && x.pc.toNat < gg.pc.toNat

/-- Opcodes of the instructions from the gang's own up to an address; none where it lies in another clause. -/
def Gang.opsTo (x : Gang) (c : Option Clause) (pc : DWord) : Option (List Nat) :=
  if x.clause.isSome && x.clause == c then
    let n := (pc - x.pc).toNat / 4
    some (opsOf n (x.restWords.take n))
  else none

def ParkedAcc.overlaps (a b : ParkedAcc) : Bool :=
  (a.va.toNat < b.va.toNat + b.n && b.va.toNat < a.va.toNat + a.n) ||
  match a.pa, b.pa with
  | some p, some q => p < q + b.n && q < p + a.n
  | _, _ => false

/-- What `x` is parked on comes before an access at bytes `acc`: a common byte, an acquire, a release after it, or an SC page. -/
def Gang.holdsBack (x : Gang) (acc : List ParkedAcc) (rel sc : Bool) : Bool :=
  rel || sc || x.parkedOrder % 2 == 1 || x.parked.any fun a => acc.any a.overlaps

/-- The access of `gg` at bytes `acc` must follow one that `x` is still to make: one that it is parked on, or a memory instruction
that it has not yet issued. -/
def Gang.mustFollow (gg x : Gang) (acc : List ParkedAcc) (rel sc : Bool) : Bool :=
  match x.opsTo gg.clause gg.pc with
  | none => true
  | some ops =>
    ops.tail.any isLaneMem ||
    (if x.parked.isEmpty then ops.head?.any isLaneMem
     else x.holdsBack acc rel sc)

/-- Gangs of the split set from which the group's handler was entered that are parked on a fault: their accesses come before those
of the handler (R275, R334). -/
def Group.parkedBefore (g : Group) : List Gang :=
  match g.handler with
  | some h => g.gangs.filter fun x => h.split.isSome && x.split == h.split && !x.parked.isEmpty
  | none => []

/-- Slices of the gang's split set, or of the set from which its handler was entered, hold back its access. -/
def Cx.heldBack (c : Cx) (acc : List ParkedAcc) (rel sc : Bool) : Bool :=
  (c.gg.split.isSome && c.g.gangs.any fun x => x.behind c.gg && c.gg.mustFollow x acc rel sc) ||
  (c.handler && c.g.parkedBefore.any fun x => x.holdsBack acc rel sc)

/-- A handler's split set is parked on accesses. -/
def Cx.parkedHeld (c : Cx) : Bool := c.handler && !c.g.parkedBefore.isEmpty
/-- Crew operations that the group has had accepted are still to make accesses, which are the member's (R253). -/
def Cx.crewLeft (c : Cx) : Bool := c.s.crewOps.any fun o => o.members.contains c.g.ident.id
/-- None of those that were accepted before the number `n` is left. -/
def Cx.crewBefore (c : Cx) (n : Nat) : Bool := c.s.crewOps.all fun o => n ≤ o.id || !o.members.contains c.g.ident.id

/-- A release waits for the accesses that its handler's split set is parked on, and for those of the group's crew operations (R253, R275,
R278, log 47). -/
def Cx.releaseHeld (c : Cx) : Bool := c.parkedHeld || c.crewLeft
def Cx.releaseWait (c : Cx) : Wait := if c.parkedHeld then .behind else .crewDrain

/-- What the group has issued before the number n and holds back still: keyed accesses, and the commits of a `tx.end` (R221, R258). -/
def Group.settledBefore (g : Group) (n : Nat) : Bool := (g.keyq.all fun a => n < a.num) && g.tx.close.all fun x => n < x.op

/-- Scopes that reach the other compute die (Table 3.7). -/
def packageScope (scope : Nat) : Bool := 4 ≤ scope

/-- A release of package scope or wider crosses the link between the compute dies; while it is down the gang parks at it with
CODE 0x0D (R351, log 48). -/
def Cx.linkHolds (c : Cx) (release : Bool) (scope : Nat) : Bool :=
  release && packageScope scope && c.s.linksDown.contains .cdCd
def Cx.offerLink (c : Cx) (va : DWord) (write : Bool) (s : State) : State :=
  s.offerFault c.die (faultRec c.l.launchId c.t.core 0 va write (.down 0)) c.gg.afresh
def Cx.parkLink (c : Cx) (va : DWord) (write : Bool) : Res := { c with s := c.offerLink va write c.s }.park (.fault false)

/-- Keyed accesses that wait and come before the gang's instruction. -/
def Cx.keyAhead (c : Cx) : List KeyedAcc :=
  c.g.keyq.filter fun a => !(c.gg.split.isSome && a.split == c.gg.split && c.gg.pc.toNat ≤ a.pc.toNat)

/-- What a plain load of the scratchpad waits for: the commits of a `tx.end`, an acquire or fence that waits for the key, and an
acquire that slices of its split set are parked on (R221, R275, R278). -/
def Cx.loadWait (c : Cx) : Option Wait :=
  if c.g.tx.close.isSome then some .commit
  else if c.keyAhead.any (·.barred) then some .keyed
  else if c.heldBack [] false false then some .behind
  else none

/-- An access of an engine waits for a replay. -/
def State.engineParked (s : State) : Bool := (s.groups.any fun g => g.cmds.any (·.wait == .waits)) || s.colls.any (·.wait == .waits)

/-- The group's first keyed access, and what is behind it, can be performed only after a replay: it is parked itself, it stays behind
accesses that the handler's split set is parked on, or it waits for the line of an engine command that a replay is to release (R334,
log 47). -/
def Cx.replayStuck (c : Cx) : Bool :=
  (c.g.keyq.head?.any fun a =>
    a.wait == .waits || (c.handler && c.g.keyedBehind a) ||
    (a.act != .commit && c.s.engineParked &&
      (linesOf a.pa a.act.size).any (c.s.linesFor c.g.ident.id a.num).contains)) ||
  c.g.tx.close.any fun x =>
    c.s.engineParked && x.todo.any fun l =>
      let t := (c.g.lane l).tx
      (t.rlog ++ t.wlog).any fun e => (c.s.linesFor c.g.ident.id x.op).contains (lineOf (8 * e.1))

/-- The release of a replay covers keyed accesses, but not those that only a replay can release. -/
def Cx.replayWaits (c : Cx) : Bool := !c.keyAhead.isEmpty && !c.replayStuck

/-- The poison met by lanes of the instruction (R339). -/
def Cx.notePoison (c : Cx) (gang : Nat) (bad : List (Option Nat × DWord)) (s : State) : State :=
  match bad with
  | [] => s
  | (_, va) :: _ =>
    s.modGroup c.g.ident.id fun g =>
      g.modGang gang fun x => x.setPoison c.gg.firstWord (maskOf (bad.filterMap (·.1))) va

/-- Keep the accesses that the key orders, in issue order (R226); `split` is the split set that the gang is in. -/
def Cx.keepKeyed (c : Cx) (op split : Option Nat) (order : Nat) (ps : List Piece) (s : State) : State :=
  s.modGroup c.g.ident.id fun g =>
    let acc (p : Piece) : Option KeyedAcc :=
      match p.sub.act with
      | .act k => some ⟨g.round, p.lane.getD (32 + c.gg.slices.headD 0), c.gg.firstWord, split, s.nextId, order % 2 == 1, p.sc, op,
          p.sub.va, p.pa, k, .none⟩
      | .load .. => none
    let g := { g with keyq := (ps.filterMap acc).foldl (fun q a => insKeyed a q) g.keyq }
    match op with
    | some k => g.modOp k fun o => { o with waiting := o.waiting + ps.length }
    | none => g

/-! ## The access of a whole instruction -/

/-- How an instruction goes about its accesses: whether it returns results, is an atomic or reduction, and its SCOPE and
ORDER. -/
structure MKind where
  ret : Bool
  atomic : Bool := false
  scope : Nat := 0
  order : Nat := 0

/-- A lane in a transaction under the lock (R225). -/
def Cx.underLock (c : Cx) (r : Req) : Bool := c.g.tx.lockHeld && r.lane.any c.inTx
def Cx.isTx (c : Cx) (r : Req) : Bool := !c.g.tx.lockHeld && r.lane.any c.inTx
def Cx.isDoomed (c : Cx) (r : Req) : Bool := r.lane.any fun l => (c.g.lane l).tx.doomed

/-- Slices of the gang that hold a lane of the list. -/
def Gang.slicesWith (gg : Gang) (ls : List Nat) : List Nat := gg.slices.filter fun j => ls.any fun l => l / 4 == j

/-- Whether the access is keyed (R226, R341). -/
def Cx.keyedPiece (c : Cx) (k : MKind) (p : Piece) : Bool :=
  c.l.hdr.det && !c.handler && !(p.lane.any c.inTx) && (k.atomic || (p.sub.act.isStore && p.shared))

/-- Perform what does not park: the pieces of plain lanes, then the transactional lanes; `split` is the split set of a gang that
part of which has parked. -/
def Cx.performAll (c : Cx) (k : MKind) (op : Option Nat) (split : Option Nat) (plain : List (List Piece)) (txs : List Req)
    (zeros : List (Tgt × DWord)) (s : State) : State :=
  let gid := c.g.ident.id
  let keyed := (plain.flatMap id).filter (c.keyedPiece k)
  let now := (plain.map fun ps => ps.filter fun p => !c.keyedPiece k p).filter fun ps => !ps.isEmpty
  let writes := (plain.flatMap id).any fun p => p.sub.act.isWrite
  let r : Perf := (laneOrder s.tick c.l.hdr.det now).foldl (fun r ps => r.lane (ps.map (c.ranked s))) ⟨s, zeros, []⟩
  let stored := now.flatMap fun ps => ps.filterMap fun p =>
    if p.sub.act.isStore && !r.bad.any (·.1 == p.lane) then p.lane.map fun l => (l, Sum.inl p.pa, p.sub.n) else none
  let s := c.notePoison c.gg.id r.bad r.s
  let s := c.noteStores (split.or c.gg.split) stored s
  let s := c.keepKeyed op (split.or c.gg.split) k.order keyed s
  let (ws, s) := txs.foldl (fun acc q => c.txReq (k.atomic || k.scope ≥ 5) q acc.1 acc.2) (r.ws, s)
  let s := if writes then s.markSide c.t else s
  match op with
  | some o => s.modGroup gid fun g => let g := g.addWrites o ws; if split.isSome then g else g.opPart o
  | none => s

/-- The accesses of a lane-level or group-level memory instruction of two words to global memory. -/
def Cx.access (c : Cx) (k : MKind) (reqs : List Req) : Res :=
  let gid := c.g.ident.id
  let grp := reqs.any fun r => r.lane.isNone
  let ahead := c.keyAhead
  if c.g.tx.close.isSome then c.park (.wait .commit)
  -- a release, an access behind an acquire or a fence, and a transactional read wait for the key's accesses (R278, R289)
  else if ahead.any (·.barred) || (!ahead.isEmpty && (k.order ≥ 2 || reqs.any c.isTx)) then c.park (.wait .keyed)
  else
    let txs := reqs.filter c.isTx
    -- ORDER has no effect on a transactional access (R216)
    let rel := k.order ≥ 2 && (reqs.isEmpty || !reqs.all c.isTx)
    let rest := reqs.filter fun r => !c.isTx r
    let off := rest.filter fun r => c.underLock r && (c.isDoomed r || k.atomic || k.scope ≥ 5)
    let plain := rest.filter fun r => !(c.underLock r && (c.isDoomed r || k.atomic || k.scope ≥ 5))
    let bad (f : Sub → Bool) (rs : List Req) : List (Nat × DWord) :=
      rs.filterMap fun r => (r.subs.find? f).map fun b => (r.lane.getD 32, b.va)
    let mis := bad (fun b => b.va.toNat % b.n != 0) plain
    if !mis.isEmpty then c.trap (laneTrap .misaligned mis)
    else
      let (trs, s) := c.trReqs plain c.s
      let prot := trs.filterMap fun t => (t.2.find? fun x => x.2 == .prot).map fun x => (t.1.lane.getD 32, x.1.va)
      if !prot.isEmpty then { c with s := s }.trap (laneTrap .protection prot)
      else
        -- an access homed off this die is forbidden in a transaction (R217), under the lock too (R225)
        let away (t : Req × List (Sub × Tr)) : Bool := c.underLock t.1 &&
          t.2.any fun x => match x.2 with | .ok pa _ => ownerOf pa != Owner.hbm c.die | _ => false
        let farOff := (trs.filter away).map (·.1)
        let trs := trs.filter fun t => !away t
        let faulty := trs.filter fun t => t.2.any fun x => x.2.parks
        -- a release that would cross the link while it is down parks its lanes, not those in a transaction (R218, R351, log 48)
        let link := c.linkHolds rel k.scope
        let parked := if grp || reqs.isEmpty then (if faulty.isEmpty && !link then [] else c.gg.slices)
          else c.gg.slicesWith (faulty.filterMap (fun t => t.1.lane) ++ if link then plain.filterMap (·.lane) else [])
        let stays (r : Req) : Bool := grp && !parked.isEmpty || r.lane.any fun l => parked.contains (l / 4)
        let go := (trs.filter fun t => !stays t.1).map fun t => piecesOf t.1 t.2
        let ps := go.flatMap id
        let sc := ps.any (·.sc)
        let lines := ps.flatMap fun p => linesOf p.pa p.sub.n
        let eng := s.engineLines
        -- accesses that the host or another package observes, and releases to them, follow the group's own copies there (R283, R286)
        let far := (rel && k.scope ≥ 5) || ps.any fun p => ownerOf p.pa == .remote || ownerOf p.pa == .host
        -- a transactional access is a thread access too
        let txLines := (txs.filter fun r => !c.isDoomed r).flatMap fun r => r.subs.flatMap fun b =>
          match c.s.probe c.die c.t.core b.va c.priv c.gg.afresh with | some (pa, _) => linesOf pa b.n | none => []
        let waits := (lines ++ txLines).filter eng.contains ++ (if far then c.farLeft else [])
        let own := ps.any fun p => !c.keyedPiece k p && ahead.any fun a =>
          a.act == .commit || (p.sc && a.sc) || (p.pa < a.pa + a.act.size && a.pa < p.pa + p.sub.n)
        let accs := (ps.map fun p => (⟨p.sub.va, some p.pa, p.sub.n⟩ : ParkedAcc)) ++
          txs.flatMap fun r => r.subs.map fun b => ⟨b.va, none, b.n⟩
        if !waits.isEmpty then { c with s := s }.park (.wait (.engine waits))
        else if sc && c.scBusy then { c with s := s }.park (.wait .scCopies)
        else if own then { c with s := s }.park (.wait .keyed)
        else if rel && c.crewLeft then { c with s := s }.park (.wait .crewDrain)
        -- an acquire without an active lane is an acquire fence (R44)
        else if (!accs.isEmpty || k.order ≥ 1) && c.heldBack accs (rel || reqs.isEmpty && k.order % 2 == 1) sc then
          { c with s := s }.park (.wait .behind)
        else
          let s := if link then
              c.offerLink (((reqs.head?.bind fun r => r.subs.head?).map Sub.va).getD 0) (reqs.any fun r => r.subs.any (·.act.isWrite)) s
            else c.offerFaults (faulty.flatMap (·.2)) s
          let (op, s) := if k.ret then let (o, s) := c.openOp s; (some o, s) else (none, s)
          let todo := (trs.filter fun t => stays t.1).flatMap fun t => t.2.map fun x =>
            (⟨x.1.va, (match x.2 with | .ok pa _ => some pa | _ => none), x.1.n⟩ : ParkedAcc)
          if !parked.isEmpty && parked == c.gg.slices then
            .next (s.modGroup gid fun g => g.modGang c.gg.id fun x =>
              { x with park := some (.fault false), op := op, parked := todo, parkedOrder := k.order })
          else
            let (split, s) := if parked.isEmpty then (none, s)
              else let (k, s) := c.splitGang parked op todo k.order s; (some k, s)
            let s := if reqs.isEmpty && k.order % 2 == 1 then s.modGroup gid Group.barKeyed else s
            let off := (off ++ farOff).filter fun r => !stays r
            -- a forbidden access under the lock dooms its lane (R225); loads of a doomed lane give zero (R216)
            let s := off.foldl (fun s r => match r.lane with | some l => s.doom gid l .forbidden 0 | none => s) s
            let zeros := off.flatMap fun r => r.subs.flatMap fun b =>
              match b.act with | .load sx ts => loadWrites sx ts (List.replicate b.n 0) | .act _ => []
            let s := c.performAll k op split go (txs.filter fun r => !stays r) zeros s
            let gone : Gang := { c.gg with slices := c.gg.slices.filter fun j => !parked.contains j }
            -- a group-level atomic, and one to another home or at scope 5 or 6, is performed and dooms the lanes (R217)
            let far := grp && (k.atomic || k.scope ≥ 5 || (go.flatMap id).any fun p => ownerOf p.pa != Owner.hbm c.die)
            .next (s.modGroup gid fun g => (if far then g.forbid c.gg else g).advance gone 2)

end Sys2Proof.Machine
end

