-- ==== Sys2Proof/Machine/MxNum.lean ====
section
/-! DEFINITION. The arithmetic of the arrays (spec/08 R238 to R246, spec/02 R52, R61): element streams, products, the exact sum
of an output element, its twin and its flags. -/

namespace Sys2Proof.Machine

/-! ## Elements -/

/-- A stream of words as one number (R184). -/
def streamNat : List Word → Nat
  | [] => 0
  | w :: ws => w.toNat + 2 ^ 32 * streamNat ws

/-- The format that a code of R239 names. -/
def Fmt.ofMx (code : Nat) : Fmt :=
  match code with | 9 => .f32 | 10 => .f64 | n => (Fmt.ofNarrow n).getD .bf16

/-- An E8M0 code as a power of two; none for NaN (R50). -/
def e8m0 (c : Nat) : Option Q := if c = 255 then none else some (Q.pow2 ((c : Int) - 127))

/-- An element with its scale (R61). -/
def scaled (f : Fmt) (code sc : Nat) : FV :=
  match e8m0 sc with
  | none => .nan false
  | some x => match f.decode code with | .fin s m => .fin s (m.times (.rat x)) | v => v

/-- The constants T of R52: 2^(f/4) rounded upward to 24 significant bits. -/
def lnsT (f : Nat) : Q := match f with | 0 => .one | 1 => ⟨9975793, 2 ^ 23⟩ | 2 => ⟨11863284, 2 ^ 23⟩ | _ => ⟨14107901, 2 ^ 23⟩

/-- 2^(e/4) through T. -/
def lnsPow (e : Int) : Q := (lnsT (e % 4).toNat).shl (e / 4)

/-- The exact product of two elements: LNS6 by R52, other formats by their values. `a` and `b` are code and scale. The zero product of
LNS6 values is +0 whatever their signs: LNS6 has one zero, and R52 gives no sign of a zero product (log 42). -/
def mxProd (fa fb : Fmt) (a b : Nat × Nat) : FR :=
  if fa = .lns6 then
    match e8m0 a.2, e8m0 b.2 with
    | some x, some y =>
      let la := a.1 % 32
      let lb := b.1 % 32
      let sa := a.1.testBit 5
      let sb := b.1.testBit 5
      if (la = 0 ∧ sa) ∨ (lb = 0 ∧ sb) then ⟨.nan false, 0⟩
      else if la = 0 ∨ lb = 0 then ⟨.fin false .zero, 0⟩
      else ⟨.fin (sa != sb) (.rat (((lnsPow ((la + lb : Nat) - 32)).mul x).mul y)), 0⟩
    | _, _ => ⟨.nan false, 0⟩
  else mulFV (scaled fa a.1 a.2) (scaled fb b.1 b.2)

/-! ## One output element -/

/-- A new element: its bits, its twin and the flags (R242, R246). -/
structure MxOut where
  bits : Nat
  twin : Word
  fl : Word
  deriving DecidableEq, Repr

/-- A variance delivered as binary32, rounded toward +∞ (R59). -/
def VV.delivered (v : VV) : VV := varW (roundUpVar v)

/-- Round C + Σ products to the format of the accumulator and add to the twin (R242 to R246). `extra` is the variance sum v of
R245, 0 for the others: it is rounded toward +∞ before the twin and the delivered RoundVar are added to it (R59, log 21). -/
def mxRound (f : Fmt) (c : FV) (ps : List FR) (twin : Word) (extra : VV) : MxOut :=
  let sum := sumFV .rne (c :: ps.map (·.v))
  let fl := ps.foldl (fun w p => w ||| p.fl) sum.fl
  let r := f.roundTo .rne false 0 sum.v
  let tw : Word := if sum.v.isNan then f32Inf
    else roundUpVar (((varW twin).add extra.delivered).add (f.roundVar .rne sum.v r).delivered)
  ⟨r.bits, tw, fl ||| r.flags⟩

def FR.neg (x : FR) : FR := ⟨x.v.neg, x.fl⟩

/-! ## The variance of `mx.mmad` (R245) -/

/-- `Up` of a squared mean or of a variance: +∞, 0, or 4 log2 of the value rounded up. -/
inductive Up where
  | inf | zero | pow (e : Int)
  deriving DecidableEq, Repr

/-- ceil(4 log2 x) for x > 0. -/
def ceil4 (x : Q) : Int :=
  let y := x.sq.sq
  let k := y.log2
  if (Q.pow2 k).eq y then k else k + 1

/-- `Up(μ²)`; μ of LNS6 is a power 2^(L/4 − 4) of its code under its scale. -/
def upMean (f : Fmt) (a : Nat × Nat) : Up :=
  match e8m0 a.2 with
  | none => .inf
  | some x =>
    if f = .lns6 then
      if a.1 % 32 = 0 then (if a.1.testBit 5 then .inf else .zero)
      else .pow (2 * ((a.1 % 32 : Nat) - 16) + 8 * x.log2)
    else match scaled f a.1 a.2 with
      | .fin _ m => if m.isZero then .zero else .pow (ceil4 ((m.rat?.getD .zero).sq))
      | _ => .inf

/-- `Up(σ²)` of a variance code under XVA or XVB, and whether it sets INVALID. -/
def upVar (code xv : Nat) : Up × Bool :=
  if code.testBit 5 then (.inf, true)
  else match e8m0 xv with
    | none => (.inf, false)
    | some x => if code % 32 = 0 then (.zero, false) else (.pow ((code % 32 : Nat) - 16 + 4 * x.log2), false)

/-- A product of two of them, as R52 forms it; a zero factor gives zero (R106). -/
def Up.prod : Up → Up → VV
  | .zero, _ | _, .zero => .zero
  | .pow a, .pow b => .re (.rat (lnsPow (a + b)))
  | _, _ => .inf

/-- The term of one k. -/
def mxVarTerm (so : Bool) (ma va mb vb : Up) : VV :=
  let t := (ma.prod vb).add (va.prod mb)
  if so then t.add (va.prod vb) else t

end Sys2Proof.Machine
end

