-- ==== Sys2Proof/Machine/CrewWords.lean ====
section
/-! DEFINITION. The words of a crew operation: its shape, the scratchpad words that it reads and writes (spec/08 R238, R239, R249,
R250, spec/02 R63), and where they meet those of a member's own access (spec/09 R276). -/

namespace Sys2Proof.Machine

/-- Shape of an arithmetic operation (Table 8.2). -/
structure MxShape where
  nb : Nat
  k : Nat
  row : Nat

def mxShapeOf (complex : Bool) (x : MxForm) : MxShape :=
  match mxShape complex x.fa.toNat with | some (nb, k, row) => ⟨nb, k, row⟩ | none => ⟨16, 32, 64⟩

/-- Arithmetic operations. -/
def mxArith : Instr → Option (MxForm × MxShape)
  | .mxMma x | .mxMmad x | .mxMma64 x => some (x, mxShapeOf false x)
  | .mxMmac x => some (x, mxShapeOf true x)
  | _ => none

/-- The instruction of an operation. -/
def CrewOp.instr? (o : CrewOp) : Option Instr := match decode o.words with | .ok i _ => some i | .bad _ => none

/-- Bytes of a row of `mx.ldc` (R249) and of `mx.stc` (R250) in a crew of n. -/
def ldcRow (kind nreg n : Nat) : Nat := match kind with | 2 => 8 * nreg | 3 => 128 * n | _ => 64 * n
def stcRow (outf n : Nat) : Nat := 2 * n * (Fmt.ofMx outf).width

/-! ## Operand words -/

/-- Words of n bytes of rows from a base, with a pitch in 16-byte units (R238). -/
def rowReads (base : DWord) (pitch swz mode : Nat) (rows : Nat) (bytes : Nat) : List CrewRead :=
  (List.range rows).flatMap fun i => (List.range (bytes / 4)).map fun w =>
    ⟨i, swizzle (base + dw (i * 16 * pitch + 4 * w)) swz, mode⟩

/-- Base of the A scale tiles, of the B scale tiles, and of σa² (R239, R245). -/
def aTiles (vals : List DWord) : DWord := zx64 (lo32 (vals.getD 1 0))
def bTiles (vals : List DWord) : DWord := zx64 (hi32 (vals.getD 1 0))
def varBase (vals : List DWord) : DWord := zx64 (lo32 (vals.getD 2 0))
/-- Byte of a scale tile at row r and block b (R63). -/
def tileOffset (r b : Nat) : Nat := r % 8 * 16 + r / 8 * 4 + b

/-- Tile row r of tiles 128 bytes apart: the word that holds its four scales (R63). -/
def tileWord (base : DWord) (r : Nat) : DWord := base + dw (r / 32 * 128 + tileOffset (r % 32) 0)

/-- The scale words: row i of A, and every column of B, which all rows use. -/
def scaleReads (vals : List DWord) (n : Nat) : List CrewRead :=
  (List.range (16 * n)).map (fun i => ⟨i, tileWord (aTiles vals) i, 0⟩) ++
  (List.range (16 * n)).map fun j => ⟨64, tileWord (bTiles vals) j, 0⟩

/-- Bytes of a row of σa²: K codes of LNS6. -/
def varRow (k : Nat) : Nat := k * 6 / 8

/-- The words that an operation of a crew of n reads. -/
def opReads (i : Instr) (vals : List DWord) (n : Nat) : List CrewRead :=
  let a := vals.getD 0 0
  match i with
  | .mxLdc x | .mxLdcVar x => rowReads a x.pitch.toNat x.swz.toNat x.tm.toNat (16 * n) (64 * n)
  | .mxLdcF64 x => rowReads a x.pitch.toNat x.swz.toNat x.tm.toNat (16 * n) (128 * n)
  | .mxLdcB x => rowReads a x.pitch.toNat x.swz.toNat x.tm.toNat (16 * n) (8 * x.nreg.toNat)
  | _ =>
    match mxArith i with
    | none => []
    | some (x, sh) =>
      let rows (b : DWord) (bytes : Nat) : List CrewRead :=
        rowReads b x.pitch.toNat x.swz.toNat x.tm.toNat (16 * n) bytes
      let var := match i with | .mxMmad _ => rows (varBase vals) (varRow sh.k) | _ => []
      (rows a sh.row ++ var ++ (if x.scaled = 1 then scaleReads vals n else [])).eraseDups

/-- Where `mx.stc` writes its status word (R250). -/
def stcStatusAddr (x : StcForm) (base : DWord) (n : Nat) : DWord := base + dw (16 * n * 16 * x.pitch.toNat)

/-! ## Accesses of a member beside those of its accepted operations (R253, R276) -/

/-- Addresses of the words that an operation is still to write. -/
def CrewOp.writeAddrs (o : CrewOp) : List DWord :=
  match o.instr? with
  | some (.mxStc x) =>
    let a := o.vals.getD 0 0
    let n := o.members.length
    let st := stcStatusAddr x a n
    [st, st + 4] ++ (if o.started.isSome then o.writes.map (·.addr)
      else (rowReads a x.pitch.toNat x.swz.toNat 0 (16 * n) (stcRow x.outf.toNat n)).map (·.addr))
  | _ => []

/-- An accepted operation of the group is still to write one of n bytes at a place, or, where they are written, to read one. -/
def Cx.crewMeets (c : Cx) (p : Place) (n : Nat) (write : Bool) : Bool :=
  c.s.crewOps.any fun o => o.members.contains c.g.ident.id &&
    (o.writeAddrs ++ if write then o.reads.map (·.addr) else []).any fun a => (c.place a 4).any fun q => placesOverlap p n q 4

end Sys2Proof.Machine
end

