-- ==== Sys2Proof/Machine/Dist.lean ====
section
/-! DEFINITION. The distribution instructions, opcodes 0x70 to 0x76 (spec/04 R117 to R123). -/

namespace Sys2Proof.Machine

/-! ## Checks and reads -/

/-- Ranks 3 and 4 (R117): `below` for a destination that must be a register below DW. -/
def Cx.dCheck (c : Cx) (ok : VForm → Bool) (f : VForm) (below : Bool) : Except Tq Unit := do
  let d := f.d.toNat
  need (ok f && c.gg.pfx.isEmpty && f.sel ≤ c.g.ident.k &&
    !(below && c.g.ident.dw ≤ d && d < c.g.ident.nr)) .illegalOperand
  need ([d, f.a.toNat, f.b.toNat].all (c.vregOk false) &&
    (!(f.a == 124 || f.b == 124) || c.sregOk f.sreg)) .regRange

/-- Total variance of a lane's glove under FMT.DM (R118). -/
def Cx.dTotal (c : Cx) (gl : List Word) : Word :=
  if fmtDm c.gg.fmt = 2 then roundUpVar ((totalVar true gl).getD .zero) else gl.headD 0

/-- A NaN or negative value; −0 is not negative. -/
def badVar (w : Word) : Bool := (f32 w).isNan || ((f32 w).sign && nzW w)

/-- A word made fit for word 0 (R119, R120): the word and whether it sets INVALID. -/
def fitVar (w : Word) : Word × Bool := if badVar w then (f32Inf, true) else if nzW w then (w, false) else (0, false)

/-- A change of each active lane in turn. -/
def Cx.each (c : Cx) (put : Group → Nat → Group) : Group := c.lanes.foldl put c.g

/-- Glove word GW of a lane's register. -/
def Group.gloveWord (g : Group) (l n j : Nat) : Word := ((g.lane l).glove g.ident.k n).getD j 0

/-! ## The instructions of Table 4.4 -/

def execVDvar (f : VForm) (s : State) : Res :=
  local1 (vLen f) s fun c => do
    c.dCheck dvarOk f false
    pure (c.each fun g l => g.putD f.d.toNat l (c.dTotal (c.srcGlove f.a.toNat l)) (zeroGlove c.g.ident.k))

def execVDset (f : VForm) (s : State) : Res :=
  local1 (vLen f) s fun c => do
    c.dCheck dsetOk f false
    let put (g : Group) (l : Nat) : Group :=
      let (v, bad) := fitVar (c.src f f.b.toNat l)
      let g := if bad then g.raise fInvalid else g
      g.putD f.d.toNat l (c.src f f.a.toNat l) (v :: List.replicate c.g.ident.k 0)
    pure (c.each put)

def execVDgetd (f : VForm) (s : State) : Res :=
  local1 (vLen f) s fun c => do
    c.dCheck dgetdOk f false
    pure (c.each fun g l =>
      g.putD f.d.toNat l ((c.srcGlove f.a.toNat l).getD f.sel 0) (zeroGlove c.g.ident.k))

def execVDsetd (f : VForm) (s : State) : Res :=
  local1 (vLen f) s fun c => do
    c.dCheck dsetdOk f true
    let put (g : Group) (l : Nat) : Group :=
      let w := c.src f f.b.toNat l
      if f.sel = 0 then
        let (v, bad) := fitVar w
        (if bad then g.raise fInvalid else g).writeGloveWord l f.d.toNat 0 v
      else g.writeGloveWord l f.d.toNat f.sel w
    pure (c.each put)

def execVDclr (f : VForm) (s : State) : Res :=
  local1 (vLen f) s fun c => do
    c.dCheck dclrOk f true
    pure (c.each fun g l =>
      (List.range (1 + c.g.ident.k)).foldl (fun g i => g.writeGloveWord l f.d.toNat i 0) g)

def execVDnoise (f : VForm) (s : State) : Res :=
  local1 (vLen f) s fun c => do
    c.dCheck dnoiseOk f true
    need (f.sel == 0 || fmtDm c.gg.fmt == 2) .modeConflict
    let put (g : Group) (l : Nat) : Group :=
      let w := c.src f f.b.toNat l
      let nan := (f32 w).isNan
      let sd := if nan then f32Inf else w &&& 0x7FFFFFFF
      let g := if nan then g.raise fInvalid else g
      if f.sel = 0 then
        let sq : VV := match f32 sd with
          | .fin _ m => .re m.sq
          | _ => .inf
        g.writeGloveWord l f.d.toNat 0 (roundUpVar ((varW (c.g.gloveWord l f.d.toNat 0)).add sq))
      else g.writeGloveWord l f.d.toNat f.sel sd
    pure (c.each put)

/-- Whether a lane exceeds the threshold 2^(UTE − 128) (R123). -/
def exceeds (ute : Nat) (mean var : Word) : Bool :=
  match f32 mean with
  | .nan _ => true
  | .inf _ => nzW var
  | .fin _ m =>
    match varW var with
    | .inf => true
    | .re v => ((m.sq.times (.rat (Q.pow2 (2 * ((ute : Int) - 128))))).sub v).sign < 0

def execVDchk (f : VForm) (s : State) : Res :=
  local1 (vLen f) s fun c => do
    need (dchkOk f && c.gg.pfx.isEmpty) .illegalOperand
    need (c.vregOk false f.a.toNat && c.sregOk f.sreg) .regRange
    let hit (l : Nat) : Bool :=
      exceeds (fmtUte c.gg.fmt) (c.src f f.a.toNat l) (c.dTotal (c.srcGlove f.a.toNat l))
    let ls := c.lanes.filter hit
    let g := c.putMask f.sreg ls c.g
    pure (if ls.isEmpty then g else g.raise fUncert)

end Sys2Proof.Machine
end

