-- ==== Sys2Proof/Machine/Cores.lean ====
section
/-! DEFINITION. Harvest and logical numbering of cores (R347 to R349), and the power island of a core (Table 12.4). -/

namespace Sys2Proof.Machine

/-- Cores in use, in logical order: the enabled cores less the highest, down to 156 (R348, steps 1 and 2). -/
def Die.coresInUse (d : Die) : List Nat := ((List.range 160).filter fun p => d.coreEnable.getLsbD p).take 156

/-- Mask of the cores in use: CORES_PRESENT (R347). -/
def Die.present (d : Die) : BitVec 160 := d.coresInUse.foldl (fun m p => m ||| BitVec.ofNat 160 (2 ^ p)) 0

/-- Physical index of a logical core; 0xFF for entries 156 to 159 of LOGICAL_CORE_TABLE. -/
def Die.physCore (d : Die) (logical : Nat) : Nat := d.coresInUse.getD logical 0xFF

/-- Physical clusters that hold a core in use, in order: entry i is logical cluster i (R348, step 3). -/
def Die.clusters (d : Die) : List Nat := (List.range 40).filter fun c => d.coresInUse.any fun p => p / 4 == c

/-- Logical cluster of a logical core. -/
def Die.clusterOf (d : Die) (logical : Nat) : Nat := d.clusters.idxOf (d.physCore logical / 4)

/-- Entry j of LOGICAL_CORE_TABLE as one of 20 doublewords. -/
def Die.coreTable (d : Die) (j : Nat) : DWord :=
  (List.range 8).foldl (fun x i => x ||| dw (d.physCore (8 * j + i) * 2 ^ (8 * i))) 0

/-- Core-array island of a logical core. -/
def Die.islandOf (d : Die) (logical : Nat) : Nat := d.physCore logical / 40

/-- A die with fewer than 156 cores in use is not ready (R349). -/
def Die.isReady (d : Die) : Bool := d.ready && d.coresInUse.length == 156

end Sys2Proof.Machine
end

