-- ==== Sys2Proof/Machine/Gangs.lean ====
section
/-! DEFINITION. Gangs that meet again (R16): the hinge (R142), the implicit regang of barriers (R146), team barriers (R145) and
wired barriers (R352 to R355), and the ends of slices, groups and teams (R43, R150). -/

namespace Sys2Proof.Machine

/-! ## Regrouping -/

/-- Gangs that issue as one: equal pc and FMT, and the same clause. -/
def Gang.meets (a b : Gang) : Bool := a.pc == b.pc && a.fmt == b.fmt && a.clause == b.clause

/-- Add slices that continue to the gangs already formed; `used` are numbers of other gangs. -/
def joinGang (used : List Nat) (acc : List Gang × Nat) (x : Gang) : List Gang × Nat :=
  if acc.1.any (·.meets x) then
    (acc.1.map fun y =>
      if y.meets x then { y with slices := x.slices.foldl insNat y.slices, poison := joinPoison y.poison x.poison } else y, acc.2)
  else if used.contains x.id || acc.1.any (·.id == x.id) then (acc.1 ++ [{ x with id := acc.2 }], acc.2 + 1)
  else (acc.1 ++ [x], acc.2)

/-- The slices of `xs` leave their gangs and go on as `xs` say; those that agree form one gang (R16). -/
def State.regroup (s : State) (gid : Nat) (xs : List Gang) : State :=
  match s.group? gid with
  | none => s
  | some g =>
    let moved := xs.flatMap (·.slices)
    let rest (x : Gang) : List Nat := x.slices.filter fun j => !moved.contains j
    let left := (g.gangs.map fun x => { x with slices := rest x, poison := x.poisonOf (rest x) }).filter fun x => !x.slices.isEmpty
    let (ys, n) := xs.foldl (joinGang (left.map (·.id))) ([], s.nextId)
    { s with nextId := n }.modGroup gid fun g => { g with gangs := left ++ ys }

/-! ## The hinge (R142) -/

def Group.topRec (g : Group) (j : Nat) : Option PartRec := (g.parts.getD j []).head?
def Group.depth (g : Group) (j : Nat) : Nat := (g.parts.getD j []).length

/-- Slices waiting at a hinge. -/
def Group.atHinge (g : Group) : List Nat := (g.gangs.filter fun x => x.park == some .hinge).flatMap (·.slices)

/-- The rendezvous set of a slice: the live slices with the same hinge at the same depth. -/
def Group.rendezvous (g : Group) (j : Nat) : List Nat :=
  g.liveSlices.filter fun i =>
    g.depth i == g.depth j && (g.topRec i).map (·.hinge) == (g.topRec j).map (·.hinge)

/-- Set the `em` bits of a slice: a later write than those still outstanding (R81). -/
def Group.setEm (g : Group) (j : Nat) (b : BitVec 4) : Group :=
  let m := wd (15 * 2 ^ (4 * j)) &&& g.live
  { g.cancel (.sreg 63 (zx64 m)) with em := (g.em &&& ~~~m) ||| (wd (b.toNat * 2 ^ (4 * j)) &&& m) }

/-- A complete rendezvous: every slice pops its record, takes FMT and its `em` bits from it, and goes on. -/
def State.meetHinge (s : State) (gid : Nat) (js : List Nat) : State :=
  match s.group? gid with
  | none => s
  | some g =>
    let gangs := g.gangs.filter fun x => x.slices.any js.contains
    let g' := gangs.foldl (fun g x => if x.atEnd 1 then g.closeLatches x else g.ageLatches x) g
    let pop (g : Group) (j : Nat) : Group :=
      match g.topRec j with
      | some r => { g.setEm j r.em with parts := modAt g.parts j List.tail }
      | none => g
    let one (x : Gang) (j : Nat) : Gang :=
      { x.released 1 with slices := [j], fmt := ((g.topRec j).map (·.fmt)).getD x.fmt, split := none, poison := x.poisonOf [j] }
    let xs := gangs.flatMap fun x => (x.slices.filter js.contains).map (one x)
    (s.modGroup gid fun _ => js.foldl pop g').regroup gid xs

/-- Complete every rendezvous whose set has arrived. -/
def State.settleHinges (s : State) (gid : Nat) : State :=
  match s.group? gid with
  | none => s
  | some g =>
    g.atHinge.foldl (fun s j =>
      match s.group? gid with
      | none => s
      | some g =>
        let w := g.atHinge
        let set := g.rendezvous j
        if w.contains j && set.all w.contains then s.meetHinge gid set else s) s

/-- The gang that issues keeps the slot where its own instruction lets it go on. -/
def Cx.keepSlot (c : Cx) (s : State) : State :=
  match (s.group? c.g.ident.id).bind fun g => g.gangs.find? fun x => x.slices.contains (c.gg.slices.headD 0) with
  | some x =>
    if x.park == some .resume then
      { s with focus := some (c.g.ident.id, x.id) }.modGroup c.g.ident.id fun g => g.modGang x.id fun y => { y with park := none }
    else s
  | none => s

/-! ## Barriers (R145, R146) -/

/-- The gangs of a group that are parked at `p` go on after their barrier, with the implicit regang (R146). -/
def Group.freeParked (g : Group) (p : Park) : Group :=
  let gangs := g.gangs.filter fun x => x.park == some p
  if gangs.isEmpty then g
  else
    let left := g.gangs.filter fun x => x.park != some p
    let g' := gangs.foldl (fun g x => if x.atEnd 1 then g.closeLatches x else g.ageLatches x) g
    let on := (gangs.map fun x => { x.released 1 with split := none }).foldl (joinGang (left.map (·.id))) ([], 0)
    { g' with gangs := left ++ on.1 }

def State.freeGangs (s : State) (gid : Nat) (p : Park) : State := s.modGroup gid fun g => g.freeParked p

/-- The role takes part under a ROLES value (R145). -/
def inRoles (roles : Nat) (r : Role) : Bool := roles == 0 || roles.testBit (roleCode r)

/-- A group has arrived once every live slice has issued (R145). -/
def BarArr.settle (a : BarArr) (g : Group) : BarArr :=
  if !a.done && !a.slices.isEmpty && !g.ended && g.liveSlices.all a.slices.contains then { a with done := true } else a

/-- Arrivals of a phase as the groups stand; the first arrival gives it its ROLES (R145). -/
def BarPhase.settle (p : BarPhase) (gs : List Group) : BarPhase :=
  let arrs := p.arrs.map fun a => match gs.find? fun g => g.ident.id == a.group with
    | some g => a.settle g
    | none => a
  { p with arrs := arrs, roles := p.roles.or ((arrs.find? (·.done)).map (·.roles)) }

/-- Groups whose arrival the exit of their last other slices completes, with other ROLES than the phase has by then (R145, log 49). -/
def BarPhase.strays (p : BarPhase) (gs : List Group) : List Nat :=
  let q := p.settle gs
  (q.arrs.filter fun a => a.done && q.roles.any (· != a.roles)).map (·.group)

/-- Every participant has arrived or ended (R145). -/
def BarPhase.complete (p : BarPhase) (gs : List Group) : Bool :=
  match p.roles with
  | none => false
  | some r => gs.all fun g => !inRoles r g.ident.role || g.ended || p.arrs.any fun a => a.group == g.ident.id && a.done

/-- The gangs of a group that are parked at `p` trap ILLEGAL_OPERAND at the instruction on which they are parked. -/
def State.trapParked (s : State) (gid : Nat) (p : Park) : State :=
  match s.group? gid with
  | none => s
  | some g =>
    (g.gangs.filter fun x => x.park == some p).foldl (fun s x =>
      s.takeTrap gid { x with park := none } ⟨.illegalOperand, 0, 0, x.firstWord, 0, x.firstWord, x.hdrAddr⟩) s

/-- Groups that arrive with other ROLES than the phase has trap at their barrier, and do not count as arrived (R145, log 49). -/
def State.turnStrays (s : State) (tid : Nat) : State :=
  match s.team? tid with
  | none => s
  | some t =>
    let gs := s.groupsOf tid
    let off (p : BarPhase) : BarPhase := { p with arrs := p.arrs.filter fun a => !(p.strays gs).contains a.group }
    t.bars.foldl (fun s p => (p.strays gs).foldl (fun s gid => s.trapParked gid (.bar p.num)) s)
      (s.modTeam tid fun t => { t with bars := t.bars.map off })

/-- Complete the phases of a team that are complete, and free their waiters. -/
def State.settleBars (s : State) (tid : Nat) : State :=
  match s.team? tid with
  | none => s
  | some t =>
    let gs := s.groupsOf tid
    let ps := t.bars.map fun p => p.settle gs
    let fin := ps.filter fun p => p.complete gs
    let s := s.modTeam tid fun t => { t with bars := ps.filter fun p => !p.complete gs }
    fin.foldl (fun s p => gs.foldl (fun s g => s.freeGangs g.ident.id (.bar p.num)) s) s

/-! ## Wired barriers (R352 to R355) -/

def State.wbar (s : State) (n : Nat) : Wbar := s.wbars.getD n .reset
def State.modWbar (s : State) (n : Nat) (f : Wbar → Wbar) : State := { s with wbars := modAt s.wbars n f }

/-- The launch of a team of a die is bound to the number (R352). -/
def Wbar.binds (w : Wbar) (d : DieId) (l : Launch) : Bool :=
  hi32 w.bind == l.launchId && w.bind.getLsbD (dieNum d)

/-- The launch is the one of its die that number n binds: where software has given one LAUNCHID to several launches, it binds a
free one of them alone, so that no other holds its barrier back (R8, R352, log 23). -/
def State.bound (s : State) (n : Nat) (d : DieId) (l : Launch) : Bool :=
  let twins := s.launches.filter fun x => x.die == d && x.launchId == l.launchId
  (s.wbar n).binds d l && (twins.length ≤ 1 ||
    twins[Config.boundTwin l.launchId.toNat % twins.length]?.any fun x => x.id == l.id)

/-- Bound teams held by a die's core, by logical index. -/
def State.boundTeams (s : State) (n : Nat) (d : DieId) : List Team :=
  s.teams.filter fun t => t.die == d && (s.launch? t.launch).any (s.bound n d)

/-- Record that the cores that hold bound teams have held one (R353). -/
def State.noteWbars (s : State) : State :=
  (List.range 64).foldl (fun s n =>
    let now := [DieId.cd0, DieId.cd1].flatMap fun d => (s.boundTeams n d).map fun t => (d, (s.die d).physCore t.core)
    if now.isEmpty then s
    else s.modWbar n fun w => { w with history := w.history ++ (now.filter fun x => !w.history.contains x).eraseDups }) s

/-- The line of a physical core (R353). -/
def State.wbarLine (s : State) (n : Nat) (d : DieId) (core : Nat) : Bool :=
  let w := s.wbar n
  let here := (s.boundTeams n d).filter fun t => (s.die d).physCore t.core == core
  !((s.die d).ctl.wbarMember.getD core 0).getLsbD n ||
  (if here.isEmpty then w.history.contains (d, core) else here.all fun t => w.arrived.contains t.id)

/-- Teams that are saved and not yet restored, with their launches (R316). -/
def State.savedTeams (s : State) : List (Team × Launch) :=
  s.saved.flatMap fun v => v.teams.filterMap fun t =>
    match s.launch? t.launch with
    | some l =>
      if l.live.contains t.teamId && !s.teams.any fun x => x.launch == t.launch && x.teamId == t.teamId then some (t, l) else none
    | none => none

/-- Saved bound teams of the number (R355). -/
def State.savedBound (s : State) (n : Nat) : List Nat :=
  (s.savedTeams.filter fun x => s.bound n x.2.die x.2).map (·.1.id)

/-- Teams bound to the number now, resident or saved. -/
def State.allBound (s : State) (n : Nat) : List Nat :=
  (s.boundTeams n .cd0 ++ s.boundTeams n .cd1).map (·.id) ++ s.savedBound n

/-- Every line of the package is high, and no saved bound team has yet to arrive, as the binding stands (R353 to R355). Clearing
both die bits releases no waiter (R354). -/
def State.wbarComplete (s : State) (n : Nat) : Bool :=
  let w := s.wbar n
  lo32 w.bind &&& 3 != 0 && !w.arrived.isEmpty && (s.savedBound n).all w.arrived.contains &&
  [DieId.cd0, DieId.cd1].all fun d => (List.range 160).all (s.wbarLine n d)

/-- A phase that is complete completes: its bound teams are to be woken, and what arrives from now on belongs to the next phase (R353).
The arrival of a team that is no longer bound stands (R354). -/
def State.latchWbar (s : State) (n : Nat) : State :=
  if s.wbarComplete n then
    let bound := s.allBound n
    s.modWbar n fun w => { w with
      released := w.released ++ w.arrived.filter bound.contains, arrived := w.arrived.filter fun t => !bound.contains t }
  else s

/-- Every phase that is complete completes, before something that may lower a line. -/
def State.latchWbars (s : State) : State :=
  (List.range 64).foldl (fun s n => if (s.wbar n).arrived.isEmpty then s else s.latchWbar n) s

/-- The team has arrived in a phase whose waiters have not been woken. -/
def Wbar.here (w : Wbar) (tid : Nat) : Bool := w.arrived.contains tid || w.released.contains tid

/-- A team arrives once every live slice of every live group has issued (R147). -/
def State.settleWbar (s : State) (n : Nat) (tid : Nat) : State :=
  let gs := s.groupsOf tid
  let w := s.wbar n
  let mine := (w.arrs.filter fun a => a.1 == tid).map (·.2)
  let upd := mine.map fun a => match gs.find? fun g => g.ident.id == a.group with | some g => a.settle g | none => a
  let here := !mine.isEmpty && gs.any (fun g => !g.ended) &&
    gs.all fun g => g.ended || upd.any fun a => a.group == g.ident.id && a.done
  let others := w.arrs.filter fun a => a.1 != tid
  s.modWbar n fun w =>
    if here then { w with arrs := others, arrived := w.arrived ++ [tid] }
    else { w with arrs := others ++ upd.map fun a => (tid, a) }

/-! ## Ends -/

/-- Everything a group has asked of the engines is done (R150). -/
def State.groupQuiet (s : State) (g : Group) : Bool :=
  g.cmds.isEmpty && g.adds.isEmpty && (g.batches.all (·.complete)) && g.keyq.isEmpty &&
  !s.crewOps.any fun o => o.members.contains g.ident.id

/-- A request to pre-empt a team that has ended: it goes on with another member of the set, or completes (R313, R314). -/
def Preempt.teamEnded (p : Preempt) (t : Team) (others : List Nat) : Preempt :=
  match p.req with
  | some r =>
    if r.teamUid = t.id then
      match others with
      | o :: _ => { p with req := some { r with teamUid := o } }
      | [] => { p with req := none, busy := false, path := .drain }
    else p
  | none => p

/-- Remove a team and its groups, with what the die keeps for it. -/
def State.removeTeam (s : State) (t : Team) : State :=
  let gids := (s.groupsOf t.id).map (·.ident.id)
  let s : State :=
    { s with teams := s.teams.filter (·.id != t.id), groups := s.groups.filter fun g => g.ident.team != t.id }
  let gone (w : Wbar) : Wbar :=
    { w with arrs := w.arrs.filter (·.1 != t.id), arrived := w.arrived.filter (· != t.id)
             released := w.released.filter (· != t.id) }
  let s := { s with wbars := s.wbars.map gone }
  s.modDie t.die fun d => { d with
    lockHolder := if d.lockHolder.any gids.contains then none else d.lockHolder
    lockQueue := d.lockQueue.filter fun e => !gids.contains e.1 }

/-- Teams all of whose groups have ended, with every access performed, end (R150). -/
def State.reapTeam (s : State) (tid : Nat) : State :=
  match s.team? tid with
  | none => s
  | some t =>
    let gs := s.groupsOf tid
    if gs.all fun g => g.ended && s.groupQuiet g then
      let s := s.removeTeam t
      let others := t.set.filter fun x => x != t.id && s.teams.any (·.id == x)
      let s := s.modDie t.die fun d => { d with preempt := d.preempt.teamEnded t others }
      s.modLaunch t.launch fun l => { l with live := l.live.filter (· != t.teamId) }
    else s

/-- What follows when lanes of a group have exited: passes, barriers, rendezvous, the lock, and the team (R150). -/
def State.settleExit (s : State) (gid tid : Nat) (d : DieId) : State :=
  match s.group? gid with
  | none => s
  | some g =>
    let s := if g.ended then
        (s.releaseLock d gid).modDie d fun x => { x with lockQueue := x.lockQueue.filter fun e => e.1 != gid }
      else s.settleHinges gid
    let s := (s.turnStrays tid).settleBars tid
    let s := (List.range 64).foldl (fun s n => if (s.wbar n).arrs.any (·.1 == tid) then s.settleWbar n tid else s) s
    (s.settleKey tid).reapTeam tid

end Sys2Proof.Machine
end

