-- ==== Sys2Proof/Machine/Narrow.lean ====
section
/-! DEFINITION. Narrow formats and microscaled blocks: `v.qpack`, `v.qunpack`, `v.mxquant` and `v.mxdeq` (spec/06 R184 to
R188, spec/02 R61 to R64). -/

namespace Sys2Proof.Machine

/-- The narrow format that FSEL names; none for code 0 (R184). -/
def Cx.nf (c : Cx) (f : VForm) : Option Fmt :=
  Fmt.ofNarrow (if f.sel % 2 = 1 then fmtNfb c.gg.fmt else fmtNfa c.gg.fmt)

/-- Words of a stream of `width` codes. -/
def streamWords (width nb : Nat) : Nat := (width * nb + 31) / 32

/-- A stream as one number, from codes or from words. -/
def joinBits (n : Nat) : List Nat → Nat
  | [] => 0
  | x :: xs => x % 2 ^ n + 2 ^ n * joinBits n xs

/-- The stream held in lanes 0 to W - 1 of a register, whatever their state (R186). -/
def Cx.streamOf (c : Cx) (reg nb : Nat) : Nat :=
  joinBits 32 ((List.range (streamWords c.g.ident.width nb)).map fun k => ((c.g.lane k).vreg reg).toNat)

/-- Word l of a stream of codes; zero from lane W on. -/
def streamWord (width nb : Nat) (codes : List Nat) (l : Nat) : Word :=
  if l < streamWords width nb then wd (nbits (joinBits nb codes) (32 * l) 32) else 0

/-- A glove after one identity step with a given charge (R110). -/
def Cx.idGlove (c : Cx) (f : VForm) (lane : Nat) (y : FV) (rv : VV) (neg : Bool) : List Word :=
  gloveOut c.modes c.g.ident.k y rv ⟨[oneP], []⟩ [neg] false [c.srcGlove f.a.toNat lane]

/-! ## `v.qpack` and `v.qunpack` -/

/-- The codes of the active lanes with their charges, in lane order; the group carries draws and flags. -/
def Cx.qCodes (c : Cx) (f : VForm) (fm : Fmt) (rm : Rm) (sat : Bool) : List Nat → Group → List (Nat × FEl) × Group
  | [], g => ([], g)
  | l :: ls, g =>
    let (e, g) := c.cvtElem fm rm sat l 0 (c.fval f 0 0 f.a.toNat l 0) g
    let (rest, g) := c.qCodes f fm rm sat ls (g.raise e.fl)
    ((l, e) :: rest, g)

def execVQpack (f : VForm) (s : State) : Res :=
  local1 (vLen f) s fun c => do
    let fm := c.nf f
    c.vCheck spQpack f fm.isSome
    let fm := fm.getD .bf16
    let (els, g) := c.qCodes f fm (c.rm f.rnd) (c.satOf f) c.lanes (c.hold f c.g)
    let w := c.g.ident.width
    let codes := (List.range w).map fun l => ((els.find? fun e => e.1 == l).map fun e => e.2.bits).getD 0
    let put (g : Group) (e : Nat × FEl) : Group :=
      g.putD f.d.toNat e.1 (streamWord w fm.width codes e.1)
        (c.idGlove f e.1 e.2.y e.2.rv (c.negPart f 0 0 f.a.toNat e.1))
    pure (els.foldl put g)

def execVQunpack (f : VForm) (s : State) : Res :=
  local1 (vLen f) s fun c => do
    let fm := c.nf f
    c.vCheck spQunpack f (fm.isSome && f.a.toNat < 120)
    let fm := fm.getD .bf16
    let st := c.streamOf f.a.toNat fm.width
    let rm := c.rm f.rnd
    let put (g : Group) (l : Nat) : Group :=
      let v := fm.decode (nbits st (fm.width * l) fm.width)
      let (e, g) := c.cvtElem .f32 rm false l 0 v g
      (g.raise e.fl).putD f.d.toNat l (wd e.bits) (c.idGlove f l e.y e.rv false)
    pure (c.lanes.foldl put (c.hold f c.g))

/-! ## `v.mxquant` (R187) -/

/-- What becomes of a lane's element: captured, saturated beyond the capacity, or rounded. -/
inductive MxFate where
  | capt | sat | plain
  deriving DecidableEq, Repr

/-- Insert a lane by decreasing magnitude, ties to the smaller lane. -/
def insOutlier (mag : Nat → Q) (l : Nat) : List Nat → List Nat
  | [] => [l]
  | m :: ms => if (mag m).lt (mag l) then l :: m :: ms else m :: insOutlier mag l ms

/-- Lanes above the clip, in the order of R187. -/
def outliers (mag : Nat → Q) (clip : Option Q) (ls : List Nat) : List Nat :=
  match clip with
  | none => []
  | some k => (ls.filter fun l => k.lt (mag l)).foldl (fun o l => insOutlier mag l o) []

/-- E8M0 scale code of a block (R62, steps 3 and 4). -/
def scaleCode (fm : Fmt) (amax : Q) : Nat :=
  if amax.isZero then 0 else (max 0 (min 254 (amax.log2 - fm.emaxElem + 127))).toNat

def scaleVal (code : Nat) : Q := Q.pow2 ((code : Int) - 127)

/-- One element of a block: code bits, flags, glove charge, BF16 bits of a captured entry (R62 step 5, R110, R187). -/
structure MxEl where
  code : Nat
  fl : Word
  rv : VV
  cap : Nat
  y : FV
  deriving DecidableEq, Repr

def mxElem (fm : Fmt) (rm : Rm) (sat : Bool) (code w24 : Nat) (fate : MxFate) (x : FV) : MxEl :=
  match fate with
  | .capt =>
    let (b, fl, rv) := stdRound .bf16 rm sat w24 x
    ⟨0, fl, rv, b, x⟩
  | _ =>
    let sc := scaleVal code
    let v : FV := match x with
      | .fin s m => .fin s (m.times (.rat sc.inv))
      | v => v
    let r := fm.roundTo rm true w24 v
    let rv : VV := match fate, r.fin with
      | .sat, some k =>
        let res := (fm.mag k).times (.rat sc)
        .re (((x.magRE).sub res).sq)
      | _, _ => (fm.roundVar rm v r).scale (.rat sc.sq)
    ⟨r.bits, r.flags, rv, 0, x⟩

/-- The CAP field (R187). -/
def capOf (sel : Nat) : Nat := match nbits sel 1 2 with | 0 => 0 | 1 => 1 | 2 => 2 | _ => 4

/-- Lane k of the auxiliary register (Table 6.4), k from 0 to 4. -/
def auxWord (nsat : Nat) (scale : Nat) (capt : List Nat) (bits : Nat → Nat) (k : Nat) : Word :=
  if k = 0 then wd (nsat * 2 ^ 11 + capt.length * 2 ^ 8 + scale)
  else match capt[k - 1]? with
    | some l => wd (bits l * 2 ^ 16 + 32 + l)
    | none => 0

/-- The elements of every lane in order, with their draws. -/
def Cx.mxEls (c : Cx) (fm : Fmt) (rm : Rm) (sat : Bool) (code : Nat) (fate : Nat → MxFate) (x : Nat → FV) :
    List Nat → Group → List MxEl × Group
  | [], g => ([], g)
  | l :: ls, g =>
    let (w, g) := c.drawIf rm g l 0
    let e := mxElem fm rm sat code w (fate l) (x l)
    let (rest, g) := c.mxEls fm rm sat code fate x ls (g.raise e.fl)
    (e :: rest, g)

/-- The block quantised: every lane of the group is active. -/
def Cx.mxquant (c : Cx) (f : VForm) (fm : Fmt) : Group :=
  let rm := c.rm f.rnd
  let ls := c.lanes
  let x (l : Nat) : FV := c.fval f 0 0 f.a.toNat l 0
  let cv := c.fval f 0 1 f.b.toNat 0 0
  let badClip := f.b.toNat ≠ 123 ∧ (cv.isNan ∨ cv.isZero ∨ cv.sign)
  let clip : Option Q := if f.b.toNat = 123 ∨ badClip ∨ !cv.isFin then none else some cv.mag
  let g := c.hold f c.g
  let g := if badClip then g.raise fInvalid else g
  let k := c.g.ident.k
  let mag (l : Nat) : Q := (x l).mag
  if ls.any fun l => !(x l).isFin then
    -- a signalling NaN sets INVALID as everywhere (R48)
    let g := g.raise (if ls.any fun l => (x l).isSig then fScaleNan ||| fInvalid else fScaleNan)
    let g := ls.foldl (fun g l => (c.drawIf rm g l 0).2) g
    let gl (l : Nat) : List Word :=
      let x := c.idGlove f l (.nan false) .zero (c.negPart f 0 0 f.a.toNat l)
      if c.modes.dm = 0 then x else f32Inf :: x.drop 1
    let g := ls.foldl (fun g l => g.putD f.d.toNat l 0 (gl l)) g
    let z : List Word := zeroGlove k
    [0, 1, 2, 3, 4].foldl (fun g l => g.writeV l f.c (if l = 0 then 0xFF else 0) z) g
  else
    let m := ls.foldl (fun a l => if a.lt (mag l) then mag l else a) Q.zero
    let amax := match clip with
      | some q => if q.lt m then q else m
      | none => m
    let code := scaleCode fm amax
    let os := outliers mag clip ls
    let capt := os.take (capOf f.sel)
    let sat := os.drop (capOf f.sel)
    let fate (l : Nat) : MxFate := if capt.contains l then .capt else if sat.contains l then .sat else .plain
    let (els, g) := c.mxEls fm rm (fmtSat c.gg.fmt) code fate x ls g
    let g := if sat.isEmpty then g else g.raise fOutlierOvf
    let codes := els.map (·.code)
    let el (l : Nat) : MxEl := els.getD l ⟨0, 0, .zero, 0, .fin false .zero⟩
    let put (g : Group) (l : Nat) : Group :=
      let e := el l
      g.putD f.d.toNat l (streamWord c.g.ident.width fm.width codes l)
        (c.idGlove f l e.y e.rv (c.negPart f 0 0 f.a.toNat l))
    let g := ls.foldl put g
    [0, 1, 2, 3, 4].foldl
      (fun g l => g.writeV l f.c (auxWord sat.length code capt (fun i => (el i).cap) l) (zeroGlove k)) g

/-- Narrow formats of a block: not BF16 or F16 (R187). -/
def blockFmt : Fmt → Bool
  | .e4m3 | .e5m2 | .e2m3 | .e3m2 | .e2m1 | .lns6 => true
  | _ => false

def execVMxquant (f : VForm) (s : State) : Res :=
  local1 (vLen f) s fun c => do
    let fm := c.nf f
    c.vCheck spMxquant f (fm.any blockFmt && c.g.ident.width == 32)
    if !c.anyActive then pure c.g
    else
      need (c.active == maskW 32) .maskPartial
      pure (c.mxquant f (fm.getD .e2m1))

/-! ## `v.mxdeq` (R188) -/

/-- The scale tile as a place: the team's own allocation or cluster memory (R188). -/
def Cx.tilePlace (c : Cx) (a : DWord) : Option Place :=
  match c.place a 128 with
  | some (.team id off) => some (.team id off)
  | _ => none

/-- The scale code of a lane and whether its word is poisoned. -/
def Cx.scaleOf (c : Cx) (f : VForm) (tile : Option Place) (lane : Nat) : Nat × Bool :=
  let b := (c.src f f.b.toNat lane).toNat
  match tile with
  | some (.team id off) =>
    let o := off + tileOffset (b % 32) (nbits b 5 2)
    let p := c.s.spad (.team id off)
    ((Mem.read p.bytes o).toNat, p.poisoned o)
  | _ => (b % 256, false)

/-- One lane. -/
def Cx.mxdeqLane (c : Cx) (f : VForm) (fm : Fmt) (st : Nat) (tile : Option Place) (g : Group) (l : Nat) : Group :=
  let rm := c.rm f.rnd
  let code := (c.scaleOf f tile l).1
  let (w, g) := c.drawIf rm g l 0
  if code = 255 then
    (g.raise fScaleNan).putD f.d.toNat l f32Nan (c.idGlove f l (.nan false) .zero false)
  else
    let v : FV := match fm.decode (nbits st (fm.width * l) fm.width) with
      | .fin s m => .fin s (m.times (.rat (scaleVal code)))
      | v => v
    let (b, fl, rv) := stdRound .f32 rm false w v
    (g.raise fl).putD f.d.toNat l (wd b) (c.idGlove f l v rv false)

/-- The group after `v.mxdeq`, its fields checked. A PROTECTION and a POISON of the tile give the tile's address in TRAP_ADDR, and a
lane whose scale byte is poisoned takes no draw (log 37). -/
def Cx.mxdeq (c : Cx) (f : VForm) (fm : Fmt) : Except Tq Group :=
  let st := c.streamOf f.a.toNat fm.width
  if f.sel < 2 then pure (c.lanes.foldl (c.mxdeqLane f fm st none) (c.hold f c.g))
  else if !c.anyActive then pure c.g
  else
    let a := c.g.readS f.sreg
    if a.toNat % 128 ≠ 0 then throw { code := .scaleLayout, lanes := c.active, addr := a }
    else
      match c.tilePlace a with
      | none => throw { code := .protection, lanes := c.active, addr := a }
      | some p =>
        let bad := c.lanes.filter fun l => (c.scaleOf f (some p) l).2
        let g := (c.lanes.filter fun l => !bad.contains l).foldl (c.mxdeqLane f fm st (some p)) (c.hold f c.g)
        pure (g.gangPoison c.gg bad a)

/-- What the read of a scale tile waits for: what a plain load does, and the group's own crew operations that are still to write
words of the tile. -/
def Cx.tileWait (c : Cx) (f : VForm) : Option Wait :=
  if !(2 ≤ f.sel && c.anyActive) then none
  else match c.loadWait with
    | some w => some w
    | none => if (c.tilePlace (c.g.readS f.sreg)).any fun p => c.crewMeets p 128 false then some .crewDrain else none

/-- The read of a scale tile is ordered as a plain load. -/
def execVMxdeq (f : VForm) (s : State) : Res :=
  issue s fun c =>
    let fm := c.nf f
    match c.vCheck spMxdeq f (fm.isSome && f.a.toNat < 120) with
    | .error q => c.trap q
    | .ok _ =>
      match c.tileWait f with
      | some w => c.park (.wait w)
      | none =>
        match c.mxdeq f (fm.getD .e2m1) with
        | .error q => c.trap q
        | .ok g => c.done (vLen f) g

end Sys2Proof.Machine
end

