-- ==== Sys2Proof/Machine/Scratch.lean ====
section
/-! DEFINITION. Scratchpad and lane-private accesses, tags, tag waits and the chunk counter (spec/07 R194 to R205, R211):
opcodes 0x82, 0x83, 0x86, 0x87, 0x8D, 0x97, 0x98 and the event TAG_WAIT_SATISFY. -/

namespace Sys2Proof.Machine

/-! ## Scratchpad accesses -/

/-- The access of one lane: n bytes at a place; `addr` is its address before swizzling. -/
structure SPiece where
  lane : Nat
  addr : DWord
  pl : Place
  deriving DecidableEq, Repr

/-- Rank 7 for the active lanes: MISALIGNED on the address before swizzling, then PROTECTION (R89, R194, R338). -/
def Cx.spadPieces (c : Cx) (m : MForm) (n : Nat) : Except Tq (List SPiece) :=
  let addrs := c.lanes.map fun l => (l, c.laneAddr m (imm16 m) l)
  let mis := addrs.filter fun a => a.2.toNat % n != 0
  let at' (a : DWord) : Option Place := c.place (swizzle a m.swz.toNat) n
  let prot := addrs.filter fun a => (at' a.2).isNone
  if !mis.isEmpty then .error (laneTrap .misaligned mis)
  else if !prot.isEmpty then .error (laneTrap .protection prot)
  else .ok (addrs.filterMap fun a => (at' a.2).map fun p => ⟨a.1, a.2, p⟩)

/-- An order of the lanes that no rule states, where two lanes share a word and the access writes (log 22). -/
def spadOrder (tick n : Nat) (det writes : Bool) (ps : List SPiece) : List SPiece :=
  if writes && ps.any fun p => ps.any fun q => p.lane != q.lane && placesOverlap p.pl n q.pl n then
    orderLanes (·.lane) tick det ps
  else ps

/-- The place i bytes further on. -/
def Place.plus : Place → Nat → Place
  | .team t o, i => .team t (o + i)
  | .die d o, i => .die d (o + i)

/-- The bytes of a lane's store, with what the scratchpad holds where slices of the split set that come after it have stored
(R288, log 22). -/
def Cx.spadBytes (c : Cx) (s : State) (p : SPiece) (bs : List Byte) : List Byte :=
  if c.g.splitStores.isEmpty then bs
  else bs.zipIdx.map fun b =>
    if c.outranked p.lane (.inr (p.pl.plus b.2)) then (s.spadRead (p.pl.plus b.2) 1).headD 0 else b.1

/-- Meeting the tags of a waiting access (R202, R203). -/
inductive TagTest where
  | met | unmet | fault
  deriving DecidableEq, Repr

def State.tagTest (s : State) (p : Place) (n want : Nat) : TagTest :=
  let ts := (wordsOf p.off n).map (s.spad p).tag
  if ts.any isFault then .fault else if ts.all (· == want) then .met else .unmet

/-- Set the tag of every word of an access. -/
def State.setTags (s : State) (p : Place) (n t : Nat) : State :=
  s.modSpad p fun x => (wordsOf p.off n).foldl (fun x o => x.setTag o t) x

/-- An earlier waiter on one of the words whose tags are as it wants them comes first (R202). -/
def State.tagBlocked (s : State) (arrived : Nat) (p : Place) (n : Nat) : Bool :=
  s.groups.any fun g => g.gangs.any fun x =>
    match x.park with
    | some (.tag w) => w.arrived < arrived && w.todo.any fun t =>
        placesOverlap t.2.2 w.n p n && s.tagTest t.2.2 w.n w.want != .unmet
    | _ => false

/-- What a scratchpad instruction does in a lane. -/
inductive SDo where
  /-- Load, and set the tag where one is given. -/
  | load (vd regs : Nat) (sx : Bool) (tag : Option Nat)
  /-- Store the register bytes, and set the tag where one is given. -/
  | store (vd regs : Nat) (tag : Option Nat)
  deriving DecidableEq, Repr

def SDo.isStore : SDo → Bool | .store .. => true | .load .. => false
/-- The order of two lanes can be seen. -/
def SDo.writes : SDo → Bool | .store .. => true | .load _ _ _ t => t.isSome

/-- Bytes of n registers of a lane from `r`, cut to the width (R195). -/
def Group.regBytes (g : Group) (lane r regs n : Nat) : List Byte :=
  ((List.range regs).flatMap fun i => leBytes 4 ((g.lane lane).vreg (r + i)).toNat).take n

/-- The same for the team of `c`: tags of the die scratchpad and of another member lie outside it (R312, log 41). -/
def Cx.putTags (c : Cx) (p : Place) (n t : Nat) (s : State) : State :=
  let s := s.setTags p n t
  if c.outside p then s.markSide c.t else s

/-- Perform a lane's access (R200): a poisoned word stops a load and a narrow store. -/
def Cx.spadLane (c : Cx) (d : SDo) (n : Nat) (p : SPiece) (r : Perf) : Perf :=
  let poisoned := r.s.spadPoison p.pl n
  let tagged (t : Option Nat) (s : State) : State := match t with | some t => c.putTags p.pl n t s | none => s
  match d with
  | .load vd regs sx t =>
    if poisoned then { r with bad := r.bad ++ [(some p.lane, p.addr)] }
    else { r with
      ws := r.ws ++ loadWrites sx (c.g.vTgts p.lane vd regs) (r.s.spadRead p.pl n)
      s := tagged t r.s }
  | .store vd regs t =>
    if poisoned && n < 4 then { r with bad := r.bad ++ [(some p.lane, p.addr)] }
    else
      let s := r.s.modSpad p.pl fun x => x.store p.pl.off (c.spadBytes r.s p (c.g.regBytes p.lane vd regs n))
      let s := if c.outside p.pl then s.markSide c.t else s
      { r with s := tagged t s }

/-- A waiting access so far. -/
structure Waited where
  r : Perf
  todo : List SPiece
  faulted : List (Nat × DWord)

/-- Test one lane of a waiting access, and act where its condition is met (R202, R203). -/
def Cx.tagLane (c : Cx) (d : SDo) (arrived n want : Nat) (w : Waited) (p : SPiece) : Waited :=
  if w.r.s.tagBlocked arrived p.pl n then { w with todo := w.todo ++ [p] }
  else
    match w.r.s.tagTest p.pl n want with
    | .fault => { w with faulted := w.faulted ++ [(p.lane, p.addr)] }
    | .unmet => { w with todo := w.todo ++ [p] }
    | .met => { w with r := c.spadLane d n p w.r }

/-- The mask result of a group-and-lane instruction (R205): the gang's lanes, and zeros at and above the width. -/
def Cx.maskTgt (c : Cx) (n : Nat) : Tgt :=
  .sreg n (if n = 63 then zx64 c.gg.mask else zx64 c.gg.mask ||| ~~~zx64 (maskW c.g.ident.width))

/-- Every active lane is resolved: the mask of a predicated access, or TAG_FAULT, or the end of the instruction; `go` takes the gang
on, from where it issues or from where it was parked. -/
def Cx.tagFinish (c : Cx) (go : Group → Gang → Nat → Group) (mask : Option Nat) (op : Option Nat) (faulted : List (Nat × DWord))
    (s : State) : Res :=
  let gid := c.g.ident.id
  let low : List (Nat × DWord) := (List.range 32).filterMap fun l => faulted.find? fun f => f.1 == l
  let part (g : Group) : Group := match op with | some o => g.opPart o | none => g
  match mask with
  | some sb =>
    .next (s.modGroup gid fun g =>
      let g := match op with
        | some o => g.addWrites o [(c.maskTgt sb, zx64 (maskOf (faulted.map (·.1))))]
        | none => g
      let g := if faulted.isEmpty then g else g.raise 0x200
      go (part g) c.gg 2)
  | none =>
    if faulted.isEmpty then .next (s.modGroup gid fun g => go (part g) c.gg 2)
    else { c with s := s.modGroup gid part, gg := { c.gg with op := none } }.trap (laneTrap .tagFault low)

/-- A scratchpad access of a whole instruction; `want` is the tag it waits for, `mask` the register of a predicated one. -/
def Cx.spadAccess (c : Cx) (m : MForm) (d : SDo) (want mask : Option Nat) (release : Bool) : Res :=
  let gid := c.g.ident.id
  let n := mBytes m
  let ahead := c.keyAhead
  if c.g.tx.close.isSome then c.park (.wait .commit)
  else if ahead.any (·.barred) || (release && !ahead.isEmpty) then c.park (.wait .keyed)
  else
    match c.spadPieces m n with
    | .error q => c.trap q
    | .ok ps =>
      -- a release, and an access to words that the group's own crew operations are still to make, follow those (R253, R276)
      if (release && c.crewLeft) || ps.any fun p => c.crewMeets p.pl n d.writes then c.park (.wait .crewDrain)
      -- an acquire without an active lane is an acquire fence (R44)
      else if c.heldBack [] (release || ps.isEmpty && (m.order.toNat % 2 == 1 || want.isSome && !d.isStore)) false then
        c.park (.wait .behind)
      else
      let ps := spadOrder c.s.tick n c.l.hdr.det d.writes ps
      let (op, s) := if d.isStore then (none, c.s) else let (o, s) := c.openOp c.s; (some o, s)
      let s := if ps.isEmpty && (m.order.toNat % 2 == 1 || want.isSome && !d.isStore) then s.modGroup gid Group.barKeyed else s
      let keep (r : Perf) : State :=
        let s := c.notePoison c.gg.id r.bad r.s
        let s := if d.isStore && want.isNone then
            c.noteStores c.gg.split ((ps.filter fun p => !r.bad.any (·.1 == some p.lane)).map fun p => (p.lane, .inr p.pl, n)) s
          else s
        match op with | some o => s.modGroup gid fun g => g.addWrites o r.ws | none => s
      match want with
      | none => c.tagFinish Group.advance none op [] (keep (ps.foldl (fun r p => c.spadLane d n p r) ⟨s, [], []⟩))
      | some want =>
        let w := ps.foldl (c.tagLane d s.tick n want) ⟨⟨s, [], []⟩, [], []⟩
        let s := keep w.r
        if w.todo.isEmpty then c.tagFinish Group.advance (if ps.isEmpty then none else mask) op w.faulted s
        else
          let tw : TagWait := ⟨c.s.tick, n, want, w.todo.map fun p => (p.lane, p.addr, p.pl), w.faulted⟩
          .next (s.modGroup gid fun g => g.modGang c.gg.id fun x => { x with park := some (.tag tw), op := op })

/-- Ranks 3 and 4 and the access. -/
def spadOp (m : MForm) (s : State) (ok : Bool) (d : SDo) (want mask : Option Nat) (release : Bool) : Res :=
  issue s fun c =>
    match c.mCheck ok m (mRegs m) [] with
    | .error q => c.trap q
    | .ok _ => c.spadAccess m d want mask release

/-- Table 7.3. -/
def ldspDo (m : MForm) : SDo := .load m.vd.toNat (mRegs m) false (if m.tag = 2 then some tagEmpty else none)
def ldspWant (m : MForm) : Option Nat := if m.tag = 0 then none else some tagFull
def stspDo (m : MForm) : SDo := .store m.vd.toNat (mRegs m) (if m.tag = 0 then none else some tagFull)
def stspWant (m : MForm) : Option Nat := if m.tag = 1 then some tagEmpty else none

def execVLdsp (m : MForm) (s : State) : Res := spadOp m s (vLdspOk m) (ldspDo m) (ldspWant m) none false
def execVStsp (m : MForm) (s : State) : Res :=
  spadOp m s (vStspOk m) (stspDo m) (stspWant m) none (m.tag != 0 || m.order == 2)

/-- R205: a predicated waiting load. -/
def execTagGetWait (m : MForm) (s : State) : Res :=
  spadOp m s (tagGetWaitOk m) (ldspDo m) (ldspWant m) (some m.sb.toNat) false

/-- R205: the tag of the first word, long-latency. -/
def execTagGet (m : MForm) (s : State) : Res :=
  issue s fun c =>
    match c.mCheck (tagGetOk m) m 1 [] with
    | .error q => c.trap q
    | .ok _ =>
      match c.loadWait with
      | some w => c.park (.wait w)
      | none =>
        match c.spadPieces m 4 with
        | .error q => c.trap q
        | .ok ps =>
          if ps.any fun p => c.crewMeets p.pl 4 false then c.park (.wait .crewDrain) else
          let tag (p : SPiece) : Nat := min ((c.s.spad p.pl).tag p.pl.off) tagFault
          let ws := ps.flatMap fun p => wordWrites (c.g.vTgts p.lane m.vd.toNat 1) (leBytes 4 (tag p))
          .next ((c.result c.s ws).modGroup c.g.ident.id fun g => g.advance c.gg 2)

/-- R205: the tag of every word; the data and the poison marks stay. -/
def execTagSet (m : MForm) (s : State) : Res :=
  issue s fun c =>
    match c.mCheck (tagSetOk m) m 0 [] with
    | .error q => c.trap q
    | .ok _ =>
      if c.g.tx.close.isSome then c.park (.wait .commit)
      else if !c.keyAhead.isEmpty then c.park (.wait .keyed)
      else if c.crewLeft then c.park (.wait .crewDrain)
      else if c.heldBack [] true false then c.park (.wait .behind)
      else
        match c.spadPieces m (mBytes m) with
        | .error q => c.trap q
        | .ok ps =>
          let s := ps.foldl (fun (s : State) p => c.putTags p.pl (mBytes m) m.tag.toNat s) c.s
          .next (s.modGroup c.g.ident.id fun g => g.advance c.gg 2)

/-! ## TAG_WAIT_SATISFY -/

/-- The action, the mask register and the instruction of a waiting access. -/
def tagDo : Instr → Option (SDo × Option Nat)
  | .vLdsp m => some (ldspDo m, none)
  | .vStsp m => some (stspDo m, none)
  | .tagGetWait m => some (ldspDo m, some m.sb.toNat)
  | _ => none

/-- A waiting lane whose word is as it wants it, and that is the first such waiter on the word, takes effect (R202). A gang
that a handler of its group holds stays parked (R340). -/
def execTagWaitSatisfy (gid gang lane : Nat) (s : State) : Res :=
  match s.cxOf gid gang with
  | none => .next s
  | some c =>
    if c.g.handler.isSome && !c.handler then .next s else
    match c.gg.park, c.gg.instr?.bind tagDo with
    | some (.tag w), some (d, mask) =>
      match w.todo.find? fun t => t.1 == lane with
      | none => .next s
      | some t =>
        let p : SPiece := ⟨t.1, t.2.1, t.2.2⟩
        let r := c.tagLane d w.arrived w.n w.want ⟨⟨s, [], []⟩, [], []⟩ p
        if !r.todo.isEmpty then .next s
        else
          let s := c.notePoison gang r.r.bad r.r.s
          let s := match c.gg.op with | some o => s.modGroup gid fun g => g.addWrites o r.r.ws | none => s
          let left := w.todo.filter fun t => t.1 != lane
          let faulted := w.faulted ++ r.faulted
          if left.isEmpty then c.tagFinish Group.release mask c.gg.op faulted s
          else .next (s.modGroup gid fun g => g.parkGang c.gg (.tag { w with todo := left, faulted := faulted }))
    | _, _ => .next s

/-! ## Lane-private memory (R21, R199) -/

/-- Rank 7 of a lane-private access. -/
def Cx.lplAddrs (c : Cx) (m : MForm) : Except Tq (List (Nat × DWord)) :=
  let addrs := c.lanes.map fun l => (l, c.laneAddr m (imm16 m) l)
  let mis := addrs.filter fun a => a.2.toNat % mBytes m != 0
  let prot := addrs.filter fun a => c.g.ident.lpmBytes < a.2.toNat + mBytes m
  if !mis.isEmpty then .error (laneTrap .misaligned mis)
  else if !prot.isEmpty then .error (laneTrap .protection prot)
  else .ok addrs

def execVLdl (m : MForm) (s : State) : Res :=
  issue s fun c =>
    match c.mCheck (vLdlOk m) m (mRegs m) [] with
    | .error q => c.trap q
    | .ok _ =>
      if c.g.tx.close.isSome then c.park (.wait .commit)
      else
        match c.lplAddrs m with
        | .error q => c.trap q
        | .ok as =>
          let ws := as.flatMap fun a => loadWrites (m.tag == 1) (c.g.vTgts a.1 m.vd.toNat (mRegs m))
            (Mem.readN (c.g.lane a.1).lpm a.2.toNat (mBytes m))
          .next ((c.result c.s ws).modGroup c.g.ident.id fun g => g.advance c.gg 2)

def execVStl (m : MForm) (s : State) : Res :=
  issue s fun c =>
    match c.mCheck (vStlOk m) m (mRegs m) [] with
    | .error q => c.trap q
    | .ok _ =>
      if c.g.tx.close.isSome then c.park (.wait .commit)
      else
        match c.lplAddrs m with
        | .error q => c.trap q
        | .ok as =>
          let put (g : Group) (a : Nat × DWord) : Group :=
            let bs := c.g.regBytes a.1 m.vd.toNat (mRegs m) (mBytes m)
            g.modLane a.1 fun x => { x with lpm := Mem.writeN x.lpm a.2.toNat bs }
          .next (s.modGroup c.g.ident.id fun g => (as.foldl put g).advance c.gg 2)

/-! ## Chunk counters (R211) -/

/-- What a take returns, and the new NEXT; none for a descriptor with a reserved bit set. -/
def chunkTake (next fin cmin takers : Nat) : Nat × Nat :=
  let rem := if next ≥ fin then 0 else fin - next
  let size := max (max cmin 1) (ceilTo (2 * max takers 1) rem / (2 * max takers 1))
  let count := min size rem
  (count, (next + count) % 2 ^ 64)

def execChunkTake (m : MForm) (s : State) : Res :=
  issue s fun c =>
    let sd := m.vd.toNat
    match c.mCheck (chunkTakeOk m) m 0 [sd, sd + 1] with
    | .error q => c.trap q
    | .ok _ =>
      if c.g.tx.close.isSome then c.park (.wait .commit)
      else if c.g.keyBarred then c.park (.wait .keyed)
      else
        let a := c.g.readS m.sb.toNat + imm16 m
        let gid := c.g.ident.id
        if a.toNat % 32 != 0 then c.trap { code := .misaligned, addr := a }
        else
          match c.place a 32 with
          | some (.die d off) =>
            let p : Place := .die d off
            let fin (s : State) : Res := .next (s.modGroup gid fun g => (g.forbid c.gg).advance c.gg 2)
            if s.spadPoison p 32 then fin (c.notePoison c.gg.id [(none, a)] (c.result s []))
            else
              let bs := s.spadRead p 32
              let f (lo n : Nat) : Nat := leNat ((bs.drop lo).take n)
              if f 24 8 ≠ 0 then
                fin (c.result s [(.sreg sd (BitVec.allOnes 64), BitVec.allOnes 64), (.sreg (sd + 1) (BitVec.allOnes 64), 0)])
              else
                let (count, next) := chunkTake (f 0 8) (f 8 8) (f 16 4) (f 20 4)
                let s := s.modSpad p fun x => { x with bytes := Mem.writeN x.bytes off (leBytes 8 next) }
                let s := s.markSide c.t
                fin (c.result s [(.sreg sd (BitVec.allOnes 64), dw (f 0 8)), (.sreg (sd + 1) (BitVec.allOnes 64), dw count)])
          | _ => c.trap { code := .protection, addr := a }

end Sys2Proof.Machine
end

