-- ==== Sys2Proof/Machine/Transact.lean ====
section
/-! DEFINITION. Transactions and the key (spec/07 R215 to R229): opcodes 0x91 to 0x96, and the events TX_COMMIT, LOCK_GRANT,
KEYED_OP_PERFORM and KEY_ROUND_PASS. -/

namespace Sys2Proof.Machine

/-! ## tx.begin and the serial lock -/

/-- The effect of `tx.begin` after its lock step (R215). -/
def Group.txOpen (g : Group) (gg : Gang) : Group :=
  let act := g.active gg
  let g := { g with tx := { g.tx with depth := g.tx.depth + 1 } }
  let start (t : LaneTx) : LaneTx :=
    { t with
      inTx := true, nl := 1, doomed := false, cause := .none, xcode := 0, faddr := 0, ran := true
      committed := false, locked := g.tx.lockHeld, rlog := [], wlog := [] }
  gg.lanes.foldl (fun g l => g.modTx l fun t =>
    if t.inTx then { t with nl := t.nl + 1 } else if act.getLsbD l then start t else t) g

def execTxBegin (m : MForm) (s : State) : Res :=
  issue s fun c =>
    let gid := c.g.ident.id
    match c.bareCheck (bareOk m) m 0 [] with
    | .error q => c.trap q
    | .ok _ =>
      if c.g.tx.close.isSome then c.park (.wait .commit)
      else if c.g.tx.depth ≥ 7 then c.trap { code := .illegalOperand }
      else if c.g.tx.depth == 0 && !c.g.tx.lockHeld && (s.die c.die).ctl.txRetryLimit.toNat ≤ c.g.tx.conflicts then
        -- R224: in a deterministic launch the group first waits until it holds the key
        if c.l.hdr.det && !c.handler && !s.groupHolds c.l c.t c.g c.g.round then c.park (.wait .key)
        else
          let s := s.modDie c.die fun d => { d with lockQueue := d.lockQueue ++ [(gid, c.gg.id)] }
          .next (s.modGroup gid fun g => { g.parkGang c.gg .lock with tx := { g.tx with lockQueued := true } })
      else .next (s.modGroup gid fun g => (g.txOpen c.gg).advance c.gg 2)

/-- LOCK_GRANT: the lock goes to the head of the queue, whose `tx.begin` completes; LOCK_QUEUED stays while another gang of the group
is in the queue (R224, log 39). -/
def execLockGrant (d : DieId) (s : State) : Res :=
  let x := s.die d
  match x.lockQueue with
  | [] => .next s
  | (gid, k) :: rest =>
    if x.lockHolder.any (· != gid) then .next s
    else
      let s1 := s.modDie d fun x => { x with lockQueue := rest }
      match (s.group? gid).bind fun g => (g.gang? k).map fun gg => (g, gg) with
      | none => .next s1
      | some (g, gg) =>
        if gg.park != some .lock then .next s1
        else
          -- a holder is never discarded: its side-effect bit is set (R318, log 39)
          let s1 := (match s.team? g.ident.team with | some t => s1.markSide t | none => s1).modDie d fun x =>
            { x with lockHolder := some gid }
          let queued := rest.any fun e => e.1 == gid
          .next (s1.modGroup gid fun g =>
            let g := { g with tx := { g.tx with lockHeld := true, lockQueued := queued } }
            (g.txOpen gg).release gg 2)

/-! ## tx.end and commits -/

/-- The target of the mask of a `tx.end` (R215, R205). -/
def TxClose.tgt (x : TxClose) (width : Nat) : Tgt :=
  .sreg x.sd (if x.sd = 63 then zx64 x.lanes else zx64 x.lanes ||| ~~~zx64 (maskW width))

/-- A `tx.end` with no commit outstanding: CONFLICTS where a lane closed, and the mask (R215, R223). -/
def Group.closeTx (g : Group) (x : TxClose) (closing : Bool) : Group :=
  let g := { g with tx := { (if closing then g.tx.count x.conflict x.allDone else g.tx) with close := none } }
  (g.addWrites x.op [(x.tgt g.ident.width, zx64 x.mask)]).opPart x.op

/-- Close a lane that commits nothing, or one under the lock; an inactive one reports EXPLICIT 0 also where it was doomed (R215,
log 39). -/
def Group.closeLane (g : Group) (l : Nat) (active locked : Bool) : Group :=
  let t := (g.lane l).tx
  let cause : TxCause := if !active then .explicit else if t.doomed then t.cause else .none
  let done := active && !t.doomed
  let g := g.modTx l fun t => t.close done (t.locked || locked) cause (if active then t.xcode else 0)
  { g with tx := g.tx.note cause }

def execTxEnd (m : MForm) (s : State) : Res :=
  issue s fun c =>
    let gid := c.g.ident.id
    let sd := m.vd.toNat
    match c.bareCheck (txEndOk m) m 0 [sd] with
    | .error q => c.trap q
    | .ok _ =>
      if c.g.tx.close.isSome then c.park (.wait .commit)
      else if c.g.tx.depth == 0 then c.trap { code := .illegalOperand }
      else if c.releaseHeld then c.park (.wait c.releaseWait)
      else
        let held := c.g.tx.lockHeld
        let mine := c.gg.lanes.filter fun l => (c.g.lane l).tx.inTx
        let closing := mine.filter fun l => (c.g.lane l).tx.nl ≤ 1
        let isAct (l : Nat) : Bool := c.active.getLsbD l
        let commits (l : Nat) : Bool := isAct l && !(c.g.lane l).tx.doomed && !held
        let todo := closing.filter commits
        let done := closing.filter fun l => isAct l && !(c.g.lane l).tx.doomed && held
        let (op, s) := c.openOp s
        let x : TxClose := ⟨op, sd, c.gg.mask, todo, maskOf done, false, closing.all fun l => commits l || done.contains l,
          c.g.round⟩
        let s := s.modGroup gid fun g =>
          let g := { g with tx := { g.tx with depth := g.tx.depth - 1 } }
          let g := (mine.filter fun l => !closing.contains l).foldl
            (fun g l => g.modTx l fun t => { t with nl := t.nl - 1 }) g
          let g := (closing.filter fun l => !todo.contains l).foldl (fun g l => g.closeLane l (isAct l) held) g
          let g := todo.foldl (fun g l => g.modTx l fun t => { t with inTx := false, nl := 0 }) g
          let g := if todo.isEmpty then g.closeTx x !closing.isEmpty else { g with tx := { g.tx with close := some x } }
          -- accesses on its two sides are ordered, whether lanes commit or not (R221, R278)
          let g := g.barKeyed
          -- commits of a deterministic launch are keyed (R226), those of a handler are not (R341)
          let g := if c.l.hdr.det && !c.handler then
              { g with keyq := g.keyq ++ todo.map fun l => ⟨g.round, l, c.gg.firstWord, none, s.nextId, false, false, none, 0, 0, .commit, .none⟩ }
            else g
          g.advance c.gg 2
        .next (if held && c.g.tx.depth == 1 then s.releaseLock c.die gid else s)

/-- The commit of one lane, as one indivisible action (R220, R221). -/
def State.commitLane (s : State) (c : Cx) (l : Nat) : State :=
  let gid := c.g.ident.id
  let t := (c.g.lane l).tx
  -- an uncorrectable error in the lane's write log (R218)
  let r := if t.doomed then .memError else s.validate t
  let cause : TxCause := match r with | .ok => .none | .conflict => .conflict | .memError => .memError
  let s := if r = .ok then s.applyLog t.wlog else s
  let s := if r = .ok && !t.wlog.isEmpty then s.markSide c.t else s
  s.modGroup gid fun g =>
    let g := g.modTx l fun t => t.close (r == .ok) t.locked cause 0
    let g := { g with tx := g.tx.note cause }
    match g.tx.close with
    | none => g
    | some x =>
      let x := { x with
        todo := x.todo.filter (· != l)
        mask := if r = .ok then x.mask ||| wd (2 ^ l) else x.mask
        conflict := x.conflict || r == .conflict
        allDone := x.allDone && r == .ok }
      if x.todo.isEmpty then g.closeTx x true else { g with tx := { g.tx with close := some x } }

/-- A commit may be performed: no other group holds the lock (R224), and no engine is still to write one of its lines
(R258). -/
def State.mayCommit (s : State) (c : Cx) (l : Nat) : Bool :=
  let t := (c.g.lane l).tx
  let eng := s.linesFor c.g.ident.id ((c.g.tx.close.map (·.op)).getD 0)
  (s.die c.die).lockHolder.all (· == c.g.ident.id) &&
  (t.rlog ++ t.wlog).all fun e => !eng.contains (lineOf (8 * e.1))

/-- The group with its team and launch, in the frame of one of its gangs. -/
def State.cxGroup (s : State) (gid : Nat) : Option Cx :=
  (s.group? gid).bind fun g => g.gangs.head?.bind fun gg => s.cxOf gid gg.id

/-- TX_COMMIT. -/
def execTxCommit (gid lane : Nat) (s : State) : Res :=
  match s.cxGroup gid with
  | none => .next s
  | some c =>
    if (c.g.tx.close.any fun x => x.todo.contains lane) && c.g.keyIdle && s.mayCommit c lane then
      .next (s.commitLane c lane)
    else .next s

/-! ## tx.abort and tx.stat -/

/-- R219. -/
def execTxAbort (m : MForm) (s : State) : Res :=
  issue s fun c =>
    match c.bareCheck (txAbortOk m) m 0 [] with
    | .error q => c.trap q
    | .ok _ =>
      if c.g.tx.close.isSome then c.park (.wait .commit)
      else
        let code : Byte := m.imm16.extractLsb' 0 8
        let ls := c.lanes.filter fun l => (c.g.lane l).tx.inTx && !(c.g.lane l).tx.doomed
        .next (s.modGroup c.g.ident.id fun g =>
          let g := ls.foldl (fun g l => g.modTx l fun t => t.doom .explicit code 0) g
          let g := if ls.isEmpty then g else { g with tx := { g.tx with xcode := code } }
          g.advance c.gg 2)

/-- The four words of Table 7.7. -/
def LaneTx.words (t : LaneTx) : List Word :=
  let fa : DWord := if t.cause = .fault then t.faddr else 0
  [t.xcode ++ 0#16 ++ BitVec.ofNat 4 t.cause.code ++ BitVec.ofBool t.locked ++ BitVec.ofBool t.inTx ++
     BitVec.ofBool t.ran ++ BitVec.ofBool t.committed,
   0#16 ++ BitVec.ofNat 8 t.wlog.length ++ BitVec.ofNat 8 t.rlog.length, lo32 fa, hi32 fa]

/-- R222. -/
def execTxStat (m : MForm) (s : State) : Res :=
  issue s fun c =>
    match c.bareCheck (txStatOk m) m (mRegs m) [] with
    | .error q => c.trap q
    | .ok _ =>
      if c.g.tx.close.isSome then c.park (.wait .commit)
      else
        let bytes (l : Nat) : List Byte := (c.g.lane l).tx.words.flatMap fun w => leBytes 4 w.toNat
        let ws := c.lanes.flatMap fun l =>
          wordWrites (c.g.vTgts l m.vd.toNat (mRegs m)) ((bytes l).take (4 * mRegs m))
        .next ((c.result s ws).modGroup c.g.ident.id fun g => g.advance c.gg 2)

/-! ## The key (R226 to R229) -/

def execKeyWait (m : MForm) (s : State) : Res :=
  issue s fun c =>
    match c.bareCheck (bareOk m) m 0 [] with
    | .error q => c.trap q
    | .ok _ =>
      if !c.l.hdr.det then c.trap { code := .keyOrder }
      else if c.g.tx.close.isSome then c.park (.wait .commit)
      else if s.groupHolds c.l c.t c.g c.g.round then
        -- an acquire at die scope (R228): the group's later accesses stay behind its waiting keyed ones
        .next (s.modGroup c.g.ident.id fun g => g.barKeyed.advance c.gg 2)
      else c.park (.wait .key)

/-- The pass is recorded when every live slice has issued it (R228). -/
def Group.recordPass (g : Group) : Group :=
  if !g.passed.isEmpty && g.liveSlices.all g.passed.contains then { g with round := g.round + 1, passed := [] } else g

/-- The group goes on at once; its pass is recorded once its earlier keyed accesses are performed (`Group.passRecorded`). Slices of a
merged gang are counted as `bar` counts them (log 49). -/
def execKeyPass (m : MForm) (s : State) : Res :=
  issue s fun c =>
    match c.bareCheck (bareOk m) m 0 [] with
    | .error q => c.trap q
    | .ok _ =>
      if !c.l.hdr.det || c.g.tx.depth > 0 then c.trap { code := .keyOrder }
      else if c.g.tx.close.isSome then c.park (.wait .commit)
      else if c.gg.slices.all c.g.passed.contains then c.park (.wait .keyNext)
      else if c.releaseHeld then c.park (.wait c.releaseWait)
      else
        .next (((s.markSide c.t).modGroup c.g.ident.id fun g =>
          ({ g with passed := g.passed ++ c.gg.slices.filter fun j => !g.passed.contains j }.recordPass).advance c.gg 2).settleKey c.t.id)

/-- A keyed access whose home cannot be reached parks, with a record of CODE 0x0D (R272). -/
def Cx.parkKeyed (c : Cx) (a : KeyedAcc) : State :=
  let s := c.s.offerFault c.die (faultRec c.l.launchId c.t.core 0 a.va true (.down 0)) (a.wait == .again)
  s.modGroup c.g.ident.id fun g => { g with keyq := { a with wait := .waits } :: g.keyq.tail }

/-- KEYED_OP_PERFORM: the group's first waiting keyed access, while the group holds the key for its round (R226). -/
def execKeyedOpPerform (gid : Nat) (s : State) : Res :=
  match s.cxGroup gid with
  | none => .next s
  | some c =>
    match c.g.keyq with
    | [] => .next s
    | a :: rest =>
      -- keyed copies that the group issued before come first too (R263)
      if a.wait == .waits || !s.groupHolds c.l c.t c.g a.round || c.g.keyedBehind a ||
          c.g.cmds.any fun k => k.id < a.num && k.keyedLeft
      then .next s
      else
        let slice := if a.lane < 32 then a.lane / 4 else a.lane - 32
        let pop (s : State) : State := s.modGroup gid fun g => { g with keyq := rest }
        if a.act = .commit then
          (if s.mayCommit c a.lane then .next (((pop s).commitLane c a.lane).settleKey c.t.id) else .next s)
        else if !s.reachable c.die a.pa then .next (c.parkKeyed a)
        else if (linesOf a.pa a.act.size).any (s.linesFor gid a.num).contains then .next s
        else
          let fin (s : State) (ws : List (Tgt × DWord)) : State :=
            match a.op with | some o => s.modGroup gid fun g => (g.addWrites o ws).opPart o | none => s
          if s.poisoned a.pa a.act.size then
            let note (x : Gang) : Gang :=
              if x.slices.contains slice then x.setPoison a.pc (if a.lane < 32 then wd (2 ^ a.lane) else 0) a.va else x
            .next ((fin ((pop s).modGroup gid fun g => { g with gangs := g.gangs.map note }) []).settleKey c.t.id)
          else
            let (s, ws) := (pop s).doAct a.pa a.act
            .next ((fin s ws).settleKey c.t.id)

/-- KEY_ROUND_PASS: the team passes its round where that is still to do (R227); what lets it pass settles it at once. -/
def execKeyRoundPass (team : Nat) (s : State) : Res :=
  match s.team? team with
  | none => .next s
  | some t =>
    match s.launch? t.launch with
    | none => .next s
    | some l =>
      if s.roundPasses l t then
        .next (s.modTeam team fun t => { t with round := t.round + 1 })
      else .next s

end Sys2Proof.Machine
end

