-- ==== Sys2Proof/Machine/Matrix.lean ====
section
/-! DEFINITION. The matrix instructions, opcodes 0xA0 to 0xA8, the rendezvous and the queue of a crew, and the event
CREW_OP_EXECUTE (spec/08 R233 to R254). -/

namespace Sys2Proof.Machine

/-! ## Crews (R233 to R235) -/

def crewValid (m : DWord) : Bool := m.getLsbD 28
/-- Quadrants of a crew in increasing order, and its size. -/
def crewQuads (m : DWord) : List Nat := (List.range 4).filter fun q => m.getLsbD (24 + q)
def crewSize (m : DWord) : Nat := (crewQuads m).length
def crewGq (m : DWord) (q : Nat) : Nat := (m.extractLsb' (6 * q) 6).toNat

/-- The group of a team on a quadrant under an index. -/
def memberOn (gs : List Group) (q idx : Nat) : Option Group :=
  gs.find? fun g => g.ident.idx == idx && g.ident.role == Role.matrix && g.ident.quad == q

/-- The groups that an MXCREW names. -/
def State.crewOf (s : State) (team : Nat) (m : DWord) : List Group :=
  let gs := s.groupsOf team
  (crewQuads m).filterMap fun q => memberOn gs q (crewGq m q)

/-- Ranks 3, 4 and 6 of a matrix instruction; every lane of the gang is active and none of the group has exited (R43). -/
def Cx.mxCheck (c : Cx) (ok : Bool) (sregs : List Nat) (vregs : List (Nat × Nat)) : Except Tq Unit := do
  need ok .illegalOperand
  need (c.sregsOk sregs && vregs.all fun r => r.1 + r.2 ≤ c.g.ident.nr) .regRange
  need (c.active == c.gg.mask && c.g.live == maskW c.g.ident.width) .maskPartial

/-- The MXCREW word that `mx.crew` writes (Table 1.4). -/
def crewWord (x : CrewForm) : DWord := 0#35 ++ 1#1 ++ x.qmask ++ x.gq

/-- Check 3 of R233. -/
def Cx.crewNamed (c : Cx) (x : CrewForm) : Bool :=
  let gs := c.s.groupsOf c.t.id
  x.qmask.getLsbD c.g.ident.quad && gqOf x.gq c.g.ident.quad == c.g.ident.idx && c.g.ident.width == 32 &&
  (List.range 4).all fun q => !x.qmask.getLsbD q || (memberOn gs q (gqOf x.gq q)).isSome

/-- No crew operation that the group has issued is outstanding. -/
def State.crewIdle (s : State) (g : Group) : Bool :=
  g.slot.isNone && !s.crewOps.any fun o => o.members.contains g.ident.id

def execMxCrew (x : CrewForm) (s : State) : Res :=
  issue s fun c =>
    match c.mxCheck (crewOk x && c.gg.pfx.isEmpty) [] [] with
    | .error q => c.trap q
    | .ok _ =>
      if !c.crewNamed x then c.trap { code := .crew }
      else if !s.crewIdle c.g then c.park (.wait .crewDrain)
      else .next (s.modGroup c.g.ident.id fun g => { g.advance c.gg 2 with mxcrew := crewWord x })

/-! ## What a crew operation names -/

/-- The accumulators that an operation names (R252); complex and binary64 operations name a pair. -/
def mxNames (i : Instr) : List Nat :=
  let pair (a : BitVec 3) : List Nat := [a.toNat, a.toNat + 1]
  match i with
  | .mxZero x => (List.range 8).filter fun a => x.mask.getLsbD a
  | .mxMma x | .mxMmad x => [x.acc.toNat]
  | .mxMmac x | .mxMma64 x => pair x.acc
  | .mxLdc x | .mxLdcVar x => [x.acc.toNat]
  | .mxLdcF64 x => pair x.acc
  | .mxStc x => if x.outf = 10 then pair x.acc else [x.acc.toNat]
  | _ => []

def CrewOp.names (o : CrewOp) : List Nat := match o.instr? with | some i => mxNames i | none => []

/-! ## Placing an operation (R235, steps 1 and 2) -/

/-- The trap that the whole latch takes. -/
def State.trapMember (s : State) (gid : Nat) (gang : Nat) (q : Tq) : State :=
  match s.group? gid with
  | none => s
  | some g =>
    match g.gang? gang with
    | none => s
    | some gg =>
      let s := s.modGroup gid fun g => { g with slot := none }.modGang gang fun x => { x with park := none }
      let a := gg.firstWord
      s.takeTrap gid { gg with park := none } ⟨q.code, q.lanes, q.sw, a, q.addr, a, gg.hdrAddr⟩

/-- Two entries agree (R235, step 3). -/
def SlotEntry.agrees (a b : SlotEntry) : Bool :=
  a.words == b.words && a.pfx == b.pfx && a.vals == b.vals && a.rm == b.rm && a.sat == b.sat && a.so == b.so

/-- The entries and MXCREW of the groups of a latch agree. -/
def latchAgrees (gs : List Group) : Bool :=
  gs.all fun g => gs.all fun h => g.mxcrew == h.mxcrew &&
    (match g.slot, h.slot with | some a, some b => a.agrees b | _, _ => false)

/-! ## The crew-wide checks (R235 step 4, R241, R245) -/

/-- A row lies within one window granted to the team. -/
def Cx.rowPlaced (c : Cx) (a : DWord) (swz bytes : Nat) : Bool :=
  let ps := (List.range ((bytes + 15) / 16)).map fun p => c.place (swizzle (a + dw (16 * p)) swz) (min 16 (bytes - 16 * p))
  ps.all Option.isSome && ps.all fun p => match p, ps.head? with | some x, some (some y) => x.same y | _, _ => false

/-- The first of rows not so placed. -/
def Cx.badRow (c : Cx) (base : DWord) (pitch swz rows bytes : Nat) : Option DWord :=
  ((List.range rows).map fun i => base + dw (i * 16 * pitch)).find? fun a => !c.rowPlaced a swz bytes

def needAddr (bad : Option DWord) (t : Trap) : Except Tq Unit :=
  match bad with | some a => .error { code := t, addr := a } | none => .ok ()
def alignedTo (k : Nat) (a : DWord) : Option DWord := if a.toNat % k = 0 then none else some a

/-- Alignment and windows of rows from a base. -/
def Cx.rowsCheck (c : Cx) (base : DWord) (pitch swz rows bytes : Nat) : Except Tq Unit := do
  needAddr (alignedTo 16 base) .misaligned
  needAddr (c.badRow base pitch swz rows bytes) .protection

/-- The checks of an arithmetic operation in the order of R241. -/
def Cx.arithCheck (c : Cx) (dist : Bool) (x : MxForm) (sh : MxShape) (vals : List DWord) (n : Nat) : Except Tq Unit := do
  let a := vals.getD 0 0
  let nbk := sh.k / 32
  need (!dist || (vals.getD 2 0).extractLsb' 48 16 == 0#16) .illegalOperand
  needAddr (alignedTo 16 a) .misaligned
  needAddr (if dist then alignedTo 16 (varBase vals) else none) .misaligned
  if x.scaled = 1 then
    needAddr (alignedTo 128 (aTiles vals)) .scaleLayout
    needAddr (alignedTo 128 (bTiles vals)) .scaleLayout
    needAddr (if x.bc.toNat % nbk = 0 then none else some (aTiles vals)) .scaleLayout
  needAddr (c.badRow a x.pitch.toNat x.swz.toNat (16 * n) sh.row) .protection
  if dist then needAddr (c.badRow (varBase vals) x.pitch.toNat x.swz.toNat (16 * n) (varRow sh.k)) .protection
  if x.scaled = 1 then
    needAddr (c.badRow (aTiles vals) 8 0 (n / 2) 128) .protection
    needAddr (c.badRow (bTiles vals) 8 0 (n / 2) 128) .protection

def Cx.crewChecks (c : Cx) (i : Instr) (vals : List DWord) (n : Nat) : Except Tq Unit :=
  let a := vals.getD 0 0
  let ldc (x : LdcForm) (kind : Nat) : Except Tq Unit :=
    c.rowsCheck a x.pitch.toNat x.swz.toNat (16 * n) (ldcRow kind x.nreg.toNat n)
  match i with
  | .mxLdc x => ldc x 0
  | .mxLdcVar x => ldc x 1
  | .mxLdcB x => ldc x 2
  | .mxLdcF64 x => ldc x 3
  | .mxStc x => do
    c.rowsCheck a x.pitch.toNat x.swz.toNat (16 * n) (stcRow x.outf.toNat n)
    let st := stcStatusAddr x a n
    needAddr (if (c.place st 8).isSome then none else some st) .protection
  | .mxMmad x => c.arithCheck true x (mxShapeOf false x) vals n
  | _ => match mxArith i with | some (x, sh) => c.arithCheck false x sh vals n | none => .ok ()

/-! ## Acceptance (R235, steps 3 to 5) -/

/-- Registers of every lane of a member. -/
def Group.regRows (g : Group) (r n : Nat) : List (List Word) :=
  (List.range n).map fun i => (List.range 32).map fun l => (g.lane l).vreg (r + i)

/-- The draws of a member for `mx.stc` (R251): draw t of each lane; the lanes' counters advance where `DrawWord` serves. -/
def Cx.stcDraws (c : Cx) (n : Nat) : List (List Word) × Group :=
  (List.range (8 * n)).foldl (fun (acc : List (List Word) × Group) t =>
    let (ws, g) := (List.range 32).foldl (fun (a : List Word × Group) l =>
      let (w, g) := c.drawFor a.2 l t
      (a.1 ++ [w], g)) ([], acc.2)
    (acc.1 ++ [ws], g)) ([], c.g)

/-- What a member's registers give an operation as it is accepted. -/
def Cx.capture (c : Cx) (i : Instr) (rm n : Nat) : List (List Word) × List (List Word) × Group :=
  match i with
  | .mxMmad x =>
    let sh := mxShapeOf false x
    (c.g.regRows x.vb.toNat (mxR sh.nb sh.k), c.g.regRows x.vbv.toNat (mxR 6 sh.k), c.g)
  | .mxStc _ => if rm = 4 then let (ws, g) := c.stcDraws n; (ws, [], g) else ([], [], c.g)
  | _ =>
    match mxArith i with
    | some (x, sh) => (c.g.regRows x.vb.toNat (mxR sh.nb sh.k), [], c.g)
    | none => ([], [], c.g)

/-- The operation enters the queue, and the members go on; those of `mx.ldc.b` stay parked (R249). -/
def State.acceptOp (s : State) (cs : List Cx) (i : Instr) (e : SlotEntry) : State :=
  let (id, s) := s.fresh
  let caps := cs.map fun c => c.capture i e.rm cs.length
  let isB := match i with | .mxLdcB _ => true | _ => false
  let s := (cs.zip caps).foldl (fun (s : State) x =>
    s.modGroup x.1.g.ident.id fun _ =>
      let g := { x.2.2.2 with slot := none }
      if isB then g.parkGang x.1.gg (.crewB id)
      else if s.focus = some (g.ident.id, x.1.gg.id) then g.advance x.1.gg e.words.length
      else g.release x.1.gg e.words.length) s
  let o : CrewOp := ⟨id, (cs.head?.map fun c => c.t.id).getD 0, cs.map fun c => c.g.ident.id,
    cs.map fun c => c.g.ident.quad, e.words, e.pfx, e.vals, e.rm, e.sat, e.so, caps.map (·.1), caps.map (·.2.1), none,
    opReads i e.vals cs.length, [], [], [], 0, 0⟩
  { s with crewOps := s.crewOps ++ [o] }

/-- A complete latch: CREW for all where the entries differ, a trap of all where a crew-wide check fails, and otherwise the
queue of four. -/
def State.meetLatch (s : State) (gs : List Group) : State :=
  let cs := gs.filterMap fun g => g.slot.bind fun e => s.cxOf g.ident.id e.gang
  let trapAll (q : Tq) : State := cs.foldl (fun s c => s.trapMember c.g.ident.id c.gg.id q) s
  match gs.head?.bind (·.slot), cs.head? with
  | some e, some c =>
    if !latchAgrees gs then trapAll { code := .crew }
    else if (s.crewOps.filter fun o => o.members == gs.map (·.ident.id)).length ≥ 4 then s
    else
      match decode e.words with
      | .ok i _ =>
        match c.crewChecks i e.vals gs.length with
        | .error q => trapAll q
        | .ok _ => s.acceptOp cs i e
      | .bad _ => s
  | _, _ => s

/-- Complete the latches of a team that are complete. -/
def State.settleLatches (s : State) (team : Nat) : State :=
  (s.groupsOf team).foldl (fun s g =>
    match s.group? g.ident.id with
    | none => s
    | some g =>
      let gs := s.crewOf team g.mxcrew
      if g.slot.isSome && gs.length == crewSize g.mxcrew && gs.all fun h => h.slot.isSome then s.meetLatch gs else s) s

/-- Place an operation in the member's slot. -/
def Cx.placeOp (c : Cx) (i : Instr) (vals : List DWord) (rm : Nat) (sat so : Bool) : Res :=
  if !crewValid c.g.mxcrew then c.trap { code := .crew }
  else if c.g.slot.isSome then c.park (.wait .slot)
  else
    let e : SlotEntry := ⟨c.gg.id, encode i, c.gg.pfx, vals, rm, sat, so⟩
    .next ((c.s.modGroup c.g.ident.id fun g => { g with slot := some e }.parkGang c.gg .crew).settleLatches c.t.id)

/-- A crew operation under its member's checks. -/
def mxOp (s : State) (ok : Cx → Bool) (sregs : List Nat) (vregs : Cx → List (Nat × Nat)) (i : Instr)
    (vals : Cx → List DWord) : Res :=
  issue s fun c =>
    match c.mxCheck (ok c) sregs (vregs c) with
    | .error q => c.trap q
    | .ok _ => c.placeOp i (vals c) 0 false false

def noPfx (b : Bool) (c : Cx) : Bool := b && c.gg.pfx.isEmpty

def execMxZero (x : ZeroForm) (s : State) : Res :=
  mxOp s (noPfx (zeroOk x)) [] (fun _ => []) (.mxZero x) fun _ => []

/-- Scalar registers that an arithmetic instruction names, in order. -/
def mxSregs (dist : Bool) (x : MxForm) : List Nat :=
  x.sa.toNat :: ((if x.scaled = 1 then [x.ss.toNat] else []) ++ (if dist then [x.sv.toNat] else []))

def mxVals (dist : Bool) (x : MxForm) (c : Cx) : List DWord :=
  [c.g.readS x.sa.toNat, if x.scaled = 1 then c.g.readS x.ss.toNat else 0, if dist then c.g.readS x.sv.toNat else 0]

def mxVregs (x : MxForm) (sh : MxShape) : List (Nat × Nat) := [(x.vb.toNat, mxR sh.nb sh.k)]

def execMxMma (x : MxForm) (s : State) : Res :=
  mxOp s (noPfx (mmaOk x)) (mxSregs false x) (fun _ => mxVregs x (mxShapeOf false x)) (.mxMma x) (mxVals false x)

def execMxMmac (x : MxForm) (s : State) : Res :=
  mxOp s (noPfx (mmacOk x)) (mxSregs false x) (fun _ => mxVregs x (mxShapeOf true x)) (.mxMmac x) (mxVals false x)

def execMxMma64 (x : MxForm) (s : State) : Res :=
  mxOp s (noPfx (mma64Ok x)) (mxSregs false x) (fun _ => mxVregs x (mxShapeOf false x)) (.mxMma64 x) (mxVals false x)

/-- R245, R247: SO is that of a `pfx.mom.ind`, otherwise that of FMT. -/
def execMxMmad (x : MxForm) (s : State) : Res :=
  issue s fun c =>
    let ps := c.gg.pfx
    let pre := ps.all fun p => p.isMom && p.fieldsOk && (momOf [p]).all fun f => f.pmod.toNat % 4 == 1
    let sh := mxShapeOf false x
    let so := match momOf ps with | some p => p.pmod.getLsbD 2 | none => fmtSo c.gg.fmt
    match c.mxCheck (mmadOk x && pre) (mxSregs true x) (mxVregs x sh ++ [(x.vbv.toNat, mxR 6 sh.k)]) with
    | .error q => c.trap q
    | .ok _ => c.placeOp (.mxMmad x) (mxVals true x c) 0 false so

/-- R249; the pitch against the row needs the crew's size, but for the registers of KIND 2. -/
def mxLdcOp (kind : Nat) (x : LdcForm) (i : Instr) (s : State) : Res :=
  mxOp s (fun c => noPfx (ldcOk kind x) c && ((kind != 2 && !crewValid c.g.mxcrew) ||
      16 * x.pitch.toNat ≥ ldcRow kind x.nreg.toNat (crewSize c.g.mxcrew)))
    [x.sa.toNat] (fun _ => if kind = 2 then [(x.vb.toNat, x.nreg.toNat)] else []) i fun c => [c.g.readS x.sa.toNat]

def execMxLdc (x : LdcForm) (s : State) : Res := mxLdcOp 0 x (.mxLdc x) s
def execMxLdcVar (x : LdcForm) (s : State) : Res := mxLdcOp 1 x (.mxLdcVar x) s
def execMxLdcB (x : LdcForm) (s : State) : Res := mxLdcOp 2 x (.mxLdcB x) s
def execMxLdcF64 (x : LdcForm) (s : State) : Res := mxLdcOp 3 x (.mxLdcF64 x) s

/-- A row of the member's part of the store, or the status word, lies outside the team (R312). -/
def Cx.stcOutside (c : Cx) (x : StcForm) : Bool :=
  let a := c.g.readS x.sa.toNat
  (List.range (16 * crewSize c.g.mxcrew + 1)).any fun r => (c.place (a + dw (r * 16 * x.pitch.toNat)) 4).any c.outside

/-- R250, R251, R247. -/
def execMxStc (x : StcForm) (s : State) : Res :=
  issue s fun c =>
    let n := crewSize c.g.mxcrew
    let rnd := x.rnd.toNat
    let pre := c.gg.pfx.all fun p => p.isSr && p.fieldsOk && (srOf [p]).all fun f => f.opr.toNat < 120
    let ok := stcOk x && pre && (c.gg.pfx.isEmpty || rnd == 0 || rnd == 5) &&
      (!crewValid c.g.mxcrew || 16 * x.pitch.toNat ≥ stcRow x.outf.toNat n)
    let draws : List (Nat × Nat) := match srOf c.gg.pfx with | some p => [(p.opr.toNat, 8 * n)] | none => []
    match c.mxCheck ok [x.sa.toNat] draws with
    | .error q => c.trap q
    | .ok _ =>
      let rm := match c.rm rnd with | .rne => 0 | .rtz => 1 | .ru => 2 | .rd => 3 | .sr => 4
      { c with s := if c.stcOutside x then s.markSide c.t else s }.placeOp (.mxStc x) [c.g.readS x.sa.toNat] rm (fmtSat c.gg.fmt || x.sat == 1) false

/-! ## Status (R252) -/

def Acc.stat (a : Acc) : DWord :=
  a.ops ++ (0#22 ++ BitVec.ofBool (a.marks != 0#16) ++ (a.status.extractLsb' 8 1 ++ 0#3 ++ a.status.extractLsb' 4 1 ++ 0#1 ++
    a.status.extractLsb' 0 3))

def Acc.blank : Acc := ⟨List.replicate 16 (List.replicate 64 0), List.replicate 16 (List.replicate 64 0), 0, 0, 0, 0⟩
def Group.acc (g : Group) (a : Nat) : Acc := g.accs.getD a .blank
def Group.modAcc (g : Group) (a : Nat) (f : Acc → Acc) : Group := { g with accs := modAt g.accs a f }

def execMxStat (x : StatForm) (s : State) : Res :=
  issue s fun c =>
    let gid := c.g.ident.id
    match c.mxCheck (noPfx (statOk x) c) [x.sd.toNat] [] with
    | .error q => c.trap q
    | .ok _ =>
      let a := x.acc.toNat
      let tgt := c.gg.sTgt x.sd.toNat
      let after := (s.crewOps.filter fun o => o.members.contains gid && o.names.contains a).map (·.id)
      if after.isEmpty then
        .next ((c.result s [(tgt, (c.g.acc a).stat)]).modGroup gid fun g => g.advance c.gg 2)
      else
        let (op, s) := c.openOp s
        .next (s.modGroup gid fun g => { g.advance c.gg 2 with stats := g.stats ++ [⟨op, a, tgt, after⟩] })

/-- A crew operation is complete: the `mx.stat` that waited for it alone report (R252). -/
def Group.settleStats (g : Group) (op : Nat) : Group :=
  let g := { g with stats := g.stats.map fun (x : MxStat) => { x with after := x.after.filter (· != op) } }
  let ready := g.stats.filter fun (x : MxStat) => x.after.isEmpty
  let g := { g with stats := g.stats.filter fun (x : MxStat) => !x.after.isEmpty }
  ready.foldl (fun (g : Group) (x : MxStat) => (g.addWrites x.op [(x.tgt, (g.acc x.acc).stat)]).opPart x.op) g

/-! ## Performing an operation: its reads -/

/-- A frame for what an engine does for a group, whether or not a gang of it is left. -/
def State.cxMember (s : State) (gid : Nat) : Option Cx :=
  (s.group? gid).bind fun g =>
    (s.team? g.ident.team).bind fun t => (s.launch? t.launch).map fun l =>
      ⟨s, g, g.gangs.headD (.start 0 [] 0 0), t, l⟩

/-- A word may be read now: plain, or tagged as its mode waits for, or in error (R202, R249, R254). -/
def Cx.readReady (c : Cx) (arrived : Nat) (r : CrewRead) : Bool :=
  match c.place r.addr 4 with
  | none => true
  | some p => r.mode == 0 || (!c.s.tagBlocked arrived p 4 && c.s.tagTest p 4 tagFull != .unmet)

/-- The kind of error that a word has for its reader (Table 8.5). -/
def Cx.readErr (c : Cx) (p : Place) (mode : Nat) : Nat :=
  if mode ≠ 0 ∧ c.s.tagTest p 4 tagFull = .fault then 3 else if c.s.spadPoison p 4 then 2 else 0

/-- Read one word; one in error gives an undefined word. -/
def Cx.crewRead (c : Cx) (o : CrewOp) (r : CrewRead) : State :=
  let s := c.s
  let free := Config.freeWord s.tick 0
  let (w, kind, s) : Word × Nat × State :=
    match c.place r.addr 4 with
    | none => (free, 0, s)
    | some p =>
      match c.readErr p r.mode with
      | 0 => (le32 (s.spadRead p 4), 0, if r.mode = 2 then c.putTags p 4 tagEmpty s else s)
      | k => (free, k, s)
  let o := { o with
    reads := o.reads.erase r, got := o.got ++ [(r.addr, w)]
    errs := if kind = 0 then o.errs else o.errs ++ [⟨r.row, kind, r.addr⟩] }
  { s with crewOps := s.crewOps.map fun x => if x.id = o.id then o else x }

def CrewOp.word (o : CrewOp) (a : DWord) : Word := ((o.got.find? fun e => e.1 == a).map (·.2)).getD 0
/-- Words of a row from its base. -/
def CrewOp.rowWords (o : CrewOp) (base : DWord) (pitch swz i bytes : Nat) : List Word :=
  (List.range (bytes / 4)).map fun w => o.word (swizzle (base + dw (i * 16 * pitch + 4 * w)) swz)

/-- The stream of column j of B from captured registers (R238). -/
def colStream (regs : List (List (List Word))) (j : Nat) : Nat :=
  let rs := regs.getD (j / 16) []
  streamNat (rs.flatMap fun r => [r.getD (j % 16) 0, r.getD (16 + j % 16) 0])

/-- Scale code of tile row r at block column b. -/
def CrewOp.scale (o : CrewOp) (base : DWord) (r b : Nat) : Nat := nbits (o.word (tileWord base r)).toNat (8 * b) 8

/-! ## Performing an operation: its effect on a member -/

def row2 (xs : List (List Word)) (i j : Nat) : Word := (xs.getD i []).getD j 0
/-- Replace the first columns of rows. -/
def overRow (new old : List Word) : List Word := new ++ old.drop new.length
def overRows (new old : List (List Word)) : List (List Word) := List.zipWith overRow new old

/-- Mark rows of a member's accumulator in error (R254); the first kind stays. -/
def Acc.mark (a : Acc) (m : Nat) (es : List CrewErr) : Acc :=
  es.foldl (fun a e =>
    let bits : BitVec 16 :=
      if e.row = 64 then BitVec.allOnes 16 else if e.row / 16 = m then BitVec.ofNat 16 (2 ^ (e.row % 16)) else 0
    if bits = 0 then a else { a with marks := a.marks ||| bits, kind := if a.kind = 0 then e.kind else a.kind }) a

/-- The flags of R246 that an operation sets in the status. -/
def statusMask : Word := 0x117

/-- Rows of new means and twins with their flags. -/
structure MxRows where
  c : List (List Word)
  tw : List (List Word)
  fl : Word

/-- Put rows into an accumulator: its status and its error marks are the member's own (log 42). -/
def Acc.put (a : Acc) (r : MxRows) (m : Nat) (es : List CrewErr) : Acc :=
  let a := { a with
    c := overRows r.c a.c
    tw := overRows r.tw a.tw
    status := a.status ||| (r.fl &&& statusMask), ops := a.ops + 1 }
  a.mark m es

/-- Outputs of 16 rows and N columns, as words of one tile. -/
def mxRowsOf (outs : List (List MxOut)) (word : MxOut → Word) : MxRows :=
  ⟨outs.map fun r => r.map word, outs.map fun r => r.map (·.twin),
   outs.foldl (fun f r => r.foldl (fun f o => f ||| o.fl) f) 0⟩

/-- Code and scale code of element k of row i of A, and of element k of column j of B. -/
def CrewOp.aElem (o : CrewOp) (x : MxForm) (sh : MxShape) (st : Nat) (i k nb at' : Nat) : Nat × Nat :=
  (nbits st (sh.nb * k + at') nb, if x.scaled = 1 then o.scale (aTiles o.vals) i (x.bc.toNat + k / 32) else 127)
def CrewOp.bElem (o : CrewOp) (x : MxForm) (sh : MxShape) (j k nb at' : Nat) : Nat × Nat :=
  (nbits (colStream o.bregs j) (sh.nb * k + at') nb,
   if x.scaled = 1 then o.scale (bTiles o.vals) j (x.bc.toNat + k / 32) else 127)

/-- SCALENAN of the scales that a member's rows use (R246). -/
def CrewOp.scaleNan (o : CrewOp) (x : MxForm) (sh : MxShape) (m n : Nat) : Word :=
  let cols := (List.range (sh.k / 32)).map (x.bc.toNat + ·)
  let a := (List.range 16).any fun i => cols.any fun b => o.scale (aTiles o.vals) (16 * m + i) b == 255
  let b := (List.range (16 * n)).any fun j => cols.any fun b => o.scale (bTiles o.vals) j b == 255
  if x.scaled = 1 && (a || b) then fScaleNan else 0

/-- The variance sum v of R245 for row i and column j before its rounding, and its flags (log 21). -/
def CrewOp.varSum (o : CrewOp) (x : MxForm) (sh : MxShape) (st i j : Nat) : VV × Word :=
  let d := o.vals.getD 2 0
  let xva := (d.extractLsb' 32 8).toNat
  let xvb := (d.extractLsb' 40 8).toNat
  let sv := streamNat (o.rowWords (varBase o.vals) x.pitch.toNat x.swz.toNat i (varRow sh.k))
  let bv := colStream o.vregs j
  let fa := Fmt.ofMx x.fa.toNat
  let fb := Fmt.ofMx x.fb.toNat
  (List.range sh.k).foldl (fun acc k =>
    let (va, ia) := upVar (nbits sv (6 * k) 6) xva
    let (vb, ib) := upVar (nbits bv (6 * k) 6) xvb
    let t := mxVarTerm o.so (upMean fa (o.aElem x sh st i k sh.nb 0)) va (upMean fb (o.bElem x sh j k sh.nb 0)) vb
    (acc.1.add t, acc.2 ||| (if ia || ib then fInvalid else 0))) (.zero, if xva = 255 ∨ xvb = 255 then fScaleNan else 0)

/-- `mx.mma` and `mx.mmad` for member m of n (R242, R245). -/
def CrewOp.mma (o : CrewOp) (dist : Bool) (x : MxForm) (sh : MxShape) (m n : Nat) (g : Group) : Group :=
  let a := g.acc x.acc.toNat
  let fa := Fmt.ofMx x.fa.toNat
  let fb := Fmt.ofMx x.fb.toNat
  let outs := (List.range 16).map fun r =>
    let i := 16 * m + r
    let st := streamNat (o.rowWords (o.vals.getD 0 0) x.pitch.toNat x.swz.toNat i sh.row)
    (List.range (16 * n)).map fun j =>
      let ps := (List.range sh.k).map fun k => mxProd fa fb (o.aElem x sh st i k sh.nb 0) (o.bElem x sh j k sh.nb 0)
      let (v, fl) := if dist then o.varSum x sh st i j else (.zero, 0)
      let out := mxRound .f32 (f32 (row2 a.c r j)) ps (row2 a.tw r j) v
      { out with fl := out.fl ||| fl }
  let rows := mxRowsOf outs fun y => wd y.bits
  g.modAcc x.acc.toNat fun a => a.put { rows with fl := rows.fl ||| o.scaleNan x sh m n } m o.errs

/-- `mx.mmac` (R243): real parts in the even accumulator, imaginary parts in the odd one. -/
def CrewOp.mmac (o : CrewOp) (x : MxForm) (sh : MxShape) (m n : Nat) (g : Group) : Group :=
  let f := Fmt.ofMx x.fa.toNat
  let fb := Fmt.ofMx x.fb.toNat
  let h := sh.nb / 2
  let part (im : Bool) : MxRows :=
    let a := g.acc (x.acc.toNat + if im then 1 else 0)
    mxRowsOf ((List.range 16).map fun r =>
      let i := 16 * m + r
      let st := streamNat (o.rowWords (o.vals.getD 0 0) x.pitch.toNat x.swz.toNat i sh.row)
      (List.range (16 * n)).map fun j =>
        let ps := (List.range sh.k).flatMap fun k =>
          let ar := o.aElem x sh st i k h 0
          let ai := o.aElem x sh st i k h h
          let br := o.bElem x sh j k h 0
          let bi := o.bElem x sh j k h h
          if im then [mxProd f fb ar bi, mxProd f fb ai br] else [mxProd f fb ar br, (mxProd f fb ai bi).neg]
        mxRound .f32 (f32 (row2 a.c r j)) ps (row2 a.tw r j) .zero) fun y => wd y.bits
  let re := part false
  let im := part true
  let fl := re.fl ||| im.fl
  (g.modAcc x.acc.toNat fun a => a.put { re with fl := fl } m o.errs).modAcc (x.acc.toNat + 1) fun a =>
    a.put { im with fl := fl } m o.errs

/-- `mx.mma64` (R244): low words in the even tile with the twins, high words in the odd tile with twins +0.0. -/
def CrewOp.mma64 (o : CrewOp) (x : MxForm) (sh : MxShape) (m n : Nat) (g : Group) : Group :=
  let a := g.acc x.acc.toNat
  let b := g.acc (x.acc.toNat + 1)
  let outs := (List.range 16).map fun r =>
    let i := 16 * m + r
    let st := streamNat (o.rowWords (o.vals.getD 0 0) x.pitch.toNat x.swz.toNat i sh.row)
    (List.range (16 * n)).map fun j =>
      let ps := (List.range sh.k).map fun k => mxProd .f64 .f64 (o.aElem x sh st i k 64 0) (o.bElem x sh j k 64 0)
      mxRound .f64 (Fmt.f64.decode (pair64 (row2 a.c r j) (row2 b.c r j)).toNat) ps (row2 a.tw r j) .zero
  let lo := mxRowsOf outs fun y => wd y.bits
  let hi := mxRowsOf outs fun y => wd (y.bits / 2 ^ 32)
  let hi := { hi with tw := hi.tw.map fun r => r.map fun _ => 0 }
  (g.modAcc x.acc.toNat fun a => a.put lo m o.errs).modAcc (x.acc.toNat + 1) fun a => a.put hi m o.errs

/-- Rows of `mx.ldc` for member m. -/
def CrewOp.ldcRows (o : CrewOp) (x : LdcForm) (m bytes : Nat) : List (List Word) :=
  (List.range 16).map fun r => o.rowWords (o.vals.getD 0 0) x.pitch.toNat x.swz.toNat (16 * m + r) bytes

/-- Every second word, from the first or from the second. -/
def alternate : List Word → List Word × List Word
  | a :: b :: r => let (x, y) := alternate r; (a :: x, b :: y)
  | [a] => ([a], [])
  | [] => ([], [])

/-- `mx.ldc` into the means: status and marks are cleared (R249). -/
def Acc.load (a : Acc) (rows : List (List Word)) (zeroTwins : Bool) (m : Nat) (es : List CrewErr) : Acc :=
  ({ a with
      c := overRows rows a.c
      tw := if zeroTwins then overRows (rows.map fun r => r.map fun _ => 0) a.tw else a.tw
      status := 0, marks := 0, kind := 0, ops := 0 } : Acc).mark m es

/-- `mx.ldc.var`. -/
def Acc.loadVar (a : Acc) (rows : List (List Word)) (m : Nat) (es : List CrewErr) : Acc :=
  let bad := rows.any fun r => r.any fun w => (fitVar w).2
  ({ a with
      tw := overRows (rows.map fun r => r.map fun w => (fitVar w).1) a.tw
      status := if bad then a.status ||| fInvalid else a.status, ops := a.ops + 1 } : Acc).mark m es

/-- `mx.ldc.b` in a member: word w of row c goes to lane 16 (w mod 2) + c of register VB + w div 2; a word in error leaves
its register word as it is (R249). -/
def CrewOp.ldcB (o : CrewOp) (x : LdcForm) (m : Nat) (g : Group) : Group :=
  (List.range 16).foldl (fun g c => (List.range (2 * x.nreg.toNat)).foldl (fun g w =>
    let a := swizzle (o.vals.getD 0 0 + dw ((16 * m + c) * 16 * x.pitch.toNat + 4 * w)) x.swz.toNat
    if o.errs.any fun e => e.row == 16 * m + c && e.addr == a then g
    else g.writeV (16 * (w % 2) + c) (x.vb.toNat + w / 2) (o.word a) (zeroGlove g.ident.k)) g) g

/-- The lanes of member m that a word in error of a kind would have reached, and the lowest address of those words. -/
def CrewOp.lostWords (o : CrewOp) (x : LdcForm) (m : Nat) (kind : Nat) : List (Nat × DWord) :=
  (List.range 16).flatMap fun c => (List.range (2 * x.nreg.toNat)).filterMap fun w =>
    let a := swizzle (o.vals.getD 0 0 + dw ((16 * m + c) * 16 * x.pitch.toNat + 4 * w)) x.swz.toNat
    if o.errs.any fun e => e.kind == kind && e.row == 16 * m + c && e.addr == a then some (16 * (w % 2) + c, a) else none

def lowestAddr (xs : List (Nat × DWord)) : DWord :=
  xs.foldl (fun a x => if x.2.toNat < a.toNat then x.2 else a) ((xs.head?.map (·.2)).getD 0)

/-- The effect of a complete operation on member m of n. -/
def CrewOp.onMember (o : CrewOp) (i : Instr) (m n : Nat) (g : Group) : Group :=
  match i with
  | .mxZero x => (List.range 8).foldl (fun g a => if x.mask.getLsbD a then g.modAcc a fun _ => .blank else g) g
  | .mxMma x => o.mma false x (mxShapeOf false x) m n g
  | .mxMmad x => o.mma true x (mxShapeOf false x) m n g
  | .mxMmac x => o.mmac x (mxShapeOf true x) m n g
  | .mxMma64 x => o.mma64 x (mxShapeOf false x) m n g
  | .mxLdc x => g.modAcc x.acc.toNat fun a => a.load (o.ldcRows x m (64 * n)) false m o.errs
  | .mxLdcVar x => g.modAcc x.acc.toNat fun a => a.loadVar (o.ldcRows x m (64 * n)) m o.errs
  | .mxLdcF64 x =>
    let rows := (o.ldcRows x m (128 * n)).map alternate
    (g.modAcc x.acc.toNat fun a => a.load (rows.map (·.1)) true m o.errs).modAcc (x.acc.toNat + 1) fun a =>
      a.load (rows.map (·.2)) true m o.errs
  | .mxLdcB x => o.ldcB x m g
  | .mxStc _ => o.names.foldl (fun g a => g.modAcc a fun a => { a with ops := a.ops + 1 }) g
  | _ => g

/-! ## `mx.stc` (R250, R251) -/

/-- The conversion of one element: the code and the flags. -/
def stcElem (x : StcForm) (rm : Rm) (sat : Bool) (w24 : Nat) (a b : Acc) (r j : Nat) : Nat × Word :=
  let f := Fmt.ofMx x.outf.toNat
  let v : FV :=
    if x.var = 1 then f32 (row2 a.tw r j)
    else if x.outf = 10 then Fmt.f64.decode (pair64 (row2 a.c r j) (row2 b.c r j)).toNat
    else f32 (row2 a.c r j)
  let y := f.roundTo rm sat w24 v
  (y.bits, y.flags)

/-- The draw that serves element (r, j) of member m. -/
def CrewOp.stcDraw (o : CrewOp) (m r j : Nat) : Nat :=
  (((o.bregs.getD m []).getD (16 * (j / 32) + r) []).getD (j % 32) 0).toNat / 256

/-- Row r of member m converted. -/
def CrewOp.stcRow (o : CrewOp) (x : StcForm) (g : Group) (m n r : Nat) : List (Nat × Word) :=
  let a := g.acc x.acc.toNat
  let b := g.acc (x.acc.toNat + 1)
  (List.range (16 * n)).map fun j => stcElem x (Rm.ofCode o.rm) o.sat (o.stcDraw m r j) a b r j

/-- The words of a row of codes. -/
def codeWords (nb : Nat) (codes : List Nat) : List Word :=
  let st := joinBits nb codes
  (List.range (codes.length * nb / 32)).map fun w => wd (nbits st (32 * w) 32)

/-- Convert the accumulators of the members: the words to write, their flags and the count of Table 8.5. Rows marked in
error have undefined data. -/
def CrewOp.convert (o : CrewOp) (x : StcForm) (gs : List Group) (tick : Nat) : CrewOp :=
  let n := gs.length
  let rows := gs.zipIdx.flatMap fun gm => (List.range 16).map fun r =>
    (16 * gm.2 + r, ((mxNames (.mxStc x)).any fun a => (gm.1.acc a).marks.getLsbD r), o.stcRow x gm.1 gm.2 n r)
  let ws := rows.flatMap fun row =>
    ((codeWords (Fmt.ofMx x.outf.toNat).width (row.2.2.map (·.1))).zipIdx).map fun w =>
      let a := swizzle (o.vals.getD 0 0 + dw (row.1 * 16 * x.pitch.toNat + 4 * w.2)) x.swz.toNat
      (⟨row.1, a, if row.2.1 then Config.freeWord tick (256 * row.1 + w.2) else w.1, row.2.1⟩ : CrewWrite)
  let kinds := gs.flatMap fun g => (mxNames (.mxStc x)).map fun a => (g.acc a).kind
  let bad := (rows.filter fun r => r.2.1).map fun r => (⟨r.1, (kinds.find? (· != 0)).getD 0, 0⟩ : CrewErr)
  let els := rows.flatMap fun r => r.2.2
  { o with
    started := some tick, writes := ws, errs := bad
    flags := els.foldl (fun f e => f ||| e.2) 0
    satCount := min 65535 (els.filter fun e => e.2 &&& (fSaturated ||| fOverflow) != 0).length }

/-- The status word (Table 8.5). -/
def CrewOp.statusWord (o : CrewOp) : DWord :=
  let blk := o.errs.foldl (fun b e => b ||| BitVec.ofNat 16 (2 ^ (e.row / 4))) (0 : BitVec 16)
  let kind := (o.errs.head?.map (·.kind)).getD 0
  BitVec.ofNat 16 0 ++ BitVec.ofNat 16 o.satCount ++ blk ++ o.flags.extractLsb' 0 8 ++ 0#4 ++ BitVec.ofNat 2 kind ++
    BitVec.ofBool (!o.errs.isEmpty) ++ 1#1

/-- A word may be written now: under `.wef` an EMPTY word, or a FAULT word (R250). -/
def Cx.writeReady (c : Cx) (x : StcForm) (arrived : Nat) (a : DWord) : Bool :=
  match c.place a 4 with
  | none => true
  | some p => x.tm == 0 || (!c.s.tagBlocked arrived p 4 && c.s.tagTest p 4 tagEmpty != .unmet)

/-- Write one word of the store with its tag. -/
def Cx.putWord (c : Cx) (a : DWord) (w : Word) (tag : Nat) (s : State) : State :=
  match c.place a 4 with
  | none => s
  | some p => s.modSpad p fun x => (x.store p.off (leBytes 4 w.toNat)).setTag p.off tag

/-- Write one data word. A word already FAULT under `.wef` receives undefined data and keeps its tag. -/
def Cx.crewWrite (c : Cx) (o : CrewOp) (x : StcForm) (w : CrewWrite) : State :=
  let hit := x.tm == 1 && (match c.place w.addr 4 with | some p => c.s.tagTest p 4 tagEmpty == .fault | none => false)
  let word := if hit then Config.freeWord c.s.tick 0 else w.word
  let s := c.putWord w.addr word (if w.bad || hit then tagFault else tagFull) c.s
  let o := { o with writes := o.writes.erase w, errs := if hit then o.errs ++ [⟨w.row, 3, w.addr⟩] else o.errs }
  { s with crewOps := s.crewOps.map fun y => if y.id = o.id then o else y }

/-- The status word is written: each of its words with FULL, but one already FAULT under `.wef` keeps its tag. -/
def Cx.putStatus (c : Cx) (o : CrewOp) (x : StcForm) (s : State) : State :=
  let a := stcStatusAddr x (o.vals.getD 0 0) o.members.length
  let v := o.statusWord
  let tag (a : DWord) : Nat :=
    match c.place a 4 with
    | some p => if x.tm = 1 ∧ s.tagTest p 4 tagEmpty = .fault then tagFault else tagFull
    | none => tagFull
  c.putWord (a + 4) (hi32 v) (tag (a + 4)) (c.putWord a (lo32 v) (tag a) s)

/-! ## CREW_OP_EXECUTE (R238, R253) -/

/-- The operation is complete: its effect on each member, the members of `mx.ldc.b` go on or trap (R249), and the latches
that waited for room. -/
def State.endOp (s : State) (o : CrewOp) (i : Instr) : State :=
  let n := o.members.length
  let s := { s with crewOps := s.crewOps.filter (·.id != o.id) }
  let s := o.members.zipIdx.foldl (fun (s : State) gm =>
    let s := s.modGroup gm.1 fun g => (o.onMember i gm.2 n g).settleStats o.id
    match i, s.group? gm.1 with
    | .mxLdcB x, some g =>
      match g.gangs.find? fun y => y.park == some (.crewB o.id) with
      | none => s
      | some gg =>
        let lost := o.lostWords x gm.2 3
        let bad := o.lostWords x gm.2 2
        if !lost.isEmpty then
          s.trapMember gm.1 gg.id { code := .tagFault, lanes := maskOf (lost.map (·.1)), addr := lowestAddr lost }
        else
          let pc := gg.firstWord
          let s := s.modGroup gm.1 fun g => g.release gg 2
          if bad.isEmpty then s
          else s.modGroup gm.1 fun g => g.modGang gg.id fun y => y.setPoison pc (maskOf (bad.map (·.1))) (lowestAddr bad)
    | _, _ => s) s
  s.settleLatches o.team

/-- No earlier operation uses one of its quadrants (R238, R253). -/
def State.crewTurn (s : State) (o : CrewOp) : Bool :=
  let core (team : Nat) : Option (DieId × Nat) := (s.team? team).map fun t => (t.die, t.core)
  (s.crewOps.takeWhile (·.id != o.id)).all fun p => core p.team != core o.team || !p.quads.any o.quads.contains

/-- The store's turn: convert, write a word, or write the status word and end. -/
def Cx.stcStep (c : Cx) (o : CrewOp) (x : StcForm) : State :=
  let s := c.s
  match o.started with
  | none =>
    let o := o.convert x (o.members.filterMap s.group?) s.tick
    { s with crewOps := s.crewOps.map fun y => if y.id = o.id then o else y }
  | some t0 =>
    match o.writes.find? fun w => c.writeReady x t0 w.addr with
    | some w => c.crewWrite o x w
    | none =>
      if !o.writes.isEmpty then s
      else
        let a := stcStatusAddr x (o.vals.getD 0 0) o.members.length
        if c.writeReady x t0 a && c.writeReady x t0 (a + 4) then
          let s := o.members.foldl (fun s g => s.modGroup g fun g => g.raise o.flags) s
          (c.putStatus o x s).endOp o (.mxStc x)
        else s

/-- Where every member has ended, the team may have waited for this operation alone to end (R150). -/
def State.reapAfterOp (s : State) (o : CrewOp) (t : State) : State :=
  if o.members.all fun g => (s.group? g).all (·.ended) then t.reapTeam o.team else t

def execCrewOpExecute (op : Nat) (s : State) : Res :=
  match s.crewOps.find? fun o => o.id == op with
  | none => .next s
  | some o =>
    match o.instr?, o.members.head?.bind s.cxMember with
    | some i, some c =>
      if !s.crewTurn o then .next s
      else
        match i with
        | .mxStc x => .next (s.reapAfterOp o (c.stcStep o x))
        | _ =>
          let t0 := o.started.getD s.tick
          let o := { o with started := some t0 }
          match o.reads.find? (c.readReady t0) with
          | some r => .next (c.crewRead o r)
          | none =>
            if o.reads.isEmpty then .next (s.reapAfterOp o (s.endOp o i))
            else .next { s with crewOps := s.crewOps.map fun y => if y.id = o.id then o else y }
    | _, _ => .next s

end Sys2Proof.Machine
end

