-- ==== Sys2Proof/Machine/Memory.lean ====
section
/-! DEFINITION. Global loads and stores, atomics and reductions, monitors, fences and cache control (spec/07 R199, R206 to
R214, R230 to R232): opcodes 0x80, 0x81, 0x84, 0x85, 0x88 to 0x8C, 0x8E to 0x90, 0x99 to 0x9C, and the events of `mon.wait`. -/

namespace Sys2Proof.Machine

/-! ## Requests of the instructions -/

/-- `v.ld` in a lane: the registers, with the shadows of R116 as further loads. A component that a shadow supplies is no
target of the primary access. -/
def Cx.ldReq (c : Cx) (m : MForm) (lane : Nat) : Req :=
  let a := c.laneAddr m (imm16 m) lane
  let r := m.vd.toNat
  let sh := c.shadows r (mRegs m) (mBytes m) a
  let own := (c.g.vTgts lane r (mRegs m)).filter fun t => !sh.any fun x => t == .glove lane (r + x.1) (1 + x.2.1)
  ⟨some lane, ⟨a, mBytes m, .load (m.tag == 1) own⟩ ::
    sh.map fun x => ⟨x.2.2, 4, .load false [.glove lane (r + x.1) (1 + x.2.1)]⟩⟩

/-- Bytes of n registers of a lane from `r`, cut to the width. -/
def Group.vBytes (g : Group) (lane r regs n : Nat) : List Byte :=
  ((List.range regs).flatMap fun i => leBytes 4 ((g.lane lane).vreg (r + i)).toNat).take n

/-- `v.st` in a lane, with the shadow stores of R116. -/
def Cx.stReq (c : Cx) (m : MForm) (lane : Nat) : Req :=
  let a := c.laneAddr m (imm16 m) lane
  let r := m.vd.toNat
  let comp (i k : Nat) : Word := ((c.g.lane lane).glove c.g.ident.k (r + i)).getD (1 + k) 0
  ⟨some lane, ⟨a, mBytes m, .act (.store (c.g.vBytes lane r (mRegs m) (mBytes m)))⟩ ::
    (c.shadows r (mRegs m) (mBytes m) a).map fun x => ⟨x.2.2, 4, .act (.store (leBytes 4 (comp x.1 x.2.1).toNat))⟩⟩

/-- A register or a pair of a lane as an operand of an atomic. -/
def Group.opnd (g : Group) (lane r : Nat) (w64 : Bool) : DWord :=
  if w64 then pair64 ((g.lane lane).vreg r) ((g.lane lane).vreg (r + 1)) else zx64 ((g.lane lane).vreg r)

def mW64 (m : MForm) : Bool := m.width == 3

/-- One access of a lane. -/
def Cx.laneReq (c : Cx) (m : MForm) (imm : DWord) (act : Nat → MAct) (lane : Nat) : Req :=
  ⟨some lane, [⟨c.laneAddr m imm lane, mBytes m, act lane⟩]⟩

/-- The one access of a group-level instruction. -/
def Cx.groupReq (c : Cx) (m : MForm) (imm : DWord) (act : MAct) : List Req :=
  [⟨none, [⟨c.g.readS m.sb.toNat + imm, mBytes m, act⟩]⟩]

/-! ## Loads and stores (R199) -/

def execVLd (m : MForm) (s : State) : Res :=
  issue s fun c =>
    match c.mCheck (vLdOk m) m (mRegs m) [] with
    | .error q => c.trap q
    | .ok _ => c.access { ret := true, scope := m.scope.toNat, order := m.order.toNat } (c.lanes.map (c.ldReq m))

def execVSt (m : MForm) (s : State) : Res :=
  issue s fun c =>
    match c.mCheck (vStOk m) m (mRegs m) [] with
    | .error q => c.trap q
    | .ok _ => c.access { ret := false, scope := m.scope.toNat, order := m.order.toNat } (c.lanes.map (c.stReq m))

def execSLd (m : MForm) (s : State) : Res :=
  issue s fun c =>
    match c.mCheck (sLdOk m) m 0 [m.vd.toNat] with
    | .error q => c.trap q
    | .ok _ =>
      c.access { ret := true, scope := m.scope.toNat, order := m.order.toNat }
        (c.groupReq m (imm16 m) (.load (m.tag == 1) [c.gg.sTgt m.vd.toNat]))

def execSSt (m : MForm) (s : State) : Res :=
  issue s fun c =>
    match c.mCheck (sStOk m) m 0 [m.vd.toNat] with
    | .error q => c.trap q
    | .ok _ =>
      c.access { ret := false, scope := m.scope.toNat, order := m.order.toNat }
        (c.groupReq m (imm16 m) (.act (.store (leBytes (mBytes m) (c.g.readS m.vd.toNat).toNat))))

/-! ## Atomics and reductions (R206 to R210) -/

def execVAtom (m : MForm) (s : State) : Res :=
  issue s fun c =>
    match c.mCheck (vAtomOk m) m (mRegs m) [] with
    | .error q => c.trap q
    | .ok _ =>
      let r := m.vd.toNat
      let act (l : Nat) : MAct :=
        .act (.atom (mAtop m) (mW64 m) (c.g.opnd l r (mW64 m)) (some (c.g.vTgts l r (mRegs m))))
      c.access { ret := true, atomic := true, scope := m.scope.toNat, order := m.order.toNat }
        (c.lanes.map (c.laneReq m (imm12 m) act))

/-- R208: the compare value, the new value, and the old value into the first register. -/
def execVCas (m : MForm) (s : State) : Res :=
  issue s fun c =>
    match c.mCheck (vCasOk m) m (2 * mRegs m) [] with
    | .error q => c.trap q
    | .ok _ =>
      let r := m.vd.toNat
      let act (l : Nat) : MAct :=
        .act (.cas (mW64 m) (c.g.opnd l r (mW64 m)) (c.g.opnd l (r + mRegs m) (mW64 m)) (c.g.vTgts l r (mRegs m)))
      c.access { ret := true, atomic := true, scope := m.scope.toNat, order := m.order.toNat }
        (c.lanes.map (c.laneReq m (imm12 m) act))

def execVRed (m : MForm) (s : State) : Res :=
  issue s fun c =>
    match c.mCheck (vRedOk m) m (mRegs m) [] with
    | .error q => c.trap q
    | .ok _ =>
      let act (l : Nat) : MAct := .act (.atom (mAtop m) (mW64 m) (c.g.opnd l m.vd.toNat (mW64 m)) none)
      c.access { ret := false, atomic := true, scope := m.scope.toNat, order := m.order.toNat }
        (c.lanes.map (c.laneReq m (imm12 m) act))

def execSAtom (m : MForm) (s : State) : Res :=
  issue s fun c =>
    match c.mCheck (sAtomOk m) m 0 [m.vd.toNat] with
    | .error q => c.trap q
    | .ok _ =>
      c.access { ret := true, atomic := true, scope := m.scope.toNat, order := m.order.toNat }
        (c.groupReq m (imm12 m)
          (.act (.atom (mAtop m) (mW64 m) (c.g.readS m.vd.toNat) (some [c.gg.sTgt m.vd.toNat]))))

def execSCas (m : MForm) (s : State) : Res :=
  issue s fun c =>
    let r := m.vd.toNat
    match c.mCheck (sCasOk m) m 0 [r, r + 1] with
    | .error q => c.trap q
    | .ok _ =>
      c.access { ret := true, atomic := true, scope := m.scope.toNat, order := m.order.toNat }
        (c.groupReq m (imm12 m) (.act (.cas (mW64 m) (c.g.readS r) (c.g.readS (r + 1)) [c.gg.sTgt r])))

/-! ## Monitors (R212, R213) -/

def execMonArm (m : MForm) (s : State) : Res :=
  issue s fun c =>
    let gid := c.g.ident.id
    match c.mCheck (monArmOk m) m 0 [] with
    | .error q => c.trap q
    | .ok _ =>
      if c.g.tx.close.isSome then c.park (.wait .commit)
      else if c.g.keyBarred then c.park (.wait .keyed)
      else
        let a := c.g.readS m.sb.toNat + imm16 m
        match s.translate c.die (some c.t.core) a ⟨false, false, c.priv⟩ c.gg.afresh with
        | (.ok pa _, s) =>
          .next (s.modGroup gid fun g => { g.advance c.gg 2 with mon := some ⟨lineOf pa, false⟩ })
        | (.prot, s) => { c with s := s }.trap { code := .protection, addr := a }
        | (t, s) =>
          let s := s.offerFault c.die (faultRec c.l.launchId c.t.core 0 a false t) c.gg.afresh
          .next (s.modGroup gid fun g => g.parkGang c.gg (.fault false))

/-- The deadline of a `mon.wait` has passed; all ones is never. -/
def deadlinePassed (time deadline : DWord) : Bool := deadline != BitVec.allOnes 64 && deadline.toNat ≤ time.toNat

/-- The group's monitor has fired, or none is armed. -/
def Group.monReady (g : Group) : Bool := match g.mon with | some x => x.fired | none => true

def execMonWait (m : MForm) (s : State) : Res :=
  issue s fun c =>
    let gid := c.g.ident.id
    match c.mCheck (monWaitOk m) m 0 [] with
    | .error q => c.trap q
    | .ok _ =>
      if c.g.tx.close.isSome then c.park (.wait .commit)
      else
        let d := c.g.readS m.sb.toNat
        let s := s.modGroup gid fun g => g.forbid c.gg
        if c.g.monReady || deadlinePassed s.timeNs d then .next (s.modGroup gid fun g => g.advance c.gg 2)
        else .next (s.modGroup gid fun g => g.parkGang c.gg (.mon d))

/-- Leave a `mon.wait` when `ready` holds of its group and deadline. -/
def State.monLeave (s : State) (gid gang : Nat) (ready : Group → DWord → Bool) : Res :=
  match s.cxOf gid gang with
  | none => .next s
  | some c =>
    match c.gg.park with
    | some (.mon d) =>
      if ready c.g d then .next (s.modGroup gid fun g => g.release c.gg 2) else .next s
    | _ => .next s

/-- MON_WAIT_WAKE. -/
def execMonWaitWake (gid gang : Nat) (s : State) : Res := s.monLeave gid gang fun g _ => g.monReady
/-- MON_WAIT_DEADLINE. -/
def execMonWaitDeadline (gid gang : Nat) (s : State) : Res := s.monLeave gid gang fun _ d => deadlinePassed s.timeNs d

/-! ## Fences (R214) -/

/-- An instruction of two words that only advances. -/
def Cx.passes (c : Cx) : Res := .next (c.s.modGroup c.g.ident.id fun g => g.advance c.gg 2)

/-- Accesses are performed in program order here (log 3), but for those that wait for the key: the group's later memory
instructions wait for them, its other words do not. -/
def execFence (m : MForm) (s : State) : Res :=
  issue s fun c =>
    match c.bareCheck (fenceOk m) m 0 [] with
    | .error q => c.trap q
    | .ok _ =>
      if c.g.tx.close.isSome then c.park (.wait .commit)
      else if c.releaseHeld then c.park (.wait c.releaseWait)
      -- a release that the host or another package observes follows the group's own copies there (R286)
      else if m.order != 1 && 5 ≤ m.scope.toNat && !c.farLeft.isEmpty then c.park (.wait (.engine c.farLeft))
      else if c.linkHolds (m.order != 1) m.scope.toNat then c.parkLink 0 false
      else { c with s := s.modGroup c.g.ident.id Group.barKeyed }.passes

/-! ## Cache control (R230 to R232) -/

/-- A prefetch changes no value and may be dropped. -/
def execPrefetch (m : MForm) (s : State) : Res :=
  issue s fun c =>
    match c.mCheck (prefetchOk m) m 0 [] with
    | .error q => c.trap q
    | .ok _ => if c.g.tx.close.isSome then c.park (.wait .commit) else c.passes

def Cx.probe (c : Cx) (va : DWord) : Option Nat := (c.s.probe c.die c.t.core va c.priv).map (·.1)

/-- Lines that a cache instruction covers, by physical address / 128 (R231). -/
def Cx.cacheLines (c : Cx) (m : MForm) : List Nat :=
  let base := c.g.readS m.sb.toNat &&& ~~~127
  (List.range m.imm16.toNat).filterMap fun i => (c.probe (base + dw (128 * i))).map lineOf

/-- The line lies in a range of the retention registers (R290). -/
def CtlRegs.retains (x : CtlRegs) (line : Nat) : Bool :=
  (List.range 4).any fun i =>
    let b := x.retainBase.getD i 0
    let l := x.retainLimit.getD i 0
    b.getLsbD 63 && nbits b.toNat 7 45 ≤ line && line < nbits l.toNat 7 45

/-- Mark a line retained: at home in the die's own L2, in a range, and its set holds fewer than 8 marks (R231, R291). -/
def Die.retain (d : Die) (id : DieId) (line : Nat) : Die :=
  if ownerOf (128 * line) = .hbm id ∧ d.ctl.retains line ∧ ¬ d.retained.contains line ∧
      ((d.retained.filter fun x => Config.l2Set x == Config.l2Set line).length < 8) then
    { d with retained := insNat d.retained line }
  else d

/-- A cache instruction over its lines. -/
def cacheOp (ok : Bool) (m : MForm) (s : State) (f : Cx → List Nat → Die → Die) : Res :=
  issue s fun c =>
    match c.mCheck ok m 0 [] with
    | .error q => c.trap q
    | .ok _ =>
      if c.g.tx.close.isSome then c.park (.wait .commit)
      else if c.g.keyBarred then c.park (.wait .keyed)
      else
        let s := s.modDie c.die (f c (c.cacheLines m))
        .next (s.modGroup c.g.ident.id fun g => g.advance c.gg 2)

def execCacheRetain (m : MForm) (s : State) : Res :=
  cacheOp (linesOk 1 m) m s fun c ls d => ls.foldl (fun d l => d.retain c.die l) d
/-- Peer and remote lines are never marked (R291). -/
def execCacheUnpin (m : MForm) (s : State) : Res :=
  cacheOp (linesOk 1 m) m s fun _ ls d => { d with retained := d.retained.filter fun x => !ls.contains x }
/-- Clauses fetched afterwards see memory as it stands (R232). -/
def execCacheOpIfetch (m : MForm) (s : State) : Res :=
  cacheOp (linesOk 3 m) m s fun _ ls d => { d with ifetch := d.ifetch.filter fun x => !ls.contains x.1 }
/-- Plain data is never stale here (log 3), so nothing is to write back. -/
def execCacheOpEvl1 (m : MForm) (s : State) : Res := cacheOp (linesOk 3 m) m s fun _ _ d => d
def execCacheOpEvl2 (m : MForm) (s : State) : Res :=
  cacheOp (linesOk 3 m) m s fun _ ls d => { d with retained := d.retained.filter fun x => !ls.contains x }

end Sys2Proof.Machine
end

