-- ==== Sys2Proof/Machine/Request.lean ====
section
/-! DEFINITION. Pre-emption requests and their estimator (R159, R313), the size of a save area (Table 10.6), and spans of
global memory that an engine reads or writes whole. -/

namespace Sys2Proof.Machine

/-! ## SaveBytes (R317) -/

/-- Each block starts at a multiple of 256 bytes, and each is counted up to such a multiple, the last one too (log 36). -/
def Team.saveBytes (t : Team) (gs : List Group) : Nat :=
  let lanes (g : Group) : Nat :=
    g.ident.width * (4 * ceilTo 8 g.ident.nr + 4 * (1 + g.ident.k) * ceilTo 8 g.ident.dw + 32)
  4096 + (gs.map fun g => 2048 + ceilTo 256 (lanes g) + (if g.ident.role = .matrix then 81920 else 0)).sum +
    ceilTo 256 (t.spadBytes + t.spadBytes / 16)

/-- The members of a cluster set that are resident, or the team alone (R313). -/
def State.setOf (s : State) (t : Team) : List Team := s.teams.filter fun x => x.id == t.id || t.set.contains x.id

/-- SaveBytes of a request: for a cluster set the sum over its resident members, which are saved into one area (R317, log 36). -/
def State.saveBytes (s : State) (t : Team) : Nat := ((s.setOf t).map fun x => x.saveBytes (s.groupsOf x.id)).sum

/-! ## The estimator (R313) -/

/-- Arithmetic clock of a team's core, in MHz. -/
def State.clockOf (s : State) (t : Team) : Nat :=
  (((s.die t.die).power.islands[(s.die t.die).islandOf t.core]?).map (·.mhz)).getD 0

/-- est ≤ T, in nanoseconds: (H - P) cycles at f MHz. -/
def drainFits (h p mhz deadline : Nat) : Bool := h != 0 && p < h && (h - p) * 1000 ≤ deadline * mhz

/-- The path of a request for a dispatched team; none is ERROR 3. -/
def State.choosePath (s : State) (t : Team) (l : Launch) (force deadline : Nat) : Option PrePath :=
  let p := (s.die t.die).preempt
  let first : PrePath :=
    if force = 1 then .save else if force = 2 then .drain
    else if drainFits l.hdr.hint t.progress (s.clockOf t) deadline then .drain
    else if !t.sideEffect then .discard else .save
  if first = .save ∧ (p.area = 0 ∨ p.bytes.toNat < s.saveBytes t) then (if force = 1 then none else some .drain)
  else some first

/-- What a request names (R159, Table 5.6). -/
inductive Named where
  | dispatched (t : Team) (l : Launch) | queued | gone | unknown

/-- A team of a launch that is taken and not yet ready counts as not yet queued, so that the request ends with ERROR 2 (log 36). -/
def State.named (s : State) (d : DieId) (launchId teamId : Nat) : Named :=
  let ls := s.launches.filter fun l => l.launchId.toNat == launchId
  let ts := s.teams.filter fun t => t.die == d && t.teamId == teamId && ls.any fun l => l.id == t.launch
  match ts.head?.bind fun t => (s.launch? t.launch).map fun l => (t, l) with
  | some (t, l) => .dispatched t l
  | none =>
    let mine (v : Saved) : Bool := v.die == d && v.launch.launchId.toNat == launchId && v.teams.any (·.teamId == teamId)
    if ls.any fun l => l.die == d && l.ready.isSome && l.todo.contains teamId then .queued
    else if s.saved.any fun v => mine v && v.queued then .queued
    else if ls.any (fun l => l.die == d && teamId < l.gx * l.gy * l.gz) || s.saved.any mine ||
      s.past.any (fun l => l.die == d && l.launchId.toNat == launchId && teamId < l.teams) then .gone
    else .unknown

/-- Record a request while BUSY is 0 (R159, R313). -/
def State.requestPreempt (s : State) (d : DieId) (who : DWord) (deadline : DWord) (force : Nat) : State :=
  let put (f : Preempt → Preempt) : State :=
    s.modDie d fun x => { x with preempt := f { x.preempt with
      team := lo32 who, busy := false, path := .none, error := 0, req := none } }
  match s.named d (hi32 who).toNat (lo32 who).toNat with
  | .unknown => put fun p => { p with error := 1 }
  | .gone => put fun p => { p with error := 2 }
  | .queued => put id
  | .dispatched t l =>
    match s.choosePath t l force deadline.toNat with
    | none => put fun p => { p with error := 3 }
    | some path => put fun p => { p with busy := true, req := some ⟨t.id, path, s.timeNs.toNat + deadline.toNat⟩ }

/-! ## Spans of global memory -/

/-- Translate the 64 KiB pages from page number `p` on, n of them: (page, first physical address); or how the first that fails does,
with its page. -/
def State.mapPages (s : State) (d : DieId) (core : Option Nat) (a : Acc3) (afresh : Bool) :
    Nat → Nat → List (Nat × Nat) → ((Tr × Nat) ⊕ List (Nat × Nat)) × State
  | 0, _, acc => (.inr acc, s)
  | n + 1, p, acc =>
    match s.translate d core (sx64 (BitVec.ofNat 57 (p * 65536))) a afresh with
    | (.ok pa _, s') => s'.mapPages d core a afresh n (p + 1) (acc ++ [(p, pa / 65536 * 65536)])
    | (t, s') => (.inl (t, p), s')

/-- The first address of a span in its page number p. -/
def spanVa (va : DWord) (p : Nat) : DWord :=
  if p = (va.extractLsb' 0 57).toNat / 65536 then va else sx64 (BitVec.ofNat 57 (p * 65536))

/-- The pages of n bytes from a virtual address; or how the first that fails does, with the span's first address there. -/
def State.mapSpan (s : State) (d : DieId) (core : Option Nat) (a : Acc3) (va : DWord) (n : Nat) (afresh : Bool := false) :
    ((Tr × DWord) ⊕ List (Nat × Nat)) × State :=
  if !canonical va then (.inl (.prot, va), s)
  else
    let v := (va.extractLsb' 0 57).toNat
    match s.mapPages d core a afresh ((v + n - 1) / 65536 + 1 - v / 65536) (v / 65536) [] with
    | (.inr m, s) => (.inr m, s)
    | (.inl (t, p), s) => (.inl (t, spanVa va p), s)

/-- The physical address of a byte under a map of pages. -/
def spanPa (m : List (Nat × Nat)) (v : Nat) : Option Nat := (m.find? fun e => e.1 == v / 65536).map fun e => e.2 + v % 65536

/-- Write bytes through a map of pages. -/
def State.writeSpan (s : State) (m : List (Nat × Nat)) (v : Nat) : List Byte → State
  | [] => s
  | b :: bs => ((match spanPa m v with | some pa => s.writePa pa [b] | none => s).writeSpan m (v + 1) bs)

/-- n bytes through a map of pages. -/
def State.readSpan (s : State) (m : List (Nat × Nat)) (v n : Nat) : List Byte :=
  (List.range n).map fun i => match spanPa m (v + i) with | some pa => Mem.read s.mem pa | none => 0

end Sys2Proof.Machine
end

