-- ==== Sys2Proof/Machine/Copy.lean ====
section
/-! DEFINITION. The copy engine: the copy commands, batches and event additions, opcodes 0xB0 to 0xB6 and 0xB9, and the events
COPY_COMMAND_EXECUTE and BATCH_COMPLETE (spec/08 R255 to R263, R267, R396). -/

namespace Sys2Proof.Machine

/-! ## What an engine's translation leads to (R260, R330, R396) -/

/-- A physical address; a wait for a replay, with its record offered; a failure with its code. -/
inductive Eng where
  | ok (pa : Nat) (leaf : DWord) | wait | fail (t : Trap)
  deriving DecidableEq, Repr

/-- Who asks: the launch, LCORE and SOURCE of its records (Table 11.5), its core's L1 TLB, its privilege, and whether a replay
makes the access again (R334). -/
structure Asker where
  d : DieId
  core : Option Nat
  launchId : Word
  lcore : Nat
  source : Nat
  priv : Bool
  afresh : Bool
  deriving DecidableEq, Repr

def State.engTr (s : State) (q : Asker) (va : DWord) (write : Bool) : Eng × State :=
  match s.translate q.d q.core va ⟨write, false, q.priv⟩ q.afresh with
  | (.ok pa leaf, s) => (.ok pa leaf, s)
  | (.prot, s) => (.fail .protection, s)
  | (.down _, s) => (.fail .peerUnavailable, s)
  | (t, s) => (.wait, s.offerFault q.d (faultRec q.launchId q.lcore q.source va write t) q.afresh)

/-- A map of pages of an engine's span. -/
def State.engSpan (s : State) (q : Asker) (va : DWord) (write : Bool) (n : Nat) : (Eng ⊕ List (Nat × Nat)) × State :=
  match s.mapSpan q.d q.core ⟨write, false, q.priv⟩ va n q.afresh with
  | (.inr m, s) => (.inr m, s)
  | (.inl (.prot, _), s) => (.inl (.fail .protection), s)
  | (.inl (.down _, _), s) => (.inl (.fail .peerUnavailable), s)
  | (.inl (t, a), s) => (.inl .wait, s.offerFault q.d (faultRec q.launchId q.lcore q.source a write t) q.afresh)

def Cx.copyAsker (c : Cx) (priv : Bool) (wait : Redo) : Asker :=
  ⟨c.die, some c.t.core, c.l.launchId, c.t.core, 2, priv, wait == .again⟩

/-! ## Batches (R261) -/

/-- Close the current batch. -/
def Group.closeBatch (g : Group) (evt : Option DWord) : Group :=
  let n := nextBatch g.lastBatch
  { g with lastBatch := n, copyCount := 0, openFail := none, batches := g.batches ++ [⟨n, evt, g.openFail, false, .none, false⟩] }

def Group.incomplete (g : Group) : List Batch := g.batches.filter fun b => !b.complete
/-- 16 closed batches are incomplete. -/
def Group.batchesFull (g : Group) : Bool := g.incomplete.length ≥ 16

/-- Mark a batch failed; the first failure stays (R260, R396). -/
def Group.failBatch (g : Group) (n : Nat) (t : Trap) : Group :=
  if n = nextBatch g.lastBatch then { g with openFail := some (g.openFail.getD t) }
  else if g.batches.any fun b => b.num == n then
    { g with batches := g.batches.map fun b => if b.num = n then { b with failed := some (b.failed.getD t) } else b }
  else { g with batches := g.batches ++ [⟨n, none, some t, true, .none, false⟩] }

def Group.failIf (g : Group) (n : Nat) (t : Option Trap) : Group := match t with | some t => g.failBatch n t | none => g

/-! ## Issue of a command (R257) -/

/-- Every lane of the gang is active, and none of the group has exited (R43). -/
def Cx.cpMask (c : Cx) : Except Tq Unit :=
  need (c.active == c.gg.mask && c.g.live == maskW c.g.ident.width) .maskPartial

/-- A row of a scratchpad side lies in one window granted to the team. -/
def Cx.wordsPlaced (c : Cx) (a : DWord) (swz bytes : Nat) : Bool :=
  let ps := (List.range (bytes / 4)).map fun w => c.place (swizzle (a + dw (4 * w)) swz) 4
  ps.all Option.isSome && ps.all fun p => match p, ps.head? with | some x, some (some y) => x.same y | _, _ => false

/-- The first row of a scratchpad side outside (R257, step 2). -/
def Cx.badSpadRow (c : Cx) (base : DWord) (pitch swz rows bytes : Nat) : Option DWord :=
  ((List.range rows).map fun r => base + dw (r * 16 * pitch)).find? fun a => !c.wordsPlaced a swz bytes

/-- Pages of a global side, by a first address in each. -/
def sidePages (base : DWord) (pitch rows bytes : Nat) : List DWord :=
  ((List.range rows).flatMap fun r =>
    let a := base + dw (r * 16 * pitch)
    let v := a.toNat
    (List.range ((v + bytes - 1) / 65536 + 1 - v / 65536)).map fun i => if i = 0 then a else dw ((v / 65536 + i) * 65536)).foldl
    (fun acc a => if acc.any fun b => b.toNat / 65536 == a.toNat / 65536 then acc else acc ++ [a]) []

/-- Translate addresses for writing, with the outcome of each. -/
def Cx.trAll (c : Cx) (vas : List DWord) (s : State) : List (DWord × Tr) × State :=
  vas.foldl (fun acc a =>
    let (t, s) := acc.2.translate c.die (some c.t.core) a ⟨true, false, c.priv⟩ c.gg.afresh
    (acc.1 ++ [(a, t)], s)) ([], s)

/-- A translation that is missing; an unavailable peer fails the batch instead (R260, R272). -/
def Tr.missing : Tr → Bool
  | .fault .. => true
  | _ => false

/-- Step 4 of R257, and R396: translate global destinations at issue, and go on with them. A missing translation parks the
gang, with a record of the copy engine (log 28). -/
def Cx.withDest (c : Cx) (vas : List DWord) (k : Cx → List (DWord × Tr) → Res) : Res :=
  let (ts, s) := c.trAll vas c.s
  match ts.find? fun t => t.2 == .prot with
  | some t => { c with s := s }.trap { code := .protection, addr := t.1 }
  | none =>
    let bad := ts.filter fun t => t.2.missing
    if bad.isEmpty then k { c with s := s } ts
    else
      let s := bad.foldl (fun s t => s.offerFault c.die (faultRec c.l.launchId c.t.core 2 t.1 true t.2) c.gg.afresh) s
      { c with s := s }.park (.fault false)

/-- The values that a copy instruction reads, within their limits (R257, step 1(c)). -/
def cpShapeOk (fill : Bool) (c : CpForm) (bytes rows : Nat) : Bool :=
  bytes % 4 == 0 && bytes ≤ 2 ^ 24 && rows ≤ 65536 &&
  (rows ≤ 1 || (16 * c.dpitch.toNat ≥ bytes && (fill || 16 * c.spitch.toNat ≥ bytes)))

/-- Queue a command (R257, R261): the counter with its implicit close, and the side-effect bit (R312). -/
def Cx.queue (c : Cx) (s : State) (k : CopyCmd) (side : Bool) (words : Nat) : Res :=
  let (id, s) := s.fresh
  let s := if side then s.markSide c.t else s
  .next (s.modGroup c.g.ident.id fun g =>
    let g := if g.copyCount ≥ 255 then g.closeBatch none else g
    let k := { k with id := id, batch := nextBatch g.lastBatch }
    let g := { g with copyCount := g.copyCount + 1, cmds := if k.todo.isEmpty then g.cmds else g.cmds ++ [k] }
    g.advance c.gg words)

/-- A command with no words yet. -/
def CopyCmd.blank (kind : CopyKind) (round : Nat) (priv : Bool) : CopyCmd :=
  ⟨0, kind, 0, 0, 0, 0, 0, 0, 0, 0, 0, 0, 0, 0, false, false, 0, 0, false, [], round, .none, none, [], [], [], priv⟩

/-- The checks of a copy command before its global destination, in order. -/
def Cx.cpCheck (cx : Cx) (kind : CopyKind) (ok : Bool) (c : CpForm) : Except Tq Unit := do
  let fill := kind == CopyKind.fill
  let gather := kind == CopyKind.gather
  let dspad := c.xsp.getLsbD 1
  let sspad := c.xsp.getLsbD 0
  need (ok && cx.gg.pfx.isEmpty) .illegalOperand
  need (cx.sregsOk ([c.sd.toNat, c.ss.toNat, c.sl.toNat] ++ if gather then [c.sx.toNat] else [])) .regRange
  let shape := cx.g.readS c.sl.toNat
  let bytes := (lo32 shape).toNat
  let rows := (hi32 shape).toNat
  need (cpShapeOk fill c bytes rows) .illegalOperand
  cx.cpMask
  let d := cx.g.readS c.sd.toNat
  let a := cx.g.readS c.ss.toNat
  let x := cx.g.readS c.sx.toNat
  let some? := bytes != 0 && rows != 0
  needAddr (if some? && dspad then cx.badSpadRow d c.dpitch.toNat c.dswz.toNat rows bytes else none) .protection
  needAddr (if some? && sspad then cx.badSpadRow a c.spitch.toNat c.sswz.toNat rows bytes else none) .protection
  needAddr (if some? && gather && !cx.wordsPlaced x 0 (4 * rows) then some x else none) .protection
  needAddr (alignedTo 4 d) .misaligned
  needAddr (if fill then none else alignedTo 4 a) .misaligned
  needAddr (if gather then alignedTo 4 x else none) .misaligned

/-- The command of an instruction. A page whose home cannot be reached has no place: its words stay unwritten (R260). A handler's
accesses are never keyed (R341). -/
def Cx.command (cx : Cx) (kind : CopyKind) (c : CpForm) (ts : List (DWord × Tr)) : CopyCmd :=
  let shape := cx.g.readS c.sl.toNat
  let bytes := (lo32 shape).toNat
  let rows := (hi32 shape).toNat
  let page (t : DWord × Tr) : Option DstPage :=
    match t.2 with
    | .ok pa leaf => some
        { page := t.1.toNat / 65536, pa := pa / 65536 * 65536
          keyed := cx.l.hdr.det && !cx.handler && pteSharedDet leaf, sc := pteSc leaf }
    | _ => none
  { CopyCmd.blank kind cx.g.round cx.priv with
    dst := cx.g.readS c.sd.toNat, src := cx.g.readS c.ss.toNat, idx := cx.g.readS c.sx.toNat, rowBytes := bytes, rows := rows
    dpitch := c.dpitch.toNat, spitch := c.spitch.toNat, dtm := c.dtm.toNat, stm := c.stm.toNat
    dswz := c.dswz.toNat, sswz := c.sswz.toNat, dspad := c.xsp.getLsbD 1, sspad := c.xsp.getLsbD 0, scope := c.scope.toNat
    todo := List.range (bytes / 4 * rows), dmap := ts.filterMap page }

/-- The command changes state outside the team (R312): a global destination, a row of a scratchpad destination there, or tags there
that it sets EMPTY as it reads them (log 41). -/
def Cx.reachesOut (c : Cx) (k : CopyCmd) : Bool :=
  let out (base : DWord) (pitch : Nat) : Bool :=
    (List.range k.rows).any fun r => (c.place (base + dw (r * 16 * pitch)) 4).any c.outside
  !k.dspad || out k.dst k.dpitch ||
  (k.stm == 2 && ((k.sspad && out k.src k.spitch) || (k.kind == .gather && (c.place k.idx 4).any c.outside)))

def cpOp (kind : CopyKind) (ok : Bool) (c : CpForm) (s : State) : Res :=
  issue s fun cx =>
    match cx.cpCheck kind ok c with
    | .error q => cx.trap q
    | .ok _ =>
      if cx.g.batchesFull then cx.park (.wait .cpRoom)
      else
        let k := cx.command kind c []
        let pages := if k.dspad || k.todo.isEmpty then [] else sidePages k.dst k.dpitch k.rows k.rowBytes
        cx.withDest pages fun cx ts =>
          cx.queue cx.s (cx.command kind c ts) (!k.todo.isEmpty && cx.reachesOut k) 3

def execCpLoad (c : CpForm) (s : State) : Res := cpOp .load (cpLoadOk c) c s
def execCpStore (c : CpForm) (s : State) : Res := cpOp .store (cpStoreOk c) c s
def execCpGather (c : CpForm) (s : State) : Res := cpOp .gather (cpGatherOk c) c s
def execCpXfer (c : CpForm) (s : State) : Res := cpOp .xfer (cpXferOk c) c s
def execCpFill (c : CpForm) (s : State) : Res := cpOp .fill (cpFillOk c) c s

/-! ## Closing, waiting and adding (R261, R262, R267) -/

/-- The checks of an event word at issue (R396, steps 1 and 2). -/
def evtCheck (a : DWord) : Except Tq Unit := do
  needAddr (alignedTo 8 a) .misaligned
  needAddr (if canonical a then none else some a) .protection

def execCpClose (v : EvForm) (s : State) : Res :=
  issue s fun c =>
    let evt := v.bit == 1
    let a := c.g.readS v.r2.toNat
    let chk : Except Tq Unit := do
      need (closeOk v && c.gg.pfx.isEmpty) .illegalOperand
      need (c.sregsOk (v.r1.toNat :: if evt then [v.r2.toNat] else [])) .regRange
      if evt then evtCheck a
    match chk with
    | .error q => c.trap q
    | .ok _ =>
      if c.g.batchesFull then c.park (.wait .cpRoom)
      else
        c.withDest (if evt then [a] else []) fun c _ =>
          let s := if evt then c.s.markSide c.t else c.s
          .next (s.modGroup c.g.ident.id fun g =>
            let g := g.closeBatch (if evt then some a else none)
            (g.writeS c.gg v.r1.toNat (dw g.lastBatch)).advance c.gg 2)

/-- The batches that `cp.wait` on n waits for, incomplete. -/
def Group.awaited (g : Group) (n : Nat) : List Batch := g.incomplete.filter fun b => batchUpTo b.num n

/-- A batch is kept while it is incomplete, has a failure to report, or has reported one and may be told of a second: by an addition
deferred behind it (R396). -/
def Group.keepsBatch (g : Group) (b : Batch) : Bool :=
  !b.complete || b.failed.isSome && (!b.reported || b.num == g.lastBatch || g.adds.any fun a => a.after == b.num)

/-- Forget the other batches. -/
def Group.forget (g : Group) : Group := { g with batches := g.batches.filter g.keepsBatch }

/-- `cp.wait` reports the failure of a batch, once (R262). -/
def Group.reportBatch (g : Group) (n : Nat) : Group :=
  { g with batches := g.batches.map fun (b : Batch) => if b.num = n then { b with reported := true } else b }.forget

def execCpWait (v : EvForm) (s : State) : Res :=
  issue s fun c =>
    let gid := c.g.ident.id
    let chk : Except Tq Unit := do
      need (waitOk v && c.gg.pfx.isEmpty) .illegalOperand
      need (c.sregsOk [v.r1.toNat]) .regRange
    match chk with
    | .error q => c.trap q
    | .ok _ =>
      let x := c.g.readS v.r1.toNat
      let n := (lo32 x).toNat
      let ahead := batchDist c.g.lastBatch n
      if hi32 x != 0 then c.trap { code := .illegalOperand }
      else if n == 0 then .next (s.modGroup gid fun g => g.advance c.gg 2)
      else if 1 ≤ ahead && ahead < 2147483648 then c.trap { code := .illegalOperand }
      else if !(c.g.awaited n).isEmpty then c.park (.wait .cpWait)
      else
        match c.g.batches.find? fun b => batchUpTo b.num n && b.failed.isSome && !b.reported with
        | some b =>
          let s := s.modGroup gid fun g => g.reportBatch b.num
          { c with s := s }.trap { code := b.failed.getD .illegalOperand, addr := dw b.num }
        | none => .next (s.modGroup gid fun g => g.advance c.gg 2)

/-- Add to an event word of physical memory (R267). -/
def State.addWord (s : State) (pa : Nat) (v : DWord) : State :=
  s.writePa pa (leBytes 8 (Mem.dword s.mem pa + v).toNat)

def execEvtAdd (v : EvForm) (s : State) : Res :=
  issue s fun c =>
    let gid := c.g.ident.id
    let a := c.g.readS v.r1.toNat
    let x := c.g.readS v.r2.toNat
    let chk : Except Tq Unit := do
      need (evtAddOk v && c.gg.pfx.isEmpty) .illegalOperand
      need (c.sregsOk [v.r1.toNat, v.r2.toNat]) .regRange
      c.cpMask
      evtCheck a
    match chk with
    | .error q => c.trap q
    | .ok _ =>
      let later := v.bit == 1 && c.g.lastBatch != 0
      -- its release covers the group's commits, keyed accesses and crew operations (R253, R267)
      if c.g.tx.close.isSome then c.park (.wait .commit)
      else if !later && !c.keyAhead.isEmpty then c.park (.wait .keyed)
      else if !later && c.releaseHeld then c.park (.wait c.releaseWait)
      else if c.linkHolds true v.scope.toNat then c.parkLink a true
      else c.withDest [a] fun c ts =>
        if later then
          let (num, s) := c.s.fresh
          .next ((s.markSide c.t).modGroup gid fun g =>
            { g.advance c.gg 2 with adds := g.adds ++ [⟨a, x, g.lastBatch, num, .none⟩] })
        else
          match ts with
          | (_, .ok pa leaf) :: _ =>
            -- what the host or another package observes follows the group's own copies there (R283, R286)
            let far := if 5 ≤ v.scope.toNat || ownerOf pa == .remote || ownerOf pa == .host then c.farLeft else []
            let waits := [lineOf pa].filter c.s.engineLines.contains ++ far
            if !waits.isEmpty then c.park (.wait (.engine waits))
            else if pteSc leaf && c.scBusy then c.park (.wait .scCopies)
            else if c.s.poisoned pa 8 then
              .next (c.s.modGroup gid fun g => (g.gangPoison c.gg c.gg.lanes a).advance c.gg 2)
            else .next (((c.s.markSide c.t).addWord pa x).modGroup gid fun g => g.advance c.gg 2)
          | (_, t) :: _ => -- the event word cannot be reached (R272)
            { c with s := c.s.offerFault c.die (faultRec c.l.launchId c.t.core 2 a true t) c.gg.afresh }.park (.fault false)
          | [] => .next c.s

/-! ## Moving words (R259, R260) -/

/-- A scratchpad word of a side. -/
def Cx.dstPlace (c : Cx) (k : CopyCmd) (w : Nat) : Option Place := c.place (swizzle (k.wordVa k.dst k.dpitch w) k.dswz) 4
def Cx.srcPlace (c : Cx) (k : CopyCmd) (w : Nat) : Option Place := c.place (swizzle (k.srcVa w) k.sswz) 4

/-- The bytes of destination word w are source bytes of the command too (R259). -/
def Cx.overlapped (c : Cx) (k : CopyCmd) (w : Nat) : Bool :=
  let words := List.range (k.rowBytes / 4 * k.rows)
  if k.kind == CopyKind.fill then false
  else if k.dspad then
    let hit (p : Option Place) : Bool := match p, c.dstPlace k w with | some p, some q => placesOverlap p 4 q 4 | _, _ => false
    (k.sspad && words.any fun i => hit (c.srcPlace k i)) ||
    (k.kind == CopyKind.gather && (List.range k.rows).any fun r => hit (c.place (k.idx + dw (4 * r)) 4))
  else if k.sspad then false
  else words.any fun i => match c.probe (k.srcVa i), k.dstPa w with | some p, some q => p < q + 4 && q < p + 4 | _, _ => false

/-- A tag that a word waits for is there, or FAULT is. -/
def Cx.tagReady (c : Cx) (arrived : Nat) (p : Place) (want : Nat) : Bool :=
  !c.s.tagBlocked arrived p 4 && c.s.tagTest p 4 want != .unmet

/-- The index of the row of word w of a gather is still to be read. -/
def CopyCmd.needsIdx (k : CopyCmd) (w : Nat) : Bool :=
  k.kind == CopyKind.gather && !k.gidx.any fun e => e.1 == w / (k.rowBytes / 4)

/-- The command's global sides, and its release of a tagged word, follow what the group has issued before it (R258, R259). -/
def CopyCmd.follows (k : CopyCmd) : Bool := !k.dspad || k.dtm != 0 || !(k.sspad || k.kind == CopyKind.fill)

/-- The line of the source of word w is not one that an earlier command is still to write (R258, R283). -/
def Cx.srcFree (c : Cx) (k : CopyCmd) (w : Nat) : Bool :=
  k.sspad || k.kind == CopyKind.fill ||
    (c.s.probe c.die c.t.core (k.srcVa w) k.priv (k.wait == .again)).all fun x =>
      !(c.s.linesBefore k.id).contains (lineOf x.1)

/-- No command that issued before is still to write the destination of word w (R276, R283), nor, in a deterministic launch, one of
the group the same scratchpad word (R288, log 22). -/
def Cx.dstFree (c : Cx) (k : CopyCmd) (w : Nat) : Bool :=
  (match k.dstPa w with
   | some p => (c.s.groups.all fun g => g.cmds.all fun x => k.id ≤ x.id || !x.todo.any fun u => x.dstPa u == some p) &&
       !(c.s.collsBefore k.id).contains (lineOf p)
   | none => true) &&
  (!(c.l.hdr.det && k.dspad) ||
    c.g.cmds.all fun x => k.id ≤ x.id || !(x.dspad && x.todo.any fun u => c.dstPlace x u == c.dstPlace k w))

/-- The release of a tagged word covers what the group had ordered before the issue (R259): the accesses of its crew operations (R253),
and at scope 5 or 6 what its earlier commands write outside the package (R286). -/
def Cx.tagReleased (c : Cx) (k : CopyCmd) : Bool :=
  !(k.dspad && k.dtm != 0) ||
    (c.crewBefore k.id && (k.scope < 5 || c.g.cmds.all fun x => k.id ≤ x.id || (c.farLines x).isEmpty))

/-- Word w can move now, or the index of its row can be read: its tags are as they must be (R202), what the group issued before
has been performed where the word must follow it, and a keyed word has the key, after the group's earlier keyed commands
(R263); words on SC pages follow those of earlier commands (R282). -/
def Cx.wordReady (c : Cx) (k : CopyCmd) (w : Nat) : Bool :=
  let t0 := k.started.getD c.s.tick
  let rd (p : Option Place) : Bool := match p with | some p => k.stm == 0 || c.tagReady t0 p tagFull | none => true
  let wr : Bool := match c.dstPlace k w with | some p => k.dtm != 1 || c.tagReady t0 p tagEmpty | none => true
  let before := c.g.cmds.filter fun x => x.id < k.id
  if k.needsIdx w then rd (c.place (k.idx + dw (4 * (w / (k.rowBytes / 4)))) 4)
  else
    (!k.dspad || wr) && (!k.sspad || rd (c.srcPlace k w)) &&
    (!k.follows || c.g.settledBefore k.id) && c.srcFree k w && c.dstFree k w && c.tagReleased k &&
    (!c.scWord k w || !c.scBefore k) &&
    (!(k.dstPage w).any (·.keyed) || (c.s.groupHolds c.l c.t c.g k.round && before.all fun x => !x.keyedLeft))

/-- What a source word gives: its data, a failure, or a wait. -/
inductive Got where
  | data (w : Word) | fail (t : Trap) | wait

/-- Read a scratchpad word under STM (R202, R260); only a waiting mode heeds a FAULT tag (R200, log 29). -/
def Cx.readSpad (c : Cx) (stm : Nat) (p : Option Place) (s : State) : Got × State :=
  match p with
  | none => (.fail .protection, s)
  | some p =>
    if stm != 0 && s.tagTest p 4 tagFull == .fault then (.fail .tagFault, s)
    else if s.spadPoison p 4 then (.fail .poison, s)
    else (.data (le32 (s.spadRead p 4)), if stm = 2 then c.putTags p 4 tagEmpty s else s)

/-- Read a global word. -/
def Cx.readGlobal (c : Cx) (k : CopyCmd) (va : DWord) (s : State) : Got × State :=
  match s.engTr (c.copyAsker k.priv k.wait) va false with
  | (.ok pa _, s) => if s.poisoned pa 4 then (.fail .poison, s) else (.data (Mem.word s.mem pa), s)
  | (.fail t, s) => (.fail t, s)
  | (.wait, s) => (.wait, s)

/-- The source of word w. -/
def Cx.readSrc (c : Cx) (k : CopyCmd) (w : Nat) (s : State) : Got × State :=
  match k.kind with
  | .fill => (.data (lo32 k.src), s)
  | .gather =>
    match ((k.gidx.find? fun e => e.1 == w / (k.rowBytes / 4)).map (·.2) : Option (Nat ⊕ Trap)) with
    | some (Sum.inr t) => (.fail t, s)
    | some (Sum.inl i) => if i ≥ 2147483648 then (.data 0, s) else c.readGlobal k (k.srcVa w) s
    | none => (.data 0, s)
  | _ => if k.sspad then c.readSpad k.stm (c.srcPlace k w) s else c.readGlobal k (k.srcVa w) s

/-- A line all of whose words a command has written: its poison goes (R345). -/
def CopyCmd.wroteLine (k : CopyCmd) (line : Nat) : Bool :=
  let pas := (List.range (k.rowBytes / 4 * k.rows)).filter fun w => (k.dstPa w).any fun p => lineOf p == line
  (List.range 32).all (fun i => pas.any fun w => k.dstPa w == some (128 * line + 4 * i)) &&
  pas.all fun w => !k.todo.contains w && !k.lost.contains w

/-- Put a command back; a command without words left is complete. -/
def Group.putCmd (g : Group) (k : CopyCmd) : Group :=
  if k.todo.isEmpty then { g with cmds := g.cmds.filter fun x => x.id != k.id }
  else { g with cmds := g.cmds.map fun x => if x.id = k.id then k else x }

/-- Word w is done: written, or left unwritten with a failure of the batch. -/
def Cx.wordDone (c : Cx) (k : CopyCmd) (w : Nat) (fail : Option Trap) (s : State) : State :=
  let k := { k with wait := .none, todo := k.todo.erase w, lost := if fail.isSome then k.lost ++ [w] else k.lost }
  let s := s.modGroup c.g.ident.id fun g => (g.putCmd k).failIf k.batch fail
  match k.dstPa w with
  | some p => if k.wroteLine (lineOf p) then { s with poison := s.poison.filter (· != lineOf p) } else s
  | none => s

/-- Write word w of the destination, or tag it FAULT where the source failed and the command tags its words. A place that cannot
be reached leaves the word unwritten (R260). -/
def Cx.writeDst (c : Cx) (k : CopyCmd) (w : Nat) (x : Word ⊕ Trap) (s : State) : State :=
  if k.dspad then
    match c.dstPlace k w, x with
    | none, _ => c.wordDone k w (some .protection) s
    | some p, .inl v =>
      let s := s.modSpad p fun y => y.store p.off (leBytes 4 v.toNat)
      c.wordDone k w none (if k.dtm = 0 then s else s.setTags p 4 tagFull)
    | some p, .inr t => c.wordDone k w (some t) (if k.dtm = 0 then s else s.setTags p 4 tagFault)
  else
    match k.dstPa w, x with
    | some pa, .inl v =>
      if s.reachable c.die pa then c.wordDone k w none (s.writePa pa (leBytes 4 v.toNat))
      else c.wordDone k w (some .peerUnavailable) s
    | none, .inl _ => c.wordDone k w (some .peerUnavailable) s
    | _, .inr t => c.wordDone k w (some t) s

/-- Move word w. The release of a tagged word (R259) covers the source reads that the command has made by then: the word's own, and
not those of words that are still to move (log 29). A destination word that a `.wef` command finds FAULT leaves its source word unread, and
its tag as it is (log 29). -/
def Cx.moveWord (c : Cx) (k : CopyCmd) (w : Nat) : Res :=
  let s := c.s
  let gid := c.g.ident.id
  let put (k : CopyCmd) (s : State) : State := s.modGroup gid fun g => g.putCmd k
  let full := k.dtm == 1 && (match c.dstPlace k w with | some p => k.dspad && s.tagTest p 4 tagEmpty == .fault | none => false)
  if k.needsIdx w then
    let r := w / (k.rowBytes / 4)
    match c.readSpad k.stm (c.place (k.idx + dw (4 * r)) 4) s with
    | (.data v, s) => .next (put { k with gidx := k.gidx ++ [(r, .inl v.toNat)] } s)
    | (.fail t, s) => .next (put { k with gidx := k.gidx ++ [(r, .inr t)] } s)
    | (_, s) => .next s
  else if full then .next (c.wordDone k w (some .tagFault) s)
  -- the release of a tagged word crosses a link that is down (R259, R351)
  else if k.dspad && k.dtm != 0 && packageScope k.scope && s.linksDown.contains .cdCd then
    .next (c.writeDst k w (.inr .peerUnavailable) s)
  else
    match c.readSrc k w s with
    | (.data v, s) => .next (c.writeDst k w (.inl (if c.overlapped k w then Config.freeWord s.tick 0 else v)) s)
    | (.fail t, s) => .next (c.writeDst k w (.inr t) s)
    | (.wait, s) => .next (put { k with wait := .waits } s)

/-- The words left, from a free one on: they move in no stated order (R259). -/
def CopyCmd.order (k : CopyCmd) (tick : Nat) : List Nat :=
  let i := freeIndex (Config.freeNat tick 0) k.todo.length
  k.todo.drop i ++ k.todo.take i

/-- Move one word of a copy command that can move. -/
def Cx.copyStep (c : Cx) (k : CopyCmd) : Res :=
  let k := { k with started := some (k.started.getD c.s.tick) }
  match (k.order c.s.tick).find? (c.wordReady k) with
  | some w => c.moveWord k w
  | none => .next (c.s.modGroup c.g.ident.id fun g => g.putCmd k)

/-! ## BATCH_COMPLETE (R261, R267, R396) -/

/-- What an addition by an engine comes to. -/
inductive Added where
  | done | wait | later | fail (t : Trap)

/-- Add to an event word, translated now (R396). One that is not 8-byte aligned, which only a collective's descriptor can name, is added to
where it lies (log 43). -/
def State.addEvent (s : State) (q : Asker) (va : DWord) (v : DWord) : Added × State :=
  match s.engTr q va true with
  | (.ok pa _, s) =>
    if s.engineLines.contains (lineOf pa) then (.later, s)
    else if s.poisoned pa 8 then (.fail .poison, s) else (.done, s.addWord pa v)
  | (.fail t, s) => (.fail t, s)
  | (.wait, s) => (.wait, s)

/-- Complete a batch. -/
def Group.endBatch (g : Group) (n : Nat) : Group :=
  let fin (b : Batch) : Batch := if b.num = n then { b with complete := true } else b
  { g with batches := g.batches.map fin }.forget

/-- An addition that is due: every batch closed before it is complete, and so are the keyed accesses and the crew operations that its
release covers; on an SC page it follows the group's earlier accesses to such pages (R282). -/
def Cx.dueAdd (c : Cx) : Option EvtAdd :=
  c.g.adds.find? fun a => a.wait != .waits && (c.g.awaited a.after).isEmpty && c.g.settledBefore a.num && c.crewBefore a.num &&
    (c.g.cmds.all fun k => a.num ≤ k.id || ((c.farLines k).isEmpty && !(c.scEvent a.addr && c.scLeft k))) &&
    !(c.scEvent a.addr && c.scAdds (fun b => b.num < a.num) fun _ => false)

/-- The first incomplete batch, when no command of it is left; an event word on an SC page follows the additions to such pages that
were deferred before the close (R282). -/
def Cx.dueBatch (c : Cx) : Option Batch :=
  match c.g.incomplete with
  | b :: _ =>
    if b.wait == .waits || (c.g.cmds.any fun k => k.batch == b.num) ||
      (b.evt.any c.scEvent && c.scAdds (fun a => batchBefore a.after b.num) fun _ => false) then none
    else some b
  | [] => none

/-- A deferred addition performed, or waiting, or dropped with a failure of the batch it followed (R396). It is translated with the
privilege of the launch, also where a handler issued it: the rule names none (log 38). -/
def Cx.runAdd (c : Cx) (a : EvtAdd) : Res :=
  let gid := c.g.ident.id
  match c.s.addEvent (c.copyAsker c.l.priv a.wait) a.addr a.val with
  | (.done, s) => .next (s.modGroup gid fun g => { g with adds := g.adds.erase a }.forget)
  | (.fail t, s) => .next (s.modGroup gid fun g => ({ g with adds := g.adds.erase a }.failBatch a.after t).forget)
  | (.wait, s) =>
    .next (s.modGroup gid fun g => { g with adds := g.adds.map fun x => if x = a then { x with wait := .waits } else x })
  | (.later, s) => .next s

/-- A batch completed, with its event word raised under the privilege of the launch (log 38). -/
def Cx.runBatch (c : Cx) (b : Batch) : Res :=
  let gid := c.g.ident.id
  match b.evt with
  | none => .next (c.s.modGroup gid fun g => g.endBatch b.num)
  | some a =>
    match c.s.addEvent (c.copyAsker c.l.priv b.wait) a 1 with
    | (.done, s) => .next (s.modGroup gid fun g => g.endBatch b.num)
    | (.fail t, s) => .next (s.modGroup gid fun g => (g.failBatch b.num t).endBatch b.num)
    | (.wait, s) =>
      .next (s.modGroup gid fun g =>
        { g with batches := g.batches.map fun x => if x.num = b.num then { x with wait := .waits } else x })
    | (.later, s) => .next s

/-- The team may have waited for this alone to end (R150). -/
def reapAfter (r : Res) (team : Nat) : Res := match r with | .next s => .next ((s.settleKey team).reapTeam team) | r => r

def execBatchComplete (gid : Nat) (s : State) : Res :=
  match s.cxMember gid with
  | none => .next s
  | some c =>
    match c.dueAdd, c.dueBatch with
    | some a, _ => reapAfter (c.runAdd a) c.t.id
    | none, some b => reapAfter (c.runBatch b) c.t.id
    | none, none => .next s

end Sys2Proof.Machine
end

