-- ==== Sys2Proof/Machine/Reduce.lean ====
section
/-! DEFINITION. Fixed-order reductions, scans, `v.argmax` and the samplers, opcodes 0x6A to 0x6F (spec/06 R189 to R192,
spec/02 R67 to R70, spec/04 R108). -/

namespace Sys2Proof.Machine

/-- A node of a reduction: its value bits, the lanes that contribute (or the one delivered), and the charge of the roundings
below it. -/
structure RNode where
  bits : Nat
  lanes : List Nat
  rv : VV
  deriving DecidableEq, Repr

/-- What a reduction carries along: the group with its draws and flags, and the draws taken by each lane so far. -/
structure RAcc where
  g : Group
  drawn : List Nat

/-- One combination at a lane (R189). Under SR the draw is the lane's also where it is inactive; two NaNs take the glove of the lower
operand (log 18). -/
def Cx.combine (c : Cx) (fm : Fmt) (op : Nat) (rm : Rm) (lane : Nat) (x y : RNode) (a : RAcc) : RNode × RAcc :=
  if op = 0 then
    let (w, g) := c.drawIf rm a.g lane (a.drawn.filter (· == lane)).length
    let s := sumFV rm [fm.decode x.bits, fm.decode y.bits]
    let (b, fl, rv) := stdRound fm rm false w s.v
    (⟨b, x.lanes ++ y.lanes, (x.rv.add y.rv).add rv⟩, ⟨g.raise (s.fl ||| fl), lane :: a.drawn⟩)
  else
    let (b, fl, p) := pickBits fm (op == 2) x.bits y.bits
    (⟨b, if p = .b then y.lanes else x.lanes, .zero⟩, { a with g := a.g.raise fl })

/-- The value a lane contributes. -/
def Cx.leafNode (c : Cx) (f : VForm) (t lane : Nat) : RNode := ⟨c.elem f t 0 f.a.toNat lane 0, [lane], .zero⟩

/-- `Tree(lo, 2^k)` (R189). -/
def Cx.tree (c : Cx) (f : VForm) (t op : Nat) (rm : Rm) : Nat → Nat → RAcc → Option RNode × RAcc
  | 0, lo, a => (if c.lanes.contains lo then some (c.leafNode f t lo) else none, a)
  | k + 1, lo, a =>
    let (x, a) := c.tree f t op rm k lo a
    let (y, a) := c.tree f t op rm k (lo + 2 ^ k) a
    match x, y with
    | none, y => (y, a)
    | x, none => (x, a)
    | some x, some y => let (n, a) := c.combine (typeFmt t) op rm lo x y a; (some n, a)

/-- A signalling NaN that an active lane brings sets INVALID, also where its value is delivered without a combination (R48). -/
def Cx.raiseSig (c : Cx) (f : VForm) (t : Nat) (g : Group) : Group :=
  if c.lanes.any fun l => (c.fval f t 0 f.a.toNat l 0).isSig then g.raise fInvalid else g

/-- The glove of a reduced element (R108), whole in every mode but under `pfx.pt` (log 18). A minimum, maximum or `v.argmax` copies the
winner's glove as it stands: NEG and ABS of source a change no word of it, R395 and R108 notwithstanding one another (log 18). -/
def Cx.redGlove (c : Cx) (f : VForm) (t op : Nat) (rm : Rm) (n : RNode) : List Word :=
  let k := c.g.ident.k
  if op = 0 then
    gloveOut c.modes k (sumFV rm (n.lanes.map fun l => c.fval f t 0 f.a.toNat l 0)).v n.rv ⟨n.lanes.map fun _ => oneP, []⟩
      (n.lanes.map fun l => c.negPart f t 0 f.a.toNat l) false (n.lanes.map fun l => c.srcGlove f.a.toNat l)
  else if c.point then zeroGlove k
  else match n.lanes with
    | l :: _ => c.srcGlove f.a.toNat l
    | [] => zeroGlove k

def execVFred (f : VForm) (s : State) : Res :=
  local1 (vLen f) s fun c => do
    c.vCheck spFred f
    let t := c.type spFred f
    let op := f.sel % 4
    let rm := c.rm f.rnd
    let (n, a) := c.tree f t op rm (Nat.log2 c.g.ident.width) 0 ⟨c.raiseSig f t (c.hold f c.g), []⟩
    match n with
    | none => pure a.g
    | some n =>
      if f.sel ≥ 8 then pure (a.g.writeS c.gg f.sreg (dw n.bits))
      else
        let gl := c.redGlove f t op rm n
        pure (c.lanes.foldl (fun g l => g.putT (t == 3) f.d.toNat l n.bits gl) a.g)

/-- Identity of an operation (R190). -/
def fIdent (fm : Fmt) (op : Nat) : Nat :=
  match op with
  | 0 => 0
  | 1 => fm.code false (fm.infCode.getD 0)
  | _ => fm.code true (fm.infCode.getD 0)

/-- The sequential scan over the active lanes: each lane's result, in order (R190). -/
def Cx.scan (c : Cx) (f : VForm) (t op : Nat) (rm : Rm) (excl : Bool) :
    List Nat → Option RNode → RAcc → List (Nat × RNode) × RAcc
  | [], _, a => ([], a)
  | l :: ls, acc, a =>
    let leaf := c.leafNode f t l
    let (n, a) := match acc with
      | none => (leaf, a)
      | some x => c.combine (typeFmt t) op rm l x leaf a
    let out : RNode := if excl then acc.getD ⟨fIdent (typeFmt t) op, [], .zero⟩ else n
    let (rest, a) := c.scan f t op rm excl ls (some n) a
    ((l, out) :: rest, a)

def execVFscan (f : VForm) (s : State) : Res :=
  local1 (vLen f) s fun c => do
    c.vCheck spFscan f
    let t := c.type spFscan f
    let op := f.sel % 4
    let rm := c.rm f.rnd
    let (ns, a) := c.scan f t op rm (f.sel ≥ 8) c.lanes none ⟨c.raiseSig f t (c.hold f c.g), []⟩
    pure (ns.foldl (fun g n => g.putT (t == 3) f.d.toNat n.1 n.2.bits (c.redGlove f t op rm n.2)) a.g)

/-! ## `v.argmax` (R191) -/

/-- Whether the pair (x, i) beats (y, j). -/
def argBeats (x : FV) (i : Nat) (y : FV) (j : Nat) : Bool :=
  if x.isNan then y.isNan && i < j
  else if y.isNan then true
  else y.below x || (x.equal y && i < j)

def execVArgmax (f : VForm) (s : State) : Res :=
  local1 (vLen f) s fun c => do
    c.vCheck spArgmax f
    let v (l : Nat) : FV := c.fval f 0 0 f.a.toNat l 0
    let i (l : Nat) : Nat := (c.src f f.b.toNat l).toNat
    let g := c.hold f c.g
    match c.lanes with
    | [] => pure g
    | l0 :: ls =>
      let w := ls.foldl (fun b l => if argBeats (v l) (i l) (v b) (i b) then l else b) l0
      let bits := if (v w).isNan then f32Nan else wd (c.elem f 0 0 f.a.toNat w 0)
      let gl := if c.point then zeroGlove c.g.ident.k else c.srcGlove f.a.toNat w
      let g := if c.lanes.any fun l => (v l).isSig then g.raise fInvalid else g
      pure (c.lanes.foldl (fun g l => g.putD64 f.d.toNat l (pair64 bits (wd (i w))) gl) g)

/-! ## Samplers (R68 to R70, R192) -/

/-- The binary32 uniform of a draw word. -/
def uniform (w : Word) : Word := f32Of .rtz (.rat ⟨2 * (w.toNat / 256 : Nat) + 1, 2 ^ 25⟩)

def mul32 (a b : Word) : Word := wd (Fmt.f32.roundTo .rne false 0 (mulFV (f32 a) (f32 b)).v).bits
def log32 (a : Word) : Word := f32Of .rne (RE.mkLog2 (f32 a).q)

/-- `GaussDraw` from its two words. -/
def gaussOf (w1 w2 : Word) : Word :=
  let b := mul32 (log32 (uniform w1)) 0xBFB17218
  let c := f32Of .rne (RE.mkSqrt (f32 b).q)
  let d := f32Of .rne (RE.mkCosPi ((f32 (uniform w2)).q.mul (Q.ofInt 2)))
  mul32 c d

/-- `GumbelDraw` from its word. -/
def gumbelOf (w : Word) : Word := mul32 (log32 (mul32 (log32 (uniform w)) 0xBF317218)) 0xBF317218

/-- A sampler: each active lane draws its words in order. -/
def vSample (f : VForm) (s : State) (draw : Cx → Group → Nat → Word × Group) : Res :=
  local1 (vLen f) s fun c => do
    c.vCheck spRnd f (f.hold == 0)
    let put (g : Group) (l : Nat) : Group :=
      let (w, g) := draw c g l
      g.putD f.d.toNat l w (zeroGlove c.g.ident.k)
    pure (c.lanes.foldl put c.g)

def execVRndu (f : VForm) (s : State) : Res :=
  vSample f s fun c g l => let (w, g) := c.drawWord g l; (uniform w, g)
def execVRndn (f : VForm) (s : State) : Res :=
  vSample f s fun c g l =>
    let (w1, g) := c.drawWord g l
    let (w2, g) := c.drawWord g l
    (gaussOf w1 w2, g)
def execVRndg (f : VForm) (s : State) : Res :=
  vSample f s fun c g l => let (w, g) := c.drawWord g l; (gumbelOf w, g)

end Sys2Proof.Machine
end

