-- ==== Sys2Proof/Machine/Collect.lean ====
section
/-! DEFINITION. Collectives and appends of launch records: `coll.start`, `launch`, and the events COPY_COMMAND_EXECUTE,
COLLECTIVE_EXECUTE, COLLECTIVE_MESSAGE_RECEIVE, COLLECTIVE_RANK_TIMEOUT and PEER_LAUNCH_APPEND (spec/08 R264 to R266, spec/10
R293, spec/12 R356 to R359). -/

namespace Sys2Proof.Machine

/-! ## Issue -/

def execCollStart (f : CpForm) (s : State) : Res :=
  issue s fun c =>
    let a := c.g.readS f.ss.toNat
    let chk : Except Tq Unit := do
      need (collOk f && c.gg.pfx.isEmpty) .illegalOperand
      need (c.sregsOk [f.ss.toNat]) .regRange
      c.cpMask
      needAddr (alignedTo 64 a) .misaligned
      needAddr (if canonical a then none else some a) .protection
    match chk with
    | .error q => c.trap q
    | .ok _ =>
      if c.g.batchesFull then c.park (.wait .cpRoom)
      else c.queue s { CopyCmd.blank .coll c.g.round c.priv with src := a, todo := [0] } true 3

/-- An aligned record address that is not canonical traps PROTECTION at issue: R266 names MISALIGNED alone (log 38). -/
def execLaunch (f : CpForm) (s : State) : Res :=
  issue s fun c =>
    let a := c.g.readS f.ss.toNat
    let chk : Except Tq Unit := do
      need (launchOk f && c.gg.pfx.isEmpty) .illegalOperand
      need (c.sregsOk [f.ss.toNat]) .regRange
      c.cpMask
      needAddr (alignedTo 128 a) .misaligned
      needAddr (if canonical a then none else some a) .protection
    match chk with
    | .error q => c.trap q
    | .ok _ =>
      if c.g.batchesFull then c.park (.wait .cpRoom)
      else
        let k := CopyCmd.blank .launch c.g.round c.priv
        c.queue s { k with
          src := a, todo := [0], pri := (f.rsv1.extractLsb' 10 2).toNat, peer := f.rsv1.getLsbD 9 } true 3

/-! ## Appending a launch record (R266, R293) -/

/-- How an append ends. -/
inductive AppendEnd where
  | linked | wait | later | fail (t : Trap)

/-- Translate the three lines of an append in turn; nothing is written before all are there, and what commands issued before the
number `num` are still to write to them (R258). -/
def State.append (s : State) (d : DieId) (pri : Nat) (record launchId : DWord) (priv : Bool) (num : Nat) (wait : Redo) :
    AppendEnd × State :=
  let a := (s.die d).ctl.anchors.getD pri 0
  let anchor := a &&& ~~~127
  let q : Asker := ⟨d, none, lo32 launchId, 0xFF, 4, a.getLsbD 2, wait == .again⟩
  let outcome (e : Eng) : AppendEnd :=
    match e with
    | .wait => .wait | .fail .peerUnavailable => .fail .peerUnavailable | _ => .fail .protection
  if !a.getLsbD 0 || (a.getLsbD 2 && !priv) then (.fail .protection, s)
  else
    match s.engTr q record true with
    | (.ok rp _, s) =>
      match s.engTr q anchor true with
      | (.ok ap _, s) =>
        let tail := Mem.dword s.mem (ap + 8)
        match s.engTr q tail true with
        | (.ok tp _, s) =>
          let lines := s.linesBefore num
          if [rp, ap, tp].any fun pa => lines.contains (lineOf pa) then (.later, s)
          else if s.poisoned rp 128 || s.poisoned ap 16 || s.poisoned tp 8 then (.fail .protection, s)
          else
            let s := (s.writePa rp (leBytes 8 0)).writePa (rp + 46) (leBytes 2 0)
            let s := s.writePa (ap + 8) (leBytes 8 record.toNat)
            (.linked, s.writePa tp (leBytes 8 record.toNat))
        | (e, s) => (outcome e, s)
      | (e, s) => (outcome e, s)
    | (e, s) => (outcome e, s)

/-- A command ends, with a failure of its batch where there is one. -/
def State.endCmd (s : State) (gid cmd : Nat) (fail : Option Trap) : State :=
  s.modGroup gid fun g =>
    match g.cmds.find? fun k => k.id == cmd with
    | none => g
    | some k => { g with cmds := g.cmds.filter fun x => x.id != cmd }.failIf k.batch fail

/-- The outcome of an append for its command. -/
def State.appended (s : State) (gid cmd : Nat) (e : AppendEnd) : Res :=
  match e with
  | .linked => .next (s.endCmd gid cmd none)
  | .fail t => .next (s.endCmd gid cmd (some t))
  | .wait => .next (s.modGroup gid fun g =>
      { g with cmds := g.cmds.map fun k => if k.id = cmd then { k with wait := .waits } else k })
  | .later => .next s

/-- `launch`: append on this die, or pass the record's address to the other die's front-end. -/
def Cx.launchStep (c : Cx) (k : CopyCmd) : Res :=
  let s := c.s
  let gid := c.g.ident.id
  if !c.g.settledBefore k.id then .next s
  else if !k.peer then
    let (e, s) := s.append c.die k.pri k.src (zx64 c.l.launchId) k.priv k.id k.wait
    s.appended gid k.id e
  else if k.started.isSome then .next s
  else if s.linksDown.contains .cdCd then .next (s.endCmd gid k.id (some .peerUnavailable))
  else
    let s := s.modGroup gid fun g =>
      { g with cmds := g.cmds.map fun x => if x.id = k.id then { x with started := some s.tick } else x }
    .next (s.modDie (otherDie c.die) fun d => { d with peerAppends := d.peerAppends ++ [(gid, k.id, k.src, k.pri)] })

/-- PEER_LAUNCH_APPEND: the first append passed to the die's front-end that does not wait for a replay. A die whose cores are held
links the record, and makes no fault record: an append that misses a translation there waits for its cores (R266, R346). -/
def execPeerLaunchAppend (d : DieId) (s : State) : Res :=
  let cmd (e : Nat × Nat × DWord × Nat) : Option CopyCmd :=
    (s.group? e.1).bind fun g => g.cmds.find? fun k => k.id == e.2.1
  match (s.die d).peerAppends.find? fun e => (cmd e).all fun k => k.wait != .waits with
  | none => .next s
  | some e =>
    let drop (s : State) : State := s.modDie d fun x => { x with peerAppends := x.peerAppends.erase e }
    match cmd e, s.cxMember e.1 with
    | some k, some c =>
      match s.append d e.2.2.2 e.2.2.1 (zx64 c.l.launchId) k.priv k.id k.wait with
      | (.wait, u) => if (s.die d).coresHeld then .next s else u.appended e.1 e.2.1 .wait
      | (.later, s) => .next s
      | (r, s) => reapAfter ((drop s).appended e.1 e.2.1 r) c.t.id
    | _, _ => .next (drop s)

/-! ## The descriptor and the communicator (R264, R265, R356) -/

/-- Address of the communicator entry. -/
def State.commEntry (s : State) (d : DieId) (comm : Nat) : Nat :=
  (((s.die d).ctl.commTable.extractLsb' 18 34).toNat * 262144) + 64 * comm

/-- Number of collectives that the die has issued on an index (R265). -/
def Die.collCount (d : Die) (comm : Nat) : Nat := ((d.collSeq.find? fun e => e.1 == comm).map (·.2)).getD 0
def Die.collNext (d : Die) (comm : Nat) : Die :=
  { d with collSeq := (comm, d.collCount comm + 1) :: d.collSeq.filter fun e => e.1 != comm }

/-- The kind of a route, and a route all of whose other bits are zero outside its field (R356). -/
def routeKind (r : DWord) : Nat := r.toNat / 2 ^ 60
def routeLegal (r : DWord) : Bool :=
  let x := r.toNat % 2 ^ 60
  match routeKind r with
  | 0 | 1 => x == 0
  | 2 => x < 2 ^ 10
  | 3 => x < 2 ^ 48
  | _ => false

/-- The route table of p ranks. -/
def State.readRoutes (s : State) (base p : Nat) : List DWord := (List.range p).map fun r => Mem.dword s.mem (base + 8 * r)

/-- An entry of the communicator table that a collective can use; any other fails with ILLEGAL_OPERAND (R5, R356, log 43). -/
def commOk (b : List Byte) (routes : List DWord) : Bool :=
  let ent (i n : Nat) : Nat := leNat ((b.drop i).take n)
  ent 20 1 == 1 && 1 ≤ ent 0 4 && ent 0 4 ≤ 1048576 && ent 4 4 < ent 0 4 && ent 8 8 % 8 == 0 && (b.drop 21).all (· == 0) &&
  routes.all routeLegal

/-- The die reaches the entry of a communicator and its p routes from `base` (R351, R356). -/
def State.commReached (s : State) (d : DieId) (entry base p : Nat) : Bool :=
  s.reachable d entry && (List.range p).all fun r => s.reachable d (base + 8 * r)

/-- The collective of a descriptor read at last. Where a link or a home that is down keeps the engine from the communicator's entry or
routes, the batch fails with PEER_UNAVAILABLE, and the collective counts as issued (R265, R351, log 48). -/
def Cx.openColl (c : Cx) (k : CopyCmd) (b : List Byte) (s : State) : State :=
  let at' (i n : Nat) : Nat := leNat ((b.drop i).take n)
  let comm := at' 26 2
  let e := s.commEntry c.die comm
  let ent (i n : Nat) : Nat := leNat (s.readPa (e + i) n)
  let p := if s.reachable c.die e && ent 0 4 ≤ 1048576 then ent 0 4 else 0
  let lost := comm < 4096 && !s.commReached c.die e (ent 8 8) p
  let routes := if lost then [] else s.readRoutes (ent 8 8) p
  let valid := comm < 4096 && !lost && commOk (s.readPa e 64) routes
  let failed : Option Trap :=
    if collLegal b && valid then none else if collLegal b && lost then some .peerUnavailable else some .illegalOperand
  let (id, s) := s.fresh
  let seq := (s.die c.die).collCount comm
  let s := if valid || lost then s.modDie c.die fun d => d.collNext comm else s
  let x : Coll := ⟨id, c.die, c.g.ident.id, k.id, comm, seq, if valid then ent 0 4 else 0, ent 4 4, routes, at' 24 1, at' 25 1, at' 16 8,
    dw (at' 0 8), dw (at' 8 8), dw (at' 32 8), ent 16 4, c.l.launchId,
    failed, .none, if valid then 0 else 2, 0⟩
  { s with colls := s.colls ++ [x] }.modGroup c.g.ident.id fun g =>
    { g with cmds := g.cmds.map fun (y : CopyCmd) => if y.id = k.id then { y with started := some s.tick } else y }

/-- Record of the collective engine: SOURCE 3, LCORE 0xFF. -/
def Cx.collAsker (c : Cx) (priv : Bool) (wait : Redo) : Asker := ⟨c.die, none, c.l.launchId, 0xFF, 3, priv, wait == .again⟩

/-- n bytes under a map of pages lie on a line that a command issued before `num` is still to write (R258, R283); `but` names commands
that are not waited for. -/
def State.spanBusy (s : State) (num : Nat) (m : List (Nat × Nat)) (v n : Nat) (but : List Nat := []) : Bool :=
  let lines := s.linesBefore num but
  !lines.isEmpty && (List.range n).any fun i => (spanPa m (v + i)).any fun pa => lines.contains (lineOf pa)

/-- `coll.start`: read the descriptor, in issue order among those of the die (R265). -/
def Cx.collStep (c : Cx) (k : CopyCmd) : Res :=
  let s := c.s
  let gid := c.g.ident.id
  let before (g : Group) : Bool := (s.team? g.ident.team).any (fun t => t.die == c.die) &&
    g.cmds.any fun x => x.kind == CopyKind.coll && x.id < k.id && x.started.isNone
  if k.started.isSome || s.groups.any before || !c.g.settledBefore k.id || (c.scLeft k && c.scBefore k) then .next s
  else
    match s.engSpan (c.collAsker k.priv k.wait) k.src false 64 with
    | (.inr m, s) =>
      let v := (k.src.extractLsb' 0 57).toNat
      if s.spanBusy k.id m v 64 then .next s
      else if (spanPa m v).any fun pa => s.poisoned pa 64 then .next (s.endCmd gid k.id (some .poison))
      else .next (c.openColl k (s.readSpan m v 64) s)
    | (.inl .wait, s) => .next (s.modGroup gid fun g =>
        { g with cmds := g.cmds.map fun (x : CopyCmd) => if x.id = k.id then { x with wait := .waits } else x })
    | (.inl (.fail t), s) => .next (s.endCmd gid k.id (some t))
    | (.inl (.ok ..), s) => .next s

def execCopyCommandExecute (gid cmd : Nat) (s : State) : Res :=
  match s.cxMember gid with
  | none => .next s
  | some c =>
    match c.g.cmds.find? fun k => k.id == cmd with
    | none => .next s
    | some k =>
      if k.wait == .waits then .next s
      else
        match k.kind with
        | .coll => reapAfter (c.collStep k) c.t.id
        | .launch => reapAfter (c.launchStep k) c.t.id
        | _ => reapAfter (c.copyStep k) c.t.id

/-! ## Combining (R264, R357) -/

def collFmt (type : Nat) : Option Fmt := match type with | 0 => some .f32 | 1 => some .bf16 | 2 => some .f64 | _ => none

/-- Combination of two elements at a node. -/
def collCombine (op type : Nat) (x y : Nat) : Nat :=
  let w := 8 * collBytes type
  let signed (n : Nat) : Int := if type ≠ 4 ∧ n.testBit (w - 1) then (n : Int) - 2 ^ w else n
  if op = 3 then
    if argBeats (f32 (wd x)) (x / 2 ^ 32) (f32 (wd y)) (y / 2 ^ 32) then x else y
  else match collFmt type with
    | some f =>
      if op = 0 then (f.roundTo .rne false 0 (sumFV .rne [f.decode x, f.decode y]).v).bits else (pickBits f (op == 2) x y).1
    | none =>
      if op = 0 then (x + y) % 2 ^ w
      else if op = 1 then (if signed y < signed x then y else x) else (if signed x < signed y then y else x)

/-- The smallest k with P ≤ 2^k. -/
def treeDepth (p : Nat) : Nat := if p ≤ 1 then 0 else Nat.log2 (p - 1) + 1

/-- The result as it is stored: a NaN of `argmax` is canonical (R191). -/
def collResult (op v : Nat) : Nat :=
  if op = 3 ∧ (f32 (wd v)).isNan then v / 2 ^ 32 * 2 ^ 32 + f32Nan.toNat else v

/-- The ranks whose nodes rank r of p combines after its own contribution, in that order: node (r, 2^(i+1)) of the tree takes node
(r + 2^i, 2^i) in, and an absent rank is skipped (R189, R357). -/
def collChildren (p r : Nat) : List Nat :=
  (((List.range (treeDepth p)).filter fun i => r % 2 ^ (i + 1) == 0).map fun i => r + 2 ^ i).filter (· < p)

/-- The rank that takes in the node of rank r of p; rank 0 has the root. -/
def collParent (p r : Nat) : Option Nat :=
  ((List.range (treeDepth p)).find? fun i => r % 2 ^ (i + 1) != 0).map fun i => r - 2 ^ i

def Coll.children (k : Coll) : List Nat := collChildren k.ranks k.myRank
def Coll.parent (k : Coll) : Option Nat := collParent k.ranks k.myRank

/-- Element e of the node at this rank: its own contribution, then the nodes of its children in ascending order. -/
def Coll.nodeElem (k : Coll) (own : List DWord) (nodes : List (List DWord)) (e : Nat) : Nat :=
  nodes.foldl (fun x n => collCombine k.op k.type x (n.getD e 0).toNat) (own.getD e 0).toNat

/-! ## COLLECTIVE_EXECUTE -/

def State.modColl (s : State) (id : Nat) (f : Coll → Coll) : State :=
  { s with colls := s.colls.map fun k => if k.id = id then f k else k }

/-- Elements of n bytes each. -/
def splitElems (n : Nat) : Nat → List Byte → List DWord
  | 0, _ => []
  | k + 1, bs => dw (leNat (bs.take n)) :: splitElems n k (bs.drop n)

/-- The communicator's entry or its routes have been changed since the collective began (R356). -/
def State.routesChanged (s : State) (k : Coll) : Bool :=
  let e := s.commEntry k.die k.comm
  Mem.dword s.mem e != BitVec.ofNat 64 (k.ranks + 2 ^ 32 * k.myRank) ||
  s.readRoutes (Mem.dword s.mem (e + 8)).toNat k.ranks != k.routes

/-- The route to a rank. -/
def Coll.routeTo (k : Coll) (r : Nat) : DWord := k.routes.getD r 0

/-- What the die has received for a collective. -/
def State.collRecv (s : State) (k : Coll) : List CollMsg :=
  s.collMsgs.filter fun m => m.die == k.die && m.comm == k.comm && m.seq == k.seq

/-- What a rank has sent for a collective. -/
def State.collFrom (s : State) (k : Coll) (r : Nat) : Option CollMsg := (s.collRecv k).find? fun m => m.rank == r

/-- The ranks whose message the rank waits for: its children's nodes, then the result from its parent. -/
def Coll.awaits (k : Coll) : List Nat :=
  match k.sent with
  | 0 => k.children
  | 1 => k.parent.toList
  | _ => []

/-- The ranks that it has yet to send to: its parent its node, its children the result. -/
def Coll.owes (k : Coll) : List Nat :=
  match k.sent with
  | 0 => k.parent.toList ++ k.children
  | 1 => k.children
  | _ => []

/-- The collective still needs the link between the compute dies: for a message to come or one to send (R351). -/
def State.collCrosses (s : State) (k : Coll) : Bool :=
  (k.owes ++ k.awaits.filter fun r => (s.collFrom k r).isNone).any fun r => routeKind (k.routeTo r) == 1

/-- The collective sends scale-out traffic (R373). -/
def Coll.scalesOut (k : Coll) : Bool := k.owes.any fun r => routeKind (k.routeTo r) == 3

/-- The collective of that number has ended on the die: what still comes for it finds nobody. -/
def State.collOver (s : State) (d : DieId) (comm seq : Nat) : Bool :=
  seq < (s.die d).collCount comm && !s.colls.any fun k => k.die == d && k.comm == comm && k.seq == seq && k.ranks != 0

/-- This rank's message, for a die. -/
def Coll.message (k : Coll) (d : DieId) (failed : Option Trap) (data : List DWord) : CollMsg :=
  ⟨d, k.comm, k.seq, k.myRank, (k.op, k.type, k.count), failed, data⟩

/-- Send a node, a result or a failure to a rank, along the route to it. -/
def State.sendColl (k : Coll) (failed : Option Trap) (data : List DWord) (s : State) (r : Nat) : State :=
  let o := otherDie k.die
  match routeKind (k.routeTo r) with
  | 0 => s
  | 1 =>
    if s.linksDown.contains .cdCd || s.collOver o k.comm k.seq then s
    else { s with collMsgs := s.collMsgs ++ [k.message o failed data] }
  | _ =>
    let bytes := leBytes 4 k.comm ++ leBytes 8 k.seq ++ leBytes 4 k.myRank ++ leBytes 1 k.op ++ leBytes 1 k.type ++
      leBytes 8 k.count ++ data.flatMap fun e => leBytes (collBytes k.type) e.toNat
    { s with outs := s.outs ++ [.contribution k.die (k.routeTo r) bytes] }

/-- The collective fails at this rank, and with it at every rank that still waits for this one (R265, R359, log 43). A failure of any part
of SRC or DST leaves the whole of DST unwritten, at every rank (log 43). -/
def State.failColl (s : State) (k : Coll) (t : Trap) : State :=
  (k.owes.foldl (State.sendColl k (some t) []) s).modColl k.id fun k =>
    { k with wait := .none, stage := 2, sent := 2, failed := some (k.failed.getD t) }

/-- Send the result down the tree. -/
def State.sendDown (s : State) (k : Coll) (data : List DWord) : State :=
  (k.children.foldl (State.sendColl k none data) s).modColl k.id fun k => { k with sent := 2 }

/-- The collective is complete at this rank: EVENT has been raised, or could not be (R265, R396). -/
def State.endColl (s : State) (k : Coll) (fail : Option Trap) : State :=
  let f := match k.failed with | some t => some t | none => fail
  let s := s.endCmd k.group k.cmd f
  { s with
    colls := s.colls.filter (·.id != k.id)
    collMsgs := s.collMsgs.filter fun m => !(m.die == k.die && m.comm == k.comm && m.seq == k.seq && k.ranks != 0) }

/-- The commands of the other ranks of the collective's match, on this package. -/
def State.matchCmds (s : State) (k : Coll) : List Nat :=
  (s.colls.filter fun x => x.comm == k.comm && x.seq == k.seq && x.ranks != 0 && x.id != k.id).map (·.cmd)

/-- The collective has accesses to SC pages left, and so has what its group issued before it (R282). -/
def Cx.collHeld (c : Cx) (k : Coll) : Bool := c.g.cmds.any fun x => x.id == k.cmd && c.scLeft x && c.scBefore x

/-- Stage 0: read SRC. -/
def Cx.collSend (c : Cx) (k : Coll) (priv : Bool) : Res :=
  let s := c.s
  let n := k.count * collBytes k.type
  match k.failed with
  | some t => .next (s.failColl k t)
  | none =>
    if k.scalesOut && !Config.saEstablished s.tick (dieNum k.die) k.sa then
      .next (s.failColl k .protection)
    else
      match s.engSpan (c.collAsker priv k.wait) k.src false n with
      | (.inr m, s) =>
        let v := (k.src.extractLsb' 0 57).toNat
        if s.spanBusy k.cmd m v n (s.matchCmds k) then .next s
        else if (List.range n).any fun i => (spanPa m (v + i)).any fun pa => s.poisoned pa 1 then .next (s.failColl k .poison)
        else
          let own := k.message k.die none (splitElems (collBytes k.type) k.count (s.readSpan m v n))
          .next ({ s with collMsgs := s.collMsgs ++ [own] }.modColl k.id fun k => { k with wait := .none, stage := 1 })
      | (.inl .wait, s) => .next (s.modColl k.id fun k => { k with wait := .waits })
      | (.inl (.fail t), s) => .next (s.failColl k t)
      | (.inl (.ok ..), s) => .next s

/-- The first failure among the messages that have come from the ranks: one that is told, or an OP, TYPE or COUNT that differs
(R265). -/
def State.collBad (s : State) (k : Coll) (ranks : List Nat) : Option Trap :=
  ranks.findSome? fun r => (s.collFrom k r).bind fun m =>
    match m.failed with
    | some t => some t
    | none => if m.shape != (k.op, k.type, k.count) then some .illegalOperand else none

/-- The elements that a rank has sent. -/
def State.collData (s : State) (k : Coll) (r : Nat) : List DWord := ((s.collFrom k r).map (·.data)).getD []

/-- The node at this rank. -/
def State.collNode (s : State) (k : Coll) : List DWord :=
  (List.range k.count).map fun e => dw (k.nodeElem (s.collData k k.myRank) (k.children.map (s.collData k)) e)

/-- Element e of the result as it is stored: undefined where software has changed the routes meanwhile (R8, R356). -/
def State.collElem (s : State) (k : Coll) (data : List DWord) (e : Nat) : Nat :=
  if s.routesChanged k then (pair64 (Config.freeWord s.tick (2 * e)) (Config.freeWord s.tick (2 * e + 1))).toNat
  else collResult k.op (data.getD e 0).toNat

/-- Write the result to DST, after what commands that issued before it are still to write there (R276, R283). -/
def Cx.collStore (c : Cx) (k : Coll) (priv : Bool) : Res :=
  let s := c.s
  let data := match k.parent with | none => s.collNode k | some r => s.collData k r
  match s.engSpan (c.collAsker priv k.wait) k.dst true (k.count * collBytes k.type) with
  | (.inr m, s) =>
    let v := (k.dst.extractLsb' 0 57).toNat
    if s.spanBusy k.cmd m v (k.count * collBytes k.type) (s.matchCmds k) then .next s
    else
      let bytes := (List.range k.count).flatMap fun e => leBytes (collBytes k.type) (s.collElem k data e)
      .next ((s.writeSpan m v bytes).modColl k.id fun k => { k with wait := .none, stage := 2 })
  | (.inl .wait, s) => .next (s.modColl k.id fun k => { k with wait := .waits })
  | (.inl (.fail t), s) => .next (s.failColl k t)
  | (.inl (.ok ..), s) => .next s

/-- Stage 1: the rank combines its node, sends it to its parent, takes the result from there, sends it to its children and writes
DST; rank 0 has the result itself (R357). -/
def Cx.collCombineStep (c : Cx) (k : Coll) (priv : Bool) : Res :=
  let s := c.s
  match k.failed with
  | some t => .next (s.failColl k t)
  | none =>
    if s.collCrosses k && s.linksDown.contains .cdCd then .next (s.failColl k .peerUnavailable)
    else
      match s.collBad k k.awaits with
      | some t => .next (s.failColl k t)
      | none =>
        if !k.awaits.all fun r => (s.collFrom k r).isSome then .next s
        else
          match k.sent, k.parent with
          | 0, some r => .next ((State.sendColl k none (s.collNode k) s r).modColl k.id fun k => { k with sent := 1 })
          | 0, none => .next (s.sendDown k (s.collNode k))
          | 1, some r => .next (s.sendDown k (s.collData k r))
          | _, _ => c.collStore k priv

/-- Stage 2: raise EVENT. -/
def Cx.collFinish (c : Cx) (k : Coll) (priv : Bool) : Res :=
  let s := c.s
  if k.event = 0 then .next (s.endColl k none)
  else
    match s.addEvent (c.collAsker priv k.wait) k.event 1 with
    | (.done, s) => .next (s.endColl k none)
    | (.fail t, s) => .next (s.endColl k (some t))
    | (.wait, s) => .next (s.modColl k.id fun k => { k with wait := .waits })
    | (.later, s) => .next s

def execCollectiveExecute (coll : Nat) (s : State) : Res :=
  match s.colls.find? fun k => k.id == coll with
  | none => .next s
  | some k =>
    match s.cxMember k.group with
    | none => .next s
    | some c =>
      let priv := ((c.g.cmds.find? fun x => x.id == k.cmd).map (·.priv)).getD c.l.priv
      if k.wait == .waits || c.collHeld k then .next s
      else
        match k.stage with
        | 0 => reapAfter (c.collSend k priv) c.t.id
        | 1 => reapAfter (c.collCombineStep k priv) c.t.id
        | _ => reapAfter (c.collFinish k priv) c.t.id

/-- COLLECTIVE_MESSAGE_RECEIVE: the node or the result of a rank outside the package: OP, TYPE, COUNT, and the elements. The first
that a rank sends for a collective counts. -/
def execCollectiveMessageReceive (d : DieId) (comm seq rank : Nat) (data : List DWord) (s : State) : Res :=
  let at' (i : Nat) : Nat := (data.getD i 0).toNat
  let m : CollMsg := ⟨d, comm, seq, rank, (at' 0, at' 1, at' 2), none, data.drop 3⟩
  if s.collMsgs.any fun x => x.die == d && x.comm == comm && x.seq == seq && x.rank == rank then .next s
  else .next { s with collMsgs := s.collMsgs ++ [m] }

/-- COLLECTIVE_RANK_TIMEOUT: a rank that this one waits for has not answered, and the collective fails here (R359). -/
def execCollectiveRankTimeout (coll : Nat) (s : State) : Res :=
  match s.colls.find? fun k => k.id == coll with
  | none => .next s
  | some k =>
    if k.stage = 1 && k.failed.isNone && !k.awaits.all fun r => (s.collFrom k r).isSome then
      .next (s.modColl coll fun k => { k with failed := some .peerUnavailable })
    else .next s

end Sys2Proof.Machine
end

