-- ==== Sys2Proof/Machine/Fetch.lean ====
section
/-! DEFINITION. The instruction-fetch path (spec/03 R74, R75, R397; spec/07 R232): translation for a fetch, the copies of lines
that a die's fetch path keeps until `cache.op.ifetch` (log 12), and the check of a transfer target. -/

namespace Sys2Proof.Machine

/-- Bytes of a line as the fetch path of a die sees them. -/
def State.fetchLine (s : State) (d : DieId) (line : Nat) : List Byte :=
  match (s.die d).ifetch.find? fun x => x.1 == line with
  | some x => x.2
  | none => s.readPa (128 * line) 128

/-- The word at a physical address as the fetch path sees it. -/
def State.fetchWord (s : State) (d : DieId) (pa : Nat) : Word :=
  le32 ((s.fetchLine d (lineOf pa)).drop (pa % 128 / 4 * 4))

/-- Keep a line in the fetch path. -/
def State.keepLine (s : State) (d : DieId) (line : Nat) : State :=
  let bs := s.fetchLine d line
  s.modDie d fun x => if x.ifetch.any (·.1 == line) then x else { x with ifetch := x.ifetch ++ [(line, bs)] }

/-- A header word (R71). -/
def isHeader (w : Word) : Bool := fld w 28 4 == 0xE

/-- What a fetch of one word meets. -/
inductive Fetched where
  | word (w : Word) (pa : Nat)
  | poison (pa : Nat)
  | prot
  | park (t : Tr)

/-- Fetch a word at a virtual address, with the privilege of the gang. -/
def Cx.fetchAt (c : Cx) (va : DWord) (s : State) : Fetched × State :=
  match s.translate c.die (some c.t.core) va ⟨false, true, c.priv⟩ c.gg.afresh with
  | (.ok pa _, s) => if s.poisoned pa 4 then (.poison pa, s) else (.word (s.fetchWord c.die pa) pa, s)
  | (.prot, s) => (.prot, s)
  | (t, s) => (.park t, s)

/-- Fetch n words from `va` on with their physical addresses; the first that cannot be fetched decides. -/
def Cx.fetchWords (c : Cx) : Nat → DWord → State → ((Fetched × DWord) ⊕ List (Word × Nat)) × State
  | 0, _, s => (.inr [], s)
  | n + 1, va, s =>
    match c.fetchAt va s with
    | (.word w pa, s) =>
      match c.fetchWords n (va + 4) s with
      | (.inr ws, s) => (.inr ((w, pa) :: ws), s)
      | r => r
    | (f, s) => (.inl (f, va), s)

/-- The fault record of a fetch has SOURCE 1 (R397). -/
def Cx.offerFetch (c : Cx) (va : DWord) (t : Tr) (s : State) : State :=
  s.offerFault c.die (faultRec c.l.launchId c.t.core 1 va false t) c.gg.afresh

/-- Check the target of a transfer (R397), and go on where it holds a header. -/
def Cx.withTarget (c : Cx) (va : DWord) (k : Cx → Res) : Res :=
  match c.fetchAt va c.s with
  | (.word w _, s) =>
    if isHeader w then k { c with s := s } else { c with s := s }.trap { code := .clauseFormat, addr := va }
  | (.poison _, s) => { c with s := s }.trap { code := .poison, addr := va }
  | (.prot, s) => { c with s := s }.trap { code := .protection, addr := va }
  | (.park t, s) => { c with s := c.offerFetch va t s }.park (.fault false)

/-- Steps 1 and 2 of R139. -/
def addrCheck (va : DWord) : Except Tq Unit :=
  if !canonical va then .error { code := .protection, addr := va }
  else if va.toNat % 4 != 0 then .error { code := .misaligned, addr := va }
  else .ok ()

end Sys2Proof.Machine
end

