-- ==== Sys2Proof/Machine/Control.lean ====
section
/-! DEFINITION. The control-flow instructions, opcodes 0xC0 to 0xCD (spec/05 R136 to R151). -/

namespace Sys2Proof.Machine

/-! ## Branches (R136 to R140) -/

/-- Ranks 3 and 4 of a one-word instruction. -/
def Cx.wCheck (c : Cx) (ok : Bool) (regs : List Nat) : Except Tq Unit := do
  need (ok && c.gg.pfx.isEmpty) .illegalOperand
  need (c.sregsOk regs) .regRange

/-- NEXT of a branch (R91). -/
def Cx.next (c : Cx) : DWord := c.gg.pc + 4

/-- A transfer to `va`: the check of its target, then the group after `f` with the gang there. -/
def Cx.transfer (c : Cx) (va : DWord) (f : Group → Group) : Res :=
  c.withTarget va fun c => .next (c.s.modGroup c.g.ident.id fun g => (f g).goto c.gg va)

/-- A transfer that is not taken. -/
def Cx.fallThrough (c : Cx) : Res := .next (c.s.modGroup c.g.ident.id fun g => g.advance c.gg 1)

/-- NEXT + 4 × offset. -/
def Cx.target {n : Nat} (c : Cx) (off : BitVec n) : DWord := c.next + sx64 off * 4

/-- An instruction of one word under its checks. -/
def ctl (s : State) (ok : Bool) (regs : List Nat) (k : Cx → Res) : Res :=
  issue s fun c =>
    match c.wCheck ok regs with
    | .error q => c.trap q
    | .ok _ => k c

def execBr (off : BitVec 24) (s : State) : Res := ctl s true [] fun c => c.transfer (c.target off) id

def execBrc (sr : BitVec 6) (cond : BitVec 3) (off : BitVec 15) (s : State) : Res :=
  ctl s true [sr.toNat] fun c =>
    if brcCond cond.toNat (c.g.readS sr.toNat) then c.transfer (c.target off) id else c.fallThrough

def execBrm (rsv : BitVec 6) (cond : BitVec 3) (off : BitVec 15) (s : State) : Res :=
  ctl s (rsv == 0 && cond.toNat < 4) [] fun c =>
    if brmCond cond.toNat c.active (c.g.live &&& c.gg.mask) then c.transfer (c.target off) id else c.fallThrough

/-- A transfer to a register address (R139); the link register is written only where the transfer is made. -/
def Cx.jump (c : Cx) (t : Nat) (link : Option Nat) : Res :=
  let va := c.g.readS t
  match addrCheck va with
  | .error q => c.trap q
  | .ok _ => c.transfer va fun g => match link with | some lr => g.writeS c.gg lr c.next | none => g

def execJmp (t lr : BitVec 6) (link : BitVec 1) (rsv : BitVec 11) (s : State) : Res :=
  ctl s (rsv == 0 && (link == 1 || lr == 0)) (t.toNat :: (if link = 1 then [lr.toNat] else [])) fun c =>
    c.jump t.toNat (if link = 1 then some lr.toNat else none)

def execCall (lr : BitVec 6) (off : BitVec 18) (s : State) : Res :=
  ctl s true [lr.toNat] fun c => c.transfer (c.target off) fun g => g.writeS c.gg lr.toNat c.next

def execRet (t : BitVec 6) (rsv : BitVec 18) (s : State) : Res :=
  ctl s (rsv == 0) [t.toNat] fun c => c.jump t.toNat none

/-! ## Parting and the hinge -/

/-- Whether a slice goes (R141). -/
def Cx.partGoes (c : Cx) (m : DWord) (all : Bool) (j : Nat) : Bool :=
  let act := (lanesOfSlice j).filter fun l => c.active.getLsbD l
  !act.isEmpty && (if all then act.all m.getLsbD else act.any m.getLsbD)

/-- Every slice of the gang pushes its record (R141). -/
def Group.pushRecs (g : Group) (gg : Gang) (h : DWord) : Group :=
  gg.slices.foldl (fun g j =>
    { g with parts := modAt g.parts j fun ps => ⟨h, gg.fmt, BitVec.ofNat 4 (nbits g.emRead.toNat (4 * j) 4)⟩ :: ps }) g

/-- The gang divided: some slices at the target, the others at NEXT. The new records may complete the set of slices that wait at
another hinge (R142). -/
def Cx.divide (c : Cx) (h va : DWord) (go : List Nat) : Res :=
  let gid := c.g.ident.id
  let stay := c.gg.slices.filter fun j => !go.contains j
  if stay.isEmpty then .next ((c.s.modGroup gid fun g => (g.pushRecs c.gg h).goto c.gg va).settleHinges gid)
  else if go.isEmpty then .next ((c.s.modGroup gid fun g => (g.pushRecs c.gg h).advance c.gg 1).settleHinges gid)
  else
    let (k, s) := c.s.fresh
    .next ((s.modGroup gid fun g =>
      let g := (g.pushRecs c.gg h).closeLatches c.gg
      let g := g.modGang c.gg.id fun x => { x.advance 1 with slices := stay, poison := c.gg.poisonOf stay }
      { g with gangs := g.gangs ++
          [{ c.gg.goto va with id := k, slices := go, split := none, age := 0, bypassed := 0, poison := c.gg.poisonOf go }] }).settleHinges
            gid)

def execPart (m h : BitVec 6) (all : BitVec 1) (toff : BitVec 11) (s : State) : Res :=
  ctl s true [m.toNat, h.toNat] fun c =>
    let hv := c.g.readS h.toNat
    let va := c.target toff
    let go := c.gg.slices.filter (c.partGoes (c.g.readS m.toNat) (all == 1))
    if c.gg.slices.any fun j => c.g.depth j ≥ 8 then c.trap { code := .partDepth }
    else
      match addrCheck hv with
      | .error q => c.trap q
      | .ok _ =>
        let sent (c : Cx) : Res :=
          if go.isEmpty then c.divide hv va go else c.withTarget va fun c => c.divide hv va go
        if go.length == c.gg.slices.length then sent c else c.withTarget c.next sent

/-- R142: slices whose top record names this clause wait; for the others it is a fence. -/
def execRegang (rsv : BitVec 24) (s : State) : Res :=
  ctl s (rsv == 0) [] fun c =>
    let gid := c.g.ident.id
    let here := c.gg.slices.filter fun j => (c.g.topRec j).any fun r => r.hinge == c.gg.hdrAddr
    if here.isEmpty then c.fallThrough
    else if here == c.gg.slices then
      .next (c.keepSlot ((s.modGroup gid fun g => g.parkGang c.gg .hinge).settleHinges gid))
    else
      -- the slices that do not wait go on as a gang of their own (log 19)
      let (k, s) := s.fresh
      let rest := c.gg.slices.filter fun j => !here.contains j
      let s := s.modGroup gid fun g =>
        let g := g.advance c.gg 1
        let g := g.modGang c.gg.id fun x => { x with slices := rest, poison := c.gg.poisonOf rest }
        { g with gangs := g.gangs ++
            [{ c.gg with id := k, slices := here, park := some .hinge, age := 0, bypassed := 0, poison := c.gg.poisonOf here }] }
      .next (s.settleHinges gid)

/-! ## Barriers (R145 to R147) -/

/-- Count an arrival of the gang. -/
def countArr (as : List BarArr) (gid roles : Nat) (arrive : Bool) (slices : List Nat) : List BarArr :=
  if as.any fun a => a.group == gid then
    as.map fun a => if a.group = gid then { a with slices := a.slices ++ slices } else a
  else as ++ [⟨gid, roles, arrive, slices, false⟩]

/-- After its arrival the gang waits, or goes on where the barrier is arrive-only (R146); a barrier is forbidden in a
transaction (R217). -/
def Cx.arrived (c : Cx) (arrive : Bool) (p : Park) (s : State) : State :=
  s.modGroup c.g.ident.id fun g =>
    let g := g.forbid c.gg
    if arrive then g.advance c.gg 1 else g.parkGang c.gg p

/-- `bar` (R145, R146). A gang whose slices have all been counted waits for the phase to complete; slices of a merged gang that have
not been counted are, with the ROLES and ARRIVE of those that have (log 49). -/
def execBar (num : BitVec 4) (roles : BitVec 3) (arrive : BitVec 1) (rsv : BitVec 16) (s : State) : Res :=
  ctl s (rsv == 0) [] fun c =>
    let gid := c.g.ident.id
    let n := num.toNat
    let r := roles.toNat
    let phase := (c.t.bars.find? fun p => p.num == n).getD ⟨n, none, []⟩
    let mine := phase.arrs.find? fun a => a.group == gid
    let new := c.gg.slices.filter fun j => !mine.any (·.slices.contains j)
    if !inRoles r c.g.ident.role then c.trap { code := .illegalOperand }
    else if mine.any (·.done) then c.park (.wait (.barNext n))
    -- ROLES of the phase's first arrival, and ROLES and ARRIVE of the group's gangs already counted
    else if phase.roles.any (· != r) || mine.any fun a => a.roles != r || a.arrive != (arrive == 1) then
      c.trap { code := .illegalOperand }
    else if new.isEmpty then c.park (.wait (.barNext n))
    else if !c.g.keyIdle || c.g.tx.close.isSome then c.park (.wait .keyed)
    else if c.releaseHeld then c.park (.wait c.releaseWait)
    else
      let phase := { phase with arrs := countArr phase.arrs gid r (arrive == 1) new }
      let s := s.modTeam c.t.id fun t => { t with bars := (t.bars.filter fun p => p.num != n) ++ [phase] }
      .next (c.keepSlot ((c.arrived (arrive == 1) (.bar n) s).settleBars c.t.id))

/-- `wbar` (R147), with the gangs of a team counted as those of a group are by `bar` (log 49). -/
def execWbar (num : BitVec 6) (arrive : BitVec 1) (rsv : BitVec 17) (s : State) : Res :=
  ctl s (rsv == 0) [] fun c =>
    let n := num.toNat
    let w := s.wbar n
    let core := (s.die c.die).physCore c.t.core
    let mine := w.arrs.filter fun a => a.1 == c.t.id
    let arrived := w.here c.t.id
    let new := c.gg.slices.filter fun j => !mine.any fun a => a.2.group == c.g.ident.id && a.2.slices.contains j
    if !arrived && mine.any fun a => a.2.arrive != (arrive == 1) then c.trap { code := .illegalOperand }
    else if !((s.die c.die).ctl.wbarMember.getD core 0).getLsbD n || !s.bound n c.die c.l then c.trap { code := .protection }
    else if arrived || new.isEmpty then c.park (.wait (.wbarNext n))
    else if !c.g.keyIdle || c.g.tx.close.isSome then c.park (.wait .keyed)
    else if c.releaseHeld then c.park (.wait c.releaseWait)
    else if c.linkHolds true 4 then c.parkLink 0 false
    else
      let arrs := (w.arrs.filter fun a => a.1 != c.t.id) ++
        (countArr (mine.map (·.2)) c.g.ident.id 0 (arrive == 1) new).map fun a => (c.t.id, a)
      let s := s.modWbar n fun w => { w with arrs := arrs }
      .next ((c.arrived (arrive == 1) (.wbar n) s).settleWbar n c.t.id)

/-- WBAR_RELEASE: the release line wakes the waiters of a phase that has completed, on both dies and of saved teams that had arrived
(R353, R355). -/
def execWbarRelease (n : Nat) (s : State) : Res :=
  let s := s.latchWbar n
  let ts := (s.wbar n).released
  if ts.isEmpty then .next s
  else
    let on (g : Group) : Group := if ts.contains g.ident.team then g.freeParked (.wbar n) else g
    let s : State :=
      { s with
        groups := s.groups.map on
        saved := s.saved.map fun v => { v with groups := v.groups.map on } }
    .next (s.modWbar n fun w => { w with released := [] })

/-! ## Yield, exit and software traps (R149 to R151) -/

/-- Restart the readiness age of every gang of the group (R309). -/
def Group.restartAges (g : Group) : Group := { g with gangs := g.gangs.map fun x => { x with age := 0 } }

def execYield (rsv : BitVec 24) (s : State) : Res :=
  ctl s (rsv == 0) [] fun c => .next (s.modGroup c.g.ident.id fun g => g.restartAges.advance c.gg 1)

/-- A lane exits; its open transaction is an abort with cause FORBIDDEN (R150). -/
def Group.exitLane (g : Group) (l : Nat) : Group :=
  let inTx := (g.lane l).tx.inTx
  let g := if inTx then
      let g := g.modTx l fun t => t.close false t.locked .forbidden 0
      { g with tx := g.tx.note .forbidden }
    else g
  g.modLane l fun x => { x with exited := true }

/-- Slices all of whose lanes have exited stop: they leave their gang, their records go, and handler mode ends with the last
handler slice (R150, R342). -/
def Group.dropDead (g : Group) (gg : Gang) : Group :=
  let dead := gg.slices.filter fun j => !g.sliceLive j
  let g := dead.foldl (fun g j => { g with parts := setAt g.parts j [] }) g
  let gangs := (g.gangs.map fun x =>
    if x.id = gg.id then { x with slices := x.slices.filter fun j => !dead.contains j } else x).filter
      fun x => !x.slices.isEmpty
  let h := match g.handler with
    | some h => if h.slices.all fun j => !g.sliceLive j then none
                else some { h with slices := h.slices.filter g.sliceLive }
    | none => none
  { g with gangs := gangs, handler := h }

def execExit (rsv : BitVec 24) (s : State) : Res :=
  ctl s (rsv == 0) [] fun c =>
    let gid := c.g.ident.id
    if !c.g.keyIdle || c.g.tx.close.isSome then c.park (.wait .exitReturn)
    else if c.lanes.isEmpty then c.fallThrough
    else
      let s := s.modGroup gid fun g =>
        let g := g.advance c.gg 1
        let g := c.lanes.foldl Group.exitLane g
        (g.dropDead c.gg).recordPass
      .next (s.settleExit gid c.t.id c.die)

def execTrap (code : BitVec 8) (rsv : BitVec 16) (s : State) : Res :=
  ctl s (rsv == 0) [] fun c => c.trapAfter { code := .software, lanes := c.g.live &&& c.gg.mask, sw := code }

def execBrk (code : BitVec 8) (rsv : BitVec 16) (s : State) : Res :=
  ctl s (rsv == 0) [] fun c => c.trapAfter { code := .breakpoint, lanes := c.g.live &&& c.gg.mask, sw := code }

end Sys2Proof.Machine
end

