-- ==== Sys2Proof/Machine/Front.lean ====
section
/-! DEFINITION. The launch front-end: lists, records, kernel headers, checks, conditions and completion words, and the events
LIST_WATCH_WAKE, RECORD_TAKE, CONDITION_TEST, CONDITION_POLL and LAUNCH_COMPLETE (spec/10 R292 to R304). -/

namespace Sys2Proof.Machine

/-! ## The front-end's accesses (R295, R296) -/

inductive FrTr where
  | ok (pa : Nat) | missing | denied

/-- Translate for the front-end with the privilege of the list; n bytes are read or written there. A missing translation
makes a record with SOURCE 4 and LCORE 0xFF; what a replay makes again walks afresh (R334). -/
def State.frTr (s : State) (d : DieId) (launchId : Word) (priv write : Bool) (va : DWord) (n : Nat) (redo : Redo := .none) :
    FrTr × State :=
  match s.translate d none va ⟨write, false, priv⟩ (redo == .again) with
  | (.ok pa _, s) => (if s.poisoned pa n then .denied else .ok pa, s)
  | (.prot, s) => (.denied, s)
  | (t, s) => (.missing, s.offerFault d (faultRec launchId 0xFF 4 va write t) (redo == .again))

/-- A byte of a taken record that waits to be written, the last of its field alone (log 48). -/
def State.owe (s : State) (l : Launch) (off : Nat) (b : Byte) : State :=
  s.modLaunch l.id fun x => { x with owed := x.owed.filter (fun e => e.1 != off) ++ [(off, b)], owedWait := .waits }

/-- Write a byte of a taken record (log 30). One whose home cannot be reached waits for a replay, with a record of CODE 0x0D (R351,
log 48), and so do the bytes after it. -/
def State.recByte (s : State) (l : Launch) (off : Nat) (b : Byte) : State :=
  let pa := l.recPa + off
  if !s.reachable l.die pa then
    (s.offerFault l.die (faultRec l.launchId 0xFF 4 l.record true (.down 0)) (l.owedWait == .again)).owe l off b
  else if (s.launch? l.id).any fun x => !x.owed.isEmpty then s.owe l off b
  else if s.poisoned pa 1 then s
  else s.writePa pa [b]

/-- The bytes of a record that waited for a replay are written now (R334). -/
def State.writeOwed (s : State) (l : Launch) : State :=
  l.owed.foldl (fun s e => s.recByte l e.1 e.2) (s.modLaunch l.id fun x => { x with owed := [], owedWait := .none })

/-- A field of a record, an extension or a header. -/
def recNat (b : List Byte) (i n : Nat) : Nat := leNat ((b.drop i).take n)

/-! ## Quadrants (R25, R306, R308) -/

/-- Use of a quadrant: groups, bytes of the vector register file, bytes of the glove file. -/
structure QuadUse where
  groups : Nat
  regs : Nat
  gloves : Nat
  deriving DecidableEq, Repr

def QuadUse.add (a b : QuadUse) : QuadUse := ⟨a.groups + b.groups, a.regs + b.regs, a.gloves + b.gloves⟩
def QuadUse.times (n : Nat) (a : QuadUse) : QuadUse := ⟨n * a.groups, n * a.regs, n * a.gloves⟩
def QuadUse.fits (a : QuadUse) : Bool := a.groups ≤ 32 && a.regs ≤ 262144 && a.gloves ≤ 131072

/-- What a group takes (R25). -/
def groupUse (width nr dwN k : Nat) : QuadUse := ⟨1, ceilTo 8 nr * width * 4, ceilTo 8 dwN * (1 + k) * width * 4⟩

/-- Index, role, quadrant, NR and DW of every group of a team (R14, R22, R308). -/
def KHdr.layout (h : KHdr) : List (Nat × Role × Nat × Nat × Nat) :=
  let nv := h.counts.getD 0 0
  let nc := h.counts.getD 1 0
  let nm := h.counts.getD 2 0
  let one (i : Nat) : Nat × Role × Nat × Nat × Nat :=
    let r : Role := if i < nv then .vector else if i < nv + nc then .copy else .matrix
    let nr := h.vregs.getD (roleCode r) 0
    (i, r, (if i < nv + nc then i else i - nv - nc) % 4, nr, min h.dwin nr)
  (List.range (nv + nc + nm)).map one

/-- What one team takes of quadrant q. -/
def KHdr.use (h : KHdr) (q : Nat) : QuadUse :=
  (h.layout.filter fun x => x.2.2.1 == q).foldl (fun a x => a.add (groupUse h.width x.2.2.2.1 x.2.2.2.2 h.kcnt)) ⟨0, 0, 0⟩

/-- n teams fit beside what a core holds (R306). -/
def KHdr.fitsWith (h : KHdr) (n teams spad : Nat) (use : Nat → QuadUse) : Bool :=
  teams + n ≤ 16 && spad + n * h.spad ≤ 524288 && (List.range 4).all fun q => ((use q).add (.times n (h.use q))).fits

/-- Cores of a cluster: logical indices of its cores in use (R307). -/
def Die.clusterCores (d : Die) (c : Nat) : List Nat :=
  let us := d.coresInUse
  let p := d.clusters.getD c 0xFF
  (List.range us.length).filter fun j => us.getD j 0 / 4 == p

/-- Cores of the members of a set on a cluster (R307). -/
def dealSet (cores ps : List Nat) : List Nat := ps.map fun p => cores.getD (p % cores.length) 0

/-- Every core of the deal holds its members. -/
def KHdr.dealFits (h : KHdr) (deal : List Nat) (teams spad : Nat → Nat) (use : Nat → Nat → QuadUse) : Bool :=
  deal.all fun c => h.fitsWith (deal.count c) (teams c) (spad c) (use c)

/-- An empty core, or cluster, of the die holds one team, or the largest set (check 0x0A). -/
def Die.canHold (d : Die) (h : KHdr) (size : Nat) : Bool :=
  if h.cluster then
    (List.range d.clusters.length).any fun c =>
      h.dealFits (dealSet (d.clusterCores c) (List.range (min 4 size))) (fun _ => 0) (fun _ => 0) fun _ _ => ⟨0, 0, 0⟩
  else h.fitsWith 1 0 0 fun _ => ⟨0, 0, 0⟩

/-! ## The checks of Table 10.4 -/

/-- Check 0x01, the dual extension apart. -/
def recordOk (b : List Byte) : Bool :=
  let n := recNat b 32 4 * recNat b 36 2 * recNat b 38 2
  recNat b 44 2 / 1024 == 0 && recNat b 8 8 % 64 == 0 &&
  ([48, 56, 64, 80, 96, 112].all fun i => recNat b i 8 % 8 == 0) && 1 ≤ n && n < 2 ^ 32

def recIdl (b : List Byte) : Bool := (recNat b 44 2).testBit 0
def recDkl (b : List Byte) : Nat := nbits (recNat b 44 2) 1 2
def recDl (b : List Byte) : Nat := nbits (recNat b 44 2) 3 7

/-- The kernel header as it stands (Table 10.5). -/
def parseHdr (h : List Byte) : KHdr where
  width := recNat h 4 1
  counts := [recNat h 5 1, recNat h 6 1, recNat h 7 1]
  vregs := [recNat h 8 1, recNat h 9 1, recNat h 10 1]
  sregs := recNat h 11 1
  dwin := recNat h 12 1
  kcnt := recNat h 13 1
  det := (recNat h 14 2).testBit 0
  cluster := (recNat h 14 2).testBit 1
  fmt := wd (recNat h 16 4)
  spad := recNat h 20 4
  lpm := recNat h 24 4
  preload := BitVec.ofNat 16 (recNat h 28 2)
  hint := recNat h 32 4

/-- IDL, DKL and DL of an implicit-dual launch applied (R114, R41). -/
def KHdr.raised (k : KHdr) (b : List Byte) : KHdr :=
  if recIdl b then
    { k with
      kcnt := max k.kcnt (dkCount (recDkl b)), dwin := max k.dwin (recDl b)
      fmt := (k.fmt &&& 0xFFF8FFFF) ||| 0x00040000 ||| wd (recDkl b * 65536) }
  else k

/-- Preloads lie within the counts (R304). -/
def preloadsOk (k : KHdr) : Bool :=
  let role (i : Nat) : Bool :=
    k.counts.getD i 0 == 0 ||
      ((!k.preload.getLsbD 0 || 1 ≤ k.vregs.getD i 0) && (!k.preload.getLsbD 1 || 2 ≤ k.vregs.getD i 0))
  (List.range 3).all role && (List.range 8).all fun n => !k.preload.getLsbD (n + 2) || n + 1 ≤ k.sregs

/-- Checks 0x03 to 0x0A in order. -/
def headerReason (d : Die) (b h : List Byte) : Option Nat :=
  let k := parseHdr h
  let r := k.raised b
  let groups := k.counts.sum
  if recNat h 0 2 ≠ 0x4C59 ∨ recNat h 2 2 ≠ 1 ∨ recNat h 14 2 / 16 ≠ 0 ∨ recNat h 28 2 / 1024 ≠ 0 ∨ recNat h 30 2 ≠ 0 ∨
      (h.drop 36).any (· != 0) then some 0x03
  else if !([8, 16, 32].contains k.width) ∨ groups = 0 ∨ 64 < groups then some 0x04
  else if (k.vregs.any fun n => 120 < n) ∨ 63 < k.sregs ∨ 120 < k.dwin ∨ !([0, 1, 2, 4].contains k.kcnt) then some 0x05
  else if !preloadsOk k then some 0x06
  else if (fmtCheck r.kcnt k.fmt).isSome then some 0x07
  else if (recIdl b && ((recNat h 14 2).testBit 2 || fmtDm k.fmt == 2 || recDkl b == 0)) ∨ 120 < recDl b ∨
      (!recIdl b && (recDkl b != 0 || recDl b != 0)) then some 0x08
  else if k.spad % 256 ≠ 0 ∨ 524288 < k.spad ∨ k.lpm % 16 ≠ 0 ∨ 65536 < k.lpm then some 0x09
  else if !d.canHold r (recNat b 32 4 * recNat b 36 2 * recNat b 38 2) then some 0x0A
  else none

/-! ## Completion words (R295, R299, R301) -/

/-- Raise the completion words that are left: those still left, whether one waits for a replay, and whether one is skipped. A word
at an address that is no multiple of 8 is not raised (log 31). -/
def raiseWords (l : Launch) : List DWord → List DWord × Bool × Bool × State → List DWord × Bool × Bool × State
  | [], acc => acc
  | w :: ws, (left, wait, skipped, s) =>
    if w = 0 ∨ w.toNat % 8 ≠ 0 then raiseWords l ws (left, wait, skipped, s)
    else
      match s.frTr l.die l.launchId l.priv true w 8 l.doneWait with
      | (.ok pa, s) =>
        if s.engineLines.contains (lineOf pa) then raiseWords l ws (left ++ [w], wait, skipped, s)
        else raiseWords l ws (left, wait, skipped, s.addWord pa 1)
      | (.missing, s) => raiseWords l ws (left ++ [w], true, skipped, s)
      | (.denied, s) => raiseWords l ws (left, wait, true, s)

/-- A launch leaves; a request that names a team of a completed one finds it ended (R319). -/
def State.forgetLaunch (s : State) (l : Launch) : State :=
  let past : List PastLaunch := s.past.filter fun p => !(p.die == l.die && p.launchId == l.launchId)
  { s with
    launches := s.launches.filter fun x => x.id != l.id
    past := if l.running then past ++ [⟨l.die, l.launchId, l.size⟩] else s.past }

/-- Raise what is left of a finished launch, and forget it once nothing is left. A completed record whose word is skipped
gets REASON 0x0C. -/
def State.raiseDone (s : State) (lid : Nat) : Res :=
  match s.launch? lid with
  | none => .next s
  | some l =>
    -- STATUS is written before the words are raised (R301)
    let (left, wait, skipped, s) := if l.owed.isEmpty then raiseWords l l.undone ([], false, false, s)
      else (l.undone, l.doneWait == .waits, false, s)
    let s := if skipped && l.running then s.recByte l 47 0x0C else s
    if left.isEmpty && (s.launch? lid).all (·.owed.isEmpty) then .next (s.forgetLaunch l)
    else .next (s.modLaunch lid fun x => { x with undone := left, doneWait := if wait then .waits else .none })

/-- Reject a record (R299): REASON, STATUS, and the completion words. -/
def State.reject (s : State) (lid reason : Nat) : Res :=
  match s.launch? lid with
  | none => .next s
  | some l =>
    let s := (s.recByte l 47 (BitVec.ofNat 8 reason)).recByte l 46 0x15
    (s.modLaunch lid fun x => { x with finished := true, todo := [], ready := none }).raiseDone lid

/-! ## Conditions (R300) -/

/-- Test the conditions not yet met; a state alone where one cannot be read. -/
def testConds (l : Launch) : List Cond → List Cond × State → (List Cond × State) ⊕ State
  | [], acc => .inl acc
  | c :: cs, (done, s) =>
    if c.met || c.wait == .waits then testConds l cs (done ++ [c], s)
    else
      match s.frTr l.die l.launchId l.priv false c.addr 8 c.wait with
      | (.ok pa, s) => testConds l cs (done ++ [{ c with met := c.val.toNat ≤ (Mem.dword s.mem pa).toNat, wait := .none }], s)
      | (.missing, s) => testConds l cs (done ++ [{ c with wait := .waits }], s)
      | (.denied, s) => .inr s

/-- Test a launch; with every condition met it is ready (R300, R305). -/
def State.testLaunch (s : State) (lid : Nat) : Res :=
  match s.launch? lid with
  | none => .next s
  | some l =>
    if l.finished || l.ready.isSome then .next s
    else
      match testConds l l.conds ([], s) with
      | .inr s => s.reject lid 0x0B
      | .inl (cs, s) =>
        let ok := cs.all (·.met)
        let (n, s) := if ok then s.fresh else (0, s)
        .next (s.modLaunch lid fun x => { x with conds := cs, ready := if ok then some n else none })

/-- CONDITION_TEST: a line of a condition was written. -/
def execConditionTest (launch : Nat) (s : State) : Res := s.testLaunch launch

/-- CONDITION_POLL: the test that is made at least every 100 µs. -/
def execConditionPoll (launch : Nat) (s : State) : Res := s.testLaunch launch

/-! ## Taking records (R294, R295, R299) -/

/-- The die's lists are followed: its function is ready and runs measured firmware (R349, R370), and its cores are not held, so that
it may walk (R346). -/
def State.frontRuns (s : State) (d : DieId) : Bool :=
  (s.die d).isReady && !(s.die d).coresHeld && s.firmware == .measured && !s.shutdown

/-- Records of a die taken and not completed; one that waits for its conditions counts while its list is enabled (R301). -/
def State.outstanding (s : State) (d : DieId) : Nat :=
  (s.launches.filter fun l => l.die == d && !l.finished &&
    (l.ready.isSome || ((s.die d).ctl.anchors.getD l.list 0).getLsbD 0)).length

def Die.modList (d : Die) (n : Nat) (f : ListPos → ListPos) : Die := { d with lists := modAt d.lists n f }

/-- The anchor or a record line cannot be read, or a record line not written: EN falls and ERR rises (R295). -/
def Die.listError (d : Die) (n : Nat) : Die :=
  { d with
    ctl := { d.ctl with anchors := modAt d.ctl.anchors n fun a => (a &&& ~~~1) ||| 2 }
    lists := setAt d.lists n .reset }

def execListWatchWake (d : DieId) (n : Nat) (s : State) : Res :=
  .next (s.modDie d fun x => x.modList n fun p => { p with watching := false })

/-- What the reading of an extension or a header gives. -/
inductive FrRead where
  | bytes (bs : List Byte) | missing | denied

def State.frRead (s : State) (d : DieId) (launchId : Word) (priv : Bool) (va : DWord) (n : Nat) (redo : Redo) :
    FrRead × State :=
  match s.frTr d launchId priv false va n redo with
  | (.ok pa, s) => (.bytes (s.readPa pa n), s)
  | (.missing, s) => (.missing, s)
  | (.denied, s) => (.denied, s)

/-- The bytes of a record that software alone writes: those beside NEXT, STATUS and REASON (R293). -/
def recOwn (b : List Byte) : List Byte := (b.take 46).drop 8 ++ b.drop 48

/-- The launch of a record. -/
def newLaunch (id : Nat) (d : DieId) (n : Nat) (priv : Bool) (va : DWord) (pa : Nat) (b : List Byte) : Launch where
  id := id
  die := d
  list := n
  priv := priv
  record := va
  recPa := pa
  khdr := dw (recNat b 8 8)
  args := dw (recNat b 16 8)
  seedLo := wd (recNat b 24 4)
  seedHi := wd (recNat b 28 4)
  gx := recNat b 32 4
  gy := recNat b 36 2
  gz := recNat b 38 2
  launchId := wd (recNat b 40 4)
  conds := (([64, 80, 96, 112].map fun i => (dw (recNat b i 8), dw (recNat b (i + 8) 8))).filter fun c => c.1 != 0).map
    fun c => ⟨c.1, c.2, false, .none⟩
  spans := []
  hdr := parseHdr []
  ready := none
  running := false
  todo := []
  live := []
  waiting := false
  expired := false
  undone := [dw (recNat b 48 8), dw (recNat b 56 8)].filter (· != 0)
  doneWait := .none
  finished := false
  seen := recOwn b
  owed := []
  owedWait := .none

/-- The spans of a dual extension (R115). -/
def extSpans (e : List Byte) : List (DWord × DWord × DWord) :=
  ([0, 24, 48, 72].map fun i => (dw (recNat e i 8), dw (recNat e (i + 8) 8), dw (recNat e (i + 16) 8))).filter
    fun t => t.2.1 != 0

/-- Where the checks of a record lead. -/
inductive Checked where
  | pass (h : KHdr) (spans : List (DWord × DWord × DWord)) | reason (n : Nat) | stall

/-- The checks of Table 10.4 in order (R303). -/
def State.checkRecord (s : State) (d : DieId) (l : Launch) (b : List Byte) (redo : Redo) : Checked × State :=
  if !recordOk b then (.reason 0x01, s)
  else
    let header (spans : List (DWord × DWord × DWord)) (s : State) : Checked × State :=
      match s.frRead d l.launchId l.priv l.khdr 64 redo with
      | (.bytes h, s) =>
        match headerReason (s.die d) b h with
        | some n => (.reason n, s)
        | none => (.pass ((parseHdr h).raised b) spans, s)
      | (.missing, s) => (.stall, s)
      | (.denied, s) => (.reason 0x02, s)
    if recIdl b then
      match s.frRead d l.launchId l.priv (l.record + 128) 128 redo with
      | (.bytes e, s) => if (e.drop 96).any (· != 0) then (.reason 0x01, s) else header (extSpans e) s
      | (.missing, s) => (.stall, s)
      | (.denied, s) => (.reason 0x02, s)
    else header [] s

def State.stallList (s : State) (d : DieId) (n : Nat) : State := s.modDie d fun x => x.modList n fun p => { p with stalled := .waits }

/-- Take the record at `va` (R299). -/
def State.takeRecord (s : State) (d : DieId) (n : Nat) (priv : Bool) (va : DWord) (redo : Redo) : Res :=
  match s.frTr d (Config.freeWord s.tick 0) priv true va 128 redo with
  | (.missing, s) => .next (s.stallList d n)
  | (.denied, s) => .next (s.modDie d fun x => x.listError n)
  | (.ok pa, s) =>
    let b := s.readPa pa 128
    let (id, s) := s.fresh
    let l := newLaunch id d n priv va pa b
    let s := s.recByte l 46 0x01
    let on (s : State) : State := s.modDie d fun x => x.modList n fun p => { p with cur := some va, stalled := .none }
    match s.checkRecord d l b redo with
    | (.stall, s) => .next (s.stallList d n)
    | (.reason r, s) => { on s with launches := s.launches ++ [l] }.reject id r
    | (.pass h spans, s) =>
      { on s with launches := s.launches ++ [{ l with hdr := h, spans := spans, todo := List.range (l.gx * l.gy * l.gz) }]
        }.testLaunch id

/-- RECORD_TAKE: read the NEXT field where the list stands, and take the record that it names. An anchor whose line has a nonzero
reserved byte is rejected as one that cannot be read (R5, R292, R295, log 31). -/
def execRecordTake (d : DieId) (n : Nat) (s : State) : Res :=
  let a := (s.die d).ctl.anchors.getD n 0
  let p := (s.die d).lists.getD n .reset
  match p.cur with
  | none => .next s
  | some at' =>
    if !s.frontRuns d || !a.getLsbD 0 || p.watching || p.stalled == .waits || 256 ≤ s.outstanding d then .next s
    else
      let priv := a.getLsbD 2
      let first := at' == a &&& ~~~127
      match s.frTr d (Config.freeWord s.tick 0) priv (!first) at' (if first then 128 else 8) p.stalled with
      | (.missing, s) => .next (s.stallList d n)
      | (.denied, s) => .next (s.modDie d fun x => x.listError n)
      | (.ok pa, s) =>
        let next := Mem.dword s.mem pa
        if first && ((s.readPa pa 128).drop 16).any (· != 0) then .next (s.modDie d fun x => x.listError n)
        else if next = 0 then .next (s.modDie d fun x => x.modList n fun p => { p with watching := true, stalled := .none })
        else s.takeRecord d n priv (next &&& ~~~127) p.stalled

/-! ## Completion (R301) -/

/-- LAUNCH_COMPLETE: every team has ended; or a completion word that could not be raised is raised again. -/
def execLaunchComplete (launch : Nat) (s : State) : Res :=
  match s.launch? launch with
  | none => .next s
  | some l =>
    if !l.owed.isEmpty && l.owedWait != .waits then .next (s.writeOwed l)
    else if l.finished then (if l.doneWait == .waits then .next s else s.raiseDone launch)
    else if l.running && l.todo.isEmpty && l.live.isEmpty then
      let s := s.recByte l 46 0x03
      (s.modLaunch launch fun x => { x with finished := true }).raiseDone launch
    else .next s

end Sys2Proof.Machine
end

