-- ==== Sys2Proof/Machine/CtlFile.lean ====
section
/-! DEFINITION. The control registers of a die (Tables 5.4, 10.1, 11.4): reads, writes by `sys.wrcr` and through BAR0, grants of
the die scratchpad (R296), and replay (R334). -/

namespace Sys2Proof.Machine

/-! ## Replay (R334) -/

/-- A gang parked on a fault may make its access again. -/
def Gang.release (x : Gang) : Gang :=
  if x.park = some (.fault false) then { x with park := some (.fault true), afresh := true } else x

/-- A wait for a replay ends with an access that walks afresh. -/
def Redo.release : Redo → Redo
  | .waits => .again
  | r => r

def CopyCmd.release (k : CopyCmd) : CopyCmd := if k.kind = .launch ∧ k.peer then k else { k with wait := k.wait.release }

def Group.releaseWaits (g : Group) : Group :=
  { g with
    gangs := g.gangs.map Gang.release
    keyq := g.keyq.map fun a => { a with wait := a.wait.release }
    cmds := g.cmds.map CopyCmd.release
    adds := g.adds.map fun a => { a with wait := a.wait.release }
    batches := g.batches.map fun b => { b with wait := b.wait.release } }

def Launch.releaseWaits (l : Launch) : Launch :=
  { l with conds := l.conds.map (fun c => { c with wait := c.wait.release }), doneWait := l.doneWait.release, owedWait := l.owedWait.release }

/-- Every access of the die that is parked on a fault, or waits for a replay, is made again. -/
def State.replay (s : State) (d : DieId) : State :=
  let onDie (g : Group) : Bool := (s.team? g.ident.team).any fun t => t.die == d
  let peers := (s.die d).peerAppends.map fun p => (p.1, p.2.1)
  let cmds (g : Group) : Group :=
    { g with cmds := g.cmds.map fun k => if peers.contains (g.ident.id, k.id) then { k with wait := k.wait.release } else k }
  let launch (l : Launch) : Launch := if l.die = d then l.releaseWaits else l
  let coll (c : Coll) : Coll := if c.die = d then { c with wait := c.wait.release } else c
  let s : State :=
    { s with
      groups := s.groups.map fun g => cmds (if onDie g then g.releaseWaits else g)
      launches := s.launches.map launch
      colls := s.colls.map coll }
  s.modDie d fun x => { x with
    lists := x.lists.map (fun p => { p with stalled := p.stalled.release })
    faults := x.faults.map fun r => { r with stale := true } }

/-! ## Grants of the die scratchpad (R296) -/

def inRange (r : Nat × Nat) (a : Nat) : Bool := r.1 ≤ a && a < r.2

/-- The bytes that a write adds and that no other grant in force covers are zero, EMPTY and unmarked. -/
def Die.writeGrant (d : Die) (n : Nat) (v : DWord) : Die :=
  let v := v &&& 0x8007FFFF0003FFFF
  let old := grantRange (d.ctl.grants.getD n 0)
  let new := grantRange v
  let others := ((List.range 4).filter (· != n)).map fun i => grantRange (d.ctl.grants.getD i 0)
  let fresh (a : Nat) : Bool := inRange new a && !inRange old a && !others.any fun r => inRange r a
  { d with
    ctl := { d.ctl with grants := setAt d.ctl.grants n v }
    dspad :=
      { bytes := d.dspad.bytes.filter fun c => !fresh c.1
        marks := d.dspad.marks.filter fun c => !fresh (4 * c.1) } }

/-! ## Reads -/

/-- FAULT_BUFFER_STATUS (Table 5.5). -/
def Die.faultStatus (d : Die) : Word := wd (if d.dropped then 256 else 0) + wd d.faults.length

def PrePath.code : PrePath → Nat
  | .none => 0 | .drain => 1 | .discard => 2 | .save => 3

/-- PREEMPT_REQUEST (Table 5.6). -/
def Preempt.word (p : Preempt) : DWord :=
  BitVec.ofBool p.busy ++ 0#1 ++ BitVec.ofNat 2 p.path.code ++ BitVec.ofNat 4 p.error ++ 0#24 ++ p.team

/-- FRAME_POOL_STATUS. -/
def CtlRegs.poolStatus (c : CtlRegs) : Word :=
  wd ((if c.badEntry then 4 else 0) + (if c.spare.isSome then 2 else 0) + (if c.emptySeen then 1 else 0))

/-- The per-group registers (selectors 0x068 to 0x070). -/
def TrapRegs.read (t : TrapRegs) (n : Nat) : DWord :=
  match n with
  | 0x68 => t.cause | 0x69 => t.resume | 0x6A => t.pc | 0x6B => t.addr | 0x6C => t.state
  | _ => t.hscratch.getD (n - 0x6D) 0

def isGroupReg (n : Nat) : Bool := 0x68 ≤ n && n ≤ 0x70

/-- A die-wide register as it reads; per-group and reserved selectors read zero here. -/
def State.readCr (s : State) (d : DieId) (n : Nat) : DWord :=
  let x := s.die d
  let c := x.ctl
  if n = 0 then x.coreEnable.extractLsb' 0 64
  else if n = 1 then x.coreEnable.extractLsb' 64 64
  else if n = 2 then zx64 (x.coreEnable.extractLsb' 128 32)
  else if 0x10 ≤ n ∧ n ≤ 0x23 then x.coreTable (n - 0x10)
  else if 0x38 ≤ n ∧ n ≤ 0x3B then c.retainBase.getD (n - 0x38) 0
  else if 0x3C ≤ n ∧ n ≤ 0x3F then c.retainLimit.getD (n - 0x3C) 0
  else if 0x80 ≤ n ∧ n ≤ 0x83 then c.anchors.getD (n - 0x80) 0
  else if 0x84 ≤ n ∧ n ≤ 0x87 then c.grants.getD (n - 0x84) 0
  else
    match n with
    | 0x30 => c.pageTableRoot
    | 0x31 => c.trapVector
    | 0x32 => zx64 x.faultStatus
    | 0x33 => zx64 c.txRetryLimit
    | 0x34 => x.preempt.word
    | 0x60 => c.poolBase
    | 0x61 => dw (poolSize c)
    | 0x62 => dw (c.poolHead % poolSize c)
    | 0x63 => dw (c.poolTail.toNat % poolSize c)
    | 0x64 => zx64 c.poolStatus
    | 0x74 => c.errAddr
    | 0x75 => zx64 c.errStatus
    | 0x76 => c.doubleTrap
    | 0x78 => zx64 c.intStatus
    | 0x79 => zx64 c.intEnable
    | 0x88 => x.preempt.area
    | 0x89 => zx64 x.preempt.bytes
    | 0x8A => x.preempt.savedAt
    | _ => 0

/-! ## Writes -/

/-- LAUNCH_ANCHOR_n: the list is followed anew from its anchor when it comes into force or moves (R294). -/
def Die.writeAnchor (d : Die) (n : Nat) (v : DWord) : Die :=
  let old := d.ctl.anchors.getD n 0
  let err : DWord := if v.getLsbD 1 then 0 else old &&& 2
  let new := (v &&& 0xFFFFFFFFFFFFFF85) ||| err
  let pos := d.lists.getD n .reset
  let same := old.getLsbD 0 && new.extractLsb' 7 57 == old.extractLsb' 7 57
  let pos : ListPos :=
    if !new.getLsbD 0 then .reset
    else if same then pos else ⟨some (new &&& ~~~127), false, .none⟩
  { d with ctl := { d.ctl with anchors := setAt d.ctl.anchors n new }, lists := setAt d.lists n pos }

/-- INTERRUPT_ENABLE: enabling a bit that is already set sends its message (R332). -/
def State.writeIntEnable (s : State) (d : DieId) (v : Word) : State :=
  let old := (s.die d).ctl.intEnable
  let new := v &&& 0x3F
  let s := s.modCtl d fun c => { c with intEnable := new }
  (List.range 6).foldl (fun s i =>
    if new.getLsbD i && !old.getLsbD i && (s.die d).ctl.intStatus.getLsbD i then s.sendMsi d (intVector i) else s) s

/-- Write a die-wide register; read-only bits keep their values. Of ERROR_LOG_STATUS software can only clear VALID: COUNT and KIND keep
what the device logged (R328, log 35). -/
def State.writeCr (s : State) (d : DieId) (n : Nat) (v : DWord) : State :=
  let ctl (f : CtlRegs → CtlRegs) : State := s.modCtl d f
  let pre (f : Preempt → Preempt) : State := s.modDie d fun x => { x with preempt := f x.preempt }
  if 0x38 ≤ n ∧ n ≤ 0x3B then
    ctl fun c => { c with retainBase := setAt c.retainBase (n - 0x38) (v &&& 0x800FFFFFFFFFFF80) }
  else if 0x3C ≤ n ∧ n ≤ 0x3F then
    ctl fun c => { c with retainLimit := setAt c.retainLimit (n - 0x3C) (v &&& 0x000FFFFFFFFFFF80) }
  else if 0x80 ≤ n ∧ n ≤ 0x83 then s.modDie d fun x => x.writeAnchor (n - 0x80) v
  else if 0x84 ≤ n ∧ n ≤ 0x87 then s.modDie d fun x => x.writeGrant (n - 0x84) v
  else
    match n with
    | 0x30 => ctl fun c => { c with pageTableRoot := v &&& 0x000FFFFFFFE00000 }
    | 0x31 => ctl fun c => { c with trapVector := v &&& ~~~3 }
    | 0x32 => if v.getLsbD 8 then s.modDie d fun x => { x with dropped := false } else s
    | 0x33 => ctl fun c => { c with txRetryLimit := if lo32 v &&& 0xFF = 0 then c.txRetryLimit else v.extractLsb' 0 8 }
    | 0x60 => ctl fun c => { c with poolBase := v &&& 0x000FFFFFFFFFF000 }
    | 0x61 => ctl fun c => { c with poolSize := wd (ringSize (lo32 v)) }
    | 0x63 => ctl fun c => { c with poolTail := lo32 v }
    | 0x64 => ctl fun c =>
        { c with badEntry := c.badEntry && !v.getLsbD 2, emptySeen := c.emptySeen && !v.getLsbD 0 }
    | 0x65 => if lo32 v = 1 then s.replay d else s
    | 0x75 => ctl fun c => if v.getLsbD 0 then { c with errStatus := c.errStatus &&& ~~~1 } else c
    | 0x76 => ctl fun c => { c with doubleTrap := v }
    | 0x78 => ctl fun c => { c with intStatus := c.intStatus &&& ~~~(lo32 v) }
    | 0x79 => s.writeIntEnable d (lo32 v)
    | 0x88 => pre fun p => { p with area := v &&& ~~~0xFFF }
    | 0x89 => pre fun p => { p with bytes := lo32 v }
    | _ => s

/-- TRAP_STATE as it is written: the reserved bits of the FMT in it read as zero (R5, Table 1.1). -/
def trapState (v : DWord) : DWord := v &&& ~~~0xF80000

/-- The registers of a group that a handler writes (R341, Table 11.4). -/
def TrapRegs.write (t : TrapRegs) (n : Nat) (v : DWord) : TrapRegs :=
  match n with
  | 0x69 => { t with resume := v }
  | 0x6C => { t with state := trapState v }
  | _ => if 0x6D ≤ n then { t with hscratch := setAt t.hscratch (n - 0x6D) v } else t

end Sys2Proof.Machine
end

