-- ==== Sys2Proof/Machine/Images.lean ====
section
/-! DEFINITION. Sealed images that come from another package (R158, R374, log 14): what one holds is a free value, taken where it
is a context that this machine can hold. -/

namespace Sys2Proof

/-- The context sealed in an image that another package made, under a key agreed with it: from the tick; none where the bytes
are no such image (R374, log 14). -/
opaque Config.foreignImage : Nat → Option Machine.Saved

namespace Machine

/-- The numbers that the parts of a context bear. -/
def Saved.numbers (v : Saved) : List Nat :=
  v.launch.id :: v.teams.map (·.id) ++ v.ops.map (·.id) ++ v.groups.flatMap fun g =>
    g.ident.id :: g.gangs.map (·.id) ++ g.gangs.filterMap (·.split) ++ g.pend.map (·.id) ++ g.cmds.map (·.id)

def Team.sound (t : Team) : Bool := Mem.wf t.spad.bytes && Mem.wf t.spad.marks

def Group.sound (g : Group) : Bool :=
  g.lanes.length == g.ident.width && (g.lanes.all fun l => Mem.wf l.lpm && l.v.length == g.ident.nr) &&
  decide (g.gangs.flatMap (·.slices)).Nodup

/-- A context that the machine can hold: its numbers are new and distinct, and its parts agree. -/
def Saved.sound (v : Saved) (next : Nat) : Bool :=
  (v.numbers.all fun n => next ≤ n) && decide (v.groups.map (·.ident.id)).Nodup && decide (v.teams.map (·.id)).Nodup &&
  (v.teams.all fun t => t.launch == v.launch.id && t.sound) &&
  v.groups.all fun g => g.sound && v.teams.any fun t => t.id == g.ident.team

/-- The image that another package sealed, as it is loaded: its launch completes where it was taken, so that here a team of it is
always left (the number after its last TEAMID). -/
def State.foreignImage (s : State) : Option Saved :=
  match Config.foreignImage s.tick with
  | some v =>
    if v.key != 0 && v.sound s.nextId then
      some { v with
        image := true, bytes := []
        launch := { v.launch with
          live := v.launch.gx * v.launch.gy * v.launch.gz :: v.teams.map (·.teamId)
          todo := []
          undone := [] } }
    else none
  | none => none

/-- The numbers of a context are in use. -/
def State.takeNumbers (s : State) (v : Saved) : State := { s with nextId := v.numbers.foldl (fun n k => max n (k + 1)) s.nextId }

end Machine

end Sys2Proof
end

