-- ==== Sys2Proof/Machine/System.lean ====
section
/-! DEFINITION. The system instructions, opcodes 0xF0 to 0xFA (spec/05 R152 to R160, spec/11 R342). -/

namespace Sys2Proof.Machine

/-- Ranks 2 to 4 of a system instruction: privilege, its fields, its registers (R152). -/
def sys (s : State) (ok : Bool) (regs : List Nat) (k : Cx → Res) : Res :=
  issue s fun c =>
    match need c.priv .privilege >>= fun _ => c.wCheck ok regs with
    | .error q => c.trap q
    | .ok _ => k c

/-- Go on with the next word in the state `s`, the group changed by `f`. -/
def Cx.on (c : Cx) (s : State) (f : Group → Group) : Res := .next (s.modGroup c.g.ident.id fun g => (f g).advance c.gg 1)

/-- The release at system scope that a replay performs first: the group's commits and keyed accesses (R334). -/
def Cx.released (c : Cx) (k : Res) : Res :=
  if c.g.tx.close.isSome && !c.replayStuck then c.park (.wait .commit)
  else if c.replayWaits then c.park (.wait .keyed)
  else k

/-! ## Control registers (R154) -/

def execSysRdcr (sd : BitVec 6) (sel : BitVec 10) (rsv : BitVec 8) (s : State) : Res :=
  sys s (rsv == 0 && crExists sel.toNat) [sd.toNat] fun c =>
    let n := sel.toNat
    let v := if isGroupReg n then (if c.handler then c.g.trap.read n else 0) else s.readCr c.die n
    c.on s fun g => g.writeS c.gg sd.toNat v

def execSysWrcr (sa : BitVec 6) (sel : BitVec 10) (rsv : BitVec 8) (s : State) : Res :=
  sys s (rsv == 0 && crWritable sel.toNat) [sa.toNat] fun c =>
    let n := sel.toNat
    let v := c.g.readS sa.toNat
    if n == 0x33 && v.extractLsb' 0 8 == 0#8 then c.trap { code := .illegalOperand }
    else
      let s := s.markSide c.t
      if isGroupReg n then c.on s fun g => if c.handler then { g with trap := g.trap.write n v } else g
      else if n == 0x65 && lo32 v == 1 then c.released (c.on (s.writeCr c.die n v) id)
      else c.on (s.writeCr c.die n v) id

/-! ## Return from a handler (R155, R342) -/

/-- The first of the checks of steps 2 to 4 of R75 that fails for a clause at `a`, with TRAP_ADDR. -/
def Cx.clauseTrap (c : Cx) (priv handler : Bool) (a : DWord) (h : Word) (ws : List Word) : Option (Trap × DWord) :=
  if !headerOk h then some (.clauseFormat, a)
  else
    match roleCheck c.g.ident.role (hdrClass h) priv handler with
    | .error q => some (q.code, 0)
    | .ok _ =>
      match scanClause h ws with
      | some (.clauseFormat, i) => some (.clauseFormat, a + dw (4 * (i + 1)))
      | some (t, _) => some (t, 0)
      | none => none

/-- The clause at `va`, fetched whole; a word that cannot be fetched with its address. -/
def Cx.fetchClause (c : Cx) (va : DWord) (s : State) : ((Fetched × DWord) ⊕ Clause) × State :=
  match c.fetchAt va s with
  | (.word h _, s) =>
    match c.fetchWords (hdrN h) (va + 4) s with
    | (.inr ws, s) => (.inr ⟨va, h, ws.map (·.1)⟩, s)
    | (.inl f, s) => (.inl f, s)
  | (f, s) => (.inl (f, va), s)

/-- A check of `sys.eret` that meets something else than what it needs: a park, or a failure, which is a double trap. -/
def Cx.eretFails (c : Cx) (h : Handler) (f : Option Fetched) (va : DWord) (s : State) : Res :=
  match f with
  | some (.park t) => { c with s := c.offerFetch va t s }.park (.fault false)
  | _ => .next (s.doubleTrap c.g.ident.id c.gg h.hdr)

/-- The clause and the gangs after `sys.eret`. -/
def Cx.eret (c : Cx) (h : Handler) (cl : Option Clause) (s : State) : Res :=
  .next (s.modGroup c.g.ident.id fun g => g.leaveHandler h g.trap.resume cl)

def execSysEret (rsv : BitVec 24) (s : State) : Res :=
  sys s (rsv == 0) [] fun c =>
    match c.g.handler with
    | none => c.trap { code := .illegalOperand }
    | some h =>
      let va := c.g.trap.resume
      if !c.handler then c.trap { code := .illegalOperand }
      else
        match addrCheck va with
        | .error _ => c.eretFails h none va s
        | .ok _ =>
          match c.fetchAt va s with
          | (.word w _, s) =>
            if isHeader w then c.eret h none s
            else
              match c.fetchClause h.hdr s with
              | (.inr cl, s) =>
                if isHeader cl.hdr && beginsInstr cl va && (c.clauseTrap c.l.priv false cl.addr cl.hdr cl.words).isNone then c.eret h (some cl) s
                else c.eretFails h none va s
              | (.inl (f, a), s) => c.eretFails h (some f) a s
          | (f, s) => c.eretFails h (some f) va s

/-! ## Translations and faults (R156, R157) -/

def execSysTlbiAll (sa : BitVec 6) (rsv : BitVec 16) (s : State) : Res :=
  sys s (sa == 0 && rsv == 0) [] fun c => c.on (s.modDie c.die fun d => { d with tlb := [], walks := [] }) id

def execSysTlbiPage (sa : BitVec 6) (rsv : BitVec 16) (s : State) : Res :=
  sys s (rsv == 0) [sa.toNat] fun c =>
    let va := c.g.readS sa.toNat
    let v := (va.extractLsb' 0 57).toNat
    let hit (t : TlbEntry) : Bool := canonical va && t.hits v t.core
    c.on (s.modDie c.die fun d => { d with
      tlb := d.tlb.filter fun t => !hit t, walks := d.walks.filter fun w => !(canonical va && w.covers v) }) id

def execSysTlbiCore (sa : BitVec 6) (rsv : BitVec 16) (s : State) : Res :=
  sys s (sa == 0 && rsv == 0) [] fun c =>
    c.on (s.modDie c.die fun d => { d with tlb := d.tlb.filter fun t => t.core != some c.t.core }) id

def execSysReplay (rsv : BitVec 24) (s : State) : Res :=
  sys s (rsv == 0) [] fun c => c.released (c.on ((s.markSide c.t).replay c.die) id)

/-- The oldest entry leaves the buffer; zero when it is empty. -/
def execSysFltpop (sd : BitVec 6) (rsv : BitVec 18) (s : State) : Res :=
  sys s (rsv == 0 && sPairOk sd.toNat) [sd.toNat, sd.toNat + 1] fun c =>
    let b : DWord × DWord := match (s.die c.die).faults with | r :: _ => r.bits | [] => (0, 0)
    let s := (s.markSide c.t).modDie c.die fun d => { d with faults := d.faults.tail }
    c.on s fun g => (g.writeS c.gg sd.toNat b.1).writeS c.gg (sd.toNat + 1) b.2

/-! ## Sealed contexts (R158) -/

/-- What an area or image at a virtual address is: the record whose bytes stand there, or why it cannot be read. -/
inductive AtArea where
  | found (v : Saved) | other | trap (t : Trap) (a : DWord) | park (t : Tr) (a : DWord)

/-- The n bytes at an address, as an access of this context reads them; none where the span cannot be read. -/
def Cx.bytesAt (c : Cx) (va : DWord) (n : Nat) (s : State) : List Byte :=
  match s.mapSpan c.die (some c.t.core) ⟨false, false, c.priv⟩ va n with
  | (.inr m, s) => s.readSpan m (va.extractLsb' 0 57).toNat n
  | _ => []

/-- The first page's part of a saved record stands at `va`. -/
def Cx.startsAt (c : Cx) (image : Bool) (va : DWord) (s : State) (x : Saved) : Bool :=
  let n := min x.bytes.length (65536 - va.toNat % 65536)
  x.image == image && (image || x.addr == va) && !x.bytes.isEmpty && c.bytesAt va n s == x.bytes.take n

/-- How a span that cannot be read ends: PROTECTION, or a park with its record (R330). -/
def AtArea.fails (t : Tr × DWord) : AtArea := match t with | (.prot, a) => .trap .protection a | (t, a) => .park t a

/-- The record, of a list, all of whose bytes stand at `va`: its whole span is read. -/
def Cx.searchArea (c : Cx) (va : DWord) : List Saved → State → AtArea × State
  | [], s => (.other, s)
  | x :: xs, s =>
    match s.mapSpan c.die (some c.t.core) ⟨false, false, c.priv⟩ va x.bytes.length c.gg.afresh with
    | (.inl t, s) => (.fails t, s)
    | (.inr m, s) =>
      if s.readSpan m (va.extractLsb' 0 57).toNat x.bytes.length == x.bytes then (.found x, s) else c.searchArea va xs s

/-- The bytes at `va` are an image sealed here that has been altered: 16 bytes of it stand at their place still (R374, log 14). -/
def Cx.altered (c : Cx) (va : DWord) (s : State) (x : Saved) : Bool :=
  x.image && (List.range (x.bytes.length / 16)).any fun i =>
    c.bytesAt (va + dw (16 * i)) 16 s == (x.bytes.drop (16 * i)).take 16

/-- An image that another package sealed stands at `va`, as a record. -/
def Cx.foreignAt (c : Cx) (image : Bool) (va : DWord) (s : State) : Option Saved :=
  if image && (c.bytesAt va 256 s).any (· != 0) && !s.saved.any (c.altered va s) then s.foreignImage else none

/-- Find the saved area, or the sealed image, whose bytes stand at `va`; an image may come from another package (R374). -/
def Cx.findArea (c : Cx) (image : Bool) (va : DWord) (s : State) : AtArea × State :=
  match s.mapSpan c.die (some c.t.core) ⟨false, false, c.priv⟩ va 1 c.gg.afresh with
  | (.inl t, s) => (.fails t, s)
  | (.inr _, s) =>
    match c.searchArea va (s.saved.filter (c.startsAt image va s)) s with
    | (.other, s) => match c.foreignAt image va s with
      | some x => (.found x, s.takeNumbers x)
      | none => (.other, s)
    | r => r

/-- The team of a saved record is resident, or queued on a die: loaded, or put back by a discard (R315). -/
def State.savedActive (s : State) (v : Saved) : Bool :=
  let mine (t u : Team) : Bool := t.launch == u.launch && t.teamId == u.teamId
  (s.teams.any fun t => v.teams.any (mine t)) ||
  (s.saved.any fun x => x.queued && x.teams.any fun t => v.teams.any (mine t)) ||
  v.teams.any fun u => (s.launch? u.launch).any fun l => l.todo.contains u.teamId

/-- End with a status in `sd`; the instruction can reach outside the team (R312). -/
def Cx.status (c : Cx) (sd n : Nat) (s : State) : Res := c.on (s.markSide c.t) fun g => g.writeS c.gg sd (dw n)

/-- What an area that cannot be read leads to. -/
def Cx.badArea (c : Cx) (a : AtArea) (write : Bool) (sd st : Nat) (s : State) : Res :=
  match a with
  | .trap t a => { c with s := s }.trap { code := t, addr := a }
  | .park t a => { c with s := s.offerFault c.die (faultRec c.l.launchId c.t.core 0 a write t) c.gg.afresh }.park (.fault false)
  | _ => c.status sd st s

def execSysCtxsv (sd sa sb : BitVec 6) (rsv : BitVec 6) (s : State) : Res :=
  sys s (rsv == 0) [sd.toNat, sa.toNat, sb.toNat] fun c =>
    let src := c.g.readS sa.toNat
    let dst := c.g.readS sb.toNat
    match c.findArea false src s with
    | (.found v, s) =>
      if s.savedActive v then c.status sd.toNat 2 s
      else
        let n := v.bytes.length
        match s.mapSpan c.die (some c.t.core) ⟨true, false, c.priv⟩ dst n c.gg.afresh with
        | (.inl t, s) => c.badArea (.fails t) true sd.toNat 2 s
        | (.inr m, s) =>
          let bs := (List.range n).map fun i => Config.imageByte s.tick i
          let s := s.writeSpan m (dst.extractLsb' 0 57).toNat bs
          c.status sd.toNat 0
            { s with saved := s.saved ++ [{ v with addr := dst, bytes := bs, image := true, key := Config.sealKey s.tick }] }
    | (a, s) => c.badArea a false sd.toNat 2 s

/-- The package holds the key of an image: its own, or one agreed with another package (R374). -/
def Saved.keyHeld (v : Saved) (tick : Nat) : Bool := v.key == 0 || Config.holdsKey tick v.key
/-- Its format version is accepted (R317). -/
def Saved.versionOk (v : Saved) : Bool := v.version == Config.formatVersion || Config.acceptsVersion v.version

/-- The launch of a context still has teams on the other die, resident, queued or to be dispatched: no launch spans both, so that the
context cannot be queued here (R1, log 14). -/
def State.tiedAway (s : State) (d : DieId) (v : Saved) : Bool :=
  let k := v.launch.id
  (s.teams.any fun t => t.launch == k && t.die != d) || (s.saved.any fun x => x.queued && x.launch.id == k && x.die != d) ||
  s.launches.any fun l => l.id == k && l.die != d && !l.todo.isEmpty

def execSysCtxld (sd sa : BitVec 6) (rsv : BitVec 12) (s : State) : Res :=
  sys s (rsv == 0) [sd.toNat, sa.toNat] fun c =>
    let src := c.g.readS sa.toNat
    match c.findArea true src s with
    | (.found v, s) =>
      if !v.keyHeld s.tick then c.status sd.toNat 1 s
      else if !v.versionOk || s.savedActive v then c.status sd.toNat 2 s
      else if s.tiedAway c.die v || Config.lacksResources s.tick then c.status sd.toNat 3 s
      else
        let s := s.latchWbars
        c.status sd.toNat 0 (({ s with
          saved := s.saved ++ [{ v with image := false, queued := true, die := c.die, bytes := [] }] } : State).modLaunch v.launch.id
            fun l => { l with die := c.die })
    | (a, s) => c.badArea a false sd.toNat 1 s

/-! ## Pre-emption, signals and halting (R159, R160) -/

def execSysPreempt (sa sb : BitVec 6) (force : BitVec 2) (rsv : BitVec 10) (s : State) : Res :=
  sys s (rsv == 0 && force != 3) [sa.toNat, sb.toNat] fun c =>
    if (s.die c.die).preempt.busy then c.park (.wait .preemptBusy)
    else
      let s := s.requestPreempt c.die (c.g.readS sa.toNat) (c.g.readS sb.toNat) force.toNat
      c.on (s.markSide c.t) id

/-- A halted gang goes on. -/
def Group.unhalt (g : Group) : Group :=
  (g.gangs.filter fun x => x.park == some .halt).foldl (fun g x => g.release x 1) g

/-- A signal to a core: its halted groups wake, or its pending bit is set. -/
def State.signalCore (s : State) (d : DieId) (core : Nat) : State :=
  let here (g : Group) : Bool := (s.team? g.ident.team).any fun t => t.die == d && t.core == core
  let halted (g : Group) : Bool := here g && g.gangs.any fun x => x.park == some .halt
  if s.groups.any halted then
    { s with groups := s.groups.map fun g => if halted g then g.unhalt else g }.modDie d fun x =>
      { x with ipi := x.ipi.filter (· != core) }
  else s.modDie d fun x => { x with ipi := insNat x.ipi core }

def execSysIpi (sa : BitVec 6) (rsv : BitVec 18) (s : State) : Res :=
  sys s (rsv == 0) [sa.toNat] fun c =>
    let n := (c.g.readS sa.toNat).toNat % 256
    if 156 ≤ n ∧ n ≤ 254 then c.trap { code := .illegalOperand }
    else
      let s := s.markSide c.t
      c.on (if n = 255 then (List.range 156).foldl (fun s k => s.signalCore c.die k) s else s.signalCore c.die n) id

def execSysHalt (rsv : BitVec 24) (s : State) : Res :=
  sys s (rsv == 0) [] fun c =>
    let core := c.t.core
    if (s.die c.die).ipi.contains core then
      c.on (s.modDie c.die fun d => { d with ipi := d.ipi.filter (· != core) }) id
    else c.park .halt

end Sys2Proof.Machine
end

