-- ==== Sys2Proof/Machine/Placement.lean ====
section
/-! DEFINITION. The dispatcher: what a core holds, where a team goes, the state of a team at dispatch, and the events
TEAM_DISPATCH, DISPATCH_WAIT_TIMEOUT and ISLAND_POWER_UP (spec/10 R305 to R308, spec/01 R41, R42, spec/12 R363). -/

namespace Sys2Proof.Machine

/-! ## What a core holds (R306) -/

def State.teamsOn (s : State) (d : DieId) (core : Nat) : List Team := s.teams.filter fun t => t.die == d && t.core == core

/-- The groups that hold storage of a core: a group's resources are freed once it has ended with everything performed (R150). -/
def State.groupsOn (s : State) (d : DieId) (core : Nat) : List Group :=
  let ts := (s.teamsOn d core).map (·.id)
  s.groups.filter fun g => ts.contains g.ident.team && !(g.ended && s.groupQuiet g)

def State.spadUse (s : State) (d : DieId) (core : Nat) : Nat := ((s.teamsOn d core).map (·.spadBytes)).sum

def State.quadUse (s : State) (d : DieId) (core q : Nat) : QuadUse :=
  ((s.groupsOn d core).filter fun g => g.ident.quad == q).foldl
    (fun a g => a.add (groupUse g.ident.width g.ident.nr g.ident.dw g.ident.k)) ⟨0, 0, 0⟩

/-- Resident lanes of a core. -/
def State.lanesOn (s : State) (d : DieId) (core : Nat) : Nat := ((s.groupsOn d core).map (·.ident.width)).sum

def State.coreFits (s : State) (d : DieId) (h : KHdr) (n core : Nat) : Bool :=
  h.fitsWith n (s.teamsOn d core).length (s.spadUse d core) (s.quadUse d core)

/-- The core with the fewest resident lanes, the lowest index on a tie (R306). -/
def leastOf (lanes : Nat → Nat) : List Nat → Option Nat
  | [] => none
  | c :: cs =>
    match leastOf lanes cs with
    | some b => if lanes b < lanes c then some b else some c
    | none => some c

def State.pickCore (s : State) (d : DieId) (h : KHdr) : Option Nat :=
  leastOf (s.lanesOn d) ((List.range (s.die d).coresInUse.length).filter (s.coreFits d h 1))

/-- The cores of the members of a set, on the lowest logical cluster that holds it (R307). -/
def State.pickCluster (s : State) (d : DieId) (h : KHdr) (ps : List Nat) : Option (List Nat) :=
  ((List.range (s.die d).clusters.length).map fun c => dealSet ((s.die d).clusterCores c) ps).find? fun deal =>
    deal.all fun c => s.coreFits d h (deal.count c) c

/-- Cores for the members of the numbers given. -/
def State.pickPlaces (s : State) (d : DieId) (h : KHdr) (ps : List Nat) : Option (List Nat) :=
  if h.cluster then s.pickCluster d h ps else (s.pickCore d h).map fun c => [c]

/-! ## State at dispatch (R41, R42) -/

def LaneTx.fresh : LaneTx := ⟨false, 0, false, .none, 0, 0, false, false, false, [], []⟩

/-- Vector registers with PL_LANE and PL_TLANE. -/
def KHdr.vregInit (h : KHdr) (nr idx lane : Nat) : List Word :=
  let v := List.replicate nr (0 : Word)
  let v := if h.preload.getLsbD 0 then setAt v 0 (wd lane) else v
  if h.preload.getLsbD 1 then setAt v 1 (wd (idx * h.width + lane)) else v

def KHdr.laneInit (h : KHdr) (nr dwN idx lane : Nat) : Lane where
  v := h.vregInit nr idx lane
  gloves := List.replicate dwN (zeroGlove h.kcnt)
  draw := 0
  lpm := []
  exited := false
  latches := List.replicate 3 ⟨0, 0⟩
  tx := .fresh

/-- Scalar registers with the preloads of rows PL_TX to PL_ARGS. -/
def Launch.sregInit (l : Launch) (team idx : Nat) (role : Role) (cluster core : Nat) : List DWord :=
  let vals : List DWord :=
    [dw (team % l.gx), dw (team / l.gx % l.gy), dw (team / (l.gx * l.gy)), dw idx, dw (roleCode role), dw cluster,
     dw core, l.args]
  let pre := vals.zipIdx.map fun x => if l.hdr.preload.getLsbD (x.2 + 2) then x.1 else 0
  pre ++ List.replicate (64 - pre.length) 0

/-- A group at dispatch. -/
def Launch.groupInit (l : Launch) (id team teamId cluster core gangId : Nat) (x : Nat × Role × Nat × Nat × Nat) : Group :=
  let h := l.hdr
  let (idx, role, quad, nr, dwN) := x
  { ident := ⟨id, team, idx, role, quad, h.width, nr, dwN, h.kcnt, h.sregs, h.lpm⟩
    s := l.sregInit teamId idx role cluster core
    em := maskW h.width
    flags := 0
    sb := List.replicate 6 0
    mxcrew := 0
    lanes := (List.range h.width).map (h.laneInit nr dwN idx)
    parts := List.replicate (h.width / 4) []
    gangs := [Gang.start gangId (List.range (h.width / 4)) (l.khdr + 64) h.fmt]
    pend := []
    tx := ⟨0, 0, 0, .none, false, false, none⟩
    mon := none
    trap := ⟨0, 0, 0, 0, 0, [0, 0, 0, 0]⟩
    handler := none
    held := []
    round := 0
    passed := []
    keyq := []
    copyCount := 0
    lastBatch := 0
    batches := []
    cmds := []
    adds := []
    openFail := none
    accs := if role = .matrix then List.replicate 8 .blank else []
    slot := none
    stats := []
    splitStores := [] }

/-- Numbers n, n + 1, … for the groups of a team: one for the group and one for its gang. -/
def Launch.groupsInit (l : Launch) (team teamId cluster core n : Nat) : List Group :=
  l.hdr.layout.zipIdx.map fun x => l.groupInit (n + 2 * x.2) team teamId cluster core (n + 2 * x.2 + 1) x.1

/-! ## Islands (R363) -/

/-- A team is resident on an island of a die. -/
def State.islandBusy (s : State) (d : DieId) (i : Nat) : Bool :=
  s.teams.any fun t => t.die == d && (s.die d).islandOf t.core == i

/-- Islands on which no team is resident are off. -/
def State.restIslands (s : State) (d : DieId) : State :=
  let fix (x : Island × Nat) : Island := if s.islandBusy d x.2 then x.1 else { x.1 with on := false }
  s.modDie d fun x => { x with power := { x.power with islands := x.power.islands.zipIdx.map fix } }

def execIslandPowerUp (d : DieId) (island : Nat) (s : State) : Res :=
  if s.islandBusy d island then
    .next (s.modDie d fun x => { x with power := { x.power with
      islands := modAt x.power.islands island fun i => { i with on := true } } })
  else .next s

/-! ## Dispatch of new teams -/

/-- The members of the next dispatch of a launch: one team, or one set (R305, R307). A team put back by a discard goes with the
members of its set that are put back with it. -/
def Launch.nextTeams (l : Launch) : List Nat :=
  match l.todo with
  | [] => []
  | t :: _ => if l.hdr.cluster then l.todo.filter fun u => u / 4 == t / 4 else [t]

/-- The member number of a team in its set (R307). -/
def Launch.memberOf (l : Launch) (teamId : Nat) : Nat := if l.hdr.cluster then teamId % 4 else 0

/-- The launch as its teams are dispatched: of a record that was changed in use its teams have free values (R8, R294, log 23). -/
def State.argsOf (s : State) (l : Launch) : Launch :=
  if recOwn (s.readPa l.recPa 128) == l.seen then l
  else
    let free := Config.freeWord s.tick
    { l with args := pair64 (free 0) (free 1), seedLo := free 2, seedHi := free 3 }

/-- Place a team on a core. -/
def State.addTeam (s : State) (l : Launch) (uid teamId core : Nat) (set : List Nat) : State :=
  let cl := (s.die l.die).clusterOf core
  let n := s.nextId
  let t : Team :=
    ⟨uid, l.id, l.die, teamId, core, cl, set, l.memberOf teamId, l.hdr.spad, ⟨[], []⟩, [], false, 0, 0⟩
  { s with
    nextId := n + 2 * l.hdr.layout.length
    teams := s.teams ++ [t]
    groups := s.groups ++ l.groupsInit uid teamId cl core n }

/-- Dispatch members to cores. -/
def State.placeTeams (s : State) (l : Launch) (ids cores : List Nat) : State :=
  let l := s.argsOf l
  let s := s.latchWbars
  let n := s.nextId
  let s : State := { s with nextId := n + ids.length }
  -- the set by member number; no team has the number 0
  let set := if l.hdr.cluster then
      (List.range 4).map fun p => ((ids.findIdx? fun t => t % 4 == p).map (n + ·)).getD 0
    else []
  let s := ids.zipIdx.foldl (fun s x => s.addTeam l (n + x.2) x.1 (cores.getD x.2 0) set) s
  let s := if l.running then s else s.recByte l 46 0x02
  (s.modLaunch l.id fun x =>
    { x with args := l.args, seedLo := l.seedLo, seedHi := l.seedHi
             todo := x.todo.filter fun t => !ids.contains t, live := x.live ++ ids, running := true, waiting := false,
             expired := false }).noteWbars

/-! ## Dispatch of loaded teams (R158, R318) -/

/-- A gang as it goes on after a restore (R318): a parked access issues again. It has been ready since now (R149, R309). -/
def Gang.restored (x : Gang) : Gang :=
  let x := { x with age := 1, bypassed := 0 }
  match x.park with
  | some (.fault _) => { x with park := some (.fault true) }
  | _ => x

/-- Place the teams of a loaded context, one core for each. -/
def State.placeSaved (s : State) (v : Saved) (cores : List Nat) : State :=
  let put (x : Team × Nat) : Team :=
    let c := cores.getD x.2 0
    { x.1 with die := v.die, core := c, cluster := (s.die v.die).clusterOf c }
  let s := s.latchWbars
  let known := s.launches.any fun l => l.id == v.launch.id
  let s : State :=
    { s with
      teams := s.teams ++ v.teams.zipIdx.map put
      groups := s.groups ++ v.groups.map fun g => { g with gangs := g.gangs.map Gang.restored }
      crewOps := s.crewOps ++ v.ops
      launches := if known then s.launches else s.launches ++ [{ v.launch with die := v.die }]
      saved := s.saved.erase v }
  -- a halted team wakes where its core's pending bit is set
  (cores.foldl (fun s c => if (s.die v.die).ipi.contains c then s.signalCore v.die c else s) s).noteWbars

/-! ## TEAM_DISPATCH (R305) -/

/-- What may be dispatched next: a ready launch with teams left, or a loaded context. -/
inductive Cand where
  | launch (l : Launch) | saved (v : Saved)

def Cand.launch? : Cand → Launch
  | .launch l => l
  | .saved v => v.launch

/-- `a` is served before `b`: priority, then the order in which they became ready. -/
def Cand.before (a b : Cand) : Bool :=
  let x := a.launch?
  let y := b.launch?
  y.list < x.list || (x.list == y.list && x.ready.getD 0 < y.ready.getD 0)

def insCand (c : Cand) : List Cand → List Cand
  | [] => [c]
  | d :: ds => if d.before c then d :: insCand c ds else c :: d :: ds

def State.candidates (s : State) (d : DieId) : List Cand :=
  let ls := (s.launches.filter fun l => l.die == d && l.ready.isSome && !l.finished && !l.todo.isEmpty).map Cand.launch
  let vs := (s.saved.filter fun v => v.queued && v.die == d).map Cand.saved
  (ls ++ vs).foldl (fun acc c => insCand c acc) []

/-- Serve the candidates in order: the first that fits is dispatched; one that does not fit begins to wait, and one that has
waited its 100 µs lets none after it go (R305, R320). -/
def State.serve (s : State) (d : DieId) : List Cand → State
  | [] => s
  | .launch l :: cs =>
    match s.pickPlaces d l.hdr (l.nextTeams.map l.memberOf) with
    | some cores => s.placeTeams l l.nextTeams cores
    | none => if l.expired then s else (s.modLaunch l.id fun x => { x with waiting := true }).serve d cs
  | .saved v :: cs =>
    match s.pickPlaces d v.launch.hdr (v.teams.map (·.member)) with
    | some cores => s.placeSaved v cores
    | none =>
      if v.expired then s
      else ({ s with saved := s.saved.map fun x => if x = v then { x with waiting := true } else x } : State).serve d cs

def execTeamDispatch (d : DieId) (s : State) : Res :=
  if (s.die d).coresHeld || !(s.die d).isReady then .next s
  else .next ((s.restIslands d).serve d (s.candidates d))

/-- DISPATCH_WAIT_TIMEOUT: the next team of a launch has waited 100 µs, or a loaded team of it. -/
def execDispatchWaitTimeout (launch : Nat) (s : State) : Res :=
  let late (v : Saved) : Saved := if v.queued && v.waiting && v.launch.id == launch then { v with expired := true } else v
  .next (({ s with saved := s.saved.map late } : State).modLaunch launch fun l =>
    if l.waiting then { l with expired := true } else l)

end Sys2Proof.Machine
end

