-- ==== Sys2Proof/Machine/Evict.lean ====
section
/-! DEFINITION. The paths of a pre-emption: PREEMPT_DRAIN_DEADLINE, PREEMPT_DISCARD and PREEMPT_SAVE (spec/10 R314 to R318). -/

namespace Sys2Proof.Machine

/-- The request in hand with its team and launch. -/
def State.preRequest (s : State) (d : DieId) : Option (PreReq × Team × Launch) :=
  match (s.die d).preempt.req with
  | none => none
  | some r =>
    match s.team? r.teamUid with
    | none => none
    | some t => (s.launch? t.launch).map fun l => (r, t, l)

def State.modPre (s : State) (d : DieId) (f : Preempt → Preempt) : State :=
  s.modDie d fun x => { x with preempt := f x.preempt }

def Preempt.setPath (p : Preempt) (path : PrePath) : Preempt := { p with req := p.req.map fun r => { r with path := path } }

/-- The request is complete. -/
def Preempt.finish (p : Preempt) (path : PrePath) (error : Nat) : Preempt :=
  { p with busy := false, path := path, error := error, req := none }

/-- A save area is available (R313). -/
def State.saveReady (s : State) (d : DieId) (t : Team) : Bool :=
  (s.die d).preempt.area != 0 && s.saveBytes t ≤ (s.die d).preempt.bytes.toNat

/-- Where a drain that has passed its deadline goes on (R314). -/
def State.escalated (s : State) (d : DieId) (t : Team) : PrePath :=
  if !t.sideEffect then .discard else if s.saveReady d t then .save else .drain

def execPreemptDrainDeadline (d : DieId) (s : State) : Res :=
  match s.preRequest d with
  | none => .next s
  | some (r, t, _) =>
    if r.path == .drain && r.deadline ≤ s.timeNs.toNat then .next (s.modPre d fun p => p.setPath (s.escalated d t))
    else .next s

/-- Every gang stands at a clause boundary, or at the instruction on which it is parked (R315, R316); a gang that a double trap holds is
stopped as it stands (R344). -/
def State.stopped (s : State) (ts : List Team) : Bool :=
  s.groups.all fun g => !(ts.any fun t => t.id == g.ident.team) ||
    g.gangs.all fun x => x.clause.isNone || !x.begun || x.park.isSome || (g.handler.any (·.double) && g.inHandler x)

/-! ## Discard (R315, R318) -/

/-- A team goes back among the undispatched teams of its launch. -/
def State.putBack (s : State) (t : Team) : State :=
  let gids := (s.groupsOf t.id).map (·.ident.id)
  let s : State :=
    { s with crewOps := s.crewOps.filter fun o => !o.members.any gids.contains }
  (s.removeTeam t).modLaunch t.launch fun l =>
    { l with live := l.live.filter (· != t.teamId), todo := insNat l.todo t.teamId }

def execPreemptDiscard (d : DieId) (s : State) : Res :=
  match s.preRequest d with
  | none => .next s
  | some (r, t, _) =>
    let ts := s.setOf t
    if r.path != .discard || !s.stopped ts then .next s
    else if t.sideEffect then
      -- the team has reached outside itself since the choice, and can no longer be discarded (R312)
      .next (s.modPre d fun p => p.setPath (if s.saveReady d t then .save else .drain))
    else .next ((ts.foldl State.putBack s).modPre d fun p => p.finish .discard 0)

/-! ## Save (R316, R318, R46) -/

/-- Open transactions abort: with SERIAL_PREEMPTED where the group holds the lock, else with CONFLICT, which CONFLICTS counts here (R223,
R318, log 39). -/
def Group.abortOpen (g : Group) : Group :=
  let closing := match g.tx.close with | some k => k.todo | none => []
  let cause : TxCause := if g.tx.lockHeld then .serialPreempted else .conflict
  let ls := (List.range g.ident.width).filter fun l => !closing.contains l
  let hit := ls.any fun l => (g.lane l).tx.inTx && !(g.lane l).tx.doomed
  let g := ls.foldl (fun g l => g.modTx l fun t => t.doom cause 0 0) g
  { g with tx := g.tx.count (!g.tx.lockHeld && hit) false }

/-- A gang as it is saved: a place in the lock's queue or in a rendezvous latch is given up. -/
def Gang.saved (x : Gang) : Gang :=
  match x.park with
  | some .lock | some .crew => { x with park := some .resume }
  | _ => x

/-- Commands as they are saved: an append passed to the other die's front-end, and not yet made there, is passed again after the
restore, also where it waited there for a replay (R318). -/
def CopyCmd.saved (k : CopyCmd) : CopyCmd := if k.kind == .launch && k.peer then { k with started := none, wait := .none } else k

/-- A group as it is saved. -/
def Group.saved (g : Group) : Group :=
  let g := g.abortOpen
  let g := g.modLanes (List.range g.ident.width) fun x => { x with latches := x.latches.map Latch.close }
  { g with
    gangs := g.gangs.map Gang.saved
    slot := none
    cmds := g.cmds.map CopyCmd.saved
    mon := g.mon.map fun m => { m with fired := true }
    tx := { g.tx with lockHeld := false, lockQueued := false } }

/-- Drop what groups have passed to the dies' front-ends. -/
def State.dropAppends (s : State) (gids : List Nat) : State :=
  let drop (s : State) (d : DieId) : State :=
    s.modDie d fun x => { x with peerAppends := x.peerAppends.filter fun e => !gids.contains e.1 }
  drop (drop s .cd0) .cd1

/-- Take the teams of a set out of the machine as a saved context. -/
def State.takeOut (s : State) (d : DieId) (l : Launch) (ts : List Team) (area : DWord) (bytes : List Byte) : State :=
  let uids := ts.map (·.id)
  let gs := s.groups.filter fun g => uids.contains g.ident.team
  let gids := gs.map (·.ident.id)
  let ops := s.crewOps.filter fun o => o.members.any gids.contains
  let v : Saved :=
    { die := d, addr := area, bytes := bytes, image := false, launch := l, teams := ts, groups := gs.map Group.saved, ops := ops
      version := Config.formatVersion, key := 0, queued := false, waiting := false, expired := false }
  let s : State :=
    { s with
      teams := s.teams.filter fun t => !uids.contains t.id
      groups := s.groups.filter fun g => !uids.contains g.ident.team
      crewOps := s.crewOps.filter fun o => !o.members.any gids.contains
      saved := s.saved ++ [v] }
  (s.dropAppends gids).modDie d fun x => { x with
    lockHolder := if x.lockHolder.any gids.contains then none else x.lockHolder
    lockQueue := x.lockQueue.filter fun e => !gids.contains e.1
    preempt := { x.preempt.finish .save 0 with savedAt := area } }

def execPreemptSave (d : DieId) (s : State) : Res :=
  match s.preRequest d with
  | none => .next s
  | some (r, t, l) =>
    let ts := s.setOf t
    if r.path != .save || !s.stopped ts then .next s
    else
      let area := (s.die d).preempt.area
      let ok := s.saveReady d t
      let n := s.saveBytes t
      let s := s.modPre d fun p => { p with area := 0 }
      if !ok then .next (s.modPre d fun p => p.finish .none 3)
      else
        match s.mapSpan d none ⟨true, false, true⟩ area n with
        | (.inl _, s) => .next (s.modPre d fun p => p.finish .none 3)
        | (.inr m, s) =>
          let bytes := (List.range n).map fun i => Config.saveByte s.tick i
          let s := s.writeSpan m (area.extractLsb' 0 57).toNat bytes
          .next (s.takeOut d l ts area bytes)

end Sys2Proof.Machine
end

