-- ==== Sys2Proof/Machine/Issue.lean ====
section
/-! DEFINITION. Issue and completion: which gangs are ready, and the events CLAUSE_ISSUE_SELECT, CLAUSE_FETCH,
LONG_LATENCY_COMPLETE, FAULT_SPLIT_REJOIN, HELD_GANG_HANDLER_ENTRY, POISON_DELIVERY, PAGE_WALK and FAULT_REPLAY (spec/10 R309,
spec/03 R74 to R81, spec/01 R18, spec/11 R325, R334, R339, R343). -/

namespace Sys2Proof.Machine

/-! ## Readiness (R309) -/

/-- The team is being stopped by a pre-emption, so its groups stop at clause boundaries (R315, R316). -/
def Cx.stopping (c : Cx) : Bool :=
  match (c.s.die c.die).preempt.req with
  | some r => (r.path == .discard || r.path == .save) && (r.teamUid == c.t.id || c.t.set.contains r.teamUid)
  | none => false

/-- The island of the core is powered, and neither heat nor a reset holds the die (R363, R366, R346). -/
def Cx.powered (c : Cx) : Bool :=
  let d := c.s.die c.die
  ((d.power.islands[d.islandOf c.t.core]?).any (·.on)) && !d.power.hold && !d.coresHeld && !c.s.shutdown

/-- The gang's group lets it begin a clause, or issue a parked instruction again: it is not halted (R160), held by a double trap
(R344), or stopped by another gang's handler (R340). -/
def Cx.groupMay (c : Cx) : Bool :=
  !(c.g.gangs.any fun x => x.park == some .halt) && !c.stopping && c.powered &&
  (match c.g.handler with | some h => !h.double && c.handler | none => c.g.held.isEmpty)

/-- A gang that stopped on a fault before a handler of its group was entered makes its access again once it is replayed, and goes on
to the end of its clause (R334, R340, log 47). -/
def Cx.replayMay (c : Cx) : Bool :=
  !(c.g.gangs.any fun x => x.park == some .halt) && !c.stopping && c.powered && !c.g.handler.any (·.double)

/-- No gang of the split set stands at an earlier instruction, and none of the set from which the handler was entered is parked
(log 47). -/
def Cx.noneBehind (c : Cx) : Bool := !c.parkedHeld && !c.g.gangs.any fun x => x.behind c.gg

/-- The gang stands at a replay, which does not wait for what only a replay can release (R334, log 47). -/
def Cx.atReplay (c : Cx) : Bool :=
  match c.gg.instr? with
  | some (.sysReplay _) | some (.sysWrcr ..) => c.replayStuck || (!c.replayWaits && c.g.tx.close.isNone)
  | _ => false

/-- The condition of a wait holds. -/
def Cx.waitReady (c : Cx) (w : Wait) : Bool :=
  let g := c.g
  let quiet := c.keyAhead.isEmpty && g.tx.close.isNone
  let arrived (as : List BarArr) : Bool :=
    as.any fun a => a.group == g.ident.id && (a.done || c.gg.slices.all a.slices.contains)
  match w with
  | .barNext n => !c.t.bars.any fun p => p.num == n && arrived p.arrs
  | .wbarNext n =>
    let w := c.s.wbar n
    !(w.here c.t.id || arrived ((w.arrs.filter fun a => a.1 == c.t.id).map (·.2)))
  | .key => c.s.groupHolds c.l c.t g g.round
  | .keyNext => !c.gg.slices.all g.passed.contains
  | .cpWait =>
    match c.gg.instr? with
    | some (.cpWait v) => (g.awaited (lo32 (g.readS v.r1.toNat)).toNat).isEmpty
    | _ => true
  | .cpRoom => !g.batchesFull
  | .commit => g.tx.close.isNone || c.atReplay
  | .crewDrain => c.s.crewIdle g
  | .slot => g.slot.isNone
  | .exitReturn => quiet
  | .keyed => quiet || c.atReplay
  | .behind => c.noneBehind
  | .scCopies => !c.scBusy
  | .preemptBusy => !(c.s.die c.die).preempt.busy
  | .engine ls => !ls.any c.s.engineLines.contains

/-- The gang is one that a double trap holds where it stands; the group's other gangs complete the clause they are issuing (R340, R344). -/
def Cx.doubleHeld (c : Cx) : Bool := c.g.handler.any (·.double) && c.handler

/-- The gang goes on with a clause that it has begun. -/
def Cx.readyOn (c : Cx) : Bool :=
  c.gg.clause.isSome && c.gg.begun &&
    match c.gg.park with
    | none => c.powered && !c.doubleHeld
    | some (.fault true) => c.replayMay
    | some .resume => c.groupMay
    | some (.wait w) => c.groupMay && c.waitReady w
    | _ => false

/-- WAIT and SET of the clause (R77, R79), and the wait of an `exit` (R339). -/
def Cx.clauseMay (c : Cx) (cl : Clause) : Bool :=
  let set := hdrSet cl.hdr
  (List.range 6).all (fun k => !hdrWait cl.hdr k || c.g.sb.getD k 0 == 0) &&
  (6 ≤ set || (c.g.sb.getD set 0 < 63 && c.g.sb.getD set 0 + longCount c.gg.restWords ≤ 63)) &&
  ((opsOf cl.words.length cl.words).getLast? != some 0xCB || (c.g.keyIdle && c.g.tx.close.isNone))

/-- The gang is ready to begin the clause that it has fetched. -/
def Cx.readyNew (c : Cx) : Bool :=
  match c.gg.clause with
  | none => false
  | some cl => !c.gg.begun && c.gg.park.isNone && c.gg.poison.isEmpty && c.groupMay && c.clauseMay cl

/-! ## CLAUSE_ISSUE_SELECT (R309) -/

def State.onQuad (s : State) (d : DieId) (core quad : Nat) (g : Group) : Bool :=
  g.ident.quad == quad && (s.team? g.ident.team).any fun t => t.die == d && t.core == core

/-- The gangs of a quadrant. -/
def State.quadGangs (s : State) (d : DieId) (core quad : Nat) : List Cx :=
  (s.groups.filter (s.onQuad d core quad)).flatMap fun g => g.gangs.filterMap fun x => s.cxOf g.ident.id x.id

/-- The gang is ready to begin a clause, or to go on with one in which it was parked. -/
def Cx.ready (c : Cx) : Bool := c.readyNew || (c.gg.park.isSome && c.readyOn)

/-- The greatest under an order. -/
def maxima (less : Cx → Cx → Bool) (cs : List Cx) : List Cx := cs.filter fun c => !cs.any (less c)

/-- Of gangs that are ready since the same clause, the one that is ready longest is a matter of time, and so free (log 4). -/
def pickTie (tick : Nat) (cs : List Cx) : Option Cx := cs[freeIndex (Config.freeNat tick 0) cs.length]?

/-- The gang that takes a free slot: of those that 64 clauses have passed the one that most have, else by priority and then by age. -/
def pickNew (tick : Nat) (cs : List Cx) : Option Cx :=
  let ready := cs.filter Cx.ready
  let aged := ready.filter fun c => 64 ≤ c.gg.bypassed
  pickTie tick <|
    if aged.isEmpty then
      maxima (fun a b => a.l.list < b.l.list || (a.l.list == b.l.list && a.gg.age < b.gg.age)) ready
    else maxima (fun a b => a.gg.bypassed < b.gg.bypassed) aged

/-- The gang in the issue slot: it has begun a clause and is not parked. -/
def pickOn (cs : List Cx) : Option Cx := cs.find? fun c => c.gg.park.isNone && c.readyOn

/-- The issue slot passes to a gang: latches of the quadrant's other groups are lost (R32). -/
def State.giveSlot (s : State) (d : DieId) (core quad gid k : Nat) : State :=
  let one (g : Group) : Group :=
    if g.ident.id = gid then g.modGang k fun x => { x with begun := true, park := none }
    else if s.onQuad d core quad g then
      g.modLanes (List.range g.ident.width) fun x => { x with latches := x.latches.map Latch.close }
    else g
  { s with groups := s.groups.map one, focus := some (gid, k) }

/-- Ages after a clause of `c` is selected. YIELD restarts those of its group, but not the count of the clauses that have passed a
ready gang, which bounds its wait (R149, R309, R320). -/
def State.ageGangs (s : State) (cs : List Cx) (c : Cx) : State :=
  let yields := match c.gg.clause with | some cl => hdrYield cl.hdr | none => false
  let ready (gid : Nat) (x : Gang) : Bool := cs.any fun y => y.g.ident.id == gid && y.gg.id == x.id && y.ready
  let issues (gid : Nat) (x : Gang) : Bool := gid == c.g.ident.id && x.id == c.gg.id
  let age (gid : Nat) (x : Gang) : Nat :=
    if gid == c.g.ident.id && (yields || x.id == c.gg.id) then 0 else if ready gid x then max x.age 1 + 1 else 1
  let passed (gid : Nat) (x : Gang) : Nat := if ready gid x && !issues gid x then x.bypassed + 1 else 0
  let quad := cs.map fun y => y.g.ident.id
  { s with groups := s.groups.map fun g =>
      if quad.contains g.ident.id then { g with gangs := g.gangs.map fun x =>
        { x with age := age g.ident.id x, bypassed := passed g.ident.id x } } else g }

def execClauseIssueSelect (d : DieId) (core quad : Nat) (s : State) : Res :=
  let cs := s.quadGangs d core quad
  match pickOn cs with
  | some c => .next (s.giveSlot d core quad c.g.ident.id c.gg.id)
  | none =>
    match pickNew s.tick cs with
    | some c => .next ((s.ageGangs cs c).giveSlot d core quad c.g.ident.id c.gg.id)
    | none => .next s

/-! ## CLAUSE_FETCH (R74, R75) -/

/-- A trap of the checks of R75, reported at the header; `addr` is TRAP_ADDR (log 20). -/
def Cx.fetchTrap (c : Cx) (code : Trap) (addr : DWord) : Res :=
  let a := c.gg.pc
  .next (c.s.takeTrap c.g.ident.id c.gg ⟨code, 0, 0, a, addr, a, a⟩)

/-- A word at `va` that cannot be fetched (R75, step 1; R330). -/
def Cx.fetchFails (c : Cx) (f : Fetched) (va : DWord) : Res :=
  match f with
  | .park t => { c with s := c.offerFetch va t c.s }.park (.fault false)
  | .poison _ => c.fetchTrap .poison va
  | _ => c.fetchTrap .protection va

/-- No header stands at the pc: the clause before it has ended here (R74), or the entry of a kernel or handler is no header. -/
def Cx.noHeader (c : Cx) : Res :=
  let a := c.gg.pc
  let from' := c.gg.prev.getD a
  .next (c.s.takeTrap c.g.ident.id c.gg ⟨.clauseFormat, 0, 0, from', a, a, from'⟩)

/-- The first of the checks of steps 2 to 4 that fails, with TRAP_ADDR. -/
def Cx.clauseBad (c : Cx) (h : Word) (ws : List Word) : Option (Trap × DWord) := c.clauseTrap c.priv c.handler c.gg.pc h ws

/-- The clause is fetched: its lines stay in the fetch path (log 12). -/
def Cx.fetched (c : Cx) (h : Word) (ws : List (Word × Nat)) (pa : Nat) : State :=
  let a := c.gg.pc
  let s := (pa :: ws.map (·.2)).foldl (fun s p => s.keepLine c.die (lineOf p)) c.s
  s.modGroup c.g.ident.id fun g => g.modGang c.gg.id fun x =>
    { x with clause := some ⟨a, h, ws.map (·.1)⟩, pc := a + 4, prev := none, park := none, begun := false }

def execClauseFetch (gid gang : Nat) (s : State) : Res :=
  match s.cxOf gid gang with
  | none => .next s
  | some c =>
    if c.gg.clause.isSome || !c.groupMay || !(c.gg.park == none || c.gg.park == some (.fault true)) then .next s
    else
      match c.fetchAt c.gg.pc s with
      | (.word h pa, s) =>
        let c := { c with s := s }
        if !isHeader h then c.noHeader
        else
          match c.fetchWords (hdrN h) (c.gg.pc + 4) s with
          | (.inr ws, s) =>
            match c.clauseBad h (ws.map (·.1)) with
            | some (t, a) => { c with s := s }.fetchTrap t a
            | none => .next ({ c with s := s }.fetched h ws pa)
          | (.inl (f, a), s) => { c with s := s }.fetchFails f a
      | (f, s) => { c with s := s }.fetchFails f c.gg.pc

/-! ## LONG_LATENCY_COMPLETE (R79, R80) -/

/-- Operations that issued before `op`. -/
def opsBefore (op : Nat) (ps : List PendOp) : List PendOp := ps.takeWhile fun o => o.id != op

/-- Deliver one write of an operation; an earlier operation no longer writes that word (R81). -/
def Group.deliverOne (g : Group) (op : Nat) (w : Tgt × DWord) : Group :=
  let g := g.deliver w.1 w.2
  let early := (opsBefore op g.pend).map (·.id)
  { g with pend := g.pend.map fun o => if early.contains o.id then o.overwrite w.1 else o }

/-- Every result of the operation is written, and its entry falls. -/
def Group.completeOp (g : Group) (o : PendOp) : Group :=
  let g := o.writes.foldl (fun g w => g.deliverOne o.id w) g
  { g with pend := g.pend.filter fun x => x.id != o.id, sb := modAt g.sb o.entry (· - 1) }

/-- With a word number, that one result is written early (R80); without, the operation completes once no party of it is left
to perform (log 9). -/
def execLongLatencyComplete (gid op : Nat) (word : Option Nat) (s : State) : Res :=
  match (s.group? gid).bind fun g => g.pend.find? fun o => o.id == op with
  | none => .next s
  | some o =>
    match word with
    | some i =>
      match o.writes[i]? with
      | none => .next s
      | some w => .next (s.modGroup gid fun g =>
          (g.deliverOne op w).modOp op fun o => { o with writes := o.writes.eraseIdx i })
    | none => if o.waiting = 0 then .next (s.modGroup gid fun g => g.completeOp o) else .next s

/-! ## FAULT_SPLIT_REJOIN (R18) -/

/-- The gangs of a split set as one. Pieces that a handler has sent to other words, or given another FMT, have no catch-up point in common:
they go on as gangs of their own (R16, R342, log 47). -/
def Group.rejoin (g : Group) (split : Nat) : Group :=
  let left := g.gangs.filter fun x => x.split != some split
  let on (x : Gang) : Gang := { x with park := if x.clause.isSome && x.begun then some .resume else none, split := none }
  let pieces := (g.gangs.filter fun x => x.split == some split).map on
  { g with
    splitStores := g.splitStores.filter fun e => e.split != split
    gangs := left ++ (pieces.foldl (joinGang (left.map (·.id))) ([], 0)).1 }

/-- The whole set may meet: none of its slices is in a handler entered from it, and no handler stops the gangs. -/
def Group.mayRejoin (g : Group) (split : Nat) (mine : List Gang) : Bool :=
  match g.handler with
  | none => true
  | some h => !h.double && h.split != some split && mine.all g.inHandler

def execFaultSplitRejoin (gid split : Nat) (s : State) : Res :=
  match s.group? gid with
  | none => .next s
  | some g =>
    let mine := g.gangs.filter fun x => x.split == some split
    if mine.isEmpty || !g.mayRejoin split mine || !mine.all fun x => x.park == some .catchUp then .next s
    else .next (s.modGroup gid fun g => g.rejoin split)

/-! ## Handler entry of held gangs (R343) and pending POISON (R339) -/

def execHeldGangHandlerEntry (gid : Nat) (s : State) : Res :=
  match s.group? gid with
  | none => .next s
  | some g =>
    match g.handler, g.held with
    | none, (k, i) :: rest =>
      let s := s.modGroup gid fun g => { g with held := rest }
      match g.gang? k with
      | some gg => .next (s.enterTrap gid gg i)
      | none => .next s
    | _, _ => .next s

/-- The header of the clause that the gang begins next. -/
def Gang.nextHdr (gg : Gang) : DWord := gg.hdrAddr

/-- One POISON is raised for each poisoned instruction. Where two are pending at one header the second stays with the gang, and so is
raised at the first clause of the handler, as a double trap (R339, R344, log 40). -/
def execPoisonDelivery (gid gang : Nat) (s : State) : Res :=
  match s.cxOf gid gang with
  | none => .next s
  | some c =>
    match c.gg.poison with
    | [] => .next s
    | (pc, lanes, va) :: rest =>
      if c.gg.begun || c.gg.park.isSome || !c.groupMay then .next s
      else
        let s := s.modGroup gid fun g => g.modGang gang fun x => { x with poison := rest }
        let a := c.gg.nextHdr
        .next (s.takeTrap gid { c.gg with poison := rest } ⟨.poison, lanes, 0, pc, va, a, a⟩)

/-! ## Walks and replay (R325, R329, R334) -/

/-- PAGE_WALK: a walk made ahead of an access of a core, which then finds its translation in the TLBs; a walk that faults leaves
the fault to that access. With `lostRace` the other die backs the page first (R329). -/
def execPageWalk (d : DieId) (core : Nat) (va : DWord) (write fetch priv lostRace : Bool) (s : State) : Res :=
  if !canonical va || (s.die d).coresHeld then .next s
  else
    match s.walkFor d (some core) (va.extractLsb' 0 57).toNat ⟨write, fetch, priv⟩ lostRace with
    | (_, s) => .next s

/-- A write within TDISP: refused from outside the trusted domain while the function is locked or runs (R371). -/
def State.bar0 (s : State) (d : DieId) (tr : Bool) (f : State → State) : Res :=
  if (s.die d).tdisp == .unlocked || tr then .next (f s) else .next { s with outs := s.outs ++ [.refused d] }

/-- FAULT_REPLAY: a write of 1 acts as `sys.replay`. -/
def execFaultReplay (d : DieId) (v : DWord) (tr : Bool) (s : State) : Res := s.bar0 d tr fun s => s.writeCr d 0x65 v

end Sys2Proof.Machine
end

