-- ==== Sys2Proof/Machine/HostRegs.lean ====
section
/-! DEFINITION. Registers as the host reads and writes them through BAR0 (spec/11 R328, R332, spec/10 R292, R296, spec/12 R352 to R354, R363 to
R365, R371): the control registers, the fabric registers of Table 12.2, and power requests. -/

namespace Sys2Proof.Machine

def execInterruptStatusWrite (d : DieId) (v : Word) (tr : Bool) (s : State) : Res := s.bar0 d tr fun s => s.writeCr d 0x78 (zx64 v)
def execInterruptEnableWrite (d : DieId) (v : Word) (tr : Bool) (s : State) : Res := s.bar0 d tr fun s => s.writeCr d 0x79 (zx64 v)
def execFaultBufferStatusWrite (d : DieId) (v : Word) (tr : Bool) (s : State) : Res := s.bar0 d tr fun s => s.writeCr d 0x32 (zx64 v)

def execDspadGrantWrite (d : DieId) (n : Nat) (v : DWord) (tr : Bool) (s : State) : Res :=
  s.bar0 d tr fun s => if n < 4 then s.writeCr d (0x84 + n) v else s

def execLaunchAnchorWrite (d : DieId) (n : Nat) (v : DWord) (tr : Bool) (s : State) : Res :=
  s.bar0 d tr fun s => if n < 4 then s.writeCr d (0x80 + n) v else s

/-! ## Wired barriers (R352, R354) -/

def State.writeMember (s : State) (d : DieId) (core : Nat) (v : DWord) : State :=
  s.latchWbars.modCtl d fun c => { c with wbarMember := setAt c.wbarMember core v }

/-- A new LAUNCHID starts the number with no arrivals and no history. -/
def Wbar.rebind (w : Wbar) (v : DWord) : Wbar :=
  let v := v &&& 0xFFFFFFFF00000003
  if hi32 v = hi32 w.bind then { w with bind := v } else ⟨v, [], [], w.released, []⟩

def State.writeBind (s : State) (n : Nat) (v : DWord) : State := (s.latchWbars.modWbar n fun w => w.rebind v).noteWbars

def execWbarMemberWrite (d : DieId) (core : Nat) (v : DWord) (tr : Bool) (s : State) : Res :=
  s.bar0 d tr fun s => s.writeMember d core v
def execWbarBindWrite (d : DieId) (n : Nat) (v : DWord) (tr : Bool) (s : State) : Res := s.bar0 d tr fun s => s.writeBind n v

/-! ## Power (R363 to R365) -/

/-- A value outside 2,400 to 3,600 is ignored. -/
def State.writePowerLimit (s : State) (v : Word) : State :=
  let w := (v &&& 0xFFFF).toNat
  if 2400 ≤ w ∧ w ≤ 3600 then { s with powerLimit := wd w } else s

def execPowerLimitWrite (d : DieId) (v : Word) (tr : Bool) (s : State) : Res := s.bar0 d tr fun s => s.writePowerLimit v

def PowerReq.fromHost : PowerReq → Bool
  | .steps .. => false
  | _ => true

/-- A request of the host is being carried out (BUSY). -/
def PowerState.busy (p : PowerState) : Bool := (p.active.toList ++ p.reqs).any PowerReq.fromHost

/-- The frequency request of a written value, where it is one and none of its values is reserved. -/
def freqOf (v : DWord) : Option PowerReq :=
  let mhz := nbits v.toNat 16 16
  let i := nbits v.toNat 0 4
  if v.getLsbD 15 && 800 ≤ mhz && mhz ≤ 1600 && mhz % 25 == 0 && i < 4 then some (.freq i mhz) else none

/-- The width request of a written value. -/
def widthOf (v : DWord) : Option PowerReq :=
  let link := nbits v.toNat 44 4
  let w := nbits v.toNat 41 3
  if v.getLsbD 40 && link ≤ 12 && w ≤ 2 then some (.width link w) else none

/-- The next pending change begins, a frequency change before a width change (R365). -/
def PowerState.begin (p : PowerState) : PowerState :=
  if p.active.isSome then p
  else
    let isFreq (r : PowerReq) : Bool := match r with | .width .. => false | _ => true
    match p.reqs.find? isFreq with
    | some r => { p with active := some r, reqs := p.reqs.erase r }
    | none => match p.reqs with
      | r :: rs => { p with active := some r, reqs := rs }
      | [] => p

/-- POWER_REQUEST after a write: a field with a reserved value keeps what it held (R364). -/
def powerWritten (old v : DWord) : DWord :=
  let field (m : DWord) (ok : Bool) : DWord := (if ok then v else old) &&& m
  let mhz := nbits v.toNat 16 16
  field 0x0000F00000000000 (nbits v.toNat 44 4 ≤ 12) ||| field 0x00000E0000000000 (nbits v.toNat 41 3 ≤ 2) |||
  field 0x00000000FFFF0000 (800 ≤ mhz && mhz ≤ 1600 && mhz % 25 == 0) ||| field 0x000000000000000F (nbits v.toNat 0 4 < 4) |||
  field 0x0000010000008000 true

/-- A write of POWER_REQUEST; ignored while BUSY. -/
def State.writePower (s : State) (d : DieId) (v : DWord) : State :=
  if (s.die d).power.busy then s
  else
    let rs := (freqOf v).toList ++ (widthOf v).toList
    s.modDie d fun x => { x with
      ctl := { x.ctl with powerReq := powerWritten x.ctl.powerReq v }
      power := { x.power with reqs := x.power.reqs ++ rs }.begin }

def execFreqReq (d : DieId) (v : DWord) (tr : Bool) (s : State) : Res := s.bar0 d tr fun s => s.writePower d v
def execLinkReq (d : DieId) (v : DWord) (tr : Bool) (s : State) : Res := s.bar0 d tr fun s => s.writePower d v

/-- An island's clock n steps below its ceiling, down to 800 MHz (R363). -/
def Island.lower (i : Island) (n : Nat) : Island := { i with mhz := max 800 (i.ceiling - 25 * n) }

/-- Every core-array island of the die the same number of steps below its own ceiling (R363, R366). -/
def PowerState.clocks (p : PowerState) : PowerState :=
  { p with islands := p.islands.map fun i => i.lower (max p.limitSteps p.heatSteps) }

/-- A change takes effect. -/
def PowerState.apply (p : PowerState) (r : PowerReq) : PowerState :=
  match r with
  | .freq i mhz => { p with islands := modAt p.islands i fun x => { x with ceiling := mhz } }.clocks
  | .width l w => { p with linkWidths := setAt p.linkWidths l w }
  | .steps true n => { p with heatSteps := n }.clocks
  | .steps false n => { p with limitSteps := n }.clocks

/-- The device asks for a change of the die's clocks, in the order of R365. -/
def PowerState.ask (p : PowerState) (heat : Bool) (n : Nat) : PowerState := { p with reqs := p.reqs ++ [PowerReq.steps heat n] }.begin

/-- The steps below the ceilings that heat, or the package limit, asks for: those of the last change asked, done or not. -/
def PowerState.asked (p : PowerState) (heat : Bool) : Nat :=
  let steps (r : PowerReq) : Option Nat := match r with | .steps h n => if h = heat then some n else none | _ => none
  (((p.active.toList ++ p.reqs).filterMap steps).getLast?).getD (if heat then p.heatSteps else p.limitSteps)

/-- POWER_REQUEST_COMPLETE: the change in hand completes, and the next begins. -/
def execPowerRequestComplete (d : DieId) (s : State) : Res :=
  .next (s.modDie d fun x =>
    match x.power.active with
    | none => x
    | some r => { x with power := { x.power.apply r with active := none }.begin })

/-! ## Any other register (R154, Table 12.2, R332) -/

/-- A word of the MSI-X table: the address of a message, its data, and the vector control (R332, log 32). -/
def Die.msixWord (x : Die) (off : Nat) : Word :=
  let m := x.msix.getD (off / 16) (0, 0)
  match off % 16 with
  | 0 => lo32 m.1
  | 4 => hi32 m.1
  | 8 => m.2
  | _ => if x.masked.getD (off / 16) false then 1 else 0

/-- POWER_REQUEST as it reads: BUSY and what was last written. -/
def Die.powerWord (x : Die) : DWord := x.ctl.powerReq ||| (if x.power.busy then 0x8000000000000000 else 0)

/-- What the host reads in BAR0 at a byte offset (R328, Table 12.2, R332, R362); other offsets read as zero (log 46). -/
def State.readBar0 (s : State) (d : DieId) (off : Nat) : DWord :=
  let x := s.die d
  if off < 0x2000 then (if off % 8 = 0 && !isGroupReg (off / 8) then s.readCr d (off / 8) else 0)
  else if 0x10000 ≤ off ∧ off < 0x10500 then (if off % 8 = 0 then x.ctl.wbarMember.getD ((off - 0x10000) / 8) 0 else 0)
  else if 0x10800 ≤ off ∧ off < 0x10A00 then (if off % 8 = 0 then (s.wbar ((off - 0x10800) / 8)).bind else 0)
  else if off = 0x11000 then x.ctl.commTable
  else if off = 0x11008 then x.ctl.telemetry
  else if off = 0x11010 then zx64 s.powerLimit
  else if off = 0x11018 then x.powerWord
  else if 0x20000 ≤ off ∧ off < 0x20040 then
    (if off % 4 = 0 then
      (if off % 8 = 0 then pair64 (x.msixWord (off - 0x20000)) (x.msixWord (off - 0x20000 + 4)) else zx64 (x.msixWord (off - 0x20000)))
    else 0)
  else if off = 0x21000 then dw (x.pendingMsg.zipIdx.map fun b => if b.1 then 2 ^ b.2 else 0).sum
  else 0

/-- Vector control of the MSI-X table (R332, log 32): unmasking a vector sends what is pending. -/
def State.writeMask (s : State) (d : DieId) (n : Nat) (mask : Bool) : State :=
  let s1 := s.modDie d fun x => { x with masked := setAt x.masked n mask }
  if !mask && (s.die d).pendingMsg.getD n false then
    (s1.modDie d fun x => { x with pendingMsg := setAt x.pendingMsg n false }).sendMsi d n
  else s1

/-- A word of the MSI-X table is written; the address of a message is a multiple of 4. -/
def State.writeMsix (s : State) (d : DieId) (off : Nat) (w : Word) : State :=
  let put (f : DWord × Word → DWord × Word) : State := s.modDie d fun x => { x with msix := modAt x.msix (off / 16) f }
  match off % 16 with
  | 0 => put fun m => (pair64 (w &&& ~~~3) (hi32 m.1), m.2)
  | 4 => put fun m => (pair64 (lo32 m.1) w, m.2)
  | 8 => put fun m => (m.1, w)
  | 12 => s.writeMask d (off / 16) (w.getLsbD 0)
  | _ => s

/-- A BAR0 write at a byte offset; offsets that hold no writable register ignore it. -/
def State.writeBar0 (s : State) (d : DieId) (off : Nat) (v : DWord) : State :=
  if off < 0x2000 then
    (if off % 8 = 0 && crWritable (off / 8) && !isGroupReg (off / 8) then s.writeCr d (off / 8) v else s)
  else if 0x10000 ≤ off ∧ off < 0x10500 then (if off % 8 = 0 then s.writeMember d ((off - 0x10000) / 8) v else s)
  else if 0x10800 ≤ off ∧ off < 0x10A00 then (if off % 8 = 0 then s.writeBind ((off - 0x10800) / 8) v else s)
  else if off = 0x11000 then s.modCtl d fun c => { c with commTable := v &&& 0x000FFFFFFFFC0000 }
  else if off = 0x11008 then s.modCtl d fun c => { c with telemetry := v &&& 0x000FFFFFFFFFF001 }
  else if off = 0x11010 then s.writePowerLimit (lo32 v)
  else if off = 0x11018 then s.writePower d v
  else if 0x20000 ≤ off ∧ off < 0x20040 then s.writeMsix d (off - 0x20000) (lo32 v)
  else s

def execControlRegisterWrite (d : DieId) (off : Nat) (v : DWord) (tr : Bool) (s : State) : Res :=
  s.bar0 d tr fun s => s.writeBar0 d off v

end Sys2Proof.Machine
end

