-- ==== Sys2Proof/Machine/Package.lean ====
section
/-! DEFINITION. Events of the package: links, heat and clocks, telemetry, background work, errors, resets, security, and the
accesses of the host and of other packages (spec/11 R345, spec/12 R350, R351, R360 to R372, spec/09 R286). -/

namespace Sys2Proof.Machine

/-! ## Links (R350, R351) -/

/-- The dies whose functions a change of the link concerns. -/
def linkDies : LinkId → List DieId
  | .cdCd => [.cd0, .cd1]
  | .cdXd c x => if c = x then [c] else [c, x]
  | .uaLink x _ | .uet x _ | .pcie x => [x]

def State.reportLink (s : State) (l : LinkId) : State := (linkDies l).foldl (fun s d => s.interrupt d 4) s

def execLinkDown (l : LinkId) (s : State) : Res :=
  if s.linksDown.contains l then .next s
  else
    let fail (k : Coll) : Coll :=
      if l = .cdCd ∧ k.stage < 2 ∧ k.failed.isNone ∧ s.collCrosses k then { k with failed := some .peerUnavailable } else k
    let s : State := { s with linksDown := s.linksDown ++ [l], colls := s.colls.map fail }
    .next (s.reportLink l)

def execLinkUp (l : LinkId) (s : State) : Res :=
  if s.linksDown.contains l then
    let s : State := { s with linksDown := s.linksDown.filter (· != l) }
    .next (s.reportLink l)
  else .next s

/-- FLIT_RETRY: a retry changes timing only. -/
def execFlitRetry (_ : LinkId) (s : State) : Res := .next s

/-! ## Heat and clocks (R363, R366) -/

def State.modPower (s : State) (d : DieId) (f : PowerState → PowerState) : State :=
  s.modDie d fun x => { x with power := f x.power }

def PowerState.reason (p : PowerState) (bit : Nat) (on : Bool) : PowerState :=
  { p with throttle := if on then p.throttle ||| BitVec.ofNat 16 (2 ^ bit) else p.throttle &&& ~~~(BitVec.ofNat 16 (2 ^ bit)) }

/-- Cores left after the self-test of a reset: one that fails is retired, and a reserve core takes its place (R348, R349). -/
def Die.tested (d : Die) (tick die : Nat) : BitVec 160 := d.coreEnable &&& ~~~(Config.failedCores tick die)

/-- Memory without the contents of a die's HBM: a fresh shared key leaves none (R372). -/
def Mem.without (m : Mem) (d : DieId) : Mem := m.filter fun c => ownerOf c.1 != Owner.hbm d

/-- The package is off: registers, teams and the contents of its memory are lost; the memory of the host and of other packages
is not in it. No firmware runs until an image is verified (R370). -/
def State.lost (s : State) : State :=
  let keep (d : Die) (n : Nat) : Die :=
    { Die.reset with coreEnable := d.tested s.tick n, keyGen := d.keyGen + 1, ready := false }
  { State.reset with
    cd0 := keep s.cd0 0
    cd1 := keep s.cd1 1
    mem := (Mem.without s.mem .cd0).without .cd1
    firmware := .unverified
    fwImage := s.fwImage
    fusedMin := s.fusedMin
    identity := s.identity
    outs := s.outs
    agenda := s.agenda
    tick := s.tick
    nextId := s.nextId }

/-- THERMAL_LIMIT_CROSSING (R366). How far the clock falls at 100 °C is a free value. -/
def execThermalLimitCrossing (d : DieId) (e : ThermalEvent) (s : State) : Res :=
  match e with
  | .die100 true => .next (s.modPower d fun p => (p.ask true (1 + Config.freeNat s.tick 0 % 32)).reason 1 true)
  | .die100 false => .next (s.modPower d fun p => (p.ask true 0).reason 1 false)
  | .die110 => .next (s.modPower d fun p => { p with hold := true }.reason 2 true)
  | .dieBelow95 => .next (s.modPower d fun p => { p with hold := false }.reason 2 false)
  | .hbm85 _ => .next s
  | .hbm95 => .next (s.modPower d fun p => p.reason 3 true)
  | .hbmBelow90 => .next (s.modPower d fun p => p.reason 3 false)
  | .die120 =>
    let s := s.lost
    .next { s with shutdown := true, outs := s.outs ++ [.surpriseDown .cd0, .surpriseDown .cd1] }

/-- POWER_CLOCK_ADJUST: the islands of a die are to run n steps below their ceilings for the package limit (R363, R365). -/
def execPowerClockAdjust (d : DieId) (steps : Nat) (s : State) : Res :=
  .next (s.modPower d fun p => (p.ask false steps).reason 0 (steps != 0))

/-! ## Telemetry (R369) -/

/-- LINKS: bits of the links of Tables 12.1 and 12.3 as seen from a die, in the order of the tables (log 33). -/
def linkList (d : DieId) : List LinkId :=
  [.cdCd, .cdXd .cd0 .cd0, .cdXd .cd0 .cd1, .cdXd .cd1 .cd0, .cdXd .cd1 .cd1, .pcie d] ++
  (List.range 8).map (LinkId.uaLink d) ++ (List.range 4).map (LinkId.uet d)

def State.linkBits (s : State) (d : DieId) : Nat :=
  ((linkList d).zipIdx.map fun x => if s.linksDown.contains x.1 then 0 else 2 ^ x.2).sum

/-- The page of Table 12.5 after its sequence word; CLOCKMHZ and ISLANDMHZ take an island that is off at its stored clock (log 33). -/
def State.telemetryPage (s : State) (d : DieId) : List Byte :=
  let x := s.die d
  let p := x.power
  let sense (i n : Nat) : List Byte := leBytes n (Config.sensor s.tick (dieNum d) i)
  leBytes 8 s.timeNs.toNat ++ sense 0 4 ++ sense 1 4 ++ leBytes 2 ((p.islands.map (·.mhz)).foldl max 0) ++
  leBytes 2 (p.throttle.toNat ||| (if p.islands.any (·.ceiling < 1600) then 16 else 0)) ++ sense 2 2 ++ sense 3 2 ++ sense 4 4 ++
  leBytes 4 (popc 160 x.coreEnable.toNat - x.coresInUse.length) ++ (p.ce.flatMap fun w => leBytes 4 w.toNat) ++
  leBytes 8 p.ue.toNat ++ leBytes 8 (s.linkBits d) ++ (p.islands.flatMap fun i => leBytes 2 i.mhz) ++
  List.replicate 4000 0

/-- TELEMETRY_UPDATE: the writing of a page begins with an odd SEQ, and ends with the fields and an even SEQ (log 33). A page at
an address at which nothing lies is not written. -/
def execTelemetryUpdate (d : DieId) (s : State) : Res :=
  let t := (s.die d).ctl.telemetry
  let pa := (t.extractLsb' 12 40).toNat * 4096
  if !t.getLsbD 0 || ownerOf pa == .unassigned then .next s
  else
    let seq := (s.die d).power.seq + 1
    let s := s.modPower d fun p => { p with seq := seq }
    .next (s.writePa pa (leBytes 8 seq.toNat ++ if seq.getLsbD 0 then [] else s.telemetryPage d))

/-! ## Errors (R345, R367, R368) -/

/-- Count a correctable error of a class of CECOUNT. -/
def State.countCe (s : State) (d : DieId) (cls : Nat) : State :=
  s.modPower d fun p => { p with ce := modAt p.ce cls fun w => if w = 0xFFFFFFFF then w else w + 1 }

/-- Log an uncorrectable error; `line` is the address of its line, a free value where the place has none. -/
def State.logError (s : State) (d : DieId) (kind : Nat) (line : Option Nat) : State :=
  let a := match line with
    | some pa => dw (pa / 128 * 128)
    | none => pair64 (Config.freeWord s.tick 1) (Config.freeWord s.tick 2)
  let s := s.modCtl d fun c => { c with
    errAddr := a
    errStatus := wd (satInc 65535 (nbits c.errStatus.toNat 16 16) * 65536 + 16 * kind + 1) }
  (s.modPower d fun p => { p with ue := p.ue + 1 }).interrupt d 3

def State.poisonLine (s : State) (pa : Nat) : State :=
  if s.poison.contains (lineOf pa) then s else { s with poison := s.poison ++ [lineOf pa] }

/-- The data of a word in error is undefined. -/
def Spad.fail (p : Spad) (off : Nat) (w : Word) : Spad :=
  let off := off / 4 * 4
  { p with bytes := Mem.writeN p.bytes off (leBytes 4 w.toNat) }.setPoison off

def State.dieOfGroup (s : State) (gid : Nat) : Option DieId :=
  (s.group? gid).bind fun g => (s.team? g.ident.team).map (·.die)

/-- The lane aborts with MEM_ERROR, also where its commit is outstanding (R218). -/
def State.memError (s : State) (gid lane : Nat) : State :=
  let late := (s.group? gid).any fun g => g.tx.close.any fun x => x.todo.contains lane
  s.modTx gid lane fun t => if late then { t with doomed := true, cause := .memError } else t.doom .memError 0 0

/-- The action of R345 for a place. The POISON of register storage reports the header of the gang's present clause in TRAP_PC, and no
lane (log 40). -/
def State.uncorrectable (s : State) (d : DieId) : ErrSite → State
  | .hbm pa => (s.logError d 1 (some pa)).poisonLine pa
  | .l2 pa dirty => let s := s.logError d 2 (some pa); if dirty then s.poisonLine pa else s
  | .l1 pa dirty => let s := s.logError d 3 (some pa); if dirty then s.poisonLine pa else s
  | .teamSpad team off =>
    (s.logError d 4 none).modTeam team fun t => { t with spad := t.spad.fail off (Config.freeWord s.tick 0) }
  | .dieSpad off => (s.logError d 4 none).modDie d fun x => { x with dspad := x.dspad.fail off (Config.freeWord s.tick 0) }
  | .regs gid =>
    (s.logError d 5 none).modGroup gid fun g => { g with gangs := g.gangs.map fun x => x.setPoison x.hdrAddr 0 0 }
  | .array gid acc row residue =>
    (s.logError d 6 none).modGroup gid fun g => { g with accs := modAt g.accs acc fun (a : Acc) =>
      { a with marks := a.marks ||| BitVec.ofNat 16 (2 ^ (row % 16)),
               kind := if a.kind = 0 then (if residue then 1 else 2) else a.kind } }
  | .writeLog gid lane => (s.logError d 7 none).memError gid lane
  | .validation gid lane pa => ((s.logError d 7 (some pa)).poisonLine pa).memError gid lane

def execUncorrectableError (d : DieId) (site : ErrSite) (s : State) : Res := .next (s.uncorrectable d site)
def execCorrectableError (d : DieId) (cls : Nat) (s : State) : Res := .next (s.countCe d cls)

/-- PATROL_SCRUB: what it finds is handled as though a read had found it. -/
def execPatrolScrub (d : DieId) (f : ScrubFinding) (s : State) : Res :=
  match f with
  | .clean => .next s
  | .correctable cls => .next (s.countCe d cls)
  | .uncorrectable site => .next (s.uncorrectable d site)

/-- WEAR_REMAP: data and addresses stay; a frame that is retired loses its poison (R345). -/
def execWearRemap (d : DieId) (pa : Nat) (s : State) : Res :=
  if ownerOf pa == .hbm d then .next { s with poison := s.poison.filter fun l => l / 512 != pa / 65536 } else .next s

/-! ## Resets and firmware (R362, R370) -/

/-- FUNCTION_RESET: the die's cores, registers and launch lists are reset, and a fresh shared key leaves no contents of its memory
(R372, log 34); the other die is untouched, and what heat and the package limit ask of the clocks lasts (R363, R366).
`held` leaves the cores in reset (R272, R346), `memOff` the memory controllers down (Table 12.4), until the next reset. -/
def execFunctionReset (d : DieId) (held memOff : Bool) (s : State) : Res :=
  let gone := (s.teams.filter fun t => t.die == d).map (·.id)
  let gids := (s.groups.filter fun g => gone.contains g.ident.team).map (·.ident.id)
  let s := s.latchWbars
  let bar (w : Wbar) : Wbar :=
    { w with arrs := w.arrs.filter fun a => !gone.contains a.1, arrived := w.arrived.filter fun t => !gone.contains t
             released := w.released.filter fun t => !gone.contains t
             history := w.history.filter fun h => h.1 != d }
  let s : State :=
    { s with
      teams := s.teams.filter fun t => t.die != d
      groups := s.groups.filter fun g => !gone.contains g.ident.team
      launches := s.launches.filter fun l => l.die != d
      crewOps := s.crewOps.filter fun o => !o.members.any gids.contains
      colls := s.colls.filter fun k => k.die != d
      collMsgs := s.collMsgs.filter fun m => m.die != d
      saved := s.saved.filter fun v => !(v.queued && v.die == d)
      wbars := s.wbars.map bar
      mem := Mem.without s.mem d
      poison := s.poison.filter fun l => ownerOf (128 * l) != Owner.hbm d
      focus := if s.focus.any fun f => gids.contains f.1 then none else s.focus }
  .next (s.modDie d fun x => { Die.reset with
    coreEnable := x.tested s.tick (dieNum d), memUp := !memOff, coresHeld := held, ready := x.ready
    keySlots := x.keySlots, keyGen := x.keyGen + 1
    power := { PowerState.reset with
      linkWidths := x.power.linkWidths, hold := x.power.hold, throttle := x.power.throttle
      limitSteps := x.power.asked false, heatSteps := x.power.asked true }.clocks })

/-- FIRMWARE_IMAGE_VERIFY: an image runs when both signatures verify and its version is not below the fused minimum. -/
def execFirmwareImageVerify (image version : Nat) (s : State) : Res :=
  let ready (b : Bool) (s : State) : State := (s.modDie .cd0 fun x => { x with ready := b }).modDie .cd1 fun x => { x with ready := b }
  if Config.firmwareSigned image version && s.fusedMin ≤ version then
    .next (ready true { s with firmware := .measured, fwImage := (image, version)
                               fusedMin := if Config.firmwareRaises image then max s.fusedMin version else s.fusedMin })
  else .next (ready false { s with firmware := .recovery })

/-- PACKAGE_POWER_ON_RESET: the identity is derived again, fresh memory keys leave no contents of the package's memory, and the
functions are not ready until an image is verified. -/
def execPackagePowerOnReset (s : State) : Res := .next { s.lost with identity := Config.freeNat s.tick 0 }

/-! ## Security (R371, R372) -/

/-- Measurements of firmware, configuration and fuses. -/
def State.measurements (s : State) : List Nat :=
  let fw := match s.firmware with | .unverified => 0 | .measured => 1 | .recovery => 2
  let lock (t : TdispState) : Nat := if t = .unlocked then 0 else 1
  [fw, s.fwImage.1, s.fwImage.2, s.fusedMin, s.cd0.coreEnable.toNat, s.cd1.coreEnable.toNat, lock s.cd0.tdisp, lock s.cd1.tdisp]

def execSpdmRequest (d : DieId) (req : List Byte) (s : State) : Res :=
  .next { s with outs := s.outs ++ [.data (some d) (Config.spdmAnswer s.identity s.measurements req)] }

def execTdispStateChange (d : DieId) (t : TdispState) (s : State) : Res := .next (s.modDie d fun x => { x with tdisp := t })

/-- Some byte lies in a page of an encrypted context. -/
def State.encrypted (s : State) (pa n : Nat) : Bool := s.encAll.any fun f => f.1 < pa + n && pa < f.1 + f.2.1

/-- CONTEXT_KEY_SLOT_UPDATE: emptying a slot makes the context's data on the die unreadable for good, also where no leaf maps it any
more (R372, log 16). -/
def execContextKeySlotUpdate (d : DieId) (slot : Nat) (fill : Bool) (s : State) : Res :=
  if 256 ≤ slot then .next s
  else if fill then .next (s.modDie d fun x => { x with keySlots := insNat x.keySlots slot })
  else
    let s := if (s.die d).keySlots.contains slot then s.loseKey d slot else s
    .next (s.modDie d fun x => { x with keySlots := x.keySlots.filter (· != slot) })

/-! ## Accesses from outside (R286, R360 to R362) -/

/-- What a die's address window begins at. -/
def dieBase (d : DieId) : Nat := match d with | .cd0 => 0 | .cd1 => 0x8000000000

/-- A plain load or store at the home of n bytes of the package's memory: a load answers with the data; one that meets a
poisoned line is not performed, and one at a line that an engine has registered waits (R339, R258). It sees the die's shared key
(R372). -/
def State.homeAccess (s : State) (wr : Option (List Byte)) (pa n : Nat) : State :=
  let n := match wr with | some bs => bs.length | none => n
  if n = 0 || s.poisoned pa n || (linesOf pa n).any s.engineLines.contains then s
  else
    let s := s.useShared pa n
    match wr with
    | some bs => (s.noteShared pa n).writePa pa bs
    | none => { s with outs := s.outs ++ [.data none (s.readPa pa n)] }

/-- Bytes of one die's memory, with its controllers up. -/
def State.inHbm (s : State) (pa n : Nat) : Bool :=
  match ownerOf pa, ownerOf (pa + n - 1) with
  | .hbm d, .hbm e => d == e && (s.die d).memUp
  | _, _ => false

/-- BAR2_ACCESS: pages of encrypted contexts read as all ones and are not performed (R371). -/
def execBar2Access (d : DieId) (off : Nat) (wr : Option (List Byte)) (bytes : Nat) (s : State) : Res :=
  let n := match wr with | some bs => bs.length | none => bytes
  let pa := dieBase d + off
  if !s.inHbm pa n || ownerOf pa != .hbm d then .next s
  else if s.encrypted pa n then
    match wr with
    | some _ => .next s
    | none => .next { s with outs := s.outs ++ [.data (some d) (List.replicate n 0xFF)] }
  else .next (s.homeAccess wr pa n)

/-- REMOTE_MEMORY_REQUEST: another package's access, performed at the home slice; an atomic is indivisible (R210, R361). A compare that
fails writes nothing (log 50). -/
def execRemoteMemoryRequest (pa : Nat) (r : RemoteOp) (s : State) : Res :=
  let swap (w64 : Bool) (new : Nat → Option Nat) : State :=
    let n := if w64 then 8 else 4
    if s.poisoned pa n || (linesOf pa n).any s.engineLines.contains then s
    else
      let s := s.useShared pa n
      let old := leNat (s.readPa pa n)
      let s1 := match new old with | some v => (s.noteShared pa n).writePa pa (leBytes n v) | none => s
      { s1 with outs := s1.outs ++ [.data none (leBytes n old)] }
  match r with
  | .load n => .next (if s.inHbm pa n then s.homeAccess none pa n else s)
  | .store bs => .next (if s.inHbm pa bs.length then s.homeAccess (some bs) pa 0 else s)
  | .atomic op w64 b =>
    let v := b.toNat % (if w64 then 2 ^ 64 else 2 ^ 32)
    .next (if s.inHbm pa (if w64 then 8 else 4) then swap w64 (fun old => some (atomNew op w64 old v)) else s)
  | .cas w64 cmp new =>
    let m : Nat := if w64 then 2 ^ 64 else 2 ^ 32
    .next (if s.inHbm pa (if w64 then 8 else 4) then swap w64 (fun old => if old = cmp.toNat % m then some (new.toNat % m) else none) else s)

/-- CXL_MEM_REQUEST: a host load or store to device memory, at the line's home. -/
def execCxlMemRequest (pa : Nat) (wr : Option (List Byte)) (bytes : Nat) (s : State) : Res :=
  let n := match wr with | some bs => bs.length | none => bytes
  .next (if s.inHbm pa n then s.homeAccess wr pa n else s)

/-- CXL_CACHE_SNOOP: a host write to host memory; the device's copy is gone, and a monitor on the line fires. -/
def execCxlCacheSnoop (pa : Nat) (data : List Byte) (s : State) : Res :=
  .next (if ownerOf pa == .host && ownerOf (pa + data.length - 1) == .host then s.writePa pa data else s)

end Sys2Proof.Machine
end

