-- ==== Sys2Proof/Machine/Prefix.lean ====
section
/-! DEFINITION. The prefix words, opcodes 0xD0 to 0xD3 (R93, R124): a prefix is read and kept for the next non-prefix
instruction of its clause, at which its fields and its target are checked. -/

namespace Sys2Proof.Machine

/-- Keep a prefix for the next instruction. It counts as no instruction for the hold window (R85). -/
def Cx.keepPfx (c : Cx) (p : Pfx) : Res :=
  .next (c.s.putGroup (c.g.modGang c.gg.id fun x => { x with pfx := x.pfx ++ [p], pc := x.pc + 4 }))

def execPfxDual (p : PForm) (s : State) : Res := issue s fun c => c.keepPfx (.dual p)
def execPfxMom (p : PForm) (s : State) : Res := issue s fun c => c.keepPfx (.mom p)
def execPfxPt (p : PForm) (s : State) : Res := issue s fun c => c.keepPfx (.pt p)
def execPfxSr (p : PForm) (s : State) : Res := issue s fun c => c.keepPfx (.sr p)

end Sys2Proof.Machine
end

