-- ==== Sys2Proof/Machine/Special.lean ====
section
/-! DEFINITION. The special registers of Table 1.5 (R37 to R40). -/

namespace Sys2Proof.Machine

/-- The draw counter of the lowest active lane, zero with none (R38). -/
def Cx.drawBase (c : Cx) : Word :=
  match c.lanes with
  | l :: _ => (c.g.lane l).draw
  | [] => 0

/-- Cycles of the island of the reading core (R37, R363). -/
def Cx.clock (c : Cx) : DWord :=
  let d := c.s.die c.die
  ((d.power.islands[d.islandOf c.t.core]?).map (·.clock)).getD 0

/-- The value that `s.rdsr` reads for a selector of Table 1.5. -/
def Cx.special (c : Cx) (sel : Nat) : DWord :=
  let d := c.s.die c.die
  match sel with
  | 0x00 => zx64 c.gg.fmt
  | 0x01 => zx64 c.g.flags
  | 0x02 => c.clock
  | 0x03 => c.s.timeNs
  | 0x04 => zx64 c.l.launchId
  | 0x05 => zx64 c.l.seedLo
  | 0x06 => zx64 c.l.seedHi
  | 0x07 => dw c.t.teamId
  | 0x08 => dw c.g.ident.idx
  | 0x09 => dw (roleCode c.g.ident.role)
  | 0x0A => dw c.t.core
  | 0x0B => dw (d.clusterOf c.t.core)
  | 0x0C => dw (dieNum c.die)
  | 0x0D => d.present.extractLsb' 0 64
  | 0x0E => d.present.extractLsb' 64 64
  | 0x0F => zx64 (d.present.extractLsb' 128 32)
  | 0x10 => zx64 (c.g.tx.status c.g.tx.cause.code)
  | 0x11 => let k := c.s.keyState c.l c.t; keyRoundWord k.1 k.2
  | 0x12 => zx64 c.drawBase
  | _ => c.g.mxcrew

end Sys2Proof.Machine
end

