-- ==== Sys2Proof/Machine/Scalar.lean ====
section
/-! DEFINITION. The scalar ALU instructions, opcodes 0x01 to 0x24 (spec/05 R127 to R135). -/

namespace Sys2Proof.Machine

/-! ## The shape of a scalar instruction -/

/-- Ranks 3 and 4 of a scalar instruction: its fields, no prefix before it, and the registers it names (R87, R127, R128). -/
def Cx.sCheck (c : Cx) (ok : Bool) (regs : List Nat) : Except Tq Unit := do
  need (ok && c.gg.pfx.isEmpty) .illegalOperand
  need (c.sregsOk regs) .regRange

/-- An instruction that writes SD from SA and the second operand (R127). `res` reads the old SD first, for those that take
it as a third source. -/
def sAlu (ok : SForm → Bool) (f : SForm) (s : State) (res : DWord → DWord → DWord → DWord) : Res :=
  local1 (sLen f) s fun c => do
    c.sCheck (ok f) ([f.sd.toNat, f.sa.toNat] ++ f.op.regs)
    let g := c.g
    pure (g.writeS c.gg f.sd.toNat (res (g.readS f.sd.toNat) (g.readS f.sa.toNat) (f.op.value g)))

/-- The same for a unary instruction, whose SB field is no register (R128). -/
def sAlu1 (f : SForm) (s : State) (res : DWord → DWord) : Res :=
  local1 (sLen f) s fun c => do
    c.sCheck (SOp.isUnary f.op) [f.sd.toNat, f.sa.toNat]
    pure (c.g.writeS c.gg f.sd.toNat (res (c.g.readS f.sa.toNat)))

def sAlu2 (f : SForm) (s : State) (res : DWord → DWord → DWord) : Res := sAlu sPlain f s fun _ a b => res a b

/-! ## Results -/

/-- Shift amount: Bits(b, 5, 0). -/
def sh6 (b : DWord) : Nat := b.toNat % 64

/-- R129. -/
def sDivuV (a b : DWord) : DWord := if b = 0 then BitVec.allOnes 64 else a / b
def sRemuV (a b : DWord) : DWord := if b = 0 then a else a % b
def sDivsV (a b : DWord) : DWord := if b = 0 then BitVec.allOnes 64 else a.sdiv b
def sRemsV (a b : DWord) : DWord := if b = 0 then a else a.srem b

/-- Position and width of a field that operand b describes (R131). -/
def bfPos (b : DWord) : Nat := b.toNat % 64
def bfWidth (b : DWord) : Nat := min (nbits b.toNat 6 7) (64 - bfPos b)

/-- `s.bfx` (R131). -/
def sBfxV (sx : Bool) (a b : DWord) : DWord :=
  let w := bfWidth b
  let v := nbits a.toNat (bfPos b) w
  if sx && w > 0 && v.testBit (w - 1) then dw v ||| ~~~dw (2 ^ w - 1) else dw v

/-- `s.bfi` (R131). -/
def sBfiV (old a b : DWord) : DWord :=
  let m := dw ((2 ^ bfWidth b - 1) * 2 ^ bfPos b)
  (old &&& ~~~m) ||| ((a <<< bfPos b) &&& m)

/-! ## The instructions of Table 5.1 -/

def execNop (f : SForm) (s : State) : Res :=
  local1 (sLen f) s fun c => do
    c.sCheck (fieldsOk (.nop f)) []
    pure c.g

def execSMov (f : SForm) (s : State) : Res :=
  local1 (sLen f) s fun c => do
    c.sCheck (fieldsOk (.sMov f)) (f.sd.toNat :: f.op.regs)
    pure (c.g.writeS c.gg f.sd.toNat (f.op.value c.g))

/-- R132: bits [16h + 15:16h] replaced by v. -/
def execSMovk (f : SForm) (s : State) : Res :=
  local1 (sLen f) s fun c => do
    c.sCheck (fieldsOk (.sMovk f)) [f.sd.toNat]
    let imm := ((SOp.word? f.op).getD 0).toNat
    let h := 16 * nbits imm 16 2
    let old := c.g.readS f.sd.toNat
    pure (c.g.writeS c.gg f.sd.toNat ((old &&& ~~~dw (0xFFFF * 2 ^ h)) ||| dw (imm % 65536 * 2 ^ h)))

def execSAdd (f : SForm) (s : State) : Res := sAlu2 f s fun a b => a + b
def execSSub (f : SForm) (s : State) : Res := sAlu2 f s fun a b => a - b
def execSMul (f : SForm) (s : State) : Res := sAlu2 f s fun a b => a * b
def execSMulhu (f : SForm) (s : State) : Res := sAlu2 f s fun a b => dw (a.toNat * b.toNat / 2 ^ 64)
def execSMulhs (f : SForm) (s : State) : Res := sAlu2 f s fun a b => BitVec.ofInt 64 (a.toInt * b.toInt / 2 ^ 64)
def execSDivu (f : SForm) (s : State) : Res := sAlu2 f s sDivuV
def execSDivs (f : SForm) (s : State) : Res := sAlu2 f s sDivsV
def execSRemu (f : SForm) (s : State) : Res := sAlu2 f s sRemuV
def execSRems (f : SForm) (s : State) : Res := sAlu2 f s sRemsV
def execSAnd (f : SForm) (s : State) : Res := sAlu2 f s fun a b => a &&& b
def execSOr (f : SForm) (s : State) : Res := sAlu2 f s fun a b => a ||| b
def execSXor (f : SForm) (s : State) : Res := sAlu2 f s fun a b => a ^^^ b
def execSAndn (f : SForm) (s : State) : Res := sAlu2 f s fun a b => a &&& ~~~b
def execSShl (f : SForm) (s : State) : Res := sAlu2 f s fun a b => a <<< sh6 b
def execSShr (f : SForm) (s : State) : Res := sAlu2 f s fun a b => a >>> sh6 b
def execSSar (f : SForm) (s : State) : Res := sAlu2 f s fun a b => a.sshiftRight (sh6 b)
def execSPopc (f : SForm) (s : State) : Res := sAlu1 f s fun a => dw (popc 64 a.toNat)
def execSClz (f : SForm) (s : State) : Res := sAlu1 f s fun a => dw (clz 64 a.toNat)
def execSCtz (f : SForm) (s : State) : Res := sAlu1 f s fun a => dw (ctz 64 a.toNat)
def execSMins (f : SForm) (s : State) : Res := sAlu2 f s fun a b => if b.slt a then b else a
def execSMinu (f : SForm) (s : State) : Res := sAlu2 f s fun a b => if b.ult a then b else a
def execSMaxs (f : SForm) (s : State) : Res := sAlu2 f s fun a b => if a.slt b then b else a
def execSMaxu (f : SForm) (s : State) : Res := sAlu2 f s fun a b => if a.ult b then b else a

/-- R130. -/
def execSCmp (f : SForm) (s : State) : Res :=
  sAlu (fun f => fieldsOk (.sCmp f)) f s fun _ a b => if sCond f.op.func.toNat a b then 1 else 0

def execSSel (f : SForm) (s : State) : Res := sAlu sPlain f s fun old a b => if old ≠ 0 then a else b

/-- R131. -/
def execSBfx (f : SForm) (s : State) : Res :=
  sAlu (fun f => fieldsOk (.sBfx f)) f s fun _ a b => sBfxV (f.op.func.getLsbD 0) a b
def execSBfi (f : SForm) (s : State) : Res := sAlu sPlain f s sBfiV

/-- R135: a + (b << FUNC[1:0]). -/
def execSLea (f : SForm) (s : State) : Res :=
  sAlu (fun f => fieldsOk (.sLea f)) f s fun _ a b => a + (b <<< (f.op.func.toNat % 4))

/-- R135: the address of the instruction's own S word is the base. -/
def execSLeaPc (f : SForm) (s : State) : Res :=
  local1 (sLen f) s fun c => do
    c.sCheck (fieldsOk (.sLeaPc f)) [f.sd.toNat]
    pure (c.g.writeS c.gg f.sd.toNat (c.gg.pc + (f.op.value c.g <<< (f.op.func.toNat % 4))))

/-- R132: reads a lane whether or not it is active; a lane at or above the width gives 0. -/
def execSGetlane (f : SForm) (s : State) : Res :=
  local1 (sLen f) s fun c => do
    let imm := ((SOp.word? f.op).getD 0).toNat
    let lsel := nbits imm 13 1 == 1
    let v := nbits imm 0 7
    need (fieldsOk (.sGetlane f) && c.gg.pfx.isEmpty) .illegalOperand
    need (c.sregsOk (f.sd.toNat :: (if lsel then [f.sa.toNat] else [])) && v < c.g.ident.nr) .regRange
    let lane := if lsel then (c.g.readS f.sa.toNat).toNat % 32 else nbits imm 8 5
    let x := if lane < c.g.ident.width then (c.g.lane lane).vreg v else 0
    pure (c.g.writeS c.gg f.sd.toNat (zx64 x))

/-- R133. -/
def execSRdsr (f : SForm) (s : State) : Res :=
  local1 (sLen f) s fun c => do
    c.sCheck (fieldsOk (.sRdsr f)) [f.sd.toNat]
    pure (c.g.writeS c.gg f.sd.toNat (c.special ((srSel f).getD 0)))

/-- A new FMT for the slices of the gang, after the checks of R27. -/
def Cx.putFmt (c : Cx) (v : Word) : Except Tq Group :=
  match fmtCheck c.g.ident.k v with
  | some t => .error { code := t }
  | none => .ok (c.g.modGang c.gg.id fun x => { x with fmt := v })

/-- R37, R133: a write to FMT or FLAGS that sets a reserved bit traps ILLEGAL_OPERAND. -/
def execSWrsr (f : SForm) (s : State) : Res :=
  local1 (sLen f) s fun c => do
    c.sCheck (fieldsOk (.sWrsr f)) [f.sa.toNat]
    let a := c.g.readS f.sa.toNat
    need (hi32 a == 0) .illegalOperand
    if srSel f = some 0 then c.putFmt (lo32 a)
    else
      need (fld (lo32 a) 10 22 == 0) .illegalOperand
      pure { c.g with flags := lo32 a }

/-- R38: the draw counter of every active lane. -/
def execDrawbaseWrite (f : SForm) (s : State) : Res :=
  local1 (sLen f) s fun c => do
    c.sCheck (fieldsOk (.drawbaseWrite f)) [f.sa.toNat]
    let a := c.g.readS f.sa.toNat
    need (hi32 a == 0) .illegalOperand
    pure (c.g.modLanes c.lanes fun x => { x with draw := lo32 a })

/-- R133: a masked write of FMT. -/
def execSSetfmt (f : SForm) (s : State) : Res :=
  local1 (sLen f) s fun c => do
    c.sCheck (fieldsOk (.sSetfmt f)) (f.sa.toNat :: f.op.regs)
    let m := lo32 (c.g.readS f.sa.toNat)
    c.putFmt ((c.gg.fmt &&& ~~~m) ||| (lo32 (f.op.value c.g) &&& m))

def execSGetfmt (f : SForm) (s : State) : Res :=
  local1 (sLen f) s fun c => do
    c.sCheck (fieldsOk (.sGetfmt f)) [f.sd.toNat]
    pure (c.g.writeS c.gg f.sd.toNat (zx64 c.gg.fmt))

end Sys2Proof.Machine
end

