-- ==== Sys2Proof/Machine/Dispatch.lean ====
section
/-! DEFINITION. What each instruction does: one arm for each constructor of `Instr`. -/
namespace Sys2Proof.Machine
def exec (i : Instr) (s : State) : Host.Outcome State Fault Refusal :=
  match i with
  | .nop f => Sys2Proof.Machine.execNop f s
  | .sMov f => Sys2Proof.Machine.execSMov f s
  | .sMovk f => Sys2Proof.Machine.execSMovk f s
  | .sAdd f => Sys2Proof.Machine.execSAdd f s
  | .sSub f => Sys2Proof.Machine.execSSub f s
  | .sMul f => Sys2Proof.Machine.execSMul f s
  | .sMulhu f => Sys2Proof.Machine.execSMulhu f s
  | .sMulhs f => Sys2Proof.Machine.execSMulhs f s
  | .sDivu f => Sys2Proof.Machine.execSDivu f s
  | .sDivs f => Sys2Proof.Machine.execSDivs f s
  | .sRemu f => Sys2Proof.Machine.execSRemu f s
  | .sRems f => Sys2Proof.Machine.execSRems f s
  | .sAnd f => Sys2Proof.Machine.execSAnd f s
  | .sOr f => Sys2Proof.Machine.execSOr f s
  | .sXor f => Sys2Proof.Machine.execSXor f s
  | .sAndn f => Sys2Proof.Machine.execSAndn f s
  | .sShl f => Sys2Proof.Machine.execSShl f s
  | .sShr f => Sys2Proof.Machine.execSShr f s
  | .sSar f => Sys2Proof.Machine.execSSar f s
  | .sPopc f => Sys2Proof.Machine.execSPopc f s
  | .sClz f => Sys2Proof.Machine.execSClz f s
  | .sCtz f => Sys2Proof.Machine.execSCtz f s
  | .sMins f => Sys2Proof.Machine.execSMins f s
  | .sMinu f => Sys2Proof.Machine.execSMinu f s
  | .sMaxs f => Sys2Proof.Machine.execSMaxs f s
  | .sMaxu f => Sys2Proof.Machine.execSMaxu f s
  | .sCmp f => Sys2Proof.Machine.execSCmp f s
  | .sSel f => Sys2Proof.Machine.execSSel f s
  | .sBfx f => Sys2Proof.Machine.execSBfx f s
  | .sBfi f => Sys2Proof.Machine.execSBfi f s
  | .sLea f => Sys2Proof.Machine.execSLea f s
  | .sLeaPc f => Sys2Proof.Machine.execSLeaPc f s
  | .sGetlane f => Sys2Proof.Machine.execSGetlane f s
  | .sRdsr f => Sys2Proof.Machine.execSRdsr f s
  | .sWrsr f => Sys2Proof.Machine.execSWrsr f s
  | .sSetfmt f => Sys2Proof.Machine.execSSetfmt f s
  | .sGetfmt f => Sys2Proof.Machine.execSGetfmt f s
  | .drawbaseWrite f => Sys2Proof.Machine.execDrawbaseWrite f s
  | .vMov f => Sys2Proof.Machine.execVMov f s
  | .vSetlane f => Sys2Proof.Machine.execVSetlane f s
  | .vIota f => Sys2Proof.Machine.execVIota f s
  | .vAdd f => Sys2Proof.Machine.execVAdd f s
  | .vSub f => Sys2Proof.Machine.execVSub f s
  | .vMul f => Sys2Proof.Machine.execVMul f s
  | .vMulhu f => Sys2Proof.Machine.execVMulhu f s
  | .vMulhs f => Sys2Proof.Machine.execVMulhs f s
  | .vMad f => Sys2Proof.Machine.execVMad f s
  | .vAnd f => Sys2Proof.Machine.execVAnd f s
  | .vOr f => Sys2Proof.Machine.execVOr f s
  | .vXor f => Sys2Proof.Machine.execVXor f s
  | .vAndn f => Sys2Proof.Machine.execVAndn f s
  | .vShl f => Sys2Proof.Machine.execVShl f s
  | .vShr f => Sys2Proof.Machine.execVShr f s
  | .vSar f => Sys2Proof.Machine.execVSar f s
  | .vMins f => Sys2Proof.Machine.execVMins f s
  | .vMinu f => Sys2Proof.Machine.execVMinu f s
  | .vMaxs f => Sys2Proof.Machine.execVMaxs f s
  | .vMaxu f => Sys2Proof.Machine.execVMaxu f s
  | .vIcmp f => Sys2Proof.Machine.execVIcmp f s
  | .vSel f => Sys2Proof.Machine.execVSel f s
  | .vPopc f => Sys2Proof.Machine.execVPopc f s
  | .vClz f => Sys2Proof.Machine.execVClz f s
  | .vBfx f => Sys2Proof.Machine.execVBfx f s
  | .vBfi f => Sys2Proof.Machine.execVBfi f s
  | .vAdd64 f => Sys2Proof.Machine.execVAdd64 f s
  | .vSub64 f => Sys2Proof.Machine.execVSub64 f s
  | .vShfl f => Sys2Proof.Machine.execVShfl f s
  | .vShflx f => Sys2Proof.Machine.execVShflx f s
  | .vIred f => Sys2Proof.Machine.execVIred f s
  | .vIscan f => Sys2Proof.Machine.execVIscan f s
  | .vFadd f => Sys2Proof.Machine.execVFadd f s
  | .vFsub f => Sys2Proof.Machine.execVFsub f s
  | .vFmul f => Sys2Proof.Machine.execVFmul f s
  | .vFfma f => Sys2Proof.Machine.execVFfma f s
  | .vFmin f => Sys2Proof.Machine.execVFmin f s
  | .vFmax f => Sys2Proof.Machine.execVFmax f s
  | .vFdiv f => Sys2Proof.Machine.execVFdiv f s
  | .vFsqrt f => Sys2Proof.Machine.execVFsqrt f s
  | .vFrsq f => Sys2Proof.Machine.execVFrsq f s
  | .vFrcp f => Sys2Proof.Machine.execVFrcp f s
  | .vFexp2 f => Sys2Proof.Machine.execVFexp2 f s
  | .vFlog2 f => Sys2Proof.Machine.execVFlog2 f s
  | .vFsinpi f => Sys2Proof.Machine.execVFsinpi f s
  | .vFcospi f => Sys2Proof.Machine.execVFcospi f s
  | .vFtanh f => Sys2Proof.Machine.execVFtanh f s
  | .vFround f => Sys2Proof.Machine.execVFround f s
  | .vFcmp f => Sys2Proof.Machine.execVFcmp f s
  | .vFclass f => Sys2Proof.Machine.execVFclass f s
  | .vFcvt f => Sys2Proof.Machine.execVFcvt f s
  | .vCvtfi f => Sys2Proof.Machine.execVCvtfi f s
  | .vCvtif f => Sys2Proof.Machine.execVCvtif f s
  | .vQpack f => Sys2Proof.Machine.execVQpack f s
  | .vQunpack f => Sys2Proof.Machine.execVQunpack f s
  | .vMxquant f => Sys2Proof.Machine.execVMxquant f s
  | .vMxdeq f => Sys2Proof.Machine.execVMxdeq f s
  | .vFdot2 f => Sys2Proof.Machine.execVFdot2 f s
  | .vFred f => Sys2Proof.Machine.execVFred f s
  | .vFscan f => Sys2Proof.Machine.execVFscan f s
  | .vRndu f => Sys2Proof.Machine.execVRndu f s
  | .vRndn f => Sys2Proof.Machine.execVRndn f s
  | .vRndg f => Sys2Proof.Machine.execVRndg f s
  | .vArgmax f => Sys2Proof.Machine.execVArgmax f s
  | .vDvar f => Sys2Proof.Machine.execVDvar f s
  | .vDset f => Sys2Proof.Machine.execVDset f s
  | .vDgetd f => Sys2Proof.Machine.execVDgetd f s
  | .vDsetd f => Sys2Proof.Machine.execVDsetd f s
  | .vDclr f => Sys2Proof.Machine.execVDclr f s
  | .vDnoise f => Sys2Proof.Machine.execVDnoise f s
  | .vDchk f => Sys2Proof.Machine.execVDchk f s
  | .pfxDual p => Sys2Proof.Machine.execPfxDual p s
  | .pfxMom p => Sys2Proof.Machine.execPfxMom p s
  | .pfxPt p => Sys2Proof.Machine.execPfxPt p s
  | .pfxSr p => Sys2Proof.Machine.execPfxSr p s
  | .vLd m => Sys2Proof.Machine.execVLd m s
  | .vSt m => Sys2Proof.Machine.execVSt m s
  | .vLdsp m => Sys2Proof.Machine.execVLdsp m s
  | .vStsp m => Sys2Proof.Machine.execVStsp m s
  | .sLd m => Sys2Proof.Machine.execSLd m s
  | .sSt m => Sys2Proof.Machine.execSSt m s
  | .vLdl m => Sys2Proof.Machine.execVLdl m s
  | .vStl m => Sys2Proof.Machine.execVStl m s
  | .vAtom m => Sys2Proof.Machine.execVAtom m s
  | .vCas m => Sys2Proof.Machine.execVCas m s
  | .vRed m => Sys2Proof.Machine.execVRed m s
  | .sAtom m => Sys2Proof.Machine.execSAtom m s
  | .sCas m => Sys2Proof.Machine.execSCas m s
  | .chunkTake m => Sys2Proof.Machine.execChunkTake m s
  | .monArm m => Sys2Proof.Machine.execMonArm m s
  | .monWait m => Sys2Proof.Machine.execMonWait m s
  | .fence m => Sys2Proof.Machine.execFence m s
  | .txBegin m => Sys2Proof.Machine.execTxBegin m s
  | .txEnd m => Sys2Proof.Machine.execTxEnd m s
  | .txAbort m => Sys2Proof.Machine.execTxAbort m s
  | .txStat m => Sys2Proof.Machine.execTxStat m s
  | .keyWait m => Sys2Proof.Machine.execKeyWait m s
  | .keyPass m => Sys2Proof.Machine.execKeyPass m s
  | .tagSet m => Sys2Proof.Machine.execTagSet m s
  | .tagGet m => Sys2Proof.Machine.execTagGet m s
  | .tagGetWait m => Sys2Proof.Machine.execTagGetWait m s
  | .prefetch m => Sys2Proof.Machine.execPrefetch m s
  | .cacheRetain m => Sys2Proof.Machine.execCacheRetain m s
  | .cacheUnpin m => Sys2Proof.Machine.execCacheUnpin m s
  | .cacheOpIfetch m => Sys2Proof.Machine.execCacheOpIfetch m s
  | .cacheOpEvl1 m => Sys2Proof.Machine.execCacheOpEvl1 m s
  | .cacheOpEvl2 m => Sys2Proof.Machine.execCacheOpEvl2 m s
  | .mxCrew x => Sys2Proof.Machine.execMxCrew x s
  | .mxZero x => Sys2Proof.Machine.execMxZero x s
  | .mxMma x => Sys2Proof.Machine.execMxMma x s
  | .mxMmad x => Sys2Proof.Machine.execMxMmad x s
  | .mxMmac x => Sys2Proof.Machine.execMxMmac x s
  | .mxMma64 x => Sys2Proof.Machine.execMxMma64 x s
  | .mxLdc x => Sys2Proof.Machine.execMxLdc x s
  | .mxLdcVar x => Sys2Proof.Machine.execMxLdcVar x s
  | .mxLdcB x => Sys2Proof.Machine.execMxLdcB x s
  | .mxLdcF64 x => Sys2Proof.Machine.execMxLdcF64 x s
  | .mxStc x => Sys2Proof.Machine.execMxStc x s
  | .mxStat x => Sys2Proof.Machine.execMxStat x s
  | .cpLoad c => Sys2Proof.Machine.execCpLoad c s
  | .cpStore c => Sys2Proof.Machine.execCpStore c s
  | .cpGather c => Sys2Proof.Machine.execCpGather c s
  | .cpXfer c => Sys2Proof.Machine.execCpXfer c s
  | .cpFill c => Sys2Proof.Machine.execCpFill c s
  | .cpClose v => Sys2Proof.Machine.execCpClose v s
  | .cpWait v => Sys2Proof.Machine.execCpWait v s
  | .collStart c => Sys2Proof.Machine.execCollStart c s
  | .launch c => Sys2Proof.Machine.execLaunch c s
  | .evtAdd v => Sys2Proof.Machine.execEvtAdd v s
  | .br off => Sys2Proof.Machine.execBr off s
  | .brc sr cond off => Sys2Proof.Machine.execBrc sr cond off s
  | .brm rsv cond off => Sys2Proof.Machine.execBrm rsv cond off s
  | .jmp t lr link rsv => Sys2Proof.Machine.execJmp t lr link rsv s
  | .call lr off => Sys2Proof.Machine.execCall lr off s
  | .ret t rsv => Sys2Proof.Machine.execRet t rsv s
  | .part m h all toff => Sys2Proof.Machine.execPart m h all toff s
  | .regang rsv => Sys2Proof.Machine.execRegang rsv s
  | .bar num roles arrive rsv => Sys2Proof.Machine.execBar num roles arrive rsv s
  | .wbar num arrive rsv => Sys2Proof.Machine.execWbar num arrive rsv s
  | .yield rsv => Sys2Proof.Machine.execYield rsv s
  | .exit rsv => Sys2Proof.Machine.execExit rsv s
  | .trap code rsv => Sys2Proof.Machine.execTrap code rsv s
  | .brk code rsv => Sys2Proof.Machine.execBrk code rsv s
  | .sysRdcr sd sel rsv => Sys2Proof.Machine.execSysRdcr sd sel rsv s
  | .sysWrcr sa sel rsv => Sys2Proof.Machine.execSysWrcr sa sel rsv s
  | .sysEret rsv => Sys2Proof.Machine.execSysEret rsv s
  | .sysTlbiAll sa rsv => Sys2Proof.Machine.execSysTlbiAll sa rsv s
  | .sysTlbiPage sa rsv => Sys2Proof.Machine.execSysTlbiPage sa rsv s
  | .sysTlbiCore sa rsv => Sys2Proof.Machine.execSysTlbiCore sa rsv s
  | .sysReplay rsv => Sys2Proof.Machine.execSysReplay rsv s
  | .sysFltpop sd rsv => Sys2Proof.Machine.execSysFltpop sd rsv s
  | .sysCtxsv sd sa sb rsv => Sys2Proof.Machine.execSysCtxsv sd sa sb rsv s
  | .sysCtxld sd sa rsv => Sys2Proof.Machine.execSysCtxld sd sa rsv s
  | .sysPreempt sa sb force rsv => Sys2Proof.Machine.execSysPreempt sa sb force rsv s
  | .sysIpi sa rsv => Sys2Proof.Machine.execSysIpi sa rsv s
  | .sysHalt rsv => Sys2Proof.Machine.execSysHalt rsv s
  | .clauseIssueSelect d core quad => Sys2Proof.Machine.execClauseIssueSelect d core quad s
  | .clauseFetch gid gang => Sys2Proof.Machine.execClauseFetch gid gang s
  | .longLatencyComplete gid op word => Sys2Proof.Machine.execLongLatencyComplete gid op word s
  | .faultSplitRejoin gid split => Sys2Proof.Machine.execFaultSplitRejoin gid split s
  | .monWaitWake gid gang => Sys2Proof.Machine.execMonWaitWake gid gang s
  | .monWaitDeadline gid gang => Sys2Proof.Machine.execMonWaitDeadline gid gang s
  | .txCommit gid lane => Sys2Proof.Machine.execTxCommit gid lane s
  | .lockGrant d => Sys2Proof.Machine.execLockGrant d s
  | .keyedOpPerform gid => Sys2Proof.Machine.execKeyedOpPerform gid s
  | .keyRoundPass team => Sys2Proof.Machine.execKeyRoundPass team s
  | .tagWaitSatisfy gid gang lane => Sys2Proof.Machine.execTagWaitSatisfy gid gang lane s
  | .crewOpExecute op => Sys2Proof.Machine.execCrewOpExecute op s
  | .copyCommandExecute gid cmd => Sys2Proof.Machine.execCopyCommandExecute gid cmd s
  | .batchComplete gid => Sys2Proof.Machine.execBatchComplete gid s
  | .collectiveExecute coll => Sys2Proof.Machine.execCollectiveExecute coll s
  | .collectiveMessageReceive d comm seq rank data => Sys2Proof.Machine.execCollectiveMessageReceive d comm seq rank data s
  | .collectiveRankTimeout coll => Sys2Proof.Machine.execCollectiveRankTimeout coll s
  | .peerLaunchAppend d => Sys2Proof.Machine.execPeerLaunchAppend d s
  | .wbarRelease n => Sys2Proof.Machine.execWbarRelease n s
  | .heldGangHandlerEntry gid => Sys2Proof.Machine.execHeldGangHandlerEntry gid s
  | .poisonDelivery gid gang => Sys2Proof.Machine.execPoisonDelivery gid gang s
  | .pageWalk d core va write fetch priv lostRace => Sys2Proof.Machine.execPageWalk d core va write fetch priv lostRace s
  | .faultReplay d v tr => Sys2Proof.Machine.execFaultReplay d v tr s
  | .interruptStatusWrite d v tr => Sys2Proof.Machine.execInterruptStatusWrite d v tr s
  | .interruptEnableWrite d v tr => Sys2Proof.Machine.execInterruptEnableWrite d v tr s
  | .faultBufferStatusWrite d v tr => Sys2Proof.Machine.execFaultBufferStatusWrite d v tr s
  | .dspadGrantWrite d n v tr => Sys2Proof.Machine.execDspadGrantWrite d n v tr s
  | .launchAnchorWrite d n v tr => Sys2Proof.Machine.execLaunchAnchorWrite d n v tr s
  | .wbarMemberWrite d core v tr => Sys2Proof.Machine.execWbarMemberWrite d core v tr s
  | .wbarBindWrite d n v tr => Sys2Proof.Machine.execWbarBindWrite d n v tr s
  | .powerLimitWrite d v tr => Sys2Proof.Machine.execPowerLimitWrite d v tr s
  | .freqReq d v tr => Sys2Proof.Machine.execFreqReq d v tr s
  | .linkReq d v tr => Sys2Proof.Machine.execLinkReq d v tr s
  | .powerRequestComplete d => Sys2Proof.Machine.execPowerRequestComplete d s
  | .controlRegisterWrite d off v tr => Sys2Proof.Machine.execControlRegisterWrite d off v tr s
  | .listWatchWake d n => Sys2Proof.Machine.execListWatchWake d n s
  | .recordTake d n => Sys2Proof.Machine.execRecordTake d n s
  | .conditionTest launch => Sys2Proof.Machine.execConditionTest launch s
  | .conditionPoll launch => Sys2Proof.Machine.execConditionPoll launch s
  | .teamDispatch d => Sys2Proof.Machine.execTeamDispatch d s
  | .dispatchWaitTimeout launch => Sys2Proof.Machine.execDispatchWaitTimeout launch s
  | .islandPowerUp d island => Sys2Proof.Machine.execIslandPowerUp d island s
  | .launchComplete launch => Sys2Proof.Machine.execLaunchComplete launch s
  | .preemptDrainDeadline d => Sys2Proof.Machine.execPreemptDrainDeadline d s
  | .preemptDiscard d => Sys2Proof.Machine.execPreemptDiscard d s
  | .preemptSave d => Sys2Proof.Machine.execPreemptSave d s
  | .linkDown l => Sys2Proof.Machine.execLinkDown l s
  | .linkUp l => Sys2Proof.Machine.execLinkUp l s
  | .flitRetry l => Sys2Proof.Machine.execFlitRetry l s
  | .thermalLimitCrossing d e => Sys2Proof.Machine.execThermalLimitCrossing d e s
  | .powerClockAdjust d steps => Sys2Proof.Machine.execPowerClockAdjust d steps s
  | .telemetryUpdate d => Sys2Proof.Machine.execTelemetryUpdate d s
  | .patrolScrub d f => Sys2Proof.Machine.execPatrolScrub d f s
  | .wearRemap d pa => Sys2Proof.Machine.execWearRemap d pa s
  | .uncorrectableError d site => Sys2Proof.Machine.execUncorrectableError d site s
  | .correctableError d cls => Sys2Proof.Machine.execCorrectableError d cls s
  | .functionReset d held memOff => Sys2Proof.Machine.execFunctionReset d held memOff s
  | .firmwareImageVerify image version => Sys2Proof.Machine.execFirmwareImageVerify image version s
  | .spdmRequest d req => Sys2Proof.Machine.execSpdmRequest d req s
  | .contextKeySlotUpdate d slot fill => Sys2Proof.Machine.execContextKeySlotUpdate d slot fill s
  | .tdispStateChange d t => Sys2Proof.Machine.execTdispStateChange d t s
  | .bar2Access d off wr bytes => Sys2Proof.Machine.execBar2Access d off wr bytes s
  | .remoteMemoryRequest pa r => Sys2Proof.Machine.execRemoteMemoryRequest pa r s
  | .packagePowerOnReset => Sys2Proof.Machine.execPackagePowerOnReset s
  | .cxlMemRequest pa wr bytes => Sys2Proof.Machine.execCxlMemRequest pa wr bytes s
  | .cxlCacheSnoop pa data => Sys2Proof.Machine.execCxlCacheSnoop pa data s
end Sys2Proof.Machine
end

