-- ==== Sys2Proof/WellFormed.lean ====
section
/-! DEFINITION. Well-formed instructions: the words that follow are those that the fields call for (R83, R87), the constructor
is the one its selecting field names (R135, R156, R205, R232, R249), and every rank-3 field check of the words holds. The
meanings test the field checks themselves and trap; nothing in the machine assumes that an instruction is well-formed. -/

namespace Sys2Proof

/-- The E word and the immediate word stand where R83 has them. -/
def vShape (always : Bool) (f : VForm) : Bool :=
  f.e.isSome == needsE always f.a f.b && f.imm.isSome == needsImm f.a f.b f.e

/-- The constructor and the words agree. -/
def shapeOk : Instr → Bool
  | .vMov f | .vIota f | .vAdd f | .vSub f | .vMul f | .vMulhu f | .vMulhs f | .vAnd f | .vOr f | .vXor f
  | .vAndn f | .vShl f | .vShr f | .vSar f | .vMins f | .vMinu f | .vMaxs f | .vMaxu f | .vPopc f | .vClz f
  | .vAdd64 f | .vSub64 f | .vShflx f | .vRndu f | .vRndn f | .vRndg f =>
    vShape false f
  | .vSetlane f | .vMad f | .vIcmp f | .vSel f | .vBfx f | .vBfi f | .vShfl f | .vIred f | .vIscan f | .vFadd f
  | .vFsub f | .vFmul f | .vFfma f | .vFmin f | .vFmax f | .vFdiv f | .vFsqrt f | .vFrsq f | .vFrcp f
  | .vFexp2 f | .vFlog2 f | .vFsinpi f | .vFcospi f | .vFtanh f | .vFround f | .vFcmp f | .vFclass f | .vFcvt f
  | .vCvtfi f | .vCvtif f | .vQpack f | .vQunpack f | .vMxquant f | .vMxdeq f | .vFdot2 f | .vFred f
  | .vFscan f | .vArgmax f | .vDvar f | .vDset f | .vDgetd f | .vDsetd f | .vDclr f | .vDnoise f | .vDchk f =>
    vShape true f
  | .cacheOpIfetch m => m.tag == 0
  | .cacheOpEvl1 m => m.tag == 1
  | .cacheOpEvl2 m => m.tag == 2
  | .nop _ | .sMov _ | .sMovk _ | .sAdd _ | .sSub _ | .sMul _ | .sMulhu _ | .sMulhs _ | .sDivu _ | .sDivs _
  | .sRemu _ | .sRems _ | .sAnd _ | .sOr _ | .sXor _ | .sAndn _ | .sShl _ | .sShr _ | .sSar _ | .sPopc _
  | .sClz _ | .sCtz _ | .sMins _ | .sMinu _ | .sMaxs _ | .sMaxu _ | .sCmp _ | .sSel _ | .sBfx _ | .sBfi _
  | .sLea _ | .sLeaPc _ | .sGetlane _ | .sRdsr _ | .sWrsr _ | .sSetfmt _ | .sGetfmt _ | .drawbaseWrite _
  | .pfxDual _ | .pfxMom _ | .pfxPt _ | .pfxSr _ | .vLd _ | .vSt _ | .vLdsp _ | .vStsp _ | .sLd _ | .sSt _
  | .vLdl _ | .vStl _ | .vAtom _ | .vCas _ | .vRed _ | .sAtom _ | .sCas _ | .chunkTake _ | .monArm _
  | .monWait _ | .fence _ | .txBegin _ | .txEnd _ | .txAbort _ | .txStat _ | .keyWait _ | .keyPass _
  | .tagSet _ | .tagGet _ | .tagGetWait _ | .prefetch _ | .cacheRetain _ | .cacheUnpin _ | .mxCrew _
  | .mxZero _ | .mxMma _ | .mxMmad _ | .mxMmac _ | .mxMma64 _ | .mxLdc _ | .mxLdcVar _ | .mxLdcB _
  | .mxLdcF64 _ | .mxStc _ | .mxStat _ | .cpLoad _ | .cpStore _ | .cpGather _ | .cpXfer _ | .cpFill _
  | .cpClose _ | .cpWait _ | .collStart _ | .launch _ | .evtAdd _ | .br _ | .brc .. | .brm .. | .jmp ..
  | .call .. | .ret .. | .part .. | .regang _ | .bar .. | .wbar .. | .yield _ | .exit _ | .trap .. | .brk ..
  | .sysRdcr .. | .sysWrcr .. | .sysEret _ | .sysTlbiAll .. | .sysTlbiPage .. | .sysTlbiCore .. | .sysReplay _
  | .sysFltpop .. | .sysCtxsv .. | .sysCtxld .. | .sysPreempt .. | .sysIpi .. | .sysHalt _ => true
  | .clauseIssueSelect .. | .clauseFetch .. | .longLatencyComplete .. | .faultSplitRejoin .. | .monWaitWake ..
  | .monWaitDeadline .. | .txCommit .. | .lockGrant _ | .keyedOpPerform _ | .keyRoundPass _
  | .tagWaitSatisfy .. | .crewOpExecute _ | .copyCommandExecute .. | .batchComplete _ | .collectiveExecute _
  | .collectiveMessageReceive .. | .collectiveRankTimeout _ | .peerLaunchAppend _ | .wbarRelease _
  | .heldGangHandlerEntry _ | .poisonDelivery .. | .pageWalk .. | .faultReplay .. | .interruptStatusWrite ..
  | .interruptEnableWrite .. | .faultBufferStatusWrite .. | .dspadGrantWrite .. | .launchAnchorWrite ..
  | .wbarMemberWrite .. | .wbarBindWrite .. | .powerLimitWrite .. | .freqReq .. | .linkReq ..
  | .powerRequestComplete _ | .controlRegisterWrite .. | .listWatchWake .. | .recordTake .. | .conditionTest _
  | .conditionPoll _ | .teamDispatch _ | .dispatchWaitTimeout _ | .islandPowerUp .. | .launchComplete _
  | .preemptDrainDeadline _ | .preemptDiscard _ | .preemptSave _ | .linkDown _ | .linkUp _ | .flitRetry _
  | .thermalLimitCrossing .. | .powerClockAdjust .. | .telemetryUpdate _ | .patrolScrub .. | .wearRemap ..
  | .uncorrectableError .. | .correctableError .. | .functionReset .. | .firmwareImageVerify ..
  | .spdmRequest .. | .contextKeySlotUpdate .. | .tdispStateChange .. | .bar2Access ..
  | .remoteMemoryRequest .. | .packagePowerOnReset | .cxlMemRequest .. | .cxlCacheSnoop .. => true

/-- An instruction that its words encode, not an event of the machine. -/
def isWord (i : Instr) : Bool := !(encode i).isEmpty

/-- Well-formed. -/
def wellFormed (i : Instr) : Bool := shapeOk i && Machine.fieldsOk i

end Sys2Proof
end

