-- ==== Sys2Proof/Machine/Run.lean ====
section
/-! DEFINITION. What a step does: time passes, and then an event of the agenda, the next word of the gang that issues, or, with
an empty agenda and no such gang, the first event that changes the state, in a fixed order (log 4, log 5). -/

namespace Sys2Proof.Machine

/-! ## Time (R7, R37, R363, log 4) -/

/-- Cycles that an island runs in this step; an island that is off runs none. -/
def Island.cycles (i : Island) (tick die k : Nat) : Nat := if i.on then Config.clockStep tick die k else 0

def Die.runClocks (d : Die) (tick die : Nat) : Die :=
  { d with power := { d.power with
      islands := d.power.islands.zipIdx.map fun x => { x.1 with clock := x.1.clock + dw (x.1.cycles tick die x.2) } } }

/-- P of a team (R313). -/
def State.runTeam (s : State) (t : Team) : Team :=
  let d := s.die t.die
  let k := d.islandOf t.core
  { t with progress := t.progress + ((d.power.islands[k]?).map fun i => i.cycles s.tick (dieNum t.die) k).getD 0 }

/-- A free amount of time passes. -/
def State.passTime (s : State) : State :=
  { s with
    tick := s.tick + 1
    timeNs := s.timeNs + dw (Config.timeStep s.tick)
    teams := s.teams.map s.runTeam
    cd0 := s.cd0.runClocks s.tick 0
    cd1 := s.cd1.runClocks s.tick 1 }

/-! ## A word of the focused gang -/

/-- Lane-confined opcodes (R18): vector ALU instructions that read no other lane and write no scalar register, the prefixes, and
the lane-level memory instructions. -/
def opConfined (op : Nat) : Bool :=
  (0x30 ≤ op && op ≤ 0x76 && !([0x44, 0x4C, 0x4D, 0x4E, 0x4F, 0x60, 0x65, 0x66, 0x67, 0x68, 0x6A, 0x6B, 0x6F, 0x76].contains op)) ||
  (0x80 ≤ op && op ≤ 0x83) || (0x86 ≤ op && op ≤ 0x8A) || [0x93, 0x94, 0x97, 0x98, 0x99].contains op ||
  (0xD0 ≤ op && op ≤ 0xD3)

/-- `tag.get` in its predicated forms is not lane-confined. -/
def instrConfined (i : Instr) : Bool :=
  match (encode i).head? with
  | some w => opConfined (opcodeOf w) && (match i with | .tagGetWait _ => false | _ => true)
  | none => false

/-- A word whose selecting field has no row is lane-confined by its opcode; such fields are those of instructions that are not
(`cache.op`, `sys.tlbi`, Tables 7.1 and 5.5). -/
def wordConfined (ws : List Word) : Bool := (ws.head?).any fun w => opConfined (opcodeOf w)

/-- Issue the instruction at the gang's pc. Slices of a fault split stop at their catch-up point (R18); a selecting field
with no row is a reserved value (R5). -/
def Cx.issueWord (c : Cx) : Res :=
  match decode c.gg.restWords with
  | .bad _ => if c.gg.split.isSome && !wordConfined c.gg.restWords then c.park .catchUp else c.trap { code := .illegalOperand }
  | .ok i _ => if c.gg.split.isSome && !instrConfined i then c.park .catchUp else exec i c.s

/-- The gang that issues: focused, inside a clause that it has begun, and not parked. -/
def State.runner (s : State) : Option Cx :=
  match s.cx? with
  | some c => if c.gg.clause.isSome && c.gg.begun && c.gg.park.isNone && c.powered && !c.doubleHeld then some c else none
  | none => none

/-! ## Events by themselves (log 5) -/

/-- Events that the gangs of a group may bring. -/
def Group.gangEvents (g : Group) : List Instr :=
  let gid := g.ident.id
  g.gangs.flatMap fun x =>
    [.poisonDelivery gid x.id] ++ (x.split.toList.map fun k => .faultSplitRejoin gid k) ++
    (match x.park with
     | some (.mon _) => [.monWaitWake gid x.id, .monWaitDeadline gid x.id]
     | some (.tag w) => w.todo.map fun t => .tagWaitSatisfy gid x.id t.1
     | _ => [])

/-- Events of a group's operations. -/
def Group.opEvents (g : Group) : List Instr :=
  let gid := g.ident.id
  [.heldGangHandlerEntry gid] ++ g.gangEvents ++ (g.pend.map fun o => .longLatencyComplete gid o.id none) ++
  (match g.tx.close with | some k => k.todo.map fun l => .txCommit gid l | none => []) ++
  [.keyedOpPerform gid] ++ (g.cmds.map fun k => .copyCommandExecute gid k.id) ++ [.batchComplete gid]

/-- Fetching and selecting. -/
def State.issueEvents (s : State) (g : Group) : List Instr :=
  (g.gangs.map fun x => .clauseFetch g.ident.id x.id) ++
  (match s.team? g.ident.team with | some t => [.clauseIssueSelect t.die t.core g.ident.quad] | none => [])

/-- A list whose watched NEXT word names a record. -/
def State.linked (s : State) (d : DieId) (n : Nat) : Bool :=
  let p := (s.die d).lists.getD n .reset
  p.watching && match p.cur with
    | some a => (match (s.frTr d 0 (((s.die d).ctl.anchors.getD n 0).getLsbD 2) false a 8).1 with
      | .ok pa => Mem.dword s.mem pa != 0
      | _ => true)
    | none => false

def State.dieEvents (s : State) (d : DieId) : List Instr :=
  [.lockGrant d, .peerLaunchAppend d, .preemptDrainDeadline d, .preemptDiscard d, .preemptSave d, .teamDispatch d] ++
  ((List.range 4).filter fun i => s.islandBusy d i && !((s.die d).power.islands[i]?).any (·.on)).map (Instr.islandPowerUp d) ++
  [.powerRequestComplete d] ++ (List.range 4).map (Instr.recordTake d) ++
  ((List.range 4).filter (s.linked d)).map (Instr.listWatchWake d)

/-- The order in which events come by themselves. -/
def State.ownEvents (s : State) : List Instr :=
  s.groups.flatMap Group.opEvents ++ (s.teams.map fun t => .keyRoundPass t.id) ++ (s.crewOps.map fun o => .crewOpExecute o.id) ++
  (s.colls.map fun k => .collectiveExecute k.id) ++ (List.range 64).map Instr.wbarRelease ++
  s.groups.flatMap s.issueEvents ++ (s.launches.flatMap fun l => [.launchComplete l.id, .conditionPoll l.id]) ++
  s.dieEvents .cd0 ++ s.dieEvents .cd1

/-- The event does something here. -/
def State.changes (s : State) (e : Instr) : Bool :=
  match exec e s with
  | .next t => t != s
  | _ => true

/-- The first event of its own accord, in turns: the search goes on where it stopped (R320); with none, nothing happens but that
time passes. -/
def State.ownStep (s : State) : Res :=
  let es := s.ownEvents
  let k := s.turn % max es.length 1
  let round := es.zipIdx.drop k ++ es.zipIdx.take k
  match round.find? fun e => s.changes e.1 with
  | some e => exec e.1 { s with turn := e.2 + 1 }
  | none => .next s

/-! ## One step -/

/-- The next word of the gang that issues. -/
def State.wordStep (s : State) : Option Res := s.runner.map Cx.issueWord

/-- The step after its time has passed. -/
def State.act (s : State) : Res :=
  match s.agenda with
  | some e :: rest => if isWord e then .fault .agendaNotEvent else exec e { s with agenda := rest }
  | none :: rest => ({ s with agenda := rest } : State).wordStep.getD (.next { s with agenda := rest })
  | [] => match s.wordStep with
    | some r => r
    | none => s.ownStep

end Sys2Proof.Machine
end

