-- ==== Sys2Proof/Machine/Load.lean ====
section
/-! DEFINITION. Placing one instruction so that the very next step issues it (log 6): a team whose gang stands at the first word
of a fetched clause, its pages, and the words in memory. -/

namespace Sys2Proof.Machine

/-- Class and role of a clause for an opcode; prefixes go into an ALU clause. -/
def loadClass (op : Nat) : Nat := match opClass op with | some 6 => 0 | some k => k | none => 0
def loadRole (cls : Nat) : Role := match cls with | 2 => .matrix | 3 => .copy | _ => .vector

/-- The header of a clause of n words of a class, with SET 0 for results. -/
def headerWord (n cls : Nat) : Word := wd (0xE0000000 + 16777216 * n + 2097152 * cls)

/-- A clause that ends its lanes: a CTRL header and `exit`. -/
def exitClause : List Word := [0xE1800000, 0xCB000000]

def loadBase : Nat := 0x10000

/-- The words of the clause: the instruction, and after a prefix an instruction that it prefixes (`v.mov` v0, v0). -/
def loadWords (nbits w : Nat) : List Word :=
  let ws := wordsOfBits nbits w
  let n := match decode ws with | .ok _ n => n | .bad _ => 1
  let op := opcodeOf (ws.getD 0 0)
  ws.take n ++ (if opClass op == some 6 then [0x30000000] else [])

def wordBytes (ws : List Word) : List Byte := ws.flatMap fun w => leBytes 4 w.toNat

/-- Identity pages: a root table at 0x200000 whose first entry names a table at 0x100000 whose first entry maps 1 GiB; and a clause
at address 0, the target of a transfer through registers that hold 0 (R139), except for the `sys.` instructions (opcodes 0xF0 and
up), which make none. -/
def loadMem (m : Mem) (op : Nat) (ws : List Word) : Mem :=
  let m := Mem.writeN m 0x200000 (leBytes 8 0x100001)
  let m := Mem.writeN m 0x100000 (leBytes 8 0xC03)
  let m := if op < 0xF0 then Mem.writeN m 0 (wordBytes exitClause) else m
  Mem.writeN m loadBase (wordBytes (ws ++ exitClause))

/-- The kernel header of the placed launch. -/
def loadHdr (role : Role) : KHdr where
  width := if role = .matrix then 32 else 8
  counts := [if role = .vector then 1 else 0, if role = .copy then 1 else 0, if role = .matrix then 1 else 0]
  vregs := [120, 120, 120]
  sregs := 63
  dwin := 0
  kcnt := 0
  det := false
  cluster := false
  fmt := 0
  spad := 4096
  lpm := 1024
  preload := 0
  hint := 0

def loadLaunch (id : Nat) (role : Role) : Launch :=
  { newLaunch id .cd0 0 true 0 0x80 [] with
    khdr := dw (loadBase - 64), gx := 1, gy := 1, gz := 1, hdr := loadHdr role, ready := some 0, running := true, live := [0] }

/-- The gang at the first word of its clause. -/
def loadGang (g : Gang) (h : Word) (ws : List Word) : Gang :=
  { g with pc := dw (loadBase + 4), clause := some ⟨dw loadBase, h, ws⟩, begun := true }

/-- The die that runs it. -/
def Die.forLoad (d : Die) : Die :=
  { d with
    ctl := { d.ctl with pageTableRoot := 0x200000 }
    tlb := []
    ifetch := []
    coresHeld := false
    memUp := true
    power := { d.power with islands := modAt d.power.islands 0 (fun i => { i with on := true }), hold := false } }

/-- The state with the instruction placed. -/
def State.place (s : State) (nbits w : Nat) : State :=
  let ws := loadWords nbits w
  let cls := loadClass (opcodeOf (ws.getD 0 0))
  let role := loadRole cls
  let h := headerWord ws.length cls
  let n := s.nextId
  let l := loadLaunch n role
  let g0 := l.groupInit (n + 2) (n + 1) 0 0 0 (n + 3) (0, role, 0, 120, 0)
  let g := { g0 with gangs := g0.gangs.map fun (x : Gang) => loadGang x h ws }
  let t : Team := ⟨n + 1, n, .cd0, 0, 0, 0, [], 0, 4096, ⟨[], []⟩, [], false, 0, 0⟩
  { s with
    cd0 := s.cd0.forLoad
    mem := loadMem s.mem (opcodeOf (ws.getD 0 0)) (h :: ws)
    shutdown := false
    launches := s.launches ++ [l]
    teams := s.teams ++ [t]
    groups := s.groups ++ [g]
    agenda := []
    focus := some (n + 2, n + 3)
    nextId := n + 4 }

end Sys2Proof.Machine
end

