-- ==== Sys2Proof/Machine/Step.lean ====
section
/-! DEFINITION. One step of the machine, and the placing of an instruction (log 6). -/

namespace Sys2Proof.Machine

/-- Time passes, and the machine acts. -/
def step (s : State) : Host.Outcome State Fault Refusal := s.passTime.act

/-- `s` with an instruction placed so that the next step issues it. -/
def State.withFetchWord (s : State) (nbits w : Nat) : State := s.place nbits w

end Sys2Proof.Machine
end

