-- ==== Sys2Proof/Safety.lean ====
section
/-! DEFINITION. What counts as a safe run, in the terms that statements use: a step that answers a next state, a run without a
stop, and the invariants of the state. -/

namespace Sys2Proof

open Sys2Proof.Machine

/-- A step answers a next state. -/
def Completes (r : Host.Outcome State Fault Refusal) : Prop := ∃ t, r = .next t

/-- k steps without a stop. -/
def SafeRun (k : Nat) (s : State) : Prop := Completes (core.run k s)

/-- Main memory is in its canonical form (log 2). -/
def MemCanonical (s : State) : Prop := Mem.wf s.mem = true

/-- Scratchpads are in their canonical form: bytes and marks of every team and of both dies (R193, R200, log 2). -/
def SpadsCanonical (s : State) : Prop :=
  (∀ t ∈ s.teams, Mem.wf t.spad.bytes = true ∧ Mem.wf t.spad.marks = true) ∧
  (∀ d : DieId, Mem.wf (s.die d).dspad.bytes = true ∧ Mem.wf (s.die d).dspad.marks = true)

/-- The slices of a group's gangs are pairwise disjoint (R16). -/
def GangsDisjoint (g : Group) : Prop := (g.gangs.flatMap (·.slices)).Nodup

/-! ## Frames of the instructions that touch their group alone -/

/-- What such an instruction may write: scalar registers, vector registers by lane with their gloves, bits of FLAGS, and
whether it takes draws. -/
structure Allow where
  sreg : Nat → Prop
  vreg : Nat → Nat → Prop
  flags : Word
  draws : Prop

/-- Everything of a group but its gangs and latches, outside what `a` allows, is as before. -/
structure Keeps (a : Allow) (g g' : Group) : Prop where
  ident : g'.ident = g.ident
  sreg : ∀ r, r ≠ 63 → ¬ a.sreg r → g'.s.getD r 0 = g.s.getD r 0
  em : ¬ a.sreg 63 → g'.em = g.em
  flags : ∃ f, g'.flags = g.flags ||| (f &&& a.flags)
  sb : g'.sb = g.sb
  mxcrew : g'.mxcrew = g.mxcrew
  parts : g'.parts = g.parts
  pend : (g'.pend.map fun o => (o.id, o.entry, o.waiting)) = g.pend.map fun o => (o.id, o.entry, o.waiting)
  tx : g'.tx = g.tx
  mon : g'.mon = g.mon
  trap : g'.trap = g.trap
  handler : g'.handler = g.handler
  held : g'.held = g.held
  key : g'.round = g.round ∧ g'.passed = g.passed ∧ g'.keyq = g.keyq
  copies : g'.copyCount = g.copyCount ∧ g'.lastBatch = g.lastBatch ∧ g'.batches = g.batches ∧ g'.cmds = g.cmds ∧
    g'.adds = g.adds ∧ g'.openFail = g.openFail
  arrays : g'.accs = g.accs ∧ g'.slot = g.slot ∧ g'.stats = g.stats
  lanes : g'.lanes.length = g.lanes.length
  lpm : ∀ l, (g'.lane l).lpm = (g.lane l).lpm
  exited : ∀ l, (g'.lane l).exited = (g.lane l).exited
  ltx : ∀ l, (g'.lane l).tx = (g.lane l).tx
  draw : ¬ a.draws → ∀ l, (g'.lane l).draw = (g.lane l).draw
  nregs : ∀ l, (g'.lane l).v.length = (g.lane l).v.length
  vreg : ∀ l r, ¬ a.vreg l r → (g'.lane l).vreg r = (g.lane l).vreg r ∧ (g'.lane l).gloves[r]? = (g.lane l).gloves[r]?

/-- The group `g'` after an instruction of n words of the gang: the gang has advanced and the others stand, and the rest is
as before outside what `a` allows. -/
def AluFrame (a : Allow) (g : Group) (gg : Gang) (n : Nat) (g' : Group) : Prop :=
  Keeps a g g' ∧ g'.gangs = g.gangs.map fun x => if x.id = gg.id then x.advance n else x

/-- The instruction answers the next state in which its group alone has changed, to one that satisfies P. -/
def GroupStep (s : State) (P : Group → Prop) (r : Host.Outcome State Fault Refusal) : Prop :=
  ∃ g', r = .next (s.putGroup g') ∧ P g'

/-- Nothing but scalar register r may be written. -/
def onlyS (r : Nat) : Allow := ⟨fun x => x = r, fun _ _ => False, 0, False⟩
/-- Nothing but vector register d (and d + 1 for a pair) in the lanes given may be written, with the flags given. -/
def onlyV (ls : List Nat) (d : Nat) (pair : Bool) (fl : Word) (draws : Prop) : Allow :=
  ⟨fun _ => False, fun l r => l ∈ ls ∧ (r = d ∨ (pair = true ∧ r = d + 1)), fl, draws⟩
/-- Nothing may be written. -/
def onlyNone : Allow := ⟨fun _ => False, fun _ _ => False, 0, False⟩

end Sys2Proof
end

