-- ==== Sys2Proof/Certificates/Slice0/Obligations.lean ====
section
/-! DEFINITION. The statements for the provers, from the spec's numbered rules: words and decoding, the scalar ALU, the vector
ALU, memory, transactions and the key, control flow, traps and the system instructions, crews and copies, and the events of
the machine. -/

set_option Elab.async false

namespace Sys2Proof.Claims

open Sys2Proof.Machine

/-! ## The scalar ALU -/

/-- A scalar result in SD: the instruction answers the next state in which SD holds v, and nothing but SD has changed; where
SD is `em`, the gang's live lanes take their bits from v and the other lanes keep theirs (R30). -/
def ScalarDone (s : State) (c : Cx) (n sd : Nat) (v : DWord) (r : Host.Outcome State Fault Refusal) : Prop :=
  GroupStep s (fun g' => AluFrame (onlyS sd) c.g c.gg n g' ∧
    (sd ≠ 63 → sd < c.g.s.length → g'.s.getD sd 0 = v) ∧
    (sd = 63 → g'.em = (c.g.em &&& ~~~(c.gg.mask &&& c.g.live)) ||| (lo32 v &&& (c.gg.mask &&& c.g.live)))) r

/-- Fields of an instruction with two operands and no FUNC (R87, R127). -/
def plainFields (f : SForm) : Prop :=
  match f.op with
  | .reg _ fn => fn = 0
  | .imm10 _ => True
  | .imm32 r fn _ => r = 0 ∧ fn = 0
  | .imm64 r fn _ _ => r = 0 ∧ fn = 0
/-- The same with a FUNC below n (R127). -/
def funcFields (n : Nat) (f : SForm) : Prop :=
  match f.op with
  | .reg _ fn => (fn.toNat < n)
  | .imm10 _ => True
  | .imm32 r fn _ => r = 0 ∧ (fn.toNat < n)
  | .imm64 r fn _ _ => r = 0 ∧ (fn.toNat < n)

/-- Second operand by MODE (R127). -/
def operandB (g : Machine.Group) (f : SForm) : DWord :=
  match f.op with
  | .reg sb _ => g.readS sb.toNat
  | .imm10 v => v.signExtend 64
  | .imm32 _ _ w => w.signExtend 64
  | .imm64 _ _ lo hi => hi ++ lo
def operandRegs (f : SForm) : List Nat := match f.op with | .reg sb _ => [sb.toNat] | _ => []

/-- Conditions of `s.cmp` by FUNC (R130). -/
def cmpHolds (fn : Nat) (a b : DWord) : Bool :=
  [decide (a = b), decide (a ≠ b), decide (a.toInt < b.toInt), decide (a.toInt ≥ b.toInt), decide (a.toNat < b.toNat),
   decide (a.toNat ≥ b.toNat), decide (a.toInt ≤ b.toInt), decide (a.toInt > b.toInt), decide (a.toNat ≤ b.toNat),
   decide (a.toNat > b.toNat), decide (a &&& b ≠ 0), decide (a &&& b = 0)].getD fn false

/-- Table 5.1: each instruction with its legal fields and its result from the old SD, a and b. -/
def scalarTable : List ((SForm → Instr) × (SForm → Prop) × (SForm → DWord → DWord → DWord → DWord)) :=
  [(.sAdd, plainFields, fun _ _ a b => a + b),
   (.sSub, plainFields, fun _ _ a b => a - b),
   (.sMul, plainFields, fun _ _ a b => a * b),
   (.sMulhu, plainFields, fun _ _ a b => BitVec.ofNat 64 (a.toNat * b.toNat / 2 ^ 64)),
   (.sMulhs, plainFields, fun _ _ a b => BitVec.ofInt 64 (a.toInt * b.toInt / 2 ^ 64)),
   (.sDivu, plainFields, fun _ _ a b => if b = 0 then 0xFFFFFFFFFFFFFFFF else BitVec.ofNat 64 (a.toNat / b.toNat)),
   (.sDivs, plainFields, fun _ _ a b => if b = 0 then 0xFFFFFFFFFFFFFFFF else BitVec.ofInt 64 (a.toInt.tdiv b.toInt)),
   (.sRemu, plainFields, fun _ _ a b => if b = 0 then a else BitVec.ofNat 64 (a.toNat % b.toNat)),
   (.sRems, plainFields, fun _ _ a b => if b = 0 then a else BitVec.ofInt 64 (a.toInt.tmod b.toInt)),
   (.sAnd, plainFields, fun _ _ a b => a &&& b),
   (.sOr, plainFields, fun _ _ a b => a ||| b),
   (.sXor, plainFields, fun _ _ a b => a ^^^ b),
   (.sAndn, plainFields, fun _ _ a b => a &&& ~~~b),
   (.sShl, plainFields, fun _ _ a b => a <<< (b.toNat % 64)),
   (.sShr, plainFields, fun _ _ a b => a >>> (b.toNat % 64)),
   (.sSar, plainFields, fun _ _ a b => a.sshiftRight (b.toNat % 64)),
   (.sMins, plainFields, fun _ _ a b => if a.toInt ≤ b.toInt then a else b),
   (.sMinu, plainFields, fun _ _ a b => if a.toNat ≤ b.toNat then a else b),
   (.sMaxs, plainFields, fun _ _ a b => if a.toInt ≥ b.toInt then a else b),
   (.sMaxu, plainFields, fun _ _ a b => if a.toNat ≥ b.toNat then a else b),
   (.sCmp, funcFields 12, fun f _ a b => if cmpHolds f.op.func.toNat a b then 1 else 0),
   (.sSel, plainFields, fun _ old a b => if old ≠ 0 then a else b),
   (.sBfx, funcFields 2, fun f _ a b =>
      let p := b.toNat % 64
      let w := min (b.toNat / 64 % 128) (64 - p)
      if f.op.func.toNat = 1 then (a.extractLsb' p w).signExtend 64 else (a.extractLsb' p w).zeroExtend 64),
   (.sBfi, plainFields, fun _ old a b =>
      let p := b.toNat % 64
      let w := min (b.toNat / 64 % 128) (64 - p)
      let m := ((BitVec.allOnes w).zeroExtend 64) <<< p
      (old &&& ~~~m) ||| ((a <<< p) &&& m)),
   (.sLea, funcFields 4, fun f _ a b => a + (b <<< (f.op.func.toNat % 4)))]

/-- Table 5.1, unary: the result from a. -/
def scalarUnary : List ((SForm → Instr) × (DWord → Nat)) :=
  [(.sPopc, fun a => ((List.range 64).filter fun i => a.getLsbD i).length),
   (.sClz, fun a => ((List.range 64).map fun i => 63 - i).findIdx fun i => a.getLsbD i),
   (.sCtz, fun a => (List.range 64).findIdx fun i => a.getLsbD i)]

end Sys2Proof.Claims

open Sys2Proof Sys2Proof.Machine Sys2Proof.Claims

/-- R127 to R131, R135: every scalar instruction with two operands completes with the result of Table 5.1 in SD, for every
operand form, and changes nothing else. -/
def Obligations.ScalarTwoOperandResult : Prop :=
  ∀ e ∈ scalarTable, ∀ (s : State) (c : Cx) (f : SForm), s.cx? = some c → c.gg.pfx = [] → e.2.1 f →
    (∀ r ∈ [f.sd.toNat, f.sa.toNat] ++ operandRegs f, c.sregOk r = true) →
    ScalarDone s c (encode (e.1 f)).length f.sd.toNat
      (e.2.2 f (c.g.readS f.sd.toNat) (c.g.readS f.sa.toNat) (operandB c.g f)) (exec (e.1 f) s)

namespace Sys2Proof.Claims

/-- The instruction answers the state in which the gang's group is `g`, advanced past n words, and nothing else differs. -/
def GroupDone (s : State) (c : Cx) (n : Nat) (g : Machine.Group) (r : Host.Outcome State Fault Refusal) : Prop :=
  r = .next (s.putGroup (g.advance c.gg n))

/-- A physical core in use: enabled, with fewer than 156 enabled cores below it (R347, R348). -/
def coreInUse (d : Die) (p : Nat) : Bool :=
  p < 160 && d.coreEnable.getLsbD p && ((List.range p).filter fun q => d.coreEnable.getLsbD q).length < 156

/-- The logical cluster of a physical core: how many clusters below its own hold a core in use (R348). -/
def logicalCluster (d : Die) (p : Nat) : Nat :=
  ((List.range (p / 4)).filter fun k => (List.range 160).any fun q => coreInUse d q && q / 4 == k).length

/-- TXSTATUS (Table 1.6). -/
def txStatus (t : GroupTx) : Word :=
  t.xcode ++ 0#6 ++ BitVec.ofBool t.lockQueued ++ BitVec.ofBool t.lockHeld ++ BitVec.ofNat 8 t.conflicts ++
    BitVec.ofNat 4 ((match t.cause with
      | .none => 0 | .conflict => 1 | .readLog => 2 | .writeLog => 3 | .explicit => 4 | .fault => 5 | .memError => 6
      | .forbidden => 7 | .serialPreempted => 8)) ++ 0#1 ++ BitVec.ofNat 3 t.depth

/-- The special registers and what they read (Tables 1.5 to 1.7); KEYROUND's HELD is log 26. -/
def specials (c : Cx) : List (Nat × DWord) :=
  let d := c.s.die c.die
  let phys := d.physCore c.t.core
  [(0x00, c.gg.fmt.zeroExtend 64), (0x01, c.g.flags.zeroExtend 64),
   (0x02, ((d.power.islands[phys / 40]?).map (·.clock)).getD 0), (0x03, c.s.timeNs), (0x04, c.l.launchId.zeroExtend 64),
   (0x05, c.l.seedLo.zeroExtend 64), (0x06, c.l.seedHi.zeroExtend 64), (0x07, BitVec.ofNat 64 c.t.teamId),
   (0x08, BitVec.ofNat 64 c.g.ident.idx),
   (0x09, match c.g.ident.role with | .vector => 0 | .copy => 1 | .matrix => 2), (0x0A, BitVec.ofNat 64 c.t.core),
   (0x0B, BitVec.ofNat 64 (logicalCluster d phys)), (0x0C, match c.t.die with | .cd0 => 0 | .cd1 => 1),
   (0x10, (txStatus c.g.tx).zeroExtend 64),
   (0x11, if c.l.hdr.det then
      BitVec.ofBool (c.s.teamHolds c.l c.t.teamId c.t.round) ++ 0#31 ++ BitVec.ofNat 32 c.t.round else 0),
   (0x12, match c.lanes with | l :: _ => ((c.g.lane l).draw).zeroExtend 64 | [] => 0), (0x13, c.g.mxcrew)]

/-- FMT passes the checks of R27. -/
def fmtLegal (k : Nat) (v : Word) : Prop :=
  (v.extractLsb' 0 4).toNat ≤ 8 ∧ (v.extractLsb' 4 4).toNat ≤ 8 ∧ (v.extractLsb' 9 3).toNat ≤ 4 ∧
  (v.extractLsb' 12 2).toNat ≠ 3 ∧ v.extractLsb' 19 5 = 0#5 ∧
  ¬ ((v.extractLsb' 12 2).toNat = 2 ∧ (v.getLsbD 18 = true ∨ v.extractLsb' 16 2 ≠ 0#2)) ∧
  [0, 1, 2, 4].getD (v.extractLsb' 16 2).toNat 0 ≤ k

/-- The trap of a value of FMT that fails the checks of R27, in their order. -/
def fmtTrap (k : Nat) (v : Word) (q : Trap) : Prop :=
  let reserved : Prop := 8 < (v.extractLsb' 0 4).toNat ∨ 8 < (v.extractLsb' 4 4).toNat ∨ 4 < (v.extractLsb' 9 3).toNat ∨
    (v.extractLsb' 12 2).toNat = 3 ∨ v.extractLsb' 19 5 ≠ 0#5
  let clash : Prop := (v.extractLsb' 12 2).toNat = 2 ∧ (v.getLsbD 18 = true ∨ v.extractLsb' 16 2 ≠ 0#2)
  let large : Prop := k < [0, 1, 2, 4].getD (v.extractLsb' 16 2).toNat 0
  (reserved ∧ q = .illegalOperand) ∨ (¬ reserved ∧ clash ∧ q = .modeConflict) ∨ (¬ reserved ∧ ¬ clash ∧ large ∧ q = .illegalOperand)

end Sys2Proof.Claims

/-- R37 to R40, R128, R132, R133, R135: the unary counts, the moves, field inserts and reads of special registers complete with
their results in SD, for every special register the value of Tables 1.5 to 1.7 (HELD of KEYROUND as log 26 reads R227), and change
nothing else. -/
def Obligations.ScalarMoveResult : Prop :=
  (∀ e ∈ scalarUnary, ∀ (s : State) (c : Cx) (f : SForm), s.cx? = some c → c.gg.pfx = [] → f.op = .reg 0 0 →
      c.sregOk f.sd.toNat = true → c.sregOk f.sa.toNat = true →
      ScalarDone s c 1 f.sd.toNat (BitVec.ofNat 64 (e.2 (c.g.readS f.sa.toNat))) (exec (e.1 f) s)) ∧
  (∀ (s : State) (c : Cx) (sd sa : BitVec 6), s.cx? = some c → c.gg.pfx = [] → c.sregOk sd.toNat = true →
      -- s.mov
      (∀ op : SOp, plainFields ⟨sd, 0, op⟩ → (∀ r ∈ operandRegs ⟨sd, 0, op⟩, c.sregOk r = true) →
        ScalarDone s c (encode (.sMov ⟨sd, 0, op⟩)).length sd.toNat (operandB c.g ⟨sd, 0, op⟩) (exec (.sMov ⟨sd, 0, op⟩) s)) ∧
      -- s.movk: bits [16h + 15:16h] of the old SD replaced
      (∀ (h : BitVec 2) (v : BitVec 16),
        ScalarDone s c 2 sd.toNat
          ((c.g.readS sd.toNat &&& ~~~((0xFFFF : DWord) <<< (16 * h.toNat))) ||| (v.zeroExtend 64 <<< (16 * h.toNat)))
          (exec (.sMovk ⟨sd, 0, .imm32 0 0 (0#14 ++ h ++ v)⟩) s)) ∧
      -- s.getlane with its lane in the immediate, and in SA
      (∀ (lane : BitVec 5) (v : BitVec 7), v.toNat < 120 → v.toNat < c.g.ident.nr →
        ScalarDone s c 2 sd.toNat
          (if lane.toNat < c.g.ident.width then ((c.g.lane lane.toNat).vreg v.toNat).zeroExtend 64 else 0)
          (exec (.sGetlane ⟨sd, 0, .imm32 0 0 (0#18 ++ 0#1 ++ lane ++ 0#1 ++ v)⟩) s) ∧
        (c.sregOk sa.toNat = true →
          ScalarDone s c 2 sd.toNat
            (if (c.g.readS sa.toNat).toNat % 32 < c.g.ident.width then
              ((c.g.lane ((c.g.readS sa.toNat).toNat % 32)).vreg v.toNat).zeroExtend 64 else 0)
            (exec (.sGetlane ⟨sd, sa, .imm32 0 0 (0#18 ++ 1#1 ++ lane ++ 0#1 ++ v)⟩) s))) ∧
      -- s.lea.pc: the address of its own S word is the base
      (∀ (sh : BitVec 2) (lo hi : Word),
        ScalarDone s c 2 sd.toNat (c.gg.pc + (lo.signExtend 64 <<< sh.toNat)) (exec (.sLeaPc ⟨sd, 0, .imm32 0 (2#2 ++ sh) lo⟩) s) ∧
        ScalarDone s c 3 sd.toNat (c.gg.pc + ((hi ++ lo) <<< sh.toNat)) (exec (.sLeaPc ⟨sd, 0, .imm64 0 (2#2 ++ sh) lo hi⟩) s)) ∧
      -- s.getfmt and s.rdsr
      ScalarDone s c 1 sd.toNat (c.gg.fmt.zeroExtend 64) (exec (.sGetfmt ⟨sd, 0, .reg 0 0⟩) s) ∧
      (∀ sel : BitVec 10, sel.toNat < 0x14 →
        ∃ v, ScalarDone s c 1 sd.toNat v (exec (.sRdsr ⟨sd, 0, .imm10 sel⟩) s) ∧
          (∀ e ∈ specials c, e.1 = sel.toNat → v = e.2) ∧
          -- CORES_PRESENT
          ∀ i < 3, sel.toNat = 0x0D + i → ∀ n < 64, v.getLsbD n = coreInUse (s.die c.die) (64 * i + n)))

/-- R27, R37, R38, R128, R133: `nop` changes nothing; a write of FLAGS, FMT or DRAWBASE with legal bits changes that register
alone: FMT in the issuing gang, DRAWBASE in its active lanes. A reserved selector, a write of a read-only register, and a write that
sets a reserved bit or a bit above the register's width trap ILLEGAL_OPERAND; a value of FMT that fails a check of R27 traps by the
first that it fails. -/
def Obligations.SpecialRegisterWrites : Prop :=
  ∀ (s : State) (c : Cx), s.cx? = some c → c.gg.pfx = [] →
    GroupDone s c 1 c.g (exec (.nop ⟨0, 0, .reg 0 0⟩) s) ∧
    (∀ sa : BitVec 6, c.sregOk sa.toNat = true → ∀ v : Word, c.g.readS sa.toNat = v.zeroExtend 64 →
      (v.extractLsb' 10 22 = 0#22 →
        GroupDone s c 1 { c.g with flags := v } (exec (.sWrsr ⟨0, sa, .imm10 1⟩) s)) ∧
      (fmtLegal c.g.ident.k v →
        GroupDone s c 1 (c.g.modGang c.gg.id fun x => { x with fmt := v }) (exec (.sWrsr ⟨0, sa, .imm10 0⟩) s)) ∧
      GroupDone s c 1 (c.g.modLanes c.lanes fun x => { x with draw := v }) (exec (.drawbaseWrite ⟨0, sa, .imm10 0x12⟩) s)) ∧
    (∀ (sa : BitVec 6) (op : SOp), plainFields ⟨0, sa, op⟩ → c.sregOk sa.toNat = true →
      (∀ r ∈ operandRegs ⟨0, sa, op⟩, c.sregOk r = true) →
      ∀ v : Word, v = (c.gg.fmt &&& ~~~(lo32 (c.g.readS sa.toNat))) |||
        (lo32 (operandB c.g ⟨0, sa, op⟩) &&& lo32 (c.g.readS sa.toNat)) →
      (fmtLegal c.g.ident.k v →
        GroupDone s c (encode (.sSetfmt ⟨0, sa, op⟩)).length (c.g.modGang c.gg.id fun x => { x with fmt := v })
          (exec (.sSetfmt ⟨0, sa, op⟩) s)) ∧
      ∀ q, fmtTrap c.g.ident.k v q → exec (.sSetfmt ⟨0, sa, op⟩) s = c.trap { code := q }) ∧
    (∀ (r : BitVec 6) (sel : BitVec 10),
      (sel.toNat ∉ [0, 1, 0x12] → exec (.sWrsr ⟨0, r, .imm10 sel⟩) s = c.trap { code := .illegalOperand }) ∧
      (0x14 ≤ sel.toNat → exec (.sRdsr ⟨r, 0, .imm10 sel⟩) s = c.trap { code := .illegalOperand })) ∧
    ∀ sa : BitVec 6, c.sregOk sa.toNat = true →
      let w := c.g.readS sa.toNat
      (w.extractLsb' 32 32 ≠ 0 → ∀ i ∈ [Instr.sWrsr ⟨0, sa, .imm10 0⟩, .sWrsr ⟨0, sa, .imm10 1⟩, .drawbaseWrite ⟨0, sa, .imm10 0x12⟩],
        exec i s = c.trap { code := .illegalOperand }) ∧
      (w.extractLsb' 32 32 = 0 →
        (w.extractLsb' 10 22 ≠ 0 → exec (.sWrsr ⟨0, sa, .imm10 1⟩) s = c.trap { code := .illegalOperand }) ∧
        ∀ q, fmtTrap c.g.ident.k (w.extractLsb' 0 32) q → exec (.sWrsr ⟨0, sa, .imm10 0⟩) s = c.trap { code := q })

namespace Sys2Proof.Claims

/-- A vector result: the gang's active lanes hold `v` in register D, and nothing but D in those lanes has changed; `D` 120 and
above names no register. -/
def VectorDone (s : State) (c : Cx) (f : VForm) (pair : Bool) (fl : Word) (draws : Prop) (v : Nat → List Word → Prop)
    (r : Host.Outcome State Fault Refusal) : Prop :=
  GroupStep s (fun g' => AluFrame (onlyV c.lanes f.d.toNat pair fl draws) c.g c.gg (encode (.vMov f)).length g' ∧
    ∀ l ∈ c.lanes, f.d.toNat + (if pair then 1 else 0) < (c.g.lane l).v.length → f.d.toNat + (if pair then 1 else 0) < 120 →
      v l [(g'.lane l).vreg f.d.toNat, (g'.lane l).vreg (f.d.toNat + 1)]) r

/-- The same for a 32-bit result without flags or draws. -/
def LaneResult (s : State) (c : Cx) (f : VForm) (v : Nat → Word) (r : Host.Outcome State Fault Refusal) : Prop :=
  VectorDone s c f false 0 False (fun l ws => ws[0]? = some (v l)) r

/-- Table 6.2: the integer instructions with their field checks and results. -/
def vectorTable : List ((VForm → Instr) × VSpec × (Word → Word → Word)) :=
  [(.vAdd, spInt2, fun a b => a + b),
   (.vSub, spInt2, fun a b => a - b),
   (.vMul, spInt2, fun a b => a * b),
   (.vMulhu, spInt2, fun a b => BitVec.ofNat 32 (a.toNat * b.toNat / 2 ^ 32)),
   (.vMulhs, spInt2, fun a b => BitVec.ofInt 32 (a.toInt * b.toInt / 2 ^ 32)),
   (.vAnd, spInt2, fun a b => a &&& b),
   (.vOr, spInt2, fun a b => a ||| b),
   (.vXor, spInt2, fun a b => a ^^^ b),
   (.vAndn, spInt2, fun a b => a &&& ~~~b),
   (.vShl, spInt2, fun a b => a <<< (b.toNat % 32)),
   (.vShr, spInt2, fun a b => a >>> (b.toNat % 32)),
   (.vSar, spInt2, fun a b => a.sshiftRight (b.toNat % 32)),
   (.vMins, spInt2, fun a b => if a.toInt ≤ b.toInt then a else b),
   (.vMinu, spInt2, fun a b => if a.toNat ≤ b.toNat then a else b),
   (.vMaxs, spInt2, fun a b => if a.toInt ≥ b.toInt then a else b),
   (.vMaxu, spInt2, fun a b => if a.toNat ≥ b.toNat then a else b),
   (.vPopc, spInt1, fun a _ => BitVec.ofNat 32 ((List.range 32).filter fun i => a.getLsbD i).length),
   (.vClz, spInt1, fun a _ => BitVec.ofNat 32 (((List.range 32).map fun i => 31 - i).findIdx fun i => a.getLsbD i))]

/-- Position and width of the field that b describes (R169). -/
def fieldPos (b : Word) : Nat := b.toNat % 32
def fieldWidth (b : Word) : Nat := min (b.toNat / 32 % 64) (32 - fieldPos b)

/-- Lane l of the gang is active (R164). -/
def isActive (c : Cx) (l : Nat) : Prop := l ∈ c.lanes

end Sys2Proof.Claims

/-- R10, R43, R166: the integer instructions complete, write Table 6.2's result in every active lane, and leave every other
lane, register and flag as it was. The sources are those of the state before. -/
def Obligations.VectorIntegerResult : Prop :=
  ∀ (s : State) (c : Cx) (f : VForm), s.cx? = some c →
    (∀ e ∈ vectorTable, c.vCheck e.2.1 f = .ok () →
      LaneResult s c f (fun l => e.2.2 (c.src f f.a.toNat l) (c.src f f.b.toNat l)) (exec (e.1 f) s)) ∧
    (c.vCheck spInt2 f = .ok () →
      LaneResult s c f (fun l => c.src f f.a.toNat l + BitVec.ofNat 32 l * c.src f f.b.toNat l) (exec (.vIota f) s)) ∧
    -- R169
    (c.vCheck spInt2 f = .ok () →
      LaneResult s c f (fun l =>
        let x := (c.src f f.a.toNat l).extractLsb' (fieldPos (c.src f f.b.toNat l)) (fieldWidth (c.src f f.b.toNat l))
        if spInt2.type (c.gg.fmt.getLsbD 8) f = 4 then x.signExtend 32 else x.zeroExtend 32) (exec (.vBfx f) s)) ∧
    (c.vCheck spBfi f = .ok () →
      LaneResult s c f (fun l =>
        let b := c.src f f.b.toNat l
        let m : Word := ((BitVec.allOnes (fieldWidth b)).zeroExtend 32) <<< fieldPos b
        (c.src f f.c l &&& ~~~m) ||| ((c.src f f.a.toNat l <<< fieldPos b) &&& m)) (exec (.vBfi f) s)) ∧
    -- R167, without SAT
    (c.vCheck spMad f = .ok () → f.sat = false →
      LaneResult s c f (fun l => c.src f f.a.toNat l * c.src f f.b.toNat l + c.src f f.c l) (exec (.vMad f) s))

/-- R167: `v.mad` with SAT clamps the exact value, and a clamp sets SATURATED. -/
def Obligations.SaturatingMad : Prop :=
  ∀ (s : State) (c : Cx) (f : VForm), s.cx? = some c → c.vCheck spMad f = .ok () → f.sat = true →
    let signed := spMad.type (c.gg.fmt.getLsbD 8) f = 4
    let exact (l : Nat) : Int :=
      if signed then (c.src f f.a.toNat l).toInt * (c.src f f.b.toNat l).toInt + (c.src f f.c l).toInt
      else (c.src f f.a.toNat l).toNat * (c.src f f.b.toNat l).toNat + (c.src f f.c l).toNat
    let lo : Int := if signed then -2 ^ 31 else 0
    let hi : Int := if signed then 2 ^ 31 - 1 else 2 ^ 32 - 1
    VectorDone s c f false 0x20 False (fun l ws => ws[0]? = some (BitVec.ofInt 32 (max lo (min hi (exact l))))) (exec (.vMad f) s) ∧
    GroupStep s (fun g' => (∃ l ∈ c.lanes, exact l < lo ∨ hi < exact l) → g'.flags.getLsbD 5 = true) (exec (.vMad f) s)

/-- R168, R171, R173: the moves write the value of the source that each names, as the lane it names reads it. -/
def Obligations.VectorMoveResult : Prop :=
  ∀ (s : State) (c : Cx) (f : VForm), s.cx? = some c →
    (c.vCheck spMov f = .ok () → LaneResult s c f (fun l => c.src f f.a.toNat l) (exec (.vMov f) s)) ∧
    (c.vCheck spSel f = .ok () →
      LaneResult s c f (fun l => c.src f (if (c.g.readS f.sreg).getLsbD l then f.a.toNat else f.b.toNat) l) (exec (.vSel f) s)) ∧
    (c.vCheck spShfl f = .ok () →
      LaneResult s c f (fun l =>
        let j := (c.src f f.b.toNat l).toNat % 32
        c.src f f.a.toNat (if j < c.g.ident.width ∧ (c.g.readS f.sreg).getLsbD j = true ∧ j ∈ c.lanes then j else l))
        (exec (.vShfl f) s)) ∧
    (c.vCheck spShflx f = .ok () →
      LaneResult s c f (fun l =>
        let j := l ^^^ ((c.src f f.b.toNat l).toNat % 32)
        c.src f f.a.toNat (if j < c.g.ident.width ∧ j ∈ c.lanes then j else l)) (exec (.vShflx f) s)) ∧
    (c.vCheck spSetlane f (f.c < c.g.ident.width) = .ok () →
      GroupStep s (fun g' =>
        AluFrame (onlyV (c.lanes.filter (· = f.c)) f.d.toNat false 0 False) c.g c.gg (encode (.vSetlane f)).length g' ∧
        (f.c ∈ c.lanes → f.d.toNat < 120 → f.d.toNat < (c.g.lane f.c).v.length →
          (g'.lane f.c).vreg f.d.toNat = c.src f f.a.toNat f.c)) (exec (.vSetlane f) s))

namespace Sys2Proof.Claims

/-- A mask written by lanes (R123, R170): with an active lane, the gang's bits of `em` or of the register are those of the lanes
where `p` holds, the other lanes' bits stay, and bits at and above the width of a register are zero; with none, nothing is
written. -/
def maskWritten (c : Cx) (r : Nat) (p : Nat → Prop) (g' : Machine.Group) : Prop :=
  if c.active = 0 then g'.s.getD r 0 = c.g.s.getD r 0 ∧ g'.em = c.g.em
  else if r = 63 then ∀ l < c.g.ident.width, g'.em.getLsbD l = true ↔
    (if c.gg.mask.getLsbD l && c.g.live.getLsbD l then l ∈ c.lanes ∧ p l else c.g.em.getLsbD l = true)
  else r < c.g.s.length → ∀ l < 64, (g'.s.getD r 0).getLsbD l = true ↔
    (l < c.g.ident.width ∧ if c.gg.mask.getLsbD l then l ∈ c.lanes ∧ p l else (c.g.readS r).getLsbD l = true)

/-- What the integer reductions combine (R174). -/
def redOp (op : Nat) (signed : Bool) (x y : Word) : Word :=
  match op with
  | 0 => x + y
  | 1 => x &&& y
  | 2 => x ||| y
  | 3 => x ^^^ y
  | 4 => if signed then (if x.toInt ≤ y.toInt then x else y) else (if x.toNat ≤ y.toNat then x else y)
  | _ => if signed then (if x.toInt ≥ y.toInt then x else y) else (if x.toNat ≥ y.toNat then x else y)

/-- Identities of the scans (R175). -/
def redIdentity (op : Nat) (signed : Bool) : Word :=
  match op with
  | 0 | 2 | 3 => 0
  | 1 => 0xFFFFFFFF
  | 4 => if signed then 0x7FFFFFFF else 0xFFFFFFFF
  | _ => if signed then 0x80000000 else 0

end Sys2Proof.Claims

/-- R30, R43, R123, R170: `v.icmp` writes the lanes of the gang whose condition holds into SREG. -/
def Obligations.VectorCompareMask : Prop :=
  ∀ (s : State) (c : Cx) (f : VForm), s.cx? = some c → c.g.ident.width ≤ 32 → c.vCheck spIcmp f = .ok () →
    let signed := spIcmp.type (c.gg.fmt.getLsbD 8) f = 4
    let a (l : Nat) := c.src f f.a.toNat l
    let b (l : Nat) := c.src f f.b.toNat l
    let lt (x y : Word) : Prop := if signed then x.toInt < y.toInt else x.toNat < y.toNat
    let holds (l : Nat) : Prop :=
      match f.sel with
      | 0 => a l = b l
      | 1 => a l ≠ b l
      | 2 => lt (a l) (b l)
      | 3 => ¬ lt (a l) (b l)
      | 4 => ¬ lt (b l) (a l)
      | _ => lt (b l) (a l)
    GroupStep s (fun g' => AluFrame (onlyS f.sreg) c.g c.gg (encode (.vIcmp f)).length g' ∧ maskWritten c f.sreg holds g')
      (exec (.vIcmp f) s)

/-- R172, R174, R175: the 64-bit sums of register pairs, the integer reductions into SREG, and the integer scans. -/
def Obligations.VectorPairReduceScan : Prop :=
  ∀ (s : State) (c : Cx) (f : VForm), s.cx? = some c →
    (c.vCheck spInt64 f = .ok () →
      VectorDone s c f true 0 False (fun l ws => ∃ lo hi, ws = [lo, hi] ∧
        hi ++ lo = c.src64 f false f.a.toNat l + c.src64 f false f.b.toNat l) (exec (.vAdd64 f) s) ∧
      VectorDone s c f true 0 False (fun l ws => ∃ lo hi, ws = [lo, hi] ∧
        hi ++ lo = c.src64 f false f.a.toNat l - c.src64 f false f.b.toNat l) (exec (.vSub64 f) s)) ∧
    (c.vCheck spIred f = .ok () →
      let signed := spIred.type (c.gg.fmt.getLsbD 8) f == 4
      let ext (w : Word) : DWord := if signed then w.signExtend 64 else w.zeroExtend 64
      let xs := c.lanes.map fun l => c.src f f.a.toNat l
      GroupStep s (fun g' => AluFrame (onlyS f.sreg) c.g c.gg (encode (.vIred f)).length g' ∧
        ∀ x rest, xs = x :: rest → f.sreg ≠ 63 → f.sreg < c.g.s.length →
          g'.s.getD f.sreg 0 = (if f.sel = 0 then (xs.map ext).foldl (· + ·) 0
            else if f.sel < 4 then (rest.foldl (redOp f.sel signed) x).zeroExtend 64
            else ext (rest.foldl (redOp f.sel signed) x))) (exec (.vIred f) s)) ∧
    (c.vCheck spIscan f = .ok () →
      let signed := spIscan.type (c.gg.fmt.getLsbD 8) f == 4
      let op := f.sel % 8
      let upTo (l : Nat) (incl : Bool) : Word :=
        ((c.lanes.filter fun i => i < l || (incl && i == l)).map fun i => c.src f f.a.toNat i).foldl (redOp op signed)
          (redIdentity op signed)
      LaneResult s c f (fun l => upTo l (f.sel < 8)) (exec (.vIscan f) s))

namespace Sys2Proof.Claims

/-- The exact results of Table 6.3 on decoded sources, by number of sources. -/
def floatTable : List ((VForm → Instr) × VSpec × FOp) :=
  [(.vFadd, spArith2, opAdd), (.vFsub, spArith2, opSub), (.vFmul, spArith2, opMul), (.vFdiv, spArith2, opDiv),
   (.vFfma, spArith3, opFma), (.vFsqrt, spArith1, op1 sqrtFV partsSqrt), (.vFrsq, spArith1, op1 rsqFV partsRsq),
   (.vFrcp, spArith1, op1 rcpFV partsRcp), (.vFexp2, spArith1, op1 exp2FV partsExp2),
   (.vFlog2, spArith1, op1 log2FV partsLog2), (.vFsinpi, spArith1, op1 sinpiFV partsSin),
   (.vFcospi, spArith1, op1 cospiFV partsCos), (.vFtanh, spArith1, op1 tanhFV partsTanh), (.vFround, spArith1, opRound)]

/-- Source i of a lane as a binary32 value, after ABS and then NEG on its sign bit (R83). -/
def srcF32 (c : Cx) (f : VForm) (i code l : Nat) : FV :=
  let w := c.src f code l
  let w := if f.absBit i then w &&& 0x7FFFFFFF else w
  Fmt.f32.decode (if f.negBit i then w ^^^ 0x80000000 else w).toNat

/-- No rounding of the instruction is stochastic. -/
def notSr (c : Cx) (f : VForm) : Prop := c.rm f.rnd ≠ .sr

/-! ## Exact values -/

/-- The finite real that a binary32 word stands for (R50), and whether it stands for one. -/
noncomputable def wordVal (w : Word) : ℝ :=
  let e := (w.extractLsb' 23 8).toNat
  let m := (w.extractLsb' 0 23).toNat
  (if w.getLsbD 31 then -1 else 1) *
    (if e = 0 then (m : ℝ) * (2 : ℝ) ^ (-149 : ℤ) else ((m + 2 ^ 23 : Nat) : ℝ) * (2 : ℝ) ^ ((e : ℤ) - 150))
def finiteWord (w : Word) : Prop := w.extractLsb' 23 8 ≠ 0xFF#8
def nanWord (w : Word) : Prop := w.extractLsb' 23 8 = 0xFF#8 ∧ w.extractLsb' 0 23 ≠ 0#23

/-- The real that an exact expression denotes. -/
noncomputable def reVal : RE → ℝ
  | .rat q => (q.n : ℝ) / (q.d : ℝ)
  | .ln2 => Real.log 2
  | .pi => Real.pi
  | .exp2 q => (2 : ℝ) ^ ((q.n : ℝ) / (q.d : ℝ))
  | .log2 q => Real.logb 2 ((q.n : ℝ) / (q.d : ℝ))
  | .sqrt q => Real.sqrt ((q.n : ℝ) / (q.d : ℝ))
  | .sinpi q => Real.sin (Real.pi * ((q.n : ℝ) / (q.d : ℝ)))
  | .tanh q => Real.tanh ((q.n : ℝ) / (q.d : ℝ))
  | .add x y => reVal x + reVal y
  | .mul x y => reVal x * reVal y
  | .neg x => - reVal x
  | .inv x => (reVal x)⁻¹

/-- The real that a decoded value stands for; none for a NaN and an infinity. -/
noncomputable def fvReal : FV → Option ℝ
  | .fin neg m => some (if neg then - reVal m else reVal m)
  | _ => none

/-- The exact value is in a form that a rounding decides: a rational with its denominator positive, or one irrational function at
such a rational inside its domain, a power of two perhaps times a positive rational. -/
def ExactForm : RE → Prop
  | .rat q => 0 < q.d
  | .log2 q => 0 < q.n ∧ 0 < q.d ∧ q.pow2? = none
  | .sqrt q => 0 < q.n ∧ 0 < q.d ∧ q.sqrt? = none
  | .sinpi q => 2 * q.n % (q.d : Int) ≠ 0 ∧ ∃ k, q.d = 2 ^ k
  | .exp2 q => 0 < q.d ∧ q.n % (q.d : Int) ≠ 0 ∧ |q.n| ≤ 5000 * (q.d : Int)
  | .mul (.exp2 q) (.rat r) => 0 < q.d ∧ q.n % (q.d : Int) ≠ 0 ∧ |q.n| ≤ 5000 * (q.d : Int) ∧ 0 < r.n ∧ 0 < r.d
  | _ => False

/-- `bits` is the real x rounded once to the format; on a rational x the rounding is that of `RoundingRule`. -/
def Rounds (fm : Fmt) (rm : Rm) (sat : Bool) (x : ℝ) (bits : Nat) : Prop :=
  ∃ v, ((∃ neg m, v = .fin neg m ∧ ExactForm m ∧ 0 ≤ reVal m ∧ (if neg then - reVal m else reVal m) = x) ∨
      ∃ s e, ExactForm e ∧ reVal e = x ∧ v = FV.ofRE s e) ∧
    bits = (fm.roundTo rm sat 0 v).bits

/-- Code k is the one that the mode selects for the magnitude x between the adjacent grid points of codes c and c + 1 (R55). -/
def Selects (rm : Rm) (neg : Bool) (x lo hi : ℝ) (c k : Nat) : Prop :=
  let up : Prop := x ≠ lo ∧ match rm with
    | .rne => hi - x < x - lo ∨ (hi - x = x - lo ∧ c % 2 = 1)
    | .ru => neg = false
    | .rd => neg = true
    | _ => False
  (up → k = c + 1) ∧ (¬ up → k = c)

/-- The rounding of a nonzero rational of magnitude q to a format other than LNS6: adjacent grid points, the choice between them,
overflow, and the flags (R55 to R57). -/
def RoundingRule : Prop :=
  ∀ (f : Fmt) (rm : Rm) (sat neg : Bool) (q : Q), f ≠ .lns6 → rm ≠ .sr → 0 < q.n → 0 < q.d →
    let x : ℝ := (q.n : ℝ) / (q.d : ℝ)
    let r := f.roundTo rm sat 0 (.fin neg (.rat q))
    ∃ c k, reVal (f.mag c) ≤ x ∧ x < reVal (f.mag (c + 1)) ∧ Selects rm neg x (reVal (f.mag c)) (reVal (f.mag (c + 1))) c k ∧
      (k ≤ f.maxCode → r.bits = f.code neg k ∧
        r.flags = if reVal (f.mag k) = x then 0 else if x < (2 : ℝ) ^ f.emin then 3 else 1) ∧
      (f.maxCode < k →
        if f ∈ [Fmt.e2m3, .e3m2, .e2m1] ∨ (sat = true ∧ f ≠ .f64 ∧ f ≠ .f32) then r.bits = f.code neg f.maxCode ∧ r.flags = 0x21
        else r.flags = 5 ∧ r.bits =
          if rm = .rtz ∨ (rm = .ru ∧ neg = true) ∨ (rm = .rd ∧ neg = false) then f.code neg f.maxCode
          else match f.infCode with | some i => f.code neg i | none => f.nan)

/-- The variance that this rounding is charged, before it is itself rounded (R59). -/
def RoundVarRule : Prop :=
  ∀ (f : Fmt) (rm : Rm) (sat neg : Bool) (q : Q), f ≠ .lns6 → rm ≠ .sr → 0 < q.n → 0 < q.d →
    let x : ℝ := (q.n : ℝ) / (q.d : ℝ)
    let v : FV := .fin neg (.rat q)
    let r := f.roundTo rm sat 0 v
    let charge (y : ℝ) : Prop := ∃ e, ExactForm e ∧ f.roundVar rm v r = .re e ∧ reVal e = y
    ∃ c, reVal (f.mag c) ≤ x ∧ x < reVal (f.mag (c + 1)) ∧
      (r.flags = 0 → charge 0) ∧
      (r.flags = 1 ∨ r.flags = 3 → charge ((reVal (f.mag (c + 1)) - reVal (f.mag c)) ^ 2 / (if rm = .rne then 12 else 3))) ∧
      (r.flags = 5 ∨ r.flags = 0x21 →
        (r.bits = f.code neg f.maxCode → charge ((x - reVal (f.mag f.maxCode)) ^ 2)) ∧
        (r.bits ≠ f.code neg f.maxCode → f.roundVar rm v r = .inf))

/-- The exact functions of Table 6.3 on finite binary32 operands x, y and z, and their special cases (Table 2.5). -/
def ExactFunctions : Prop :=
  ∀ (rm : Rm) (a b c : Word), finiteWord a → finiteWord b → finiteWord c →
    let F (w : Word) : FV := Fmt.f32.decode w.toNat
    let x := wordVal a
    let y := wordVal b
    let is (r : FR) (v : ℝ) : Prop := fvReal r.v = some v ∧ r.fl = 0
    let isOf (r : FR) (v : ℝ) : Prop := ∃ s e, r.v = FV.ofRE s e ∧ reVal e = v ∧ r.fl = 0
    (is (opAdd.val rm [F a, F b]) (x + y) ∧ is (opSub.val rm [F a, F b]) (x - y) ∧ is (opMul.val rm [F a, F b]) (x * y) ∧
      is (opFma.val rm [F a, F b, F c]) (x * y + wordVal c) ∧ is (opRound.val rm [F a]) x ∧
      (y ≠ 0 → is (opDiv.val rm [F a, F b]) (x / y)) ∧ (x ≠ 0 → is ((op1 rcpFV partsRcp).val rm [F a]) (1 / x))) ∧
    ((0 ≤ x → is ((op1 sqrtFV partsSqrt).val rm [F a]) (Real.sqrt x)) ∧
      (0 < x → is ((op1 rsqFV partsRsq).val rm [F a]) (1 / Real.sqrt x)) ∧
      (|x| ≤ 4000 → is ((op1 exp2FV partsExp2).val rm [F a]) ((2 : ℝ) ^ x)) ∧
      (0 < x → isOf ((op1 log2FV partsLog2).val rm [F a]) (Real.logb 2 x)) ∧
      isOf ((op1 sinpiFV partsSin).val rm [F a]) (Real.sin (Real.pi * x)) ∧
      isOf ((op1 cospiFV partsCos).val rm [F a]) (Real.cos (Real.pi * x)) ∧
      (|x| ≤ 2000 → isOf ((op1 tanhFV partsTanh).val rm [F a]) (Real.tanh x)) ∧
      (2000 < |x| → ∃ t : ℝ, isOf ((op1 tanhFV partsTanh).val rm [F a]) t ∧ 0 < t * x ∧ |t| < 1 ∧
        1 - |t| < (2 : ℝ) ^ (-2000 : ℤ))) ∧
    ((y = 0 → x ≠ 0 → opDiv.val rm [F a, F b] = ⟨.inf (a.getLsbD 31 != b.getLsbD 31), 8⟩) ∧
      (y = 0 → x = 0 → opDiv.val rm [F a, F b] = ⟨.nan false, 16⟩) ∧
      (x < 0 → (op1 sqrtFV partsSqrt).val rm [F a] = ⟨.nan false, 16⟩) ∧
      opAdd.val rm [.inf false, .inf true] = ⟨.nan false, 16⟩ ∧ (x = 0 → opMul.val rm [F a, .inf false] = ⟨.nan false, 16⟩))

/-- Element e of a result of a TYPE. -/
def resElem (t : Nat) (w0 w1 : Word) (e : Nat) : Nat :=
  if t = 3 then (w1 ++ w0).toNat else if t = 1 ∨ t = 2 then (w0.extractLsb' (16 * e) 16).toNat else w0.toNat

/-- The bits and flags of element e of an arithmetic result in a lane: the exact function of the elements, rounded once. -/
def arithElem (c : Cx) (f : VForm) (op : FOp) (t l e : Nat) : Nat × Word :=
  let y := op.val (c.rm f.rnd) ((List.range op.n).map fun i => c.fval f t i ([f.a.toNat, f.b.toNat, f.c].getD i 123) l e)
  let r := op.round (typeFmt t) (c.rm f.rnd) (c.satOf f) 0 y.v
  (r.1, y.fl ||| r.2.1)

end Sys2Proof.Claims

/-- R34, R50, R55, R83, R176: every arithmetic instruction of Table 6.3 completes; under a mode other than SR each element that it
writes is the one rounding of the exact function of the source elements, in every active lane, and FLAGS gains the flags of these
elements; the exact function of finite binary32 operands is the real function of Table 6.3. Nothing but D, FLAGS and draw counters
changes. -/
def Obligations.FloatArithmeticResult : Prop :=
  ExactFunctions ∧
  (∀ (s : State) (c : Cx) (f : VForm), s.cx? = some c → ∀ e ∈ floatTable, c.vCheck e.2.1 f = .ok () → notSr c f →
    let t := e.2.1.type (c.gg.fmt.getLsbD 8) f
    let n := if t = 1 ∨ t = 2 then 2 else 1
    VectorDone s c f (t == 3) 0xFFFFFFFF False (fun l ws => ∃ w0 w1, ws = [w0, w1] ∧
      ∀ k < n, resElem t w0 w1 k = (arithElem c f e.2.2 t l k).1) (exec (e.1 f) s) ∧
    GroupStep s (fun g' => g'.flags = c.lanes.foldl (fun fl l => (List.range n).foldl (fun fl k =>
      fl ||| (arithElem c f e.2.2 t l k).2) fl) c.g.flags) (exec (e.1 f) s)) ∧
  ∀ (s : State) (c : Cx) (f : VForm), s.cx? = some c → ∀ e ∈ floatTable, c.vCheck e.2.1 f = .ok () →
    let t := e.2.1.type (c.gg.fmt.getLsbD 8) f
    VectorDone s c f (t == 3) 0xFFFFFFFF (c.rm f.rnd = .sr) (fun l ws => t = 0 → notSr c f →
      let xs := (List.range e.2.2.n).map fun i => srcF32 c f i ([f.a.toNat, f.b.toNat, f.c].getD i 123) l
      ws[0]? = some (BitVec.ofNat 32
        (e.2.2.round .f32 (c.rm f.rnd) (c.satOf f) 0 (e.2.2.val (c.rm f.rnd) xs).v).1)) (exec (e.1 f) s)

/-- R48, R177: on binary32 elements `v.fmin` and `v.fmax` deliver one operand unchanged: the other one where one is NaN, the
canonical NaN where both are, a where they are equal; INVALID is set where an operand is a signalling NaN, and no other flag. -/
def Obligations.FloatMinMaxResult : Prop :=
  ∀ (s : State) (c : Cx) (f : VForm) (max : Bool), s.cx? = some c → c.vCheck spPick f = .ok () →
    let t := spPick.type (c.gg.fmt.getLsbD 8) f
    let bits (i code l : Nat) : Word :=
      let w := c.src f code l
      let w := if f.absBit i then w &&& 0x7FFFFFFF else w
      if f.negBit i then w ^^^ 0x80000000 else w
    VectorDone s c f (t == 3) 0xFFFFFFFF False (fun l ws => t = 0 →
      let a := srcF32 c f 0 f.a.toNat l
      let b := srcF32 c f 1 f.b.toNat l
      ws[0]? = some (if a.isNan = true ∧ b.isNan = true then 0x7FC00000 else if a.isNan = true then bits 1 f.b.toNat l
        else if b.isNan = true then bits 0 f.a.toNat l
        else if a.equal b = true then bits 0 f.a.toNat l
        else if (if max then b.below a else a.below b) = true then bits 0 f.a.toNat l else bits 1 f.b.toNat l))
      (exec (if max then .vFmax f else .vFmin f) s) ∧
    GroupStep s (fun g' => t = 0 → g'.flags = c.g.flags ||| (if c.lanes.any (fun l =>
      (srcF32 c f 0 f.a.toNat l).isSig || (srcF32 c f 1 f.b.toNat l).isSig) then 16 else 0))
      (exec (if max then .vFmax f else .vFmin f) s)

namespace Sys2Proof.Claims

/-- The format that FSEL names (R184). -/
def narrowFmt (c : Cx) (f : VForm) : Option Fmt := c.nf f
/-- Every scale of a `v.mxdeq` that reads a tile can be read: no earlier access of the group holds a load back, the tile is aligned,
it is the team's, no accepted crew operation of the group is still to write it, and no word is poisoned. -/
def tileReadable (c : Cx) (f : VForm) : Prop :=
  c.loadWait = none ∧ (c.g.readS f.sreg).toNat % 128 = 0 ∧ ∃ p, c.tilePlace (c.g.readS f.sreg) = some p ∧
    c.crewMeets p 128 false = false ∧ ∀ l ∈ c.lanes, (c.scaleOf f (some p) l).2 = false

/-- FLAGS may only gain bits, and D in the active lanes may change; draws under SR. -/
def floatAllow (c : Cx) (f : VForm) (pair : Bool) : Allow :=
  onlyV c.lanes f.d.toNat pair 0xFFFFFFFF (c.rm f.rnd = .sr)

/-- The other floating-point instructions: what each needs, and what it may write. -/
def floatRest : List ((VForm → Instr) × (Cx → VForm → Prop) × (Cx → VForm → Allow)) :=
  let ty (sp : VSpec) (c : Cx) (f : VForm) : Nat := sp.type (c.gg.fmt.getLsbD 8) f
  [(.vFcmp, fun c f => c.vCheck spFcmp f = .ok (), fun _ f => { onlyS f.sreg with flags := 0xFFFFFFFF }),
   (.vFclass, fun c f => c.vCheck spFclass f = .ok (), fun c f => onlyV c.lanes f.d.toNat false 0 False),
   (.vFcvt, fun c f => c.vCheck spFcvt f = .ok (), fun c f => floatAllow c f (spFcvt.pairD (ty spFcvt c f) f.sel)),
   (.vCvtfi, fun c f => c.vCheck spCvtfi f = .ok (), fun c f => floatAllow c f (f.sel == 6)),
   (.vCvtif, fun c f => c.vCheck spCvtif f = .ok (), fun c f => floatAllow c f (f.sel == 3)),
   (.vFdot2, fun c f => c.vCheck spDot2 f = .ok (), fun c f => floatAllow c f false),
   (.vQpack, fun c f => c.vCheck spQpack f (narrowFmt c f).isSome = .ok (), fun c f => floatAllow c f false),
   (.vQunpack, fun c f => c.vCheck spQunpack f ((narrowFmt c f).isSome && f.a.toNat < 120) = .ok (),
     fun c f => floatAllow c f false),
   (.vMxquant, fun c f => c.vCheck spMxquant f ((narrowFmt c f).any blockFmt && c.g.ident.width == 32) = .ok () ∧
       (c.active = 0 ∨ c.active = 0xFFFFFFFF),
     fun c f => { floatAllow c f false with
       vreg := fun l r => (l ∈ c.lanes ∧ r = f.d.toNat) ∨ (c.active ≠ 0 ∧ l < 5 ∧ r = f.c) }),
   (.vMxdeq, fun c f => c.vCheck spMxdeq f ((narrowFmt c f).isSome && f.a.toNat < 120) = .ok () ∧
       (f.sel < 2 ∨ c.active = 0 ∨ tileReadable c f),
     fun c f => floatAllow c f false),
   (.vFred, fun c f => c.vCheck spFred f = .ok (), fun c f =>
     { floatAllow c f (ty spFred c f == 3) with
       sreg := fun r => f.sel ≥ 8 ∧ r = f.sreg
       vreg := fun l r => f.sel < 8 ∧ (floatAllow c f (ty spFred c f == 3)).vreg l r }),
   (.vFscan, fun c f => c.vCheck spFscan f = .ok (), fun c f => floatAllow c f (ty spFscan c f == 3)),
   (.vArgmax, fun c f => c.vCheck spArgmax f = .ok (), fun c f => onlyV c.lanes f.d.toNat true 0xFFFFFFFF False),
   (.vRndu, fun c f => c.vCheck spRnd f (f.hold == 0) = .ok (), fun c f => onlyV c.lanes f.d.toNat false 0 True),
   (.vRndn, fun c f => c.vCheck spRnd f (f.hold == 0) = .ok (), fun c f => onlyV c.lanes f.d.toNat false 0 True),
   (.vRndg, fun c f => c.vCheck spRnd f (f.hold == 0) = .ok (), fun c f => onlyV c.lanes f.d.toNat false 0 True)]

/-- The distribution instructions of Table 4.4. -/
def distTable : List ((VForm → Instr) × (Cx → VForm → Prop) × (Cx → VForm → Allow)) :=
  let v (c : Cx) (f : VForm) : Allow := onlyV c.lanes f.d.toNat false fInvalid False
  [(.vDvar, fun c f => c.dCheck dvarOk f false = .ok (), v),
   (.vDset, fun c f => c.dCheck dsetOk f false = .ok (), v),
   (.vDgetd, fun c f => c.dCheck dgetdOk f false = .ok (), v),
   (.vDsetd, fun c f => c.dCheck dsetdOk f true = .ok (), v),
   (.vDclr, fun c f => c.dCheck dclrOk f true = .ok (), fun c f => onlyV c.lanes f.d.toNat false 0 False),
   (.vDnoise, fun c f => c.dCheck dnoiseOk f true = .ok () ∧ (f.sel = 0 ∨ fmtDm c.gg.fmt = 2), v),
   (.vDchk, fun c f => dchkOk f = true ∧ c.gg.pfx = [] ∧ c.vregOk false f.a.toNat = true ∧ c.sregOk f.sreg = true,
     fun _ f => { onlyS f.sreg with flags := fUncert })]

/-! ## Values of the other floating-point instructions -/

/-- What the words of D and of the register above it are in each active lane. -/
def LaneWords (s : State) (c : Cx) (f : VForm) (pair : Bool) (P : Nat → Word → Word → Prop)
    (r : Host.Outcome State Fault Refusal) : Prop :=
  GroupStep s (fun g' => ∀ l ∈ c.lanes, f.d.toNat + (if pair then 1 else 0) < (c.g.lane l).v.length →
    f.d.toNat + (if pair then 1 else 0) < 120 → P l ((g'.lane l).vreg f.d.toNat) ((g'.lane l).vreg (f.d.toNat + 1))) r

/-- A decoded value in the order of R177 and R180; none for a NaN. -/
noncomputable def fvOrder : FV → Option EReal
  | .nan _ => none
  | .inf neg => some (if neg then ⊥ else ⊤)
  | .fin neg m => some (((if neg then - reVal m else reVal m) : ℝ) : EReal)

/-- Conditions of `v.fcmp` (R180). -/
def fcmpHolds (sel : Nat) (a b : FV) : Prop :=
  match fvOrder a, fvOrder b with
  | some x, some y =>
    match sel with
    | 0 => x = y | 1 => x ≠ y | 2 => x < y | 3 => y ≤ x | 4 => x ≤ y | 5 => y < x | 6 => False | _ => True
  | _, _ => sel = 1 ∨ sel = 6

/-- The class of a binary32 word (R181). -/
def fclassOf (w : Word) : Word :=
  let e := w.extractLsb' 23 8
  let m := w.extractLsb' 0 23
  let neg := w.getLsbD 31
  if e = 0xFF#8 then
    if m = 0#23 then (if neg then 1 else 128) else if w.getLsbD 22 then 512 else 256
  else if e = 0#8 then
    if m = 0#23 then (if neg then 8 else 16) else (if neg then 4 else 32)
  else if neg then 2 else 64

/-- The integer that the real x rounds to under a mode (R60). -/
def RoundsToInt (rm : Rm) (x : ℝ) (i : Int) : Prop :=
  match rm with
  | .rne => |x - i| ≤ 1 / 2 ∧ (|x - i| = 1 / 2 → i % 2 = 0)
  | .rtz => |(i : ℝ)| ≤ |x| ∧ |x - i| < 1
  | .ru => i = ⌈x⌉
  | .rd => i = ⌊x⌋
  | .sr => False

/-- A value converted to an integer between lo and hi (R60). -/
def Converts (rm : Rm) (v : FV) (lo hi i : Int) : Prop :=
  match v with
  | .nan _ => i = 0
  | .inf neg => i = if neg then lo else hi
  | .fin neg m => ∃ j, RoundsToInt rm (if neg then - reVal m else reVal m) j ∧ i = max lo (min hi j)

/-- The word of a source after ABS and NEG (R83). -/
def srcWord32 (c : Cx) (f : VForm) (i code l : Nat) : Word :=
  let w := c.src f code l
  let w := if f.absBit i then w &&& 0x7FFFFFFF else w
  if f.negBit i then w ^^^ 0x80000000 else w

/-- The word of lane l of a stream of codes of nb bits, one for each of the first `width` lanes (R186). -/
def IsStreamWord (width nb : Nat) (code : Nat → Nat) (l : Nat) (w : Word) : Prop :=
  ∀ j < 32, w.getLsbD j = (decide ((32 * l + j) / nb < width) && (code ((32 * l + j) / nb)).testBit ((32 * l + j) % nb))

/-- Code l of a stream of codes of nb bits held in a register (R186). -/
def streamCode (g : Machine.Group) (r nb l : Nat) : Nat :=
  ((List.range nb).map fun i =>
    if ((g.lane ((nb * l + i) / 32)).vreg r).getLsbD ((nb * l + i) % 32) then 2 ^ i else 0).sum

/-- `Tree(lo, 2^k)` of R189 over the active lanes. -/
def treeOf (act : Nat → Bool) (leaf : Nat → Nat) (comb : Nat → Nat → Nat) : Nat → Nat → Option Nat
  | 0, lo => if act lo then some (leaf lo) else none
  | k + 1, lo =>
    match treeOf act leaf comb k lo, treeOf act leaf comb k (lo + 2 ^ k) with
    | some x, some y => some (comb x y)
    | some x, none => some x
    | none, y => y

/-- One combination of a binary32 reduction: the rounded sum, the minimum or the maximum (R189). -/
def comb32 (rm : Rm) (op : Nat) (x y : Nat) : Nat :=
  if op = 0 then (Fmt.f32.roundTo rm false 0 (sumFV rm [Fmt.f32.decode x, Fmt.f32.decode y]).v).bits
  else (pickBits .f32 (op == 2) x y).1

/-- The pair (x, i) of an `v.argmax` is not beaten by (y, j) (R191). -/
def Unbeaten (x : FV) (i : Nat) (y : FV) (j : Nat) : Prop :=
  match fvOrder x, fvOrder y with
  | some p, some q => q < p ∨ (p = q ∧ i ≤ j)
  | some _, none => True
  | none, some _ => False
  | none, none => i ≤ j

/-- The uniform of a draw word (R68): (2k + 1) / 2^25 rounded toward zero, k the top 24 bits. -/
def IsUniform (d w : Word) : Prop := Rounds .f32 .rtz false (((2 * (d.toNat / 256) + 1 : Nat) : ℝ) / 2 ^ 25) w.toNat
/-- A binary32 word that is the real x rounded to nearest. -/
def Near (x : ℝ) (w : Word) : Prop := Rounds .f32 .rne false x w.toNat
/-- The normal sample of two draw words (R69). -/
def IsGauss (d1 d2 w : Word) : Prop := ∃ u1 u2 a b r q : Word, IsUniform d1 u1 ∧ IsUniform d2 u2 ∧
  (finiteWord u1 → Near (Real.logb 2 (wordVal u1)) a) ∧ (finiteWord a → Near (wordVal a * wordVal 0xBFB17218) b) ∧
  (finiteWord b → 0 ≤ wordVal b → Near (Real.sqrt (wordVal b)) r) ∧ (finiteWord u2 → Near (Real.cos (2 * Real.pi * wordVal u2)) q) ∧
  (finiteWord r → finiteWord q → Near (wordVal r * wordVal q) w)
/-- The Gumbel sample of a draw word (R70). -/
def IsGumbel (d w : Word) : Prop := ∃ u a b e : Word, IsUniform d u ∧ (finiteWord u → Near (Real.logb 2 (wordVal u)) a) ∧
  (finiteWord a → Near (wordVal a * wordVal 0xBF317218) b) ∧ (finiteWord b → Near (Real.logb 2 (wordVal b)) e) ∧
  (finiteWord e → Near (wordVal e * wordVal 0xBF317218) w)

/-- Comparisons, classes and conversions of binary32 elements (R60, R180 to R183). -/
def ConversionValues : Prop :=
  ∀ (s : State) (c : Cx) (f : VForm), s.cx? = some c →
    let ht := c.gg.fmt.getLsbD 8
    let x (l : Nat) : FV := srcF32 c f 0 f.a.toNat l
    let y (l : Nat) : FV := srcF32 c f 1 f.b.toNat l
    let rm := c.rm f.rnd
    let sat := c.satOf f
    (c.vCheck spFcmp f = .ok () → spFcmp.type ht f = 0 → c.g.ident.width ≤ 32 →
      GroupStep s (maskWritten c f.sreg fun l => fcmpHolds f.sel (x l) (y l)) (exec (.vFcmp f) s)) ∧
    (c.vCheck spFclass f = .ok () → spFclass.type ht f = 0 →
      LaneWords s c f false (fun l w _ => w = fclassOf (srcWord32 c f 0 f.a.toNat l)) (exec (.vFclass f) s)) ∧
    (c.vCheck spFcvt f = .ok () → spFcvt.type ht f = 0 → notSr c f →
      (f.sel = 3 → LaneWords s c f true (fun l w0 w1 => (w1 ++ w0).toNat = (Fmt.f64.roundTo rm sat 0 (x l)).bits) (exec (.vFcvt f) s)) ∧
      (f.sel = 1 ∨ f.sel = 2 → LaneWords s c f false (fun l w _ =>
        (w.extractLsb' 0 16).toNat = ((typeFmt f.sel).roundTo rm sat 0 (x l)).bits ∧
        (w.extractLsb' 16 16).toNat = ((typeFmt f.sel).roundTo rm sat 0 (y l)).bits) (exec (.vFcvt f) s))) ∧
    (c.vCheck spCvtfi f = .ok () → spCvtfi.type ht f = 0 → notSr c f →
      (f.sel = 4 → LaneWords s c f false (fun l w _ => Converts rm (x l) (-2 ^ 31) (2 ^ 31 - 1) w.toInt) (exec (.vCvtfi f) s)) ∧
      (f.sel = 5 → LaneWords s c f false (fun l w _ => Converts rm (x l) 0 (2 ^ 32 - 1) w.toNat) (exec (.vCvtfi f) s)) ∧
      (f.sel = 6 → LaneWords s c f true (fun l w0 w1 => Converts rm (x l) (-2 ^ 63) (2 ^ 63 - 1) (w1 ++ w0).toInt) (exec (.vCvtfi f) s))) ∧
    (c.vCheck spCvtif f = .ok () → f.sel = 0 → notSr c f →
      (spCvtif.type ht f = 4 →
        LaneWords s c f false (fun l w _ => Rounds .f32 rm false ((c.src f f.a.toNat l).toInt : ℝ) w.toNat) (exec (.vCvtif f) s)) ∧
      (spCvtif.type ht f = 5 →
        LaneWords s c f false (fun l w _ => Rounds .f32 rm false ((c.src f f.a.toNat l).toNat : ℝ) w.toNat) (exec (.vCvtif f) s))) ∧
    (c.vCheck spDot2 f = .ok () → notSr c f → ∀ a0 b0 a1 b1 z : Nat → ℝ,
      let el (i code l e : Nat) : Option ℝ := fvReal (c.fval f (spDot2.type ht f) i code l e)
      (∀ l ∈ c.lanes, el 0 f.a.toNat l 0 = some (a0 l) ∧ el 1 f.b.toNat l 0 = some (b0 l) ∧ el 0 f.a.toNat l 1 = some (a1 l) ∧
        el 1 f.b.toNat l 1 = some (b1 l) ∧ fvReal (Fmt.f32.decode (c.src f f.c l).toNat) = some (z l)) →
      LaneWords s c f false (fun l w _ => Rounds .f32 rm false (a0 l * b0 l + a1 l * b1 l + z l) w.toNat) (exec (.vFdot2 f) s))

/-- The class of the bits of an element (R181). -/
def classIn (fm : Fmt) (bits : Nat) : Nat :=
  let ones := 2 ^ (fm.width - 1 - fm.frac) - 1
  let e := bits / 2 ^ fm.frac % (ones + 1)
  let m := bits % 2 ^ fm.frac
  let neg := bits / 2 ^ (fm.width - 1) % 2 = 1
  if e = ones then
    if m = 0 then (if neg then 1 else 128) else if m < 2 ^ (fm.frac - 1) then 256 else 512
  else if e = 0 then
    if m = 0 then (if neg then 8 else 16) else (if neg then 4 else 32)
  else if neg then 2 else 64

/-- Element e that a `v.fcvt` converts: of A where that is packed, else the one of A and then the one of B (R182). -/
def cvtSrc (c : Cx) (f : VForm) (t l e : Nat) : FV :=
  if t = 1 ∨ t = 2 ∨ e = 0 then c.fval f t 0 f.a.toNat l e else c.fval f t 1 f.b.toNat l 0

/-- The integer of a source under a TYPE (R183). -/
def intSrc (c : Cx) (f : VForm) (t l : Nat) : Int :=
  if t = 4 then (c.src f f.a.toNat l).toInt else if t = 5 then (c.src f f.a.toNat l).toNat else (c.src64 f false f.a.toNat l).toInt

/-- Comparisons, classes and conversions of every type, binary64 and packed elements among them (R60, R180 to R183): a conversion
gives each element the one rounding of its source, and FLAGS the flags of these roundings. -/
def WideConversions : Prop :=
  ∀ (s : State) (c : Cx) (f : VForm), s.cx? = some c →
    let ht := c.gg.fmt.getLsbD 8
    let rm := c.rm f.rnd
    (c.vCheck spFcmp f = .ok () → c.g.ident.width ≤ 32 → let t := spFcmp.type ht f
      GroupStep s (maskWritten c f.sreg fun l => fcmpHolds f.sel (c.fval f t 0 f.a.toNat l 0) (c.fval f t 1 f.b.toNat l 0))
        (exec (.vFcmp f) s)) ∧
    (c.vCheck spFclass f = .ok () → let t := spFclass.type ht f
      let m (l e : Nat) : Nat := classIn (typeFmt t) (c.elem f t 0 f.a.toNat l e)
      LaneWords s c f false (fun l w _ => w.toNat = if t = 1 ∨ t = 2 then m l 0 + 65536 * m l 1 else m l 0) (exec (.vFclass f) s)) ∧
    (c.vCheck spFcvt f = .ok () → notSr c f → let t := spFcvt.type ht f
      let el (l e : Nat) : Rnd := (typeFmt f.sel).roundTo rm (c.satOf f) 0 (cvtSrc c f t l e)
      let two : Bool := packed t || packed f.sel
      LaneWords s c f (spFcvt.pairD t f.sel) (fun l w0 w1 =>
        if f.sel = 3 then (w1 ++ w0).toNat = (el l 0).bits
        else if packed f.sel then (w0.extractLsb' 0 16).toNat = (el l 0).bits ∧ (w0.extractLsb' 16 16).toNat = (el l 1).bits
        else w0.toNat = (el l 0).bits ∧ (packed t → w1.toNat = (el l 1).bits)) (exec (.vFcvt f) s) ∧
      GroupStep s (fun g' => g'.flags = c.lanes.foldl (fun fl l => fl ||| (el l 0).flags ||| if two then (el l 1).flags else 0)
        c.g.flags) (exec (.vFcvt f) s)) ∧
    (c.vCheck spCvtfi f = .ok () → notSr c f → let t := spCvtfi.type ht f
      let x (l : Nat) : FV := c.fval f t 0 f.a.toNat l 0
      LaneWords s c f (f.sel == 6) (fun l w0 w1 =>
        if f.sel = 4 then Converts rm (x l) (-2 ^ 31) (2 ^ 31 - 1) w0.toInt
        else if f.sel = 5 then Converts rm (x l) 0 (2 ^ 32 - 1) w0.toNat
        else Converts rm (x l) (-2 ^ 63) (2 ^ 63 - 1) (w1 ++ w0).toInt) (exec (.vCvtfi f) s)) ∧
    (c.vCheck spCvtif f = .ok () → notSr c f →
      let i (l : Nat) : ℝ := (intSrc c f (spCvtif.type ht f) l : ℝ)
      LaneWords s c f (f.sel == 3) (fun l w0 w1 =>
        Rounds (typeFmt f.sel) rm false (i l) (if f.sel = 3 then (w1 ++ w0).toNat else w0.toNat)) (exec (.vCvtif f) s))

/-- The clip of a `v.mxquant` with a clip source: a positive real, or none where it is infinite, not positive or a NaN (R187). -/
def ClipIs (y : FV) (clip : Option ℝ) : Prop :=
  match clip with
  | some k => fvReal y = some k ∧ 0 < k
  | none => ∀ k, fvReal y = some k → k ≤ 0

/-- The lanes above the clip, by decreasing magnitude and ties to the smaller lane (R187). -/
def OutlierOrder (clip : Option ℝ) (v : Nat → ℝ) (o : List Nat) : Prop :=
  (∀ l, l ∈ o ↔ l < 32 ∧ ∃ k, clip = some k ∧ k < |v l|) ∧ o.Pairwise fun i j => |v j| < |v i| ∨ (|v j| = |v i| ∧ i < j)

/-- `v.mxquant` under a clip (R187): the lanes above it in order, the first CAP of them captured with code 0 and a BF16 entry, the rest
saturated; the scale of the clipped maximum; Table 6.4; OUTLIEROVF where a lane beyond the capacity saturates. -/
def ClippedBlocks : Prop :=
  ∀ (s : State) (c : Cx) (f : VForm) (fm : Fmt), s.cx? = some c → narrowFmt c f = some fm → notSr c f →
    c.vCheck spMxquant f (blockFmt fm && c.g.ident.width == 32) = .ok () → c.active = 0xFFFFFFFF → f.b.toNat ≠ 123 →
    let rm := c.rm f.rnd
    let x (l : Nat) : FV := srcF32 c f 0 f.a.toNat l
    let y : FV := srcF32 c f 1 f.b.toNat 0
    let cap : Nat := [0, 1, 2, 4].getD (f.sel / 2 % 4) 0
    let kept (l : Nat) : Prop := (5 ≤ l ∨ f.d.toNat ≠ f.c) ∧ f.d.toNat < 120 ∧ f.d.toNat < (c.g.lane l).v.length
    (∀ (v : Nat → ℝ) (clip : Option ℝ), (∀ l < 32, fvReal (x l) = some (v l)) → ClipIs y clip →
      GroupStep s (fun g' => ∃ (o : List Nat) (sc : Nat) (q e : Nat → Nat), OutlierOrder clip v o ∧
        ((∀ l < 32, v l = 0) → sc = 0) ∧
        (∀ k : Int, (∃ l < 32, (2 : ℝ) ^ k ≤ |v l|) → (∀ m, clip = some m → (2 : ℝ) ^ k ≤ m) →
          ((∀ l < 32, |v l| < (2 : ℝ) ^ (k + 1)) ∨ ∃ m, clip = some m ∧ m < (2 : ℝ) ^ (k + 1)) →
          (sc : Int) = max 0 (min 254 (k - fm.emaxElem + 127))) ∧
        (∀ l < 32, if l ∈ o.take cap then q l = 0 ∧ Rounds .bf16 rm (c.satOf f) (v l) (e l)
          else Rounds fm rm true (v l / (2 : ℝ) ^ ((sc : Int) - 127)) (q l)) ∧
        (∀ l < 32, kept l → IsStreamWord 32 fm.width q l ((g'.lane l).vreg f.d.toNat)) ∧
        (∀ l < 5, f.c < (c.g.lane l).v.length → ((g'.lane l).vreg f.c).toNat =
          if l = 0 then (o.length - cap) * 2 ^ 11 + min cap o.length * 2 ^ 8 + sc
          else match (o.take cap)[l - 1]? with
            | some i => e i * 2 ^ 16 + 2 ^ 5 + i
            | none => 0) ∧
        g'.flags.getLsbD 6 = (c.g.flags.getLsbD 6 || decide (cap < o.length))) (exec (.vMxquant f) s)) ∧
    ((∃ l < 32, fvReal (x l) = none) → GroupStep s (fun g' =>
      (∀ l < 32, kept l → (g'.lane l).vreg f.d.toNat = 0) ∧
      (∀ l < 5, f.c < (c.g.lane l).v.length → (g'.lane l).vreg f.c = if l = 0 then 0xFF else 0) ∧ g'.flags.getLsbD 8 = true)
      (exec (.vMxquant f) s)) ∧
    (y.isNan = true ∨ y = .inf true ∨ (∃ k, fvReal y = some k ∧ k ≤ 0) →
      GroupStep s (fun g' => g'.flags.getLsbD 4 = true) (exec (.vMxquant f) s))

/-- Narrow formats and microscaled blocks (R184 to R188). -/
def NarrowValues : Prop :=
  ∀ (s : State) (c : Cx) (f : VForm) (fm : Fmt), s.cx? = some c → narrowFmt c f = some fm → notSr c f →
    let W := c.g.ident.width
    let rm := c.rm f.rnd
    let x (l : Nat) : FV := srcF32 c f 0 f.a.toNat l
    let code (l : Nat) : FV := fm.decode (streamCode c.g f.a.toNat fm.width l)
    (c.vCheck spQpack f true = .ok () → LaneWords s c f false (fun l w _ => IsStreamWord W fm.width (fun k =>
      if k ∈ c.lanes then (fm.roundTo rm (c.satOf f) 0 (x k)).bits else 0) l w) (exec (.vQpack f) s)) ∧
    (c.vCheck spQunpack f (f.a.toNat < 120) = .ok () → LaneWords s c f false (fun l w _ => l < W →
      (∀ v, fvReal (code l) = some v → Rounds .f32 rm false v w.toNat) ∧ ((code l).isNan = true → w = 0x7FC00000) ∧
      (∀ neg, code l = .inf neg → w = if neg then 0xFF800000 else 0x7F800000)) (exec (.vQunpack f) s)) ∧
    (c.vCheck spMxquant f (blockFmt fm && W == 32) = .ok () → c.active = 0xFFFFFFFF → f.b.toNat = 123 →
      (∀ v : Nat → ℝ, (∀ l < 32, fvReal (x l) = some (v l)) → GroupStep s (fun g' => ∃ (sc : Nat) (q : Nat → Nat),
        ((∀ l < 32, v l = 0) → sc = 0) ∧
        (∀ k : Int, (∃ l < 32, (2 : ℝ) ^ k ≤ |v l|) → (∀ l < 32, |v l| < (2 : ℝ) ^ (k + 1)) →
          (sc : Int) = max 0 (min 254 (k - fm.emaxElem + 127))) ∧
        (∀ l < 32, Rounds fm rm true (v l / (2 : ℝ) ^ ((sc : Int) - 127)) (q l)) ∧
        (∀ l < 32, (5 ≤ l ∨ f.d.toNat ≠ f.c) → f.d.toNat < 120 → f.d.toNat < (c.g.lane l).v.length →
          IsStreamWord 32 fm.width q l ((g'.lane l).vreg f.d.toNat)) ∧
        ∀ l < 5, f.c < (c.g.lane l).v.length → (g'.lane l).vreg f.c = if l = 0 then BitVec.ofNat 32 sc else 0) (exec (.vMxquant f) s)) ∧
      ((∃ l < 32, fvReal (x l) = none) → GroupStep s (fun g' =>
        (∀ l < 32, (5 ≤ l ∨ f.d.toNat ≠ f.c) → f.d.toNat < 120 → f.d.toNat < (c.g.lane l).v.length → (g'.lane l).vreg f.d.toNat = 0) ∧
        (∀ l < 5, f.c < (c.g.lane l).v.length → (g'.lane l).vreg f.c = if l = 0 then 0xFF else 0) ∧ g'.flags.getLsbD 8 = true)
        (exec (.vMxquant f) s))) ∧
    (c.vCheck spMxdeq f (f.a.toNat < 120) = .ok () → ∀ scale : Nat → Nat,
      (f.sel < 2 ∧ (∀ l, scale l = (c.src f f.b.toNat l).toNat % 256) ∨
       2 ≤ f.sel ∧ tileReadable c f ∧ ∃ id off, c.place (c.g.readS f.sreg) 128 = some (.team id off) ∧ ∀ l,
         let b := (c.src f f.b.toNat l).toNat
         scale l = (Mem.read (s.spad (.team id off)).bytes (off + (b % 8 * 16 + b / 8 % 4 * 4 + b / 32 % 4))).toNat) →
      LaneWords s c f false (fun l w _ => l < W → (scale l = 255 → w = 0x7FC00000) ∧
        (scale l ≠ 255 → ∀ v, fvReal (code l) = some v →
          Rounds .f32 rm false (v * (2 : ℝ) ^ ((scale l : Int) - 127)) w.toNat)) (exec (.vMxdeq f) s))

/-- Reductions, scans, `v.argmax` and the samplers on binary32 elements (R189 to R192, R67 to R70). -/
def ReductionValues : Prop :=
  ∀ (s : State) (c : Cx) (f : VForm), s.cx? = some c →
    let ht := c.gg.fmt.getLsbD 8
    let op := f.sel % 4
    let leaf (l : Nat) : Nat := (srcWord32 c f 0 f.a.toNat l).toNat
    let comb := comb32 (c.rm f.rnd) op
    (c.vCheck spFred f = .ok () → spFred.type ht f = 0 → notSr c f →
      ∀ r, treeOf (fun l => decide (l ∈ c.lanes)) leaf comb (Nat.log2 c.g.ident.width) 0 = some r →
      (f.sel < 8 → LaneWords s c f false (fun _ w _ => w = BitVec.ofNat 32 r) (exec (.vFred f) s)) ∧
      (8 ≤ f.sel → f.sreg ≠ 63 → f.sreg < c.g.s.length →
        GroupStep s (fun g' => g'.s.getD f.sreg 0 = BitVec.ofNat 64 r) (exec (.vFred f) s))) ∧
    (c.vCheck spFscan f = .ok () → spFscan.type ht f = 0 → notSr c f →
      LaneWords s c f false (fun l w _ => w = BitVec.ofNat 32
        (match (c.lanes.filter fun i => i < l || (f.sel < 8 && i == l)).map leaf with
          | y :: ys => ys.foldl comb y
          | [] => match op with | 0 => 0 | 1 => 0x7F800000 | _ => 0xFF800000)) (exec (.vFscan f) s)) ∧
    (c.vCheck spArgmax f = .ok () →
      LaneWords s c f true (fun _ w0 w1 => ∃ b ∈ c.lanes, w1 = c.src f f.b.toNat b ∧
        (w0 = if (srcF32 c f 0 f.a.toNat b).isNan then 0x7FC00000 else srcWord32 c f 0 f.a.toNat b) ∧
        ∀ l ∈ c.lanes, Unbeaten (srcF32 c f 0 f.a.toNat b) (c.src f f.b.toNat b).toNat
          (srcF32 c f 0 f.a.toNat l) (c.src f f.b.toNat l).toNat) (exec (.vArgmax f) s)) ∧
    (c.vCheck spRnd f (f.hold == 0) = .ok () →
      let d1 (l : Nat) : Word := (c.drawWord c.g l).1
      let d2 (l : Nat) : Word := (c.drawWord (c.drawWord c.g l).2 l).1
      LaneWords s c f false (fun l w _ => IsUniform (d1 l) w) (exec (.vRndu f) s) ∧
      LaneWords s c f false (fun l w _ => IsGauss (d1 l) (d2 l) w) (exec (.vRndn f) s) ∧
      LaneWords s c f false (fun l w _ => IsGumbel (d1 l) w) (exec (.vRndg f) s))

end Sys2Proof.Claims

/-- R10, R43, R180 to R192, R117 to R123: the other floating-point instructions and the distribution instructions complete, and
change nothing but their destinations in the active lanes, FLAGS bits that they raise, and draw counters where they draw. On
binary32 elements and under a mode other than SR, comparisons, classes, conversions, `v.fdot2`, packing, blocks, reductions, scans,
`v.argmax` and the samplers deliver the values of R60, R67 to R70 and R180 to R192; so do comparisons, classes and conversions of
binary64 and packed elements, and blocks under a clip with their captured outliers; the one rounding of a rational to a format
other than LNS6 is that of R55 to R57 between adjacent grid points. -/
def Obligations.VectorRestCompletes : Prop :=
  RoundingRule ∧
  (∀ e ∈ floatRest ++ distTable, ∀ (s : State) (c : Cx) (f : VForm), s.cx? = some c → e.2.1 c f →
    GroupStep s (AluFrame (e.2.2 c f) c.g c.gg (encode (.vMov f)).length) (exec (e.1 f) s)) ∧
  ConversionValues ∧ WideConversions ∧ NarrowValues ∧ ClippedBlocks ∧ ReductionValues

namespace Sys2Proof.Claims

/-! ## Gloves -/

/-- Glove word j of a source (R22, R82). -/
def gloveWord (c : Cx) (code l j : Nat) : Word :=
  if code < c.g.ident.dw then (((c.g.lane l).gloves[code]?).getD []).getD j 0 else 0
/-- Every glove of a lane has 1 + K words. -/
def glovesWhole (c : Cx) : Prop := ∀ l ∈ c.lanes, ∀ gl ∈ (c.g.lane l).gloves, gl.length = 1 + c.g.ident.k
/-- The glove of D in each active lane. -/
def LaneGloves (s : State) (c : Cx) (d : Nat) (ls : List Nat) (P : Nat → List Word → Prop)
    (r : Host.Outcome State Fault Refusal) : Prop :=
  GroupStep s (fun g' => ∀ l ∈ ls, d < 120 → d < (c.g.lane l).gloves.length →
    ∃ gl, (g'.lane l).gloves[d]? = some gl ∧ P l gl) r
/-- A word made fit for word 0 (R119). -/
def fitWord (w : Word) : Word :=
  if w.extractLsb' 23 8 = 0xFF#8 ∧ w.extractLsb' 0 23 ≠ 0#23 then 0x7F800000
  else if w = 0x80000000 then 0 else if w.getLsbD 31 then 0x7F800000 else w

/-- The instructions that clear the glove of what they write (R111): the check, the width of the result, and the lanes. -/
def clearTable : List ((VForm → Instr) × (Cx → VForm → Prop) × Bool) :=
  (vectorTable.map fun e => (e.1, (fun c f => c.vCheck e.2.1 f = .ok ()), false)) ++
  [(.vIota, fun c f => c.vCheck spInt2 f = .ok (), false), (.vBfx, fun c f => c.vCheck spInt2 f = .ok (), false),
   (.vBfi, fun c f => c.vCheck spBfi f = .ok (), false), (.vMad, fun c f => c.vCheck spMad f = .ok (), false),
   (.vIscan, fun c f => c.vCheck spIscan f = .ok (), false), (.vAdd64, fun c f => c.vCheck spInt64 f = .ok (), true),
   (.vSub64, fun c f => c.vCheck spInt64 f = .ok (), true), (.vFclass, fun c f => c.vCheck spFclass f = .ok (), false),
   (.vCvtfi, fun c f => c.vCheck spCvtfi f = .ok (), false), (.vRndu, fun c f => c.vCheck spRnd f (f.hold == 0) = .ok (), false),
   (.vRndn, fun c f => c.vCheck spRnd f (f.hold == 0) = .ok (), false), (.vRndg, fun c f => c.vCheck spRnd f (f.hold == 0) = .ok (), false)]

/-- The moves that copy gloves (R109): the check, and the source code and lane that each lane reads. -/
def copyGloves : List ((VForm → Instr) × VSpec × (Cx → VForm → Nat → Nat × Nat)) :=
  [(.vMov, spMov, fun _ f l => (f.a.toNat, l)),
   (.vSel, spSel, fun c f l => (if (c.g.readS f.sreg).getLsbD l then f.a.toNat else f.b.toNat, l)),
   (.vShfl, spShfl, fun c f l =>
      let j := (c.src f f.b.toNat l).toNat % 32
      (f.a.toNat, if j < c.g.ident.width ∧ (c.g.readS f.sreg).getLsbD j = true ∧ j ∈ c.lanes then j else l)),
   (.vShflx, spShflx, fun c f l =>
      let j := l ^^^ ((c.src f f.b.toNat l).toNat % 32)
      (f.a.toNat, if j < c.g.ident.width ∧ j ∈ c.lanes then j else l))]

/-- Squares of the partials at finite operands (Table 4.3). -/
def partialSquares : List ((VForm → Instr) × VSpec × FOp × (ℝ → ℝ → List ℝ)) :=
  [(.vFadd, spArith2, opAdd, fun _ _ => [1, 1]), (.vFsub, spArith2, opSub, fun _ _ => [1, 1]),
   (.vFmul, spArith2, opMul, fun x y => [y ^ 2, x ^ 2]), (.vFfma, spArith3, opFma, fun x y => [y ^ 2, x ^ 2, 1])]

/-- The distribution instructions (R118 to R120, R122, R123). -/
def DistributionValues : Prop :=
  ∀ (s : State) (c : Cx) (f : VForm), s.cx? = some c → glovesWhole c →
    let d := f.d.toNat
    let K := c.g.ident.k
    let tracked : Prop := c.gg.fmt.extractLsb' 12 2 = 2#2
    let total (l : Nat) : ℝ := |wordVal (gloveWord c f.a.toNat l 0)| +
      ((List.range K).map fun j => wordVal (gloveWord c f.a.toNat l (j + 1)) ^ 2).sum
    let finiteGlove (l : Nat) : Prop := ∀ j < K + 1, finiteWord (gloveWord c f.a.toNat l j)
    let whole (l : Nat) : Prop := ∀ r, r < c.g.ident.dw → r < (c.g.lane l).gloves.length
    (c.dCheck dvarOk f false = .ok () → LaneWords s c f false (fun l w _ =>
      (¬ tracked → w = gloveWord c f.a.toNat l 0) ∧
      (tracked → whole l → finiteGlove l → Rounds .f32 .ru false (total l) w.toNat)) (exec (.vDvar f) s)) ∧
    (c.dCheck dsetOk f false = .ok () →
      LaneWords s c f false (fun l w _ => w = c.src f f.a.toNat l) (exec (.vDset f) s) ∧
      LaneGloves s c d c.lanes (fun l gl => gl = fitWord (c.src f f.b.toNat l) :: List.replicate K 0) (exec (.vDset f) s)) ∧
    (c.dCheck dgetdOk f false = .ok () →
      LaneWords s c f false (fun l w _ => w = gloveWord c f.a.toNat l f.sel) (exec (.vDgetd f) s)) ∧
    (c.dCheck dsetdOk f true = .ok () → LaneGloves s c d c.lanes (fun l gl => ∀ j < K + 1, gl.getD j 0 =
      if j = f.sel then (if j = 0 then fitWord (c.src f f.b.toNat l) else c.src f f.b.toNat l)
      else (((c.g.lane l).gloves[d]?).getD []).getD j 0) (exec (.vDsetd f) s)) ∧
    (c.dCheck dnoiseOk f true = .ok () → (f.sel = 0 ∨ tracked) → LaneGloves s c d c.lanes (fun l gl =>
      let w := c.src f f.b.toNat l
      let old (j : Nat) : Word := (((c.g.lane l).gloves[d]?).getD []).getD j 0
      (∀ j < K + 1, j ≠ f.sel → gl.getD j 0 = old j) ∧
      (f.sel ≠ 0 → (nanWord w → gl.getD f.sel 0 = 0x7F800000) ∧ (¬ nanWord w → gl.getD f.sel 0 = w &&& 0x7FFFFFFF)) ∧
      (f.sel = 0 → finiteWord w → finiteWord (old 0) →
        Rounds .f32 .ru false (|wordVal (old 0)| + wordVal w ^ 2) (gl.getD 0 0).toNat)) (exec (.vDnoise f) s)) ∧
    (dchkOk f = true → c.gg.pfx = [] → c.vregOk false f.a.toNat = true → c.sregOk f.sreg = true → ¬ tracked → c.g.ident.width ≤ 32 →
      GroupStep s (maskWritten c f.sreg fun l =>
        let m := c.src f f.a.toNat l
        let v := gloveWord c f.a.toNat l 0
        let t : ℝ := (2 : ℝ) ^ (((c.gg.fmt.extractLsb' 24 8).toNat : Int) - 128)
        nanWord m ∨ (m &&& 0x7FFFFFFF = 0x7F800000 ∧ v &&& 0x7FFFFFFF ≠ 0) ∨
          (finiteWord m ∧ (finiteWord v → t ^ 2 * wordVal m ^ 2 < |wordVal v|))) (exec (.vDchk f) s))

end Sys2Proof.Claims

/-- R59, R104, R109, R111, R118 to R123: `v.dclr` writes +0.0 into every glove word of vd in the active lanes and leaves the primary word
unchanged. The integer instructions, `v.setlane`, `v.fclass`, `v.cvtfi` and the samplers clear the glove of what they write; the
moves copy the whole glove of the source that they read, or clear it under `pfx.pt`; the charge of a rounding is that of R59; in
independent mode with no second order and no tangents, word 0 of a sum, difference, product or fused product of finite binary32
operands is the sum of the squared partials times the source variances and the charge of the rounding, rounded up; and the
distribution instructions deliver what R118 to R120, R122 and R123 give. -/
def Obligations.DclrClearsGlove : Prop :=
  RoundVarRule ∧
  (∀ (s : State) (c : Cx) (f : VForm), s.cx? = some c → c.dCheck dclrOk f true = .ok () →
    GroupStep s (fun g' => ∀ l ∈ c.lanes, ∀ gl, (c.g.lane l).gloves[f.d.toNat]? = some gl →
      gl.length = 1 + c.g.ident.k →
      (g'.lane l).gloves[f.d.toNat]? = some (List.replicate (1 + c.g.ident.k) 0) ∧
      (g'.lane l).vreg f.d.toNat = (c.g.lane l).vreg f.d.toNat) (exec (.vDclr f) s)) ∧
  (∀ (s : State) (c : Cx) (f : VForm), s.cx? = some c →
    let zero (gl : List Word) : Prop := gl = List.replicate (1 + c.g.ident.k) 0
    (∀ e ∈ clearTable, e.2.1 c f → LaneGloves s c f.d.toNat c.lanes (fun _ => zero) (exec (e.1 f) s) ∧
      (e.2.2 = true → f.d.toNat + 1 < 120 → LaneGloves s c (f.d.toNat + 1) c.lanes (fun _ => zero) (exec (e.1 f) s))) ∧
    (c.vCheck spSetlane f (f.c < c.g.ident.width) = .ok () →
      LaneGloves s c f.d.toNat (c.lanes.filter (· = f.c)) (fun _ => zero) (exec (.vSetlane f) s)) ∧
    ∀ e ∈ copyGloves, c.vCheck e.2.1 f = .ok () → LaneGloves s c f.d.toNat c.lanes (fun l gl =>
      let from' := e.2.2 c f l
      if c.gg.pfx.any Pfx.isPt then zero gl
      else if from'.1 < c.g.ident.dw then gl = ((c.g.lane from'.2).gloves[from'.1]?).getD (List.replicate (1 + c.g.ident.k) 0)
      else zero gl) (exec (e.1 f) s)) ∧
  (∀ (s : State) (c : Cx) (f : VForm), s.cx? = some c → c.gg.pfx = [] → c.gg.fmt.extractLsb' 12 2 = 1#2 →
    c.gg.fmt.getLsbD 14 = false → c.gg.fmt.getLsbD 18 = false → ∀ e ∈ partialSquares, c.vCheck e.2.1 f = .ok () →
    e.2.1.type (c.gg.fmt.getLsbD 8) f = 0 → notSr c f → LaneGloves s c f.d.toNat c.lanes (fun l gl =>
      let codes := [f.a.toNat, f.b.toNat, f.c]
      let src (i : Nat) : FV := srcF32 c f i (codes.getD i 123) l
      ∀ x y : ℝ, fvReal (src 0) = some x → fvReal (src 1) = some y → (∀ i < e.2.2.1.n, (fvReal (src i)).isSome = true) →
        (∀ i < e.2.2.1.n, finiteWord (gloveWord c (codes.getD i 123) l 0)) →
        let rm := c.rm f.rnd
        let out := (e.2.2.1.round .f32 rm (c.satOf f) 0 (e.2.2.1.val rm ((List.range e.2.2.1.n).map src)).v).2.2
        (∀ r, out = .re r → Rounds .f32 .ru false
          (((List.range e.2.2.1.n).map fun i => (e.2.2.2 x y).getD i 0 * |wordVal (gloveWord c (codes.getD i 123) l 0)|).sum + reVal r)
          (gl.getD 0 0).toNat) ∧
        (out = .inf → gl.getD 0 0 = 0x7F800000) ∧ ∀ j, 1 ≤ j → gl.getD j 0 = 0) (exec (e.1 f) s)) ∧
  DistributionValues

namespace Sys2Proof.Claims

/-- What the end of an instruction leaves of a latch: its word, readable for one instruction less, or to the end of the clause where a
destination wrote it (4); the end of the clause closes it (R85). -/
def latchAfter (last : Bool) (x : Latch) : Latch := ⟨x.val, if last then 0 else if x.life = 4 then 4 else x.life - 1⟩

/-- Latches: the end of an instruction ages or closes those of the gang's lanes and leaves the others; a latch in its window reads
as its word; an instruction leaves in each active lane the result in the latch that its destination names, and otherwise the word
of the source that HOLD names, readable for two more instructions (R82, R85). -/
def LatchValues : Prop :=
  (∀ (g : Machine.Group) (gg : Gang) (n l : Nat), gg.slices.Nodup →
    ((g.advance gg n).lane l).latches =
      if l ∈ gg.lanes then (g.lane l).latches.map (latchAfter (gg.atEnd n)) else (g.lane l).latches) ∧
  (∀ (c : Cx) (f : VForm) (l n : Nat) (x : Latch), n < 3 → (c.g.lane l).latches[n]? = some x → x.life ≠ 0 →
    c.src f (120 + n) l = x.val) ∧
  ∀ (s : State) (c : Cx) (f : VForm), s.cx? = some c → c.gg.slices.Nodup → ∀ e ∈ vectorTable, c.vCheck e.2.1 f = .ok () →
    let last := c.gg.atEnd (encode (e.1 f)).length
    GroupStep s (fun g' => ∀ l ∈ c.lanes, ∀ n < 3, ∀ x, (c.g.lane l).latches[n]? = some x →
      (g'.lane l).latches[n]? = some (
        if f.d.toNat = 120 + n then ⟨e.2.2 (c.src f f.a.toNat l) (c.src f f.b.toNat l), if last then 0 else 4⟩
        else if f.hold.toNat = 1 + n then ⟨c.src f f.a.toNat l, if last then 0 else 2⟩
        else if f.hold.toNat = 5 + n then ⟨c.src f f.b.toNat l, if last then 0 else 2⟩
        else latchAfter last x)) (exec (e.1 f) s)

end Sys2Proof.Claims

/-- R76, R82, R85, R91, R93, R124: an instruction's end moves its gang past its words and ages or closes the gang's operand latches, and
touches nothing else of the group; an integer instruction leaves its result in the latch that its destination names and the word of
the source that HOLD names in the held latch; a prefix word is kept for the next instruction of its clause, in order, and changes
nothing else. -/
def Obligations.AdvanceAndPrefix : Prop :=
  LatchValues ∧
  (∀ (g : Machine.Group) (gg : Gang) (n : Nat), AluFrame onlyNone g gg n (g.advance gg n) ∧
      (gg.advance n).pc = gg.pc + BitVec.ofNat 64 (4 * n) ∧ (gg.advance n).fmt = gg.fmt ∧ (gg.advance n).slices = gg.slices ∧
      (gg.advance n).park = none ∧ (gg.atEnd n = false → (gg.advance n).clause = gg.clause)) ∧
  (∀ (s : State) (c : Cx) (p : PForm), s.cx? = some c →
      ∀ e ∈ ([(.pfxDual, .dual), (.pfxMom, .mom), (.pfxPt, .pt), (.pfxSr, .sr)] : List ((PForm → Instr) × (PForm → Pfx))),
        exec (e.1 p) s = .next (s.putGroup (c.g.modGang c.gg.id fun x => { x with pfx := x.pfx ++ [e.2 p], pc := x.pc + 4 })))

/-- R20: `DrawWord(l)` uses Bits(counter, 31, 2) as the block index and Bits(counter, 1, 0) as the word within the block, and
then adds 1 to the counter modulo 2^32. -/
def Obligations.DrawCounterAdvances : Prop :=
  ∀ (c : Cx) (g : Machine.Group) (l : Nat), l < g.lanes.length →
    ((c.drawWord g l).2.lane l).draw = (g.lane l).draw + 1 ∧
    (∀ i, i ≠ l → (c.drawWord g l).2.lane i = g.lane i) ∧
    (c.drawWord g l).1 =
      (let o := philox (((g.lane l).draw.extractLsb' 2 30).toNat, g.ident.idx * 32 + l, c.t.teamId, c.l.launchId.toNat)
        c.l.seedLo.toNat c.l.seedHi.toNat
       BitVec.ofNat 32 ([o.1, o.2.1, o.2.2.1, o.2.2.2].getD ((g.lane l).draw.extractLsb' 0 2).toNat 0))

namespace Sys2Proof.Claims

/-! ## Global memory -/

/-- The gang stands after its instruction of n words, not parked. -/
def Advanced (t : State) (c : Cx) (n : Nat) : Prop :=
  ∃ g' x, t.group? c.g.ident.id = some g' ∧ g'.gang? c.gg.id = some x ∧ x.pc = c.gg.pc + BitVec.ofNat 64 (4 * n) ∧ x.park = none

/-- The instructions that access global memory: their checks, and the accesses they make. -/
def globalTable : List ((MForm → Instr) × (Cx → MForm → Prop) × (Cx → MForm → MKind × List Req)) :=
  let order (m : MForm) (ret atomic : Bool) : MKind := ⟨ret, atomic, m.scope.toNat, m.order.toNat⟩
  [(.vLd, fun c m => c.mCheck (vLdOk m) m (mRegs m) [] = .ok (),
     fun c m => (order m true false, c.lanes.map (c.ldReq m))),
   (.vSt, fun c m => c.mCheck (vStOk m) m (mRegs m) [] = .ok (), fun c m => (order m false false, c.lanes.map (c.stReq m))),
   (.sLd, fun c m => c.mCheck (sLdOk m) m 0 [m.vd.toNat] = .ok (),
     fun c m => (order m true false, c.groupReq m (imm16 m) (.load (m.tag == 1) [c.gg.sTgt m.vd.toNat]))),
   (.sSt, fun c m => c.mCheck (sStOk m) m 0 [m.vd.toNat] = .ok (),
     fun c m => (order m false false,
       c.groupReq m (imm16 m) (.act (.store (leBytes (mBytes m) (c.g.readS m.vd.toNat).toNat))))),
   (.vAtom, fun c m => c.mCheck (vAtomOk m) m (mRegs m) [] = .ok (),
     fun c m => (order m true true, c.lanes.map (c.laneReq m (imm12 m) fun l =>
       .act (.atom (mAtop m) (mW64 m) (c.g.opnd l m.vd.toNat (mW64 m)) (some (c.g.vTgts l m.vd.toNat (mRegs m))))))),
   (.vCas, fun c m => c.mCheck (vCasOk m) m (2 * mRegs m) [] = .ok (),
     fun c m => (order m true true, c.lanes.map (c.laneReq m (imm12 m) fun l =>
       .act (.cas (mW64 m) (c.g.opnd l m.vd.toNat (mW64 m)) (c.g.opnd l (m.vd.toNat + mRegs m) (mW64 m))
         (c.g.vTgts l m.vd.toNat (mRegs m)))))),
   (.vRed, fun c m => c.mCheck (vRedOk m) m (mRegs m) [] = .ok (),
     fun c m => (order m false true, c.lanes.map (c.laneReq m (imm12 m) fun l =>
       .act (.atom (mAtop m) (mW64 m) (c.g.opnd l m.vd.toNat (mW64 m)) none)))),
   (.sAtom, fun c m => c.mCheck (sAtomOk m) m 0 [m.vd.toNat] = .ok (),
     fun c m => (order m true true, c.groupReq m (imm12 m)
       (.act (.atom (mAtop m) (mW64 m) (c.g.readS m.vd.toNat) (some [c.gg.sTgt m.vd.toNat]))))),
   (.sCas, fun c m => c.mCheck (sCasOk m) m 0 [m.vd.toNat, m.vd.toNat + 1] = .ok (),
     fun c m => (order m true true, c.groupReq m (imm12 m)
       (.act (.cas (mW64 m) (c.g.readS m.vd.toNat) (c.g.readS (m.vd.toNat + 1)) [c.gg.sTgt m.vd.toNat]))))]

/-- Nothing of the group or of an engine holds the gang's accesses back: no commit is outstanding, nothing waits for the key, the group
does not hold the serial lock, the gang is in no fault split and in no handler of one, the group's crew operations are done, the link
between the compute dies is up, no copy command is in flight, and no deferred addition to an SC page is left. -/
def nothingAhead (c : Cx) : Prop :=
  c.g.tx.close = none ∧ c.g.keyq = [] ∧ c.g.tx.lockHeld = false ∧ c.gg.split = none ∧ c.releaseHeld = false ∧
  LinkId.cdCd ∉ c.s.linksDown ∧ (∀ g ∈ c.s.groups, g.cmds = []) ∧ c.scBusy = false

/-- Nothing holds the accesses back, no lane of the group is in a transaction, and every address is a multiple of its width. -/
def accessFree (c : Cx) (reqs : List Req) : Prop :=
  nothingAhead c ∧ c.g.tx.depth = 0 ∧ (∀ r ∈ reqs, ∀ l, r.lane = some l → (c.g.lane l).tx.inTx = false) ∧
  (∀ r ∈ reqs, ∀ b ∈ r.subs, b.va.toNat % b.n = 0)

/-- The same, and every address translates. -/
def accessReady (c : Cx) (reqs : List Req) : Prop :=
  accessFree c reqs ∧ ∀ t ∈ (c.trReqs reqs c.s).1, ∀ x ∈ t.2, ∃ pa leaf, x.2 = .ok pa leaf

/-- The pieces of physical memory that the accesses touch. -/
def piecesIn (c : Cx) (reqs : List Req) : List Piece := (c.trReqs reqs c.s).1.flatMap fun t => piecesOf t.1 t.2

/-- Old and new value of an integer atomic on n bits (Table 7.4). -/
def atomicTable (n : Nat) : List (Nat × (BitVec n → BitVec n → BitVec n)) :=
  [(0, fun o b => o + b), (1, fun o b => o &&& b), (2, fun o b => o ||| b), (3, fun o b => o ^^^ b),
   (4, fun o b => if o.toInt ≤ b.toInt then o else b), (5, fun o b => if o.toNat ≤ b.toNat then o else b),
   (6, fun o b => if o.toInt ≥ b.toInt then o else b), (7, fun o b => if o.toNat ≥ b.toNat then o else b),
   (8, fun _ b => b), (12, fun o b => if o.toNat ≥ b.toNat then 0 else o + 1),
   (13, fun o b => if o = 0 ∨ o.toNat > b.toNat then b else o - 1)]

/-- The one piece of a group-level access. -/
def onePiece (c : Cx) (m : MForm) (imm : DWord) (write : Bool) (pa : Nat) (leaf : DWord) : Prop :=
  c.s.translate c.die (some c.t.core) (c.g.readS m.sb.toNat + imm) ⟨write, false, c.priv⟩ c.gg.afresh = (.ok pa leaf, c.s)

/-- The access stands at `pa`, and its translation changes nothing. -/
def standsAt (c : Cx) (b : Sub) (pa : Nat) : Prop :=
  ∃ leaf, c.s.translate c.die (some c.t.core) b.va ⟨b.act.isWrite, false, c.priv⟩ c.gg.afresh = (.ok pa leaf, c.s)

/-- Every access stands in memory, no walk changes anything, and no two of the accesses share a byte. -/
def accessApart (c : Cx) (reqs : List Req) : Prop :=
  (∀ r ∈ reqs, ∀ b ∈ r.subs, ∃ pa, standsAt c b pa) ∧
  (reqs.flatMap (·.subs)).Pairwise fun a b => ∀ p q, standsAt c a p → standsAt c b q → p + a.n ≤ q ∨ q + b.n ≤ p

/-- The registers that a load of n bytes with value v fills: narrow values extended, wide ones word by word (R195). -/
def loadedWords (n : Nat) (sx : Bool) (v : Nat) : List Word :=
  if n < 4 then [if sx = true ∧ 2 ^ (8 * n - 1) ≤ v then BitVec.ofInt 32 ((v : Int) - 2 ^ (8 * n)) else BitVec.ofNat 32 v]
  else (List.range (n / 4)).map fun i => BitVec.ofNat 32 (v / 2 ^ (32 * i))

/-- The words go to the registers of lane l from r on. -/
def fillsLane (ws : List (Tgt × DWord)) (l r : Nat) (vs : List Word) : Prop :=
  ∀ i w, vs[i]? = some w → ∃ d : DWord, (.vreg l (r + i), d) ∈ ws ∧ d.extractLsb' 0 32 = w

/-- Byte i of the registers from r on of a lane. -/
def regByte (g : Machine.Group) (l r i : Nat) : Byte := ((g.lane l).vreg (r + i / 4)).extractLsb' (8 * (i % 4)) 8

/-- The group after the step, where it still stands. -/
def groupAfter (r : Host.Outcome State Fault Refusal) (id : Nat) (P : State → Machine.Group → Prop) : Prop :=
  ∃ t g', r = .next t ∧ t.group? id = some g' ∧ P t g'

/-- A result of the gang's instruction, with none outstanding from before: what it will write. -/
def Returns (g' : Machine.Group) (P : List (Tgt × DWord) → Prop) : Prop := ∃ o ∈ g'.pend, o.waiting = 0 ∧ P o.writes

/-- What the vector accesses to global memory load and store in each active lane, with their tangent shadows (R116). -/
def VectorAccessValues : Prop :=
  ∀ (s : State) (c : Cx) (m : MForm), s.cx? = some c → MemCanonical s → s.poison = [] → c.l.hdr.det = false → c.gg.op = none →
    let n := mBytes m
    let r := m.vd.toNat
    let free (reqs : List Req) : Prop := accessReady c reqs ∧ accessApart c reqs
    let gid := c.g.ident.id
    let bytesAt (t : State) (pa k v : Nat) : Prop := ∀ i < k, Mem.read t.mem (pa + i) = BitVec.ofNat 8 (v / 256 ^ i)
    let shadow (l : Nat) (imm : DWord) : List (Nat × Nat × DWord) := c.shadows r (mRegs m) n (c.laneAddr m imm l)
    (c.mCheck (vLdOk m) m (mRegs m) [] = .ok () → free (c.lanes.map (c.ldReq m)) →
      groupAfter (exec (.vLd m) s) gid fun t g' => t.mem = s.mem ∧ Returns g' fun ws => ∀ l ∈ c.lanes,
        (∀ pa, standsAt c ⟨c.laneAddr m (imm16 m) l, n, .load (m.tag == 1) []⟩ pa →
          fillsLane ws l r (loadedWords n (m.tag == 1) (leNat (Mem.readN s.mem pa n)))) ∧
        ∀ x ∈ shadow l (imm16 m), ∀ pa, standsAt c ⟨x.2.2, 4, .load false []⟩ pa →
          ∃ d : DWord, (.glove l (r + x.1) (1 + x.2.1), d) ∈ ws ∧ d.extractLsb' 0 32 = BitVec.ofNat 32 (leNat (Mem.readN s.mem pa 4))) ∧
    (c.mCheck (vStOk m) m (mRegs m) [] = .ok () → free (c.lanes.map (c.stReq m)) →
      ∃ t, exec (.vSt m) s = .next t ∧ ∀ l ∈ c.lanes,
        (∀ pa, standsAt c ⟨c.laneAddr m (imm16 m) l, n, .act (.store [])⟩ pa →
          ∀ i < n, Mem.read t.mem (pa + i) = regByte c.g l r i) ∧
        ∀ x ∈ shadow l (imm16 m), ∀ pa, standsAt c ⟨x.2.2, 4, .act (.store [])⟩ pa →
          bytesAt t pa 4 ((((c.g.lane l).glove c.g.ident.k (r + x.1)).getD (1 + x.2.1) 0).toNat)) ∧
    (let place (l pa : Nat) : Prop := standsAt c ⟨c.laneAddr m (imm12 m) l, n, .act (.store [])⟩ pa
     let opnd (l q : Nat) : Nat := leNat ((List.range n).map (regByte c.g l q))
     let old (pa : Nat) : Nat := leNat (Mem.readN s.mem pa n)
     (c.mCheck (vAtomOk m) m (mRegs m) [] = .ok () →
        free (c.lanes.map (c.laneReq m (imm12 m) fun l =>
          .act (.atom (mAtop m) (mW64 m) (c.g.opnd l r (mW64 m)) (some (c.g.vTgts l r (mRegs m)))))) →
        groupAfter (exec (.vAtom m) s) gid fun t g' => Returns g' fun ws => ∀ l ∈ c.lanes, ∀ pa, place l pa →
          fillsLane ws l r (loadedWords n false (old pa)) ∧
          bytesAt t pa n (atomNew (mAtop m) (mW64 m) (old pa) (opnd l r))) ∧
     (c.mCheck (vCasOk m) m (2 * mRegs m) [] = .ok () →
        free (c.lanes.map (c.laneReq m (imm12 m) fun l =>
          .act (.cas (mW64 m) (c.g.opnd l r (mW64 m)) (c.g.opnd l (r + mRegs m) (mW64 m)) (c.g.vTgts l r (mRegs m))))) →
        groupAfter (exec (.vCas m) s) gid fun t g' => Returns g' fun ws => ∀ l ∈ c.lanes, ∀ pa, place l pa →
          fillsLane ws l r (loadedWords n false (old pa)) ∧
          bytesAt t pa n (if old pa = opnd l r then opnd l (r + mRegs m) else old pa)) ∧
     (c.mCheck (vRedOk m) m (mRegs m) [] = .ok () →
        free (c.lanes.map (c.laneReq m (imm12 m) fun l =>
          .act (.atom (mAtop m) (mW64 m) (c.g.opnd l r (mW64 m)) none))) →
        ∃ t, exec (.vRed m) s = .next t ∧ ∀ l ∈ c.lanes, ∀ pa, place l pa →
          bytesAt t pa n (atomNew (mAtop m) (mW64 m) (old pa) (opnd l r))))

/-! ### Transactional accesses (R216 to R218) -/

/-- A granule as a transactional load sees it: the write log, then the read log, then memory. -/
def txValue (m : Mem) (x : LaneTx) (k : Nat) : DWord :=
  match x.wlog.lookup k, x.rlog.lookup k with
  | some v, _ => v
  | none, some v => v
  | none, none => Mem.dword m (8 * k)
/-- The granules of n bytes, and those of them that a load enters into the read log. -/
def granulesOf (pa n : Nat) : List Nat := (List.range ((pa + n - 1) / 8 + 1 - pa / 8)).map (pa / 8 + ·)
def txNew (x : LaneTx) (ks : List Nat) : List Nat := ks.filter fun k => (x.wlog.lookup k).isNone && (x.rlog.lookup k).isNone

/-- The lane is doomed with a cause. -/
def TxDoomed (x : LaneTx) (cause : TxCause) : Prop := x.doomed = true ∧ x.cause = cause

/-- A load of n bytes with value v: new granules go into the read log, and the 33rd of them dooms the lane. -/
def TxReads (m : Mem) (pa n : Nat) (x y : LaneTx) (v : Nat) : Prop :=
  let new := txNew x (granulesOf pa n)
  if new = [] ∨ x.rlog.length + new.length ≤ 32 then
    y = { x with rlog := x.rlog ++ new.map fun k => (k, Mem.dword m (8 * k)) } ∧
    v = leNat ((List.range n).map fun i => BitVec.ofNat 8 ((txValue m x ((pa + i) / 8)).toNat / 256 ^ ((pa + i) % 8)))
  else TxDoomed y .readLog ∧ v = 0

/-- A store: a granule that it covers in part is loaded first, and each granule goes into the write log with the stored bytes in it;
the 17th dooms the lane. -/
def TxWrites (m : Mem) (pa : Nat) (bs : List Byte) (x y : LaneTx) : Prop :=
  let ks := granulesOf pa bs.length
  let new := if bs.length < 8 then txNew x ks else []
  let fresh := ks.filter fun k => (x.wlog.lookup k).isNone
  if new ≠ [] ∧ 32 < x.rlog.length + new.length then TxDoomed y .readLog
  else if fresh ≠ [] ∧ 16 < x.wlog.length + fresh.length then TxDoomed y .writeLog
  else
    y.rlog = x.rlog ++ new.map (fun k => (k, Mem.dword m (8 * k))) ∧ y.doomed = false ∧
    (∀ k, k ∉ ks → y.wlog.lookup k = x.wlog.lookup k) ∧
    ∀ k ∈ ks, ∃ w : DWord, y.wlog.lookup k = some w ∧ ∀ i < 8, w.extractLsb' (8 * i) 8 =
      if pa ≤ 8 * k + i ∧ 8 * k + i < pa + bs.length then bs.getD (8 * k + i - pa) 0 else (txValue m x k).extractLsb' (8 * i) 8

/-- One access of a lane in a transaction, with the value that it loads: a doomed lane makes none; a fault, a misaligned address and
poison doom it with FAULT and the address, a home off the die with FORBIDDEN. -/
def TxAccess (c : Cx) (b : Sub) (x y : LaneTx) (v : Nat) : Prop :=
  let fault : Prop := TxDoomed y .fault ∧ y.faddr = b.va ∧ v = 0
  if x.doomed = true then y = x ∧ v = 0
  else if b.va.toNat % b.n ≠ 0 then fault
  else match (c.s.translate c.die (some c.t.core) b.va ⟨b.act.isWrite, false, c.priv⟩ c.gg.afresh).1 with
    | .ok pa _ =>
      if ownerOf pa ≠ .hbm c.die then TxDoomed y .forbidden ∧ v = 0
      else if c.s.poisoned pa b.n = true then fault
      else match b.act with
        | .load _ _ => TxReads c.s.mem pa b.n x y v
        | .act (.store bs) => TxWrites c.s.mem pa bs x y
        | .act _ => y = x
    | _ => fault

/-- The accesses of a lane one after the other, with what each loads. -/
def TxChain (c : Cx) (subs : List Sub) (x y : LaneTx) (v : Nat → Nat) : Prop :=
  ∃ z : Nat → LaneTx, z 0 = x ∧ z subs.length = y ∧ ∀ i b, subs[i]? = some b → TxAccess c b (z i) (z (i + 1)) (v i)

/-- Lanes in a transaction: the instruction completes, writes no memory and neither traps nor parks; each lane's logs change by its
own accesses, and a load returns what the logs show; an atomic or reduction, and an access at scope 5 or 6, dooms its lane with
FORBIDDEN. A group-level atomic is performed at once and dooms the lanes that are in a transaction. -/
def TransactionalAccess : Prop :=
  (∀ e ∈ globalTable, ∀ (s : State) (c : Cx) (m : MForm), s.cx? = some c → e.2.1 c m → c.gg.op = none →
    let k := (e.2.2 c m).1
    let reqs := (e.2.2 c m).2
    reqs ≠ [] → (reqs.map (·.lane)).Nodup → c.handler = false → nothingAhead c →
    (∀ r ∈ reqs, ∃ l < c.g.lanes.length, r.lane = some l ∧ (c.g.lane l).tx.inTx = true ∧ (c.g.lane l).tx.doomed = false) →
    (∀ r ∈ reqs, ∀ b ∈ r.subs,
      (c.s.translate c.die (some c.t.core) b.va ⟨b.act.isWrite, false, c.priv⟩ c.gg.afresh).2 = c.s) →
    groupAfter (exec (e.1 m) s) c.g.ident.id fun t g' => t.mem = s.mem ∧ Advanced t c 2 ∧ ∀ r ∈ reqs, ∀ l, r.lane = some l →
      if k.atomic = true ∨ 5 ≤ k.scope then TxDoomed (g'.lane l).tx .forbidden
      else ∃ v, TxChain c r.subs (c.g.lane l).tx (g'.lane l).tx v ∧
        (k.ret = true → Returns g' fun ws => ∀ b, r.subs[0]? = some b → ∀ sx ts, b.act = .load sx ts →
          fillsLane ws l m.vd.toNat (loadedWords b.n sx (v 0)))) ∧
  (∀ (s : State) (c : Cx) (m : MForm), s.cx? = some c → c.handler = false → c.mCheck (sAtomOk m) m 0 [m.vd.toNat] = .ok () →
    let reqs := c.groupReq m (imm12 m) (.act (.atom (mAtop m) (mW64 m) (c.g.readS m.vd.toNat) (some [c.gg.sTgt m.vd.toNat])))
    nothingAhead c → 0 < c.g.tx.depth → (∀ r ∈ reqs, ∀ b ∈ r.subs, b.va.toNat % b.n = 0) →
    (∀ t ∈ (c.trReqs reqs c.s).1, ∀ x ∈ t.2, ∃ pa leaf, x.2 = .ok pa leaf) →
    groupAfter (exec (.sAtom m) s) c.g.ident.id fun t g' => Advanced t c 2 ∧ ∀ l ∈ c.gg.lanes, l < c.g.lanes.length →
      (c.g.lane l).tx.inTx = true → (c.g.lane l).tx.doomed = false → TxDoomed (g'.lane l).tx .forbidden)

/-- Keyed accesses of a deterministic launch (R226): an atomic or reduction and a store to a SHARED_DET page are not performed but
queued, one after the other in increasing lane index, for the group's round; a returning one keeps its operation waiting. -/
def KeyedAccess : Prop :=
  ∀ e ∈ globalTable, ∀ (s : State) (c : Cx) (m : MForm), s.cx? = some c → e.2.1 c m → c.l.hdr.det = true → c.handler = false →
    c.gg.op = none → MemCanonical s → accessReady c (e.2.2 c m).2 → (c.trReqs (e.2.2 c m).2 c.s).2 = c.s →
    let k := (e.2.2 c m).1
    let keyed (p : Piece) : Bool := p.sub.act.isWrite && (k.atomic || p.shared)
    let ps := piecesIn c (e.2.2 c m).2
    groupAfter (exec (e.1 m) s) c.g.ident.id fun t g' => Advanced t c 2 ∧
      g'.keyq.map (fun a => (a.lane, a.va, a.pa, a.act, a.round)) = (ps.filter keyed).filterMap (fun p =>
        match p.sub.act with
        | .act x => some (p.lane.getD (32 + c.gg.slices.headD 0), p.sub.va, p.pa, x, c.g.round)
        | .load .. => none) ∧
      (∀ a ∈ g'.keyq, a.wait = .none) ∧
      (k.ret = true → ∃ o ∈ g'.pend, (∀ a ∈ g'.keyq, a.op = some o.id) ∧ o.waiting = (ps.filter keyed).length) ∧
      ∀ a, (∀ p ∈ ps, p.sub.act.isWrite = true → keyed p = false → ¬ (p.pa ≤ a ∧ a < p.pa + p.sub.n)) →
        Mem.read t.mem a = Mem.read s.mem a

end Sys2Proof.Claims

/-- R10, R116, R195, R199, R206 to R209, R216 to R218, R226: every instruction that accesses global memory completes where nothing holds
its accesses back; and where translation changes nothing, the bytes of memory outside the bytes that it stores to are unchanged, so that an
instruction that only loads leaves all of memory unchanged. In a launch without the deterministic flag, where no two of the accesses
share a byte, each active lane loads the extended bytes at its address, stores the bytes of its registers, and has the old value
returned and replaced by an atomic; the tangent shadows are loaded and stored beside them. Lanes in a transaction access their logs
alone, and the keyed accesses of a deterministic launch are queued for the key. -/
def Obligations.GlobalAccess : Prop :=
  (∀ e ∈ globalTable, ∀ (s : State) (c : Cx) (m : MForm), s.cx? = some c → e.2.1 c m → accessReady c (e.2.2 c m).2 →
      ∃ t, exec (e.1 m) s = .next t ∧ Advanced t c 2) ∧
  (∀ e ∈ globalTable, ∀ (s t : State) (c : Cx) (m : MForm), s.cx? = some c → e.2.1 c m → MemCanonical s →
      accessReady c (e.2.2 c m).2 → (c.trReqs (e.2.2 c m).2 c.s).2 = c.s → exec (e.1 m) s = .next t →
      ∀ a, (∀ p ∈ piecesIn c (e.2.2 c m).2, p.sub.act.isWrite = true → ¬ (p.pa ≤ a ∧ a < p.pa + p.sub.n)) →
        Mem.read t.mem a = Mem.read s.mem a) ∧
  VectorAccessValues ∧ TransactionalAccess ∧ KeyedAccess

/-- R199, R195: `s.ld` delivers the extended little-endian value of the bytes at its address to its destination as a
long-latency result, and `s.st` stores the low bytes of its register there and changes no other byte. -/
def Obligations.ScalarLoadStoreValue : Prop :=
  ∀ (s : State) (c : Cx) (m : MForm) (pa : Nat) (leaf : DWord), s.cx? = some c → MemCanonical s →
    s.poison = [] → c.l.hdr.det = false →
    (c.mCheck (sLdOk m) m 0 [m.vd.toNat] = .ok () → onePiece c m (imm16 m) false pa leaf →
      accessReady c (c.groupReq m (imm16 m) (.load (m.tag == 1) [c.gg.sTgt m.vd.toNat])) → c.gg.op = none →
      ∃ t g', exec (.sLd m) s = .next t ∧ t.group? c.g.ident.id = some g' ∧ t.mem = s.mem ∧
        ∃ o ∈ g'.pend, o.waiting = 0 ∧
          o.writes = [(c.gg.sTgt m.vd.toNat,
            let v := leNat (Mem.readN s.mem pa (mBytes m))
            if m.tag = 1 ∧ mBytes m < 8 ∧ v ≥ 2 ^ (8 * mBytes m - 1) then BitVec.ofInt 64 ((v : Int) - 2 ^ (8 * mBytes m))
            else BitVec.ofNat 64 v)]) ∧
    (c.mCheck (sStOk m) m 0 [m.vd.toNat] = .ok () → onePiece c m (imm16 m) true pa leaf →
      accessReady c (c.groupReq m (imm16 m) (.act (.store (leBytes (mBytes m) (c.g.readS m.vd.toNat).toNat)))) →
      ∃ t, exec (.sSt m) s = .next t ∧ Advanced t c 2 ∧
        (∀ i < mBytes m, Mem.read t.mem (pa + i) = BitVec.ofNat 8 ((c.g.readS m.vd.toNat).toNat / 256 ^ i)) ∧
        ∀ a, ¬ (pa ≤ a ∧ a < pa + mBytes m) → Mem.read t.mem a = Mem.read s.mem a)

/-- R206, R207, R208, R277: the integer atomics compute Table 7.4 on the width they name; a group-level atomic replaces the value at
its address by the new value of its operation, `s.cas` only where the old value equals the comparand; both return the old value,
and no other byte changes. -/
def Obligations.ScalarAtomicValue : Prop :=
  ((∀ e ∈ atomicTable 32, ∀ o b : BitVec 32, atomNew e.1 false o.toNat b.toNat = (e.2 o b).toNat) ∧
    (∀ e ∈ atomicTable 64, ∀ o b : BitVec 64, atomNew e.1 true o.toNat b.toNat = (e.2 o b).toNat)) ∧
  (∀ (s : State) (c : Cx) (m : MForm) (pa : Nat) (leaf : DWord), s.cx? = some c → MemCanonical s →
      s.poison = [] → c.l.hdr.det = false → c.gg.op = none → onePiece c m (imm12 m) true pa leaf →
      let n := mBytes m
      let old := leNat (Mem.readN s.mem pa n)
      let opnd (r : Nat) : Nat := (c.g.readS r).toNat % 2 ^ (8 * n)
      let done (t : State) (new : Nat) : Prop :=
        (∀ i < n, Mem.read t.mem (pa + i) = BitVec.ofNat 8 (new / 256 ^ i)) ∧
        (∀ a, ¬ (pa ≤ a ∧ a < pa + n) → Mem.read t.mem a = Mem.read s.mem a) ∧
        ∃ g' o, t.group? c.g.ident.id = some g' ∧ o ∈ g'.pend ∧ o.waiting = 0 ∧
          o.writes = [(c.gg.sTgt m.vd.toNat, BitVec.ofNat 64 old)]
      (c.mCheck (sAtomOk m) m 0 [m.vd.toNat] = .ok () →
        accessReady c (c.groupReq m (imm12 m)
          (.act (.atom (mAtop m) (mW64 m) (c.g.readS m.vd.toNat) (some [c.gg.sTgt m.vd.toNat])))) →
        ∃ t, exec (.sAtom m) s = .next t ∧ done t (atomNew (mAtop m) (mW64 m) old (opnd m.vd.toNat))) ∧
      (c.mCheck (sCasOk m) m 0 [m.vd.toNat, m.vd.toNat + 1] = .ok () →
        accessReady c (c.groupReq m (imm12 m)
          (.act (.cas (mW64 m) (c.g.readS m.vd.toNat) (c.g.readS (m.vd.toNat + 1)) [c.gg.sTgt m.vd.toNat]))) →
        ∃ t, exec (.sCas m) s = .next t ∧ done t (if old = opnd m.vd.toNat then opnd (m.vd.toNat + 1) else old)))


namespace Sys2Proof.Claims

/-! ## Frames over many instructions -/

/-- Registers of a group that hold their values, those that only a trap or a return from a handler changes included. -/
structure RegsKept (g g' : Machine.Group) : Prop where
  s : g'.s = g.s
  flags : g'.flags = g.flags
  mxcrew : g'.mxcrew = g.mxcrew
  accs : g'.accs = g.accs
  v : ∀ l, (g'.lane l).v = (g.lane l).v
  gloves : ∀ l, (g'.lane l).gloves = (g.lane l).gloves
  lpm : ∀ l, (g'.lane l).lpm = (g.lane l).lpm
  trap : g'.handler = g.handler → g'.trap = g.trap ∧ g'.em = g.em

/-- Instructions and events that write no register that a program names: what they return, if anything, comes later, as a
long-latency result (R79). -/
def writesNoRegister : Instr → Bool
  | .pfxDual _ | .pfxMom _ | .pfxPt _ | .pfxSr _ | .vLd _ | .vSt _ | .vLdsp _ | .vStsp _ | .sLd _ | .sSt _ | .vLdl _
  | .vAtom _ | .vCas _ | .vRed _ | .sAtom _ | .sCas _ | .chunkTake _ | .monArm _ | .monWait _ | .fence _ | .txBegin _ | .txEnd _
  | .txAbort _ | .txStat _ | .keyWait _ | .keyPass _ | .tagSet _ | .tagGet _ | .prefetch _ | .cacheRetain _ | .cacheUnpin _
  | .cacheOpIfetch _ | .cacheOpEvl1 _ | .cacheOpEvl2 _ | .mxZero _ | .mxMma _ | .mxMmad _ | .mxMmac _ | .mxMma64 _ | .mxLdc _
  | .mxLdcVar _ | .mxLdcB _ | .mxLdcF64 _ | .mxStc _ | .mxStat _ | .cpLoad _ | .cpStore _ | .cpGather _ | .cpXfer _ | .cpFill _
  | .cpWait _ | .collStart _ | .launch _ | .evtAdd _ | .br _ | .brc .. | .brm .. | .ret .. | .bar .. | .wbar ..
  | .yield _ | .trap .. | .brk .. | .sysTlbiAll .. | .sysTlbiPage .. | .sysTlbiCore .. | .sysReplay _ | .sysPreempt ..
  | .sysIpi .. | .sysHalt _ => true
  | .clauseIssueSelect .. | .clauseFetch .. | .faultSplitRejoin .. | .monWaitWake .. | .monWaitDeadline .. | .txCommit ..
  | .lockGrant _ | .keyedOpPerform _ | .keyRoundPass _ | .copyCommandExecute .. | .batchComplete _ | .collectiveExecute _
  | .collectiveMessageReceive .. | .collectiveRankTimeout _ | .peerLaunchAppend _ | .wbarRelease _ | .heldGangHandlerEntry _
  | .poisonDelivery .. | .pageWalk .. | .faultReplay .. | .listWatchWake .. | .recordTake .. | .conditionTest _
  | .conditionPoll _ | .dispatchWaitTimeout _ | .islandPowerUp .. | .launchComplete _ | .linkDown _ | .linkUp _
  | .flitRetry _ | .telemetryUpdate _ | .wearRemap .. | .correctableError .. | .remoteMemoryRequest .. | .cxlMemRequest ..
  | .cxlCacheSnoop .. | .bar2Access .. => true
  | _ => false

/-- Instructions and events that neither access global memory nor walk the page table. -/
def leavesMemory : Instr → Bool
  | .vLdsp _ | .vStsp _ | .vLdl _ | .vStl _ | .chunkTake _ | .monWait _ | .fence _ | .txBegin _ | .txEnd _ | .txAbort _
  | .txStat _ | .keyWait _ | .keyPass _ | .tagSet _ | .tagGet _ | .tagGetWait _ | .prefetch _ | .cacheRetain _ | .cacheUnpin _
  | .cacheOpIfetch _ | .cacheOpEvl1 _ | .cacheOpEvl2 _ | .mxCrew _ | .mxZero _ | .mxMma _ | .mxMmad _ | .mxMmac _
  | .mxMma64 _ | .mxLdc _ | .mxLdcVar _ | .mxLdcB _ | .mxLdcF64 _ | .mxStc _ | .mxStat _ | .cpWait _ | .collStart _
  | .launch _ | .regang _ | .bar .. | .wbar .. | .yield _ | .exit _ | .trap .. | .brk .. | .sysRdcr .. | .sysWrcr ..
  | .sysTlbiAll .. | .sysTlbiPage .. | .sysTlbiCore .. | .sysReplay _ | .sysFltpop .. | .sysPreempt .. | .sysIpi ..
  | .sysHalt _ => true
  | .clauseIssueSelect .. | .longLatencyComplete .. | .faultSplitRejoin .. | .monWaitWake .. | .monWaitDeadline ..
  | .lockGrant _ | .keyRoundPass _ | .tagWaitSatisfy .. | .crewOpExecute _ | .collectiveMessageReceive ..
  | .collectiveRankTimeout _ | .wbarRelease _ | .heldGangHandlerEntry _ | .poisonDelivery .. | .faultReplay ..
  | .interruptStatusWrite .. | .interruptEnableWrite .. | .faultBufferStatusWrite .. | .dspadGrantWrite ..
  | .launchAnchorWrite .. | .wbarMemberWrite .. | .wbarBindWrite .. | .powerLimitWrite .. | .freqReq .. | .linkReq ..
  | .powerRequestComplete _ | .controlRegisterWrite .. | .listWatchWake .. | .dispatchWaitTimeout _ | .islandPowerUp ..
  | .preemptDrainDeadline _ | .preemptDiscard _ | .linkDown _ | .linkUp _ | .flitRetry _ | .powerClockAdjust ..
  | .correctableError .. | .firmwareImageVerify .. | .spdmRequest .. | .tdispStateChange .. => true
  | .contextKeySlotUpdate _ _ fill => fill
  | _ => false

/-- No two groups have one number. -/
def uniqueGroups (s : State) : Prop := (s.groups.map (·.ident.id)).Nodup

/-- The gang passes its instruction of n words in the state t, and nothing else of t changes. -/
def Passed (t : State) (c : Cx) (n : Nat) (r : Host.Outcome State Fault Refusal) : Prop :=
  r = .next (t.modGroup c.g.ident.id fun g => g.advance c.gg n)

end Sys2Proof.Claims

/-- R10, R79: memory, copy, control and system instructions and the events of the machine write no register of any group that
they are not said to write; `em` and the trap registers change only with the group's handler; and `part` writes none but `em`, where
its records complete a hinge (R142). -/
def Obligations.RegisterFrame : Prop :=
  ∀ s t : State, uniqueGroups s → ∀ k g g', s.group? k = some g → t.group? k = some g' →
    (∀ i, writesNoRegister i = true → exec i s = .next t → RegsKept g g') ∧
    ∀ m h all toff, exec (.part m h all toff) s = .next t → RegsKept g { g' with em := g.em }

/-- R10: an instruction or event that makes no global access changes no byte of memory and poisons no line. -/
def Obligations.MemoryUntouched : Prop :=
  ∀ i, leavesMemory i = true → ∀ s t : State, exec i s = .next t → t.mem = s.mem ∧ t.poison = s.poison

namespace Sys2Proof.Claims

/-! ## Scratchpads and lane-private memory -/

/-- A place some bytes further on. -/
def placePlus (p : Place) (i : Nat) : Place := match p with | .team id o => .team id (o + i) | .die d o => .die d (o + i)
/-- The byte at a place, and the tag of its word. -/
def spadByte (s : State) (p : Place) : Byte := Mem.read (s.spad p).bytes p.off
def spadTag (s : State) (p : Place) : Nat := (s.spad p).tag p.off
/-- The place lies in none of the pieces of n bytes. -/
def outsidePieces (ps : List SPiece) (n : Nat) (q : Place) : Prop := ∀ p ∈ ps, ∀ i < n, placePlus p.pl i ≠ q
/-- The place lies in none of the words of the pieces. -/
def outsideWords (ps : List SPiece) (n : Nat) (q : Place) : Prop :=
  ∀ p ∈ ps, ∀ i < n, ∀ j < 4, placePlus p.pl i ≠ (match q with | .team id o => .team id (o / 4 * 4 + j) | .die d o => .die d (o / 4 * 4 + j))
/-- No two lanes' pieces share a byte. -/
def apart (ps : List SPiece) (n : Nat) : Prop := ps.Pairwise fun p q => placesOverlap p.pl n q.pl n = false

/-- Nothing holds a scratchpad access back. -/
def spadReady (c : Cx) : Prop := c.g.tx.close = none ∧ c.g.keyq = [] ∧ c.gg.split = none ∧ c.releaseHeld = false
/-- The bytes at a place, as a number. -/
def placeNat (s : State) (p : Place) (n : Nat) : Nat := leNat ((List.range n).map fun i => spadByte s (placePlus p i))

end Sys2Proof.Claims

/-- R205: `tag.set` writes its tag into every word of each active lane's access and leaves data and other tags; `tag.get` delivers
the tag of the first word, 0b11 as FAULT, and leaves every scratchpad. -/
def Obligations.TagSetAndGet : Prop :=
  ∀ (s : State) (c : Cx) (m : MForm) (ps : List SPiece), s.cx? = some c → spadReady c →
    (c.mCheck (tagSetOk m) m 0 [] = .ok () → c.spadPieces m (mBytes m) = .ok ps → SpadsCanonical s →
      ∃ t, exec (.tagSet m) s = .next t ∧ Advanced t c 2 ∧
        (∀ p ∈ ps, ∀ i < mBytes m, spadTag t (placePlus p.pl i) = m.tag.toNat) ∧
        (∀ q, outsideWords ps (mBytes m) q → spadTag t q = spadTag s q) ∧ ∀ q, spadByte t q = spadByte s q) ∧
    (c.mCheck (tagGetOk m) m 1 [] = .ok () → c.spadPieces m 4 = .ok ps → c.gg.op = none →
      groupAfter (exec (.tagGet m) s) c.g.ident.id fun t g' => Advanced t c 2 ∧ t.teams = s.teams ∧ t.cd0 = s.cd0 ∧ t.cd1 = s.cd1 ∧
        Returns g' fun ws => ∀ p ∈ ps, (.vreg p.lane m.vd.toNat, BitVec.ofNat 64 (min (spadTag s p.pl) 2)) ∈ ws)

/-- R195, R201 to R203, R205: with one active lane, a waiting access whose words have the tag that it waits for takes effect at once,
with the tag change of its mode, and a load delivers the bytes there; one whose words do not parks its gang at the instruction; a
store that sets FULL without a wait stores at once; and the predicated form that meets FAULT completes, with TAGFAIL in FLAGS and
the lane in its mask, which it returns to the bits of SB of the gang's lanes and, but for `em`, to those at and above the group's
width. -/
def Obligations.WaitingTagAccess : Prop :=
  ∀ (s : State) (c : Cx) (m : MForm) (p : SPiece), s.cx? = some c → spadReady c → SpadsCanonical s →
    c.spadPieces m (mBytes m) = .ok [p] → s.tagBlocked s.tick p.pl (mBytes m) = false →
    let n := mBytes m
    let parked (r : Host.Outcome State Fault Refusal) : Prop :=
      groupAfter r c.g.ident.id fun _ g' => ∃ x w, g'.gang? c.gg.id = some x ∧ x.park = some (.tag w) ∧ x.pc = c.gg.pc
    let tagged (t : State) (tag : Nat) : Prop := ∀ i < n, spadTag t (placePlus p.pl i) = tag
    let load (i : Instr) : Prop :=
      (s.tagTest p.pl n 1 = .met → s.spadPoison p.pl n = false → ∃ t, exec i s = .next t ∧ Advanced t c 2 ∧
        (m.tag = 2 → tagged t 0) ∧ (m.tag = 1 → tagged t 1) ∧
        (c.gg.op = none → groupAfter (exec i s) c.g.ident.id fun _ g' => Returns g' fun ws =>
          fillsLane ws p.lane m.vd.toNat (loadedWords n false (placeNat s p.pl n)))) ∧
      (s.tagTest p.pl n 1 = .unmet → parked (exec i s))
    (m.tag ≠ 0 → c.mCheck (vLdspOk m) m (mRegs m) [] = .ok () → load (.vLdsp m)) ∧
    (m.tag = 1 → c.mCheck (vStspOk m) m (mRegs m) [] = .ok () → s.spadPoison p.pl n = false →
      (s.tagTest p.pl n 0 = .met → ∃ t, exec (.vStsp m) s = .next t ∧ Advanced t c 2 ∧ tagged t 1 ∧
        ∀ i < n, spadByte t (placePlus p.pl i) = regByte c.g p.lane m.vd.toNat i) ∧
      (s.tagTest p.pl n 0 = .unmet → parked (exec (.vStsp m) s))) ∧
    (m.tag = 2 → c.mCheck (vStspOk m) m (mRegs m) [] = .ok () → s.spadPoison p.pl n = false →
      ∃ t, exec (.vStsp m) s = .next t ∧ Advanced t c 2 ∧ tagged t 1 ∧
        ∀ i < n, spadByte t (placePlus p.pl i) = regByte c.g p.lane m.vd.toNat i) ∧
    (m.tag ≠ 0 → c.mCheck (tagGetWaitOk m) m (mRegs m) [] = .ok () → load (.tagGetWait m) ∧
      (s.tagTest p.pl n 1 = .fault → c.gg.op = none → p.lane < 32 → c.g.ident.width ≤ 32 →
        groupAfter (exec (.tagGetWait m) s) c.g.ident.id fun t g' => Advanced t c 2 ∧ g'.flags = c.g.flags ||| 0x200 ∧
          Returns g' fun ws => ∃ k : DWord, ws = [(.sreg m.sb.toNat k, BitVec.ofNat 64 (2 ^ p.lane))] ∧ ∀ i < 64,
            k.getLsbD i = true ↔ c.gg.mask.getLsbD i = true ∨ (m.sb.toNat ≠ 63 ∧ c.g.ident.width ≤ i)))

/-- R21, R195, R199: a lane-private load delivers the bytes of each active lane's own memory; a store puts the bytes of its
registers there and changes no other byte. -/
def Obligations.LanePrivateAccess : Prop :=
  ∀ (s : State) (c : Cx) (m : MForm) (as : List (Nat × DWord)), s.cx? = some c → c.g.tx.close = none → c.lplAddrs m = .ok as →
    (c.mCheck (vLdlOk m) m (mRegs m) [] = .ok () → c.gg.op = none →
      groupAfter (exec (.vLdl m) s) c.g.ident.id fun t g' => Advanced t c 2 ∧
        (∀ l, (g'.lane l).lpm = (c.g.lane l).lpm) ∧
        Returns g' fun ws => ∀ a ∈ as, fillsLane ws a.1 m.vd.toNat
          (loadedWords (mBytes m) (m.tag == 1) (leNat (Mem.readN (c.g.lane a.1).lpm a.2.toNat (mBytes m))))) ∧
    (c.mCheck (vStlOk m) m (mRegs m) [] = .ok () → (∀ l, Mem.wf (c.g.lane l).lpm = true) →
      groupAfter (exec (.vStl m) s) c.g.ident.id fun t g' => Advanced t c 2 ∧
        (∀ a ∈ as, ∀ i < mBytes m, Mem.read (g'.lane a.1).lpm (a.2.toNat + i) = regByte c.g a.1 m.vd.toNat i) ∧
        ∀ l x, (∀ a ∈ as, a.1 = l → ¬ (a.2.toNat ≤ x ∧ x < a.2.toNat + mBytes m)) →
          Mem.read (g'.lane l).lpm x = Mem.read (c.g.lane l).lpm x)

/-- R211: `chunk.take` returns NEXT and the count of a legal descriptor, and moves NEXT on by the count. -/
def Obligations.ChunkTakeResult : Prop :=
  ∀ (s : State) (c : Cx) (m : MForm) (d : DieId) (off : Nat), s.cx? = some c → c.g.tx.close = none → c.g.keyBarred = false →
    c.gg.op = none →
    c.mCheck (chunkTakeOk m) m 0 [m.vd.toNat, m.vd.toNat + 1] = .ok () → SpadsCanonical s →
    let a := c.g.readS m.sb.toNat + imm16 m
    let p : Place := .die d off
    let field (lo n : Nat) : Nat := leNat ((List.range n).map fun i => spadByte s (placePlus p (lo + i)))
    let next := field 0 8
    let rem := field 8 8 - next
    let cmin := max (field 16 4) 1
    let takers := max (field 20 4) 1
    let size := max cmin ((rem + 2 * takers - 1) / (2 * takers))
    let count := min size rem
    a.toNat % 32 = 0 → c.place a 32 = some p → s.spadPoison p 32 = false → field 24 8 = 0 →
    groupAfter (exec (.chunkTake m) s) c.g.ident.id fun t g' => Advanced t c 2 ∧
      (Returns g' fun ws => (ws.map fun w => w.2) = [BitVec.ofNat 64 next, BitVec.ofNat 64 count] ∧
        ws.map (fun w => w.1) = [.sreg m.vd.toNat (BitVec.allOnes 64), .sreg (m.vd.toNat + 1) (BitVec.allOnes 64)]) ∧
      (∀ i < 8, spadByte t (placePlus p i) = BitVec.ofNat 8 ((next + count) / 256 ^ i)) ∧
      ∀ q, (∀ i < 8, placePlus p i ≠ q) → spadByte t q = spadByte s q

/-- R89, R194, R195, R199, R201, R338: a plain scratchpad load delivers the bytes at each active lane's place, and changes no
scratchpad; a plain store puts the bytes of its registers there and changes no other byte and no tag; lane addresses that are not
multiples of the width trap MISALIGNED, with the lanes that raised it and the address of the lowest. -/
def Obligations.ScratchpadPlainAccess : Prop :=
  (∀ (s : State) (c : Cx) (m : MForm) (ps : List SPiece), s.cx? = some c → spadReady c → m.tag = 0 →
      c.spadPieces m (mBytes m) = .ok ps →
      (c.mCheck (vLdspOk m) m (mRegs m) [] = .ok () → c.gg.op = none →
        groupAfter (exec (.vLdsp m) s) c.g.ident.id fun t g' => Advanced t c 2 ∧ t.teams = s.teams ∧ t.cd0 = s.cd0 ∧ t.cd1 = s.cd1 ∧
          ((∀ p ∈ ps, s.spadPoison p.pl (mBytes m) = false) → Returns g' fun ws => ∀ p ∈ ps,
            fillsLane ws p.lane m.vd.toNat (loadedWords (mBytes m) false (placeNat s p.pl (mBytes m))))) ∧
      (c.mCheck (vStspOk m) m (mRegs m) [] = .ok () → SpadsCanonical s → apart ps (mBytes m) →
        (∀ p ∈ ps, s.spadPoison p.pl (mBytes m) = false) →
        ∃ t, exec (.vStsp m) s = .next t ∧ Advanced t c 2 ∧
          (∀ p ∈ ps, ∀ i < mBytes m, spadByte t (placePlus p.pl i) = regByte c.g p.lane m.vd.toNat i) ∧
          (∀ q, outsidePieces ps (mBytes m) q → spadByte t q = spadByte s q) ∧ ∀ q, spadTag t q = spadTag s q)) ∧
  (∀ (s : State) (c : Cx) (m : MForm), s.cx? = some c → spadReady c →
      let bad := (c.lanes.map fun l => (l, c.laneAddr m (imm16 m) l)).filter fun a => a.2.toNat % mBytes m != 0
      ∀ l0 rest, bad = l0 :: rest →
      (c.mCheck (vLdspOk m) m (mRegs m) [] = .ok () →
        exec (.vLdsp m) s = c.trap { code := .misaligned, lanes := maskOf (bad.map (·.1)), addr := l0.2 }) ∧
      (c.mCheck (vStspOk m) m (mRegs m) [] = .ok () →
        exec (.vStsp m) s = c.trap { code := .misaligned, lanes := maskOf (bad.map (·.1)), addr := l0.2 }))

/-! ## Monitors, fences and cache control -/

/-- R212 to R214, R230 to R232, R351: `mon.arm` arms the monitor on the line of its address; a `mon.wait` with no armed monitor, with
one that has fired, or past its deadline continues at once, and another parks; a parked one goes on when the monitor has fired or
the deadline has passed, inside its clause once the issue slot comes to it; a write to a byte of the line fires the monitor of every
group. A fence passes its words and keeps the group's later accesses behind its keyed ones (log 3: accesses are performed in order
here), one that releases to the host or other packages waits for the group's own copies there (R286), and one that releases at package
scope parks while the link between the compute dies is down (log 48); a prefetch and the
cache instructions pass their words, and leave at most marks of retained lines and copies in the fetch path (log 12) changed:
`cache.retain` marks each of its lines that is at home on the die and lies in a range, as long as its set holds fewer than 8 marks,
and no other. -/
def Obligations.MonitorsFencesCaches : Prop :=
  ((∀ (s : State) (c : Cx) (m : MForm), s.cx? = some c → uniqueGroups s → c.g.tx.close = none → c.g.tx.depth = 0 →
      (c.mCheck (monArmOk m) m 0 [] = .ok () → ∀ pa leaf t,
        s.translate c.die (some c.t.core) (c.g.readS m.sb.toNat + imm16 m) ⟨false, false, c.priv⟩ c.gg.afresh = (.ok pa leaf, t) →
        c.g.keyBarred = false → exec (.monArm m) s =
          .next (t.modGroup c.g.ident.id fun g => { g.advance c.gg 2 with mon := some ⟨pa / 128, false⟩ })) ∧
      (c.mCheck (monWaitOk m) m 0 [] = .ok () →
        let d := c.g.readS m.sb.toNat
        let goes : Prop := (∀ x, c.g.mon = some x → x.fired = true) ∨ (d ≠ BitVec.allOnes 64 ∧ d.toNat ≤ s.timeNs.toNat)
        (goes → Passed s c 2 (exec (.monWait m) s)) ∧
        (¬ goes → exec (.monWait m) s = .next (s.modGroup c.g.ident.id fun g => g.parkGang c.gg (.mon d))))) ∧
    (∀ (s : State) (gid k : Nat) (c : Cx) (d : DWord), s.cxOf gid k = some c → c.gg.park = some (.mon d) → gid = c.g.ident.id →
      let goesOn (r : Host.Outcome State Fault Refusal) : Prop := r = .next (s.modGroup gid fun g => g.release c.gg 2)
      ((∀ x, c.g.mon = some x → x.fired = true) → goesOn (exec (.monWaitWake gid k) s)) ∧
      (d ≠ BitVec.allOnes 64 → d.toNat ≤ s.timeNs.toNat → goesOn (exec (.monWaitDeadline gid k) s))) ∧
    (∀ (s : State) (pa : Nat) (bs : List Byte) (g : Machine.Group) (line : Nat) (f : Bool), bs ≠ [] → g ∈ s.groups →
      g.mon = some ⟨line, f⟩ → pa / 128 ≤ line → line ≤ (pa + bs.length - 1) / 128 →
      { g with mon := some ⟨line, true⟩ } ∈ (s.writePa pa bs).groups)) ∧
  (∀ (s : State) (c : Cx) (m : MForm), s.cx? = some c → c.g.tx.close = none →
      (c.bareCheck (fenceOk m) m 0 [] = .ok () →
        let crosses : Prop := m.order ≠ 1 ∧ 4 ≤ m.scope.toNat ∧ LinkId.cdCd ∈ s.linksDown
        let outside : Prop := m.order ≠ 1 ∧ 5 ≤ m.scope.toNat ∧ c.farLeft ≠ []
        (c.releaseHeld = false → outside → exec (.fence m) s = c.park (.wait (.engine c.farLeft))) ∧
        (c.releaseHeld = false → ¬ outside → ¬ crosses →
          exec (.fence m) s = .next (s.modGroup c.g.ident.id fun g => g.barKeyed.advance c.gg 2)) ∧
        (c.releaseHeld = false → ¬ outside → crosses → groupAfter (exec (.fence m) s) c.g.ident.id fun t g' => t.mem = s.mem ∧
          ∃ x, g'.gang? c.gg.id = some x ∧ x.pc = c.gg.pc ∧ x.park = some (.fault false))) ∧
      (c.mCheck (prefetchOk m) m 0 [] = .ok () → Passed s c 2 (exec (.prefetch m) s)) ∧
      (c.g.keyBarred = false → c.mCheck (linesOk 3 m) m 0 [] = .ok () →
        Passed s c 2 (exec (.cacheOpEvl1 m) s) ∧
        Passed (s.modDie c.die fun d => { d with retained := d.retained.filter fun x => !(c.cacheLines m).contains x }) c 2
          (exec (.cacheOpEvl2 m) s) ∧
        Passed (s.modDie c.die fun d => { d with ifetch := d.ifetch.filter fun x => !(c.cacheLines m).contains x.1 }) c 2
          (exec (.cacheOpIfetch m) s)) ∧
      (c.g.keyBarred = false → c.mCheck (linesOk 1 m) m 0 [] = .ok () →
        Passed (s.modDie c.die fun d => { d with retained := d.retained.filter fun x => !(c.cacheLines m).contains x }) c 2
          (exec (.cacheUnpin m) s) ∧
        ∃ ls, Passed (s.modDie c.die fun d => { d with retained := ls }) c 2 (exec (.cacheRetain m) s) ∧
          (∀ x ∈ (s.die c.die).retained, x ∈ ls) ∧
          (∀ x ∈ ls, x ∈ (s.die c.die).retained ∨ (x ∈ c.cacheLines m ∧ (s.die c.die).ctl.retains x = true)) ∧
          ∀ x ∈ c.cacheLines m, ownerOf (128 * x) = .hbm c.die → (s.die c.die).ctl.retains x = true →
            x ∈ ls ∨ 8 ≤ (ls.filter fun y => Config.l2Set y == Config.l2Set x).length))

/-! ## Transactions -/

/-- R215, R219, R222, R224: `tx.begin` below the retry limit raises DEPTH, nests the lanes that are in a transaction and starts one in
the other active lanes; at the limit it joins the queue of the lock; `tx.abort` dooms the active undoomed lanes with its code;
`tx.end` lowers DEPTH, takes one level off each lane of the gang that is in a transaction, and takes the lanes at their last level
out of it; `tx.stat` delivers word 0 of Table 7.7. -/
def Obligations.Transactions : Prop :=
  (∀ (s : State) (c : Cx) (m : MForm), s.cx? = some c → c.g.tx.close = none → c.gg.slices.Nodup →
      (c.bareCheck (bareOk m) m 0 [] = .ok () → c.g.tx.depth < 7 →
        let limited : Prop := c.g.tx.depth = 0 ∧ c.g.tx.lockHeld = false ∧ (s.die c.die).ctl.txRetryLimit.toNat ≤ c.g.tx.conflicts
        (¬ limited → groupAfter (exec (.txBegin m) s) c.g.ident.id fun t g' => Advanced t c 2 ∧ g'.tx.depth = c.g.tx.depth + 1 ∧
          ∀ l, l < c.g.lanes.length →
            let old := (c.g.lane l).tx
            let new := (g'.lane l).tx
            if l ∈ c.gg.lanes ∧ old.inTx = true then new = { old with nl := old.nl + 1 }
            else if l ∈ c.gg.lanes ∧ c.active.getLsbD l = true then
              new.inTx = true ∧ new.nl = 1 ∧ new.doomed = false ∧ new.rlog = [] ∧ new.wlog = [] ∧ new.cause = .none
            else new = old) ∧
        (limited → c.l.hdr.det = false → groupAfter (exec (.txBegin m) s) c.g.ident.id fun t g' =>
          g'.tx.lockQueued = true ∧ (∃ x, g'.gang? c.gg.id = some x ∧ x.park = some .lock ∧ x.pc = c.gg.pc) ∧
          (t.die c.die).lockQueue = (s.die c.die).lockQueue ++ [(c.g.ident.id, c.gg.id)])) ∧
      (c.bareCheck (bareOk m) m 0 [] = .ok () → c.g.tx.depth ≥ 7 → exec (.txBegin m) s = c.trap { code := .illegalOperand }) ∧
      (c.bareCheck (txAbortOk m) m 0 [] = .ok () → groupAfter (exec (.txAbort m) s) c.g.ident.id fun t g' => Advanced t c 2 ∧
        let hit (l : Nat) : Prop := l ∈ c.lanes ∧ (c.g.lane l).tx.inTx = true ∧ (c.g.lane l).tx.doomed = false
        (∀ l, (hit l → (g'.lane l).tx =
            { (c.g.lane l).tx with doomed := true, cause := .explicit, xcode := m.imm16.extractLsb' 0 8, faddr := 0 }) ∧
          (¬ hit l → (g'.lane l).tx = (c.g.lane l).tx)) ∧
        ((∃ l, hit l) → g'.tx.xcode = m.imm16.extractLsb' 0 8) ∧ ((∀ l, ¬ hit l) → g'.tx.xcode = c.g.tx.xcode))) ∧
  (∀ (s : State) (c : Cx) (m : MForm), s.cx? = some c → c.g.tx.close = none → c.gg.slices.Nodup →
      (c.bareCheck (txEndOk m) m 0 [m.vd.toNat] = .ok () → 1 ≤ c.g.tx.depth → c.releaseHeld = false →
        groupAfter (exec (.txEnd m) s) c.g.ident.id fun t g' => Advanced t c 2 ∧ g'.tx.depth = c.g.tx.depth - 1 ∧
          ∀ l ∈ c.gg.lanes, (c.g.lane l).tx.inTx = true →
            if (c.g.lane l).tx.nl ≤ 1 then (g'.lane l).tx.inTx = false
            else (g'.lane l).tx = { (c.g.lane l).tx with nl := (c.g.lane l).tx.nl - 1 }) ∧
      (c.bareCheck (txEndOk m) m 0 [m.vd.toNat] = .ok () → c.g.tx.depth = 0 → exec (.txEnd m) s = c.trap { code := .illegalOperand }) ∧
      (c.bareCheck (txStatOk m) m (mRegs m) [] = .ok () → c.gg.op = none →
        groupAfter (exec (.txStat m) s) c.g.ident.id fun t g' => Advanced t c 2 ∧
          Returns g' fun ws => ∀ l ∈ c.lanes, ∃ w : Word, (.vreg l m.vd.toNat, w.zeroExtend 64) ∈ ws ∧
            let x := (c.g.lane l).tx
            w.getLsbD 0 = x.committed ∧ w.getLsbD 1 = x.ran ∧ w.getLsbD 2 = x.inTx ∧ w.getLsbD 3 = x.locked ∧
            w.extractLsb' 4 4 = BitVec.ofNat 4 x.cause.code ∧ w.extractLsb' 24 8 = x.xcode))

/-- R216, R218, R220, R221, R224: the commit of a lane whose read granules hold the values read puts every write granule into memory
and changes no other byte; a granule that has changed makes it an abort with CONFLICT that writes nothing, and an error in the write
log an abort with MEM_ERROR. LOCK_GRANT gives the free lock to the head of the queue, whose `tx.begin` completes; LOCK_QUEUED stays
where another gang of its group is still queued (log 39). -/
def Obligations.CommitAndLockGrant : Prop :=
  (∀ (s : State) (gid l : Nat) (c : Cx) (x : TxClose), s.cxGroup gid = some c → gid = c.g.ident.id → c.g.tx.close = some x →
    l ∈ x.todo → l < c.g.lanes.length → c.g.keyq = [] → s.mayCommit c l = true → s.poison = [] →
    MemCanonical s →
    let t := (c.g.lane l).tx
    let same : Prop := ∀ e ∈ t.rlog, Mem.dword s.mem (8 * e.1) = e.2
    groupAfter (exec (.txCommit gid l) s) gid fun u g' =>
      (t.doomed = true → u.mem = s.mem ∧ (g'.lane l).tx.committed = false ∧ (g'.lane l).tx.cause = .memError) ∧
      (t.doomed = false → same → (t.wlog.map (·.1)).Nodup → (∀ e ∈ t.wlog, Mem.dword u.mem (8 * e.1) = e.2) ∧
        (∀ a, a / 8 ∉ t.wlog.map (·.1) → Mem.read u.mem a = Mem.read s.mem a) ∧ (g'.lane l).tx.committed = true) ∧
      (t.doomed = false → ¬ same → u.mem = s.mem ∧ (g'.lane l).tx.committed = false ∧ (g'.lane l).tx.cause = .conflict)) ∧
  (∀ (s : State) (d : DieId) (gid k : Nat) (rest : List (Nat × Nat)) (g : Machine.Group) (x : Gang),
    (s.die d).lockQueue = (gid, k) :: rest → (s.die d).lockHolder = none → s.group? gid = some g → g.gang? k = some x →
    x.park = some .lock → groupAfter (exec (.lockGrant d) s) gid fun t g' =>
      (t.die d).lockHolder = some gid ∧ (t.die d).lockQueue = rest ∧ g'.tx.lockHeld = true ∧
      (g'.tx.lockQueued = true ↔ ∃ e ∈ rest, e.1 = gid) ∧ g'.tx.depth = g.tx.depth + 1 ∧
      ∃ y, g'.gang? k = some y ∧ y.pc = x.pc + 8 ∧ y.park = if x.atEnd 2 then none else some .resume)

/-! ## The key -/

/-- R226 to R229: outside a deterministic launch `key.wait` and `key.pass` trap KEY_ORDER; in one, `key.wait` continues where the
group holds the key (who holds it: log 26) and otherwise parks, and `key.pass` records the gang's pass, with the group's next round
once every live slice has passed, whether keyed accesses wait or not. KEYED_OP_PERFORM performs the group's first keyed store, and
KEY_ROUND_PASS moves a team whose live groups have passed to its next round. -/
def Obligations.KeyOrder : Prop :=
  (∀ (s : State) (c : Cx) (m : MForm), s.cx? = some c → c.bareCheck (bareOk m) m 0 [] = .ok () → c.g.tx.close = none →
    (c.l.hdr.det = false → exec (.keyWait m) s = c.trap { code := .keyOrder } ∧ exec (.keyPass m) s = c.trap { code := .keyOrder }) ∧
    (c.l.hdr.det = true →
      (s.groupHolds c.l c.t c.g c.g.round = true →
        exec (.keyWait m) s = .next (s.modGroup c.g.ident.id fun g => g.barKeyed.advance c.gg 2)) ∧
      (s.groupHolds c.l c.t c.g c.g.round = false → exec (.keyWait m) s = c.park (.wait .key)) ∧
      (c.g.tx.depth > 0 → exec (.keyPass m) s = c.trap { code := .keyOrder }) ∧
      (c.g.tx.depth = 0 → c.releaseHeld = false → c.gg.slices ≠ [] → (∀ j ∈ c.gg.slices, j ∉ c.g.passed) →
        groupAfter (exec (.keyPass m) s) c.g.ident.id fun t g' => Advanced t c 2 ∧
          if ∀ j ∈ c.g.liveSlices, j ∈ c.g.passed ++ c.gg.slices then g'.round = c.g.round + 1 ∧ g'.passed = []
          else g'.round = c.g.round ∧ g'.passed = c.g.passed ++ c.gg.slices))) ∧
  (∀ (s : State) (gid : Nat) (c : Cx) (a : KeyedAcc) (rest : List KeyedAcc) (bs : List Byte), s.cxGroup gid = some c →
    gid = c.g.ident.id → c.g.keyq = a :: rest → a.act = .store bs → a.wait ≠ .waits → s.groupHolds c.l c.t c.g a.round = true →
    s.reachable c.die a.pa = true →
    c.g.keyedBehind a = false → (∀ k ∈ c.g.cmds, k.id < a.num → k.keyedLeft = false) →
    (∀ k ∈ linesOf a.pa bs.length, k ∉ s.engineLines) → s.poison = [] → MemCanonical s →
    groupAfter (exec (.keyedOpPerform gid) s) gid fun t g' => g'.keyq = rest ∧
      (∀ i < bs.length, Mem.read t.mem (a.pa + i) = bs.getD i 0) ∧
      ∀ x, ¬ (a.pa ≤ x ∧ x < a.pa + bs.length) → Mem.read t.mem x = Mem.read s.mem x) ∧
  (∀ (s : State) (id : Nat) (t : Team) (l : Launch), s.team? id = some t → s.launch? t.launch = some l → l.hdr.det = true →
    (∃ g ∈ s.groupsOf id, g.ended = false) → (∀ g ∈ s.groupsOf id, g.ended = true ∨ t.round < g.round) →
    (∀ g ∈ s.groupsOf id, g.keyq = [] ∧ g.cmds = []) →
    exec (.keyRoundPass id) s = .next (s.modTeam id fun t => { t with round := t.round + 1 }))

namespace Sys2Proof.Claims

/-! ## Control flow -/

/-- The word at `va` can be fetched and is a header; t is the state after its translation. -/
def headerAt (c : Cx) (va : DWord) (t : State) : Prop := ∃ w pa, c.fetchAt va c.s = (.word w pa, t) ∧ w.extractLsb' 28 4 = 0xE#4
/-- A transfer to `va` is made, with the group changed by f. -/
def Goes (c : Cx) (va : DWord) (f : Machine.Group → Machine.Group) (r : Host.Outcome State Fault Refusal) : Prop :=
  ∀ t, headerAt c va t → r = .next (t.modGroup c.g.ident.id fun g => (f g).goto c.gg va)

/-- Conditions of `brc` (R137). -/
def brcHolds (cond : Nat) (v : DWord) : Prop :=
  match cond with
  | 0 => v = 0
  | 1 => v ≠ 0
  | 2 => v.toInt < 0
  | 3 => 0 ≤ v.toInt
  | 4 => 0 < v.toInt
  | 5 => v.toInt ≤ 0
  | 6 => v.getLsbD 0 = true
  | _ => v.getLsbD 0 = false

/-- An address that R139 lets through as far as the header check. -/
def plainAddress (va : DWord) : Prop := canonical va = true ∧ va.toNat % 4 = 0

end Sys2Proof.Claims

/-- R137: `brc` tests S[S], read as a signed 64-bit value, under the condition COND: it goes to NEXT + 4 × OFFSET where the
condition holds, and otherwise passes its word. -/
def Obligations.ConditionalBranch : Prop :=
  ∀ (s : State) (c : Cx) (sr : BitVec 6) (cond : BitVec 3) (off : BitVec 15), s.cx? = some c → c.gg.pfx = [] →
    c.sregOk sr.toNat = true →
    let v := c.g.readS sr.toNat
    (brcHolds cond.toNat v → Goes c (c.gg.pc + 4 + off.signExtend 64 * 4) id (exec (.brc sr cond off) s)) ∧
    (¬ brcHolds cond.toNat v → Passed s c 1 (exec (.brc sr cond off) s))

/-- R91, R136, R138, R139: branches, jumps, calls and returns go to the addresses that they name; a link register takes NEXT; and a
register address that is not canonical, is misaligned or holds no header traps with every register as it was. -/
def Obligations.TransfersGo : Prop :=
  ∀ (s : State) (c : Cx), s.cx? = some c → c.gg.pfx = [] →
    let next := c.gg.pc + 4
    (∀ off : BitVec 24, Goes c (next + off.signExtend 64 * 4) id (exec (.br off) s)) ∧
    (∀ (cond : BitVec 3) (off : BitVec 15), cond.toNat < 4 →
      let taken : Prop :=
        match cond.toNat with
        | 0 => c.active = 0
        | 1 => c.active ≠ 0
        | 2 => c.active = c.g.live &&& c.gg.mask
        | _ => c.active ≠ c.g.live &&& c.gg.mask
      (taken → Goes c (next + off.signExtend 64 * 4) id (exec (.brm 0 cond off) s)) ∧
      (¬ taken → Passed s c 1 (exec (.brm 0 cond off) s))) ∧
    (∀ (lr : BitVec 6) (off : BitVec 18), c.sregOk lr.toNat = true →
      Goes c (next + off.signExtend 64 * 4) (fun g => g.writeS c.gg lr.toNat next) (exec (.call lr off) s)) ∧
    (∀ t : BitVec 6, c.sregOk t.toNat = true →
      let va := c.g.readS t.toNat
      (plainAddress va → Goes c va id (exec (.ret t 0) s) ∧ Goes c va id (exec (.jmp t 0 0 0) s) ∧
        ∀ lr : BitVec 6, c.sregOk lr.toNat = true →
          Goes c va (fun g => g.writeS c.gg lr.toNat next) (exec (.jmp t lr 1 0) s)) ∧
      (canonical va = false → exec (.ret t 0) s = c.trap { code := .protection, addr := va } ∧
        exec (.jmp t 0 0 0) s = c.trap { code := .protection, addr := va }) ∧
      (canonical va = true → va.toNat % 4 ≠ 0 → exec (.ret t 0) s = c.trap { code := .misaligned, addr := va } ∧
        exec (.jmp t 0 0 0) s = c.trap { code := .misaligned, addr := va }) ∧
      (plainAddress va → ∀ w pa u, c.fetchAt va s = (.word w pa, u) → w.extractLsb' 28 4 ≠ 0xE#4 →
        exec (.ret t 0) s = Cx.trap { c with s := u } { code := .clauseFormat, addr := va }))

namespace Sys2Proof.Claims

/-- Everything of a group but its part records, its gangs and its latches is as before. -/
def OnlyParts (g g' : Machine.Group) : Prop := Keeps onlyNone g { g' with parts := g.parts }

end Sys2Proof.Claims

/-- R26, R141: `part` pushes a record on the stack of every slice of the gang, with the hinge, FMT and the slice's `em` bits, and
sends the slices that go to the target and the others to NEXT; a full stack traps PART_DEPTH with nothing pushed. -/
def Obligations.PartDivides : Prop :=
  ∀ (s : State) (c : Cx) (m h : BitVec 6) (all : BitVec 1) (toff : BitVec 11), s.cx? = some c → c.gg.pfx = [] →
    c.sregOk m.toNat = true → c.sregOk h.toNat = true → c.gg.slices.Nodup → c.gg.slices ≠ [] →
    (∀ x ∈ c.g.gangs, x.park ≠ some .hinge) →
    let hv := c.g.readS h.toNat
    let next := c.gg.pc + 4
    let va := next + toff.signExtend 64 * 4
    let act (j : Nat) : List Nat := (lanesOfSlice j).filter fun l => c.active.getLsbD l
    let bit (l : Nat) : Bool := (c.g.readS m.toNat).getLsbD l
    let goes (j : Nat) : Bool := !(act j).isEmpty && if all = 1 then (act j).all bit else (act j).any bit
    let go := c.gg.slices.filter goes
    let stay := c.gg.slices.filter fun j => !goes j
    ((∃ j ∈ c.gg.slices, 8 ≤ (c.g.parts.getD j []).length) →
      exec (.part m h all toff) s = c.trap { code := .partDepth }) ∧
    ((∀ j ∈ c.gg.slices, (c.g.parts.getD j []).length < 8) → plainAddress hv → (go ≠ [] → headerAt c va s) →
      (stay ≠ [] → headerAt c next s) →
      groupAfter (exec (.part m h all toff) s) c.g.ident.id fun _ g' => OnlyParts c.g g' ∧
        (∀ j ∈ c.gg.slices, j < c.g.parts.length → ∃ e : BitVec 4, (∀ i < 4, e.getLsbD i = c.g.emRead.getLsbD (4 * j + i)) ∧
          g'.parts.getD j [] = ⟨hv, c.gg.fmt, e⟩ :: c.g.parts.getD j []) ∧
        (∀ j, j ∉ c.gg.slices → g'.parts.getD j [] = c.g.parts.getD j []) ∧
        (go ≠ [] → ∃ x ∈ g'.gangs, x.slices = go ∧ x.pc = va ∧ x.fmt = c.gg.fmt) ∧
        (stay ≠ [] → ∃ x ∈ g'.gangs, x.slices = stay ∧ x.pc = next ∧ x.fmt = c.gg.fmt))

namespace Sys2Proof.Claims

/-- Slice j issues the `regang` with the gang c.gg, or waits at its hinge in the gang x. -/
def comesFrom (c : Cx) (j : Nat) (x : Gang) : Prop := j ∈ x.slices ∧ (x = c.gg ∨ (x ∈ c.g.gangs ∧ x.park = some .hinge))

/-- Slices at a hinge (R142): they wait there while their rendezvous set is incomplete; and with the last of them each slice of the set pops
its record, takes FMT and its `em` bits from it and goes on after its `regang`, those that agree as one gang. -/
def HingesMeet : Prop :=
  ∀ (s : State) (c : Cx), s.cx? = some c → c.gg.pfx = [] → GangsDisjoint c.g → (c.g.gangs.map (·.id)).Nodup → c.gg.slices ≠ [] →
    (∀ j ∈ c.gg.slices, ∃ r, c.g.topRec j = some r ∧ r.hinge = c.gg.hdrAddr) →
    let met : List Nat := c.gg.slices ++ c.g.atHinge
    ((∀ j ∈ met, ∃ i ∈ c.g.rendezvous j, i ∉ met) →
      groupAfter (exec (.regang 0) s) c.g.ident.id fun _ g' => g'.parts = c.g.parts ∧ g'.em = c.g.em ∧
        ∃ x, g'.gang? c.gg.id = some x ∧ x.slices = c.gg.slices ∧ x.pc = c.gg.pc ∧ x.park = some .hinge) ∧
    (∀ j0 ∈ c.gg.slices, let set := c.g.rendezvous j0
      (∀ j, j ∈ set ↔ j ∈ met) →
      groupAfter (exec (.regang 0) s) c.g.ident.id fun _ g' => g'.s = c.g.s ∧ g'.flags = c.g.flags ∧
        (∀ j, j ∉ set → g'.parts.getD j [] = c.g.parts.getD j []) ∧
        (∀ l, l / 4 ∉ set → g'.em.getLsbD l = c.g.em.getLsbD l) ∧
        (∀ j ∈ set, ∀ r x, c.g.topRec j = some r → comesFrom c j x → g'.parts.getD j [] = (c.g.parts.getD j []).tail ∧
          (∀ i < 4, c.g.live.getLsbD (4 * j + i) = true → g'.em.getLsbD (4 * j + i) = r.em.getLsbD i) ∧
          ∃ y ∈ g'.gangs, j ∈ y.slices ∧ y.pc = x.pc + 4 ∧ y.fmt = r.fmt ∧ (y.park = none ∨ y.park = some .resume)) ∧
        ∀ j ∈ set, ∀ k ∈ set, ∀ r q x y, c.g.topRec j = some r → c.g.topRec k = some q → comesFrom c j x → comesFrom c k y →
          r.fmt = q.fmt → x.pc = y.pc → x.clause = y.clause → ∃ z ∈ g'.gangs, j ∈ z.slices ∧ k ∈ z.slices)

end Sys2Proof.Claims

/-- R142, R143: a `regang` that no slice of the gang has for its hinge passes its word; a slice that alone makes up its rendezvous
set pops its record, takes FMT and its `em` bits from it, and goes on after the word; slices of a larger set wait at the hinge, and the
last of them frees them all. -/
def Obligations.RegangRestores : Prop :=
  HingesMeet ∧
  ∀ (s : State) (c : Cx), s.cx? = some c → c.gg.pfx = [] →
    ((∀ j ∈ c.gg.slices, ∀ r, c.g.topRec j = some r → r.hinge ≠ c.gg.hdrAddr) → Passed s c 1 (exec (.regang 0) s)) ∧
    (∀ (j : Nat) (r : PartRec), c.gg.slices = [j] → c.g.topRec j = some r → r.hinge = c.gg.hdrAddr →
      c.g.rendezvous j = [j] → GangsDisjoint c.g → (c.g.gangs.map (·.id)).Nodup → (∀ x ∈ c.g.gangs, x.park ≠ some .hinge) →
      groupAfter (exec (.regang 0) s) c.g.ident.id fun _ g' =>
        g'.parts.getD j [] = (c.g.parts.getD j []).tail ∧
        (∀ i < 4, c.g.live.getLsbD (4 * j + i) = true → g'.em.getLsbD (4 * j + i) = r.em.getLsbD i) ∧
        (∀ l, ¬ (4 * j ≤ l ∧ l < 4 * j + 4) → g'.em.getLsbD l = c.g.em.getLsbD l) ∧ g'.s = c.g.s ∧ g'.flags = c.g.flags ∧
        ∃ x ∈ g'.gangs, x.slices = [j] ∧ x.pc = c.gg.pc + 4 ∧ x.fmt = r.fmt ∧ x.park = none)

namespace Sys2Proof.Claims

/-- A `bar` in a phase that is open (R145, R146): other ROLES than the phase has, and other ROLES or ARRIVE than the group's gangs that
have been counted, trap; and the last arrival completes the phase, so that the gangs of every group of the team that wait in it go on
after their words. -/
def OpenPhase : Prop :=
  ∀ (s : State) (c : Cx) (num : BitVec 4) (roles : BitVec 3) (arrive : BitVec 1) (p : BarPhase), s.cx? = some c → c.gg.pfx = [] →
    c.t.bars = [p] → p.num = num.toNat → inRoles roles.toNat c.g.ident.role = true →
    let own : Option BarArr := p.arrs.find? fun a => a.group == c.g.ident.id
    (∀ a, own = some a → a.done = false) →
    ((∃ r, p.roles = some r ∧ r ≠ roles.toNat) ∨ (∃ a, own = some a ∧ (a.roles ≠ roles.toNat ∨ a.arrive ≠ (arrive == 1))) →
      exec (.bar num roles arrive 0) s = c.trap { code := .illegalOperand }) ∧
    (uniqueGroups s → s.team? c.t.id = some c.t → c.g.ended = false → c.g.keyq = [] → c.g.tx.close = none → c.releaseHeld = false →
      GangsDisjoint c.g → (c.g.gangs.map (·.id)).Nodup → c.gg.slices ≠ [] →
      (∀ j ∈ c.gg.slices, ∀ a, own = some a → j ∉ a.slices) →
      (p.roles = none ∨ p.roles = some roles.toNat) → (∀ a ∈ p.arrs, a.roles = roles.toNat) →
      (∀ a, own = some a → a.arrive = (arrive == 1)) →
      (∀ j ∈ c.g.liveSlices, j ∈ c.gg.slices ∨ ∃ a, own = some a ∧ j ∈ a.slices) →
      (∀ h ∈ s.groupsOf c.t.id, h.ident.id ≠ c.g.ident.id → inRoles roles.toNat h.ident.role = true → h.ended = false →
        ∃ a ∈ p.arrs, a.group = h.ident.id ∧ a.done = true) →
      groupAfter (exec (.bar num roles arrive 0) s) c.g.ident.id fun t g' =>
        (∃ u, t.team? c.t.id = some u ∧ u.bars = []) ∧
        (∃ x ∈ g'.gangs, (∀ j ∈ c.gg.slices, j ∈ x.slices) ∧ x.pc = c.gg.pc + 4 ∧ x.park = none) ∧
        ∀ h ∈ s.groupsOf c.t.id, ∀ x ∈ h.gangs, x.id ≠ c.gg.id ∨ h.ident.id ≠ c.g.ident.id → x.park = some (.bar num.toNat) →
          ∃ h' y, t.group? h.ident.id = some h' ∧ y ∈ h'.gangs ∧ (∀ j ∈ x.slices, j ∈ y.slices) ∧ y.pc = x.pc + 4 ∧
            (y.park = none ∨ y.park = some .resume))

end Sys2Proof.Claims

/-- R145, R146: an arrive-only `bar` lets its gang go on; a `bar` that is the last arrival of its phase lets the waiting gangs go on
after their words, those of the other groups too; a group outside ROLES traps, and so does one whose ROLES differ from those of the
phase (which a group's completed arrival gives it: log 49) or whose ROLES or ARRIVE differ from those of its gangs already counted. -/
def Obligations.TeamBarrier : Prop :=
  OpenPhase ∧
  ∀ (s : State) (c : Cx) (num : BitVec 4) (roles : BitVec 3), s.cx? = some c → c.gg.pfx = [] → c.g.keyq = [] →
    c.g.tx.close = none → (∀ o ∈ s.crewOps, c.g.ident.id ∉ o.members) → (∀ p ∈ c.t.bars, p.num ≠ num.toNat) →
    GangsDisjoint c.g → (c.g.gangs.map (·.id)).Nodup →
    (inRoles roles.toNat c.g.ident.role = false → ∀ a, exec (.bar num roles a 0) s = c.trap { code := .illegalOperand }) ∧
    (inRoles roles.toNat c.g.ident.role = true →
      c.gg.slices ≠ [] → c.releaseHeld = false →
      (∃ t, exec (.bar num roles 1 0) s = .next t ∧ Advanced t c 1) ∧
      (s.groupsOf c.t.id = [c.g] → c.g.ended = false → (∀ j ∈ c.g.liveSlices, j ∈ c.gg.slices) →
        groupAfter (exec (.bar num roles 0 0) s) c.g.ident.id fun _ g' =>
          ∃ x ∈ g'.gangs, (∀ j ∈ c.gg.slices, j ∈ x.slices) ∧ x.pc = c.gg.pc + 4 ∧ x.park = none) ∧
      ((∃ g ∈ s.groupsOf c.t.id, g.ident.id ≠ c.g.ident.id ∧ g.ended = false ∧ inRoles roles.toNat g.ident.role = true) →
        c.t.bars = [] → groupAfter (exec (.bar num roles 0 0) s) c.g.ident.id fun _ g' =>
          ∃ x, g'.gang? c.gg.id = some x ∧ x.pc = c.gg.pc ∧ x.park = some (.bar num.toNat)))

/-- R147, R351, R353: `wbar` on a core outside the number's members, or of a launch that is not bound to it, traps PROTECTION; a
differing ARRIVE traps ILLEGAL_OPERAND; an arrive-only one lets its gang go on, and a waiting one parks it, as it parks at a link
between the compute dies that is down (log 48). WBAR_RELEASE frees the bound teams that wait in a complete phase, with those
of one that was complete before a line fell again (R353), and leaves the arrival of a team that is no longer bound (R354). -/
def Obligations.WiredBarrier : Prop :=
  (∀ (s : State) (c : Cx) (num : BitVec 6), s.cx? = some c → c.gg.pfx = [] → c.g.keyq = [] → c.g.tx.close = none →
    (∀ o ∈ s.crewOps, c.g.ident.id ∉ o.members) →
    let w := s.wbars.getD num.toNat .reset
    let member : Prop := ((s.die c.die).ctl.wbarMember.getD ((s.die c.die).physCore c.t.core) 0).getLsbD num.toNat = true
    let fresh : Prop := c.t.id ∉ w.arrived ∧ c.t.id ∉ w.released ∧ ∀ a ∈ w.arrs, a.1 ≠ c.t.id
    (fresh → ¬ member ∨ s.bound num.toNat c.die c.l = false → ∀ a, exec (.wbar num a 0) s = c.trap { code := .protection }) ∧
    (∀ a : BitVec 1, c.t.id ∉ w.arrived → c.t.id ∉ w.released → (∃ x ∈ w.arrs, x.1 = c.t.id ∧ x.2.arrive ≠ (a == 1)) →
      exec (.wbar num a 0) s = c.trap { code := .illegalOperand }) ∧
    (member → s.bound num.toNat c.die c.l = true → fresh → c.gg.slices ≠ [] → c.releaseHeld = false →
      (LinkId.cdCd ∉ s.linksDown →
        (∃ t, exec (.wbar num 1 0) s = .next t ∧ Advanced t c 1) ∧
        groupAfter (exec (.wbar num 0 0) s) c.g.ident.id fun _ g' =>
          ∃ x, g'.gang? c.gg.id = some x ∧ x.pc = c.gg.pc ∧ x.park = some (.wbar num.toNat)) ∧
      (LinkId.cdCd ∈ s.linksDown → ∀ a, groupAfter (exec (.wbar num a 0) s) c.g.ident.id fun t g' => t.wbars = s.wbars ∧
          ∃ x, g'.gang? c.gg.id = some x ∧ x.pc = c.gg.pc ∧ x.park = some (.fault false)))) ∧
  (∀ (s : State) (n : Nat) (g : Machine.Group), n < s.wbars.length → s.group? g.ident.id = some g →
    let w := s.wbar n
    let completes (id : Nat) : Prop := s.wbarComplete n = true ∧ id ∈ w.arrived ∧ id ∈ s.allBound n
    let woken : Prop := g.ident.team ∈ w.released ∨ completes g.ident.team
    groupAfter (exec (.wbarRelease n) s) g.ident.id fun t g' =>
      (∀ id, id ∈ (t.wbar n).arrived ↔ id ∈ w.arrived ∧ ¬ completes id) ∧ (t.wbar n).released = [] ∧
      (woken → ∀ x ∈ g.gangs, x.park = some (.wbar n) →
        ∃ y ∈ g'.gangs, (∀ j ∈ x.slices, j ∈ y.slices) ∧ y.pc = x.pc + 4 ∧
          y.park = if x.atEnd 1 then none else some .resume) ∧
      (¬ woken → g' = g))

/-- R149, R150, R339: `yield` changes nothing but the readiness ages of its group; `exit` of a group with no keyed access and no
commit outstanding (the accesses that R339 has it wait for: every other one is performed as its instruction issues, log 9) ends
every active lane of the gang and, with no lane active, passes its word. -/
def Obligations.YieldAndExit : Prop :=
  ∀ (s : State) (c : Cx), s.cx? = some c → c.gg.pfx = [] → uniqueGroups s →
    exec (.yield 0) s = .next (s.modGroup c.g.ident.id fun g =>
      ({ g with gangs := g.gangs.map fun x => { x with age := 0 } } : Machine.Group).advance c.gg 1) ∧
    (c.g.keyq = [] → c.g.tx.close = none →
      (c.lanes = [] → Passed s c 1 (exec (.exit 0) s)) ∧
      ∃ t, exec (.exit 0) s = .next t ∧ ∀ g', t.group? c.g.ident.id = some g' →
        (∀ l ∈ c.lanes, (g'.lane l).exited = true) ∧ ∀ l, l ∉ c.lanes → (g'.lane l).exited = (c.g.lane l).exited)

namespace Sys2Proof.Claims

/-! ## Traps -/

/-- A handler can be entered: TRAP_VECTOR is set, no slice of the group is in a handler, and no gang is held for one. -/
def mayEnter (s : State) (c : Cx) : Prop := (s.die c.die).ctl.trapVector ≠ 0 ∧ c.g.handler = none ∧ c.g.held = []

/-- What the entry of a handler leaves (R340): the trap registers, FMT, `em`, and the pc at TRAP_VECTOR. -/
def Entered (c : Cx) (code : Nat) (lanes : Word) (sw : Byte) (pc addr resume : DWord) (t : State) (g' : Machine.Group) : Prop :=
  t.mem = c.s.mem ∧ g'.s = c.g.s ∧ g'.flags = c.g.flags ∧
  g'.trap.cause.extractLsb' 32 32 = lanes ∧ g'.trap.cause.extractLsb' 24 8 = 0#8 ∧ g'.trap.cause.extractLsb' 8 8 = sw ∧
  g'.trap.cause.extractLsb' 0 8 = BitVec.ofNat 8 code ∧
  (∀ j < 8, g'.trap.cause.getLsbD (16 + j) = true ↔ j ∈ c.gg.slices) ∧
  g'.trap.pc = pc ∧ g'.trap.addr = addr ∧ g'.trap.resume = resume ∧
  g'.trap.state.extractLsb' 0 32 = c.gg.fmt ∧ g'.trap.state.extractLsb' 32 32 = c.g.emRead ∧
  g'.trap.hscratch = c.g.trap.hscratch ∧ (∃ h, g'.handler = some h ∧ h.slices = c.gg.slices) ∧
  (∀ l, g'.em.getLsbD l = true ↔ c.g.em.getLsbD l = true ∨ (c.gg.mask.getLsbD l = true ∧ c.g.live.getLsbD l = true)) ∧
  ∃ x, g'.gang? c.gg.id = some x ∧ x.pc = (c.s.die c.die).ctl.trapVector ∧ x.fmt = 0 ∧ x.slices = c.gg.slices ∧ x.park = none

end Sys2Proof.Claims

/-- R151, R340: a trap enters the handler with the trap registers written, TRAP_PC and TRAP_RESUME at the first word of the
instruction, its prefixes included, FMT zero, and `em` set in the gang's live lanes; `trap` and `brk` enter it with codes 0x10 and
0x11, every live lane of the gang in LANES, their CODE, and the word after the instruction as the resume point. -/
def Obligations.TrapEntry : Prop :=
  (∀ (s : State) (c : Cx) (q : Tq), s.cx? = some c → mayEnter s c → (∀ j ∈ c.gg.slices, j < 8) →
      groupAfter (c.trap q) c.g.ident.id
        (Entered c q.code.code q.lanes q.sw (c.gg.pc - BitVec.ofNat 64 (4 * c.gg.pfx.length)) q.addr
          (c.gg.pc - BitVec.ofNat 64 (4 * c.gg.pfx.length)))) ∧
  (∀ (s : State) (c : Cx) (code : BitVec 8), s.cx? = some c → c.gg.pfx = [] → mayEnter s c → (∀ j ∈ c.gg.slices, j < 8) →
      groupAfter (exec (.trap code 0) s) c.g.ident.id (Entered c 0x10 (c.g.live &&& c.gg.mask) code c.gg.pc 0 (c.gg.pc + 4)) ∧
      groupAfter (exec (.brk code 0) s) c.g.ident.id (Entered c 0x11 (c.g.live &&& c.gg.mask) code c.gg.pc 0 (c.gg.pc + 4)))

/-- R341, R344: a trap of a slice that is in a handler, or with TRAP_VECTOR zero, is a double trap: the group is held with its trap
registers as they stand, DOUBLE_TRAP takes TEAMID and LAUNCHID where it was 0, and bit 2 of the interrupt status is set. -/
def Obligations.DoubleTrapHolds : Prop :=
  ∀ (s : State) (c : Cx) (q : Tq), s.cx? = some c → c.t.id = c.g.ident.team → s.launch? c.t.launch = some c.l →
    ((s.die c.die).ctl.trapVector = 0 ∨ c.g.inHandler c.gg = true) →
    groupAfter (c.trap q) c.g.ident.id fun t g' =>
      (∃ h, g'.handler = some h ∧ h.double = true) ∧ g'.trap = c.g.trap ∧ g'.em = c.g.em ∧ g'.s = c.g.s ∧
      g'.gangs = c.g.gangs ∧ (t.die c.die).ctl.intStatus.getLsbD 2 = true ∧
      (t.die c.die).ctl.doubleTrap = if (s.die c.die).ctl.doubleTrap = 0 then
        (c.l.launchId.zeroExtend 64 <<< 32) ||| (BitVec.ofNat 32 c.t.teamId).zeroExtend 64 else (s.die c.die).ctl.doubleTrap

/-- R155, R342: `sys.eret` whose resume point holds a header takes the handler's slices out of handler mode: their gangs, which
stay apart where the handler parted them (R16, R17, log 27), go on at TRAP_RESUME with FMT and their `em` bits from TRAP_STATE; FMT
is taken as it stands (log 40). Outside a handler it traps ILLEGAL_OPERAND. -/
def Obligations.ReturnFromHandler : Prop :=
  ∀ (s : State) (c : Cx), s.cx? = some c → c.gg.pfx = [] →
    (∀ h t, c.g.handler = some h → c.g.inHandler c.gg = true → plainAddress c.g.trap.resume →
      headerAt c c.g.trap.resume t →
      groupAfter (exec (.sysEret 0) s) c.g.ident.id fun _ g' => g'.handler = none ∧ g'.s = c.g.s ∧ g'.flags = c.g.flags ∧
        g'.trap = c.g.trap ∧
        (∀ l < 32, g'.em.getLsbD l = if c.g.live.getLsbD l && h.slices.contains (l / 4) then
          c.g.trap.state.getLsbD (32 + l) else c.g.em.getLsbD l) ∧
        (∀ x ∈ c.g.gangs, (∀ j ∈ x.slices, j ∈ h.slices) → ∃ y ∈ g'.gangs, y.id = x.id ∧ y.slices = x.slices ∧
          y.pc = c.g.trap.resume ∧ y.fmt = c.g.trap.state.extractLsb' 0 32 ∧ y.park = none) ∧
        ∀ x ∈ c.g.gangs, (∃ j ∈ x.slices, j ∉ h.slices) → x ∈ g'.gangs) ∧
    (c.g.handler = none → c.l.priv = true → exec (.sysEret 0) s = c.trap { code := .illegalOperand })

/-- R152, R296, R341: a system instruction of a gang that is neither in a privileged context nor in a handler traps PRIVILEGE,
whatever its fields are. -/
def Obligations.SystemNeedsPrivilege : Prop :=
  ∀ (s : State) (c : Cx), s.cx? = some c → c.l.priv = false → c.g.inHandler c.gg = false →
    ∀ (a b d : BitVec 6) (sel : BitVec 10) (f : BitVec 2) (r8 : BitVec 8) (r24 : BitVec 24) (r16 : BitVec 16) (r18 : BitVec 18)
      (r12 : BitVec 12) (r10 : BitVec 10) (r6 : BitVec 6),
    ∀ i ∈ [Instr.sysRdcr a sel r8, .sysWrcr a sel r8, .sysEret r24, .sysTlbiAll a r16, .sysTlbiPage a r16, .sysTlbiCore a r16,
      .sysReplay r24, .sysFltpop a r18, .sysCtxsv a b d r6, .sysCtxld a b r12, .sysPreempt a b f r10, .sysIpi a r18,
      .sysHalt r24],
    exec i s = c.trap { code := .privilege }

namespace Sys2Proof.Claims

/-! ## System instructions -/

/-- A system instruction may issue: a privileged context or a handler. -/
def sysReady (c : Cx) : Prop := c.priv = true ∧ c.gg.pfx = []

/-- The writable die-wide registers that hold all they are given under a mask, with no other effect (Tables 5.4, 10.1, 11.4). -/
def plainRegs : List (Nat × DWord) :=
  [(0x30, 0x000FFFFFFFE00000), (0x31, 0xFFFFFFFFFFFFFFFC), (0x60, 0x000FFFFFFFFFF000), (0x76, 0xFFFFFFFFFFFFFFFF),
   (0x88, 0xFFFFFFFFFFFFF000), (0x89, 0xFFFFFFFF), (0x38, 0x800FFFFFFFFFFF80), (0x3C, 0x000FFFFFFFFFFF80)]

/-- The entries that a value of FRAME_POOL_SIZE gives the ring: a power of two from 1 to 2^20, and 0 for any other (R328). -/
def ringEntries (v : Nat) : Nat := if (List.range 21).any (fun k => v == 2 ^ k) then v else 0

/-- Die-wide registers and what they hold. -/
def dieRegs (d : Die) : List (Nat × DWord) :=
  [(0x00, d.coreEnable.extractLsb' 0 64), (0x30, d.ctl.pageTableRoot), (0x31, d.ctl.trapVector),
   (0x33, d.ctl.txRetryLimit.zeroExtend 64), (0x60, d.ctl.poolBase), (0x61, BitVec.ofNat 64 (ringEntries d.ctl.poolSize.toNat)),
   (0x62, BitVec.ofNat 64 (d.ctl.poolHead % ringEntries d.ctl.poolSize.toNat)),
   (0x63, BitVec.ofNat 64 (d.ctl.poolTail.toNat % ringEntries d.ctl.poolSize.toNat)), (0x74, d.ctl.errAddr),
   (0x75, d.ctl.errStatus.zeroExtend 64), (0x76, d.ctl.doubleTrap), (0x78, d.ctl.intStatus.zeroExtend 64),
   (0x79, d.ctl.intEnable.zeroExtend 64), (0x88, d.preempt.area), (0x8A, d.preempt.savedAt)]

end Sys2Proof.Claims

/-- R154, R290, R328: `sys.rdcr` writes the register, zero-extended, to `sd`: a die-wide register of the issuing die (Tables 5.4,
10.1 and 11.4), or in a handler a trap register of the group. `sys.wrcr` to a writable register completes; the plain ones then hold
the value written under their masks, FRAME_POOL_SIZE holds a power of two or 0, and FRAME_POOL_TAIL counts modulo the size; every
other die-wide register of the die, and every one of the other die, reads as before. A selector that names no register, a write of
a read-only one, and a write of zero in the low byte of TX_RETRY_LIMIT trap ILLEGAL_OPERAND. -/
def Obligations.ControlRegisters : Prop :=
  (∀ (s : State) (c : Cx) (sd : BitVec 6) (sel : BitVec 10), s.cx? = some c → sysReady c →
      let gives (v : DWord) : Prop := exec (.sysRdcr sd sel 0) s =
        .next (s.modGroup c.g.ident.id fun g => (g.writeS c.gg sd.toNat v).advance c.gg 1)
      (crExists sel.toNat = false → exec (.sysRdcr sd sel 0) s = c.trap { code := .illegalOperand }) ∧
      (crExists sel.toNat = true → c.sregOk sd.toNat = true →
        (∀ e ∈ dieRegs (s.die c.die), sel.toNat = e.1 → gives e.2) ∧
        (c.g.inHandler c.gg = true →
          ∀ e ∈ [(0x68, c.g.trap.cause), (0x69, c.g.trap.resume), (0x6A, c.g.trap.pc), (0x6B, c.g.trap.addr), (0x6C, c.g.trap.state),
            (0x6D, c.g.trap.hscratch.getD 0 0), (0x70, c.g.trap.hscratch.getD 3 0)], sel.toNat = e.1 → gives e.2) ∧
        ∃ v, gives v)) ∧
  (∀ (s : State) (c : Cx) (sa : BitVec 6) (sel : BitVec 10), s.cx? = some c → sysReady c →
      let v := c.g.readS sa.toNat
      let n := ringEntries (v.extractLsb' 0 32).toNat
      (crWritable sel.toNat = false → exec (.sysWrcr sa sel 0) s = c.trap { code := .illegalOperand }) ∧
      (crWritable sel.toNat = true → c.sregOk sa.toNat = true →
        (¬ (sel.toNat = 0x33 ∧ v.extractLsb' 0 8 = 0#8) →
          (sel.toNat = 0x65 → v.extractLsb' 0 32 = 1#32 → c.g.keyq = [] ∧ c.g.tx.close = none) →
          ∃ t, exec (.sysWrcr sa sel 0) s = .next t ∧ Advanced t c 1 ∧
          t.mem = s.mem ∧ ((c.die = .cd0 → t.cd1 = s.cd1) ∧ (c.die = .cd1 → t.cd0 = s.cd0)) ∧
          (∀ e ∈ plainRegs, sel.toNat = e.1 →
            (e.1 ∈ [0x38, 0x3C] → (s.die c.die).ctl.retainBase ≠ [] ∧ (s.die c.die).ctl.retainLimit ≠ []) →
            t.readCr c.die e.1 = v &&& e.2 ∧ ∀ n, n ≠ e.1 → t.readCr c.die n = s.readCr c.die n) ∧
          (sel.toNat = 0x61 → t.readCr c.die 0x61 = BitVec.ofNat 64 n ∧
            t.readCr c.die 0x62 = BitVec.ofNat 64 ((s.die c.die).ctl.poolHead % n) ∧
            t.readCr c.die 0x63 = BitVec.ofNat 64 ((s.die c.die).ctl.poolTail.toNat % n) ∧
            ∀ k, k ∉ [0x61, 0x62, 0x63] → t.readCr c.die k = s.readCr c.die k) ∧
          (sel.toNat = 0x63 →
            t.readCr c.die 0x63 =
              BitVec.ofNat 64 ((v.extractLsb' 0 32).toNat % ringEntries (s.die c.die).ctl.poolSize.toNat) ∧
            ∀ k, k ≠ 0x63 → t.readCr c.die k = s.readCr c.die k)) ∧
        (sel.toNat = 0x33 → v.extractLsb' 0 8 = 0#8 → exec (.sysWrcr sa sel 0) s = c.trap { code := .illegalOperand })))

namespace Sys2Proof.Claims

/-! ### Faults of translation and first touch (R18, R329 to R331) -/

/-- The record of a translation that parks its access (Table 11.5); none for one that does not. -/
def recordOf (c : Cx) (b : Sub) (r : Tr) : Option FaultRec :=
  let mk (code sub level : Nat) : FaultRec :=
    ⟨c.l.launchId, c.t.core, level, 1, b.va.extractLsb' 16 48, code, 0, sub, b.act.isWrite, false⟩
  match r with
  | .fault sub level => some (mk 0x08 sub level)
  | .down level => some (mk 0x0D 0 level)
  | _ => none

/-- The buffer of a die after one more fault is offered (R331): an entry of the same page and cause counts it; else it is appended where
fewer than 8 entries stand; else it is dropped. -/
def Offered (u t : State) (d : DieId) (r : FaultRec) : Prop :=
  let same (y : FaultRec) : Bool := y.vpage == r.vpage && y.code == r.code && y.sub == r.sub && y.source == r.source
  let old := (u.die d).faults
  if old.any same = true then
    (t.die d).faults = old.map fun y =>
      if same y then { y with count := min 65535 (y.count + 1), write := y.write || r.write } else y
  else if old.length < 8 then
    (t.die d).faults = old ++ [r] ∧ (old = [] → (t.die d).ctl.intStatus.getLsbD 0 = true)
  else (t.die d).faults = old ∧ (t.die d).dropped = true ∧ (t.die d).ctl.intStatus.getLsbD 1 = true

/-- The accesses of slice j of an instruction park: one of them, or the one access of the gang, does not translate. -/
def parksAt (c : Cx) (reqs : List Req) (j : Nat) : Prop :=
  ∃ t ∈ (c.trReqs reqs c.s).1, (t.1.lane = none ∨ ∃ l, t.1.lane = some l ∧ l / 4 = j) ∧ ∃ x ∈ t.2, x.2.parks = true

/-- An access without a valid leaf (R18, R330, R331): each slice with one stays parked at the instruction, with none of its bytes
written, the other slices complete it as a gang of the same fault split, nothing is pushed, and the fault buffer is offered one record
for a page and a cause. -/
def FaultsPark : Prop :=
  ∀ e ∈ globalTable, ∀ (s : State) (c : Cx) (m : MForm), s.cx? = some c → e.2.1 c m → MemCanonical s →
    let reqs := (e.2.2 c m).2
    let trs := (c.trReqs reqs c.s).1
    let u := (c.trReqs reqs c.s).2
    accessFree c reqs → c.gg.afresh = false → (∀ t ∈ trs, ∀ x ∈ t.2, x.2 ≠ .prot) →
    (∀ g ∈ s.groups, ∀ x ∈ g.gangs, x.id < s.nextId) → (∃ t ∈ trs, ∃ x ∈ t.2, x.2.parks = true) →
    groupAfter (exec (e.1 m) s) c.g.ident.id fun t g' => g'.parts = c.g.parts ∧
      (∀ j ∈ c.gg.slices, parksAt c reqs j → ∃ x ∈ g'.gangs, j ∈ x.slices ∧ x.pc = c.gg.pc ∧ x.clause = c.gg.clause ∧
        x.park = some (.fault false) ∧ ∀ i ∈ x.slices, parksAt c reqs i) ∧
      (∀ j ∈ c.gg.slices, ¬ parksAt c reqs j → ∃ y ∈ g'.gangs, j ∈ y.slices ∧ y.pc = c.gg.pc + 8 ∧ y.park = none ∧
        ∀ i ∈ c.gg.slices, parksAt c reqs i → ∃ x ∈ g'.gangs, i ∈ x.slices ∧ x.split.isSome = true ∧ x.split = y.split) ∧
      (∀ a, (∀ p ∈ piecesIn c reqs, p.sub.act.isWrite = true → (∀ l, p.lane = some l → ¬ parksAt c reqs (l / 4)) →
          ¬ (p.pa ≤ a ∧ a < p.pa + p.sub.n)) → Mem.read t.mem a = Mem.read u.mem a) ∧
      ∀ r, (∀ t ∈ trs, ∀ x ∈ t.2, x.2.parks = true → recordOf c x.1 x.2 = some r) → Offered u t c.die r

/-- A walk that finds no valid leaf faults, and changes no memory (R325). -/
def NoLeafFaults : Prop :=
  ∀ (s : State) (d : DieId) (core : Option Nat) (va : DWord) (a : Acc3) (sub level : Nat), canonical va = true →
    let v := (va.extractLsb' 0 57).toNat
    findTlb (s.die d).tlb core v = none → s.walk d v = .fault sub level →
    ∃ t, s.translate d core va a = (.fault sub level, t) ∧ t.mem = s.mem

/-- First touch (R328, R329): a walk that ends at a leaf with V = 0 and FIRST_TOUCH = 1 takes the held frame, or else the next one of
the pool, writes zero to all of it and installs it; an empty pool is noted, and nothing is written. -/
def FirstTouch : Prop :=
  ∀ (s : State) (d : DieId) (core : Nat) (va : DWord) (write fetch priv : Bool) (slot f : Nat) (e : DWord),
    canonical va = true → (s.die d).coresHeld = false → MemCanonical s →
    s.walk d (va.extractLsb' 0 57).toNat = .back slot e →
    let c := (s.die d).ctl
    let n := ringEntries c.poolSize.toNat
    let head := c.poolHead % n
    let some' : Prop := n ≠ 0 ∧ head ≠ c.poolTail.toNat % n
    (f % 65536 = 0 → f < 2 ^ 52 → ownerOf f = .hbm d →
      (c.spare = some f ∨
        (c.spare = none ∧ some' ∧ (Mem.dword s.mem ((c.poolBase.extractLsb' 12 40).toNat * 4096 + 8 * head)).toNat = f)) →
      ∃ t, exec (.pageWalk d core va write fetch priv false) s = .next t ∧
        Mem.dword t.mem slot = (e &&& ~~~0x000FFFFFFFFF0800#64) ||| BitVec.ofNat 64 f ||| 1 ||| 0x400 |||
          (if write then 0x800 else 0) ∧
        (∀ a, f ≤ a → a < f + 65536 → ¬ (slot ≤ a ∧ a < slot + 8) → Mem.read t.mem a = 0) ∧
        (∀ a, ¬ (f ≤ a ∧ a < f + 65536) → ¬ (slot ≤ a ∧ a < slot + 8) → Mem.read t.mem a = Mem.read s.mem a) ∧
        (t.die d).ctl.spare = none ∧ (t.die d).ctl.poolHead = (if c.spare = none then (head + 1) % n else c.poolHead)) ∧
    (c.spare = none → ¬ some' →
      ∃ t, exec (.pageWalk d core va write fetch priv false) s = .next t ∧ t.mem = s.mem ∧
        (t.die d).ctl.emptySeen = true ∧ (t.die d).ctl.intStatus.getLsbD 5 = true)

end Sys2Proof.Claims

/-- R156, R157, R327, R329 to R331, R334: `sys.tlbi` drops the entries that its KIND names, of the TLBs and of the walk caches, and no
other; `sys.replay` releases the parked accesses of its die; `sys.fltpop` removes the oldest entry of the fault buffer and writes its two
halves, or zeros when the buffer is empty; an access without a valid leaf parks its slices and is offered to the fault buffer (the
faults of one instruction on one page as one: log 40); a first touch takes a frame of the pool. -/
def Obligations.TranslationsAndFaults : Prop :=
  FaultsPark ∧ NoLeafFaults ∧ FirstTouch ∧
  ∀ (s : State) (c : Cx), s.cx? = some c → sysReady c →
    let tlb (keep : TlbEntry → Bool) (walks : List WalkEntry) : State :=
      s.modDie c.die fun d => { d with tlb := d.tlb.filter keep, walks := walks }
    let held := (s.die c.die).walks
    Passed (tlb (fun _ => false) []) c 1 (exec (.sysTlbiAll 0 0) s) ∧
    Passed (tlb (fun t => t.core != some c.t.core) held) c 1 (exec (.sysTlbiCore 0 0) s) ∧
    (∀ sa : BitVec 6, c.sregOk sa.toNat = true → canonical (c.g.readS sa.toNat) = true →
      let v := ((c.g.readS sa.toNat).extractLsb' 0 57).toNat
      Passed (tlb (fun t => t.base != v / pageSize t.level * pageSize t.level)
          (held.filter fun w => !(decide (w.base ≤ v) && decide (v < w.base + levelSpan w.level)))) c 1
        (exec (.sysTlbiPage sa 0) s)) ∧
    (c.g.keyq = [] → c.g.tx.close = none → ∃ t, exec (.sysReplay 0) s = .next t ∧ Advanced t c 1 ∧ t.mem = s.mem ∧
      ∀ g' ∈ t.groups, (s.team? g'.ident.team).any (fun u => u.die == c.die) = true →
        ∀ x ∈ g'.gangs, x.park ≠ some (.fault false)) ∧
    (∀ sd : BitVec 6, sd.toNat % 2 = 0 → sd.toNat < 62 → c.sregOk sd.toNat = true → c.sregOk (sd.toNat + 1) = true →
      sd.toNat + 1 < c.g.s.length →
      groupAfter (exec (.sysFltpop sd 0) s) c.g.ident.id fun t g' => Advanced t c 1 ∧
        (t.die c.die).faults = (s.die c.die).faults.tail ∧
        (∀ r rest, (s.die c.die).faults = r :: rest → g'.s.getD sd.toNat 0 = r.bits.1 ∧ g'.s.getD (sd.toNat + 1) 0 = r.bits.2) ∧
        ((s.die c.die).faults = [] → g'.s.getD sd.toNat 0 = 0 ∧ g'.s.getD (sd.toNat + 1) 0 = 0) ∧
        ∀ n, n ≠ sd.toNat → n ≠ sd.toNat + 1 → g'.s.getD n 0 = c.g.s.getD n 0)

/-- R158, R317, R320, R374: `sys.ctxsv` of a saved area whose team is neither resident nor queued seals it at its destination with
status 0, and with status 2 otherwise; `sys.ctxld` answers 1 for an image whose key the package does not hold, 2 for a format
version that it does not accept or a team that is resident or queued, and 3 where the die lacks resources, or the launch still has
teams on the other die (R1, log 14); otherwise it queues the team for the issuing die with status 0, and its launch is one of that die
(which keys, versions and resources those are is left open, log 14). Both mark the team's side effects. -/
def Obligations.SealedContexts : Prop :=
  ∀ (s t : State) (c : Cx) (v : Saved) (sd sa sb : BitVec 6), s.cx? = some c → sysReady c →
    (∀ r ∈ [sd, sa, sb], c.sregOk r.toNat = true) →
    let ends (i : Instr) (w : State) (st : DWord) : Prop :=
      exec i s = .next ((w.markSide c.t).modGroup c.g.ident.id fun g => (g.writeS c.gg sd.toNat st).advance c.gg 1)
    (c.findArea false (c.g.readS sa.toNat) s = (.found v, t) →
      (t.savedActive v = true → ends (.sysCtxsv sd sa sb 0) t 2) ∧
      (t.savedActive v = false → ∀ u m,
        t.mapSpan c.die (some c.t.core) ⟨true, false, c.priv⟩ (c.g.readS sb.toNat) v.bytes.length c.gg.afresh = (.inr m, u) →
        ∃ w : State, ends (.sysCtxsv sd sa sb 0) w 0 ∧
          ∃ x ∈ w.saved, x.image = true ∧ x.addr = c.g.readS sb.toNat ∧ x.teams = v.teams ∧ x.groups = v.groups)) ∧
    (c.findArea false (c.g.readS sa.toNat) s = (.other, t) → ends (.sysCtxsv sd sa sb 0) t 2) ∧
    (c.findArea true (c.g.readS sa.toNat) s = (.other, t) → ends (.sysCtxld sd sa 0) t 1) ∧
    (c.findArea true (c.g.readS sa.toNat) s = (.found v, t) →
      (v.keyHeld t.tick = false → ends (.sysCtxld sd sa 0) t 1) ∧
      (v.keyHeld t.tick = true → v.versionOk = false ∨ t.savedActive v = true → ends (.sysCtxld sd sa 0) t 2) ∧
      (v.keyHeld t.tick = true → v.versionOk = true → t.savedActive v = false →
        (t.tiedAway c.die v = true → ends (.sysCtxld sd sa 0) t 3) ∧
        ∃ (w : State) (st : DWord), ends (.sysCtxld sd sa 0) w st ∧
          ((st = 0 ∧ (∃ x ∈ w.saved, x.queued = true ∧ x.die = c.die ∧ x.teams = v.teams ∧ x.groups = v.groups) ∧
              ∀ l, w.launch? v.launch.id = some l → l.die = c.die) ∨
            (st = 3 ∧ w.saved = t.saved))))

/-- R159, R160: `sys.preempt` while BUSY is 0 records its request and goes on, and while BUSY is 1 waits; FORCE 3 traps
ILLEGAL_OPERAND. `sys.ipi` wakes the halted groups of each core that it names (255 names every core), clearing the core's pending
bit, and sets the bit of a core where none is halted; numbers from 156 to 254 trap. `sys.halt` with the bit set clears it and goes
on, and otherwise parks. -/
def Obligations.PreemptSignalHalt : Prop :=
  ∀ (s : State) (c : Cx), s.cx? = some c → sysReady c →
    (∀ (sa sb : BitVec 6) (f : BitVec 2),
      (f = 3 → exec (.sysPreempt sa sb f 0) s = c.trap { code := .illegalOperand }) ∧
      (c.sregOk sa.toNat = true → c.sregOk sb.toNat = true → f ≠ 3 →
        ((s.die c.die).preempt.busy = true → exec (.sysPreempt sa sb f 0) s = c.park (.wait .preemptBusy)) ∧
        ((s.die c.die).preempt.busy = false →
          ∃ t, exec (.sysPreempt sa sb f 0) s = .next t ∧ Advanced t c 1 ∧ t.mem = s.mem ∧
            (t.die c.die).preempt.team = (c.g.readS sa.toNat).extractLsb' 0 32))) ∧
    (∀ sa : BitVec 6, c.sregOk sa.toNat = true →
      let n := (c.g.readS sa.toNat).toNat % 256
      let on (k : Nat) (g : Machine.Group) : Prop := ∃ u, s.team? g.ident.team = some u ∧ u.die = c.die ∧ u.core = k
      let named (k : Nat) : Prop := k < 156 ∧ (n = 255 ∨ n = k)
      let halted (k : Nat) : Prop := ∃ g ∈ s.groups, on k g ∧ ∃ x ∈ g.gangs, x.park = some .halt
      (156 ≤ n → n ≤ 254 → exec (.sysIpi sa 0) s = c.trap { code := .illegalOperand }) ∧
      (n < 156 ∨ n = 255 → c.gg.park = none → (c.g.gangs.map (·.id)).Nodup →
        ∃ t, exec (.sysIpi sa 0) s = .next t ∧ Advanced t c 1 ∧
          (∀ k, named k → halted k → k ∉ (t.die c.die).ipi ∧
            ∀ g ∈ t.groups, on k g → ∀ x ∈ g.gangs, x.park ≠ some .halt) ∧
          (∀ k, named k → ¬ halted k → k ∈ (t.die c.die).ipi) ∧
          ∀ k, ¬ named k → (k ∈ (t.die c.die).ipi ↔ k ∈ (s.die c.die).ipi))) ∧
    (c.t.core ∈ (s.die c.die).ipi →
      Passed (s.modDie c.die fun d => { d with ipi := d.ipi.filter (· != c.t.core) }) c 1 (exec (.sysHalt 0) s)) ∧
    (c.t.core ∉ (s.die c.die).ipi → exec (.sysHalt 0) s = c.park .halt)

namespace Sys2Proof.Claims

/-! ## Crews -/

/-- The checks of a crew operation in its member (ranks 3, 4 and 6), and the scalar values that it places. -/
def crewPlaced (c : Cx) : Instr → Prop × List DWord
  | .mxZero x => (c.mxCheck (noPfx (zeroOk x) c) [] [] = .ok (), [])
  | .mxMma x => (c.mxCheck (noPfx (mmaOk x) c) (mxSregs false x) (mxVregs x (mxShapeOf false x)) = .ok (), mxVals false x c)
  | .mxMmac x => (c.mxCheck (noPfx (mmacOk x) c) (mxSregs false x) (mxVregs x (mxShapeOf true x)) = .ok (), mxVals false x c)
  | .mxMma64 x => (c.mxCheck (noPfx (mma64Ok x) c) (mxSregs false x) (mxVregs x (mxShapeOf false x)) = .ok (), mxVals false x c)
  | .mxMmad x =>
    (c.mxCheck (mmadOk x && c.gg.pfx.all fun p => p.isMom && p.fieldsOk && (momOf [p]).all fun f => f.pmod.toNat % 4 == 1)
      (mxSregs true x) (mxVregs x (mxShapeOf false x) ++ [(x.vbv.toNat, mxR 6 (mxShapeOf false x).k)]) = .ok (), mxVals true x c)
  | .mxLdc x => ldc 0 x
  | .mxLdcVar x => ldc 1 x
  | .mxLdcB x => ldc 2 x
  | .mxLdcF64 x => ldc 3 x
  | .mxStc x =>
    (c.mxCheck (stcOk x && (c.gg.pfx.all fun p => p.isSr && p.fieldsOk && (srOf [p]).all fun f => f.opr.toNat < 120) &&
        (c.gg.pfx.isEmpty || x.rnd.toNat == 0 || x.rnd.toNat == 5) && 16 * x.pitch.toNat ≥ stcRow x.outf.toNat (crewSize c.g.mxcrew))
      [x.sa.toNat] (match srOf c.gg.pfx with | some p => [(p.opr.toNat, 8 * crewSize c.g.mxcrew)] | none => []) = .ok (),
     [c.g.readS x.sa.toNat])
  | _ => (False, [])
where
  /-- The loads, by KIND. -/
  ldc (kind : Nat) (x : LdcForm) : Prop × List DWord :=
    (c.mxCheck (noPfx (ldcOk kind x) c && 16 * x.pitch.toNat ≥ ldcRow kind x.nreg.toNat (crewSize c.g.mxcrew)) [x.sa.toNat]
      (if kind = 2 then [(x.vb.toNat, x.nreg.toNat)] else []) = .ok (), [c.g.readS x.sa.toNat])

/-- The entry that a member places in its slot: the gang, the words and prefixes, the values, and the rounding mode, SAT and SO that
the instruction uses (R235). -/
def crewEntry (c : Cx) (i : Instr) : SlotEntry :=
  let e (rm : Nat) (sat so : Bool) : SlotEntry := ⟨c.gg.id, encode i, c.gg.pfx, (crewPlaced c i).2, rm, sat, so⟩
  match i with
  | .mxMmad _ => e 0 false (match momOf c.gg.pfx with | some p => p.pmod.getLsbD 2 | none => fmtSo c.gg.fmt)
  | .mxStc x => e (match c.rm x.rnd.toNat with | .rne => 0 | .rtz => 1 | .ru => 2 | .rd => 3 | .sr => 4) (fmtSat c.gg.fmt || x.sat == 1) false
  | _ => e 0 false false

end Sys2Proof.Claims

/-- R233, R235, R237: `mx.crew` that names its own group writes MXCREW. Without a valid MXCREW a crew operation traps CREW. With one,
and with an equal MXCREW in every member, an operation that passes its member's checks waits in the member's slot while another
member has none there; where it is the last, the entries agree and the crew-wide checks pass, the operation enters the queue, and
every member's gang goes on (those of `mx.ldc.b` stay parked). -/
def Obligations.CrewOperationsAccepted : Prop :=
  ∀ (s : State) (c : Cx), s.cx? = some c → uniqueGroups s →
    (∀ x : CrewForm, c.mxCheck (crewOk x && c.gg.pfx.isEmpty) [] [] = .ok () →
      (c.crewNamed x = true → s.crewIdle c.g = true → exec (.mxCrew x) s = .next (s.modGroup c.g.ident.id fun g =>
        { g.advance c.gg 2 with mxcrew := 0#35 ++ 1#1 ++ x.qmask ++ x.gq })) ∧
      (c.crewNamed x = false → exec (.mxCrew x) s = c.trap { code := .crew })) ∧
    ∀ i : Instr, (crewPlaced c i).1 →
      (c.g.mxcrew.getLsbD 28 = false → exec i s = c.trap { code := .crew }) ∧
      (c.g.mxcrew.getLsbD 28 = true → c.g.slot = none →
        let gs := s.crewOf c.t.id c.g.mxcrew
        (∀ h ∈ gs, h.mxcrew = c.g.mxcrew) → (∀ h ∈ s.groupsOf c.t.id, h.slot ≠ none → h ∈ gs) →
        ((∃ h ∈ gs, h.ident.id ≠ c.g.ident.id ∧ h.slot = none) →
          groupAfter (exec i s) c.g.ident.id fun t g' => t.crewOps = s.crewOps ∧ g'.slot = some (crewEntry c i) ∧
            ∃ x, g'.gang? c.gg.id = some x ∧ x.pc = c.gg.pc ∧ x.park = some .crew) ∧
        (gs.length = crewSize c.g.mxcrew → c.g ∈ gs →
          (∀ h ∈ gs, h.ident.id ≠ c.g.ident.id → ∃ k, h.slot = some { crewEntry c i with gang := k } ∧ (s.cxOf h.ident.id k).isSome = true) →
          (s.crewOps.filter fun o => o.members == gs.map (·.ident.id)).length < 4 → c.crewChecks i (crewPlaced c i).2 gs.length = .ok () →
          ∃ t o, exec i s = .next t ∧ o ∈ t.crewOps ∧ o.words = encode i ∧ o.members = gs.map (·.ident.id) ∧ o.vals = (crewPlaced c i).2 ∧
            o.pfx = c.gg.pfx ∧
            ∀ h ∈ gs, ∀ k m, (if h.ident.id = c.g.ident.id then k = c.gg.id else ∃ e, h.slot = some e ∧ e.gang = k) →
              s.cxOf h.ident.id k = some m → groupAfter (exec i s) h.ident.id fun _ g' => g'.slot = none ∧ ∃ x, g'.gang? k = some x ∧
                ((∃ y, i = .mxLdcB y) → x.pc = m.gg.pc ∧ x.park = some (.crewB o.id)) ∧
                ((∀ y, i ≠ .mxLdcB y) → x.pc = m.gg.pc + BitVec.ofNat 64 (4 * (encode i).length) ∧ x.park = none)))

namespace Sys2Proof.Claims

/-! ## What crew operations compute -/

/-- n bits from bit `lo` of a stream of words (R184). -/
def bitsAt (word : Nat → Word) (lo n : Nat) : Nat :=
  ((List.range n).map fun b => if (word ((lo + b) / 32)).getLsbD ((lo + b) % 32) then 2 ^ b else 0).sum

/-- The scratchpad word w of row i that an operation has read (R238, R249). -/
def rowWord (o : CrewOp) (base : DWord) (pitch swz i w : Nat) : Word :=
  o.word (swizzle (base + BitVec.ofNat 64 (i * 16 * pitch + 4 * w)) swz)
/-- nb bits of row i of A from bit `lo`, and of column j of B from the members' registers (R238). -/
def matA (o : CrewOp) (x : MxForm) (base : DWord) (i lo nb : Nat) : Nat := bitsAt (rowWord o base x.pitch.toNat x.swz.toNat i) lo nb
def matB (regs : List (List (List Word))) (j lo nb : Nat) : Nat :=
  bitsAt (fun w => ((regs.getD (j / 16) []).getD (w / 2) []).getD (16 * (w % 2) + j % 16) 0) lo nb
/-- The scale code of a row for element k: 127, which is 1, where the operation is not scaled (R61, R63, R239). -/
def matScale (o : CrewOp) (x : MxForm) (base : DWord) (row k : Nat) : Nat :=
  if x.scaled = 1 then ((o.word (base + BitVec.ofNat 64 (row / 32 * 128 + row % 32 % 8 * 16 + row % 32 / 8 * 4))).extractLsb'
    (8 * (x.bc.toNat + k / 32)) 8).toNat else 127
/-- The bases of the A tiles and the B tiles. -/
def tilesA (o : CrewOp) : DWord := ((o.vals.getD 1 0).extractLsb' 0 32).zeroExtend 64
def tilesB (o : CrewOp) : DWord := ((o.vals.getD 1 0).extractLsb' 32 32).zeroExtend 64

/-- Element bits and K of Table 8.2, by the code of FA. -/
def matShape (fa : Nat) : Nat × Nat :=
  if fa = 7 ∨ fa = 8 then (16, 32) else if fa = 1 ∨ fa = 2 then (8, 64) else if fa = 5 then (4, 128) else if fa = 9 then (32, 8)
  else if fa = 10 then (64, 4) else (6, 64)

/-- A product of bits `p` of an element of A and bits `q` of one of B: nb of them from an offset in the element. -/
def matProd (o : CrewOp) (x : MxForm) (nb pitch i j k p q : Nat) : FR :=
  mxProd (Fmt.ofMx x.fa.toNat) (Fmt.ofMx x.fb.toNat)
    (matA o x (o.vals.getD 0 0) i (pitch * k + p) nb, matScale o x (tilesA o) i k)
    (matB o.bregs j (pitch * k + q) nb, matScale o x (tilesB o) j k)

/-- The sum of R245 for row i and column j. -/
def matVar (o : CrewOp) (x : MxForm) (nb K i j : Nat) : VV :=
  let d := o.vals.getD 2 0
  let base := (d.extractLsb' 0 32).zeroExtend 64
  let xva := (d.extractLsb' 32 8).toNat
  let xvb := (d.extractLsb' 40 8).toNat
  (List.range K).foldl (fun v k =>
    let ma := upMean (Fmt.ofMx x.fa.toNat) (matA o x (o.vals.getD 0 0) i (nb * k) nb, matScale o x (tilesA o) i k)
    let mb := upMean (Fmt.ofMx x.fb.toNat) (matB o.bregs j (nb * k) nb, matScale o x (tilesB o) j k)
    v.add (mxVarTerm o.so ma (upVar (matA o x base i (6 * k) 6) xva).1 mb (upVar (matB o.vregs j (6 * k) 6) xvb).1)) .zero

/-- An arithmetic operation has put its elements y into the 16 rows and N columns of an accumulator: words, twins, the flags that
the members `fl` of the elements and `more` raise, and OPS. -/
def Accumulated (N : Nat) (y : Nat → Nat → MxOut) (word : MxOut → Word) (twin : MxOut → Word) (more : Nat → Prop) (old new : Acc) : Prop :=
  (∀ r < 16, ∀ j < N, (r < old.c.length → (new.c.getD r []).getD j 0 = word (y r j)) ∧
    (r < old.tw.length → (new.tw.getD r []).getD j 0 = twin (y r j))) ∧
  (∀ b < 32, new.status.getLsbD b = true ↔ old.status.getLsbD b = true ∨
    b ∈ [0, 1, 2, 4, 8] ∧ (more b ∨ ∃ r < 16, ∃ j < N, (y r j).fl.getLsbD b = true)) ∧
  new.ops = old.ops + 1 ∧ new.marks = old.marks

/-- What a performed operation leaves in accumulator k of a member. -/
def accAfter (r : Host.Outcome State Fault Refusal) (gid : Nat) (g : Machine.Group) (k : Nat) (P : Acc → Acc → Prop) : Prop :=
  groupAfter r gid fun _ g' => ∀ old new, g.accs[k]? = some old → g'.accs[k]? = some new → P old new

/-- Scales 0xFF in a member's rows of A or in a column of B set SCALENAN (R246). -/
def scaleNanMet (o : CrewOp) (x : MxForm) (m K : Nat) (b : Nat) : Prop :=
  b = 8 ∧ x.scaled = 1 ∧ ∃ k < K, k % 32 = 0 ∧ k + 32 ≤ K ∧ ((∃ r < 16, matScale o x (tilesA o) (16 * m + r) k = 255) ∨
    ∃ j < 16 * o.members.length, matScale o x (tilesB o) j k = 255)

/-- A finite rational value. -/
def ratFin (v : FV) : Prop := ∃ n q, v = .fin n (.rat q) ∧ 0 < q.d

/-- The values T of R52. -/
noncomputable def lnsConst (f : Nat) : ℝ :=
  match f with
  | 0 => 1
  | 1 => 9975793 / 2 ^ 23
  | 2 => 11863284 / 2 ^ 23
  | _ => 14107901 / 2 ^ 23

/-- R50, R52, R61, R242: products of elements are the products of the reals that they stand for, LNS6 by the constants T, which are
2^(f/4) rounded upward to 24 significant bits; the sum of an element is the real sum, rounded once; and a NaN among its products
makes the element the canonical NaN with the twin +∞. -/
def ExactMatrix : Prop :=
  (∀ (fa fb : Fmt) (a b sa sb : Nat) (x y : ℝ), fa ≠ .lns6 → fb ≠ .lns6 → sa < 255 → sb < 255 → fvReal (fa.decode a) = some x →
    fvReal (fb.decode b) = some y →
    let p := mxProd fa fb (a, sa) (b, sb)
    p.fl = 0 ∧ ratFin p.v ∧ fvReal p.v = some (x * (2 : ℝ) ^ ((sa : ℤ) - 127) * (y * (2 : ℝ) ^ ((sb : ℤ) - 127)))) ∧
  (∀ (a b sa sb : Nat), sa < 255 → sb < 255 → a % 32 ≠ 0 → b % 32 ≠ 0 →
    let p := mxProd .lns6 .lns6 (a, sa) (b, sb)
    let l := a % 32 + b % 32
    p.fl = 0 ∧ ratFin p.v ∧ fvReal p.v = some ((if a.testBit 5 != b.testBit 5 then -1 else 1) * lnsConst (l % 4) *
      (2 : ℝ) ^ ((l / 4 : ℕ) - 8 : ℤ) * (2 : ℝ) ^ ((sa : ℤ) - 127) * (2 : ℝ) ^ ((sb : ℤ) - 127))) ∧
  (∀ f : ℕ, f < 4 → (2 : ℝ) ^ ((f : ℝ) / 4) ≤ lnsConst f ∧ lnsConst f < (2 : ℝ) ^ ((f : ℝ) / 4) + (2 : ℝ) ^ (-23 : ℤ)) ∧
  (∀ (fa fb : Fmt) (a b sa sb : Nat), sa = 255 ∨ sb = 255 → (mxProd fa fb (a, sa) (b, sb)).v.isNan = true) ∧
  (∀ (f : Fmt) (c : FV) (ps : List FR) (tw : Word) (v : VV), (∀ u ∈ c :: ps.map (·.v), ratFin u) →
    Rounds f .rne false (((c :: ps.map (·.v)).map fun u => (fvReal u).getD 0).sum) (mxRound f c ps tw v).bits) ∧
  (∀ (c : FV) (ps : List FR) (tw : Word) (v : VV), (∃ p ∈ ps, p.v.isNan = true) →
    (mxRound .f32 c ps tw v).bits = 0x7FC00000 ∧ (mxRound .f32 c ps tw v).twin = 0x7F800000)

/-- The operation is in the queue, may be performed, and has read all its words; its member m is the group g. -/
structure OpPerforms (s : State) (o : CrewOp) (i : Instr) (c : Cx) (m : Nat) (g : Machine.Group) : Prop where
  queued : s.crewOps.find? (fun x => x.id == o.id) = some o
  instr : o.instr? = some i
  first : o.members.head?.bind s.cxMember = some c
  turn : s.crewTurn o = true
  unique : uniqueGroups s
  nodup : o.members.Nodup
  member : o.members[m]? = some g.ident.id
  group : s.group? g.ident.id = some g
  live : g.ended = false
  accs : g.accs.length = 8

/-- R242 to R246: what the arithmetic operations leave in the accumulators of a member, with no word met in error. -/
def ArithmeticEffects : Prop :=
  ∀ (s : State) (o : CrewOp) (i : Instr) (c : Cx) (m : Nat) (g : Machine.Group), OpPerforms s o i c m g → o.reads = [] → o.errs = [] →
    let N := 16 * o.members.length
    let r := exec (.crewOpExecute o.id) s
    let old (a r j : Nat) : Word := ((g.accs.getD a .blank).c.getD r []).getD j 0
    let tw (a r j : Nat) : Word := ((g.accs.getD a .blank).tw.getD r []).getD j 0
    let F (w : Word) : FV := Fmt.f32.decode w.toNat
    let w32 (y : MxOut) : Word := BitVec.ofNat 32 y.bits
    (∀ x, i = .mxMma x → mmaOk x = true →
      let (nb, K) := matShape x.fa.toNat
      let a := x.acc.toNat
      accAfter r g.ident.id g a (Accumulated N (fun r j => mxRound .f32 (F (old a r j))
        ((List.range K).map fun k => matProd o x nb nb (16 * m + r) j k 0 0) (tw a r j) .zero) w32 (·.twin) (scaleNanMet o x m K))) ∧
    (∀ x, i = .mxMmad x → mmadOk x = true →
      let (nb, K) := matShape x.fa.toNat
      let a := x.acc.toNat
      let d := o.vals.getD 2 0
      let neg (b : Nat) : Prop := b = 4 ∧ ∃ k < K, (∃ r < 16, (matA o x ((d.extractLsb' 0 32).zeroExtend 64) (16 * m + r) (6 * k) 6).testBit 5 = true) ∨
        ∃ j < N, (matB o.vregs j (6 * k) 6).testBit 5 = true
      let scale (b : Nat) : Prop := b = 8 ∧ (d.extractLsb' 32 8 = 0xFF#8 ∨ d.extractLsb' 40 8 = 0xFF#8)
      accAfter r g.ident.id g a (Accumulated N (fun r j => mxRound .f32 (F (old a r j))
        ((List.range K).map fun k => matProd o x nb nb (16 * m + r) j k 0 0) (tw a r j) (matVar o x nb K (16 * m + r) j)) w32 (·.twin)
        fun b => scaleNanMet o x m K b ∨ neg b ∨ scale b)) ∧
    (∀ x, i = .mxMmac x → mmacOk x = true →
      let (h, K) := if x.fa = 9 then (32, 4) else (16, 16)
      let a := x.acc.toNat
      let re (r j : Nat) : MxOut := mxRound .f32 (F (old a r j)) ((List.range K).flatMap fun k =>
        [matProd o x h (2 * h) (16 * m + r) j k 0 0, (matProd o x h (2 * h) (16 * m + r) j k h h).neg]) (tw a r j) .zero
      let im (r j : Nat) : MxOut := mxRound .f32 (F (old (a + 1) r j)) ((List.range K).flatMap fun k =>
        [matProd o x h (2 * h) (16 * m + r) j k 0 h, matProd o x h (2 * h) (16 * m + r) j k h 0]) (tw (a + 1) r j) .zero
      let flags (y : Nat → Nat → MxOut) (b : Nat) : Prop := ∃ r < 16, ∃ j < N, (y r j).fl.getLsbD b = true
      accAfter r g.ident.id g a (Accumulated N re w32 (·.twin) (flags im)) ∧
      accAfter r g.ident.id g (a + 1) (Accumulated N im w32 (·.twin) (flags re))) ∧
    (∀ x, i = .mxMma64 x → mma64Ok x = true →
      let a := x.acc.toNat
      let y (r j : Nat) : MxOut := mxRound .f64 (Fmt.f64.decode (old (a + 1) r j ++ old a r j).toNat)
        ((List.range 4).map fun k => matProd o x 64 64 (16 * m + r) j k 0 0) (tw a r j) .zero
      accAfter r g.ident.id g a (Accumulated N y w32 (·.twin) fun _ => False) ∧
      accAfter r g.ident.id g (a + 1) (Accumulated N y (fun y => BitVec.ofNat 32 (y.bits / 2 ^ 32)) (fun _ => 0) fun _ => False))

/-- R119, R120, R249: what the loads of R249 leave in a member, with no word met in error: a variance that is a NaN or negative is
stored as +∞ and sets INVALID in the status, and −0 is stored as +0. -/
def LoadEffects : Prop :=
  ∀ (s : State) (o : CrewOp) (i : Instr) (c : Cx) (m : Nat) (g : Machine.Group), OpPerforms s o i c m g → o.reads = [] → o.errs = [] →
    let n := o.members.length
    let r := exec (.crewOpExecute o.id) s
    let word (x : LdcForm) (r w : Nat) : Word := rowWord o (o.vals.getD 0 0) x.pitch.toNat x.swz.toNat (16 * m + r) w
    (∀ x, i = .mxLdcVar x → accAfter r g.ident.id g x.acc.toNat fun old new => new.c = old.c ∧ new.marks = old.marks ∧
      (∀ r < 16, r < old.tw.length → ∀ j < 16 * n, (new.tw.getD r []).getD j 0 =
        let w := word x r j
        if w = 0x80000000 then 0 else if w.toNat > 0x7F800000 then 0x7F800000 else w) ∧
      (∀ b < 32, new.status.getLsbD b = true ↔ old.status.getLsbD b = true ∨ b = 4 ∧ ∃ r < 16, ∃ j < 16 * n,
        nanWord (word x r j) ∨ (word x r j).getLsbD 31 = true ∧ word x r j ≠ 0x80000000)) ∧
    (∀ x, i = .mxLdcF64 x → accAfter r g.ident.id g x.acc.toNat (fun old new => new.status = 0 ∧ new.marks = 0 ∧
        ∀ r < 16, ∀ j < 16 * n, (r < old.c.length → (new.c.getD r []).getD j 0 = word x r (2 * j)) ∧
          (r < old.tw.length → (new.tw.getD r []).getD j 0 = 0)) ∧
      (x.acc.toNat % 2 = 0 → accAfter r g.ident.id g (x.acc.toNat + 1) fun old new => new.status = 0 ∧ new.marks = 0 ∧
        ∀ r < 16, ∀ j < 16 * n, (r < old.c.length → (new.c.getD r []).getD j 0 = word x r (2 * j + 1)) ∧
          (r < old.tw.length → (new.tw.getD r []).getD j 0 = 0))) ∧
    (∀ x, i = .mxLdcB x → groupAfter r g.ident.id fun _ g' => g'.accs = g.accs ∧
      (∀ k < 16, ∀ w < 2 * x.nreg.toNat, x.vb.toNat + w / 2 < 120 → x.vb.toNat + w / 2 < (g.lane (16 * (w % 2) + k)).v.length →
        (g'.lane (16 * (w % 2) + k)).vreg (x.vb.toNat + w / 2) = word x k w) ∧
      ∀ l n, (n < x.vb.toNat ∨ x.vb.toNat + x.nreg.toNat ≤ n) → (g'.lane l).vreg n = (g.lane l).vreg n)

/-- R238, R250, R251: a `mx.stc` converts every element of its members' rows once, the draws of R251 serving SR, and makes of the
codes of a row its words; it writes them, one at a time, with FULL, and last the status word with DONE, as it raises the flags of
the conversion in FLAGS of its members. -/
def StoreEffects : Prop :=
  ∀ (s : State) (o : CrewOp) (x : StcForm) (c : Cx) (m : Nat) (g : Machine.Group), OpPerforms s o (.mxStc x) c m g →
    (∀ k ∈ o.members, (s.group? k).isSome = true) → stcOk x = true →
    let n := o.members.length
    let base := o.vals.getD 0 0
    let status := base + BitVec.ofNat 64 (16 * n * 16 * x.pitch.toNat)
    (o.started = none → ∃ t o', exec (.crewOpExecute o.id) s = .next t ∧ o' ∈ t.crewOps ∧ o'.id = o.id ∧ t.groups = s.groups ∧
      ∀ r < 16, (∀ k ∈ mxNames (.mxStc x), (g.accs.getD k .blank).marks.getLsbD r = false) →
        let a := g.accs.getD x.acc.toNat .blank
        let b := g.accs.getD (x.acc.toNat + 1) .blank
        let at_ (xs : List (List Word)) (j : Nat) : Word := (xs.getD r []).getD j 0
        let value (j : Nat) : FV := if x.var = 1 then Fmt.f32.decode (at_ a.tw j).toNat
          else if x.outf = 10 then Fmt.f64.decode (at_ b.c j ++ at_ a.c j).toNat else Fmt.f32.decode (at_ a.c j).toNat
        let draw (j : Nat) : Nat := ((((o.bregs.getD m []).getD (16 * (j / 32) + r) []).getD (j % 32) 0).extractLsb' 8 24).toNat
        let fm := Fmt.ofMx x.outf.toNat
        let code (j : Nat) : Rnd := fm.roundTo (Rm.ofCode o.rm) o.sat (draw j) (value j)
        (∀ j < 16 * n, ∀ b < 32, (code j).flags.getLsbD b = true → o'.flags.getLsbD b = true) ∧
        ∀ w < n * fm.width / 2, ∃ e ∈ o'.writes, e.row = 16 * m + r ∧ e.bad = false ∧
          e.addr = swizzle (base + BitVec.ofNat 64 ((16 * m + r) * 16 * x.pitch.toNat + 4 * w)) x.swz.toNat ∧
          ∀ b < 32, e.word.getLsbD b = (code ((32 * w + b) / fm.width)).bits.testBit ((32 * w + b) % fm.width)) ∧
    (∀ t0 w p, o.started = some t0 → o.writes.find? (fun w => c.writeReady x t0 w.addr) = some w → c.place w.addr 4 = some p →
      ¬ (x.tm = 1 ∧ s.tagTest p 4 tagEmpty = .fault) → SpadsCanonical s → w.addr.toNat % 4 = 0 →
      ∃ t, exec (.crewOpExecute o.id) s = .next t ∧ (∀ i < 4, spadByte t (placePlus p i) = w.word.extractLsb' (8 * i) 8) ∧
        spadTag t p = (if w.bad then 2 else 1) ∧ (∀ q, (∀ i < 4, placePlus p i ≠ q) → spadByte t q = spadByte s q) ∧
        ∃ o' ∈ t.crewOps, o'.id = o.id ∧ o'.writes = o.writes.erase w) ∧
    (∀ t0 p, o.started = some t0 → o.writes = [] → c.place (status + 4) 4 = some (placePlus p 4) →
      c.place status 4 = some p → c.writeReady x t0 status = true → c.writeReady x t0 (status + 4) = true → SpadsCanonical s →
      status.toNat % 8 = 0 → x.tm = 0 →
      groupAfter (exec (.crewOpExecute o.id) s) g.ident.id fun t g' => g'.flags = g.flags ||| o.flags ∧
        spadTag t p = 1 ∧ spadTag t (placePlus p 4) = 1 ∧ ∃ v : DWord,
          (∀ i < 8, spadByte t (placePlus p i) = v.extractLsb' (8 * i) 8) ∧ v.getLsbD 0 = true ∧
          (v.getLsbD 1 = true ↔ o.errs ≠ []) ∧ v.extractLsb' 8 8 = o.flags.extractLsb' 0 8 ∧
          v.extractLsb' 32 16 = BitVec.ofNat 16 o.satCount ∧ v.extractLsb' 48 16 = 0#16)

end Sys2Proof.Claims

/-- R52, R238, R242 to R246, R248 to R252: for a member that has not ended (else its team may end with the operation), a `mx.zero`
performed leaves every accumulator that it names at +0.0 with its status, marks and OPS clear and the others as they were; a
`mx.ldc` performed leaves the words read in the means of its accumulator, with status and marks clear; the other loads leave theirs
in the twins, the pair or the registers; an arithmetic operation adds the exact products of its rows and columns to each element
with one rounding, charges the rounding to the twin and gathers the flags in the status; a `mx.stc` writes the converted rows and
then its status word; `mx.stat` with no operation outstanding reports OPS, ERR and the flags. These points are the model's own
choices, on which the spec is silent: status is kept for each member (log 42); the status and the OPS of both tiles of a pair gather the
flags and the operation of both parts (log 42); a `mx.ldc.f64` clears the status of its tiles (log 42; R249 says so of `mx.ldc` alone); the
variance sum v of R245 is rounded toward +∞ to binary32 once, as its terms' exact sum through the constants T, before it is added to
the twin, and the RoundVar that is added is the delivered one (log 21). -/
def Obligations.CrewOperationEffects : Prop :=
  ExactMatrix ∧ ArithmeticEffects ∧ LoadEffects ∧ StoreEffects ∧
  (∀ (s : State) (op : Nat) (o : CrewOp) (i : Instr) (c : Cx), s.crewOps.find? (fun o => o.id == op) = some o →
    o.instr? = some i → o.members.head?.bind s.cxMember = some c → s.crewTurn o = true → o.reads = [] → uniqueGroups s →
    o.members.Nodup → ∀ (m gid : Nat) (g : Machine.Group), o.members[m]? = some gid → s.group? gid = some g → g.accs.length = 8 → g.ended = false →
    (∀ x, i = .mxZero x → groupAfter (exec (.crewOpExecute op) s) gid fun _ g' => ∀ a : Fin 8, ∀ acc, g'.accs[a.val]? = some acc →
      if x.mask.getLsbD a.val then (∀ row ∈ acc.c ++ acc.tw, ∀ w ∈ row, w = 0) ∧ acc.status = 0 ∧ acc.marks = 0 ∧ acc.ops = 0
      else g.accs[a.val]? = some acc) ∧
    (∀ x, i = .mxLdc x → o.errs = [] → groupAfter (exec (.crewOpExecute op) s) gid fun _ g' =>
      ∀ acc old, g.accs[x.acc.toNat]? = some old → g'.accs[x.acc.toNat]? = some acc →
        acc.status = 0 ∧ acc.marks = 0 ∧ acc.ops = 0 ∧ acc.tw = old.tw ∧
        ∀ r < 16, r < old.c.length → ∀ w < 16 * o.members.length,
          (acc.c.getD r []).getD w 0 = o.word (swizzle (o.vals.getD 0 0 +
            BitVec.ofNat 64 ((16 * m + r) * 16 * x.pitch.toNat + 4 * w)) x.swz.toNat))) ∧
  (∀ (s : State) (c : Cx) (x : StatForm), s.cx? = some c → c.mxCheck (noPfx (statOk x) c) [x.sd.toNat] [] = .ok () →
    c.gg.op = none → (∀ o ∈ s.crewOps, c.g.ident.id ∉ o.members) →
    let a := c.g.accs.getD x.acc.toNat .blank
    groupAfter (exec (.mxStat x) s) c.g.ident.id fun t g' => Advanced t c 2 ∧ Returns g' fun ws => ∃ v : DWord,
      ws = [(c.gg.sTgt x.sd.toNat, v)] ∧ v.extractLsb' 32 32 = a.ops ∧ (v.getLsbD 9 = true ↔ a.marks ≠ 0) ∧
      v.getLsbD 8 = a.status.getLsbD 8 ∧ v.getLsbD 4 = a.status.getLsbD 4 ∧ v.extractLsb' 0 3 = a.status.extractLsb' 0 3 ∧
      v.extractLsb' 10 22 = 0#22 ∧ v.extractLsb' 5 3 = 0#3 ∧ v.getLsbD 3 = false)

namespace Sys2Proof.Claims

/-! ## Copies, collectives and launches -/

/-- The copy commands. -/
def copyTable : List ((CpForm → Instr) × CopyKind × (CpForm → Bool)) :=
  [(.cpLoad, .load, cpLoadOk), (.cpStore, .store, cpStoreOk), (.cpGather, .gather, cpGatherOk), (.cpXfer, .xfer, cpXferOk),
   (.cpFill, .fill, cpFillOk)]

/-- The pages of a command's global destination. -/
def destPages (k : CopyCmd) : List DWord :=
  if k.dspad || k.todo.isEmpty then [] else sidePages k.dst k.dpitch k.rows k.rowBytes

/-- A queued command: it counts in the open batch, with an implicit close of a full one. -/
def Queued (c : Cx) (kind : CopyKind) (r : Host.Outcome State Fault Refusal) (P : CopyCmd → Prop) : Prop :=
  groupAfter r c.g.ident.id fun t g' => Advanced t c 3 ∧
    g'.copyCount = (if 255 ≤ c.g.copyCount then 1 else c.g.copyCount + 1) ∧
    g'.lastBatch = (if 255 ≤ c.g.copyCount then nextBatch c.g.lastBatch else c.g.lastBatch) ∧
    ∃ k ∈ g'.cmds, k.kind = kind ∧ k.batch = nextBatch g'.lastBatch ∧ k.round = c.g.round ∧ k.priv = c.priv ∧ P k

/-- `cp.close`, `cp.wait` and `evt.add` may issue. -/
def evtReady (c : Cx) (ok : Bool) (regs : List (BitVec 6)) : Prop :=
  ok = true ∧ c.gg.pfx = [] ∧ ∀ r ∈ regs, c.sregOk r.toNat = true
/-- An event word's address that passes the checks at issue (R396). -/
def eventWord (a : DWord) : Prop := a.toNat % 8 = 0 ∧ canonical a = true

end Sys2Proof.Claims

/-- R255 to R258, R264, R266: a copy command with words to move, a collective and a launch are queued in the open batch, and their
gang goes on. -/
def Obligations.CopyCommandsQueued : Prop :=
  ∀ (s : State) (c : Cx) (f : CpForm), s.cx? = some c → c.g.batchesFull = false →
    (∀ e ∈ copyTable, c.cpCheck e.2.1 (e.2.2 f) f = .ok () → ∀ ts u, (c.command e.2.1 f []).todo ≠ [] →
      c.trAll (destPages (c.command e.2.1 f [])) s = (ts, u) → (∀ x ∈ ts, ∃ pa leaf, x.2 = .ok pa leaf) →
      Queued c e.2.1 (exec (e.1 f) s) fun k => k.dst = c.g.readS f.sd.toNat ∧ k.src = c.g.readS f.ss.toNat ∧
        k.rowBytes = (c.g.readS f.sl.toNat).toNat % 2 ^ 32 ∧ k.rows = (c.g.readS f.sl.toNat).toNat / 2 ^ 32 ∧
        k.todo = List.range (k.rowBytes / 4 * k.rows)) ∧
    (c.gg.pfx = [] → c.sregOk f.ss.toNat = true → c.active = c.gg.mask → c.g.live = maskW c.g.ident.width →
      canonical (c.g.readS f.ss.toNat) = true →
      (collOk f = true → (c.g.readS f.ss.toNat).toNat % 64 = 0 →
        Queued c .coll (exec (.collStart f) s) fun k => k.src = c.g.readS f.ss.toNat ∧ k.todo = [0]) ∧
      (launchOk f = true → (c.g.readS f.ss.toNat).toNat % 128 = 0 →
        Queued c .launch (exec (.launch f) s) fun k => k.src = c.g.readS f.ss.toNat ∧ k.todo = [0]))

/-- R260 to R262, R267: `cp.close` closes the open batch, resets the counter and writes the batch's number; `cp.wait` continues for
0 and where every batch up to its number has completed without a failure to report, parks while one has not, and otherwise reports the
failure of the oldest such batch, once, and traps with its code and the batch's number; `evt.add` without AFTER adds to its event word
at once (an addition that the host or another package observes, or on an SC page, after the group's copies: R282, R283, R286), and
with AFTER behind a closed batch leaves the addition for later. -/
def Obligations.BatchesAndEvents : Prop :=
  ∀ (s : State) (c : Cx) (v : EvForm), s.cx? = some c →
    let a := c.g.readS v.r2.toNat
    let n := (c.g.readS v.r1.toNat).toNat
    (evtReady c (closeOk v) (v.r1 :: if v.bit = 1 then [v.r2] else []) → c.g.batchesFull = false →
      (v.bit = 1 → eventWord a ∧ ∃ pa leaf u, c.trAll [a] s = ([(a, .ok pa leaf)], u)) → v.r1.toNat ≠ 63 →
      v.r1.toNat < c.g.s.length →
      groupAfter (exec (.cpClose v) s) c.g.ident.id fun t g' => Advanced t c 2 ∧ g'.copyCount = 0 ∧
        g'.lastBatch = nextBatch c.g.lastBatch ∧ g'.s.getD v.r1.toNat 0 = BitVec.ofNat 64 (nextBatch c.g.lastBatch) ∧
        (∀ r, r ≠ v.r1.toNat → g'.s.getD r 0 = c.g.s.getD r 0) ∧
        ∃ b ∈ g'.batches, b.num = nextBatch c.g.lastBatch ∧ b.complete = false ∧ b.evt = if v.bit = 1 then some a else none) ∧
    (evtReady c (waitOk v) [v.r1] → n < 2 ^ 32 →
      let named : Prop := ¬ (1 ≤ batchDist c.g.lastBatch n ∧ batchDist c.g.lastBatch n < 2 ^ 31)
      let upTo (b : Batch) : Prop := batchDist b.num n < 2 ^ 31
      (n = 0 → Passed s c 2 (exec (.cpWait v) s)) ∧
      (n ≠ 0 → ¬ named → exec (.cpWait v) s = c.trap { code := .illegalOperand }) ∧
      (n ≠ 0 → named → (∃ b ∈ c.g.batches, b.complete = false ∧ upTo b) → exec (.cpWait v) s = c.park (.wait .cpWait)) ∧
      (n ≠ 0 → named → (∀ b ∈ c.g.batches, upTo b → b.complete = true ∧ (b.failed = none ∨ b.reported = true)) →
        Passed s c 2 (exec (.cpWait v) s)) ∧
      (n ≠ 0 → named → (∀ b ∈ c.g.batches, upTo b → b.complete = true) → ∀ old b rest code, c.g.batches = old ++ b :: rest →
        (∀ x ∈ old, upTo x → x.failed = none ∨ x.reported = true) → upTo b → b.failed = some code → b.reported = false →
        exec (.cpWait v) s = Cx.trap { c with s := s.modGroup c.g.ident.id fun g => g.reportBatch b.num }
          { code := code, addr := BitVec.ofNat 64 b.num } ∧
        ∀ x ∈ (c.g.reportBatch b.num).batches, x.num = b.num → x.reported = true)) ∧
    (∀ pa leaf u, evtReady c (evtAddOk v) [v.r1, v.r2] → c.active = c.gg.mask → c.g.live = maskW c.g.ident.width →
      c.g.tx.close = none → (4 ≤ v.scope.toNat → LinkId.cdCd ∉ s.linksDown) → eventWord (c.g.readS v.r1.toNat) →
      c.trAll [c.g.readS v.r1.toNat] s = ([(c.g.readS v.r1.toNat, .ok pa leaf)], u) →
      (v.bit = 0 ∨ c.g.lastBatch = 0 → c.g.keyq = [] → c.releaseHeld = false → MemCanonical u → u.poison = [] →
        pa / 128 ∉ u.engineLines →
        (5 ≤ v.scope.toNat ∨ ownerOf pa = .remote ∨ ownerOf pa = .host ∨ pteSc leaf = true → c.g.cmds = []) →
        (pteSc leaf = true → c.g.adds = [] ∧ ∀ b ∈ c.g.batches, b.complete = true ∨ b.evt = none) →
        ∃ t, exec (.evtAdd v) s = .next t ∧ Advanced t c 2 ∧ Mem.dword t.mem pa = Mem.dword u.mem pa + a ∧
          ∀ x, ¬ (pa ≤ x ∧ x < pa + 8) → Mem.read t.mem x = Mem.read u.mem x) ∧
      (v.bit = 1 → c.g.lastBatch ≠ 0 → groupAfter (exec (.evtAdd v) s) c.g.ident.id fun t g' => Advanced t c 2 ∧
        t.mem = u.mem ∧ ∃ k, g'.adds = c.g.adds ++ [⟨c.g.readS v.r1.toNat, a, c.g.lastBatch, k, .none⟩]))

namespace Sys2Proof.Claims

/-- R90, R255, R256, R259, R260: a step of a copy command some word of which can move moves one such word: to its scratchpad place,
with FULL where the command tags its words, or to the physical address of its page, what its source holds: the pattern, the
scratchpad word, the word at the translated address of its row, or for a gather of the table row that its index names, zero for an
index of 2^31 or more; a gather first reads the index of the row. -/
def MovesWords : Prop :=
  ∀ (s : State) (gid : Nat) (c : Cx) (k : CopyCmd), s.cxMember gid = some c → c.g.cmds.find? (fun x => x.id == k.id) = some k →
    k.wait ≠ .waits → k.kind ∈ [.load, .store, .gather, .xfer, .fill] → (∀ d pa, s.reachable d pa = true) → s.linksDown = [] →
    c.g.ended = false → MemCanonical s → SpadsCanonical s →
    let k' := { k with started := some (k.started.getD s.tick) }
    let n := k.rowBytes / 4
    let addr (base : DWord) (pitch row w : Nat) : DWord := base + BitVec.ofNat 64 (row * 16 * pitch + w % n * 4)
    let row (w : Nat) : Nat := w / n
    (∃ w ∈ k.todo, c.wordReady k' w = true) →
    ∃ t w, exec (.copyCommandExecute gid k.id) s = .next t ∧ w ∈ k.todo ∧ c.wordReady k' w = true ∧
      let put (m : Mem) (v : Word) : Prop :=
        (k.dspad = true → ∀ q, c.place (swizzle (addr k.dst k.dpitch (row w) w) k.dswz) 4 = some q →
          ¬ (k.dtm = 1 ∧ s.tagTest q 4 tagEmpty = .fault) →
          (∀ i < 4, spadByte t (placePlus q i) = v.extractLsb' (8 * i) 8) ∧ (k.dtm ≠ 0 → spadTag t q = 1)) ∧
        (k.dspad = false → ∀ pa, k.dstPa w = some pa → Mem.word t.mem pa = v ∧
          ∀ x, ¬ (pa ≤ x ∧ x < pa + 4) → Mem.read t.mem x = Mem.read m x)
      let heedsNot (p : Place) : Prop := s.spadPoison p 4 = false ∧ (k.stm = 0 ∨ s.tagTest p 4 tagFull ≠ .fault)
      let fromGlobal (a : DWord) : Prop := ∀ pa leaf u, s.engTr (c.copyAsker k.priv k.wait) a false = (.ok pa leaf, u) → u.poison = [] →
        put u.mem (Mem.word u.mem pa)
      (c.overlapped k w = false →
        (k.kind = .fill → put s.mem (lo32 k.src)) ∧
        (k.kind ∉ [.fill, .gather] → k.sspad = true → ∀ p, c.place (swizzle (addr k.src k.spitch (row w) w) k.sswz) 4 = some p →
          heedsNot p → put s.mem (BitVec.ofNat 32 (placeNat s p 4))) ∧
        (k.kind ∉ [.fill, .gather] → k.sspad = false → fromGlobal (addr k.src k.spitch (row w) w)) ∧
        (k.kind = .gather → ∀ i, k.gidx.find? (fun e => e.1 == row w) = some (row w, .inl i) →
          (2 ^ 31 ≤ i → put s.mem 0) ∧ (i < 2 ^ 31 → fromGlobal (addr k.src k.spitch i w)))) ∧
      (k.kind = .gather → k.gidx.find? (fun e => e.1 == row w) = none → ∀ p, c.place (k.idx + BitVec.ofNat 64 (4 * row w)) 4 = some p →
        heedsNot p → ∃ g' k2, t.group? gid = some g' ∧ k2 ∈ g'.cmds ∧ k2.id = k.id ∧ (row w, .inl (placeNat s p 4)) ∈ k2.gidx)

end Sys2Proof.Claims

namespace Sys2Proof.Claims

/-- The height of rank r's node in the tree of p ranks: rank 0 has the root. -/
def nodeHeight (p r : Nat) : Nat := ((List.range (treeDepth p)).find? fun i => r % 2 ^ (i + 1) ≠ 0).getD (treeDepth p)

/-- The ranks from which rank r takes nodes in, lowest first, and the rank that takes its node in (R357). -/
def takesFrom (p r : Nat) : List Nat := ((List.range (nodeHeight p r)).map fun i => r + 2 ^ i).filter (· < p)
def givesTo (p r : Nat) : Option Nat := if r = 0 then none else some (r - 2 ^ nodeHeight p r)

/-- Stage 1 of a collective whose rank has all that it waits for. -/
structure CollReady (s : State) (k : Coll) (c : Cx) : Prop where
  found : s.colls.find? (fun x => x.id == k.id) = some k
  member : s.cxMember k.group = some c
  runs : k.wait ≠ .waits
  held : c.collHeld k = false
  stage : k.stage = 1
  good : k.failed = none
  rank : k.myRank < k.ranks
  link : LinkId.cdCd ∉ s.linksDown
  come : ∀ r ∈ k.awaits, ∃ m, s.collFrom k r = some m ∧ m.failed = none ∧ m.shape = (k.op, k.type, k.count)

/-- The message with the elements `xs` goes from the rank of the collective to rank r: to the other die, or out of the package. -/
def SentTo (s t : State) (k : Coll) (r : Nat) (xs : List DWord) : Prop :=
  let kind := (k.routes.getD r 0).toNat / 2 ^ 60
  (kind = 1 → s.collOver (otherDie k.die) k.comm k.seq = false → ∃ m ∈ t.collMsgs, m.die = otherDie k.die ∧ m.comm = k.comm ∧
    m.seq = k.seq ∧ m.rank = k.myRank ∧ m.failed = none ∧ m.shape = (k.op, k.type, k.count) ∧ m.data = xs) ∧
  (2 ≤ kind → ∃ bs, Out.contribution k.die (k.routes.getD r 0) bs ∈ t.outs ∧
    bs.drop 26 = xs.flatMap fun e => leBytes (collBytes k.type) e.toNat)

/-- The tree of a collective (R189, R264, R357): the node of every rank of p is its contribution combined with the nodes of the ranks
that it takes in, lowest first, that of rank 0 is the whole tree, and each step of a rank at stage 1 is one of these combinations, a
sending of its node or of the result, or the writing of DST. -/
def CollectiveTree : Prop :=
  (∀ (p r : Nat) (leaf : Nat → Nat) (comb : Nat → Nat → Nat), r < p →
    let node (q : Nat) : Option Nat := treeOf (fun x => decide (x < p)) leaf comb (nodeHeight p q) q
    node r = some ((takesFrom p r).foldl (fun x q => comb x ((node q).getD 0)) (leaf r)) ∧ nodeHeight p 0 = treeDepth p ∧
      ∀ q < p, q ∈ takesFrom p r ↔ givesTo p q = some r) ∧
  ∀ (s : State) (k : Coll) (c : Cx), CollReady s k c →
    let data (r : Nat) : List DWord := ((s.collFrom k r).map (·.data)).getD []
    let node : List DWord := (List.range k.count).map fun e => BitVec.ofNat 64
      ((takesFrom k.ranks k.myRank).foldl (fun x q => collCombine k.op k.type x ((data q).getD e 0).toNat) ((data k.myRank).getD e 0).toNat)
    let result : List DWord := match givesTo k.ranks k.myRank with | none => node | some r => data r
    let goesOn (n : Nat) (t : State) : Prop := exec (.collectiveExecute k.id) s = .next t ∧ t.mem = s.mem ∧
      ∃ y ∈ t.colls, y.id = k.id ∧ y.stage = 1 ∧ y.sent = n
    (k.sent = 0 → ∀ r, givesTo k.ranks k.myRank = some r → ∃ t, goesOn 1 t ∧ SentTo s t k r node) ∧
    (k.sent = 0 ∧ k.myRank = 0 ∨ k.sent = 1 ∧ k.myRank ≠ 0 →
      ∃ t, goesOn 2 t ∧ ∀ q ∈ takesFrom k.ranks k.myRank, SentTo s t k q result) ∧
    (k.sent = 2 → ∀ m u, s.engSpan (c.collAsker (((c.g.cmds.find? fun x => x.id == k.cmd).map (·.priv)).getD c.l.priv) k.wait) k.dst true
        (k.count * collBytes k.type) = (.inr m, u) → u.routesChanged k = false → u.linesBefore k.cmd (u.matchCmds k) = [] →
      ∃ t, exec (.collectiveExecute k.id) s = .next t ∧
        t.mem = (u.writeSpan m (k.dst.extractLsb' 0 57).toNat ((List.range k.count).flatMap fun e =>
          leBytes (collBytes k.type) (collResult k.op (result.getD e 0).toNat))).mem ∧ ∃ y ∈ t.colls, y.id = k.id ∧ y.stage = 2)

end Sys2Proof.Claims

/-- R90, R255, R256, R259, R261, R264, R265, R356, R357, R359: each copy command moves one of its words at a time from its source to
its destination, and a `cp.fill` to memory changes no other byte; a batch none of whose commands is left completes; a rank reads its
contribution, combines with it the nodes of the tree that it receives, sends its node to its parent, and the result that comes back to
its children (the messages: log 43), writes the result to DST, keeps what it receives, and fails when a rank does not answer; and an append passed to the other die's front-end
is performed there. Which of the words that can move moves first is free (R259). -/
def Obligations.CopyAndCollectiveEvents : Prop :=
  MovesWords ∧
  (∀ (s : State) (gid : Nat) (c : Cx) (k : CopyCmd), s.cxMember gid = some c →
    c.g.cmds.find? (fun x => x.id == k.id) = some k → k.wait ≠ .waits → k.kind = .fill → k.dspad = false → k.sspad = false →
    k.todo ≠ [] → (∀ e ∈ k.dmap, e.keyed = false ∧ e.sc = false) → c.g.keyq = [] → c.g.tx.close = none → (∀ g ∈ s.groups, ∀ x ∈ g.cmds, k.id ≤ x.id) →
    MemCanonical s →
    (∀ w pa, k.dstPa w = some pa → s.reachable c.die pa = true) →
    ∃ t, exec (.copyCommandExecute gid k.id) s = .next t ∧ ∃ w ∈ k.todo,
      (∀ pa, k.dstPa w = some pa → Mem.word t.mem pa = lo32 k.src ∧
        ∀ x, ¬ (pa ≤ x ∧ x < pa + 4) → Mem.read t.mem x = Mem.read s.mem x) ∧ (k.dstPa w = none → t.mem = s.mem)) ∧
  (∀ (s : State) (gid : Nat) (c : Cx) (b : Batch), s.cxMember gid = some c → uniqueGroups s → gid = c.g.ident.id →
    c.dueAdd = none → c.dueBatch = some b → b.evt = none →
    ∃ t, exec (.batchComplete gid) s = .next t ∧ t.mem = s.mem ∧
      ∀ g', t.group? gid = some g' → ∀ x ∈ g'.batches, x.num = b.num → x.complete = true ∧ x.failed ≠ none) ∧
  (∀ (s u : State) (k : Coll) (c : Cx) (m : List (Nat × Nat)), s.colls.find? (fun x => x.id == k.id) = some k →
    s.cxMember k.group = some c → k.wait ≠ .waits → c.collHeld k = false → k.stage = 0 → k.failed = none →
    k.scalesOut = false →
    s.engSpan (c.collAsker (((c.g.cmds.find? fun x => x.id == k.cmd).map (·.priv)).getD c.l.priv) k.wait) k.src false
      (k.count * collBytes k.type) = (.inr m, u) → u.linesBefore k.cmd = [] → u.poison = [] → s.poison = [] →
    ∃ t, exec (.collectiveExecute k.id) s = .next t ∧ ∃ x ∈ t.collMsgs, x.die = k.die ∧ x.comm = k.comm ∧ x.seq = k.seq ∧
      x.rank = k.myRank ∧ x.failed = none ∧ x.shape = (k.op, k.type, k.count) ∧ x.data = splitElems (collBytes k.type) k.count
        (u.readSpan m (k.src.extractLsb' 0 57).toNat (k.count * collBytes k.type)) ∧
      ∃ y ∈ t.colls, y.id = k.id ∧ y.stage = 1 ∧ y.failed = none ∧ y.wait = .none) ∧
  CollectiveTree ∧
  (∀ (s : State) (d : DieId) (comm seq rank : Nat) (op type count : DWord) (data : List DWord),
    (∀ x ∈ s.collMsgs, ¬ (x.die = d ∧ x.comm = comm ∧ x.seq = seq ∧ x.rank = rank)) →
    exec (.collectiveMessageReceive d comm seq rank (op :: type :: count :: data)) s =
      .next { s with collMsgs := s.collMsgs ++ [⟨d, comm, seq, rank, (op.toNat, type.toNat, count.toNat), none, data⟩] }) ∧
  (∀ (s : State) (k : Coll) (r : Nat), s.colls.find? (fun x => x.id == k.id) = some k → k.stage = 1 → k.failed = none →
    r ∈ k.awaits → (∀ m ∈ s.collMsgs, ¬ (m.die = k.die ∧ m.comm = k.comm ∧ m.seq = k.seq ∧ m.rank = r)) →
    exec (.collectiveRankTimeout k.id) s = .next { s with
      colls := s.colls.map fun (x : Coll) => if x.id = k.id then { x with failed := some .peerUnavailable } else x }) ∧
  (∀ (s u : State) (d : DieId) (gid cmd pri : Nat) (rec : DWord) (rest : List (Nat × Nat × DWord × Nat)) (c : Cx) (k : CopyCmd),
    (s.die d).peerAppends = (gid, cmd, rec, pri) :: rest → s.cxMember gid = some c → gid = c.g.ident.id →
    c.g.cmds.find? (fun x => x.id == cmd) = some k → k.wait ≠ .waits →
    s.append d pri rec (c.l.launchId.zeroExtend 64) k.priv k.id k.wait = (.linked, u) →
    ∃ t, exec (.peerLaunchAppend d) s = .next t ∧ t.mem = u.mem ∧ (t.die d).peerAppends = rest)

/-! ## Issue, completion and walks -/

namespace Sys2Proof.Claims

/-- The classes that a role may issue (R72); SYS needs a privileged context besides. -/
def roleClasses : Role → List Nat
  | .vector => [0, 1, 4, 5]
  | .copy => [0, 3, 4]
  | .matrix => [0, 2, 4]

/-- A clause with header h and words ws that fails a check of R75 up to the class of its first instruction, and the trap: its code
and TRAP_ADDR for a clause at `a` (log 20). -/
def clauseFault (role : Role) (priv : Bool) (a : DWord) (h : Word) (ws : List Word) (code : Nat) (addr : DWord) : Prop :=
  let cls := (h.extractLsb' 21 3).toNat
  let badHeader : Prop := (h.extractLsb' 24 4).toNat = 0 ∨ 6 ≤ cls ∨ (h.extractLsb' 12 3).toNat = 6 ∨ h.extractLsb' 0 11 ≠ 0
  let first : Word := ws.headD 0
  let op := (first.extractLsb' 24 8).toNat
  (badHeader ∧ code = 0x04 ∧ addr = a) ∨
  (¬ badHeader ∧ cls = 5 ∧ priv = false ∧ code = 0x0F ∧ addr = 0) ∨
  (¬ badHeader ∧ (cls = 5 → priv = true) ∧ cls ∉ roleClasses role ∧ code = 0x03 ∧ addr = 0) ∨
  (¬ badHeader ∧ (cls = 5 → priv = true) ∧ cls ∈ roleClasses role ∧ ws ≠ [] ∧
    ((op = 0 ∨ op = 0xFF ∨ 0xE0 ≤ op ∧ op < 0xF0) ∧ code = 0x01 ∧ addr = 0 ∨
      (∃ k, opClass op = some k ∧ k < 6 ∧ k ≠ cls) ∧ code = 0x03 ∧ addr = 0))

end Sys2Proof.Claims

/-- R72, R74, R75, R309: CLAUSE_ISSUE_SELECT leaves the slot of a quadrant to a gang inside its clause; a free slot it gives to a gang
that is ready to begin or to go on with a clause: of those that 64 clauses have passed the one that most have, else one of the highest
priority and of these the longest ready (which of gangs ready since the same clause is free, log 4); and it counts the clause against
every other ready group. CLAUSE_FETCH puts a legal clause into its gang, which then stands after the header; a clause that fails a
check of R75 traps at its header, with CLAUSE_FORMAT, PRIVILEGE, CLASS_MISMATCH or ILLEGAL_OPCODE (TRAP_ADDR: log 20). -/
def Obligations.ClauseEvents : Prop :=
  (∀ (s : State) (d : DieId) (core quad : Nat) (c : Cx), pickOn (s.quadGangs d core quad) = none →
    pickNew s.tick (s.quadGangs d core quad) = some c → c.ready = true ∧
    (let ready (x : Cx) : Prop := x ∈ s.quadGangs d core quad ∧ x.ready = true
     ((∀ x, ready x → x.gg.bypassed < 64) →
        ∀ x, ready x → x.l.list ≤ c.l.list ∧ (x.l.list = c.l.list → x.gg.age ≤ c.gg.age)) ∧
      ((∃ x, ready x ∧ 64 ≤ x.gg.bypassed) → 64 ≤ c.gg.bypassed ∧ ∀ x, ready x → x.gg.bypassed ≤ c.gg.bypassed) ∧
      (uniqueGroups s → ∀ x, ready x → x.g.ident.id ≠ c.g.ident.id →
        groupAfter (exec (.clauseIssueSelect d core quad) s) x.g.ident.id fun _ g' =>
          ∃ y, g'.gang? x.gg.id = some y ∧ y.bypassed = x.gg.bypassed + 1)) ∧
    groupAfter (exec (.clauseIssueSelect d core quad) s) c.g.ident.id fun t g' =>
      t.focus = some (c.g.ident.id, c.gg.id) ∧ ∃ x, g'.gang? c.gg.id = some x ∧ x.begun = true ∧ x.park = none ∧ x.pc = c.gg.pc) ∧
  (∀ (s : State) (d : DieId) (core quad : Nat) (c : Cx), pickOn (s.quadGangs d core quad) = some c →
    groupAfter (exec (.clauseIssueSelect d core quad) s) c.g.ident.id fun t g' =>
      t.focus = some (c.g.ident.id, c.gg.id) ∧ ∃ x, g'.gang? c.gg.id = some x ∧ x.begun = true ∧ x.park = none ∧ x.pc = c.gg.pc) ∧
  (∀ (s u v : State) (gid k : Nat) (c : Cx) (h : Word) (pa : Nat) (ws : List (Word × Nat)), s.cxOf gid k = some c →
    c.gg.clause = none → c.groupMay = true → c.gg.park = none → c.fetchAt c.gg.pc s = (.word h pa, u) →
    h.extractLsb' 28 4 = 0xE#4 → c.fetchWords (h.extractLsb' 24 4).toNat (c.gg.pc + 4) u = (.inr ws, v) →
    Cx.clauseBad { c with s := u } h (ws.map (·.1)) = none →
    groupAfter (exec (.clauseFetch gid k) s) gid fun t g' => t.mem = v.mem ∧ ∃ x, g'.gang? k = some x ∧
      x.clause = some ⟨c.gg.pc, h, ws.map (·.1)⟩ ∧ x.pc = c.gg.pc + 4 ∧ x.park = none) ∧
  (∀ (s u v : State) (gid k : Nat) (c : Cx) (h : Word) (pa : Nat) (ws : List (Word × Nat)) (code : Nat) (addr : DWord),
    s.cxOf gid k = some c → gid = c.g.ident.id → c.gg.clause = none → c.groupMay = true → c.gg.park = none →
    c.fetchAt c.gg.pc s = (.word h pa, u) → h.extractLsb' 28 4 = 0xE#4 →
    c.fetchWords (h.extractLsb' 24 4).toNat (c.gg.pc + 4) u = (.inr ws, v) → mayEnter v c → (∀ j ∈ c.gg.slices, j < 8) →
    clauseFault c.g.ident.role c.priv c.gg.pc h (ws.map (·.1)) code addr →
    groupAfter (exec (.clauseFetch gid k) s) gid (Entered { c with s := v } code 0 0 c.gg.pc addr c.gg.pc))

/-- R18, R79, R80, R202, R325 to R327, R339, R343: a completed operation writes its result and its entry falls by 1 (the form of its
completion is log 9); a split set that has met goes on, those of its parts that agree as one gang (others apart: log 47), with every
pending poison of its parts; a held gang enters the handler
with the trap that it holds; a poisoned return traps POISON at the next clause; a waiting tag access goes on when its tag is there,
inside its clause once the issue slot comes to it; and a walk that finds a valid and permitted leaf sets ACCESSED in it, and DIRTY
for a write, changes no other byte, and leaves the translation in the TLBs of the core and of the die (both, log 11). -/
def Obligations.CompletionEvents : Prop :=
  ((∀ (s : State) (gid : Nat) (g : Machine.Group) (o : PendOp) (t : Tgt) (v : DWord), s.group? gid = some g →
      g.pend.find? (fun x => x.id == o.id) = some o → o.waiting = 0 → o.writes = [(t, v)] →
      groupAfter (exec (.longLatencyComplete gid o.id none) s) gid fun _ g' =>
        (∀ x ∈ g'.pend, x.id ≠ o.id) ∧ (o.entry < g.sb.length → g'.sb.getD o.entry 0 = g.sb.getD o.entry 0 - 1) ∧
        (∀ e, e ≠ o.entry → g'.sb.getD e 0 = g.sb.getD e 0) ∧
        (∀ l r, t = .vreg l r → r < (g.lane l).v.length → (g'.lane l).vreg r = lo32 v ∧ g'.s = g.s) ∧
        (∀ r, t = .sreg r (BitVec.allOnes 64) → r ≠ 63 → r < g.s.length → g'.s.getD r 0 = v ∧ g'.em = g.em)) ∧
    (∀ (s : State) (gid split : Nat) (g : Machine.Group), s.group? gid = some g → g.handler = none →
      (∃ x ∈ g.gangs, x.split = some split) → (∀ x ∈ g.gangs, x.split = some split → x.park = some .catchUp) →
      groupAfter (exec (.faultSplitRejoin gid split) s) gid fun _ g' => (∀ x ∈ g'.gangs, x.split ≠ some split) ∧
        (∀ y ∈ g.gangs, y.split = some split → ∃ x ∈ g'.gangs, (x.park = none ∨ x.park = some .resume) ∧ x.pc = y.pc ∧ x.fmt = y.fmt ∧
          (∀ j ∈ y.slices, j ∈ x.slices) ∧
          ∀ e ∈ y.poison, ∃ e' ∈ x.poison, e'.1 = e.1 ∧ ∀ l < 32, e.2.1.getLsbD l = true → e'.2.1.getLsbD l = true) ∧
        ((∀ y ∈ g.gangs, ∀ z ∈ g.gangs, y.split = some split → z.split = some split →
            y.pc = z.pc ∧ y.fmt = z.fmt ∧ y.clause = z.clause) →
          ∃ x ∈ g'.gangs, ∀ y ∈ g.gangs, y.split = some split → ∀ j ∈ y.slices, j ∈ x.slices)) ∧
    (∀ (s : State) (gid k : Nat) (c : Cx) (i : TrapInfo) (rest : List (Nat × TrapInfo)), s.cxOf gid k = some c →
      c.g.handler = none → (s.die c.die).ctl.trapVector ≠ 0 →
      (c.g.held = (k, i) :: rest → groupAfter (exec (.heldGangHandlerEntry gid) s) gid fun _ g' => g'.held = rest ∧
        g'.trap.pc = i.pc ∧ g'.trap.resume = i.resume ∧ g'.trap.addr = i.addr ∧ (∃ h, g'.handler = some h ∧ h.slices = c.gg.slices) ∧
        ∃ x, g'.gang? k = some x ∧ x.pc = (s.die c.die).ctl.trapVector) ∧
      (∀ pc lanes va rest, c.gg.poison = (pc, lanes, va) :: rest → c.gg.begun = false → c.gg.park = none → c.groupMay = true →
        groupAfter (exec (.poisonDelivery gid k) s) gid fun _ g' => g'.trap.pc = pc ∧ g'.trap.addr = va ∧
          g'.trap.cause.extractLsb' 0 8 = 0x0C#8 ∧ g'.trap.cause.extractLsb' 32 32 = lanes ∧
          g'.trap.resume = c.gg.hdrAddr ∧ ∃ x, g'.gang? k = some x ∧ x.pc = (s.die c.die).ctl.trapVector ∧ x.poison = rest)) ∧
    (∀ (s : State) (gid k l : Nat) (a : DWord) (p : Place) (c : Cx) (w : TagWait) (m : MForm), s.cxOf gid k = some c →
      c.g.handler = none → c.gg.park = some (.tag w) → c.gg.instr? = some (.vLdsp m) → w.todo = [(l, a, p)] → w.faulted = [] →
      s.tagBlocked w.arrived p w.n = false → s.tagTest p w.n w.want = .met →
      groupAfter (exec (.tagWaitSatisfy gid k l) s) gid fun _ g' => ∃ x, g'.gang? k = some x ∧ x.pc = c.gg.pc + 8 ∧
        x.park = if c.gg.atEnd 2 then none else some .resume)) ∧
  (∀ (s : State) (d : DieId) (core : Nat) (va : DWord) (write fetch priv lost : Bool) (slot level : Nat) (e : DWord),
      canonical va = true → (s.die d).coresHeld = false → MemCanonical s → slot % 8 = 0 →
      let v := (va.extractLsb' 0 57).toNat
      s.walk d v = .leaf slot level e → s.permitted d e ⟨write, fetch, priv⟩ = true →
      let e' := e ||| 0x400 ||| (if write then 0x800 else 0)
      ∃ t, exec (.pageWalk d core va write fetch priv lost) s = .next t ∧
        (e = Mem.dword s.mem slot → Mem.dword t.mem slot = e') ∧
        (∀ x, ¬ (slot ≤ x ∧ x < slot + 8) → Mem.read t.mem x = Mem.read s.mem x) ∧
        ∀ q : Option Nat, q = some core ∨ q = none →
          (⟨q, v / pageSize level * pageSize level, level, e', slot⟩ : TlbEntry) ∈ (t.die d).tlb)

namespace Sys2Proof.Claims

/-! ## The host's registers -/

/-- A write of a register of the die's function completes, with P of the state after it. -/
def Writes (s : State) (i : Instr) (P : State → Prop) : Prop := ∃ t, exec i s = .next t ∧ t.mem = s.mem ∧ t.groups.length = s.groups.length ∧ P t

/-- The register writes of the host, with TR the writer's standing (R371). -/
def hostWrites (d : DieId) (n : Nat) (w : Word) (v : DWord) (tr : Bool) : List Instr :=
  [.faultReplay d v tr, .interruptStatusWrite d w tr, .interruptEnableWrite d w tr, .faultBufferStatusWrite d w tr,
   .dspadGrantWrite d n v tr, .launchAnchorWrite d n v tr, .wbarMemberWrite d n v tr, .wbarBindWrite d n v tr,
   .powerLimitWrite d w tr, .freqReq d v tr, .linkReq d v tr, .controlRegisterWrite d n v tr]

/-- No change of a clock or a link width is pending or in hand. -/
def powerIdle (d : Die) : Prop := d.power.active = none ∧ d.power.reqs = []

/-- A request that the host made is pending or in hand (R364). -/
def hostBusy (d : Die) : Prop := ∃ r ∈ d.power.active.toList ++ d.power.reqs, ∀ heat k, r ≠ .steps heat k

/-- The islands of a die as they run below their ceilings, with island j at the ceiling that `ceil` gives (R363). -/
def islandsAt (steps : Nat) (ceil : Nat → Machine.Island → Nat) (old new : List Machine.Island) : Prop :=
  ∀ (j : Nat) (x : Machine.Island), old[j]? = some x →
    new[j]? = some { x with ceiling := ceil j x, mhz := max 800 (ceil j x - 25 * steps) }

end Sys2Proof.Claims

/-- R292, R296, R328, R332, R334, R352, R354, R363 to R365, R371: the host's register writes. INTERRUPT_STATUS clears the bits
written as 1; a bit newly enabled that is set sends the message of its vector (the table's layout is log 32); a replay releases the
parked accesses of the die; a grant zeroes the bytes that it adds; an anchor in force is followed anew; a new LAUNCHID clears the
arrivals of a wired barrier; POWER_LIMIT takes 2,400 to 3,600; a power request begins where nothing is in hand, and is ignored while
one of the host's is; what is written reads back, with BUSY, but a reserved value is ignored. Where a change completes, an island has its new ceiling and every island
of the die runs the same number of steps below its own, down to 800 MHz, or a link its width. While the function is locked or runs, a
write from outside its domain changes nothing, and answers with a refusal (log 46). -/
def Obligations.HostRegisterWrites : Prop :=
  (∀ (s : State) (d : DieId) (n : Nat) (w : Word) (v : DWord), (s.die d).tdisp ≠ .unlocked →
    ∀ i ∈ hostWrites d n w v false, exec i s = .next { s with outs := s.outs ++ [.refused d] }) ∧
  (∀ (s : State) (d : DieId), ∃ t, exec (.powerRequestComplete d) s = .next t ∧ t.mem = s.mem ∧
    let p := (s.die d).power
    let q := (t.die d).power
    (∀ i mhz, p.active = some (.freq i mhz) → q.linkWidths = p.linkWidths ∧
      islandsAt (max p.limitSteps p.heatSteps) (fun j x => if j = i then mhz else x.ceiling) p.islands q.islands) ∧
    (∀ k, p.active = some (.steps true k) → q.heatSteps = k ∧ q.limitSteps = p.limitSteps ∧
      islandsAt (max p.limitSteps k) (fun _ x => x.ceiling) p.islands q.islands) ∧
    (∀ k, p.active = some (.steps false k) → q.limitSteps = k ∧ q.heatSteps = p.heatSteps ∧
      islandsAt (max k p.heatSteps) (fun _ x => x.ceiling) p.islands q.islands) ∧
    (∀ k w, p.active = some (.width k w) → q.islands = p.islands ∧
      ∀ j x, p.linkWidths[j]? = some x → q.linkWidths[j]? = some (if j = k then w else x))) ∧
  (∀ (s : State) (d : DieId) (n : Nat) (w : Word) (v : DWord) (tr : Bool), (s.die d).tdisp = .unlocked ∨ tr = true →
    let x := s.die d
    Writes s (.interruptStatusWrite d w tr) (fun t => (t.die d).ctl.intStatus = x.ctl.intStatus &&& ~~~w) ∧
    Writes s (.interruptEnableWrite d w tr) (fun t => (t.die d).ctl.intEnable = w &&& 0x3F ∧
      ∀ i < 6, w.getLsbD i = true → x.ctl.intEnable.getLsbD i = false → x.ctl.intStatus.getLsbD i = true →
        x.masked.getD (intVector i) false = false →
          Out.msix d (intVector i) (x.msix.getD (intVector i) (0, 0)).1 (x.msix.getD (intVector i) (0, 0)).2 ∈ t.outs) ∧
    Writes s (.faultBufferStatusWrite d w tr) (fun t => (t.die d).dropped = (x.dropped && !w.getLsbD 8) ∧ (t.die d).faults = x.faults) ∧
    Writes s (.faultReplay d v tr) (fun t => v.extractLsb' 0 32 = 1#32 → ∀ g' ∈ t.groups,
      (s.team? g'.ident.team).any (fun u => u.die == d) = true → ∀ y ∈ g'.gangs, y.park ≠ some (.fault false)) ∧
    (n < 4 → x.ctl.grants.length = 4 → x.ctl.anchors.length = 4 → x.lists.length = 4 →
      Writes s (.dspadGrantWrite d n v tr) (fun t => (t.die d).ctl.grants.getD n 0 = v &&& 0x8007FFFF0003FFFF ∧
        ∀ a, (grantRange (v &&& 0x8007FFFF0003FFFF)).1 ≤ a → a < (grantRange (v &&& 0x8007FFFF0003FFFF)).2 →
          (∀ g ∈ x.ctl.grants, ¬ ((grantRange g).1 ≤ a ∧ a < (grantRange g).2)) → Mem.read (t.die d).dspad.bytes a = 0) ∧
      Writes s (.launchAnchorWrite d n v tr) (fun t =>
        let new := (t.die d).ctl.anchors.getD n 0
        new &&& ~~~2 = v &&& 0xFFFFFFFFFFFFFF85 ∧ (new.getLsbD 1 = true ↔ (x.ctl.anchors.getD n 0).getLsbD 1 = true ∧ v.getLsbD 1 = false) ∧
        (v.getLsbD 0 = false → (t.die d).lists.getD n .reset = .reset) ∧
        (v.getLsbD 0 = true → (x.ctl.anchors.getD n 0).getLsbD 0 = false →
          (t.die d).lists.getD n .reset = ⟨some (v.extractLsb' 7 57 ++ 0#7), false, .none⟩))) ∧
    (n < x.ctl.wbarMember.length → Writes s (.wbarMemberWrite d n v tr) fun t => (t.die d).ctl.wbarMember.getD n 0 = v ∧
      (n < 160 → t.readBar0 d (0x10000 + 8 * n) = v)) ∧
    (n < s.wbars.length → Writes s (.wbarBindWrite d n v tr) fun t => (t.wbar n).bind = v &&& 0xFFFFFFFF00000003 ∧
      (n < 64 → t.readBar0 d (0x10800 + 8 * n) = v &&& 0xFFFFFFFF00000003) ∧
      ((s.wbar n).bind.extractLsb' 32 32 ≠ v.extractLsb' 32 32 → (t.wbar n).arrived = [] ∧ (t.wbar n).arrs = [])) ∧
    Writes s (.powerLimitWrite d w tr) (fun t => t.powerLimit =
      if 2400 ≤ w.toNat % 65536 ∧ w.toNat % 65536 ≤ 3600 then BitVec.ofNat 32 (w.toNat % 65536) else s.powerLimit) ∧
    Writes s (.powerLimitWrite d w tr) (fun t => t.readBar0 d 0x11010 = t.powerLimit.zeroExtend 64) ∧
    (powerIdle x → ∀ i mhz, v.extractLsb' 0 16 = 0x8000#16 ||| BitVec.ofNat 16 i → i < 4 → v.extractLsb' 16 16 = BitVec.ofNat 16 mhz →
      800 ≤ mhz → mhz ≤ 1600 → mhz % 25 = 0 → Writes s (.freqReq d v tr) fun t => (t.die d).power.active = some (.freq i mhz) ∧
        ((v.extractLsb' 41 3).toNat ≤ 2 → (v.extractLsb' 44 4).toNat ≤ 12 →
          t.readBar0 d 0x11018 = (v &&& 0x0000FF00FFFF800F) ||| 0x8000000000000000)) ∧
    (¬ hostBusy x → Writes s (.linkReq d v tr) fun t =>
      let r := t.readBar0 d 0x11018
      let held (ok : Prop) (lo n : Nat) : Prop :=
        (ok → r.extractLsb' lo n = v.extractLsb' lo n) ∧ (¬ ok → r.extractLsb' lo n = (s.readBar0 d 0x11018).extractLsb' lo n)
      let mhz := (v.extractLsb' 16 16).toNat
      held ((v.extractLsb' 44 4).toNat ≤ 12) 44 4 ∧ held ((v.extractLsb' 41 3).toNat ≤ 2) 41 3 ∧
        held (800 ≤ mhz ∧ mhz ≤ 1600 ∧ mhz % 25 = 0) 16 16 ∧ held ((v.extractLsb' 0 4).toNat < 4) 0 4) ∧
    (powerIdle x → ∀ k wd, v.getLsbD 15 = false → v.getLsbD 40 = true → v.extractLsb' 41 3 = BitVec.ofNat 3 wd → wd ≤ 2 →
      v.extractLsb' 44 4 = BitVec.ofNat 4 k → k ≤ 12 → Writes s (.linkReq d v tr) fun t => (t.die d).power.active = some (.width k wd)) ∧
    (hostBusy x → exec (.freqReq d v tr) s = .next s ∧ exec (.linkReq d v tr) s = .next s) ∧
    (∃ t, exec (.controlRegisterWrite d n v tr) s = .next t) ∧
    Writes s (.controlRegisterWrite d 0x11000 v tr) (fun t => t.readBar0 d 0x11000 = v &&& 0x000FFFFFFFFC0000) ∧
    Writes s (.controlRegisterWrite d 0x11008 v tr) (fun t => t.readBar0 d 0x11008 = v &&& 0x000FFFFFFFFFF001) ∧
    (n < 4 → x.msix.length = 4 → x.masked.length = 4 →
      Writes s (.controlRegisterWrite d (0x20000 + 16 * n + 8) v tr) (fun t =>
        (t.readBar0 d (0x20000 + 16 * n + 8)).extractLsb' 0 32 = v.extractLsb' 0 32) ∧
      Writes s (.controlRegisterWrite d (0x20000 + 16 * n + 12) v tr) fun t => (t.die d).masked.getD n false = v.getLsbD 0) ∧
    Writes s (.controlRegisterWrite d 0x188 v tr) (fun t => (t.die d).ctl.trapVector = v &&& 0xFFFFFFFFFFFFFFFC) ∧
    Writes s (.controlRegisterWrite d 0x180 v tr) fun t => (t.die d).ctl.pageTableRoot = v &&& 0x000FFFFFFFE00000)

namespace Sys2Proof.Claims

/-! ## The front-end, the dispatcher and pre-emption -/

/-- The front-end may read the list of an anchor (R294). -/
def listRuns (s : State) (d : DieId) (n : Nat) (a : DWord) : Prop :=
  s.frontRuns d = true ∧ ((s.die d).ctl.anchors.getD n 0).getLsbD 0 = true ∧ s.outstanding d < 256 ∧
  (s.die d).lists[n]? = some ⟨some a, false, .none⟩

/-- Bytes of a launch's record may be written: its home can be reached, and no byte of it waits for a replay. -/
def recordPlain (s : State) (l : Launch) : Prop :=
  s.poison = [] ∧ MemCanonical s ∧ (∀ i < 128, s.reachable l.die (l.recPa + i) = true) ∧ l.owed = [] ∧
  ∀ x, s.launch? l.id = some x → x.owed = []

/-- What the front-end finds where a list stands: a NEXT field `nx`, in the state u; in an anchor, the reserved bytes are zero (R292,
log 31). -/
def nextIs (s u : State) (d : DieId) (n : Nat) (a nx : DWord) : Prop :=
  let anchor := (s.die d).ctl.anchors.getD n 0
  let first := a == anchor &&& ~~~127
  ∃ pa, s.frTr d (Config.freeWord s.tick 0) (anchor.getLsbD 2) (!first) a (if first then 128 else 8) = (.ok pa, u) ∧
    (first = true → ∀ i, 16 ≤ i → i < 128 → Mem.read u.mem (pa + i) = 0) ∧ Mem.dword u.mem pa = nx

/-- The launch of a record read at `pa` in the state v, and the state in which its checks begin. -/
def taken (v : State) (d : DieId) (n : Nat) (priv : Bool) (va : DWord) (pa : Nat) : Launch × State :=
  let l := newLaunch v.nextId d n priv va pa (v.readPa pa 128)
  (l, v.fresh.2.recByte l 46 1)

/-- The completion words of a launch, raised by 1 in turn from the state z on, give the memory m (R299, R301). -/
def Raises (l : Launch) : List DWord → State → Mem → Prop
  | [], z, m => m = z.mem
  | w :: ws, z, m => w ≠ 0 ∧ w.toNat % 8 = 0 ∧ ∃ pa u, z.frTr l.die l.launchId l.priv true w 8 l.doneWait = (.ok pa, u) ∧
      pa / 128 ∉ u.engineLines ∧ Raises l ws (u.addWord pa 1) m

/-- The list stands at the record `va`. -/
def listAt (s : State) (d : DieId) (n : Nat) (va : DWord) : State :=
  s.modDie d fun x => { x with lists := modAt x.lists n fun p => { p with cur := some va, stalled := .none } }

end Sys2Proof.Claims

/-- R294, R299 to R303, R305: a wake ends the watch of a list; where NEXT is 0 the list is watched; a record that passes its checks is
taken, with all its teams to dispatch, and without conditions it is ready; one that fails has STATUS 0x15 and its REASON; a
condition is met where its word has reached its value; and a launch whose teams have ended has STATUS 0x03. A launch that has failed or
completed raises its completion words by 1 each, DONE0 before DONE1, and is forgotten. The record is written where it was read
(log 30), and NEXT is read where the list stands (log 31). -/
def Obligations.FrontEndEvents : Prop :=
  (∀ (s : State) (d : DieId) (n : Nat), ∃ t, exec (.listWatchWake d n) s = .next t ∧ t.mem = s.mem ∧
    ∀ p, (s.die d).lists[n]? = some p → (t.die d).lists[n]? = some { p with watching := false }) ∧
  (∀ (s u : State) (d : DieId) (n : Nat) (a : DWord), listRuns s d n a →
    (nextIs s u d n a 0 → ∃ t, exec (.recordTake d n) s = .next t ∧ t.mem = u.mem ∧
      (t.die d).lists[n]? = some ⟨some a, true, .none⟩) ∧
    ∀ nx v pa, nx ≠ 0 → nx.toNat % 128 = 0 → nextIs s u d n a nx →
      let priv := ((s.die d).ctl.anchors.getD n 0).getLsbD 2
      u.frTr d (Config.freeWord u.tick 0) priv true nx 128 = (.ok pa, v) → (∀ x ∈ v.launches, x.id ≠ v.nextId) →
      let l := (taken v d n priv nx pa).1
      let w0 := (taken v d n priv nx pa).2
      (∀ h spans w, w0.checkRecord d l (v.readPa pa 128) .none = (.pass h spans, w) → l.conds = [] →
        ∃ t, exec (.recordTake d n) s = .next t ∧ t.mem = w.mem ∧ (t.die d).lists[n]? = some ⟨some nx, false, .none⟩ ∧
          ∃ x, t.launch? v.nextId = some x ∧ x.record = nx ∧ x.list = n ∧ x.die = d ∧ x.priv = priv ∧ x.hdr = h ∧ x.spans = spans ∧
            x.todo = List.range (l.gx * l.gy * l.gz) ∧ x.ready.isSome = true ∧ x.live = []) ∧
      (∀ r w, w0.checkRecord d l (v.readPa pa 128) .none = (.reason r, w) → recordPlain w l → r < 256 →
        let z := ({ listAt w d n nx with launches := w.launches ++ [l] }.recByte l 47 (BitVec.ofNat 8 r)).recByte l 46 0x15
        (Mem.read z.mem (pa + 46) = 0x15#8 ∧ Mem.read z.mem (pa + 47) = BitVec.ofNat 8 r ∧
          ∀ b, b ≠ pa + 46 → b ≠ pa + 47 → Mem.read z.mem b = Mem.read w.mem b) ∧
        ∀ m, Raises l l.undone (z.modLaunch v.nextId fun x => { x with finished := true, todo := [], ready := none }) m →
          ∃ t, exec (.recordTake d n) s = .next t ∧ (t.die d).lists[n]? = some ⟨some nx, false, .none⟩ ∧ t.mem = m ∧
            ∀ x ∈ t.launches, x.id ≠ v.nextId)) ∧
  (∀ (s : State) (pa : Nat), MemCanonical s → Mem.dword (s.addWord pa 1).mem pa = Mem.dword s.mem pa + 1 ∧
    ∀ a, ¬ (pa ≤ a ∧ a < pa + 8) → Mem.read (s.addWord pa 1).mem a = Mem.read s.mem a) ∧
  (∀ (s u : State) (l : Launch) (va val : DWord) (pa : Nat), s.launch? l.id = some l → l.finished = false → l.ready = none →
    l.conds = [⟨va, val, false, .none⟩] → s.frTr l.die l.launchId l.priv false va 8 = (.ok pa, u) →
    ∀ i ∈ [Instr.conditionTest l.id, .conditionPoll l.id], ∃ t x, exec i s = .next t ∧ t.mem = u.mem ∧ t.launch? l.id = some x ∧
      (x.ready.isSome = true ↔ val.toNat ≤ (Mem.dword u.mem pa).toNat)) ∧
  (∀ (s : State) (l : Launch), s.launch? l.id = some l → l.finished = false → l.running = true → l.todo = [] → l.live = [] →
    recordPlain s l →
    let z := s.recByte l 46 0x03
    (Mem.read z.mem (l.recPa + 46) = 0x03#8 ∧ ∀ b, b ≠ l.recPa + 46 → Mem.read z.mem b = Mem.read s.mem b) ∧
    ∀ m, Raises l l.undone (z.modLaunch l.id fun x => { x with finished := true }) m →
      ∃ t, exec (.launchComplete l.id) s = .next t ∧ t.mem = m ∧ (∀ x ∈ t.launches, x.id ≠ l.id) ∧
        ⟨l.die, l.launchId, l.size⟩ ∈ t.past)

/-- R41, R305 to R308, R313 to R318, R363: the only candidate, where it fits, is dispatched: its teams are resident with every group of
the header at the kernel's entry, and its record says so (log 30, log 31); one that does not fit begins to wait, and its wait, or
that of a loaded context of its launch, runs out; an island with a team comes up; a drain past its deadline goes on as a discard, or a
save, or stays; a discarded team goes back among those to dispatch; and a saved set leaves the machine, or, without an area for it
(log 36), stays with ERROR 3. What a context keeps, and its bytes, are log 14. -/
def Obligations.DispatchAndPreemption : Prop :=
  (∀ (s : State) (d : DieId) (l : Launch) (cores : List Nat), (s.die d).coresHeld = false → (s.die d).isReady = true →
    s.candidates d = [.launch l] → s.launch? l.id = some l → (s.restIslands d).pickPlaces d l.hdr (l.nextTeams.map l.memberOf) = some cores →
    ∃ t, exec (.teamDispatch d) s = .next t ∧
      (∃ x, t.launch? l.id = some x ∧ x.running = true ∧ x.live = l.live ++ l.nextTeams ∧
        x.todo = l.todo.filter fun k => !l.nextTeams.contains k) ∧
      (∀ k ∈ l.nextTeams, ∃ u ∈ t.teams, u.launch = l.id ∧ u.teamId = k ∧ u.die = l.die ∧ u.spadBytes = l.hdr.spad ∧
        ∀ e ∈ l.hdr.layout, ∃ g ∈ t.groups, g.ident.team = u.id ∧ g.ident.idx = e.1 ∧ g.ident.role = e.2.1 ∧ g.ident.quad = e.2.2.1 ∧
          ∃ y ∈ g.gangs, y.pc = l.khdr + 64 ∧ y.fmt = l.hdr.fmt ∧ y.slices = List.range (l.hdr.width / 4)) ∧
      (l.running = false → recordPlain s l → Mem.read t.mem (l.recPa + 46) = 0x02#8)) ∧
  (∀ (s : State) (d : DieId) (l : Launch), (s.die d).coresHeld = false → (s.die d).isReady = true →
    s.candidates d = [.launch l] → s.launch? l.id = some l →
    (s.restIslands d).pickPlaces d l.hdr (l.nextTeams.map l.memberOf) = none → l.expired = false →
    ∃ t x, exec (.teamDispatch d) s = .next t ∧ t.mem = s.mem ∧ t.teams = s.teams ∧ t.groups = s.groups ∧
      t.launch? l.id = some x ∧ x.waiting = true ∧ x.todo = l.todo ∧ x.live = l.live) ∧
  (∀ (s : State) (l : Launch), s.launch? l.id = some l → ∃ t x, exec (.dispatchWaitTimeout l.id) s = .next t ∧ t.mem = s.mem ∧
    t.launch? l.id = some x ∧ x.expired = (l.expired || l.waiting) ∧
    ∀ v ∈ s.saved, v.queued = true → v.waiting = true → v.launch.id = l.id → { v with expired := true } ∈ t.saved) ∧
  (∀ (s : State) (d : DieId) (i : Nat) (x : Island), s.islandBusy d i = true → (s.die d).power.islands[i]? = some x →
    ∃ t, exec (.islandPowerUp d i) s = .next t ∧ t.mem = s.mem ∧ (t.die d).power.islands[i]? = some { x with on := true }) ∧
  (∀ (s : State) (d : DieId) (r : PreReq) (u : Team) (l : Launch), s.preRequest d = some (r, u, l) →
    (r.path = .drain → r.deadline ≤ s.timeNs.toNat → ∃ t, exec (.preemptDrainDeadline d) s = .next t ∧ t.mem = s.mem ∧
      (t.die d).preempt.req = some { r with path :=
        if u.sideEffect = false then .discard else if s.saveReady d u = true then .save else .drain }) ∧
    (r.path = .discard → s.stopped (s.setOf u) = true → u.sideEffect = false →
      ∃ t, exec (.preemptDiscard d) s = .next t ∧ t.mem = s.mem ∧ (∀ x ∈ t.teams, x.id ≠ u.id) ∧
        (t.die d).preempt.busy = false ∧ (t.die d).preempt.path = .discard ∧ (t.die d).preempt.error = 0 ∧
        ∃ x, t.launch? u.launch = some x ∧ u.teamId ∈ x.todo ∧ u.teamId ∉ x.live) ∧
    (r.path = .save → s.stopped (s.setOf u) = true →
      (s.saveReady d u = false → ∃ t, exec (.preemptSave d) s = .next t ∧ t.mem = s.mem ∧ t.teams = s.teams ∧
        (t.die d).preempt.busy = false ∧ (t.die d).preempt.error = 3) ∧
      (s.saveReady d u = true → ∀ m v,
        (s.modPre d fun p => { p with area := 0 }).mapSpan d none ⟨true, false, true⟩ (s.die d).preempt.area (s.saveBytes u) = (.inr m, v) →
        ∃ t, exec (.preemptSave d) s = .next t ∧ (∀ x ∈ s.setOf u, ∀ y ∈ t.teams, y.id ≠ x.id) ∧
          (t.die d).preempt.busy = false ∧ (t.die d).preempt.error = 0 ∧ (t.die d).preempt.savedAt = (s.die d).preempt.area ∧
          ∃ x ∈ t.saved, x.addr = (s.die d).preempt.area ∧ x.teams = s.setOf u ∧ x.queued = false ∧ x.image = false)))

namespace Sys2Proof.Claims

/-! ## The package -/

/-- Every byte of the package's memory reads 0. -/
def hbmLost (t : State) : Prop := ∀ a, a < 0x10000000000 → Mem.read t.mem a = 0

/-- Nothing holds back an access at home to n bytes: one die's memory is up, no line is poisoned, no engine has registered one, and no
frame of them is shown under the key of a context. -/
def homeReady (s : State) (pa n : Nat) : Prop :=
  0 < n ∧ s.inHbm pa n = true ∧ s.poisoned pa n = false ∧ (linesOf pa n).any s.engineLines.contains = false ∧
  ∀ d, ∀ p ∈ (s.die d).keyPages, p.key = none ∨ pa + n ≤ p.base ∨ p.base + 65536 ≤ pa

/-- A frame used under several keys (R372): an access under another key than the one it is shown under changes no byte of other frames,
finds free bytes where the frame has not been used under its key, and leaves what the first key shows. -/
def KeyViews : Prop :=
  ∀ (s : State) (d : DieId) (pa : Nat) (p : KeyPage) (k : Option Nat), MemCanonical s → ownerOf pa = .hbm d →
    (s.die d).keyPages.find? (fun x => x.frame == pa / 65536) = some p → p.key ≠ k →
    let t := s.useKey pa k
    (∀ a, a / 65536 ≠ pa / 65536 → Mem.read t.mem a = Mem.read s.mem a) ∧
    ((∀ o ∈ p.others, o.1 ≠ k) → ∀ a, a / 65536 = pa / 65536 → Mem.read t.mem a = Config.scrambled s.tick a) ∧
    ∀ a, Mem.read (t.useKey pa p.key).mem a = Mem.read s.mem a

/-- The bytes stand at the address, and every other byte is as before. -/
def Stored (s t : State) (pa : Nat) (bs : List Byte) : Prop :=
  (∀ i < bs.length, Mem.read t.mem (pa + i) = bs.getD i 0) ∧
  ∀ a, ¬ (pa ≤ a ∧ a < pa + bs.length) → Mem.read t.mem a = Mem.read s.mem a

end Sys2Proof.Claims

/-- R345, R350, R351, R362, R363, R365 to R367, R369, R370, R372: a link that goes down or comes up is reported on the functions of
both its ends; a retry changes nothing; the package limit and heat ask for the clocks of a die to fall, which happens as the change
completes; heat holds the die or ends the package's contents; telemetry moves SEQ on, odd while a page is written and even once its
fields stand (in two steps, log 33); an uncorrectable error is counted, logged and poisons its line, and scrub reports it alike
(where, and what a remap clears, log 35); a function reset loses the memory of its die and leaves that of others and the other die
(log 34), a power-on reset loses the package's memory, and memory lost reads zero (log 2); and firmware runs once an image verifies
(signatures, log 15; log 35). -/
def Obligations.PackagePowerAndErrors : Prop :=
  (∀ (s : State) (l : LinkId),
    (∃ t, exec (.linkDown l) s = .next t ∧ t.mem = s.mem ∧ l ∈ t.linksDown ∧
      (l ∉ s.linksDown → ∀ d ∈ linkDies l, (t.die d).ctl.intStatus.getLsbD 4 = true)) ∧
    (∃ t, exec (.linkUp l) s = .next t ∧ t.mem = s.mem ∧ l ∉ t.linksDown ∧
      (l ∈ s.linksDown → ∀ d ∈ linkDies l, (t.die d).ctl.intStatus.getLsbD 4 = true)) ∧
    exec (.flitRetry l) s = .next s) ∧
  (∀ (s : State) (d : DieId) (n : Nat), ∃ t, exec (.powerClockAdjust d n) s = .next t ∧ t.mem = s.mem ∧
    ((t.die d).power.throttle.getLsbD 0 = true ↔ n ≠ 0) ∧ (t.die d).power.islands = (s.die d).power.islands ∧
    .steps false n ∈ (t.die d).power.active.toList ++ (t.die d).power.reqs ∧
    (powerIdle (s.die d) → (t.die d).power.active = some (.steps false n))) ∧
  (∀ (s : State) (d : DieId),
    (∀ e, ∃ t, exec (.thermalLimitCrossing d e) s = .next t ∧
      (e = .die100 true → (t.die d).power.throttle.getLsbD 1 = true ∧
        ∃ k, 1 ≤ k ∧ .steps true k ∈ (t.die d).power.active.toList ++ (t.die d).power.reqs) ∧
      (e = .die100 false → (t.die d).power.throttle.getLsbD 1 = false ∧
        .steps true 0 ∈ (t.die d).power.active.toList ++ (t.die d).power.reqs) ∧
      (e = .hbm95 → (t.die d).power.throttle.getLsbD 3 = true) ∧ (e = .hbmBelow90 → (t.die d).power.throttle.getLsbD 3 = false)) ∧
    (∃ t, exec (.thermalLimitCrossing d .die110) s = .next t ∧ (t.die d).power.hold = true ∧ (t.die d).power.throttle.getLsbD 2 = true) ∧
    (∃ t, exec (.thermalLimitCrossing d .dieBelow95) s = .next t ∧ (t.die d).power.hold = false) ∧
    (∃ t, exec (.thermalLimitCrossing d .die120) s = .next t ∧ t.shutdown = true ∧ t.teams = [] ∧ t.groups = [] ∧ hbmLost t) ∧
    let tel := (s.die d).ctl.telemetry
    let pa := (tel.extractLsb' 12 40).toNat * 4096
    (tel.getLsbD 0 = false → exec (.telemetryUpdate d) s = .next s) ∧
    (ownerOf pa = .unassigned → exec (.telemetryUpdate d) s = .next s) ∧
    (tel.getLsbD 0 = true → ownerOf pa ≠ .unassigned → MemCanonical s → (s.die d).power.ce.length = 8 →
      (s.die d).power.islands.length = 4 → ∃ t, exec (.telemetryUpdate d) s = .next t ∧
      let seq := (s.die d).power.seq + 1
      Mem.dword t.mem pa = seq ∧ (t.die d).power.seq = seq ∧
      (∀ a, ¬ (pa ≤ a ∧ a < pa + 4096) → Mem.read t.mem a = Mem.read s.mem a) ∧
      (seq.getLsbD 0 = true → ∀ a, ¬ (pa ≤ a ∧ a < pa + 8) → Mem.read t.mem a = Mem.read s.mem a) ∧
      (seq.getLsbD 0 = false → Mem.dword t.mem (pa + 8) = s.timeNs ∧ Mem.dword t.mem (pa + 72) = (s.die d).power.ue)) ∧
    exec (.patrolScrub d .clean) s = .next s ∧
    (∀ site, exec (.patrolScrub d (.uncorrectable site)) s = exec (.uncorrectableError d site) s ∧
      ∃ t, exec (.uncorrectableError d site) s = .next t ∧ (t.die d).ctl.errStatus.getLsbD 0 = true ∧
        (t.die d).ctl.intStatus.getLsbD 3 = true ∧ (t.die d).power.ue = (s.die d).power.ue + 1 ∧
        ∀ a, site = .hbm a → a / 128 ∈ t.poison ∧ (t.die d).ctl.errAddr = BitVec.ofNat 64 (a / 128 * 128) ∧ t.mem = s.mem) ∧
    (∀ cls w, (s.die d).power.ce[cls]? = some w → ∀ i ∈ [Instr.correctableError d cls, .patrolScrub d (.correctable cls)],
      ∃ t, exec i s = .next t ∧ t.mem = s.mem ∧ (t.die d).power.ce[cls]? = some (if w = 0xFFFFFFFF then w else w + 1)) ∧
    (∀ a, ∃ t, exec (.wearRemap d a) s = .next t ∧ t.mem = s.mem ∧ ∀ x ∈ t.poison, x ∈ s.poison) ∧
    (MemCanonical s → ∀ held off, ∃ t, exec (.functionReset d held off) s = .next t ∧
      (∀ a, Mem.read t.mem a = if ownerOf a = .hbm d then 0 else Mem.read s.mem a) ∧ t.die (otherDie d) = s.die (otherDie d) ∧
      (t.die d).ctl = .reset ∧ (t.die d).coresHeld = held ∧ (t.die d).memUp = !off ∧ (∀ x ∈ t.teams, x.die ≠ d) ∧
      (t.die d).power.hold = (s.die d).power.hold ∧ (t.die d).power.throttle = (s.die d).power.throttle ∧
      (powerIdle (s.die d) → (t.die d).power.heatSteps = (s.die d).power.heatSteps ∧ (t.die d).power.limitSteps = (s.die d).power.limitSteps) ∧
      (∀ k, (s.die d).power.active = some (.steps true k) → (s.die d).power.reqs = [] → (t.die d).power.heatSteps = k) ∧
      ∀ i, (t.die d).coreEnable.getLsbD i = true → (s.die d).coreEnable.getLsbD i = true)) ∧
  (∀ s : State, (∃ t, exec .packagePowerOnReset s = .next t ∧ t.teams = [] ∧ t.groups = [] ∧ t.launches = [] ∧ hbmLost t ∧
      (∀ d, (t.die d).ctl = .reset ∧ (t.die d).ready = false) ∧ t.firmware = .unverified) ∧
    ∀ image version, ∃ t, exec (.firmwareImageVerify image version) s = .next t ∧ t.mem = s.mem ∧ s.fusedMin ≤ t.fusedMin ∧
      (t.firmware = .measured ↔ Config.firmwareSigned image version = true ∧ s.fusedMin ≤ version) ∧
      (t.firmware = .measured → t.fwImage = (image, version)) ∧
      ∀ d, ((t.die d).ready = true ↔ t.firmware = .measured))

/-- R210, R286, R360, R361, R371, R372: a request for measurements is answered from the identity and the measurements alone (log 15),
and changes nothing else; a frame shows under each key what was written under it, and free bytes under a key that it has not been used
under (log 16); a key slot is filled or emptied, and emptying a filled one leaves free bytes in the frames that are shown under it, and no
other byte changes; the standing of the function changes, from any to any (log 35); an access of the host or of another package to
memory that is up, without poison and free of engines, answers with the bytes (log 46) or stores them, and changes no other byte, an
atomic with its new value; a page of an encrypted context reads as all ones through BAR2 and takes no store. -/
def Obligations.OutsideAccesses : Prop :=
  KeyViews ∧
  (∀ (s : State) (d : DieId) (req : List Byte), exec (.spdmRequest d req) s =
    .next { s with outs := s.outs ++ [.data (some d) (Config.spdmAnswer s.identity s.measurements req)] }) ∧
  (∀ (s : State) (d : DieId) (slot : Nat) (fill : Bool), MemCanonical s → ∃ t, exec (.contextKeySlotUpdate d slot fill) s = .next t ∧
    (fill = true → t.mem = s.mem) ∧
    (∀ a, (∀ p ∈ (s.die d).keyPages, p.key = some slot → ¬ (p.base ≤ a ∧ a < p.base + 65536)) → Mem.read t.mem a = Mem.read s.mem a) ∧
    (fill = false → slot < 256 → slot ∈ (s.die d).keySlots →
      (∀ p ∈ (s.die d).keyPages, p.key = some slot → ∀ a, p.base ≤ a → a < p.base + 65536 →
        Mem.read t.mem a = Config.scrambled s.tick a) ∧
      ∀ p ∈ (t.die d).keyPages, ∀ o ∈ p.others, o.1 ≠ some slot) ∧
    (256 ≤ slot → t = s) ∧ (slot < 256 → (slot ∈ (t.die d).keySlots ↔ fill = true) ∧
      ∀ k, k ≠ slot → (k ∈ (t.die d).keySlots ↔ k ∈ (s.die d).keySlots))) ∧
  (∀ (s : State) (d : DieId) (x : TdispState), ∃ t, exec (.tdispStateChange d x) s = .next t ∧ t.mem = s.mem ∧ (t.die d).tdisp = x) ∧
  (∀ (s : State) (pa : Nat) (bs : List Byte) (n : Nat), MemCanonical s →
    let stores (i : Instr) : Prop := ∃ t, exec i s = .next t ∧ Stored s t pa bs
    let loads (i : Instr) : Prop := exec i s = .next { s with outs := s.outs ++ [.data none (Mem.readN s.mem pa n)] }
    (homeReady s pa bs.length → stores (.remoteMemoryRequest pa (.store bs)) ∧ stores (.cxlMemRequest pa (some bs) n)) ∧
    (homeReady s pa n → loads (.remoteMemoryRequest pa (.load n)) ∧ loads (.cxlMemRequest pa none n)) ∧
    (ownerOf pa = .host → ownerOf (pa + bs.length - 1) = .host → stores (.cxlCacheSnoop pa bs)) ∧
    (∀ d off, pa = (match d with | .cd0 => 0 | .cd1 => 0x8000000000) + off → ownerOf pa = .hbm d →
      (homeReady s pa bs.length → if s.encrypted pa bs.length = true then exec (.bar2Access d off (some bs) n) s = .next s
        else stores (.bar2Access d off (some bs) n)) ∧
      (homeReady s pa n → if s.encrypted pa n = true then
          exec (.bar2Access d off none n) s = .next { s with outs := s.outs ++ [.data (some d) (List.replicate n 0xFF)] }
        else loads (.bar2Access d off none n)))) ∧
  (∀ (s : State) (pa : Nat) (w64 : Bool), let n := if w64 then 8 else 4
    MemCanonical s → homeReady s pa n →
    let old := leNat (Mem.readN s.mem pa n)
    let swaps (i : Instr) (new : Nat) : Prop := ∃ t, exec i s = .next t ∧ Stored s t pa (leBytes n new) ∧
      t.outs = s.outs ++ [.data none (leBytes n old)]
    (∀ op b, swaps (.remoteMemoryRequest pa (.atomic op w64 b)) (atomNew op w64 old (b.toNat % 2 ^ (8 * n)))) ∧
    ∀ cmp new, swaps (.remoteMemoryRequest pa (.cas w64 cmp new)) (if old = cmp.toNat % 2 ^ (8 * n) then new.toNat % 2 ^ (8 * n) else old))

namespace Sys2Proof.Claims

/-! ## Reset, words and steps -/

/-- Words written out from the encodings of spec/03 to spec/11, and the instructions that they stand for. -/
def specWords : List (List Word × Instr) :=
  [([0x04104080], .sAdd ⟨4, 4, .reg 8 0⟩), ([0x11200407], .sShl ⟨8, 0, .imm10 7⟩), ([0x21080407], .sRdsr ⟨2, 0, .imm10 7⟩),
   ([0x1B244052], .sCmp ⟨9, 4, .reg 5 2⟩),
   ([0x44F60828, 0xF7000242], .vIcmp ⟨123, 2, 5, 0, some ⟨123, 4, 0, 0, 0, 0, 9, 2⟩, none⟩),
   ([0x8208600A, 0x00402008], .vLdsp ⟨4, 12, 0, 2, 2, 0x40, 1, 0, 0, 0, 2, 0⟩),
   ([0x8D141FB0, 0], .chunkTake ⟨10, 3, 123, 0, 0, 0, 0, 0, 0, 0, 0, 0⟩), ([0xC110FFEF], .brc 4 1 0x7FEF), ([0xC8300000], .bar 3 0 0 0), ([0xC8390000], .bar 3 4 1 0),
   ([0xF1106D00], .sysWrcr 4 0x6D 0), ([0xF0106800], .sysRdcr 4 0x68 0), ([0xF2000000], .sysEret 0),
   ([0xB5619800, 0xC0000000], .cpClose ⟨24, 25, 1, 0, 6, 0⟩), ([0xB6600000, 0x60000000], .cpWait ⟨24, 0, 0, 0, 3, 0⟩)]

end Sys2Proof.Claims

/-- R7, R37, R71, R154, R292, R296, R328, R347, R363: what reset leaves: no group, team or launch, memory in its canonical form (log 2),
interrupts off, no list or grant in force, TX_RETRY_LIMIT 8, POWER_LIMIT 3,600, every ceiling and clock 1,600 MHz, and every island
off. The values of the registers for which the spec gives none are the model's (log 8). -/
def Obligations.ResetState : Prop :=
  let r := State.reset
  r.groups = [] ∧ r.teams = [] ∧ r.launches = [] ∧ MemCanonical r ∧ SpadsCanonical r ∧ r.timeNs = 0 ∧ r.powerLimit = 3600#32 ∧
  ∀ d, (r.die d).ctl.intEnable = 0 ∧ (r.die d).ctl.intStatus = 0 ∧ (r.die d).ctl.txRetryLimit = 8#8 ∧ (r.die d).faults = [] ∧
    (∀ n < 4, (r.die d).ctl.anchors.getD n 0 = 0 ∧ (r.die d).ctl.grants.getD n 0 = 0) ∧ (r.die d).preempt.busy = false ∧
    ∀ i < 4, (r.die d).power.islands[i]? = some ⟨false, 1600, 1600, 0⟩

/-- R71, R83, R87, R132, R136 to R155, R261, R262: words written out bit by bit from the spec's encodings decode to the instructions
that they stand for. -/
def Obligations.SpecWordsDecode : Prop := ∀ e ∈ specWords, decode e.1 = .ok e.2 e.1.length ∧ encode e.2 = e.1

/-- R5, R18, R76, R309: a step whose gang stands at words that decode to an instruction is that instruction's meaning, after the time of
the step has passed (log 4); words with a reserved value of the field that selects the instruction trap ILLEGAL_OPERAND; slices of a
fault split stop before a word that is not lane-confined; and an event that the agenda names first is the step (log 5). -/
def Obligations.StepRunsDecodedWord : Prop :=
  ∀ s : State,
    let u : State := { s.passTime with agenda := s.agenda.tail }
    ((s.agenda = [] ∨ ∃ rest, s.agenda = none :: rest) → ∀ c, u.cx? = some c → ∀ cl, c.gg.clause = some cl → c.gg.begun = true →
      c.gg.park = none → c.powered = true → (∀ h, c.g.handler = some h → h.double = true → c.g.inHandler c.gg = false) →
      let ws := cl.words.drop ((c.gg.pc - cl.addr).toNat / 4 - 1)
      (∀ i n, decode ws = .ok i n → (c.gg.split = none ∨ instrConfined i = true) → step s = exec i u) ∧
      (∀ i n, decode ws = .ok i n → c.gg.split ≠ none → instrConfined i = false → step s = c.park .catchUp) ∧
      (decode ws = .bad .field → (c.gg.split = none ∨ wordConfined ws = true) → step s = c.trap { code := .illegalOperand }) ∧
      (decode ws = .bad .field → c.gg.split ≠ none → wordConfined ws = false → step s = c.park .catchUp)) ∧
    (∀ e rest, s.agenda = some e :: rest → isWord e = false → step s = exec e u)

/-- R71, R83, R87: decoding the words of any well-formed instruction gives it back, with every operand, whatever words follow. -/
def Obligations.DecodeEncodeRoundTrip : Prop :=
  ∀ (i : Instr) (rest : List Word), isWord i = true → wellFormed i = true → decode (encode i ++ rest) = .ok i (encode i).length

/-- Memory stays in its canonical form (log 2) at every step, from any state in which it is. -/
def Obligations.MemCanonicalKept : Prop := ∀ s t : State, MemCanonical s → step s = .next t → MemCanonical t
end

