-- ==== Sys2Proof/Laws/Encoding.lean ====
section
/-! SUPPORT. Every format's fields are read back from the word that they were written into, and the opcode from the first word. -/

namespace Sys2Proof.Laws

/-- A concatenation as a number. -/
theorem toNat_cat {m n : Nat} (x : BitVec m) (y : BitVec n) : (x ++ y).toNat = x.toNat * 2 ^ n + y.toNat := by
  rw [BitVec.toNat_append, Nat.shiftLeft_eq, mul_comm, ← Nat.two_pow_add_eq_or_of_lt y.isLt]

/-- A field as a number. -/
theorem toNat_fld (w : Word) (lo n : Nat) : (fld w lo n).toNat = w.toNat / 2 ^ lo % 2 ^ n := by
  simp [fld, BitVec.extractLsb'_toNat, Nat.shiftRight_eq_div_pow]

/-- A field by its number. -/
theorem fld_of_toNat {w : Word} {lo n : Nat} {x : BitVec n} (h : w.toNat / 2 ^ lo % 2 ^ n = x.toNat) : fld w lo n = x :=
  BitVec.eq_of_toNat_eq ((toNat_fld w lo n).trans h)

theorem opcodeOf_of_toNat {w : Word} {n : Nat} (h : w.toNat / 2 ^ 24 % 2 ^ 8 = n) : opcodeOf w = n :=
  (toNat_fld w 24 8).trans h

/-- The opcode stands in bits [31:24]. -/
theorem opcodeOf_cat (op : Nat) (x : BitVec 24) (w : Word) (h : w = opb op ++ x) : opcodeOf w = op % 256 := by
  subst h
  apply opcodeOf_of_toNat
  rw [toNat_cat]
  simp
  omega

theorem decS_reg (o : BitVec 8) (sd sa sb : BitVec 6) (fn : BitVec 4) (t : List Word) :
    decS (o ++ sd ++ sa ++ 0#2 ++ sb ++ fn) t = some (⟨sd, sa, .reg sb fn⟩, 1) := by
  have h : fld (o ++ sd ++ sa ++ 0#2 ++ sb ++ fn) 10 2 = 0 := by
    apply fld_of_toNat; repeat rw [toNat_cat]
    simp; omega
  unfold decS; rw [h]
  show some (SForm.mk (fld _ 18 6) (fld _ 12 6) (.reg (fld _ 4 6) (fld _ 0 4)), 1) = _
  simp only [Option.some.injEq, Prod.mk.injEq, SForm.mk.injEq, SOp.reg.injEq, and_true]
  refine ⟨?_, ?_, ?_, ?_⟩ <;> (apply fld_of_toNat; repeat rw [toNat_cat]) <;> simp <;> omega

theorem decS_imm10 (o : BitVec 8) (sd sa : BitVec 6) (v : BitVec 10) (t : List Word) :
    decS (o ++ sd ++ sa ++ 1#2 ++ v) t = some (⟨sd, sa, .imm10 v⟩, 1) := by
  have h : fld (o ++ sd ++ sa ++ 1#2 ++ v) 10 2 = 1 := by
    apply fld_of_toNat; repeat rw [toNat_cat]
    simp; omega
  unfold decS; rw [h]
  show some (SForm.mk (fld _ 18 6) (fld _ 12 6) (.imm10 (fld _ 0 10)), 1) = _
  simp only [Option.some.injEq, Prod.mk.injEq, SForm.mk.injEq, SOp.imm10.injEq, and_true]
  refine ⟨?_, ?_, ?_⟩ <;> (apply fld_of_toNat; repeat rw [toNat_cat]) <;> simp <;> omega

theorem decS_imm32 (o : BitVec 8) (sd sa r : BitVec 6) (fn : BitVec 4) (x : Word) (t : List Word) :
    decS (o ++ sd ++ sa ++ 2#2 ++ r ++ fn) (x :: t) = some (⟨sd, sa, .imm32 r fn x⟩, 2) := by
  have h : fld (o ++ sd ++ sa ++ 2#2 ++ r ++ fn) 10 2 = 2 := by
    apply fld_of_toNat; repeat rw [toNat_cat]
    simp; omega
  unfold decS; rw [h]
  show some (SForm.mk (fld _ 18 6) (fld _ 12 6) (.imm32 (fld _ 4 6) (fld _ 0 4) _), 2) = _
  simp only [Option.some.injEq, Prod.mk.injEq, SForm.mk.injEq, SOp.imm32.injEq, and_true]
  refine ⟨?_, ?_, ?_, ?_⟩ <;> (apply fld_of_toNat; repeat rw [toNat_cat]) <;> simp <;> omega

theorem decS_imm64 (o : BitVec 8) (sd sa r : BitVec 6) (fn : BitVec 4) (x y : Word) (t : List Word) :
    decS (o ++ sd ++ sa ++ 3#2 ++ r ++ fn) (x :: y :: t) = some (⟨sd, sa, .imm64 r fn x y⟩, 3) := by
  have h : fld (o ++ sd ++ sa ++ 3#2 ++ r ++ fn) 10 2 = 3 := by
    apply fld_of_toNat; repeat rw [toNat_cat]
    simp; omega
  unfold decS; rw [h]
  show some (SForm.mk (fld _ 18 6) (fld _ 12 6) (.imm64 (fld _ 4 6) (fld _ 0 4) _ _), 3) = _
  simp only [Option.some.injEq, Prod.mk.injEq, SForm.mk.injEq, SOp.imm64.injEq, and_true]
  refine ⟨?_, ?_, ?_, ?_⟩ <;> (apply fld_of_toNat; repeat rw [toNat_cat]) <;> simp <;> omega

/-- Format S reads back. -/
theorem decS_encS (op : Nat) (f : SForm) : ∃ w r, encS op f = w :: r ∧ opcodeOf w = op % 256 ∧
    ∀ t, decS w (r ++ t) = some (f, (encS op f).length) := by
  obtain ⟨sd, sa, o⟩ := f
  cases o with
  | reg sb fn =>
    refine ⟨_, _, rfl, ?_, fun t => decS_reg _ _ _ _ _ t⟩
    apply opcodeOf_of_toNat; repeat rw [toNat_cat]
    simp; omega
  | imm10 v =>
    refine ⟨_, _, rfl, ?_, fun t => decS_imm10 _ _ _ _ t⟩
    apply opcodeOf_of_toNat; repeat rw [toNat_cat]
    simp; omega
  | imm32 r fn x =>
    refine ⟨_, _, rfl, ?_, fun t => decS_imm32 _ _ _ _ _ _ t⟩
    apply opcodeOf_of_toNat; repeat rw [toNat_cat]
    simp; omega
  | imm64 r fn x y =>
    refine ⟨_, _, rfl, ?_, fun t => decS_imm64 _ _ _ _ _ _ _ t⟩
    apply opcodeOf_of_toNat; repeat rw [toNat_cat]
    simp; omega

/-- Format E reads back. -/
theorem decE_encE (e : EForm) : decE (encE e) = e := by
  obtain ⟨c, ty, rnd, sat, neg, ab, sr, sel⟩ := e
  simp only [decE, encE, EForm.mk.injEq]
  refine ⟨?_, ?_, ?_, ?_, ?_, ?_, ?_, ?_⟩ <;> (apply fld_of_toNat; repeat rw [toNat_cat]) <;> simp <;> omega

/-- The first word of format A reads back. -/
theorem fld_encV (o : BitVec 8) (d a b : BitVec 7) (h : BitVec 3) :
    fld (o ++ d ++ a ++ b ++ h) 17 7 = d ∧ fld (o ++ d ++ a ++ b ++ h) 10 7 = a ∧
      fld (o ++ d ++ a ++ b ++ h) 3 7 = b ∧ fld (o ++ d ++ a ++ b ++ h) 0 3 = h := by
  refine ⟨?_, ?_, ?_, ?_⟩ <;> (apply fld_of_toNat; repeat rw [toNat_cat]) <;> simp <;> omega

/-- Format A reads back where its E and immediate words stand as R83 has them. -/
theorem decV_encV (op : Nat) (always : Bool) (f : VForm) (hf : vShape always f = true) : ∃ w r, encV op f = w :: r ∧
    opcodeOf w = op % 256 ∧ ∀ t, decV always w (r ++ t) = some (f, (encV op f).length) := by
  obtain ⟨d, a, b, h, e, i⟩ := f
  obtain ⟨h1, h2, h3, h4⟩ := fld_encV (opb op) d a b h
  refine ⟨_, _, rfl, ?_, fun t => ?_⟩
  · apply opcodeOf_of_toNat; repeat rw [toNat_cat]
    simp; omega
  · simp only [vShape, Bool.and_eq_true, beq_iff_eq] at hf
    obtain ⟨he, hi⟩ := hf
    simp only [decV, h1, h2, h3, h4]
    cases e with
    | none =>
      have he := he.symm
      cases i with
      | none => have hi := hi.symm; simp_all [encV]
      | some i => have hi := hi.symm; simp_all [encV]
    | some e =>
      have he := he.symm
      cases i with
      | none => have hi := hi.symm; simp_all [encV, decE_encE]
      | some i => have hi := hi.symm; simp_all [encV, decE_encE]

/-- Format M reads back. -/
theorem decM_encM (op : Nat) (m : MForm) : ∃ w x, encM op m = [w, x] ∧ opcodeOf w = op % 256 ∧ decM w x = m := by
  obtain ⟨vd, sb, vo, is, tg, im, sc, o, po, sw, wi, rs⟩ := m
  refine ⟨_, _, rfl, ?_, ?_⟩
  · apply opcodeOf_of_toNat; repeat rw [toNat_cat]
    simp; omega
  · simp only [decM, MForm.mk.injEq]
    refine ⟨?_, ?_, ?_, ?_, ?_, ?_, ?_, ?_, ?_, ?_, ?_, ?_⟩ <;> (apply fld_of_toNat; repeat rw [toNat_cat]) <;> simp <;> omega

/-- Format P reads back. -/
theorem decP_encP (op : Nat) (p : PForm) : ∃ w, encP op p = [w] ∧ opcodeOf w = op % 256 ∧ decP w = p := by
  obtain ⟨o, m⟩ := p
  refine ⟨_, rfl, ?_, ?_⟩
  · apply opcodeOf_of_toNat; repeat rw [toNat_cat]
    simp; omega
  · simp only [decP, PForm.mk.injEq]
    refine ⟨?_, ?_⟩ <;> (apply fld_of_toNat; repeat rw [toNat_cat]) <;> simp <;> omega

/-- `mx.crew` reads back. -/
theorem decCrew_encCrew (x : CrewForm) : ∃ w y, encCrew x = [w, y] ∧ opcodeOf w = 0xA0 ∧ decCrew w y = x := by
  obtain ⟨a, b, c, d⟩ := x
  refine ⟨_, _, rfl, ?_, ?_⟩
  · apply opcodeOf_of_toNat; repeat rw [toNat_cat]
    simp; omega
  · simp only [decCrew, CrewForm.mk.injEq]
    refine ⟨?_, ?_, ?_, ?_⟩ <;> (apply fld_of_toNat; repeat rw [toNat_cat]) <;> simp <;> omega

/-- `mx.zero` reads back. -/
theorem decZero_encZero (x : ZeroForm) : ∃ w y, encZero x = [w, y] ∧ opcodeOf w = 0xA1 ∧ decZero w y = x := by
  obtain ⟨a, b, c⟩ := x
  refine ⟨_, _, rfl, ?_, ?_⟩
  · apply opcodeOf_of_toNat; repeat rw [toNat_cat]
    simp; omega
  · simp only [decZero, ZeroForm.mk.injEq]
    refine ⟨?_, ?_, trivial⟩ <;> (apply fld_of_toNat; repeat rw [toNat_cat]) <;> simp <;> omega

/-- The arithmetic matrix instructions read back. -/
theorem decMx_encMx (op : Nat) (x : MxForm) : ∃ w y z, encMx op x = [w, y, z] ∧ opcodeOf w = op % 256 ∧ decMx w y z = x := by
  obtain ⟨a1, a2, a3, a4, a5, b1, b2, b3, b4, b5, b6, b7, b8, c1, c2⟩ := x
  refine ⟨_, _, _, rfl, ?_, ?_⟩
  · apply opcodeOf_of_toNat; repeat rw [toNat_cat]
    simp; omega
  · simp only [decMx, MxForm.mk.injEq]
    refine ⟨?_, ?_, ?_, ?_, ?_, ?_, ?_, ?_, ?_, ?_, ?_, ?_, ?_, ?_, ?_⟩ <;> (apply fld_of_toNat; repeat rw [toNat_cat]) <;>
      simp <;> omega

/-- `mx.ldc` reads back with its KIND. -/
theorem decLdc_encLdc (kind : Nat) (x : LdcForm) : ∃ w y, encLdc kind x = [w, y] ∧ opcodeOf w = 0xA6 ∧
    fld w 4 2 = BitVec.ofNat 2 kind ∧ decLdc w y = x := by
  obtain ⟨a1, a2, a3, a4, a5, b1, b2, b3, b4⟩ := x
  refine ⟨_, _, rfl, ?_, ?_, ?_⟩
  · apply opcodeOf_of_toNat; repeat rw [toNat_cat]
    simp; omega
  · apply fld_of_toNat; repeat rw [toNat_cat]
    simp; omega
  · simp only [decLdc, LdcForm.mk.injEq]
    refine ⟨?_, ?_, ?_, ?_, ?_, ?_, ?_, ?_, ?_⟩ <;> (apply fld_of_toNat; repeat rw [toNat_cat]) <;> simp <;> omega

/-- `mx.stc` reads back. -/
theorem decStc_encStc (x : StcForm) : ∃ w y z, encStc x = [w, y, z] ∧ opcodeOf w = 0xA7 ∧ decStc w y z = x := by
  obtain ⟨a1, a2, a3, a4, a5, b1, b2, b3, b4, b5, b6, b7, b8, c1, c2⟩ := x
  refine ⟨_, _, _, rfl, ?_, ?_⟩
  · apply opcodeOf_of_toNat; repeat rw [toNat_cat]
    simp; omega
  · simp only [decStc, StcForm.mk.injEq]
    refine ⟨?_, ?_, ?_, ?_, ?_, ?_, ?_, ?_, ?_, ?_, ?_, ?_, ?_, ?_, ?_⟩ <;> (apply fld_of_toNat; repeat rw [toNat_cat]) <;>
      simp <;> omega

/-- `mx.stat` reads back. -/
theorem decStat_encStat (x : StatForm) : ∃ w y, encStat x = [w, y] ∧ opcodeOf w = 0xA8 ∧ decStat w y = x := by
  obtain ⟨a, b, c, d⟩ := x
  refine ⟨_, _, rfl, ?_, ?_⟩
  · apply opcodeOf_of_toNat; repeat rw [toNat_cat]
    simp; omega
  · simp only [decStat, StatForm.mk.injEq]
    refine ⟨?_, ?_, ?_, trivial⟩ <;> (apply fld_of_toNat; repeat rw [toNat_cat]) <;> simp <;> omega

/-- The copy commands, `coll.start` and `launch` read back. -/
theorem decCp_encCp (op : Nat) (x : CpForm) : ∃ w y z, encCp op x = [w, y, z] ∧ opcodeOf w = op % 256 ∧ decCp w y z = x := by
  obtain ⟨a1, a2, a3, a4, a5, a6, b1, b2, b3, b4, b5, b6, b7, c1, c2⟩ := x
  refine ⟨_, _, _, rfl, ?_, ?_⟩
  · apply opcodeOf_of_toNat; repeat rw [toNat_cat]
    simp; omega
  · simp only [decCp, CpForm.mk.injEq]
    refine ⟨?_, ?_, ?_, ?_, ?_, ?_, ?_, ?_, ?_, ?_, ?_, ?_, ?_, ?_, ?_⟩ <;> (apply fld_of_toNat; repeat rw [toNat_cat]) <;>
      simp <;> omega

/-- `cp.close`, `cp.wait` and `evt.add` read back. -/
theorem decEv_encEv (op : Nat) (x : EvForm) : ∃ w y, encEv op x = [w, y] ∧ opcodeOf w = op % 256 ∧ decEv w y = x := by
  obtain ⟨a, b, c, d, e, f⟩ := x
  refine ⟨_, _, rfl, ?_, ?_⟩
  · apply opcodeOf_of_toNat; repeat rw [toNat_cat]
    simp; omega
  · simp only [decEv, EvForm.mk.injEq]
    refine ⟨?_, ?_, ?_, ?_, ?_, ?_⟩ <;> (apply fld_of_toNat; repeat rw [toNat_cat]) <;> simp <;> omega

end Sys2Proof.Laws
end

