-- ==== Sys2Proof/Laws/Frame.lean ====
section
/-! SUPPORT. What the shared operations on a group do, and that they keep the rest (`Keeps`), for the frames of the
instructions that touch their group alone. -/

namespace Sys2Proof.Laws

open Sys2Proof.Machine

/-! ## Lists -/

theorem getD_modAt {α : Type} (xs : List α) (i j : Nat) (f : α → α) (d : α) :
    (modAt xs i f).getD j d = if j = i ∧ i < xs.length then f (xs.getD i d) else xs.getD j d := by
  unfold modAt
  cases h : xs[i]? with
  | none =>
    have := List.getElem?_eq_none_iff.mp h
    simp; omega
  | some x =>
    have hi : i < xs.length := (List.getElem?_eq_some_iff.mp h).1
    by_cases hj : j = i
    · subst hj; have e := (List.getElem?_eq_some_iff.mp h).2; simp [List.getD, hi, e]
    · simp [List.getD, hj, List.getElem?_set_ne (Ne.symm hj)]

theorem length_modAt {α : Type} (xs : List α) (i : Nat) (f : α → α) : (modAt xs i f).length = xs.length := by
  unfold modAt; split <;> simp

theorem getElem?_modAt_ne {α : Type} (xs : List α) (i j : Nat) (f : α → α) (h : j ≠ i) : (modAt xs i f)[j]? = xs[j]? := by
  unfold modAt; split
  · exact List.getElem?_set_ne (Ne.symm h)
  · rfl

/-! ## Lanes -/

/-- A changed lane, read back. -/
theorem lane_modLane (g : Group) (l i : Nat) (f : Lane → Lane) :
    (g.modLane l f).lane i = if i = l ∧ l < g.lanes.length then f (g.lane l) else g.lane i := by
  simp only [Group.modLane, Group.lane, getD_modAt]

/-! ## Keeping -/

theorem keeps_refl (a : Allow) (g : Group) : Keeps a g g :=
  { ident := rfl, sreg := fun _ _ _ => rfl, em := fun _ => rfl, flags := ⟨0, by simp⟩, sb := rfl, mxcrew := rfl,
    parts := rfl, pend := rfl, tx := rfl, mon := rfl, trap := rfl, handler := rfl, held := rfl, key := ⟨rfl, rfl, rfl⟩,
    copies := ⟨rfl, rfl, rfl, rfl, rfl, rfl⟩, arrays := ⟨rfl, rfl, rfl⟩, lanes := rfl, lpm := fun _ => rfl,
    exited := fun _ => rfl, ltx := fun _ => rfl, draw := fun _ _ => rfl, nregs := fun _ => rfl,
    vreg := fun _ _ _ => ⟨rfl, rfl⟩ }

theorem keeps_trans {a : Allow} {x y z : Group} (p : Keeps a x y) (q : Keeps a y z) : Keeps a x z where
  ident := q.ident.trans p.ident
  sreg r h1 h2 := (q.sreg r h1 h2).trans (p.sreg r h1 h2)
  em h := (q.em h).trans (p.em h)
  flags := by
    obtain ⟨f, hf⟩ := p.flags
    obtain ⟨e, he⟩ := q.flags
    exact ⟨f ||| e, by rw [he, hf, BitVec.or_assoc]; congr 1; ext i; simp; cases f[i] <;> simp⟩
  sb := q.sb.trans p.sb
  mxcrew := q.mxcrew.trans p.mxcrew
  parts := q.parts.trans p.parts
  pend := q.pend.trans p.pend
  tx := q.tx.trans p.tx
  mon := q.mon.trans p.mon
  trap := q.trap.trans p.trap
  handler := q.handler.trans p.handler
  held := q.held.trans p.held
  key := ⟨q.key.1.trans p.key.1, q.key.2.1.trans p.key.2.1, q.key.2.2.trans p.key.2.2⟩
  copies := ⟨q.copies.1.trans p.copies.1, q.copies.2.1.trans p.copies.2.1, q.copies.2.2.1.trans p.copies.2.2.1,
    q.copies.2.2.2.1.trans p.copies.2.2.2.1, q.copies.2.2.2.2.1.trans p.copies.2.2.2.2.1,
    q.copies.2.2.2.2.2.trans p.copies.2.2.2.2.2⟩
  arrays := ⟨q.arrays.1.trans p.arrays.1, q.arrays.2.1.trans p.arrays.2.1, q.arrays.2.2.trans p.arrays.2.2⟩
  lanes := q.lanes.trans p.lanes
  lpm l := (q.lpm l).trans (p.lpm l)
  exited l := (q.exited l).trans (p.exited l)
  ltx l := (q.ltx l).trans (p.ltx l)
  draw h l := (q.draw h l).trans (p.draw h l)
  nregs l := (q.nregs l).trans (p.nregs l)
  vreg l r h := ⟨(q.vreg l r h).1.trans (p.vreg l r h).1, (q.vreg l r h).2.trans (p.vreg l r h).2⟩

/-- Dropping what outstanding operations would still write keeps everything that a frame names. -/
theorem keeps_cancel (a : Allow) (g : Group) (t : Tgt) : Keeps a g (g.cancel t) ∧ (g.cancel t).gangs = g.gangs := by
  unfold Group.cancel
  split
  · exact ⟨keeps_refl a g, rfl⟩
  · refine ⟨{ keeps_refl a g with pend := ?_ }, rfl⟩
    simp [cancelOps, PendOp.overwrite]

theorem keeps_putS (a : Allow) (g : Group) (n : Nat) (m v : DWord) (h : a.sreg n) :
    Keeps a g (g.putS n m v) ∧ (g.putS n m v).gangs = g.gangs := by
  unfold Group.putS
  split
  · next h63 => subst h63; exact ⟨{ keeps_refl a g with em := fun k => absurd h k }, rfl⟩
  · refine ⟨{ keeps_refl a g with sreg := fun r _ hr => ?_ }, rfl⟩
    have : r ≠ n := fun e => hr (e ▸ h)
    simp only [getD_modAt]
    rw [if_neg (fun c => this c.1)]

/-- A scalar write keeps the rest (R30, R31). -/
theorem keeps_writeS (a : Allow) (g : Group) (gg : Gang) (n : Nat) (v : DWord) (h : a.sreg n) :
    Keeps a g (g.writeS gg n v) ∧ (g.writeS gg n v).gangs = g.gangs := by
  unfold Group.writeS
  have p := keeps_cancel a g (.sreg n (if n = 63 then zx64 gg.mask else BitVec.allOnes 64))
  have q := keeps_putS a (g.cancel (.sreg n (if n = 63 then zx64 gg.mask else BitVec.allOnes 64))) n
    (if n = 63 then zx64 gg.mask else BitVec.allOnes 64) v h
  exact ⟨keeps_trans p.1 q.1, q.2.trans p.2⟩

/-- A lane change that keeps all that a frame names keeps it for the group. -/
theorem keeps_modLane (a : Allow) (g : Group) (l : Nat) (f : Lane → Lane) (h1 : ∀ x, (f x).lpm = x.lpm)
    (h2 : ∀ x, (f x).exited = x.exited) (h3 : ∀ x, (f x).tx = x.tx) (h4 : ¬ a.draws → ∀ x, (f x).draw = x.draw)
    (h5 : ∀ x, (f x).v.length = x.v.length)
    (h6 : ∀ x r, ¬ a.vreg l r → (f x).vreg r = x.vreg r ∧ (f x).gloves[r]? = x.gloves[r]?) :
    Keeps a g (g.modLane l f) ∧ (g.modLane l f).gangs = g.gangs := by
  have e : ∀ (P : Lane → Lane → Prop) (_ : ∀ x, P (f x) x) (_ : ∀ x, P x x) i, P ((g.modLane l f).lane i) (g.lane i) := by
    intro P p q i
    rw [lane_modLane]
    split
    · next c => rw [c.1]; exact p _
    · exact q _
  refine ⟨{ keeps_refl a g with
    lanes := length_modAt _ _ _
    lpm := e (fun x y => x.lpm = y.lpm) h1 fun _ => rfl
    exited := e (fun x y => x.exited = y.exited) h2 fun _ => rfl
    ltx := e (fun x y => x.tx = y.tx) h3 fun _ => rfl
    draw := fun d => e (fun x y => x.draw = y.draw) (h4 d) fun _ => rfl
    nregs := e (fun x y => x.v.length = y.v.length) h5 fun _ => rfl
    vreg := ?_ }, rfl⟩
  intro i r hr
  rw [lane_modLane]
  split
  · next c => rw [c.1] at hr ⊢; exact h6 _ r hr
  · exact ⟨rfl, rfl⟩

theorem keeps_setLatch (a : Allow) (g : Group) (l n : Nat) (v : Word) (k : Nat) :
    Keeps a g (g.modLane l fun x => x.setLatch n v k) ∧ (g.modLane l fun x => x.setLatch n v k).gangs = g.gangs :=
  keeps_modLane a g l _ (fun _ => rfl) (fun _ => rfl) (fun _ => rfl) (fun _ _ => rfl) (fun _ => rfl) fun _ _ _ => ⟨rfl, rfl⟩

/-- A lane's register written with its glove. -/
theorem vreg_put (x : Lane) (n r : Nat) (w : Word) (gl : List Word) :
    (x.put n w gl).vreg r = if r = n ∧ n < x.v.length then w else x.vreg r := by
  simp only [Lane.put, Lane.vreg, setAt, List.getD]
  by_cases h : r = n
  · subst h
    by_cases k : r < x.v.length <;> simp [k]
  · simp [h, List.getElem?_set_ne (Ne.symm h)]

theorem keeps_writeV (a : Allow) (g : Group) (l n : Nat) (w : Word) (gl : List Word) (h : a.vreg l n) :
    Keeps a g (g.writeV l n w gl) ∧ (g.writeV l n w gl).gangs = g.gangs := by
  have p := keeps_cancel a g (.vreg l n)
  have fold : ∀ (is : List Nat) (g1 : Group),
      Keeps a g1 (is.foldl (fun g i => g.cancel (.glove l n i)) g1) ∧
        (is.foldl (fun g i => g.cancel (.glove l n i)) g1).gangs = g1.gangs := by
    intro is
    induction is with
    | nil => exact fun g1 => ⟨keeps_refl a g1, rfl⟩
    | cons i is ih =>
      intro g1
      have c := keeps_cancel a g1 (.glove l n i)
      have d := ih (g1.cancel (.glove l n i))
      exact ⟨keeps_trans c.1 d.1, d.2.trans c.2⟩
  have put : ∀ g1 : Group, Keeps a g1 (g1.modLane l fun x => x.put n w gl) ∧
      (g1.modLane l fun x => x.put n w gl).gangs = g1.gangs := fun g1 =>
    keeps_modLane a g1 l _ (fun _ => rfl) (fun _ => rfl) (fun _ => rfl) (fun _ _ => rfl)
      (fun x => by simp [Lane.put, setAt]) fun x r hr => by
        have e : r ≠ n := fun e => hr (e ▸ h)
        refine ⟨by rw [vreg_put, if_neg fun c => e c.1], ?_⟩
        simp [Lane.put, setAt, List.getElem?_set_ne (Ne.symm e)]
  unfold Group.writeV
  simp only
  split
  · have f := fold (List.range (1 + (g.cancel (.vreg l n)).ident.k)) (g.cancel (.vreg l n))
    have q := put ((List.range (1 + (g.cancel (.vreg l n)).ident.k)).foldl (fun g i => g.cancel (.glove l n i)) (g.cancel (.vreg l n)))
    exact ⟨keeps_trans (keeps_trans p.1 f.1) q.1, (q.2.trans f.2).trans p.2⟩
  · have q := put (g.cancel (.vreg l n))
    exact ⟨keeps_trans p.1 q.1, q.2.trans p.2⟩

/-- A 32-bit destination: a register with its glove, a latch, or nothing. -/
theorem keeps_putD (a : Allow) (g : Group) (d l : Nat) (w : Word) (gl : List Word) (h : d < 120 → a.vreg l d) :
    Keeps a g (g.putD d l w gl) ∧ (g.putD d l w gl).gangs = g.gangs := by
  unfold Group.putD
  split
  · next k => exact keeps_writeV a g l d w gl (h k)
  · split
    · exact keeps_setLatch a g l _ _ _
    · exact ⟨keeps_refl a g, rfl⟩

theorem keeps_putD64 (a : Allow) (g : Group) (d l : Nat) (w : DWord) (gl : List Word) (h : a.vreg l d)
    (h' : a.vreg l (d + 1)) : Keeps a g (g.putD64 d l w gl) ∧ (g.putD64 d l w gl).gangs = g.gangs := by
  unfold Group.putD64
  have p := keeps_writeV a g l d (lo32 w) gl h
  have q := keeps_writeV a (g.writeV l d (lo32 w) gl) l (d + 1) (hi32 w) (zeroGlove g.ident.k) h'
  exact ⟨keeps_trans p.1 q.1, q.2.trans p.2⟩

theorem keeps_raise (a : Allow) (g : Group) (f : Word) (h : f &&& a.flags = f) :
    Keeps a g (g.raise f) ∧ (g.raise f).gangs = g.gangs :=
  ⟨{ keeps_refl a g with flags := ⟨f, by rw [h]; rfl⟩ }, rfl⟩

/-- Steps that keep keep together. -/
theorem keeps_foldl {α : Type} (a : Allow) (f : Group → α → Group) (xs : List α)
    (h : ∀ g, ∀ x ∈ xs, Keeps a g (f g x) ∧ (f g x).gangs = g.gangs) (g : Group) :
    Keeps a g (xs.foldl f g) ∧ (xs.foldl f g).gangs = g.gangs := by
  induction xs generalizing g with
  | nil => exact ⟨keeps_refl a g, rfl⟩
  | cons x xs ih =>
    have p := h g x (List.mem_cons_self ..)
    have q := ih (fun g y hy => h g y (List.mem_cons_of_mem _ hy)) (f g x)
    exact ⟨keeps_trans p.1 q.1, q.2.trans p.2⟩

theorem keeps_modLanes_latches (a : Allow) (g : Group) (ls : List Nat) (f : Latch → Latch) :
    Keeps a g (g.modLanes ls fun x => { x with latches := x.latches.map f }) ∧
      (g.modLanes ls fun x => { x with latches := x.latches.map f }).gangs = g.gangs := by
  unfold Group.modLanes
  refine keeps_foldl a _ ls (fun g l _ => ?_) g
  exact keeps_modLane a g l (fun x => { x with latches := x.latches.map f }) (fun _ => rfl) (fun _ => rfl) (fun _ => rfl)
    (fun _ _ => rfl) (fun _ => rfl) fun _ _ _ => ⟨rfl, rfl⟩

/-- Advancing a gang keeps everything but its pc and the latches. -/
theorem aluFrame_advance {a : Allow} {g g' : Group} (gg : Gang) (n : Nat) (k : Keeps a g g' ∧ g'.gangs = g.gangs) :
    AluFrame a g gg n (g'.advance gg n) := by
  have ages : ∀ x : Group, Keeps a x (x.closeLatches gg) ∧ (x.closeLatches gg).gangs = x.gangs := fun x =>
    keeps_modLanes_latches a x gg.lanes Latch.close
  have tick : ∀ x : Group, Keeps a x (x.ageLatches gg) ∧ (x.ageLatches gg).gangs = x.gangs := fun x =>
    keeps_modLanes_latches a x gg.lanes Latch.tick
  unfold Group.advance AluFrame
  by_cases e : gg.atEnd n = true
  · have p := ages g'
    simp only [e, if_true]
    refine ⟨keeps_trans k.1 (keeps_trans p.1 { keeps_refl a _ with }), ?_⟩
    simp [Group.modGang, p.2, k.2]
  · have p := tick g'
    simp only [e]
    refine ⟨keeps_trans k.1 (keeps_trans p.1 { keeps_refl a _ with }), ?_⟩
    simp [Group.modGang, p.2, k.2]

/-! ## What is read back -/

theorem getD_s_putS (g : Group) (n : Nat) (m v : DWord) (h : n ≠ 63) :
    (g.putS n m v).s = modAt g.s n fun o => (o &&& ~~~m) ||| (v &&& m) := by
  simp [Group.putS, h]

theorem cancel_s (g : Group) (t : Tgt) : (g.cancel t).s = g.s := by unfold Group.cancel; split <;> rfl
theorem cancel_em (g : Group) (t : Tgt) : (g.cancel t).em = g.em := by unfold Group.cancel; split <;> rfl
theorem cancel_lanes (g : Group) (t : Tgt) : (g.cancel t).lanes = g.lanes := by unfold Group.cancel; split <;> rfl

/-- A scalar register written reads the value written. -/
theorem readS_writeS (g : Group) (gg : Gang) (n : Nat) (v : DWord) (h : n ≠ 63) (hn : n < g.s.length) :
    (g.writeS gg n v).s.getD n 0 = v := by
  simp only [Group.writeS, getD_s_putS _ _ _ _ h, cancel_s, getD_modAt]
  simp only [h, hn, if_false, and_true, if_true]
  have e : ~~~(BitVec.allOnes 64) = 0#64 := by decide
  rw [e, BitVec.and_zero, BitVec.zero_or, BitVec.and_allOnes]

/-- `em` written takes the bits of the gang's live lanes from the value, and keeps the others (R30). -/
theorem em_writeS (g : Group) (gg : Gang) (v : DWord) :
    (g.writeS gg 63 v).em = (g.em &&& ~~~(gg.mask &&& g.live)) ||| (lo32 v &&& (gg.mask &&& g.live)) := by
  have h : ∀ t, (g.cancel t).live = g.live := fun t => by simp [Group.live, cancel_lanes]
  have z : lo32 (zx64 gg.mask) = gg.mask := by
    simp only [lo32, zx64]
    ext i hi
    simp [BitVec.getElem_extractLsb', hi]
    exact fun _ => by omega
  simp only [Group.writeS, Group.putS, if_true, cancel_em, h, z]

/-- Advancing does not touch the scalar registers. -/
theorem s_advance (g : Group) (gg : Gang) (n : Nat) : (g.advance gg n).s = g.s ∧ (g.advance gg n).em = g.em := by
  have ml : ∀ (ls : List Nat) (f : Lane → Lane) (x : Group), (x.modLanes ls f).s = x.s ∧ (x.modLanes ls f).em = x.em := by
    intro ls f
    unfold Group.modLanes
    induction ls with
    | nil => exact fun x => ⟨rfl, rfl⟩
    | cons l ls ih => intro x; exact ih (x.modLane l f)
  unfold Group.advance
  split
  · exact ml _ _ g
  · exact ml _ _ g

/-! ## The frame of an instruction -/

theorem cxOf_s {s : State} {gid k : Nat} {c : Cx} (h : s.cxOf gid k = some c) : c.s = s := by
  unfold State.cxOf at h
  split at h
  · cases h
  · split at h
    · split at h
      · cases h; rfl
      · cases h
    · cases h

theorem cx_s {s : State} {c : Cx} (h : s.cx? = some c) : c.s = s := by
  unfold State.cx? at h
  split at h
  · cases h
  · exact cxOf_s h

/-- An instruction that touches its group alone, whose checks hold, answers the group it computes, advanced. -/
theorem local1_next {n : Nat} {s : State} {c : Cx} {f : Cx → Except Tq Group} {g : Group} (h : s.cx? = some c)
    (hg : f c = .ok g) : local1 n s f = .next (s.putGroup (g.advance c.gg n)) := by
  simp only [local1, issue, h, hg, Cx.done, cx_s h]

theorem need_true (t : Trap) : need true t = .ok () := rfl

end Sys2Proof.Laws
end

