-- ==== Sys2Proof/Laws/Mem.lean ====
section
/-! SUPPORT. Laws of memory: reading after writing, and the canonical form under every operation (log 2). -/

namespace Sys2Proof.Laws

open Sys2Proof.Machine

/-! ## One byte -/

/-- A read after a write of one byte. -/
theorem read_write {m : Mem} {lo : Nat} (h : Mem.wfFrom lo m = true) (a b : Nat) (v : Byte) :
    Mem.read (Mem.write m a v) b = if b = a then v else Mem.read m b := by
  induction m generalizing lo with
  | nil =>
    by_cases hv : v = 0
    · simp [Mem.write, Mem.read, hv]
    · by_cases hb : b = a
      · simp only [Mem.write, if_neg hv, Mem.read, hb, if_true]
      · have h3 : ¬ a = b := fun e => hb e.symm
        simp only [Mem.write, if_neg hv, Mem.read, if_neg h3, if_neg hb, ite_self]
  | cons c r ih =>
    obtain ⟨k, w⟩ := c
    simp only [Mem.wfFrom, Bool.and_eq_true, decide_eq_true_eq] at h
    have low : ∀ (q : Nat) (l : Mem), Mem.wfFrom (q + 1) l = true → ∀ x, x ≤ q → Mem.read l x = 0 := by
      intro q l hl x hx
      cases l with
      | nil => rfl
      | cons e l =>
        obtain ⟨k', w'⟩ := e
        simp only [Mem.wfFrom, Bool.and_eq_true, decide_eq_true_eq] at hl
        have h1 : ¬ k' = x := by omega
        have h2 : x < k' := by omega
        simp [Mem.read, h1, h2]
    have hr := low k r h.2
    simp only [Mem.write]
    split
    · rename_i hak
      split
      · rename_i hv
        by_cases hb : b = a
        · subst hb
          have h1 : ¬ k = b := by omega
          simp [Mem.read, hv, h1, hak]
        · simp [hb]
      · by_cases hb : b = a
        · simp [Mem.read, hb]
        · by_cases hba : b < a
          · have h1 : ¬ k = b := by omega
            have h2 : b < k := by omega
            have h3 : ¬ a = b := fun e => hb e.symm
            simp [Mem.read, hb, hba, h1, h2, h3]
          · have h3 : ¬ a = b := fun e => hb e.symm
            simp [Mem.read, hb, hba, h3]
    · split
      · rename_i hak hk
        subst hk
        split
        · rename_i hv
          by_cases hb : b = a
          · simp [hb, hv, hr a (Nat.le_refl a)]
          · by_cases hba : b < a
            · have h3 : ¬ a = b := fun e => hb e.symm
              simp [Mem.read, hb, hba, h3, hr b (by omega)]
            · have h3 : ¬ a = b := fun e => hb e.symm
              simp [Mem.read, hb, hba, h3]
        · by_cases hb : b = a
          · simp [Mem.read, hb]
          · have h3 : ¬ a = b := fun e => hb e.symm
            simp [Mem.read, hb, h3]
      · rename_i hak hk
        by_cases hb : b = k
        · have : ¬ b = a := by omega
          simp [Mem.read, hb]
          omega
        · have h3 : ¬ k = b := fun e => hb e.symm
          by_cases hbk : b < k
          · have : ¬ b = a := by omega
            simp [Mem.read, h3, hbk, this]
          · simp [Mem.read, h3, hbk, ih h.2]

/-- The canonical form from a bound stands from a lower one. -/
theorem wfFrom_le {m : Mem} {lo lo' : Nat} (h : Mem.wfFrom lo m = true) (hl : lo' ≤ lo) : Mem.wfFrom lo' m = true := by
  cases m with
  | nil => rfl
  | cons c r =>
    obtain ⟨k, w⟩ := c
    simp only [Mem.wfFrom, Bool.and_eq_true, decide_eq_true_eq] at h ⊢
    exact ⟨⟨by omega, h.1.2⟩, h.2⟩

/-- A write of a byte keeps the form. -/
theorem wfFrom_write {m : Mem} {lo : Nat} (h : Mem.wfFrom lo m = true) {a : Nat} (ha : lo ≤ a) (v : Byte) :
    Mem.wfFrom lo (Mem.write m a v) = true := by
  induction m generalizing lo with
  | nil =>
    simp only [Mem.write]
    split
    · rfl
    · rename_i hv
      simp only [Mem.wfFrom, Bool.and_eq_true, decide_eq_true_eq, bne_iff_ne]
      exact ⟨⟨ha, hv⟩, trivial⟩
  | cons c r ih =>
    obtain ⟨k, w⟩ := c
    have h' := h
    simp only [Mem.wfFrom, Bool.and_eq_true, decide_eq_true_eq, bne_iff_ne] at h
    simp only [Mem.write]
    split
    · rename_i hak
      split
      · exact h'
      · rename_i hv
        simp only [Mem.wfFrom, Bool.and_eq_true, decide_eq_true_eq, bne_iff_ne]
        exact ⟨⟨ha, hv⟩, ⟨by omega, h.1.2⟩, h.2⟩
    · split
      · rename_i hak hk
        subst hk
        split
        · exact wfFrom_le h.2 (by omega)
        · rename_i hv
          simp only [Mem.wfFrom, Bool.and_eq_true, decide_eq_true_eq, bne_iff_ne]
          exact ⟨⟨ha, hv⟩, h.2⟩
      · rename_i hak hk
        simp only [Mem.wfFrom, Bool.and_eq_true, decide_eq_true_eq, bne_iff_ne]
        exact ⟨h.1, ih h.2 (by omega)⟩

/-- Every write keeps the canonical form. -/
theorem wf_write {m : Mem} (h : Mem.wf m = true) (a : Nat) (v : Byte) : Mem.wf (Mem.write m a v) = true :=
  wfFrom_write h (Nat.zero_le a) v

/-- A filter keeps the form. -/
theorem wfFrom_filter {m : Mem} {lo : Nat} (p : Nat × Byte → Bool) (h : Mem.wfFrom lo m = true) :
    Mem.wfFrom lo (m.filter p) = true := by
  induction m generalizing lo with
  | nil => rfl
  | cons c r ih =>
    obtain ⟨k, w⟩ := c
    simp only [Mem.wfFrom, Bool.and_eq_true, decide_eq_true_eq] at h
    simp only [List.filter_cons]
    split
    · simp only [Mem.wfFrom, Bool.and_eq_true, decide_eq_true_eq]
      exact ⟨h.1, ih h.2⟩
    · exact wfFrom_le (ih h.2) (by omega)

/-- Zeroing keeps the canonical form. -/
theorem wf_zero {m : Mem} (h : Mem.wf m = true) (a n : Nat) : Mem.wf (Mem.zero m a n) = true := wfFrom_filter _ h

/-! ## Runs of bytes -/

/-- A run of writes keeps the canonical form. -/
theorem wf_writeN {m : Mem} (h : Mem.wf m = true) (a : Nat) (bs : List Byte) : Mem.wf (Mem.writeN m a bs) = true := by
  induction bs generalizing m a with
  | nil => exact h
  | cons b bs ih => exact ih (wf_write h a b) (a + 1)

/-- A read after a run of writes. -/
theorem read_writeN {m : Mem} (h : Mem.wf m = true) (a : Nat) (bs : List Byte) (b : Nat) :
    Mem.read (Mem.writeN m a bs) b = if a ≤ b ∧ b < a + bs.length then bs.getD (b - a) 0 else Mem.read m b := by
  induction bs generalizing m a with
  | nil => simp [Mem.writeN]
  | cons x bs ih =>
    simp only [Mem.writeN, ih (wf_write h a x), read_write (lo := 0) h]
    by_cases h1 : b = a
    · subst h1; simp
    · by_cases h2 : a ≤ b ∧ b < a + (x :: bs).length
      · have h3 : a + 1 ≤ b ∧ b < a + 1 + bs.length := by simp at h2; omega
        rw [if_pos h3, if_pos h2]
        have : b - a = (b - (a + 1)) + 1 := by omega
        rw [this]; simp
      · have h3 : ¬ (a + 1 ≤ b ∧ b < a + 1 + bs.length) := by simp at h2; omega
        rw [if_neg h3, if_neg h2, if_neg h1]

/-- A read after zeroing. -/
theorem read_zero {m : Mem} {lo : Nat} (h : Mem.wfFrom lo m = true) (a n b : Nat) :
    Mem.read (Mem.zero m a n) b = if a ≤ b ∧ b < a + n then 0 else Mem.read m b := by
  induction m generalizing lo with
  | nil => simp [Mem.zero, Mem.read]
  | cons c r ih =>
    obtain ⟨k, w⟩ := c
    simp only [Mem.wfFrom, Bool.and_eq_true, decide_eq_true_eq] at h
    have ih := ih h.2
    have low : ∀ x, x ≤ k → Mem.read r x = 0 := by
      intro x hx
      cases r with
      | nil => rfl
      | cons e l =>
        obtain ⟨k', w'⟩ := e
        have hl := h.2
        simp only [Mem.wfFrom, Bool.and_eq_true, decide_eq_true_eq] at hl
        have h1 : ¬ k' = x := by omega
        have h2 : x < k' := by omega
        simp [Mem.read, h1, h2]
    by_cases hk : a ≤ k ∧ k < a + n
    · have e : Mem.zero ((k, w) :: r) a n = Mem.zero r a n := by simp [Mem.zero, hk]
      rw [e, ih]
      by_cases hb : a ≤ b ∧ b < a + n
      · simp [hb]
      · simp only [if_neg hb, Mem.read]
        have h1 : ¬ k = b := fun x => hb (x ▸ hk)
        rw [if_neg h1]
        split
        · exact low b (by omega)
        · rfl
    · have e : Mem.zero ((k, w) :: r) a n = (k, w) :: Mem.zero r a n := by
        simp only [Mem.zero, List.filter_cons]
        rw [if_pos]
        simp; omega
      rw [e]
      simp only [Mem.read]
      by_cases h1 : k = b
      · subst h1; simp [hk]
      · rw [if_neg h1, if_neg h1, ih]
        by_cases h2 : b < k
        · simp [h2]
        · simp [h2]

/-- n bytes read one by one. -/
theorem getD_readN (m : Mem) (a n i : Nat) (h : i < n) : (Mem.readN m a n).getD i 0 = Mem.read m (a + i) := by
  induction n generalizing a i with
  | zero => omega
  | succ n ih =>
    cases i with
    | zero => simp [Mem.readN]
    | succ i =>
      simp only [Mem.readN, List.getD_cons_succ]
      rw [ih (a + 1) i (by omega)]
      congr 1; omega

theorem length_readN (m : Mem) (a n : Nat) : (Mem.readN m a n).length = n := by
  induction n generalizing a with
  | zero => rfl
  | succ n ih => simp [Mem.readN, ih]

theorem length_leBytes (n x : Nat) : (leBytes n x).length = n := by
  induction n generalizing x with
  | zero => rfl
  | succ n ih => simp [leBytes, ih]

/-- The bytes of a value, least significant first. -/
theorem getD_leBytes (n x i : Nat) (h : i < n) : (leBytes n x).getD i 0 = BitVec.ofNat 8 (x / 256 ^ i) := by
  induction n generalizing x i with
  | zero => omega
  | succ n ih =>
    cases i with
    | zero => simp [leBytes]
    | succ i =>
      simp only [leBytes, List.getD_cons_succ]
      rw [ih (x / 256) i (by omega), Nat.div_div_eq_div_mul, pow_succ, mul_comm (256 ^ i)]

/-! ## The state's memory -/

/-- A physical write touches memory and the monitors alone. -/
theorem mem_writePa (s : State) (pa : Nat) (bs : List Byte) : (s.writePa pa bs).mem = Mem.writeN s.mem pa bs := by
  unfold State.writePa
  split
  · rename_i h; simp at h; simp [h, Mem.writeN]
  · rfl

/-- A physical write keeps the canonical form. -/
theorem wf_writePa {s : State} (h : Mem.wf s.mem = true) (pa : Nat) (bs : List Byte) : Mem.wf (s.writePa pa bs).mem = true := by
  rw [mem_writePa]; exact wf_writeN h pa bs

end Sys2Proof.Laws
end

