-- ==== Sys2Proof/Laws/State.lean ====
section
/-! SUPPORT. One lemma for each field of the state, a group and a gang under each named update: true by unfolding, and marked for
`simp`, so that no proof unfolds a record update. Then what finding a group, a team or a die after an update gives. -/

namespace Sys2Proof.Laws

open Sys2Proof.Machine

/-! ## The state under its updates -/

@[simp] theorem cd0_modGroup (s : State) (i : Nat) (f : Machine.Group → Machine.Group) : (s.modGroup i f).cd0 = s.cd0 := rfl
@[simp] theorem cd1_modGroup (s : State) (i : Nat) (f : Machine.Group → Machine.Group) : (s.modGroup i f).cd1 = s.cd1 := rfl
@[simp] theorem mem_modGroup (s : State) (i : Nat) (f : Machine.Group → Machine.Group) : (s.modGroup i f).mem = s.mem := rfl
@[simp] theorem poison_modGroup (s : State) (i : Nat) (f : Machine.Group → Machine.Group) : (s.modGroup i f).poison = s.poison := rfl
@[simp] theorem launches_modGroup (s : State) (i : Nat) (f : Machine.Group → Machine.Group) : (s.modGroup i f).launches = s.launches := rfl
@[simp] theorem teams_modGroup (s : State) (i : Nat) (f : Machine.Group → Machine.Group) : (s.modGroup i f).teams = s.teams := rfl
@[simp] theorem crewOps_modGroup (s : State) (i : Nat) (f : Machine.Group → Machine.Group) : (s.modGroup i f).crewOps = s.crewOps := rfl
@[simp] theorem colls_modGroup (s : State) (i : Nat) (f : Machine.Group → Machine.Group) : (s.modGroup i f).colls = s.colls := rfl
@[simp] theorem collMsgs_modGroup (s : State) (i : Nat) (f : Machine.Group → Machine.Group) : (s.modGroup i f).collMsgs = s.collMsgs := rfl
@[simp] theorem wbars_modGroup (s : State) (i : Nat) (f : Machine.Group → Machine.Group) : (s.modGroup i f).wbars = s.wbars := rfl
@[simp] theorem past_modGroup (s : State) (i : Nat) (f : Machine.Group → Machine.Group) : (s.modGroup i f).past = s.past := rfl
@[simp] theorem saved_modGroup (s : State) (i : Nat) (f : Machine.Group → Machine.Group) : (s.modGroup i f).saved = s.saved := rfl
@[simp] theorem timeNs_modGroup (s : State) (i : Nat) (f : Machine.Group → Machine.Group) : (s.modGroup i f).timeNs = s.timeNs := rfl
@[simp] theorem powerLimit_modGroup (s : State) (i : Nat) (f : Machine.Group → Machine.Group) : (s.modGroup i f).powerLimit = s.powerLimit := rfl
@[simp] theorem linksDown_modGroup (s : State) (i : Nat) (f : Machine.Group → Machine.Group) : (s.modGroup i f).linksDown = s.linksDown := rfl
@[simp] theorem firmware_modGroup (s : State) (i : Nat) (f : Machine.Group → Machine.Group) : (s.modGroup i f).firmware = s.firmware := rfl
@[simp] theorem fwImage_modGroup (s : State) (i : Nat) (f : Machine.Group → Machine.Group) : (s.modGroup i f).fwImage = s.fwImage := rfl
@[simp] theorem fusedMin_modGroup (s : State) (i : Nat) (f : Machine.Group → Machine.Group) : (s.modGroup i f).fusedMin = s.fusedMin := rfl
@[simp] theorem identity_modGroup (s : State) (i : Nat) (f : Machine.Group → Machine.Group) : (s.modGroup i f).identity = s.identity := rfl
@[simp] theorem shutdown_modGroup (s : State) (i : Nat) (f : Machine.Group → Machine.Group) : (s.modGroup i f).shutdown = s.shutdown := rfl
@[simp] theorem outs_modGroup (s : State) (i : Nat) (f : Machine.Group → Machine.Group) : (s.modGroup i f).outs = s.outs := rfl
@[simp] theorem agenda_modGroup (s : State) (i : Nat) (f : Machine.Group → Machine.Group) : (s.modGroup i f).agenda = s.agenda := rfl
@[simp] theorem focus_modGroup (s : State) (i : Nat) (f : Machine.Group → Machine.Group) : (s.modGroup i f).focus = s.focus := rfl
@[simp] theorem tick_modGroup (s : State) (i : Nat) (f : Machine.Group → Machine.Group) : (s.modGroup i f).tick = s.tick := rfl
@[simp] theorem turn_modGroup (s : State) (i : Nat) (f : Machine.Group → Machine.Group) : (s.modGroup i f).turn = s.turn := rfl
@[simp] theorem nextId_modGroup (s : State) (i : Nat) (f : Machine.Group → Machine.Group) : (s.modGroup i f).nextId = s.nextId := rfl

@[simp] theorem cd0_modTeam (s : State) (i : Nat) (f : Team → Team) : (s.modTeam i f).cd0 = s.cd0 := rfl
@[simp] theorem cd1_modTeam (s : State) (i : Nat) (f : Team → Team) : (s.modTeam i f).cd1 = s.cd1 := rfl
@[simp] theorem mem_modTeam (s : State) (i : Nat) (f : Team → Team) : (s.modTeam i f).mem = s.mem := rfl
@[simp] theorem poison_modTeam (s : State) (i : Nat) (f : Team → Team) : (s.modTeam i f).poison = s.poison := rfl
@[simp] theorem launches_modTeam (s : State) (i : Nat) (f : Team → Team) : (s.modTeam i f).launches = s.launches := rfl
@[simp] theorem groups_modTeam (s : State) (i : Nat) (f : Team → Team) : (s.modTeam i f).groups = s.groups := rfl
@[simp] theorem crewOps_modTeam (s : State) (i : Nat) (f : Team → Team) : (s.modTeam i f).crewOps = s.crewOps := rfl
@[simp] theorem colls_modTeam (s : State) (i : Nat) (f : Team → Team) : (s.modTeam i f).colls = s.colls := rfl
@[simp] theorem collMsgs_modTeam (s : State) (i : Nat) (f : Team → Team) : (s.modTeam i f).collMsgs = s.collMsgs := rfl
@[simp] theorem wbars_modTeam (s : State) (i : Nat) (f : Team → Team) : (s.modTeam i f).wbars = s.wbars := rfl
@[simp] theorem past_modTeam (s : State) (i : Nat) (f : Team → Team) : (s.modTeam i f).past = s.past := rfl
@[simp] theorem saved_modTeam (s : State) (i : Nat) (f : Team → Team) : (s.modTeam i f).saved = s.saved := rfl
@[simp] theorem timeNs_modTeam (s : State) (i : Nat) (f : Team → Team) : (s.modTeam i f).timeNs = s.timeNs := rfl
@[simp] theorem powerLimit_modTeam (s : State) (i : Nat) (f : Team → Team) : (s.modTeam i f).powerLimit = s.powerLimit := rfl
@[simp] theorem linksDown_modTeam (s : State) (i : Nat) (f : Team → Team) : (s.modTeam i f).linksDown = s.linksDown := rfl
@[simp] theorem firmware_modTeam (s : State) (i : Nat) (f : Team → Team) : (s.modTeam i f).firmware = s.firmware := rfl
@[simp] theorem fwImage_modTeam (s : State) (i : Nat) (f : Team → Team) : (s.modTeam i f).fwImage = s.fwImage := rfl
@[simp] theorem fusedMin_modTeam (s : State) (i : Nat) (f : Team → Team) : (s.modTeam i f).fusedMin = s.fusedMin := rfl
@[simp] theorem identity_modTeam (s : State) (i : Nat) (f : Team → Team) : (s.modTeam i f).identity = s.identity := rfl
@[simp] theorem shutdown_modTeam (s : State) (i : Nat) (f : Team → Team) : (s.modTeam i f).shutdown = s.shutdown := rfl
@[simp] theorem outs_modTeam (s : State) (i : Nat) (f : Team → Team) : (s.modTeam i f).outs = s.outs := rfl
@[simp] theorem agenda_modTeam (s : State) (i : Nat) (f : Team → Team) : (s.modTeam i f).agenda = s.agenda := rfl
@[simp] theorem focus_modTeam (s : State) (i : Nat) (f : Team → Team) : (s.modTeam i f).focus = s.focus := rfl
@[simp] theorem tick_modTeam (s : State) (i : Nat) (f : Team → Team) : (s.modTeam i f).tick = s.tick := rfl
@[simp] theorem turn_modTeam (s : State) (i : Nat) (f : Team → Team) : (s.modTeam i f).turn = s.turn := rfl
@[simp] theorem nextId_modTeam (s : State) (i : Nat) (f : Team → Team) : (s.modTeam i f).nextId = s.nextId := rfl

@[simp] theorem cd0_modLaunch (s : State) (i : Nat) (f : Launch → Launch) : (s.modLaunch i f).cd0 = s.cd0 := rfl
@[simp] theorem cd1_modLaunch (s : State) (i : Nat) (f : Launch → Launch) : (s.modLaunch i f).cd1 = s.cd1 := rfl
@[simp] theorem mem_modLaunch (s : State) (i : Nat) (f : Launch → Launch) : (s.modLaunch i f).mem = s.mem := rfl
@[simp] theorem poison_modLaunch (s : State) (i : Nat) (f : Launch → Launch) : (s.modLaunch i f).poison = s.poison := rfl
@[simp] theorem teams_modLaunch (s : State) (i : Nat) (f : Launch → Launch) : (s.modLaunch i f).teams = s.teams := rfl
@[simp] theorem groups_modLaunch (s : State) (i : Nat) (f : Launch → Launch) : (s.modLaunch i f).groups = s.groups := rfl
@[simp] theorem crewOps_modLaunch (s : State) (i : Nat) (f : Launch → Launch) : (s.modLaunch i f).crewOps = s.crewOps := rfl
@[simp] theorem colls_modLaunch (s : State) (i : Nat) (f : Launch → Launch) : (s.modLaunch i f).colls = s.colls := rfl
@[simp] theorem collMsgs_modLaunch (s : State) (i : Nat) (f : Launch → Launch) : (s.modLaunch i f).collMsgs = s.collMsgs := rfl
@[simp] theorem wbars_modLaunch (s : State) (i : Nat) (f : Launch → Launch) : (s.modLaunch i f).wbars = s.wbars := rfl
@[simp] theorem past_modLaunch (s : State) (i : Nat) (f : Launch → Launch) : (s.modLaunch i f).past = s.past := rfl
@[simp] theorem saved_modLaunch (s : State) (i : Nat) (f : Launch → Launch) : (s.modLaunch i f).saved = s.saved := rfl
@[simp] theorem timeNs_modLaunch (s : State) (i : Nat) (f : Launch → Launch) : (s.modLaunch i f).timeNs = s.timeNs := rfl
@[simp] theorem powerLimit_modLaunch (s : State) (i : Nat) (f : Launch → Launch) : (s.modLaunch i f).powerLimit = s.powerLimit := rfl
@[simp] theorem linksDown_modLaunch (s : State) (i : Nat) (f : Launch → Launch) : (s.modLaunch i f).linksDown = s.linksDown := rfl
@[simp] theorem firmware_modLaunch (s : State) (i : Nat) (f : Launch → Launch) : (s.modLaunch i f).firmware = s.firmware := rfl
@[simp] theorem fwImage_modLaunch (s : State) (i : Nat) (f : Launch → Launch) : (s.modLaunch i f).fwImage = s.fwImage := rfl
@[simp] theorem fusedMin_modLaunch (s : State) (i : Nat) (f : Launch → Launch) : (s.modLaunch i f).fusedMin = s.fusedMin := rfl
@[simp] theorem identity_modLaunch (s : State) (i : Nat) (f : Launch → Launch) : (s.modLaunch i f).identity = s.identity := rfl
@[simp] theorem shutdown_modLaunch (s : State) (i : Nat) (f : Launch → Launch) : (s.modLaunch i f).shutdown = s.shutdown := rfl
@[simp] theorem outs_modLaunch (s : State) (i : Nat) (f : Launch → Launch) : (s.modLaunch i f).outs = s.outs := rfl
@[simp] theorem agenda_modLaunch (s : State) (i : Nat) (f : Launch → Launch) : (s.modLaunch i f).agenda = s.agenda := rfl
@[simp] theorem focus_modLaunch (s : State) (i : Nat) (f : Launch → Launch) : (s.modLaunch i f).focus = s.focus := rfl
@[simp] theorem tick_modLaunch (s : State) (i : Nat) (f : Launch → Launch) : (s.modLaunch i f).tick = s.tick := rfl
@[simp] theorem turn_modLaunch (s : State) (i : Nat) (f : Launch → Launch) : (s.modLaunch i f).turn = s.turn := rfl
@[simp] theorem nextId_modLaunch (s : State) (i : Nat) (f : Launch → Launch) : (s.modLaunch i f).nextId = s.nextId := rfl

@[simp] theorem mem_modDie (s : State) (d : DieId) (f : Die → Die) : (s.modDie d f).mem = s.mem := by cases d <;> rfl
@[simp] theorem poison_modDie (s : State) (d : DieId) (f : Die → Die) : (s.modDie d f).poison = s.poison := by cases d <;> rfl
@[simp] theorem launches_modDie (s : State) (d : DieId) (f : Die → Die) : (s.modDie d f).launches = s.launches := by cases d <;> rfl
@[simp] theorem teams_modDie (s : State) (d : DieId) (f : Die → Die) : (s.modDie d f).teams = s.teams := by cases d <;> rfl
@[simp] theorem groups_modDie (s : State) (d : DieId) (f : Die → Die) : (s.modDie d f).groups = s.groups := by cases d <;> rfl
@[simp] theorem crewOps_modDie (s : State) (d : DieId) (f : Die → Die) : (s.modDie d f).crewOps = s.crewOps := by cases d <;> rfl
@[simp] theorem colls_modDie (s : State) (d : DieId) (f : Die → Die) : (s.modDie d f).colls = s.colls := by cases d <;> rfl
@[simp] theorem collMsgs_modDie (s : State) (d : DieId) (f : Die → Die) : (s.modDie d f).collMsgs = s.collMsgs := by cases d <;> rfl
@[simp] theorem wbars_modDie (s : State) (d : DieId) (f : Die → Die) : (s.modDie d f).wbars = s.wbars := by cases d <;> rfl
@[simp] theorem past_modDie (s : State) (d : DieId) (f : Die → Die) : (s.modDie d f).past = s.past := by cases d <;> rfl
@[simp] theorem saved_modDie (s : State) (d : DieId) (f : Die → Die) : (s.modDie d f).saved = s.saved := by cases d <;> rfl
@[simp] theorem timeNs_modDie (s : State) (d : DieId) (f : Die → Die) : (s.modDie d f).timeNs = s.timeNs := by cases d <;> rfl
@[simp] theorem powerLimit_modDie (s : State) (d : DieId) (f : Die → Die) : (s.modDie d f).powerLimit = s.powerLimit := by cases d <;> rfl
@[simp] theorem linksDown_modDie (s : State) (d : DieId) (f : Die → Die) : (s.modDie d f).linksDown = s.linksDown := by cases d <;> rfl
@[simp] theorem firmware_modDie (s : State) (d : DieId) (f : Die → Die) : (s.modDie d f).firmware = s.firmware := by cases d <;> rfl
@[simp] theorem fwImage_modDie (s : State) (d : DieId) (f : Die → Die) : (s.modDie d f).fwImage = s.fwImage := by cases d <;> rfl
@[simp] theorem fusedMin_modDie (s : State) (d : DieId) (f : Die → Die) : (s.modDie d f).fusedMin = s.fusedMin := by cases d <;> rfl
@[simp] theorem identity_modDie (s : State) (d : DieId) (f : Die → Die) : (s.modDie d f).identity = s.identity := by cases d <;> rfl
@[simp] theorem shutdown_modDie (s : State) (d : DieId) (f : Die → Die) : (s.modDie d f).shutdown = s.shutdown := by cases d <;> rfl
@[simp] theorem outs_modDie (s : State) (d : DieId) (f : Die → Die) : (s.modDie d f).outs = s.outs := by cases d <;> rfl
@[simp] theorem agenda_modDie (s : State) (d : DieId) (f : Die → Die) : (s.modDie d f).agenda = s.agenda := by cases d <;> rfl
@[simp] theorem focus_modDie (s : State) (d : DieId) (f : Die → Die) : (s.modDie d f).focus = s.focus := by cases d <;> rfl
@[simp] theorem tick_modDie (s : State) (d : DieId) (f : Die → Die) : (s.modDie d f).tick = s.tick := by cases d <;> rfl
@[simp] theorem turn_modDie (s : State) (d : DieId) (f : Die → Die) : (s.modDie d f).turn = s.turn := by cases d <;> rfl
@[simp] theorem nextId_modDie (s : State) (d : DieId) (f : Die → Die) : (s.modDie d f).nextId = s.nextId := by cases d <;> rfl

/-- A die after an update of a die. -/
@[simp] theorem die_modDie (s : State) (d e : DieId) (f : Die → Die) :
    (s.modDie d f).die e = if e = d then f (s.die e) else s.die e := by cases d <;> cases e <;> rfl
@[simp] theorem die_modGroup (s : State) (i : Nat) (f : Machine.Group → Machine.Group) (d : DieId) : (s.modGroup i f).die d = s.die d := by
  cases d <;> rfl
@[simp] theorem die_modTeam (s : State) (i : Nat) (f : Team → Team) (d : DieId) : (s.modTeam i f).die d = s.die d := by cases d <;> rfl
@[simp] theorem die_modLaunch (s : State) (i : Nat) (f : Launch → Launch) (d : DieId) : (s.modLaunch i f).die d = s.die d := by
  cases d <;> rfl

/-! ## A group under its updates -/

@[simp] theorem ident_modGang (g : Machine.Group) (k : Nat) (f : Gang → Gang) : (g.modGang k f).ident = g.ident := rfl
@[simp] theorem s_modGang (g : Machine.Group) (k : Nat) (f : Gang → Gang) : (g.modGang k f).s = g.s := rfl
@[simp] theorem em_modGang (g : Machine.Group) (k : Nat) (f : Gang → Gang) : (g.modGang k f).em = g.em := rfl
@[simp] theorem flags_modGang (g : Machine.Group) (k : Nat) (f : Gang → Gang) : (g.modGang k f).flags = g.flags := rfl
@[simp] theorem sb_modGang (g : Machine.Group) (k : Nat) (f : Gang → Gang) : (g.modGang k f).sb = g.sb := rfl
@[simp] theorem mxcrew_modGang (g : Machine.Group) (k : Nat) (f : Gang → Gang) : (g.modGang k f).mxcrew = g.mxcrew := rfl
@[simp] theorem lanes_modGang (g : Machine.Group) (k : Nat) (f : Gang → Gang) : (g.modGang k f).lanes = g.lanes := rfl
@[simp] theorem parts_modGang (g : Machine.Group) (k : Nat) (f : Gang → Gang) : (g.modGang k f).parts = g.parts := rfl
@[simp] theorem pend_modGang (g : Machine.Group) (k : Nat) (f : Gang → Gang) : (g.modGang k f).pend = g.pend := rfl
@[simp] theorem tx_modGang (g : Machine.Group) (k : Nat) (f : Gang → Gang) : (g.modGang k f).tx = g.tx := rfl
@[simp] theorem mon_modGang (g : Machine.Group) (k : Nat) (f : Gang → Gang) : (g.modGang k f).mon = g.mon := rfl
@[simp] theorem trap_modGang (g : Machine.Group) (k : Nat) (f : Gang → Gang) : (g.modGang k f).trap = g.trap := rfl
@[simp] theorem handler_modGang (g : Machine.Group) (k : Nat) (f : Gang → Gang) : (g.modGang k f).handler = g.handler := rfl
@[simp] theorem held_modGang (g : Machine.Group) (k : Nat) (f : Gang → Gang) : (g.modGang k f).held = g.held := rfl
@[simp] theorem round_modGang (g : Machine.Group) (k : Nat) (f : Gang → Gang) : (g.modGang k f).round = g.round := rfl
@[simp] theorem passed_modGang (g : Machine.Group) (k : Nat) (f : Gang → Gang) : (g.modGang k f).passed = g.passed := rfl
@[simp] theorem keyq_modGang (g : Machine.Group) (k : Nat) (f : Gang → Gang) : (g.modGang k f).keyq = g.keyq := rfl
@[simp] theorem copyCount_modGang (g : Machine.Group) (k : Nat) (f : Gang → Gang) : (g.modGang k f).copyCount = g.copyCount := rfl
@[simp] theorem lastBatch_modGang (g : Machine.Group) (k : Nat) (f : Gang → Gang) : (g.modGang k f).lastBatch = g.lastBatch := rfl
@[simp] theorem batches_modGang (g : Machine.Group) (k : Nat) (f : Gang → Gang) : (g.modGang k f).batches = g.batches := rfl
@[simp] theorem cmds_modGang (g : Machine.Group) (k : Nat) (f : Gang → Gang) : (g.modGang k f).cmds = g.cmds := rfl
@[simp] theorem adds_modGang (g : Machine.Group) (k : Nat) (f : Gang → Gang) : (g.modGang k f).adds = g.adds := rfl
@[simp] theorem openFail_modGang (g : Machine.Group) (k : Nat) (f : Gang → Gang) : (g.modGang k f).openFail = g.openFail := rfl
@[simp] theorem accs_modGang (g : Machine.Group) (k : Nat) (f : Gang → Gang) : (g.modGang k f).accs = g.accs := rfl
@[simp] theorem slot_modGang (g : Machine.Group) (k : Nat) (f : Gang → Gang) : (g.modGang k f).slot = g.slot := rfl
@[simp] theorem stats_modGang (g : Machine.Group) (k : Nat) (f : Gang → Gang) : (g.modGang k f).stats = g.stats := rfl
@[simp] theorem splitStores_modGang (g : Machine.Group) (k : Nat) (f : Gang → Gang) : (g.modGang k f).splitStores = g.splitStores := rfl

@[simp] theorem ident_modLane (g : Machine.Group) (l : Nat) (f : Lane → Lane) : (g.modLane l f).ident = g.ident := rfl
@[simp] theorem s_modLane (g : Machine.Group) (l : Nat) (f : Lane → Lane) : (g.modLane l f).s = g.s := rfl
@[simp] theorem em_modLane (g : Machine.Group) (l : Nat) (f : Lane → Lane) : (g.modLane l f).em = g.em := rfl
@[simp] theorem flags_modLane (g : Machine.Group) (l : Nat) (f : Lane → Lane) : (g.modLane l f).flags = g.flags := rfl
@[simp] theorem sb_modLane (g : Machine.Group) (l : Nat) (f : Lane → Lane) : (g.modLane l f).sb = g.sb := rfl
@[simp] theorem mxcrew_modLane (g : Machine.Group) (l : Nat) (f : Lane → Lane) : (g.modLane l f).mxcrew = g.mxcrew := rfl
@[simp] theorem parts_modLane (g : Machine.Group) (l : Nat) (f : Lane → Lane) : (g.modLane l f).parts = g.parts := rfl
@[simp] theorem gangs_modLane (g : Machine.Group) (l : Nat) (f : Lane → Lane) : (g.modLane l f).gangs = g.gangs := rfl
@[simp] theorem pend_modLane (g : Machine.Group) (l : Nat) (f : Lane → Lane) : (g.modLane l f).pend = g.pend := rfl
@[simp] theorem tx_modLane (g : Machine.Group) (l : Nat) (f : Lane → Lane) : (g.modLane l f).tx = g.tx := rfl
@[simp] theorem mon_modLane (g : Machine.Group) (l : Nat) (f : Lane → Lane) : (g.modLane l f).mon = g.mon := rfl
@[simp] theorem trap_modLane (g : Machine.Group) (l : Nat) (f : Lane → Lane) : (g.modLane l f).trap = g.trap := rfl
@[simp] theorem handler_modLane (g : Machine.Group) (l : Nat) (f : Lane → Lane) : (g.modLane l f).handler = g.handler := rfl
@[simp] theorem held_modLane (g : Machine.Group) (l : Nat) (f : Lane → Lane) : (g.modLane l f).held = g.held := rfl
@[simp] theorem round_modLane (g : Machine.Group) (l : Nat) (f : Lane → Lane) : (g.modLane l f).round = g.round := rfl
@[simp] theorem passed_modLane (g : Machine.Group) (l : Nat) (f : Lane → Lane) : (g.modLane l f).passed = g.passed := rfl
@[simp] theorem keyq_modLane (g : Machine.Group) (l : Nat) (f : Lane → Lane) : (g.modLane l f).keyq = g.keyq := rfl
@[simp] theorem copyCount_modLane (g : Machine.Group) (l : Nat) (f : Lane → Lane) : (g.modLane l f).copyCount = g.copyCount := rfl
@[simp] theorem lastBatch_modLane (g : Machine.Group) (l : Nat) (f : Lane → Lane) : (g.modLane l f).lastBatch = g.lastBatch := rfl
@[simp] theorem batches_modLane (g : Machine.Group) (l : Nat) (f : Lane → Lane) : (g.modLane l f).batches = g.batches := rfl
@[simp] theorem cmds_modLane (g : Machine.Group) (l : Nat) (f : Lane → Lane) : (g.modLane l f).cmds = g.cmds := rfl
@[simp] theorem adds_modLane (g : Machine.Group) (l : Nat) (f : Lane → Lane) : (g.modLane l f).adds = g.adds := rfl
@[simp] theorem openFail_modLane (g : Machine.Group) (l : Nat) (f : Lane → Lane) : (g.modLane l f).openFail = g.openFail := rfl
@[simp] theorem accs_modLane (g : Machine.Group) (l : Nat) (f : Lane → Lane) : (g.modLane l f).accs = g.accs := rfl
@[simp] theorem slot_modLane (g : Machine.Group) (l : Nat) (f : Lane → Lane) : (g.modLane l f).slot = g.slot := rfl
@[simp] theorem stats_modLane (g : Machine.Group) (l : Nat) (f : Lane → Lane) : (g.modLane l f).stats = g.stats := rfl
@[simp] theorem splitStores_modLane (g : Machine.Group) (l : Nat) (f : Lane → Lane) : (g.modLane l f).splitStores = g.splitStores := rfl

@[simp] theorem ident_parkGang (g : Machine.Group) (x : Gang) (p : Park) : (g.parkGang x p).ident = g.ident := rfl
@[simp] theorem s_parkGang (g : Machine.Group) (x : Gang) (p : Park) : (g.parkGang x p).s = g.s := rfl
@[simp] theorem em_parkGang (g : Machine.Group) (x : Gang) (p : Park) : (g.parkGang x p).em = g.em := rfl
@[simp] theorem flags_parkGang (g : Machine.Group) (x : Gang) (p : Park) : (g.parkGang x p).flags = g.flags := rfl
@[simp] theorem sb_parkGang (g : Machine.Group) (x : Gang) (p : Park) : (g.parkGang x p).sb = g.sb := rfl
@[simp] theorem mxcrew_parkGang (g : Machine.Group) (x : Gang) (p : Park) : (g.parkGang x p).mxcrew = g.mxcrew := rfl
@[simp] theorem lanes_parkGang (g : Machine.Group) (x : Gang) (p : Park) : (g.parkGang x p).lanes = g.lanes := rfl
@[simp] theorem parts_parkGang (g : Machine.Group) (x : Gang) (p : Park) : (g.parkGang x p).parts = g.parts := rfl
@[simp] theorem pend_parkGang (g : Machine.Group) (x : Gang) (p : Park) : (g.parkGang x p).pend = g.pend := rfl
@[simp] theorem tx_parkGang (g : Machine.Group) (x : Gang) (p : Park) : (g.parkGang x p).tx = g.tx := rfl
@[simp] theorem mon_parkGang (g : Machine.Group) (x : Gang) (p : Park) : (g.parkGang x p).mon = g.mon := rfl
@[simp] theorem trap_parkGang (g : Machine.Group) (x : Gang) (p : Park) : (g.parkGang x p).trap = g.trap := rfl
@[simp] theorem handler_parkGang (g : Machine.Group) (x : Gang) (p : Park) : (g.parkGang x p).handler = g.handler := rfl
@[simp] theorem held_parkGang (g : Machine.Group) (x : Gang) (p : Park) : (g.parkGang x p).held = g.held := rfl
@[simp] theorem round_parkGang (g : Machine.Group) (x : Gang) (p : Park) : (g.parkGang x p).round = g.round := rfl
@[simp] theorem passed_parkGang (g : Machine.Group) (x : Gang) (p : Park) : (g.parkGang x p).passed = g.passed := rfl
@[simp] theorem keyq_parkGang (g : Machine.Group) (x : Gang) (p : Park) : (g.parkGang x p).keyq = g.keyq := rfl
@[simp] theorem copyCount_parkGang (g : Machine.Group) (x : Gang) (p : Park) : (g.parkGang x p).copyCount = g.copyCount := rfl
@[simp] theorem lastBatch_parkGang (g : Machine.Group) (x : Gang) (p : Park) : (g.parkGang x p).lastBatch = g.lastBatch := rfl
@[simp] theorem batches_parkGang (g : Machine.Group) (x : Gang) (p : Park) : (g.parkGang x p).batches = g.batches := rfl
@[simp] theorem cmds_parkGang (g : Machine.Group) (x : Gang) (p : Park) : (g.parkGang x p).cmds = g.cmds := rfl
@[simp] theorem adds_parkGang (g : Machine.Group) (x : Gang) (p : Park) : (g.parkGang x p).adds = g.adds := rfl
@[simp] theorem openFail_parkGang (g : Machine.Group) (x : Gang) (p : Park) : (g.parkGang x p).openFail = g.openFail := rfl
@[simp] theorem accs_parkGang (g : Machine.Group) (x : Gang) (p : Park) : (g.parkGang x p).accs = g.accs := rfl
@[simp] theorem slot_parkGang (g : Machine.Group) (x : Gang) (p : Park) : (g.parkGang x p).slot = g.slot := rfl
@[simp] theorem stats_parkGang (g : Machine.Group) (x : Gang) (p : Park) : (g.parkGang x p).stats = g.stats := rfl
@[simp] theorem splitStores_parkGang (g : Machine.Group) (x : Gang) (p : Park) : (g.parkGang x p).splitStores = g.splitStores := rfl

@[simp] theorem ident_raise (g : Machine.Group) (w : Word) : (g.raise w).ident = g.ident := rfl
@[simp] theorem s_raise (g : Machine.Group) (w : Word) : (g.raise w).s = g.s := rfl
@[simp] theorem em_raise (g : Machine.Group) (w : Word) : (g.raise w).em = g.em := rfl
@[simp] theorem sb_raise (g : Machine.Group) (w : Word) : (g.raise w).sb = g.sb := rfl
@[simp] theorem mxcrew_raise (g : Machine.Group) (w : Word) : (g.raise w).mxcrew = g.mxcrew := rfl
@[simp] theorem lanes_raise (g : Machine.Group) (w : Word) : (g.raise w).lanes = g.lanes := rfl
@[simp] theorem parts_raise (g : Machine.Group) (w : Word) : (g.raise w).parts = g.parts := rfl
@[simp] theorem gangs_raise (g : Machine.Group) (w : Word) : (g.raise w).gangs = g.gangs := rfl
@[simp] theorem pend_raise (g : Machine.Group) (w : Word) : (g.raise w).pend = g.pend := rfl
@[simp] theorem tx_raise (g : Machine.Group) (w : Word) : (g.raise w).tx = g.tx := rfl
@[simp] theorem mon_raise (g : Machine.Group) (w : Word) : (g.raise w).mon = g.mon := rfl
@[simp] theorem trap_raise (g : Machine.Group) (w : Word) : (g.raise w).trap = g.trap := rfl
@[simp] theorem handler_raise (g : Machine.Group) (w : Word) : (g.raise w).handler = g.handler := rfl
@[simp] theorem held_raise (g : Machine.Group) (w : Word) : (g.raise w).held = g.held := rfl
@[simp] theorem round_raise (g : Machine.Group) (w : Word) : (g.raise w).round = g.round := rfl
@[simp] theorem passed_raise (g : Machine.Group) (w : Word) : (g.raise w).passed = g.passed := rfl
@[simp] theorem keyq_raise (g : Machine.Group) (w : Word) : (g.raise w).keyq = g.keyq := rfl
@[simp] theorem copyCount_raise (g : Machine.Group) (w : Word) : (g.raise w).copyCount = g.copyCount := rfl
@[simp] theorem lastBatch_raise (g : Machine.Group) (w : Word) : (g.raise w).lastBatch = g.lastBatch := rfl
@[simp] theorem batches_raise (g : Machine.Group) (w : Word) : (g.raise w).batches = g.batches := rfl
@[simp] theorem cmds_raise (g : Machine.Group) (w : Word) : (g.raise w).cmds = g.cmds := rfl
@[simp] theorem adds_raise (g : Machine.Group) (w : Word) : (g.raise w).adds = g.adds := rfl
@[simp] theorem openFail_raise (g : Machine.Group) (w : Word) : (g.raise w).openFail = g.openFail := rfl
@[simp] theorem accs_raise (g : Machine.Group) (w : Word) : (g.raise w).accs = g.accs := rfl
@[simp] theorem slot_raise (g : Machine.Group) (w : Word) : (g.raise w).slot = g.slot := rfl
@[simp] theorem stats_raise (g : Machine.Group) (w : Word) : (g.raise w).stats = g.stats := rfl
@[simp] theorem splitStores_raise (g : Machine.Group) (w : Word) : (g.raise w).splitStores = g.splitStores := rfl

/-! ## A gang under its updates -/

@[simp] theorem id_advance (x : Gang) (n : Nat) : (x.advance n).id = x.id := rfl
@[simp] theorem slices_advance (x : Gang) (n : Nat) : (x.advance n).slices = x.slices := rfl
@[simp] theorem pc_advance (x : Gang) (n : Nat) : (x.advance n).pc = x.pc + dw (4 * n) := rfl
@[simp] theorem fmt_advance (x : Gang) (n : Nat) : (x.advance n).fmt = x.fmt := rfl
@[simp] theorem clause_advance (x : Gang) (n : Nat) : (x.advance n).clause = if x.atEnd n then none else x.clause := rfl
@[simp] theorem begun_advance (x : Gang) (n : Nat) : (x.advance n).begun = (x.begun && !x.atEnd n) := rfl
@[simp] theorem pfx_advance (x : Gang) (n : Nat) : (x.advance n).pfx = [] := rfl
@[simp] theorem park_advance (x : Gang) (n : Nat) : (x.advance n).park = none := rfl
@[simp] theorem split_advance (x : Gang) (n : Nat) : (x.advance n).split = x.split := rfl
@[simp] theorem op_advance (x : Gang) (n : Nat) : (x.advance n).op = none := rfl
@[simp] theorem prev_advance (x : Gang) (n : Nat) : (x.advance n).prev = if x.atEnd n then some x.hdrAddr else none := rfl
@[simp] theorem poison_advance (x : Gang) (n : Nat) : (x.advance n).poison = x.poison := rfl
@[simp] theorem parked_advance (x : Gang) (n : Nat) : (x.advance n).parked = [] := rfl
@[simp] theorem parkedOrder_advance (x : Gang) (n : Nat) : (x.advance n).parkedOrder = 0 := rfl
@[simp] theorem afresh_advance (x : Gang) (n : Nat) : (x.advance n).afresh = false := rfl
@[simp] theorem age_advance (x : Gang) (n : Nat) : (x.advance n).age = x.age := rfl
@[simp] theorem bypassed_advance (x : Gang) (n : Nat) : (x.advance n).bypassed = x.bypassed := rfl

@[simp] theorem id_goto (x : Gang) (a : DWord) : (x.goto a).id = x.id := rfl
@[simp] theorem slices_goto (x : Gang) (a : DWord) : (x.goto a).slices = x.slices := rfl
@[simp] theorem pc_goto (x : Gang) (a : DWord) : (x.goto a).pc = a := rfl
@[simp] theorem fmt_goto (x : Gang) (a : DWord) : (x.goto a).fmt = x.fmt := rfl
@[simp] theorem clause_goto (x : Gang) (a : DWord) : (x.goto a).clause = none := rfl
@[simp] theorem begun_goto (x : Gang) (a : DWord) : (x.goto a).begun = false := rfl
@[simp] theorem pfx_goto (x : Gang) (a : DWord) : (x.goto a).pfx = [] := rfl
@[simp] theorem park_goto (x : Gang) (a : DWord) : (x.goto a).park = none := rfl
@[simp] theorem split_goto (x : Gang) (a : DWord) : (x.goto a).split = x.split := rfl
@[simp] theorem op_goto (x : Gang) (a : DWord) : (x.goto a).op = none := rfl
@[simp] theorem prev_goto (x : Gang) (a : DWord) : (x.goto a).prev = none := rfl
@[simp] theorem poison_goto (x : Gang) (a : DWord) : (x.goto a).poison = x.poison := rfl
@[simp] theorem parked_goto (x : Gang) (a : DWord) : (x.goto a).parked = [] := rfl
@[simp] theorem parkedOrder_goto (x : Gang) (a : DWord) : (x.goto a).parkedOrder = 0 := rfl
@[simp] theorem afresh_goto (x : Gang) (a : DWord) : (x.goto a).afresh = false := rfl
@[simp] theorem age_goto (x : Gang) (a : DWord) : (x.goto a).age = x.age := rfl
@[simp] theorem bypassed_goto (x : Gang) (a : DWord) : (x.goto a).bypassed = x.bypassed := rfl
@[simp] theorem id_released (x : Gang) (n : Nat) : (x.released n).id = (x.advance n).id := rfl
@[simp] theorem slices_released (x : Gang) (n : Nat) : (x.released n).slices = (x.advance n).slices := rfl
@[simp] theorem fmt_released (x : Gang) (n : Nat) : (x.released n).fmt = (x.advance n).fmt := rfl
@[simp] theorem split_released (x : Gang) (n : Nat) : (x.released n).split = (x.advance n).split := rfl
@[simp] theorem op_released (x : Gang) (n : Nat) : (x.released n).op = (x.advance n).op := rfl
@[simp] theorem prev_released (x : Gang) (n : Nat) : (x.released n).prev = (x.advance n).prev := rfl
@[simp] theorem poison_released (x : Gang) (n : Nat) : (x.released n).poison = (x.advance n).poison := rfl
@[simp] theorem parked_released (x : Gang) (n : Nat) : (x.released n).parked = (x.advance n).parked := rfl
@[simp] theorem parkedOrder_released (x : Gang) (n : Nat) : (x.released n).parkedOrder = (x.advance n).parkedOrder := rfl
@[simp] theorem afresh_released (x : Gang) (n : Nat) : (x.released n).afresh = (x.advance n).afresh := rfl
@[simp] theorem age_released (x : Gang) (n : Nat) : (x.released n).age = (x.advance n).age := rfl
@[simp] theorem bypassed_released (x : Gang) (n : Nat) : (x.released n).bypassed = (x.advance n).bypassed := rfl
@[simp] theorem clause_released (x : Gang) (n : Nat) : (x.released n).clause = (x.advance n).clause := rfl
@[simp] theorem begun_released (x : Gang) (n : Nat) : (x.released n).begun = (x.advance n).begun := rfl
@[simp] theorem pfx_released (x : Gang) (n : Nat) : (x.released n).pfx = (x.advance n).pfx := rfl
@[simp] theorem pc_released (x : Gang) (n : Nat) : (x.released n).pc = (x.advance n).pc := rfl
@[simp] theorem park_released (x : Gang) (n : Nat) : (x.released n).park = if x.atEnd n then none else some .resume := rfl

/-! ## Finding after an update -/

/-- The first of a list with a number, after an update that keeps numbers. -/
theorem find_map_id {α : Type} (key : α → Nat) (f : α → α) (i k : Nat) (h : ∀ x, key (f x) = key x) (xs : List α) :
    (xs.map fun x => if key x = i then f x else x).find? (fun x => key x == k) =
      (xs.find? fun x => key x == k).map fun x => if key x = i then f x else x := by
  induction xs with
  | nil => rfl
  | cons x xs ih =>
    have e : key (if key x = i then f x else x) = key x := by split <;> simp [h]
    simp only [List.map_cons, List.find?_cons, e, ih]
    split <;> rfl

/-- A group after an update of a group that keeps numbers. -/
theorem group_modGroup (s : State) (i k : Nat) (f : Machine.Group → Machine.Group) (h : ∀ g, (f g).ident.id = g.ident.id) :
    (s.modGroup i f).group? k = (s.group? k).map fun g => if g.ident.id = i then f g else g :=
  find_map_id (fun g : Machine.Group => g.ident.id) f i k h s.groups

/-- The number of a group that was found. -/
theorem group_id {s : State} {k : Nat} {g : Machine.Group} (h : s.group? k = some g) : g.ident.id = k := by
  simpa using List.find?_some h

/-- The updated group itself. -/
theorem group_modGroup_self {s : State} {k : Nat} {g : Machine.Group} (f : Machine.Group → Machine.Group)
    (h : ∀ g, (f g).ident.id = g.ident.id) (hg : s.group? k = some g) : (s.modGroup k f).group? k = some (f g) := by
  rw [group_modGroup s k k f h, hg]; simp [group_id hg]

@[simp] theorem group_modTeam (s : State) (i k : Nat) (f : Team → Team) : (s.modTeam i f).group? k = s.group? k := rfl
@[simp] theorem group_modLaunch (s : State) (i k : Nat) (f : Launch → Launch) : (s.modLaunch i f).group? k = s.group? k := rfl
@[simp] theorem group_modDie (s : State) (d : DieId) (k : Nat) (f : Die → Die) : (s.modDie d f).group? k = s.group? k := by cases d <;> rfl
@[simp] theorem team_modGroup (s : State) (i k : Nat) (f : Machine.Group → Machine.Group) : (s.modGroup i f).team? k = s.team? k := rfl
@[simp] theorem launch_modGroup (s : State) (i k : Nat) (f : Machine.Group → Machine.Group) : (s.modGroup i f).launch? k = s.launch? k := rfl
@[simp] theorem team_modDie (s : State) (d : DieId) (k : Nat) (f : Die → Die) : (s.modDie d f).team? k = s.team? k := by cases d <;> rfl
@[simp] theorem launch_modDie (s : State) (d : DieId) (k : Nat) (f : Die → Die) : (s.modDie d f).launch? k = s.launch? k := by cases d <;> rfl

end Sys2Proof.Laws
end

