-- ==== Sys2Proof/Laws/Ops.lean ====
section
/-! SUPPORT. What each shared operation does, said once: issuing, passing an instruction, parking, taking a trap, translating,
offering a fault, and time. -/

namespace Sys2Proof.Laws

open Sys2Proof.Machine

/-! ## Issuing -/

/-- An instruction acts for the focused gang. -/
theorem issue_cx {s : State} {c : Cx} (h : s.cx? = some c) (f : Cx → Res) : issue s f = f c := by simp [issue, h]

/-- A gang's frame holds the group, the gang, the team and the launch that the state has under their numbers. -/
theorem cxOf_parts {s : State} {gid k : Nat} {c : Cx} (h : s.cxOf gid k = some c) :
    s.group? gid = some c.g ∧ c.g.ident.id = gid ∧ c.g.gang? k = some c.gg ∧ c.gg.id = k ∧ s.team? c.g.ident.team = some c.t ∧
      s.launch? c.t.launch = some c.l := by
  unfold State.cxOf at h
  split at h
  · cases h
  · rename_i g hg
    split at h
    · rename_i gg t hgg ht
      split at h
      · rename_i l hl
        cases h
        exact ⟨hg, group_id hg, hgg, by simpa using List.find?_some hgg, ht, hl⟩
      · cases h
    · cases h

/-- The focused gang's frame. -/
theorem cx_parts {s : State} {c : Cx} (h : s.cx? = some c) :
    s.focus = some (c.g.ident.id, c.gg.id) ∧ s.group? c.g.ident.id = some c.g ∧ c.g.gang? c.gg.id = some c.gg ∧
      s.team? c.g.ident.team = some c.t ∧ s.launch? c.t.launch = some c.l := by
  unfold State.cx? at h
  split at h
  · cases h
  · rename_i gid k hf
    obtain ⟨h1, h2, h3, h4, h5, h6⟩ := cxOf_parts h
    subst h2; subst h4
    exact ⟨hf, h1, h3, h5, h6⟩

/-! ## Gangs -/

/-- A gang after an update of a gang that keeps numbers. -/
theorem gang_modGang (g : Machine.Group) (i k : Nat) (f : Gang → Gang) (h : ∀ x, (f x).id = x.id) :
    (g.modGang i f).gang? k = (g.gang? k).map fun x => if x.id = i then f x else x :=
  find_map_id (fun x : Gang => x.id) f i k h g.gangs

/-- The gangs of a group under a change of its lanes. -/
theorem gangs_modLanes (g : Machine.Group) (ls : List Nat) (f : Lane → Lane) : (g.modLanes ls f).gangs = g.gangs := by
  unfold Group.modLanes
  induction ls generalizing g with
  | nil => rfl
  | cons a ls ih => simp only [List.foldl_cons]; rw [ih]; rfl

/-- The gang after its instruction. -/
theorem gang_advance {g : Machine.Group} {gg : Gang} (n : Nat) (h : g.gang? gg.id = some gg) :
    (g.advance gg n).gang? gg.id = some (gg.advance n) := by
  have e : ∀ g1 : Machine.Group, g1.gangs = g.gangs → (g1.modGang gg.id fun x => x.advance n).gang? gg.id = some (gg.advance n) := by
    intro g1 h1
    rw [gang_modGang g1 gg.id gg.id (fun x => x.advance n) (fun _ => rfl)]
    have : g1.gang? gg.id = some gg := by rw [← h]; unfold Group.gang?; rw [h1]
    simp [this]
  unfold Group.advance
  split
  · exact e _ (gangs_modLanes _ _ _)
  · exact e _ (gangs_modLanes _ _ _)

/-- Parking touches nothing but the gang's park. -/
theorem gang_parkGang {g : Machine.Group} {gg : Gang} (p : Park) (h : g.gang? gg.id = some gg) :
    (g.parkGang gg p).gang? gg.id = some { gg with park := some p } := by
  unfold Group.parkGang
  rw [gang_modGang g gg.id gg.id (fun (x : Gang) => { x with park := some p }) (fun _ => rfl), h]
  simp

/-! ## Traps -/

/-- A trap with a handler to enter, and no gang of its group held before it, enters it. -/
theorem takeTrap_enters {s : State} {gid : Nat} {g : Machine.Group} {t : Team} (gg : Gang) (i : TrapInfo) (hg : s.group? gid = some g)
    (ht : s.team? g.ident.team = some t) (hv : (s.die t.die).ctl.trapVector ≠ 0) (hh : g.handler = none) (hn : g.held = []) :
    s.takeTrap gid gg i = s.modGroup gid fun g => g.enterHandler gg (s.die t.die).ctl.trapVector i := by
  simp [State.takeTrap, State.enterTrap, hg, ht, hh, hn, Group.inHandler]
  exact fun h => absurd h hv

/-- A trap without a handler to enter, or in one, is a double trap. -/
theorem takeTrap_double {s : State} {gid : Nat} {g : Machine.Group} {t : Team} (gg : Gang) (i : TrapInfo) (hg : s.group? gid = some g)
    (ht : s.team? g.ident.team = some t) (hv : (s.die t.die).ctl.trapVector = 0 ∨ g.inHandler gg = true) :
    s.takeTrap gid gg i = s.doubleTrap gid gg i.hdr := by
  rcases hv with hv | hv <;> simp [State.takeTrap, State.enterTrap, hg, ht, hv]

/-- A trap while another gang of the group is in its handler, or waits to enter it, waits behind it. -/
theorem takeTrap_held {s : State} {gid : Nat} {g : Machine.Group} {t : Team} (gg : Gang) (i : TrapInfo)
    (hg : s.group? gid = some g) (ht : s.team? g.ident.team = some t) (hv : (s.die t.die).ctl.trapVector ≠ 0)
    (hh : g.handler.isSome = true ∨ g.held ≠ []) (hn : g.inHandler gg = false) :
    s.takeTrap gid gg i = s.modGroup gid fun g => { g.parkGang gg .held with held := g.held ++ [(gg.id, i)] } := by
  have e : (g.handler.isSome || !g.held.isEmpty) = true := by rcases hh with h | h <;> simp [h]
  simp [State.takeTrap, hg, ht, hn, e]
  exact fun h => absurd h hv

/-! ## Faults and interrupts -/

/-- An interrupt touches the die's registers, pending messages and what leaves the package. -/
theorem mem_sendMsi (s : State) (d : DieId) (v : Nat) : (s.sendMsi d v).mem = s.mem ∧ (s.sendMsi d v).groups = s.groups ∧
    (s.sendMsi d v).teams = s.teams ∧ (s.sendMsi d v).launches = s.launches ∧ (s.sendMsi d v).poison = s.poison := by
  unfold State.sendMsi
  split
  · simp
  · exact ⟨rfl, rfl, rfl, rfl, rfl⟩

theorem mem_interrupt (s : State) (d : DieId) (b : Nat) : (s.interrupt d b).mem = s.mem ∧ (s.interrupt d b).groups = s.groups ∧
    (s.interrupt d b).teams = s.teams ∧ (s.interrupt d b).launches = s.launches ∧ (s.interrupt d b).poison = s.poison := by
  unfold State.interrupt
  simp only
  split
  · have := mem_sendMsi (s.modCtl d fun c => { c with intStatus := c.intStatus ||| wd (2 ^ b) }) d (intVector b)
    simpa [State.modCtl] using this
  · simp [State.modCtl]

/-- A fault offered to the buffer touches neither memory nor groups, teams and launches. -/
theorem mem_offerFault (s : State) (d : DieId) (r : FaultRec) : (s.offerFault d r).mem = s.mem ∧ (s.offerFault d r).groups = s.groups ∧
    (s.offerFault d r).teams = s.teams ∧ (s.offerFault d r).launches = s.launches ∧ (s.offerFault d r).poison = s.poison := by
  unfold State.offerFault
  simp only
  split
  · simp
  · split
    · split
      · simpa using mem_interrupt (s.modDie d fun x => { x with faults := x.faults ++ [r] }) d 0
      · simp
    · simpa using mem_interrupt (s.modDie d fun x => { x with dropped := true }) d 1

/-! ## Time -/

/-- Time touches no group, launch or byte of memory. -/
theorem passTime_keeps (s : State) : s.passTime.mem = s.mem ∧ s.passTime.groups = s.groups ∧ s.passTime.launches = s.launches ∧
    s.passTime.poison = s.poison ∧ s.passTime.focus = s.focus ∧ s.passTime.agenda = s.agenda ∧ s.passTime.tick = s.tick + 1 :=
  ⟨rfl, rfl, rfl, rfl, rfl, rfl, rfl⟩

/-- A step whose agenda names an event is that event. -/
theorem act_event {s : State} {e : Instr} {rest : List (Option Instr)} (h : s.agenda = some e :: rest) (he : isWord e = false) :
    s.act = exec e { s with agenda := rest } := by
  simp [State.act, h, he]

end Sys2Proof.Laws
end

