-- ==== Sys2Proof/Laws/PerInstr.lean ====
section
/-! SUPPORT. Statements about every instruction, one lemma per constructor of Instr. `OpcodeDefined`: the first word of an
encoded instruction carries an opcode that the opcode table defines (R96), so no encoding falls among the reserved ones. -/

namespace Sys2Proof.Laws.OpcodeDefined

/-- R96: the opcode of the instruction's first word, where the instruction has words, is none of the reserved ones. -/
def Statement (i : Instr) : Prop := ∀ w ∈ (encode i).head?, opKind (opcodeOf w) ≠ .reserved

/-- From the opcode of the first word. -/
theorem of_opcode {l r : List Word} {w : Word} {op : Nat} (h : l = w :: r) (ho : opcodeOf w = op) (hk : opKind op ≠ .reserved) :
    ∀ x ∈ l.head?, opKind (opcodeOf x) ≠ .reserved := by
  subst h
  intro x hx
  simp only [List.head?_cons, Option.mem_def, Option.some.injEq] at hx
  subst hx
  rwa [ho]

theorem of_encS {op : Nat} (f : SForm) (hk : opKind (op % 256) ≠ .reserved) :
    ∀ x ∈ (encS op f).head?, opKind (opcodeOf x) ≠ .reserved := by
  obtain ⟨w, r, h, ho, -⟩ := decS_encS op f
  exact of_opcode h ho hk

theorem of_encV {op : Nat} (f : VForm) (hk : opKind (op % 256) ≠ .reserved) :
    ∀ x ∈ (encV op f).head?, opKind (opcodeOf x) ≠ .reserved := by
  unfold encV
  intro x hx
  simp only [List.head?_cons, Option.mem_def, Option.some.injEq] at hx
  subst hx
  refine Eq.substr (p := fun n => opKind n ≠ .reserved) (opcodeOf_of_toNat (n := op % 256) ?_) hk
  repeat rw [toNat_cat]
  simp
  omega

theorem of_encM {op : Nat} (f : MForm) (hk : opKind (op % 256) ≠ .reserved) :
    ∀ x ∈ (encM op f).head?, opKind (opcodeOf x) ≠ .reserved := by
  obtain ⟨w, r, h, ho, -⟩ := decM_encM op f
  exact of_opcode h ho hk

theorem of_encP {op : Nat} (f : PForm) (hk : opKind (op % 256) ≠ .reserved) :
    ∀ x ∈ (encP op f).head?, opKind (opcodeOf x) ≠ .reserved := by
  obtain ⟨w, h, ho, -⟩ := decP_encP op f
  exact of_opcode h ho hk

theorem of_encMx {op : Nat} (f : MxForm) (hk : opKind (op % 256) ≠ .reserved) :
    ∀ x ∈ (encMx op f).head?, opKind (opcodeOf x) ≠ .reserved := by
  obtain ⟨w, y, z, h, ho, -⟩ := decMx_encMx op f
  exact of_opcode h ho hk

theorem of_encCp {op : Nat} (f : CpForm) (hk : opKind (op % 256) ≠ .reserved) :
    ∀ x ∈ (encCp op f).head?, opKind (opcodeOf x) ≠ .reserved := by
  obtain ⟨w, y, z, h, ho, -⟩ := decCp_encCp op f
  exact of_opcode h ho hk

theorem of_encEv {op : Nat} (f : EvForm) (hk : opKind (op % 256) ≠ .reserved) :
    ∀ x ∈ (encEv op f).head?, opKind (opcodeOf x) ≠ .reserved := by
  obtain ⟨w, y, h, ho, -⟩ := decEv_encEv op f
  exact of_opcode h ho hk

theorem of_encLdc (kind : Nat) (f : LdcForm) : ∀ x ∈ (encLdc kind f).head?, opKind (opcodeOf x) ≠ .reserved := by
  obtain ⟨w, y, h, ho, -⟩ := decLdc_encLdc kind f
  exact of_opcode h ho nofun

theorem of_encCrew (f : CrewForm) : ∀ x ∈ (encCrew f).head?, opKind (opcodeOf x) ≠ .reserved := by
  obtain ⟨w, y, h, ho, -⟩ := decCrew_encCrew f
  exact of_opcode h ho nofun

theorem of_encZero (f : ZeroForm) : ∀ x ∈ (encZero f).head?, opKind (opcodeOf x) ≠ .reserved := by
  obtain ⟨w, y, h, ho, -⟩ := decZero_encZero f
  exact of_opcode h ho nofun

theorem of_encStc (f : StcForm) : ∀ x ∈ (encStc f).head?, opKind (opcodeOf x) ≠ .reserved := by
  obtain ⟨w, y, z, h, ho, -⟩ := decStc_encStc f
  exact of_opcode h ho nofun

theorem of_encStat (f : StatForm) : ∀ x ∈ (encStat f).head?, opKind (opcodeOf x) ≠ .reserved := by
  obtain ⟨w, y, h, ho, -⟩ := decStat_encStat f
  exact of_opcode h ho nofun

/-- For an instruction of one word: from the word as a number. -/
theorem of_word {w : Word} {op : Nat} (h : w.toNat / 2 ^ 24 % 2 ^ 8 = op) (hk : opKind op ≠ .reserved) :
    ∀ x ∈ [w].head?, opKind (opcodeOf x) ≠ .reserved :=
  of_opcode rfl (opcodeOf_of_toNat h) hk

/-- For an event, which has no words. -/
theorem of_event {i : Instr} (h : encode i = []) : Statement i := by
  unfold Statement; rw [h]; exact nofun

theorem nop : ∀ a0, Statement (.nop a0) := fun f => of_encS f nofun
theorem sMov : ∀ a0, Statement (.sMov a0) := fun f => of_encS f nofun
theorem sMovk : ∀ a0, Statement (.sMovk a0) := fun f => of_encS f nofun
theorem sAdd : ∀ a0, Statement (.sAdd a0) := fun f => of_encS f nofun
theorem sSub : ∀ a0, Statement (.sSub a0) := fun f => of_encS f nofun
theorem sMul : ∀ a0, Statement (.sMul a0) := fun f => of_encS f nofun
theorem sMulhu : ∀ a0, Statement (.sMulhu a0) := fun f => of_encS f nofun
theorem sMulhs : ∀ a0, Statement (.sMulhs a0) := fun f => of_encS f nofun
theorem sDivu : ∀ a0, Statement (.sDivu a0) := fun f => of_encS f nofun
theorem sDivs : ∀ a0, Statement (.sDivs a0) := fun f => of_encS f nofun
theorem sRemu : ∀ a0, Statement (.sRemu a0) := fun f => of_encS f nofun
theorem sRems : ∀ a0, Statement (.sRems a0) := fun f => of_encS f nofun
theorem sAnd : ∀ a0, Statement (.sAnd a0) := fun f => of_encS f nofun
theorem sOr : ∀ a0, Statement (.sOr a0) := fun f => of_encS f nofun
theorem sXor : ∀ a0, Statement (.sXor a0) := fun f => of_encS f nofun
theorem sAndn : ∀ a0, Statement (.sAndn a0) := fun f => of_encS f nofun
theorem sShl : ∀ a0, Statement (.sShl a0) := fun f => of_encS f nofun
theorem sShr : ∀ a0, Statement (.sShr a0) := fun f => of_encS f nofun
theorem sSar : ∀ a0, Statement (.sSar a0) := fun f => of_encS f nofun
theorem sPopc : ∀ a0, Statement (.sPopc a0) := fun f => of_encS f nofun
theorem sClz : ∀ a0, Statement (.sClz a0) := fun f => of_encS f nofun
theorem sCtz : ∀ a0, Statement (.sCtz a0) := fun f => of_encS f nofun
theorem sMins : ∀ a0, Statement (.sMins a0) := fun f => of_encS f nofun
theorem sMinu : ∀ a0, Statement (.sMinu a0) := fun f => of_encS f nofun
theorem sMaxs : ∀ a0, Statement (.sMaxs a0) := fun f => of_encS f nofun
theorem sMaxu : ∀ a0, Statement (.sMaxu a0) := fun f => of_encS f nofun
theorem sCmp : ∀ a0, Statement (.sCmp a0) := fun f => of_encS f nofun
theorem sSel : ∀ a0, Statement (.sSel a0) := fun f => of_encS f nofun
theorem sBfx : ∀ a0, Statement (.sBfx a0) := fun f => of_encS f nofun
theorem sBfi : ∀ a0, Statement (.sBfi a0) := fun f => of_encS f nofun
theorem sLea : ∀ a0, Statement (.sLea a0) := fun f => of_encS f nofun
theorem sLeaPc : ∀ a0, Statement (.sLeaPc a0) := fun f => of_encS f nofun
theorem sGetlane : ∀ a0, Statement (.sGetlane a0) := fun f => of_encS f nofun
theorem sRdsr : ∀ a0, Statement (.sRdsr a0) := fun f => of_encS f nofun
theorem sWrsr : ∀ a0, Statement (.sWrsr a0) := fun f => of_encS f nofun
theorem drawbaseWrite : ∀ a0, Statement (.drawbaseWrite a0) := fun f => of_encS f nofun
theorem sSetfmt : ∀ a0, Statement (.sSetfmt a0) := fun f => of_encS f nofun
theorem sGetfmt : ∀ a0, Statement (.sGetfmt a0) := fun f => of_encS f nofun
theorem vMov : ∀ a0, Statement (.vMov a0) := fun f => of_encV f nofun
theorem vSetlane : ∀ a0, Statement (.vSetlane a0) := fun f => of_encV f nofun
theorem vIota : ∀ a0, Statement (.vIota a0) := fun f => of_encV f nofun
theorem vAdd : ∀ a0, Statement (.vAdd a0) := fun f => of_encV f nofun
theorem vSub : ∀ a0, Statement (.vSub a0) := fun f => of_encV f nofun
theorem vMul : ∀ a0, Statement (.vMul a0) := fun f => of_encV f nofun
theorem vMulhu : ∀ a0, Statement (.vMulhu a0) := fun f => of_encV f nofun
theorem vMulhs : ∀ a0, Statement (.vMulhs a0) := fun f => of_encV f nofun
theorem vMad : ∀ a0, Statement (.vMad a0) := fun f => of_encV f nofun
theorem vAnd : ∀ a0, Statement (.vAnd a0) := fun f => of_encV f nofun
theorem vOr : ∀ a0, Statement (.vOr a0) := fun f => of_encV f nofun
theorem vXor : ∀ a0, Statement (.vXor a0) := fun f => of_encV f nofun
theorem vAndn : ∀ a0, Statement (.vAndn a0) := fun f => of_encV f nofun
theorem vShl : ∀ a0, Statement (.vShl a0) := fun f => of_encV f nofun
theorem vShr : ∀ a0, Statement (.vShr a0) := fun f => of_encV f nofun
theorem vSar : ∀ a0, Statement (.vSar a0) := fun f => of_encV f nofun
theorem vMins : ∀ a0, Statement (.vMins a0) := fun f => of_encV f nofun
theorem vMinu : ∀ a0, Statement (.vMinu a0) := fun f => of_encV f nofun
theorem vMaxs : ∀ a0, Statement (.vMaxs a0) := fun f => of_encV f nofun
theorem vMaxu : ∀ a0, Statement (.vMaxu a0) := fun f => of_encV f nofun
theorem vIcmp : ∀ a0, Statement (.vIcmp a0) := fun f => of_encV f nofun
theorem vSel : ∀ a0, Statement (.vSel a0) := fun f => of_encV f nofun
theorem vPopc : ∀ a0, Statement (.vPopc a0) := fun f => of_encV f nofun
theorem vClz : ∀ a0, Statement (.vClz a0) := fun f => of_encV f nofun
theorem vBfx : ∀ a0, Statement (.vBfx a0) := fun f => of_encV f nofun
theorem vBfi : ∀ a0, Statement (.vBfi a0) := fun f => of_encV f nofun
theorem vAdd64 : ∀ a0, Statement (.vAdd64 a0) := fun f => of_encV f nofun
theorem vSub64 : ∀ a0, Statement (.vSub64 a0) := fun f => of_encV f nofun
theorem vShfl : ∀ a0, Statement (.vShfl a0) := fun f => of_encV f nofun
theorem vShflx : ∀ a0, Statement (.vShflx a0) := fun f => of_encV f nofun
theorem vIred : ∀ a0, Statement (.vIred a0) := fun f => of_encV f nofun
theorem vIscan : ∀ a0, Statement (.vIscan a0) := fun f => of_encV f nofun
theorem vFadd : ∀ a0, Statement (.vFadd a0) := fun f => of_encV f nofun
theorem vFsub : ∀ a0, Statement (.vFsub a0) := fun f => of_encV f nofun
theorem vFmul : ∀ a0, Statement (.vFmul a0) := fun f => of_encV f nofun
theorem vFfma : ∀ a0, Statement (.vFfma a0) := fun f => of_encV f nofun
theorem vFmin : ∀ a0, Statement (.vFmin a0) := fun f => of_encV f nofun
theorem vFmax : ∀ a0, Statement (.vFmax a0) := fun f => of_encV f nofun
theorem vFdiv : ∀ a0, Statement (.vFdiv a0) := fun f => of_encV f nofun
theorem vFsqrt : ∀ a0, Statement (.vFsqrt a0) := fun f => of_encV f nofun
theorem vFrsq : ∀ a0, Statement (.vFrsq a0) := fun f => of_encV f nofun
theorem vFrcp : ∀ a0, Statement (.vFrcp a0) := fun f => of_encV f nofun
theorem vFexp2 : ∀ a0, Statement (.vFexp2 a0) := fun f => of_encV f nofun
theorem vFlog2 : ∀ a0, Statement (.vFlog2 a0) := fun f => of_encV f nofun
theorem vFsinpi : ∀ a0, Statement (.vFsinpi a0) := fun f => of_encV f nofun
theorem vFcospi : ∀ a0, Statement (.vFcospi a0) := fun f => of_encV f nofun
theorem vFtanh : ∀ a0, Statement (.vFtanh a0) := fun f => of_encV f nofun
theorem vFround : ∀ a0, Statement (.vFround a0) := fun f => of_encV f nofun
theorem vFcmp : ∀ a0, Statement (.vFcmp a0) := fun f => of_encV f nofun
theorem vFclass : ∀ a0, Statement (.vFclass a0) := fun f => of_encV f nofun
theorem vFcvt : ∀ a0, Statement (.vFcvt a0) := fun f => of_encV f nofun
theorem vCvtfi : ∀ a0, Statement (.vCvtfi a0) := fun f => of_encV f nofun
theorem vCvtif : ∀ a0, Statement (.vCvtif a0) := fun f => of_encV f nofun
theorem vQpack : ∀ a0, Statement (.vQpack a0) := fun f => of_encV f nofun
theorem vQunpack : ∀ a0, Statement (.vQunpack a0) := fun f => of_encV f nofun
theorem vMxquant : ∀ a0, Statement (.vMxquant a0) := fun f => of_encV f nofun
theorem vMxdeq : ∀ a0, Statement (.vMxdeq a0) := fun f => of_encV f nofun
theorem vFdot2 : ∀ a0, Statement (.vFdot2 a0) := fun f => of_encV f nofun
theorem vFred : ∀ a0, Statement (.vFred a0) := fun f => of_encV f nofun
theorem vFscan : ∀ a0, Statement (.vFscan a0) := fun f => of_encV f nofun
theorem vRndu : ∀ a0, Statement (.vRndu a0) := fun f => of_encV f nofun
theorem vRndn : ∀ a0, Statement (.vRndn a0) := fun f => of_encV f nofun
theorem vRndg : ∀ a0, Statement (.vRndg a0) := fun f => of_encV f nofun
theorem vArgmax : ∀ a0, Statement (.vArgmax a0) := fun f => of_encV f nofun
theorem vDvar : ∀ a0, Statement (.vDvar a0) := fun f => of_encV f nofun
theorem vDset : ∀ a0, Statement (.vDset a0) := fun f => of_encV f nofun
theorem vDgetd : ∀ a0, Statement (.vDgetd a0) := fun f => of_encV f nofun
theorem vDsetd : ∀ a0, Statement (.vDsetd a0) := fun f => of_encV f nofun
theorem vDclr : ∀ a0, Statement (.vDclr a0) := fun f => of_encV f nofun
theorem vDnoise : ∀ a0, Statement (.vDnoise a0) := fun f => of_encV f nofun
theorem vDchk : ∀ a0, Statement (.vDchk a0) := fun f => of_encV f nofun
theorem pfxDual : ∀ a0, Statement (.pfxDual a0) := fun f => of_encP f nofun
theorem pfxMom : ∀ a0, Statement (.pfxMom a0) := fun f => of_encP f nofun
theorem pfxPt : ∀ a0, Statement (.pfxPt a0) := fun f => of_encP f nofun
theorem pfxSr : ∀ a0, Statement (.pfxSr a0) := fun f => of_encP f nofun
theorem vLd : ∀ a0, Statement (.vLd a0) := fun f => of_encM f nofun
theorem vSt : ∀ a0, Statement (.vSt a0) := fun f => of_encM f nofun
theorem vLdsp : ∀ a0, Statement (.vLdsp a0) := fun f => of_encM f nofun
theorem vStsp : ∀ a0, Statement (.vStsp a0) := fun f => of_encM f nofun
theorem sLd : ∀ a0, Statement (.sLd a0) := fun f => of_encM f nofun
theorem sSt : ∀ a0, Statement (.sSt a0) := fun f => of_encM f nofun
theorem vLdl : ∀ a0, Statement (.vLdl a0) := fun f => of_encM f nofun
theorem vStl : ∀ a0, Statement (.vStl a0) := fun f => of_encM f nofun
theorem vAtom : ∀ a0, Statement (.vAtom a0) := fun f => of_encM f nofun
theorem vCas : ∀ a0, Statement (.vCas a0) := fun f => of_encM f nofun
theorem vRed : ∀ a0, Statement (.vRed a0) := fun f => of_encM f nofun
theorem sAtom : ∀ a0, Statement (.sAtom a0) := fun f => of_encM f nofun
theorem sCas : ∀ a0, Statement (.sCas a0) := fun f => of_encM f nofun
theorem chunkTake : ∀ a0, Statement (.chunkTake a0) := fun f => of_encM f nofun
theorem monArm : ∀ a0, Statement (.monArm a0) := fun f => of_encM f nofun
theorem monWait : ∀ a0, Statement (.monWait a0) := fun f => of_encM f nofun
theorem fence : ∀ a0, Statement (.fence a0) := fun f => of_encM f nofun
theorem txBegin : ∀ a0, Statement (.txBegin a0) := fun f => of_encM f nofun
theorem txEnd : ∀ a0, Statement (.txEnd a0) := fun f => of_encM f nofun
theorem txAbort : ∀ a0, Statement (.txAbort a0) := fun f => of_encM f nofun
theorem txStat : ∀ a0, Statement (.txStat a0) := fun f => of_encM f nofun
theorem keyWait : ∀ a0, Statement (.keyWait a0) := fun f => of_encM f nofun
theorem keyPass : ∀ a0, Statement (.keyPass a0) := fun f => of_encM f nofun
theorem tagSet : ∀ a0, Statement (.tagSet a0) := fun f => of_encM f nofun
theorem tagGet : ∀ a0, Statement (.tagGet a0) := fun f => of_encM f nofun
theorem tagGetWait : ∀ a0, Statement (.tagGetWait a0) := fun f => of_encM f nofun
theorem prefetch : ∀ a0, Statement (.prefetch a0) := fun f => of_encM f nofun
theorem cacheRetain : ∀ a0, Statement (.cacheRetain a0) := fun f => of_encM f nofun
theorem cacheUnpin : ∀ a0, Statement (.cacheUnpin a0) := fun f => of_encM f nofun
theorem cacheOpIfetch : ∀ a0, Statement (.cacheOpIfetch a0) := fun f => of_encM f nofun
theorem cacheOpEvl1 : ∀ a0, Statement (.cacheOpEvl1 a0) := fun f => of_encM f nofun
theorem cacheOpEvl2 : ∀ a0, Statement (.cacheOpEvl2 a0) := fun f => of_encM f nofun
theorem mxCrew : ∀ a0, Statement (.mxCrew a0) := fun f => of_encCrew f
theorem mxZero : ∀ a0, Statement (.mxZero a0) := fun f => of_encZero f
theorem mxMma : ∀ a0, Statement (.mxMma a0) := fun f => of_encMx f nofun
theorem mxMmad : ∀ a0, Statement (.mxMmad a0) := fun f => of_encMx f nofun
theorem mxMmac : ∀ a0, Statement (.mxMmac a0) := fun f => of_encMx f nofun
theorem mxMma64 : ∀ a0, Statement (.mxMma64 a0) := fun f => of_encMx f nofun
theorem mxLdc : ∀ a0, Statement (.mxLdc a0) := fun f => of_encLdc _ f
theorem mxLdcVar : ∀ a0, Statement (.mxLdcVar a0) := fun f => of_encLdc _ f
theorem mxLdcB : ∀ a0, Statement (.mxLdcB a0) := fun f => of_encLdc _ f
theorem mxLdcF64 : ∀ a0, Statement (.mxLdcF64 a0) := fun f => of_encLdc _ f
theorem mxStc : ∀ a0, Statement (.mxStc a0) := fun f => of_encStc f
theorem mxStat : ∀ a0, Statement (.mxStat a0) := fun f => of_encStat f
theorem cpLoad : ∀ a0, Statement (.cpLoad a0) := fun f => of_encCp f nofun
theorem cpStore : ∀ a0, Statement (.cpStore a0) := fun f => of_encCp f nofun
theorem cpGather : ∀ a0, Statement (.cpGather a0) := fun f => of_encCp f nofun
theorem cpXfer : ∀ a0, Statement (.cpXfer a0) := fun f => of_encCp f nofun
theorem cpFill : ∀ a0, Statement (.cpFill a0) := fun f => of_encCp f nofun
theorem collStart : ∀ a0, Statement (.collStart a0) := fun f => of_encCp f nofun
theorem launch : ∀ a0, Statement (.launch a0) := fun f => of_encCp f nofun
theorem cpClose : ∀ a0, Statement (.cpClose a0) := fun f => of_encEv f nofun
theorem cpWait : ∀ a0, Statement (.cpWait a0) := fun f => of_encEv f nofun
theorem evtAdd : ∀ a0, Statement (.evtAdd a0) := fun f => of_encEv f nofun
theorem br : ∀ a0, Statement (.br a0) := by
  intro a0
  refine of_word (op := 0xC0) ?_ nofun
  repeat rw [toNat_cat]
  simp
  omega
theorem brc : ∀ a0 a1 a2, Statement (.brc a0 a1 a2) := by
  intro a0 a1 a2
  refine of_word (op := 0xC1) ?_ nofun
  repeat rw [toNat_cat]
  simp
  omega
theorem brm : ∀ a0 a1 a2, Statement (.brm a0 a1 a2) := by
  intro a0 a1 a2
  refine of_word (op := 0xC2) ?_ nofun
  repeat rw [toNat_cat]
  simp
  omega
theorem jmp : ∀ a0 a1 a2 a3, Statement (.jmp a0 a1 a2 a3) := by
  intro a0 a1 a2 a3
  refine of_word (op := 0xC3) ?_ nofun
  repeat rw [toNat_cat]
  simp
  omega
theorem call : ∀ a0 a1, Statement (.call a0 a1) := by
  intro a0 a1
  refine of_word (op := 0xC4) ?_ nofun
  repeat rw [toNat_cat]
  simp
  omega
theorem ret : ∀ a0 a1, Statement (.ret a0 a1) := by
  intro a0 a1
  refine of_word (op := 0xC5) ?_ nofun
  repeat rw [toNat_cat]
  simp
  omega
theorem part : ∀ a0 a1 a2 a3, Statement (.part a0 a1 a2 a3) := by
  intro a0 a1 a2 a3
  refine of_word (op := 0xC6) ?_ nofun
  repeat rw [toNat_cat]
  simp
  omega
theorem regang : ∀ a0, Statement (.regang a0) := by
  intro a0
  refine of_word (op := 0xC7) ?_ nofun
  repeat rw [toNat_cat]
  simp
  omega
theorem bar : ∀ a0 a1 a2 a3, Statement (.bar a0 a1 a2 a3) := by
  intro a0 a1 a2 a3
  refine of_word (op := 0xC8) ?_ nofun
  repeat rw [toNat_cat]
  simp
  omega
theorem wbar : ∀ a0 a1 a2, Statement (.wbar a0 a1 a2) := by
  intro a0 a1 a2
  refine of_word (op := 0xC9) ?_ nofun
  repeat rw [toNat_cat]
  simp
  omega
theorem yield : ∀ a0, Statement (.yield a0) := by
  intro a0
  refine of_word (op := 0xCA) ?_ nofun
  repeat rw [toNat_cat]
  simp
  omega
theorem exit : ∀ a0, Statement (.exit a0) := by
  intro a0
  refine of_word (op := 0xCB) ?_ nofun
  repeat rw [toNat_cat]
  simp
  omega
theorem trap : ∀ a0 a1, Statement (.trap a0 a1) := by
  intro a0 a1
  refine of_word (op := 0xCC) ?_ nofun
  repeat rw [toNat_cat]
  simp
  omega
theorem brk : ∀ a0 a1, Statement (.brk a0 a1) := by
  intro a0 a1
  refine of_word (op := 0xCD) ?_ nofun
  repeat rw [toNat_cat]
  simp
  omega
theorem sysRdcr : ∀ a0 a1 a2, Statement (.sysRdcr a0 a1 a2) := by
  intro a0 a1 a2
  refine of_word (op := 0xF0) ?_ nofun
  repeat rw [toNat_cat]
  simp
  omega
theorem sysWrcr : ∀ a0 a1 a2, Statement (.sysWrcr a0 a1 a2) := by
  intro a0 a1 a2
  refine of_word (op := 0xF1) ?_ nofun
  repeat rw [toNat_cat]
  simp
  omega
theorem sysEret : ∀ a0, Statement (.sysEret a0) := by
  intro a0
  refine of_word (op := 0xF2) ?_ nofun
  repeat rw [toNat_cat]
  simp
  omega
theorem sysTlbiAll : ∀ a0 a1, Statement (.sysTlbiAll a0 a1) := by
  intro a0 a1
  refine of_word (op := 0xF3) ?_ nofun
  repeat rw [toNat_cat]
  simp
  omega
theorem sysTlbiPage : ∀ a0 a1, Statement (.sysTlbiPage a0 a1) := by
  intro a0 a1
  refine of_word (op := 0xF3) ?_ nofun
  repeat rw [toNat_cat]
  simp
  omega
theorem sysTlbiCore : ∀ a0 a1, Statement (.sysTlbiCore a0 a1) := by
  intro a0 a1
  refine of_word (op := 0xF3) ?_ nofun
  repeat rw [toNat_cat]
  simp
  omega
theorem sysReplay : ∀ a0, Statement (.sysReplay a0) := by
  intro a0
  refine of_word (op := 0xF4) ?_ nofun
  repeat rw [toNat_cat]
  simp
  omega
theorem sysFltpop : ∀ a0 a1, Statement (.sysFltpop a0 a1) := by
  intro a0 a1
  refine of_word (op := 0xF5) ?_ nofun
  repeat rw [toNat_cat]
  simp
  omega
theorem sysCtxsv : ∀ a0 a1 a2 a3, Statement (.sysCtxsv a0 a1 a2 a3) := by
  intro a0 a1 a2 a3
  refine of_word (op := 0xF6) ?_ nofun
  repeat rw [toNat_cat]
  simp
  omega
theorem sysCtxld : ∀ a0 a1 a2, Statement (.sysCtxld a0 a1 a2) := by
  intro a0 a1 a2
  refine of_word (op := 0xF7) ?_ nofun
  repeat rw [toNat_cat]
  simp
  omega
theorem sysPreempt : ∀ a0 a1 a2 a3, Statement (.sysPreempt a0 a1 a2 a3) := by
  intro a0 a1 a2 a3
  refine of_word (op := 0xF8) ?_ nofun
  repeat rw [toNat_cat]
  simp
  omega
theorem sysIpi : ∀ a0 a1, Statement (.sysIpi a0 a1) := by
  intro a0 a1
  refine of_word (op := 0xF9) ?_ nofun
  repeat rw [toNat_cat]
  simp
  omega
theorem sysHalt : ∀ a0, Statement (.sysHalt a0) := by
  intro a0
  refine of_word (op := 0xFA) ?_ nofun
  repeat rw [toNat_cat]
  simp
  omega
theorem clauseIssueSelect : ∀ a0 a1 a2, Statement (.clauseIssueSelect a0 a1 a2) := fun _ _ _ => of_event rfl
theorem clauseFetch : ∀ a0 a1, Statement (.clauseFetch a0 a1) := fun _ _ => of_event rfl
theorem longLatencyComplete : ∀ a0 a1 a2, Statement (.longLatencyComplete a0 a1 a2) := fun _ _ _ => of_event rfl
theorem faultSplitRejoin : ∀ a0 a1, Statement (.faultSplitRejoin a0 a1) := fun _ _ => of_event rfl
theorem monWaitWake : ∀ a0 a1, Statement (.monWaitWake a0 a1) := fun _ _ => of_event rfl
theorem monWaitDeadline : ∀ a0 a1, Statement (.monWaitDeadline a0 a1) := fun _ _ => of_event rfl
theorem txCommit : ∀ a0 a1, Statement (.txCommit a0 a1) := fun _ _ => of_event rfl
theorem lockGrant : ∀ a0, Statement (.lockGrant a0) := fun _ => of_event rfl
theorem keyedOpPerform : ∀ a0, Statement (.keyedOpPerform a0) := fun _ => of_event rfl
theorem keyRoundPass : ∀ a0, Statement (.keyRoundPass a0) := fun _ => of_event rfl
theorem tagWaitSatisfy : ∀ a0 a1 a2, Statement (.tagWaitSatisfy a0 a1 a2) := fun _ _ _ => of_event rfl
theorem crewOpExecute : ∀ a0, Statement (.crewOpExecute a0) := fun _ => of_event rfl
theorem copyCommandExecute : ∀ a0 a1, Statement (.copyCommandExecute a0 a1) := fun _ _ => of_event rfl
theorem batchComplete : ∀ a0, Statement (.batchComplete a0) := fun _ => of_event rfl
theorem collectiveExecute : ∀ a0, Statement (.collectiveExecute a0) := fun _ => of_event rfl
theorem collectiveMessageReceive : ∀ a0 a1 a2 a3 a4, Statement (.collectiveMessageReceive a0 a1 a2 a3 a4) := fun _ _ _ _ _ => of_event rfl
theorem collectiveRankTimeout : ∀ a0, Statement (.collectiveRankTimeout a0) := fun _ => of_event rfl
theorem peerLaunchAppend : ∀ a0, Statement (.peerLaunchAppend a0) := fun _ => of_event rfl
theorem wbarRelease : ∀ a0, Statement (.wbarRelease a0) := fun _ => of_event rfl
theorem heldGangHandlerEntry : ∀ a0, Statement (.heldGangHandlerEntry a0) := fun _ => of_event rfl
theorem poisonDelivery : ∀ a0 a1, Statement (.poisonDelivery a0 a1) := fun _ _ => of_event rfl
theorem pageWalk : ∀ a0 a1 a2 a3 a4 a5 a6, Statement (.pageWalk a0 a1 a2 a3 a4 a5 a6) := fun _ _ _ _ _ _ _ => of_event rfl
theorem faultReplay : ∀ a0 a1 a2, Statement (.faultReplay a0 a1 a2) := fun _ _ _ => of_event rfl
theorem interruptStatusWrite : ∀ a0 a1 a2, Statement (.interruptStatusWrite a0 a1 a2) := fun _ _ _ => of_event rfl
theorem interruptEnableWrite : ∀ a0 a1 a2, Statement (.interruptEnableWrite a0 a1 a2) := fun _ _ _ => of_event rfl
theorem faultBufferStatusWrite : ∀ a0 a1 a2, Statement (.faultBufferStatusWrite a0 a1 a2) := fun _ _ _ => of_event rfl
theorem dspadGrantWrite : ∀ a0 a1 a2 a3, Statement (.dspadGrantWrite a0 a1 a2 a3) := fun _ _ _ _ => of_event rfl
theorem launchAnchorWrite : ∀ a0 a1 a2 a3, Statement (.launchAnchorWrite a0 a1 a2 a3) := fun _ _ _ _ => of_event rfl
theorem wbarMemberWrite : ∀ a0 a1 a2 a3, Statement (.wbarMemberWrite a0 a1 a2 a3) := fun _ _ _ _ => of_event rfl
theorem wbarBindWrite : ∀ a0 a1 a2 a3, Statement (.wbarBindWrite a0 a1 a2 a3) := fun _ _ _ _ => of_event rfl
theorem powerLimitWrite : ∀ a0 a1 a2, Statement (.powerLimitWrite a0 a1 a2) := fun _ _ _ => of_event rfl
theorem freqReq : ∀ a0 a1 a2, Statement (.freqReq a0 a1 a2) := fun _ _ _ => of_event rfl
theorem linkReq : ∀ a0 a1 a2, Statement (.linkReq a0 a1 a2) := fun _ _ _ => of_event rfl
theorem powerRequestComplete : ∀ a0, Statement (.powerRequestComplete a0) := fun _ => of_event rfl
theorem controlRegisterWrite : ∀ a0 a1 a2 a3, Statement (.controlRegisterWrite a0 a1 a2 a3) := fun _ _ _ _ => of_event rfl
theorem listWatchWake : ∀ a0 a1, Statement (.listWatchWake a0 a1) := fun _ _ => of_event rfl
theorem recordTake : ∀ a0 a1, Statement (.recordTake a0 a1) := fun _ _ => of_event rfl
theorem conditionTest : ∀ a0, Statement (.conditionTest a0) := fun _ => of_event rfl
theorem conditionPoll : ∀ a0, Statement (.conditionPoll a0) := fun _ => of_event rfl
theorem teamDispatch : ∀ a0, Statement (.teamDispatch a0) := fun _ => of_event rfl
theorem dispatchWaitTimeout : ∀ a0, Statement (.dispatchWaitTimeout a0) := fun _ => of_event rfl
theorem islandPowerUp : ∀ a0 a1, Statement (.islandPowerUp a0 a1) := fun _ _ => of_event rfl
theorem launchComplete : ∀ a0, Statement (.launchComplete a0) := fun _ => of_event rfl
theorem preemptDrainDeadline : ∀ a0, Statement (.preemptDrainDeadline a0) := fun _ => of_event rfl
theorem preemptDiscard : ∀ a0, Statement (.preemptDiscard a0) := fun _ => of_event rfl
theorem preemptSave : ∀ a0, Statement (.preemptSave a0) := fun _ => of_event rfl
theorem linkDown : ∀ a0, Statement (.linkDown a0) := fun _ => of_event rfl
theorem linkUp : ∀ a0, Statement (.linkUp a0) := fun _ => of_event rfl
theorem flitRetry : ∀ a0, Statement (.flitRetry a0) := fun _ => of_event rfl
theorem thermalLimitCrossing : ∀ a0 a1, Statement (.thermalLimitCrossing a0 a1) := fun _ _ => of_event rfl
theorem powerClockAdjust : ∀ a0 a1, Statement (.powerClockAdjust a0 a1) := fun _ _ => of_event rfl
theorem telemetryUpdate : ∀ a0, Statement (.telemetryUpdate a0) := fun _ => of_event rfl
theorem patrolScrub : ∀ a0 a1, Statement (.patrolScrub a0 a1) := fun _ _ => of_event rfl
theorem wearRemap : ∀ a0 a1, Statement (.wearRemap a0 a1) := fun _ _ => of_event rfl
theorem uncorrectableError : ∀ a0 a1, Statement (.uncorrectableError a0 a1) := fun _ _ => of_event rfl
theorem correctableError : ∀ a0 a1, Statement (.correctableError a0 a1) := fun _ _ => of_event rfl
theorem functionReset : ∀ a0 a1 a2, Statement (.functionReset a0 a1 a2) := fun _ _ _ => of_event rfl
theorem firmwareImageVerify : ∀ a0 a1, Statement (.firmwareImageVerify a0 a1) := fun _ _ => of_event rfl
theorem spdmRequest : ∀ a0 a1, Statement (.spdmRequest a0 a1) := fun _ _ => of_event rfl
theorem contextKeySlotUpdate : ∀ a0 a1 a2, Statement (.contextKeySlotUpdate a0 a1 a2) := fun _ _ _ => of_event rfl
theorem tdispStateChange : ∀ a0 a1, Statement (.tdispStateChange a0 a1) := fun _ _ => of_event rfl
theorem bar2Access : ∀ a0 a1 a2 a3, Statement (.bar2Access a0 a1 a2 a3) := fun _ _ _ _ => of_event rfl
theorem remoteMemoryRequest : ∀ a0 a1, Statement (.remoteMemoryRequest a0 a1) := fun _ _ => of_event rfl
theorem packagePowerOnReset : Statement (.packagePowerOnReset) := of_event rfl
theorem cxlMemRequest : ∀ a0 a1 a2, Statement (.cxlMemRequest a0 a1 a2) := fun _ _ _ => of_event rfl
theorem cxlCacheSnoop : ∀ a0 a1, Statement (.cxlCacheSnoop a0 a1) := fun _ _ => of_event rfl

end Sys2Proof.Laws.OpcodeDefined
end

