-- ==== Sys2Proof/Laws/Vector.lean ====
section
/-! SUPPORT. Lanes under the writes of a vector instruction, and what the shared shape of the integer vector instructions does. -/

namespace Sys2Proof.Laws

open Sys2Proof.Machine

/-- Cancelling outstanding writes leaves every lane. -/
theorem lane_cancel (g : Machine.Group) (t : Tgt) (l : Nat) : (g.cancel t).lane l = g.lane l := by simp [Group.lane, cancel_lanes]
/-- A lane after a vector write. -/
theorem writeV_lane (g : Machine.Group) (l n : Nat) (w gl) (i : Nat) :
    (g.writeV l n w gl).lane i = if i = l ∧ l < g.lanes.length then (g.lane l).put n w gl else g.lane i := by
  have fold : ∀ (is : List Nat) (g1 : Machine.Group), (is.foldl (fun g i => g.cancel (.glove l n i)) g1).lanes = g1.lanes := by
    intro is; induction is with
    | nil => intro; rfl
    | cons a as ih => intro g1; simp [ih, cancel_lanes]
  unfold Group.writeV
  simp only [lane_modLane]
  split <;> simp [Group.lane, fold, cancel_lanes]

/-- A lane after a write of a destination. -/
theorem putD_lane (g : Machine.Group) (d l : Nat) (w gl) (i : Nat) (hd : d < 120) :
    (g.putD d l w gl).lane i = if i = l ∧ l < g.lanes.length then (g.lane l).put d w gl else g.lane i := by
  simp [Group.putD, hd, writeV_lane]

/-- A fold over lanes, each step of which writes register d of its own lane. -/
theorem foldl_vreg (f : Machine.Group → Nat → Machine.Group) (d : Nat) (v : Nat → Word)
   (hk : ∀ g l, ∀ i, i ≠ l → (f g l).lane i = g.lane i) (hl : ∀ g l, (f g l).lanes.length = g.lanes.length)
   (hn : ∀ g l i, ((f g l).lane i).v.length = (g.lane i).v.length)
   (hv : ∀ g l, l < g.lanes.length → d < (g.lane l).v.length → ((f g l).lane l).vreg d = v l) :
   ∀ (ls : List Nat), ls.Nodup → ∀ (g : Machine.Group), ∀ l ∈ ls, l < g.lanes.length → d < (g.lane l).v.length → ((ls.foldl f g).lane l).vreg d = v l := by
  have rest : ∀ (ls : List Nat) (g : Machine.Group) l, l ∉ ls → (ls.foldl f g).lane l = g.lane l := by
    intro ls; induction ls with
    | nil => intros; rfl
    | cons a as ih => intro g l h; simp only [List.mem_cons, not_or] at h; simp only [List.foldl_cons]; rw [ih _ _ h.2, hk _ _ _ h.1]
  intro ls; induction ls with
  | nil => intro _ g l h; simp at h
  | cons a as ih =>
    intro nd g l h h1 h2
    simp only [List.foldl_cons]
    rw [List.nodup_cons] at nd
    rcases List.mem_cons.mp h with rfl | h
    · rw [rest _ _ _ nd.1]; exact hv _ _ h1 h2
    · exact ih nd.2 _ _ h (by rw [hl]; exact h1) (by rw [hn]; exact h2)

/-- The lanes of a mask are listed once. -/
theorem lanesOf_nodup (w m) : (lanesOf w m).Nodup := (List.nodup_range).filter _
/-- An active lane is a lane of the group. -/
theorem active_lt (c : Cx) (l) (h : l ∈ c.lanes) : l < c.g.lanes.length := by
  have lb : ∀ (ls : List Lane) (i k), (liveBits ls i).getLsbD k = true → k < i + ls.length := by
    intro ls; induction ls with
    | nil => intro i k h; simp [liveBits] at h
    | cons a as ih =>
      intro i k h
      simp only [liveBits, BitVec.getLsbD_or, Bool.or_eq_true] at h
      rcases h with h | h
      · split at h
        · simp at h
        · have : k = i := by
            by_contra hne
            rw [wd, BitVec.getLsbD_ofNat, Bool.and_eq_true, Nat.testBit_two_pow, decide_eq_true_eq] at h
            exact hne (of_decide_eq_true h.2).symm
          simp [this]
      · have := ih _ _ h; simp; omega
  simp only [Cx.lanes, Group.activeLanes, lanesOf, List.mem_filter, Group.active, Group.emRead, Group.live, BitVec.getLsbD_and, Bool.and_eq_true] at h
  have := lb _ _ _ h.2.1.2
  simpa using this

/-- Holding operands changes latches alone. -/
theorem keeps_hold (a) (c : Cx) (f : VForm) (g) : Keeps a g (c.hold f g) ∧ (c.hold f g).gangs = g.gangs := by
  unfold Cx.hold; simp only; split
  · exact ⟨keeps_refl _ _, rfl⟩
  · exact keeps_foldl a _ _ (fun g l _ => keeps_setLatch a g l _ _ _) g

/-- Advancing leaves every vector register. -/
theorem lane_advance (g : Machine.Group) (gg : Gang) (n : Nat) (l : Nat) : ((g.advance gg n).lane l).v = (g.lane l).v := by
  have ml : ∀ (f : Latch → Latch) (ls : List Nat) (x : Machine.Group), ((x.modLanes ls fun x => { x with latches := x.latches.map f }).lane l).v = (x.lane l).v := by
    intro f ls
    unfold Group.modLanes
    induction ls with
    | nil => exact fun x => rfl
    | cons a ls ih => intro x; simp only [List.foldl_cons]; rw [ih, lane_modLane]; split <;> simp_all
  unfold Group.advance; split
  · exact ml _ _ g
  · exact ml _ _ g

/-- The integer vector instructions of one shape: under their checks they answer a next state in which the group has the results in
register D of the active lanes, and nothing else of it has changed. -/
theorem vIntN_next {s : State} {c : Cx} {f : VForm} {sp : VSpec} {res : Cx → Nat → Word} (h : s.cx? = some c)
    (hc : c.vCheck sp f = .ok ()) : GroupStep s (fun g' =>
      AluFrame (onlyV c.lanes f.d.toNat false 0 False) c.g c.gg (vLen f) g' ∧
      ∀ l ∈ c.lanes, f.d.toNat < (c.g.lane l).v.length → f.d.toNat < 120 → (g'.lane l).vreg f.d.toNat = res c l) (vIntN sp f s res) := by
  unfold vIntN
  let put (g : Machine.Group) (l : Nat) : Machine.Group := g.putD f.d.toNat l (res c l) (zeroGlove c.g.ident.k)
  have hb : (do c.vCheck sp f; pure (c.lanes.foldl put (c.hold f c.g)) : Except Tq Machine.Group) = .ok (c.lanes.foldl put (c.hold f c.g)) := by
    rw [hc]; rfl
  refine ⟨_, local1_next (f := fun c => do
    c.vCheck sp f
    pure (c.lanes.foldl (fun g l => g.putD f.d.toNat l (res c l) (zeroGlove c.g.ident.k)) (c.hold f c.g))) h hb,
    aluFrame_advance _ _ ?_, ?_⟩
  · have p := keeps_hold (onlyV c.lanes f.d.toNat false 0 False) c f c.g
    have q := keeps_foldl (onlyV c.lanes f.d.toNat false 0 False) put c.lanes
      (fun g l hl => keeps_putD _ g _ _ _ _ (fun _ => ⟨hl, Or.inl (by trivial)⟩)) (c.hold f c.g)
    exact ⟨keeps_trans p.1 q.1, q.2.trans p.2⟩
  · intro l hl h1 h2
    have p := keeps_hold (onlyV c.lanes f.d.toNat false 0 False) c f c.g
    have := foldl_vreg put f.d.toNat (res c)
      (by intro g l i hi; simp only [put, putD_lane _ _ _ _ _ _ h2]; rw [if_neg (fun c => hi c.1)])
      (by intro g l; exact (keeps_putD ⟨fun _ => True, fun _ _ => True, 0, True⟩ g _ _ _ _ (fun _ => trivial)).1.lanes)
      (by intro g l i; exact (keeps_putD ⟨fun _ => True, fun _ _ => True, 0, True⟩ g _ _ _ _ (fun _ => trivial)).1.nregs i)
      (by intro g l h3 h4; simp only [put, putD_lane _ _ _ _ _ _ h2]; simp [h3, vreg_put, h4])
      c.lanes (lanesOf_nodup _ _) (c.hold f c.g) l hl (by rw [p.1.lanes]; exact active_lt _ _ hl) (by rw [p.1.nregs]; exact h1)
    simp only [Lane.vreg, lane_advance]
    exact this

end Sys2Proof.Laws
end

