-- ==== Sys2Proof/Laws/Walk.lean ====
section
/-! SUPPORT. What a walk, a backing and a translation leave of the machine: its teams, its launches and its saved contexts. -/

namespace Sys2Proof.Laws

open Sys2Proof.Machine

/-- The teams, the launches and the saved contexts of t are those of s. -/
def SamePeople (s t : State) : Prop := t.saved = s.saved ∧ t.teams = s.teams ∧ t.launches = s.launches

theorem samePeople_refl (s : State) : SamePeople s s := ⟨rfl, rfl, rfl⟩

theorem samePeople_trans {s t u : State} (h : SamePeople s t) (k : SamePeople t u) : SamePeople s u :=
  ⟨k.1.trans h.1, k.2.1.trans h.2.1, k.2.2.trans h.2.2⟩

theorem samePeople_modDie (s : State) (d : DieId) (f : Die → Die) : SamePeople s (s.modDie d f) := by
  cases d <;> exact ⟨rfl, rfl, rfl⟩

theorem samePeople_interrupt (s : State) (d : DieId) (b : Nat) : SamePeople s (s.interrupt d b) := by
  have send (s : State) (v : Nat) : SamePeople s (s.sendMsi d v) := by
    unfold State.sendMsi
    split
    · exact samePeople_modDie s d _
    · exact samePeople_refl s
  unfold State.interrupt
  simp only
  split
  · exact samePeople_trans (samePeople_modDie s d _) (send _ _)
  · exact samePeople_modDie s d _

theorem samePeople_writePa (s : State) (pa : Nat) (bs : List Byte) : SamePeople s (s.writePa pa bs) := by
  unfold State.writePa
  split <;> exact ⟨rfl, rfl, rfl⟩

theorem samePeople_takeFrame (s : State) (d : DieId) : SamePeople s (s.takeFrame d).2 := by
  unfold State.takeFrame
  simp only
  split
  · exact samePeople_modDie s d _
  · split
    · exact samePeople_refl s
    · exact samePeople_modDie s d _

theorem samePeople_freshKey (s : State) (base : Nat) (e : DWord) : SamePeople s (s.freshKey base e) := by
  unfold State.freshKey
  split
  · exact samePeople_modDie s _ _
  · exact samePeople_refl s

theorem samePeople_backPage (s : State) (d : DieId) (slot : Nat) (e : DWord) (w : Bool) : SamePeople s (s.backPage d slot e w).2 := by
  have h := samePeople_takeFrame s d
  unfold State.backPage
  generalize s.takeFrame d = r at h ⊢
  obtain ⟨f, s1⟩ := r
  cases f with
  | none => exact samePeople_trans h (samePeople_trans (samePeople_modDie _ d _) (samePeople_interrupt _ d 5))
  | some f =>
    refine samePeople_trans h (samePeople_trans (t := ({ s1 with mem := Mem.zero s1.mem f 65536 } : State)) (samePeople_refl s1) ?_)
    refine samePeople_trans (samePeople_freshKey _ f (backedEntry e f w)) ?_
    unfold State.setEntry
    exact samePeople_writePa _ _ _

theorem samePeople_turnFrame (s : State) (d : DieId) (p : KeyPage) (k : Option Nat) : SamePeople s (s.turnFrame d p k) := by
  unfold State.turnFrame
  split
  · exact samePeople_refl s
  · simp only
    generalize Mem.putFrame s.mem p.base _ = m
    generalize p.turn k s.mem s.tick = q
    exact samePeople_trans (t := { s with mem := m }) ⟨rfl, rfl, rfl⟩ (samePeople_modDie _ d _)

theorem samePeople_noteShared (s : State) (base n : Nat) : SamePeople s (s.noteShared base n) := by
  unfold State.noteShared
  split
  · exact samePeople_modDie s _ _
  · exact samePeople_refl s

theorem samePeople_firstKey (s : State) (d : DieId) (frame slot : Nat) : SamePeople s (s.firstKey d frame slot) := by
  unfold State.firstKey
  split
  · exact samePeople_turnFrame s _ _ _
  · exact samePeople_modDie s d _

theorem samePeople_useKey (s : State) (pa : Nat) (k : Option Nat) : SamePeople s (s.useKey pa k) := by
  unfold State.useKey
  split
  · split
    · exact samePeople_turnFrame s _ _ k
    · split
      · exact samePeople_refl s
      · exact samePeople_firstKey s _ _ _
  · exact samePeople_refl s

theorem samePeople_fillAndFinish (s : State) (d : DieId) (core : Option Nat) (va level slot : Nat) (e : DWord) (a : Acc3) :
    SamePeople s (s.fillAndFinish d core va level slot e a).2 := by
  unfold State.fillAndFinish
  refine samePeople_trans ?_ (samePeople_modDie _ d _)
  split
  · exact samePeople_refl s
  · exact samePeople_noteShared s _ _

/-- A walk for an access that no other die races. -/
theorem samePeople_walkFor (s : State) (d : DieId) (core : Option Nat) (va : Nat) (a : Acc3) :
    SamePeople s (s.walkFor d core va a false).2 := by
  have hk : SamePeople s (s.keepPath d va) := samePeople_modDie s d _
  unfold State.walkFor
  refine samePeople_trans hk ?_
  generalize s.walk d va = found
  generalize s.keepPath d va = s
  cases found with
  | fault => exact samePeople_refl s
  | down => exact samePeople_refl s
  | back slot e =>
    refine samePeople_trans (samePeople_backPage s d slot e a.write) ?_
    simp only [State.walkEnd, Bool.false_eq_true, if_false]
    generalize s.backPage d slot e a.write = r
    unfold State.walkBacked
    split
    · exact samePeople_refl _
    · split
      · exact samePeople_refl _
      · exact samePeople_fillAndFinish ..
  | leaf slot level e =>
    simp only [State.walkEnd, State.walkLeaf]
    split
    · exact samePeople_refl s
    · refine samePeople_trans ?_ (samePeople_fillAndFinish ..)
      split
      · exact samePeople_refl s
      · exact samePeople_writePa _ _ _

theorem samePeople_lookUp (s : State) (d : DieId) (core : Option Nat) (va : DWord) (a : Acc3) (afresh : Bool) :
    SamePeople s (s.lookUp d core va a afresh).2 := by
  unfold State.lookUp
  split
  · exact samePeople_refl s
  · simp only
    split
    · split
      · exact samePeople_walkFor s d core _ a
      · exact samePeople_refl s
    · exact samePeople_walkFor s d core _ a

/-- A translation leaves teams, launches and saved contexts. -/
theorem samePeople_translate (s : State) (d : DieId) (core : Option Nat) (va : DWord) (a : Acc3) (afresh : Bool) :
    SamePeople s (s.translate d core va a afresh).2 := by
  have h := samePeople_lookUp s d core va a afresh
  unfold State.translate
  generalize s.lookUp d core va a afresh = r at h ⊢
  obtain ⟨r, u⟩ := r
  cases r with
  | ok pa leaf => exact samePeople_trans h (samePeople_useKey u pa _)
  | fault => exact h
  | down => exact h
  | prot => exact h

/-- The map of the pages of a span does too. -/
theorem samePeople_mapSpan (s : State) (d : DieId) (core : Option Nat) (a : Acc3) (va : DWord) (n : Nat) (afresh : Bool) :
    SamePeople s (s.mapSpan d core a va n afresh).2 := by
  have pages : ∀ (k p : Nat) (acc : List (Nat × Nat)) (s : State), SamePeople s (s.mapPages d core a afresh k p acc).2 := by
    intro k
    induction k with
    | zero => exact fun _ _ s => samePeople_refl s
    | succ k ih =>
      intro p acc s
      have h := samePeople_translate s d core (sx64 (BitVec.ofNat 57 (p * 65536))) a afresh
      unfold State.mapPages
      generalize s.translate d core (sx64 (BitVec.ofNat 57 (p * 65536))) a afresh = r at h ⊢
      obtain ⟨r, s1⟩ := r
      cases r with
      | ok pa leaf => exact samePeople_trans h (ih _ _ s1)
      | fault => exact h
      | down => exact h
      | prot => exact h
  unfold State.mapSpan
  split
  · exact samePeople_refl s
  · have h := pages (((va.extractLsb' 0 57).toNat + n - 1) / 65536 + 1 - (va.extractLsb' 0 57).toNat / 65536)
      ((va.extractLsb' 0 57).toNat / 65536) [] s
    simp only
    generalize s.mapPages d core a afresh (((va.extractLsb' 0 57).toNat + n - 1) / 65536 + 1 - (va.extractLsb' 0 57).toNat / 65536)
      ((va.extractLsb' 0 57).toNat / 65536) [] = r at h ⊢
    obtain ⟨r, u⟩ := r
    cases r <;> exact h

/-- A search finds a record of its list. -/
theorem searchArea_mem (c : Cx) (va : DWord) (v : Saved) (t : State) :
    ∀ (xs : List Saved) (s : State), c.searchArea va xs s = (.found v, t) → v ∈ xs := by
  intro xs
  induction xs with
  | nil => exact fun s h => absurd (Prod.mk.inj h).1 (by simp)
  | cons x xs ih =>
    intro s h
    unfold Cx.searchArea at h
    generalize s.mapSpan c.die (some c.t.core) ⟨false, false, c.priv⟩ va x.bytes.length c.gg.afresh = r at h
    obtain ⟨r, u⟩ := r
    cases r with
    | inl tr =>
      obtain ⟨tr, p⟩ := tr
      cases tr <;> exact absurd (Prod.mk.inj h).1 (by simp [AtArea.fails])
    | inr m =>
      simp only at h
      split at h
      · obtain ⟨h, -⟩ := Prod.mk.inj h
        cases h
        exact .head _
      · exact .tail _ (ih u h)

/-- What `sys.ctxsv` and `sys.ctxld` find at an address is a saved context of the machine, or a sealed image of another package. -/
theorem findArea_found {c : Cx} {image : Bool} {va : DWord} {s t : State} {v : Saved} (h : c.findArea image va s = (.found v, t)) :
    v ∈ s.saved ∨ ∃ u : State, u.foreignImage = some v := by
  have hm := samePeople_mapSpan s c.die (some c.t.core) ⟨false, false, c.priv⟩ va 1 c.gg.afresh
  unfold Cx.findArea at h
  generalize s.mapSpan c.die (some c.t.core) ⟨false, false, c.priv⟩ va 1 c.gg.afresh = r at h hm
  obtain ⟨r, u⟩ := r
  cases r with
  | inl tr =>
    obtain ⟨tr, p⟩ := tr
    cases tr <;> exact absurd (Prod.mk.inj h).1 (by simp [AtArea.fails])
  | inr m =>
    simp only at h hm
    split at h
    · split at h
      · rename_i hx
        obtain ⟨h, -⟩ := Prod.mk.inj h
        cases h
        unfold Cx.foreignAt at hx
        split at hx
        · exact .inr ⟨_, hx⟩
        · cases hx
      · exact absurd (Prod.mk.inj h).1 (by simp)
    · exact .inl (hm.1 ▸ (List.mem_filter.mp (searchArea_mem c va v t _ _ h)).1)

/-! ## Key views keep memory canonical -/

/-- A frame put in place keeps memory's canonical form. -/
theorem wf_putFrame {m : Mem} (h : Mem.wf m = true) (base : Nat) (f : Mem) : Mem.wf (Mem.putFrame m base f) = true := by
  unfold Mem.putFrame
  generalize Mem.readN f base 65536 = bs
  exact wf_writeN h base bs

theorem wf_turnFrame {s : State} (h : Mem.wf s.mem = true) (d : DieId) (p : KeyPage) (k : Option Nat) :
    Mem.wf (s.turnFrame d p k).mem = true := by
  unfold State.turnFrame
  split
  · exact h
  · have h := wf_putFrame h p.base (p.turn k s.mem s.tick).first
    simp only [mem_modDie]
    exact h

/-- A span used under the shared key leaves memory as it is. -/
@[simp] theorem mem_noteShared (s : State) (base n : Nat) : (s.noteShared base n).mem = s.mem := by
  unfold State.noteShared
  split
  · exact mem_modDie _ _ _
  · rfl

theorem wf_firstKey {s : State} (h : Mem.wf s.mem = true) (d : DieId) (frame slot : Nat) : Mem.wf (s.firstKey d frame slot).mem = true := by
  unfold State.firstKey
  split
  · exact wf_turnFrame h _ _ _
  · rw [mem_modDie]
    exact h

/-- An access through a key keeps memory's canonical form. -/
theorem wf_useKey {s : State} (h : Mem.wf s.mem = true) (pa : Nat) (k : Option Nat) : Mem.wf (s.useKey pa k).mem = true := by
  unfold State.useKey
  split
  · split
    · exact wf_turnFrame h _ _ k
    · split
      · exact h
      · exact wf_firstKey h _ _ _
  · exact h

/-- A slot that is emptied keeps memory's canonical form. -/
theorem wf_loseKey {s : State} (h : Mem.wf s.mem = true) (d : DieId) (slot : Nat) : Mem.wf (s.loseKey d slot).mem = true := by
  have keep (ps : List KeyPage) : ∀ m, Mem.wf m = true →
      Mem.wf (ps.foldl (fun m p => Mem.putFrame m p.base p.first) m) = true := by
    induction ps with
    | nil => exact fun _ h => h
    | cons p ps ih =>
      intro m h
      rw [List.foldl_cons]
      have h := wf_putFrame h p.base p.first
      generalize Mem.putFrame m p.base p.first = m at h ⊢
      exact ih m h
  have note (fs : List (Nat × Nat × Nat)) : ∀ s : State, (fs.foldl (fun s f => s.noteShared f.1 f.2.1) s).mem = s.mem := by
    induction fs with
    | nil => exact fun _ => rfl
    | cons f fs ih => exact fun s => by rw [List.foldl_cons, ih, mem_noteShared]
  unfold State.loseKey
  rw [mem_modDie]
  exact keep _ _ (by rw [note]; exact h)

end Sys2Proof.Laws
end

