-- ==== Sys2Proof/Tests/Slice0.lean ====
section
/-! SUPPORT. The package's own tests: words written out from the encodings of spec/03 to spec/11, ill-formed terms that
the well-formedness check refuses, for every obligation states that meet its hypotheses together, and single steps with
the results that the spec works out. -/

set_option Elab.async false

namespace Sys2Proof.Tests
open Sys2Proof.Machine

/-! ## Words -/

/-- Format S, every MODE (Table 3.5, R87). -/
def wordsS : List (List Word × Instr) :=
  [([0x012B86CA], .nop ⟨10, 56, .imm10 714⟩),
   ([0x02473822, 0x9ABC0002], .sMov ⟨17, 51, .imm32 2 2 0x9ABC0002⟩),
   ([0x0362EC03, 0x13570003, 0xFEDC0009], .sMovk ⟨24, 46, .imm64 0 3 0x13570003 0xFEDC0009⟩),
   ([0x047E92C4], .sAdd ⟨31, 41, .reg 44 4⟩),
   ([0x059A475E], .sSub ⟨38, 36, .imm10 862⟩),
   ([0x06B5F801, 0x9ABC0006], .sMul ⟨45, 31, .imm32 0 1 0x9ABC0006⟩),
   ([0x07D1AC12, 0x13570007, 0xFEDC0015], .sMulhu ⟨52, 26, .imm64 1 2 0x13570007 0xFEDC0015⟩),
   ([0x08ED5180], .sMulhs ⟨59, 21, .reg 24 0⟩),
   ([0x090907F2], .sDivu ⟨2, 16, .imm10 1010⟩),
   ([0x0A24B810, 0x9ABC000A], .sDivs ⟨9, 11, .imm32 1 0 0x9ABC000A⟩),
   ([0x0B406C21, 0x1357000B, 0xFEDC0021], .sRemu ⟨16, 6, .imm64 2 1 0x1357000B 0xFEDC0021⟩),
   ([0x0C5C1044], .sRems ⟨23, 1, .reg 4 4⟩),
   ([0x0D7BC486], .sAnd ⟨30, 60, .imm10 134⟩),
   ([0x0E977824, 0x9ABC000E], .sOr ⟨37, 55, .imm32 2 4 0x9ABC000E⟩),
   ([0x0FB32C00, 0x1357000F, 0xFEDC002D], .sXor ⟨44, 50, .imm64 0 0 0x1357000F 0xFEDC002D⟩),
   ([0x10CED300], .sAndn ⟨51, 45, .reg 48 0⟩),
   ([0x11EA851A], .sShl ⟨58, 40, .imm10 282⟩),
   ([0x12063803, 0x9ABC0012], .sShr ⟨1, 35, .imm32 0 3 0x9ABC0012⟩),
   ([0x1321EC14, 0x13570013, 0xFEDC0039], .sSar ⟨8, 30, .imm64 1 4 0x13570013 0xFEDC0039⟩),
   ([0x143D91C4], .sPopc ⟨15, 25, .reg 28 4⟩),
   ([0x155945AE], .sClz ⟨22, 20, .imm10 430⟩),
   ([0x1674F812, 0x9ABC0016], .sCtz ⟨29, 15, .imm32 1 2 0x9ABC0016⟩),
   ([0x1790AC23, 0x13570017, 0xFEDC0045], .sMins ⟨36, 10, .imm64 2 3 0x13570017 0xFEDC0045⟩),
   ([0x18AC5080], .sMinu ⟨43, 5, .reg 8 0⟩),
   ([0x19C80642], .sMaxs ⟨50, 0, .imm10 578⟩),
   ([0x1AE7B821, 0x9ABC001A], .sMaxu ⟨57, 59, .imm32 2 1 0x9ABC001A⟩),
   ([0x1B036C02, 0x1357001B, 0xFEDC0051], .sCmp ⟨0, 54, .imm64 0 2 0x1357001B 0xFEDC0051⟩),
   ([0x1C1F1344], .sSel ⟨7, 49, .reg 52 4⟩),
   ([0x1D3AC6D6], .sBfx ⟨14, 44, .imm10 726⟩),
   ([0x1E567800, 0x9ABC001E], .sBfi ⟨21, 39, .imm32 0 0 0x9ABC001E⟩),
   ([0x20722C11, 0x1357001F, 0xFEDC005D], .sGetlane ⟨28, 34, .imm64 1 1 0x1357001F 0xFEDC005D⟩),
   ([0x218DD200], .sRdsr ⟨35, 29, .reg 32 0⟩),
   ([0x22A9876A], .sWrsr ⟨42, 24, .imm10 874⟩),
   ([0x23C53814, 0x9ABC0022], .sSetfmt ⟨49, 19, .imm32 1 4 0x9ABC0022⟩),
   ([0x24E0EC20, 0x13570023, 0xFEDC0069], .sGetfmt ⟨56, 14, .imm64 2 0 0x13570023 0xFEDC0069⟩),
   ([0x1F146073], .sLea ⟨5, 6, .reg 7 3⟩),
   ([0x1F14080A, 0xFFFFFFF0], .sLeaPc ⟨5, 0, .imm32 0 10 0xFFFFFFF0⟩),
   ([0x22006412], .drawbaseWrite ⟨0, 6, .imm10 0x12⟩)]

theorem test_wordsS : ∀ e ∈ wordsS, decode e.1 = .ok e.2 e.1.length ∧ encode e.2 = e.1 := by decide +kernel

/-- Formats A and E, with and without the words that R83 adds (Tables 3.3, 3.4). -/
def wordsA : List (List Word × Instr) :=
  [([0x30D9F3EC, 0x9F12FB34, 0xDEAD0024], .vMov ⟨108, 124, 125, 4, (some ⟨79, 4, 2, 0, 5, 7, 44, 52⟩), (some 0xDEAD0024)⟩),
   ([0x31DEF86D, 0xFB570BF9, 0xDEAD0025], .vSetlane ⟨111, 62, 13, 5, (some ⟨125, 5, 2, 1, 6, 0, 47, 57⟩), (some 0xDEAD0025)⟩),
   ([0x32E50CA6], .vIota ⟨114, 67, 20, 6, none, none⟩),
   ([0x33EBF0DF, 0xD5DC2D43], .vAdd ⟨117, 124, 27, 7, (some ⟨106, 7, 3, 1, 0, 2, 53, 3⟩), none⟩),
   ([0x34F1F510, 0xDEAD0028], .vSub ⟨120, 125, 34, 0, none, (some 0xDEAD0028)⟩),
   ([0x35F74BE9, 0xDEAD0029], .vMul ⟨123, 82, 125, 1, none, (some 0xDEAD0029)⟩),
   ([0x36FDF182, 0xFAA9DF92, 0xDEAD002A], .vMulhu ⟨126, 124, 48, 2, (some ⟨125, 2, 5, 0, 3, 5, 62, 18⟩), (some 0xDEAD002A)⟩),
   ([0x370371BB], .vMulhs ⟨1, 92, 55, 3, none, none⟩),
   ([0x380985F4, 0x3732F11C], .vMad ⟨4, 97, 62, 4, (some ⟨27, 4, 6, 0, 5, 7, 4, 28⟩), none⟩),
   ([0x390FF22D, 0x497701E1], .vAnd ⟨7, 124, 69, 5, (some ⟨36, 5, 6, 1, 6, 0, 7, 33⟩), none⟩),
   ([0x3A15AFEE, 0xDEAD002E], .vOr ⟨10, 107, 125, 6, none, (some 0xDEAD002E)⟩),
   ([0x3B1BC29F], .vXor ⟨13, 112, 83, 7, none, none⟩),
   ([0x3C21F2D0, 0x7E00B430], .vAndn ⟨16, 124, 90, 0, (some ⟨63, 0, 0, 0, 1, 3, 16, 48⟩), none⟩),
   ([0x3D27EB09], .vShl ⟨19, 122, 97, 1, none, none⟩),
   ([0x3E2DF742, 0xDEAD0032], .vShr ⟨22, 125, 104, 2, none, (some 0xDEAD0032)⟩),
   ([0x3F33F3EB, 0xB4CE667F, 0xDEAD0033], .vSar ⟨25, 124, 125, 3, (some ⟨90, 3, 1, 1, 4, 6, 25, 63⟩), (some 0xDEAD0033)⟩),
   ([0x403837B4], .vMins ⟨28, 13, 118, 4, none, none⟩),
   ([0x413E480D], .vMinu ⟨31, 18, 1, 5, none, none⟩),
   ([0x4245F046, 0xEB9B988E], .vMaxs ⟨34, 124, 8, 6, (some ⟨117, 6, 3, 0, 7, 1, 34, 14⟩), none⟩),
   ([0x434BF47F, 0xDEAD0037], .vMaxu ⟨37, 125, 15, 7, none, (some 0xDEAD0037)⟩),
   ([0x445087E8, 0x1620BA18, 0xDEAD0038], .vIcmp ⟨40, 33, 125, 0, (some ⟨11, 0, 4, 0, 1, 3, 40, 24⟩), (some 0xDEAD0038)⟩),
   ([0x455698E9, 0xFA654ADD, 0xDEAD0039], .vSel ⟨43, 38, 29, 1, (some ⟨125, 1, 4, 1, 2, 4, 43, 29⟩), (some 0xDEAD0039)⟩),
   ([0x465CAD22], .vPopc ⟨46, 43, 36, 2, none, none⟩),
   ([0x4762C15B], .vClz ⟨49, 48, 43, 3, none, none⟩),
   ([0x4869F594, 0x5F32FD2C, 0xDEAD003C], .vBfx ⟨52, 125, 50, 4, (some ⟨47, 4, 6, 0, 5, 7, 52, 44⟩), (some 0xDEAD003C)⟩),
   ([0x496EEBED, 0x71770DF1, 0xDEAD003D], .vBfi ⟨55, 58, 125, 5, (some ⟨56, 5, 6, 1, 6, 0, 55, 49⟩), (some 0xDEAD003D)⟩),
   ([0x4A74FE06], .vAdd64 ⟨58, 63, 64, 6, none, none⟩),
   ([0x4B7BF23F, 0x95FC2F7B], .vSub64 ⟨61, 124, 71, 7, (some ⟨74, 7, 7, 1, 0, 2, 61, 59⟩), none⟩),
   ([0x4C812670, 0xA600B000], .vShfl ⟨64, 73, 78, 0, (some ⟨83, 0, 0, 0, 1, 3, 0, 0⟩), none⟩),
   ([0x4D87F6A9, 0xDEAD0041], .vShflx ⟨67, 125, 85, 1, none, (some 0xDEAD0041)⟩),
   ([0x4E8D4FEA, 0xCA89D18A, 0xDEAD0042], .vIred ⟨70, 83, 125, 2, (some ⟨101, 2, 1, 0, 3, 5, 6, 10⟩), (some 0xDEAD0042)⟩),
   ([0x4F93631B, 0xFACE624F, 0xDEAD0043], .vIscan ⟨73, 88, 99, 3, (some ⟨125, 3, 1, 1, 4, 6, 9, 15⟩), (some 0xDEAD0043)⟩)]

theorem test_wordsA : ∀ e ∈ wordsA, decode e.1 = .ok e.2 e.1.length ∧ encode e.2 = e.1 := by decide +kernel

/-- The floating-point and distribution instructions (Tables 3.3, 3.4). -/
def wordsF : List (List Word × Instr) :=
  [([0x50997754, 0xEF12F314], .vFadd ⟨76, 93, 106, 4, (some ⟨119, 4, 2, 0, 5, 7, 12, 20⟩), none⟩),
   ([0x519F8B8D, 0x095703D9], .vFsub ⟨79, 98, 113, 5, (some ⟨4, 5, 2, 1, 6, 0, 15, 25⟩), none⟩),
   ([0x52A5F7C6, 0x1B9B949E, 0xDEAD0046], .vFmul ⟨82, 125, 120, 6, (some ⟨13, 6, 3, 0, 7, 1, 18, 30⟩), (some 0xDEAD0046)⟩),
   ([0x53ABB3EF, 0x2DDC2563, 0xDEAD0047], .vFfma ⟨85, 108, 125, 7, (some ⟨22, 7, 3, 1, 0, 2, 21, 35⟩), (some 0xDEAD0047)⟩),
   ([0x54B1C450, 0xFA20B628, 0xDEAD0048], .vFmin ⟨88, 113, 10, 0, (some ⟨125, 0, 4, 0, 1, 3, 24, 40⟩), (some 0xDEAD0048)⟩),
   ([0x55B7D889, 0x506546ED], .vFmax ⟨91, 118, 17, 1, (some ⟨40, 1, 4, 1, 2, 4, 27, 45⟩), none⟩),
   ([0x56BDECC2, 0x62A9D7B2], .vFdiv ⟨94, 123, 24, 2, (some ⟨49, 2, 5, 0, 3, 5, 30, 50⟩), none⟩),
   ([0x57C3F4FB, 0x74EE6877, 0xDEAD004B], .vFsqrt ⟨97, 125, 31, 3, (some ⟨58, 3, 5, 1, 4, 6, 33, 55⟩), (some 0xDEAD004B)⟩),
   ([0x58C827EC, 0x8732F93C, 0xDEAD004C], .vFrsq ⟨100, 9, 125, 4, (some ⟨67, 4, 6, 0, 5, 7, 36, 60⟩), (some 0xDEAD004C)⟩),
   ([0x59CE396D, 0xFB7709C1, 0xDEAD004D], .vFrcp ⟨103, 14, 45, 5, (some ⟨125, 5, 6, 1, 6, 0, 39, 1⟩), (some 0xDEAD004D)⟩),
   ([0x5AD44DA6, 0xABBB9A86], .vFexp2 ⟨106, 19, 52, 6, (some ⟨85, 6, 7, 0, 7, 1, 42, 6⟩), none⟩),
   ([0x5BDA61DF, 0xBDFC2B4B], .vFlog2 ⟨109, 24, 59, 7, (some ⟨94, 7, 7, 1, 0, 2, 45, 11⟩), none⟩),
   ([0x5CE1F610, 0xCE00BC10, 0xDEAD0050], .vFsinpi ⟨112, 125, 66, 0, (some ⟨103, 0, 0, 0, 1, 3, 48, 16⟩), (some 0xDEAD0050)⟩),
   ([0x5DE68BE9, 0xE0454CD5, 0xDEAD0051], .vFcospi ⟨115, 34, 125, 1, (some ⟨112, 1, 0, 1, 2, 4, 51, 21⟩), (some 0xDEAD0051)⟩),
   ([0x5EEC9E82, 0xFA89DD9A, 0xDEAD0052], .vFtanh ⟨118, 39, 80, 2, (some ⟨125, 2, 1, 0, 3, 5, 54, 26⟩), (some 0xDEAD0052)⟩),
   ([0x5FF2B2BB, 0x0CCE6E5F], .vFround ⟨121, 44, 87, 3, (some ⟨6, 3, 1, 1, 4, 6, 57, 31⟩), none⟩),
   ([0x60F8C6F4, 0x1F12FF24], .vFcmp ⟨124, 49, 94, 4, (some ⟨15, 4, 2, 0, 5, 7, 60, 36⟩), none⟩),
   ([0x61FFF72D, 0x31570FE9, 0xDEAD0055], .vFclass ⟨127, 125, 101, 5, (some ⟨24, 5, 2, 1, 6, 0, 63, 41⟩), (some 0xDEAD0055)⟩),
   ([0x6204EFEE, 0x439B90AE, 0xDEAD0056], .vFcvt ⟨2, 59, 125, 6, (some ⟨33, 6, 3, 0, 7, 1, 2, 46⟩), (some 0xDEAD0056)⟩),
   ([0x630B039F, 0xFBDC2173, 0xDEAD0057], .vCvtfi ⟨5, 64, 115, 7, (some ⟨125, 7, 3, 1, 0, 2, 5, 51⟩), (some 0xDEAD0057)⟩),
   ([0x641117D0, 0x6620B238], .vCvtif ⟨8, 69, 122, 0, (some ⟨51, 0, 4, 0, 1, 3, 8, 56⟩), none⟩),
   ([0x65172829, 0x786542FD], .vQpack ⟨11, 74, 5, 1, (some ⟨60, 1, 4, 1, 2, 4, 11, 61⟩), none⟩),
   ([0x661DF462, 0x8AA9D382, 0xDEAD005A], .vQunpack ⟨14, 125, 12, 2, (some ⟨69, 2, 5, 0, 3, 5, 14, 2⟩), (some 0xDEAD005A)⟩),
   ([0x672353EB, 0x9CEE6447, 0xDEAD005B], .vMxquant ⟨17, 84, 125, 3, (some ⟨78, 3, 5, 1, 4, 6, 17, 7⟩), (some 0xDEAD005B)⟩),
   ([0x682964D4, 0xFB32F50C, 0xDEAD005C], .vMxdeq ⟨20, 89, 26, 4, (some ⟨125, 4, 6, 0, 5, 7, 20, 12⟩), (some 0xDEAD005C)⟩),
   ([0x692F790D, 0xC17705D1], .vFdot2 ⟨23, 94, 33, 5, (some ⟨96, 5, 6, 1, 6, 0, 23, 17⟩), none⟩),
   ([0x6A358D46, 0xD3BB9696], .vFred ⟨26, 99, 40, 6, (some ⟨105, 6, 7, 0, 7, 1, 26, 22⟩), none⟩),
   ([0x6B3BF57F, 0xE5FC275B, 0xDEAD005F], .vFscan ⟨29, 125, 47, 7, (some ⟨114, 7, 7, 1, 0, 2, 29, 27⟩), (some 0xDEAD005F)⟩),
   ([0x6C41F3E8, 0xF600B820, 0xDEAD0060], .vRndu ⟨32, 124, 125, 0, (some ⟨123, 0, 0, 0, 1, 3, 32, 32⟩), (some 0xDEAD0060)⟩),
   ([0x6D47C9E9], .vRndn ⟨35, 114, 61, 1, none, none⟩),
   ([0x6E4DDE22], .vRndg ⟨38, 119, 68, 2, none, none⟩),
   ([0x6F52025B, 0x34CE6A6F], .vArgmax ⟨41, 0, 75, 3, (some ⟨26, 3, 1, 1, 4, 6, 41, 47⟩), none⟩),
   ([0x7059F694, 0x4712FB34, 0xDEAD0064], .vDvar ⟨44, 125, 82, 4, (some ⟨35, 4, 2, 0, 5, 7, 44, 52⟩), (some 0xDEAD0064)⟩),
   ([0x715E2BED, 0x59570BF9, 0xDEAD0065], .vDset ⟨47, 10, 125, 5, (some ⟨44, 5, 2, 1, 6, 0, 47, 57⟩), (some 0xDEAD0065)⟩),
   ([0x72643F06, 0xFB9B9CBE, 0xDEAD0066], .vDgetd ⟨50, 15, 96, 6, (some ⟨125, 6, 3, 0, 7, 1, 50, 62⟩), (some 0xDEAD0066)⟩),
   ([0x736A533F, 0x7DDC2D43], .vDsetd ⟨53, 20, 103, 7, (some ⟨62, 7, 3, 1, 0, 2, 53, 3⟩), none⟩),
   ([0x74706770, 0x8E20BE08], .vDclr ⟨56, 25, 110, 0, (some ⟨71, 0, 4, 0, 1, 3, 56, 8⟩), none⟩),
   ([0x7577F7A9, 0xA0654ECD, 0xDEAD0069], .vDnoise ⟨59, 125, 117, 1, (some ⟨80, 1, 4, 1, 2, 4, 59, 13⟩), (some 0xDEAD0069)⟩),
   ([0x767C8FEA, 0xB2A9DF92, 0xDEAD006A], .vDchk ⟨62, 35, 125, 2, (some ⟨89, 2, 5, 0, 3, 5, 62, 18⟩), (some 0xDEAD006A)⟩)]

theorem test_wordsF : ∀ e ∈ wordsF, decode e.1 = .ok e.2 e.1.length ∧ encode e.2 = e.1 := by decide +kernel

/-- Prefixes and format M (R93, Table 3.6). -/
def wordsM : List (List Word × Instr) :=
  [([0xD0DAEDE5], .pfxDual ⟨109, 60901⟩),
   ([0xD1E90CD4], .pfxMom ⟨116, 68820⟩),
   ([0xD2F72BC3], .pfxPt ⟨123, 76739⟩),
   ([0xD3054AB2], .pfxSr ⟨2, 84658⟩),
   ([0x809D589E, 0x69A1F828], .vLd ⟨78, 43, 9, 3, 2, 27041, 7, 3, 0, 1, 2, 0⟩),
   ([0x81A38101, 0x8890014D], .vSt ⟨81, 48, 16, 0, 1, 34960, 0, 0, 1, 2, 3, 1⟩),
   ([0x82A9A974, 0xA77F2A72], .vLdsp ⟨84, 53, 23, 1, 0, 42879, 1, 1, 2, 3, 4, 2⟩),
   ([0x83AFD1EB, 0xC66E5397], .vStsp ⟨87, 58, 30, 2, 3, 50798, 2, 2, 3, 4, 5, 3⟩),
   ([0x84B5FA5E, 0xE55D7CB8], .sLd ⟨90, 63, 37, 3, 2, 58717, 3, 3, 4, 5, 6, 0⟩),
   ([0x85BA22C1, 0x044C85DD], .sSt ⟨93, 4, 44, 0, 1, 1100, 4, 0, 5, 6, 7, 1⟩),
   ([0x86C04B34, 0x233BAEE2], .vLdl ⟨96, 9, 51, 1, 0, 9019, 5, 1, 6, 7, 0, 2⟩),
   ([0x87C673AB, 0x422AD707], .vStl ⟨99, 14, 58, 2, 3, 16938, 6, 2, 7, 0, 1, 3⟩),
   ([0x88CC9C1E, 0x6119F828], .vAtom ⟨102, 19, 65, 3, 2, 24857, 7, 3, 0, 1, 2, 0⟩),
   ([0x89D2C481, 0x8008014D], .vCas ⟨105, 24, 72, 0, 1, 32776, 0, 0, 1, 2, 3, 1⟩),
   ([0x8AD8ECF4, 0x9EF72A72], .vRed ⟨108, 29, 79, 1, 0, 40695, 1, 1, 2, 3, 4, 2⟩),
   ([0x8BDF156B, 0xBDE65397], .sAtom ⟨111, 34, 86, 2, 3, 48614, 2, 2, 3, 4, 5, 3⟩),
   ([0x8CE53DDE, 0xDCD57CB8], .sCas ⟨114, 39, 93, 3, 2, 56533, 3, 3, 4, 5, 6, 0⟩),
   ([0x8DEB6641, 0xFBC485DD], .chunkTake ⟨117, 44, 100, 0, 1, 64452, 4, 0, 5, 6, 7, 1⟩),
   ([0x8EF18EB4, 0x1AB3AEE2], .monArm ⟨120, 49, 107, 1, 0, 6835, 5, 1, 6, 7, 0, 2⟩),
   ([0x8FF7B72B, 0x39A2D707], .monWait ⟨123, 54, 114, 2, 3, 14754, 6, 2, 7, 0, 1, 3⟩),
   ([0x90FDDF9E, 0x5891F828], .fence ⟨126, 59, 121, 3, 2, 22673, 7, 3, 0, 1, 2, 0⟩),
   ([0x91020001, 0x7780014D], .txBegin ⟨1, 0, 0, 0, 1, 30592, 0, 0, 1, 2, 3, 1⟩),
   ([0x92082874, 0x966F2A72], .txEnd ⟨4, 5, 7, 1, 0, 38511, 1, 1, 2, 3, 4, 2⟩),
   ([0x930E50EB, 0xB55E5397], .txAbort ⟨7, 10, 14, 2, 3, 46430, 2, 2, 3, 4, 5, 3⟩),
   ([0x9414795E, 0xD44D7CB8], .txStat ⟨10, 15, 21, 3, 2, 54349, 3, 3, 4, 5, 6, 0⟩),
   ([0x951AA1C1, 0xF33C85DD], .keyWait ⟨13, 20, 28, 0, 1, 62268, 4, 0, 5, 6, 7, 1⟩),
   ([0x9620CA34, 0x122BAEE2], .keyPass ⟨16, 25, 35, 1, 0, 4651, 5, 1, 6, 7, 0, 2⟩),
   ([0x9726F2AB, 0x311AD707], .tagSet ⟨19, 30, 42, 2, 3, 12570, 6, 2, 7, 0, 1, 3⟩),
   ([0x982D1B1C, 0x5009F828], .tagGet ⟨22, 35, 49, 3, 0, 20489, 7, 3, 0, 1, 2, 0⟩),
   ([0x98334381, 0x6EF8014D], .tagGetWait ⟨25, 40, 56, 0, 1, 28408, 0, 0, 1, 2, 3, 1⟩),
   ([0x98396BF6, 0x8DE72A72], .tagGetWait ⟨28, 45, 63, 1, 2, 36327, 1, 1, 2, 3, 4, 2⟩),
   ([0x993F946B, 0xACD65397], .prefetch ⟨31, 50, 70, 2, 3, 44246, 2, 2, 3, 4, 5, 3⟩),
   ([0x9A45BCDE, 0xCBC57CB8], .cacheRetain ⟨34, 55, 77, 3, 2, 52165, 3, 3, 4, 5, 6, 0⟩),
   ([0x9B4BE541, 0xEAB485DD], .cacheUnpin ⟨37, 60, 84, 0, 1, 60084, 4, 0, 5, 6, 7, 1⟩),
   ([0x9C500DB4, 0x09A3AEE2], .cacheOpIfetch ⟨40, 1, 91, 1, 0, 2467, 5, 1, 6, 7, 0, 2⟩),
   ([0x9C563629, 0x2892D707], .cacheOpEvl1 ⟨43, 6, 98, 2, 1, 10386, 6, 2, 7, 0, 1, 3⟩),
   ([0x9C5C5E9E, 0x4781F828], .cacheOpEvl2 ⟨46, 11, 105, 3, 2, 18305, 7, 3, 0, 1, 2, 0⟩)]

theorem test_wordsM : ∀ e ∈ wordsM, decode e.1 = .ok e.2 e.1.length ∧ encode e.2 = e.1 := by decide +kernel

/-- Format X: crews, copies, collectives, launches and events (Tables 8.1, 8.3, 8.4, 8.6; R248, R249, R252, R261, R262, R267). -/
def wordsX : List (List Word × Instr) :=
  [([0xA0A00000, 0x00123456], .mxCrew ⟨0b1010, 0, 0, 0x123456⟩),
   ([0xA1A50000, 0x00000000], .mxZero ⟨0xA5, 0, 0⟩),
   ([0xA21C3010, 0x052D0610, 0x69016670], .mxMma ⟨0, 112, 48, 0, 16, 0, 5, 0, 1, 3, 16, 48, 16, 1680, 91760⟩),
   ([0xA33DF355, 0x16D19771, 0x6F11855F], .mxMmad ⟨1, 119, 51, 1, 21, 1, 6, 1, 2, 4, 25, 59, 17, 1777, 99679⟩),
   ([0xA45FB69A, 0x277628D2, 0x7521A44E], .mxMmac ⟨2, 126, 54, 2, 26, 2, 7, 0, 3, 5, 34, 70, 18, 1874, 107598⟩),
   ([0xA56179DF, 0x389ABA33, 0x7B31C33D], .mxMma64 ⟨3, 5, 57, 3, 31, 3, 8, 1, 0, 6, 43, 81, 19, 1971, 115517⟩),
   ([0xA6502100, 0x12041000], .mxLdc ⟨2, 64, 33, 0, 0, 288, 8, 1, 0⟩),
   ([0xA6706250, 0x1214A000], .mxLdcVar ⟨3, 65, 34, 1, 0, 289, 9, 2, 0⟩),
   ([0xA690A3A0, 0x12253000], .mxLdcB ⟨4, 66, 35, 2, 0, 290, 10, 3, 0⟩),
   ([0xA6B0E430, 0x1235C000], .mxLdcF64 ⟨5, 67, 36, 0, 0, 291, 11, 4, 0⟩),
   ([0xA7A02C40, 0x908EC000, 0x32100000], .mxStc ⟨5, 0, 44, 1, 0, 9, 0, 1, 0, 3, 5, 1, 0, 0x321, 0⟩),
   ([0xA88B0000, 0x00000000], .mxStat ⟨34, 6, 0, 0⟩),
   ([0xB0F24306, 0x977D0564, 0xE22C90CC], .cpLoad ⟨60, 36, 12, 0, 1, 2, 4, 5, 6, 7, 52, 0, 1380, 57900, 37068⟩),
   ([0xB1FE94DB, 0xBB8F5589, 0x011BA843], .cpStore ⟨63, 41, 19, 1, 2, 3, 5, 6, 7, 0, 61, 1, 1417, 283, 43075⟩),
   ([0xB20AE6AC, 0xDC11A5AE, 0x200ABFBA], .cpGather ⟨2, 46, 26, 2, 3, 0, 6, 7, 0, 1, 6, 2, 1454, 8202, 49082⟩),
   ([0xB3173871, 0xE0A3F5D3, 0x3EF9D731], .cpXfer ⟨5, 51, 33, 3, 0, 1, 7, 0, 1, 2, 15, 3, 1491, 16121, 55089⟩),
   ([0xB4238A06, 0x053605F8, 0x5DE8EEA8], .cpFill ⟨8, 56, 40, 0, 1, 2, 0, 1, 2, 3, 24, 0, 1528, 24040, 61096⟩),
   ([0xB72FDBDB, 0x29C8561D, 0x7CD7061F], .collStart ⟨11, 61, 47, 1, 2, 3, 1, 2, 3, 4, 33, 1, 1565, 31959, 1567⟩),
   ([0xB8382DAC, 0x4E5AA642, 0x9BC61D96], .launch ⟨14, 2, 54, 2, 3, 0, 2, 3, 4, 5, 42, 2, 1602, 39878, 7574⟩),
   ([0xB5619800, 0xC0000000], .cpClose ⟨24, 25, 1, 0, 6, 0⟩),
   ([0xB6600000, 0x60000000], .cpWait ⟨24, 0, 0, 0, 3, 0⟩),
   ([0xB936F800, 0x80000000], .evtAdd ⟨13, 47, 1, 0, 4, 0⟩)]

theorem test_wordsX : ∀ e ∈ wordsX, decode e.1 = .ok e.2 e.1.length ∧ encode e.2 = e.1 := by decide +kernel

/-- CTRL and SYS instructions (Tables 3.8, 5.2, 5.3). -/
def wordsC : List (List Word × Instr) :=
  [([0xC0FFFFF7], .br 0xFFFFF7),
   ([0xC112FFEF], .brc 4 5 0x7FEF),
   ([0xC201C001], .brm 0 3 0x4001),
   ([0xC3855800], .jmp 33 21 1 0),
   ([0xC486ABCD], .call 33 0x2ABCD),
   ([0xC5840000], .ret 33 0),
   ([0xC6855DAB], .part 33 21 1 0x5AB),
   ([0xC7000000], .regang 0),
   ([0xC8BB0000], .bar 11 5 1 0),
   ([0xC9AE0000], .wbar 43 1 0),
   ([0xCA000000], .yield 0),
   ([0xCB000000], .exit 0),
   ([0xCCA50000], .trap 0xA5 0),
   ([0xCD5A0000], .brk 0x5A 0),
   ([0xF0866800], .sysRdcr 33 0x268 0),
   ([0xF1853100], .sysWrcr 33 0x131 0),
   ([0xF2000000], .sysEret 0),
   ([0xF3000000], .sysTlbiAll 0 0),
   ([0xF3850000], .sysTlbiPage 33 0),
   ([0xF3020000], .sysTlbiCore 0 0),
   ([0xF4000000], .sysReplay 0),
   ([0xF5880000], .sysFltpop 34 0),
   ([0xF6855280], .sysCtxsv 33 21 10 0),
   ([0xF7855000], .sysCtxld 33 21 0),
   ([0xF8855800], .sysPreempt 33 21 2 0),
   ([0xF9840000], .sysIpi 33 0),
   ([0xFA000000], .sysHalt 0)]

theorem test_wordsC : ∀ e ∈ wordsC, decode e.1 = .ok e.2 e.1.length ∧ encode e.2 = e.1 := by decide +kernel

/-! ## Well-formed and ill-formed terms -/

/-- Legal forms, one for each constructor that has words. -/
def e0 (c type sreg sel : Nat) : Option EForm := some ⟨BitVec.ofNat 7 c, BitVec.ofNat 3 type, 0, 0, 0, 0, BitVec.ofNat 6 sreg, BitVec.ofNat 6 sel⟩
def va (d a b : BitVec 7) : VForm := ⟨d, a, b, 0, none, none⟩
def ve (d a b : BitVec 7) (c type sreg sel : Nat) : VForm := ⟨d, a, b, 0, e0 c type sreg sel, none⟩
def sr (d a b f : Nat) : SForm := ⟨BitVec.ofNat 6 d, BitVec.ofNat 6 a, .reg (BitVec.ofNat 6 b) (BitVec.ofNat 4 f)⟩
/-- Lane-level and group-level forms: VD, SB, ATOP, ORDER, WIDTH. -/
def ml (vd sb im ord wi : Nat) : MForm :=
  ⟨BitVec.ofNat 7 vd, BitVec.ofNat 6 sb, 123, 0, 0, BitVec.ofNat 16 im, 0, BitVec.ofNat 2 ord, 0, 0, BitVec.ofNat 3 wi, 0⟩
def mt (vd sb tag wi : Nat) : MForm := { ml vd sb 0 0 wi with tag := BitVec.ofNat 2 tag }
def mxf (fa : Nat) (sv vbv pitch : Nat) : MxForm :=
  ⟨2, 8, 4, 0, 0, BitVec.ofNat 4 fa, BitVec.ofNat 4 fa, 0, 0, 0, BitVec.ofNat 6 sv, BitVec.ofNat 7 vbv, 0, BitVec.ofNat 12 pitch, 0⟩
def cpf (xsp : Nat) : CpForm := ⟨4, 5, 6, 0, 0, 0, 3, 0, 0, 0, 0, BitVec.ofNat 2 xsp, 0, 1, 1⟩
def cpAddr (scope : Nat) : CpForm := ⟨0, 5, 0, 0, 0, 0, BitVec.ofNat 3 scope, 0, 0, 0, 0, 0, 0, 0, 0⟩

def legalScalar : List Instr :=
  [.nop (sr 0 0 0 0), .sMov (sr 3 0 4 0), .sMovk ⟨3, 0, .imm32 0 0 0x3FFFF⟩] ++
  ([.sAdd, .sSub, .sMul, .sMulhu, .sMulhs, .sDivu, .sDivs, .sRemu, .sRems, .sAnd, .sOr, .sXor, .sAndn, .sShl, .sShr, .sSar,
    .sMins, .sMinu, .sMaxs, .sMaxu, .sSel, .sBfi].map fun i : SForm → Instr => i (sr 2 3 4 0)) ++
  ([.sPopc, .sClz, .sCtz].map fun i : SForm → Instr => i (sr 2 3 0 0)) ++
  [.sCmp (sr 2 3 4 11), .sBfx (sr 2 3 4 1), .sLea (sr 2 3 4 3), .sLeaPc ⟨3, 0, .imm32 0 11 4⟩, .sGetlane ⟨3, 0, .imm32 0 0 0x0F77⟩,
   .sRdsr ⟨3, 0, .imm10 0x13⟩, .sWrsr ⟨0, 4, .imm10 1⟩, .drawbaseWrite ⟨0, 4, .imm10 0x12⟩, .sSetfmt (sr 0 3 4 0), .sGetfmt (sr 3 0 0 0)]
def legalVector : List Instr :=
  ([.vAdd, .vSub, .vMul, .vMulhu, .vMulhs, .vAnd, .vOr, .vXor, .vAndn, .vShl, .vShr, .vSar, .vMins, .vMinu, .vMaxs, .vMaxu,
    .vIota, .vShflx].map fun i : VForm → Instr => i (va 1 2 3)) ++
  ([.vMov, .vPopc, .vClz].map fun i : VForm → Instr => i (va 1 2 123)) ++
  ([.vAdd64, .vSub64].map fun i : VForm → Instr => i (va 2 4 6)) ++ ([.vRndu, .vRndn, .vRndg].map fun i : VForm → Instr => i (va 1 123 123)) ++
  [.vSetlane (ve 1 2 123 31 5 0 0), .vMad (ve 1 2 3 4 5 0 0), .vIcmp (ve 123 2 3 123 4 9 5), .vSel (ve 1 2 3 123 5 9 0), .vBfx (ve 1 2 3 123 4 0 0),
   .vBfi (ve 1 2 3 4 5 0 0), .vShfl (ve 1 2 3 123 5 9 0), .vIred (ve 123 2 123 123 5 9 5), .vIscan (ve 1 2 123 123 4 0 13)]
def legalFloat : List Instr :=
  ([.vFadd, .vFsub, .vFmul, .vFdiv, .vFmin, .vFmax].map fun i : VForm → Instr => i (ve 1 2 3 123 0 0 0)) ++
  ([.vFsqrt, .vFrsq, .vFrcp, .vFexp2, .vFlog2, .vFsinpi, .vFcospi, .vFtanh, .vFround, .vFclass].map
    fun i : VForm → Instr => i (ve 1 2 123 123 0 0 0)) ++
  [.vFfma (ve 2 4 6 8 3 0 0), .vFcmp (ve 123 2 3 123 0 9 7), .vFcvt (ve 1 2 3 123 0 0 2), .vCvtfi (ve 2 2 123 123 0 0 6), .vCvtif (ve 2 2 123 123 4 0 3),
   .vQpack (ve 1 2 123 123 0 0 0), .vQunpack (ve 1 2 123 123 0 0 0), .vMxquant (ve 1 2 3 4 0 0 0), .vMxdeq (ve 1 2 3 123 0 0 0),
   .vFdot2 (ve 1 2 3 4 1 0 0), .vFred (ve 123 2 123 123 0 9 8), .vFscan (ve 1 2 123 123 0 0 0), .vArgmax (ve 2 4 6 123 0 0 0),
   .vDvar (ve 1 2 123 123 0 0 0), .vDset (ve 1 2 3 123 0 0 0), .vDgetd (ve 1 2 123 123 0 0 4), .vDsetd (ve 1 123 3 123 0 0 4),
   .vDclr (ve 1 123 123 123 0 0 0), .vDnoise (ve 1 123 3 123 0 0 0), .vDchk (ve 123 2 123 123 0 9 0),
   .pfxDual ⟨0, 3⟩, .pfxMom ⟨0, 5⟩, .pfxPt ⟨0, 0⟩, .pfxSr ⟨122, 0⟩]
def legalMemory : List Instr :=
  [.vLd (mt 1 2 1 1), .vSt (ml 8 2 0 2 5), .vLdsp (mt 1 2 2 2), .vStsp (mt 1 2 1 2), .sLd (mt 3 2 1 2), .sSt (ml 3 2 0xFFF8 0 3),
   .vLdl (ml 1 2 0 0 2), .vStl (ml 1 2 0 0 2), .vAtom (ml 1 2 0xD000 3 2), .vCas (ml 4 2 0 0 3), .vRed (ml 1 2 0x9000 2 2),
   .sAtom (ml 3 2 0xD000 0 3), .sCas (ml 4 2 0 0 2), .chunkTake (ml 4 2 0 0 0), .monArm (ml 0 2 0 0 0), .monWait (ml 0 2 0 0 0),
   .fence (ml 0 0 0 3 0), .txBegin (ml 0 0 0 0 0), .txEnd (ml 5 0 0 0 0), .txAbort (ml 0 0 0xFF 0 0), .txStat (ml 1 0 0 0 2), .keyWait (ml 0 0 0 0 0),
   .keyPass (ml 0 0 0 0 0), .tagSet (mt 0 2 2 2), .tagGet (mt 1 2 0 2), .tagGetWait (mt 1 2 2 2), .prefetch (mt 0 2 2 0),
   .cacheRetain (ml 0 2 0 0 0), .cacheUnpin (ml 0 2 0 0 0), .cacheOpIfetch (ml 0 2 0 0 0), .cacheOpEvl1 (mt 0 2 1 0), .cacheOpEvl2 (mt 0 2 2 0)]
def legalX : List Instr :=
  [.mxCrew ⟨5, 0, 0, 0x001001⟩, .mxZero ⟨1, 0, 0⟩, .mxMma (mxf 7 0 0 4), .mxMmad (mxf 7 5 20 4), .mxMmac (mxf 9 0 0 2), .mxMma64 (mxf 10 0 0 2),
   .mxLdc ⟨1, 0, 4, 0, 0, 8, 0, 0, 0⟩, .mxLdcVar ⟨1, 0, 4, 0, 0, 8, 0, 0, 0⟩, .mxLdcB ⟨0, 8, 4, 1, 0, 8, 24, 0, 0⟩, .mxLdcF64 ⟨2, 0, 4, 0, 0, 16, 0, 0, 0⟩,
   .mxStc ⟨1, 0, 4, 1, 0, 9, 0, 1, 0, 0, 0, 0, 0, 8, 0⟩, .mxStat ⟨3, 1, 0, 0⟩, .cpLoad (cpf 2), .cpStore (cpf 1),
   .cpGather { cpf 2 with sx := 7 }, .cpXfer (cpf 3), .cpFill { cpf 0 with spitch := 0 }, .cpClose ⟨3, 4, 1, 0, 6, 0⟩, .cpWait ⟨3, 0, 0, 0, 6, 0⟩,
   .collStart (cpAddr 6), .launch (cpAddr 0), .evtAdd ⟨3, 4, 1, 0, 6, 0⟩]
def legalControl : List Instr :=
  [.br 1, .brc 1 7 1, .brm 0 3 1, .jmp 1 0 0 0, .call 1 1, .ret 1 0, .part 1 2 1 1, .regang 0, .bar 15 1 0 0, .wbar 63 0 0, .yield 0, .exit 0, .trap 1 0, .brk 1 0,
   .sysRdcr 1 0x68 0, .sysWrcr 1 0x30 0, .sysEret 0, .sysTlbiAll 0 0, .sysTlbiPage 1 0, .sysTlbiCore 0 0, .sysReplay 0, .sysFltpop 2 0, .sysCtxsv 1 2 3 0,
   .sysCtxld 1 2 0, .sysPreempt 1 2 2 0, .sysIpi 1 0, .sysHalt 0]

theorem test_legal_forms : ∀ i ∈ legalScalar ++ legalVector ++ legalFloat ++ legalMemory ++ legalX ++ legalControl,
    wellFormed i = true ∧ decode (encode i) = .ok i (encode i).length := by decide +kernel

/-- Every check refuses: E and immediate words missing or too many (R83); reserved fields and values (R5) of each format; codes,
types, rounding modes, prefixes, widths, orders, tags, pairs and selectors out of their ranges. -/
def illegal : List Instr :=
  [.vFadd (va 1 2 3), .vAdd (ve 1 2 3 123 4 0 0), .vAdd (va 1 125 3), .vMad { ve 1 2 3 4 5 0 0 with imm := some 1 }, .cacheOpEvl1 (ml 0 2 0 0 0),
   .nop (sr 1 0 0 0), .sMov (sr 3 1 4 0), .sMovk ⟨3, 0, .imm32 0 0 0x40000⟩, .sMovk ⟨3, 0, .imm10 1⟩, .sAdd (sr 2 3 4 1), .sAdd ⟨2, 3, .imm32 1 0 5⟩,
   .sPopc (sr 2 3 1 0), .sCmp (sr 2 3 4 12), .sBfx (sr 2 3 4 2), .sLea (sr 2 3 4 4), .sLeaPc ⟨3, 0, .imm10 4⟩, .sLeaPc ⟨3, 1, .imm32 0 8 4⟩,
   .sGetlane ⟨3, 0, .imm32 0 0 0x78⟩, .sGetlane ⟨3, 1, .imm32 0 0 0⟩, .sRdsr ⟨3, 0, .imm10 0x14⟩, .sWrsr ⟨0, 4, .imm10 2⟩, .sWrsr ⟨1, 4, .imm10 1⟩,
   .sGetfmt (sr 3 1 0 0), .vAdd (va 124 2 3), .vAdd (va 1 126 3), .vAdd { va 1 2 3 with hold := 4 }, .vMov (va 1 2 3), .vAdd64 (va 1 4 6),
   .vAdd64 (va 2 121 6), .vSetlane (ve 1 2 123 32 5 0 0), .vIcmp (ve 123 2 3 123 4 9 6), .vIcmp (ve 1 2 3 123 4 9 0), .vSel (ve 1 124 3 123 5 9 0),
   .vFadd (ve 1 2 3 123 4 0 0), .vFadd { ve 1 2 3 123 0 0 0 with e := some ⟨123, 0, 6, 0, 0, 0, 0, 0⟩ },
   .vFadd { ve 1 2 3 123 0 0 0 with e := some ⟨123, 0, 0, 1, 0, 0, 0, 0⟩ }, .vFadd { ve 1 2 3 123 0 0 0 with e := some ⟨123, 0, 0, 0, 1, 0, 0, 0⟩ },
   .vFadd (ve 1 2 3 123 0 5 0), .vFadd (ve 1 2 3 4 0 0 0), .vFcvt (ve 1 2 3 123 1 0 3), .vMxquant (ve 1 2 3 1 0 0 0), .vQunpack (ve 1 123 123 123 0 0 0),
   .vRndu { va 1 123 123 with hold := 1 }, .vDclr (ve 120 123 123 123 0 0 0), .vDvar (ve 1 2 123 123 4 0 0), .vDgetd (ve 1 2 123 123 0 0 5),
   .vDchk (ve 1 2 123 123 0 9 0), .pfxDual ⟨0, 4⟩, .pfxMom ⟨0, 3⟩, .pfxPt ⟨0, 1⟩, .pfxSr ⟨123, 0⟩, .vLd { ml 1 2 0 0 2 with rsv := 1 },
   .vLd (mt 1 2 1 2), .vLd (mt 1 2 2 1), .vLd (ml 1 2 0 0 3), .vLd (ml 1 2 0 2 2), .vLd { ml 1 2 0 0 2 with scope := 7 },
   .vLd { ml 1 2 0 0 2 with policy := 4 }, .vLd { ml 1 2 0 0 2 with vo := 124 }, .vLdsp { ml 8 2 0 0 5 with swz := 1 }, .vLdsp (mt 1 2 1 1),
   .sLd (ml 64 2 0 0 2), .sLd { ml 1 2 0 0 2 with vo := 1 }, .vAtom (ml 1 2 0xE000 0 2), .vRed (ml 1 2 0x8000 0 2), .vCas (ml 2 2 0 0 3),
   .sCas (ml 3 2 0 0 2), .chunkTake (ml 62 2 0 0 0), .monWait (ml 0 2 1 0 0), .fence (ml 0 1 0 0 0), .txBegin (ml 1 0 0 0 0), .txAbort (ml 0 0 0 0 0),
   .txStat (ml 1 0 0 0 3), .tagGet (ml 1 2 0 0 3), .prefetch (ml 0 2 0 0 1), .mxCrew ⟨1, 0, 0, 0⟩, .mxCrew ⟨5, 0, 0, 0x40⟩, .mxZero ⟨0, 0, 0⟩,
   .mxMma (mxf 7 5 0 4), .mxMma (mxf 7 0 0 3), .mxMma { mxf 7 0 0 4 with fb := 1 }, .mxMma { mxf 7 0 0 4 with scaled := 1 }, .mxMma { mxf 7 0 0 4 with vb := 113 },
   .mxMmac { mxf 9 0 0 2 with acc := 1 }, .mxMmad (mxf 9 5 20 4), .mxLdc ⟨1, 8, 4, 0, 0, 8, 0, 0, 0⟩, .mxLdcB ⟨0, 8, 4, 1, 0, 8, 25, 0, 0⟩,
   .mxLdcF64 ⟨1, 0, 4, 0, 0, 16, 0, 0, 0⟩, .mxStc ⟨1, 0, 4, 1, 0, 8, 0, 1, 0, 0, 0, 0, 0, 8, 0⟩, .mxStc ⟨1, 0, 4, 2, 0, 9, 0, 0, 0, 0, 0, 0, 0, 8, 0⟩,
   .mxStat ⟨3, 1, 1, 0⟩, .cpLoad (cpf 3), .cpStore { cpf 1 with dtm := 1 }, .cpXfer { cpf 3 with policy := 1 }, .cpFill (cpf 0), .cpLoad { cpf 2 with sx := 7 },
   .collStart (cpAddr 0), .launch (cpAddr 6), .cpClose ⟨3, 4, 0, 0, 6, 0⟩, .cpWait ⟨3, 0, 0, 0, 7, 0⟩, .evtAdd ⟨3, 4, 1, 1, 6, 0⟩, .brm 1 0 0, .brm 0 4 0,
   .jmp 1 1 0 0, .ret 1 1, .regang 1, .bar 1 0 0 1, .trap 1 1, .sysRdcr 1 3 0, .sysWrcr 1 0 0, .sysTlbiAll 1 0, .sysFltpop 3 0, .sysPreempt 1 2 3 0, .sysHalt 1]

theorem test_illegal_forms : ∀ i ∈ illegal, wellFormed i = false := by decide +kernel

/-! ## Small states -/

/-- The words of an instruction as one number, and the state in which it is placed (log 6). -/
def num (ws : List Word) : Nat := ws.foldr (fun w n => w.toNat + 2 ^ 32 * n) 0
def put (i : Instr) : State := State.reset.withFetchWord (32 * (encode i).length) (num (encode i))

/-- A group of each role, and one of an unprivileged and of a deterministic launch. -/
def sV : State := put (.nop (sr 0 0 0 0))
def sC : State := put (.cpLoad (cpf 2))
def sM : State := put (.mxZero ⟨1, 0, 0⟩)
def sU : State := { sV with launches := sV.launches.map fun (l : Launch) => { l with priv := false } }
def sD : State := { sV with launches := sV.launches.map fun (l : Launch) => { l with hdr := { l.hdr with det := true } } }

/-- A value that is there and meets a condition. -/
theorem found {α : Type} {o : Option α} {P : α → Prop} [DecidablePred P] (h : (o.any fun c => decide (P c)) = true) :
    ∃ c, o = some c ∧ P c := by
  cases o with
  | none => simp at h
  | some c => exact ⟨c, rfl, by simpa using h⟩

/-- The focused gang after a step, and whether it stands n words further. -/
def after (s : State) : State := match step s with | .next t => t | _ => s
def ran (i : Instr) (s : State) : State := match exec i s with | .next t => t | _ => s
def stops (i : Instr) (s : State) : Bool := match exec i s with | .next _ => false | _ => true
def grp (s : State) : Group := match s.groups with | g :: _ => g | [] => (loadLaunch 0 .vector).groupInit 0 0 0 0 0 0 (0, .vector, 0, 0, 0)
def vr (s : State) (l r : Nat) : Word := ((grp s).lane l).vreg r
def sreg (s : State) (n : Nat) : DWord := (grp s).s.getD n 0
def pcOf (s : State) : DWord := match (grp s).gangs with | x :: _ => x.pc | [] => 0
def setS (s : State) (n : Nat) (v : DWord) : State :=
  { s with groups := s.groups.map fun (g : Group) => { g with s := g.s.set n v } }
def setV (s : State) (n : Nat) (f : Nat → Word) : State :=
  { s with groups := s.groups.map fun (g : Group) =>
      { g with lanes := g.lanes.zipIdx.map fun (x : Lane × Nat) => { x.1 with v := x.1.v.set n (f x.2) } } }
/-- Registers s3 to s5 and lanes' v2 to v4 with values. -/
def sR : State := setS (setS (setS sV 3 0xFFFFFFFFFFFFFFF9) 4 2) 5 0x10000
def vR (a b c : Nat → Word) : State := setV (setV (setV sR 2 a) 3 b) 4 c

/-! ## Witnesses: scalar and vector instructions -/

theorem witness_ScalarTwoOperandResult : ∀ e ∈ Claims.scalarTable, ∃ (s : State) (c : Cx) (f : SForm), s.cx? = some c ∧
    c.gg.pfx = [] ∧ e.2.1 f ∧ ∀ r ∈ [f.sd.toNat, f.sa.toNat] ++ Claims.operandRegs f, c.sregOk r = true := by
  intro e he
  obtain ⟨c, hc, h1, h2⟩ := found (o := sR.cx?) (P := fun c : Cx => c.gg.pfx = [] ∧ ∀ r ∈ ([63, 3, 62] : List Nat), c.sregOk r = true) (by decide +kernel)
  refine ⟨sR, c, sr 63 3 62 0, hc, h1, ?_, h2⟩
  have : ∀ e ∈ Claims.scalarTable, e.2.1 (sr 63 3 62 0) := by simp [Claims.scalarTable, Claims.plainFields, Claims.funcFields, sr]
  exact this e he

theorem witness_ScalarMoveResult : ∃ (s : State) (c : Cx), s.cx? = some c ∧ c.gg.pfx = [] ∧ c.sregOk 63 = true ∧ c.sregOk 3 = true ∧
    Claims.plainFields (sr 63 0 3 0) ∧ (119 < 120 ∧ 119 < c.g.ident.nr) ∧ (0x13, c.g.mxcrew) ∈ Claims.specials c := by
  obtain ⟨c, hc, h1, h2, h3, h4⟩ := found (o := sR.cx?)
    (P := fun c : Cx => c.gg.pfx = [] ∧ c.sregOk 63 = true ∧ c.sregOk 3 = true ∧ 119 < c.g.ident.nr) (by decide +kernel)
  exact ⟨sR, c, hc, h1, h2, h3, by simp [Claims.plainFields, sr], ⟨by decide, h4⟩, by simp [Claims.specials]⟩

theorem witness_SpecialRegisterWrites : ∃ (s : State) (c : Cx) (v : Word), s.cx? = some c ∧ c.gg.pfx = [] ∧ c.sregOk 4 = true ∧
    c.g.readS 4 = v.zeroExtend 64 ∧ v.extractLsb' 10 22 = 0#22 ∧ Claims.fmtLegal c.g.ident.k v := by
  obtain ⟨c, hc, h⟩ := found (o := sR.cx?) (P := fun c : Cx => c.gg.pfx = [] ∧ c.sregOk 4 = true ∧ c.g.readS 4 = (2 : Word).zeroExtend 64 ∧
    (2 : Word).extractLsb' 10 22 = 0#22) (by decide +kernel)
  exact ⟨sR, c, 2, hc, h.1, h.2.1, h.2.2.1, h.2.2.2, by simp [Claims.fmtLegal]⟩

/-- Values of FMT that fail R27's checks where K is 0: a reserved code, a reserved bit, IDL in tracked mode, and a component. -/
def badFmts : List (Word × Trap) := [(9, .illegalOperand), (0x80000, .illegalOperand), (0x42000, .modeConflict), (0x10000, .illegalOperand)]
/-- The same value in s4, and all ones in s3. -/
def sFmt (v : DWord) : State := setS (setS sR 3 0xFFFFFFFFFFFFFFFF) 4 v
theorem witness_SpecialRegisterTraps :
    (∀ e ∈ badFmts, ∃ (s : State) (c : Cx), s.cx? = some c ∧ c.gg.pfx = [] ∧ (c.sregOk 3 = true ∧ c.sregOk 4 = true ∧ Claims.plainFields ⟨0, 3, .reg 4 0⟩) ∧
      (c.g.readS 4).extractLsb' 32 32 = 0 ∧ (c.g.readS 4).extractLsb' 0 32 = e.1 ∧
      e.1 = (c.gg.fmt &&& ~~~(lo32 (c.g.readS 3))) ||| (lo32 (Claims.operandB c.g ⟨0, 3, .reg 4 0⟩) &&& lo32 (c.g.readS 3)) ∧ Claims.fmtTrap c.g.ident.k e.1 e.2) ∧
    (∀ v ∈ [0x400, 0x100000000], ∃ (s : State) (c : Cx), s.cx? = some c ∧ c.gg.pfx = [] ∧ c.sregOk 4 = true ∧
      ((c.g.readS 4).extractLsb' 32 32 = 0 ↔ v = 0x400) ∧ ((c.g.readS 4).extractLsb' 10 22 ≠ 0 ↔ v = 0x400)) ∧
    ((0x02 : BitVec 10).toNat ∉ [0, 1, 0x12] ∧ 0x14 ≤ (0x14 : BitVec 10).toNat) := by
  have go : ∀ e : Word × Trap, Claims.fmtTrap 0 e.1 e.2 → (sFmt (e.1.zeroExtend 64)).cx?.any (fun c => decide (c.gg.pfx = [] ∧ (c.sregOk 3 = true ∧ c.sregOk 4 = true) ∧
      (c.g.readS 4).extractLsb' 32 32 = 0 ∧ (c.g.readS 4).extractLsb' 0 32 = e.1 ∧
      e.1 = (c.gg.fmt &&& ~~~(lo32 (c.g.readS 3))) ||| (lo32 (Claims.operandB c.g ⟨0, 3, .reg 4 0⟩) &&& lo32 (c.g.readS 3)) ∧ c.g.ident.k = 0)) = true →
    ∃ (s : State) (c : Cx), s.cx? = some c ∧ c.gg.pfx = [] ∧ (c.sregOk 3 = true ∧ c.sregOk 4 = true ∧ Claims.plainFields ⟨0, 3, .reg 4 0⟩) ∧
      (c.g.readS 4).extractLsb' 32 32 = 0 ∧ (c.g.readS 4).extractLsb' 0 32 = e.1 ∧
      e.1 = (c.gg.fmt &&& ~~~(lo32 (c.g.readS 3))) ||| (lo32 (Claims.operandB c.g ⟨0, 3, .reg 4 0⟩) &&& lo32 (c.g.readS 3)) ∧ Claims.fmtTrap c.g.ident.k e.1 e.2 := by
    intro e h0 h
    obtain ⟨c, hc, h1, ⟨h2, h3⟩, h4, h5, h6, h7⟩ := found h
    exact ⟨_, c, hc, h1, ⟨h2, h3, by simp [Claims.plainFields]⟩, h4, h5, h6, by rw [h7]; exact h0⟩
  refine ⟨?_, ?_, by decide⟩
  · intro e he
    simp only [badFmts, List.mem_cons, List.not_mem_nil, or_false] at he
    rcases he with rfl | rfl | rfl | rfl
    · exact go _ (by simp [Claims.fmtTrap]) (by decide +kernel)
    · exact go _ (by simp [Claims.fmtTrap]) (by decide +kernel)
    · exact go _ (by simp [Claims.fmtTrap]) (by decide +kernel)
    · exact go _ (by simp [Claims.fmtTrap]) (by decide +kernel)
  · intro v hv
    simp only [List.mem_cons, List.not_mem_nil, or_false] at hv
    rcases hv with rfl | rfl
    · exact let ⟨c, h⟩ := found (o := (sFmt 0x400).cx?) (by decide +kernel); ⟨_, c, h⟩
    · exact let ⟨c, h⟩ := found (o := (sFmt 0x100000000).cx?) (by decide +kernel); ⟨_, c, h⟩

theorem witness_VectorIntegerResult : ∃ (s : State) (c : Cx), s.cx? = some c ∧
    (∀ e ∈ Claims.vectorTable, ∃ f ∈ [va 1 2 3, va 1 2 123], c.vCheck e.2.1 f = .ok ()) ∧ c.vCheck spInt2 (va 1 2 3) = .ok () ∧
    c.vCheck spBfi (ve 1 2 3 4 5 0 0) = .ok () ∧ c.vCheck spMad (ve 119 2 3 4 5 0 0) = .ok () ∧ (ve 119 2 3 4 5 0 0).sat = false :=
  found (o := sR.cx?) (by decide +kernel) |>.imp' (fun c => c) (fun _ h => h) |> fun ⟨c, h⟩ => ⟨sR, c, h⟩

/-- `v.mad` with SAT, f as signed and as unsigned. -/
def satMad (type : Nat) : VForm := { ve 1 2 3 4 type 0 0 with e := some ⟨4, BitVec.ofNat 3 type, 0, 1, 0, 0, 0, 0⟩ }
theorem witness_SaturatingMad : ∃ (s : State) (c : Cx), s.cx? = some c ∧ c.vCheck spMad (satMad 4) = .ok () ∧ c.vCheck spMad (satMad 5) = .ok () ∧
    (satMad 4).sat = true ∧ (satMad 5).sat = true :=
  let ⟨c, h⟩ := found (o := sR.cx?) (by decide +kernel); ⟨sR, c, h⟩

theorem witness_VectorMoveResult : ∃ (s : State) (c : Cx), s.cx? = some c ∧ c.vCheck spMov (va 123 2 123) = .ok () ∧
    c.vCheck spSel (ve 1 2 3 123 5 9 0) = .ok () ∧ c.vCheck spShfl (ve 1 2 3 123 5 9 0) = .ok () ∧ c.vCheck spShflx (va 1 2 3) = .ok () ∧
    c.vCheck spSetlane (ve 1 2 123 7 5 0 0) ((ve 1 2 123 7 5 0 0).c < c.g.ident.width) = .ok () :=
  let ⟨c, h⟩ := found (o := sR.cx?) (by decide +kernel); ⟨sR, c, h⟩

theorem witness_VectorCompareMask : ∃ (s : State) (c : Cx), s.cx? = some c ∧ c.g.ident.width ≤ 32 ∧
    c.vCheck spIcmp (ve 123 2 3 123 4 63 5) = .ok () ∧ c.vCheck spIcmp (ve 123 2 3 123 5 9 2) = .ok () :=
  let ⟨c, h⟩ := found (o := sR.cx?) (by decide +kernel); ⟨sR, c, h⟩

theorem witness_VectorPairReduceScan : ∃ (s : State) (c : Cx), s.cx? = some c ∧ c.vCheck spInt64 (va 118 4 6) = .ok () ∧
    c.vCheck spIred (ve 123 2 123 123 5 9 5) = .ok () ∧ c.vCheck spIscan (ve 1 2 123 123 4 0 13) = .ok () ∧ c.lanes ≠ [] :=
  let ⟨c, h⟩ := found (o := sR.cx?) (by decide +kernel); ⟨sR, c, h⟩

theorem witness_FloatArithmeticResult : ∀ e ∈ Claims.floatTable, ∃ (s : State) (c : Cx) (f : VForm), s.cx? = some c ∧
    c.vCheck e.2.1 f = .ok () ∧ e.2.1.type (c.gg.fmt.getLsbD 8) f = 0 ∧ Claims.notSr c f := by
  obtain ⟨c, hc, h, hr⟩ := found (o := sR.cx?) (P := fun c : Cx =>
    (∀ e ∈ Claims.floatTable, ∃ f ∈ [ve 1 2 3 123 0 0 0, ve 1 2 3 4 0 0 0, ve 1 2 123 123 0 0 0],
      c.vCheck e.2.1 f = .ok () ∧ e.2.1.type (c.gg.fmt.getLsbD 8) f = 0 ∧ f.rnd = 0) ∧ c.rm 0 ≠ .sr) (by decide +kernel)
  intro e he
  obtain ⟨f, -, h1, h2, h3⟩ := h e he
  exact ⟨sR, c, f, hc, h1, h2, by unfold Claims.notSr; rw [h3]; exact hr⟩

theorem witness_FloatMinMaxResult : ∃ (s : State) (c : Cx), s.cx? = some c ∧ c.vCheck spPick (ve 1 2 3 123 0 0 0) = .ok () ∧
    spPick.type (c.gg.fmt.getLsbD 8) (ve 1 2 3 123 0 0 0) = 0 :=
  let ⟨c, h⟩ := found (o := sR.cx?) (by decide +kernel); ⟨sR, c, h⟩

/-- A vector group with distributions in v0 to v7 (K = 1) and FMT that selects E4M3, and one of 32 lanes. -/
def sN : State := { sR with groups := sR.groups.map fun (g : Group) =>
  { g with
    ident := { g.ident with dw := 8, k := 1 }
    lanes := g.lanes.map fun (x : Lane) => { x with gloves := List.replicate 8 [0, 0] }
    gangs := g.gangs.map fun (x : Gang) => { x with fmt := 0x11 } } }
def sW : State :=
  { sV with
    launches := sV.launches.map fun (l : Launch) => { l with hdr := { l.hdr with width := 32 } }
    groups := sV.groups.map fun (g : Group) => { (loadLaunch 0 .matrix).groupInit g.ident.id g.ident.team 0 0 0 7 (0, .vector, 0, 120, 0) with
      gangs := g.gangs.map fun (x : Gang) => { x with fmt := 1, slices := List.range 8 } } }

def modX' (s : State) (fmt : Word) : State :=
  { s with groups := s.groups.map fun (g : Group) => { g with gangs := g.gangs.map fun (x : Gang) => { x with fmt := fmt } } }

/-- What each entry of the tables takes. -/
abbrev restOk (c : Cx) : Prop :=
  c.vCheck spFcmp (ve 123 2 3 123 0 9 7) = .ok () ∧ c.vCheck spFclass (ve 1 2 123 123 0 0 0) = .ok () ∧
  c.vCheck spFcvt (ve 1 2 3 123 0 0 2) = .ok () ∧ c.vCheck spCvtfi (ve 2 2 123 123 0 0 6) = .ok () ∧
  c.vCheck spCvtif (ve 2 2 123 123 4 0 3) = .ok () ∧ c.vCheck spDot2 (ve 1 2 3 4 1 0 0) = .ok () ∧
  c.vCheck spQpack (ve 1 2 123 123 0 0 0) (Claims.narrowFmt c (ve 1 2 123 123 0 0 0)).isSome = .ok () ∧
  c.vCheck spQunpack (ve 1 2 123 123 0 0 0) ((Claims.narrowFmt c (ve 1 2 123 123 0 0 0)).isSome && (ve 1 2 123 123 0 0 0).a.toNat < 120) = .ok () ∧
  c.vCheck spMxdeq (ve 1 2 3 123 0 0 1) ((Claims.narrowFmt c (ve 1 2 3 123 0 0 1)).isSome && (ve 1 2 3 123 0 0 1).a.toNat < 120) = .ok () ∧
  c.vCheck spFred (ve 123 2 123 123 0 9 8) = .ok () ∧ c.vCheck spFscan (ve 1 2 123 123 0 0 0) = .ok () ∧
  c.vCheck spArgmax (ve 2 4 6 123 0 0 0) = .ok () ∧ c.vCheck spRnd (ve 1 123 123 123 0 0 0) ((ve 1 123 123 123 0 0 0).hold == 0) = .ok ()
abbrev distOk (c : Cx) : Prop :=
  c.dCheck dvarOk (ve 1 2 123 123 0 0 0) false = .ok () ∧ c.dCheck dsetOk (ve 1 2 3 123 0 0 0) false = .ok () ∧
  c.dCheck dgetdOk (ve 1 2 123 123 0 0 1) false = .ok () ∧ c.dCheck dsetdOk (ve 7 123 3 123 0 0 1) true = .ok () ∧
  c.dCheck dclrOk (ve 7 123 123 123 0 0 0) true = .ok () ∧ c.dCheck dnoiseOk (ve 7 123 3 123 0 0 0) true = .ok () ∧
  (dchkOk (ve 123 2 123 123 0 9 0) = true ∧ c.gg.pfx = [] ∧ c.vregOk false (ve 123 2 123 123 0 9 0).a.toNat = true ∧
    c.sregOk (ve 123 2 123 123 0 9 0).sreg = true)

theorem witness_VectorRestCompletes : ∀ e ∈ Claims.floatRest ++ Claims.distTable, ∃ (s : State) (c : Cx) (f : VForm), s.cx? = some c ∧ e.2.1 c f := by
  obtain ⟨c, hc, ⟨a1, a2, a3, a4, a5, a6, a7, a8, a9, a10, a11, a12, a13⟩, ⟨d1, d2, d3, d4, d5, d6, d7⟩⟩ :=
    found (o := sN.cx?) (P := fun c : Cx => restOk c ∧ distOk c)
      (by decide +kernel)
  obtain ⟨w, hw, g1⟩ := found (o := sW.cx?) (P := fun c : Cx =>
    c.vCheck spMxquant (ve 1 2 3 4 0 0 0) ((Claims.narrowFmt c (ve 1 2 3 4 0 0 0)).any blockFmt && c.g.ident.width == 32) = .ok () ∧
      (c.active = 0 ∨ c.active = 0xFFFFFFFF)) (by decide +kernel)
  simp only [Claims.floatRest, Claims.distTable, List.cons_append, List.nil_append, List.forall_mem_cons]
  exact ⟨⟨_, c, _, hc, a1⟩, ⟨_, c, _, hc, a2⟩, ⟨_, c, _, hc, a3⟩, ⟨_, c, _, hc, a4⟩, ⟨_, c, _, hc, a5⟩, ⟨_, c, _, hc, a6⟩, ⟨_, c, _, hc, a7⟩,
    ⟨_, c, _, hc, a8⟩, ⟨_, w, _, hw, g1⟩, ⟨_, c, ve 1 2 3 123 0 0 1, hc, a9, .inl (by decide)⟩, ⟨_, c, _, hc, a10⟩, ⟨_, c, _, hc, a11⟩, ⟨_, c, _, hc, a12⟩,
    ⟨_, c, _, hc, a13⟩, ⟨_, c, _, hc, a13⟩, ⟨_, c, _, hc, a13⟩, ⟨_, c, _, hc, d1⟩, ⟨_, c, _, hc, d2⟩, ⟨_, c, _, hc, d3⟩, ⟨_, c, _, hc, d4⟩, ⟨_, c, _, hc, d5⟩,
    ⟨_, c, ve 7 123 3 123 0 0 0, hc, d6, .inl (by decide)⟩, ⟨_, c, _, hc, d7⟩, by simp⟩

/-- A decoded value is finite. -/
def isFin : FV → Bool | .fin .. => true | _ => false
theorem real_of {v : FV} (h : isFin v = true) : Claims.fvReal v = some ((Claims.fvReal v).getD 0) := by
  cases v <;> simp_all [isFin, Claims.fvReal]
abbrev rmOk (c : Cx) : Prop := c.rm 0 ≠ .sr
/-- Binary32 forms of the conversions, reductions and samplers. -/
abbrev convOk (c : Cx) : Prop :=
  (c.vCheck spFcmp (ve 123 2 3 123 0 9 7) = .ok () ∧ c.vCheck spFclass (ve 1 2 123 123 0 0 0) = .ok ()) ∧
  (c.vCheck spFcvt (ve 2 2 123 123 0 0 3) = .ok () ∧ c.vCheck spFcvt (ve 1 2 3 123 0 0 1) = .ok () ∧ c.vCheck spFcvt (ve 1 2 3 123 0 0 2) = .ok ()) ∧
  (c.vCheck spCvtfi (ve 1 2 123 123 0 0 4) = .ok () ∧ c.vCheck spCvtfi (ve 1 2 123 123 0 0 5) = .ok () ∧ c.vCheck spCvtfi (ve 2 2 123 123 0 0 6) = .ok ()) ∧
  c.vCheck spCvtif (ve 1 2 123 123 4 0 0) = .ok () ∧ c.vCheck spCvtif (ve 1 2 123 123 5 0 0) = .ok ()
abbrev dotOk (c : Cx) (f : VForm) : Prop :=
  c.vCheck spDot2 f = .ok () ∧ c.rm f.rnd ≠ .sr ∧ ∀ l ∈ c.lanes, isFin (c.fval f (spDot2.type (c.gg.fmt.getLsbD 8) f) 0 f.a.toNat l 0) = true ∧
    isFin (c.fval f (spDot2.type (c.gg.fmt.getLsbD 8) f) 1 f.b.toNat l 0) = true ∧ isFin (c.fval f (spDot2.type (c.gg.fmt.getLsbD 8) f) 0 f.a.toNat l 1) = true ∧
    isFin (c.fval f (spDot2.type (c.gg.fmt.getLsbD 8) f) 1 f.b.toNat l 1) = true ∧ isFin (Fmt.f32.decode (c.src f f.c l).toNat) = true
theorem witness_ConversionValues :
    (∃ (s : State) (c : Cx), s.cx? = some c ∧ c.g.ident.width ≤ 32 ∧ c.gg.fmt.getLsbD 8 = false ∧ rmOk c ∧ convOk c) ∧
    (∃ (s : State) (c : Cx) (f : VForm) (a0 b0 a1 b1 z : Nat → ℝ), s.cx? = some c ∧ c.vCheck spDot2 f = .ok () ∧ Claims.notSr c f ∧
      let el (i code l e : Nat) : Option ℝ := Claims.fvReal (c.fval f (spDot2.type (c.gg.fmt.getLsbD 8) f) i code l e)
      ∀ l ∈ c.lanes, el 0 f.a.toNat l 0 = some (a0 l) ∧ el 1 f.b.toNat l 0 = some (b0 l) ∧ el 0 f.a.toNat l 1 = some (a1 l) ∧
        el 1 f.b.toNat l 1 = some (b1 l) ∧ Claims.fvReal (Fmt.f32.decode (c.src f f.c l).toNat) = some (z l)) := by
  refine ⟨let ⟨c, h⟩ := found (o := sR.cx?) (by decide +kernel); ⟨_, c, h⟩, ?_⟩
  obtain ⟨c, hc, h1, h2, h3⟩ := found (o := sR.cx?) (P := fun c : Cx => dotOk c (ve 1 2 3 4 1 0 0)) (by decide +kernel)
  exact ⟨sR, c, ve 1 2 3 4 1 0 0, _, _, _, _, _, hc, h1, h2, fun l hl =>
    let ⟨p, q, r, t, u⟩ := h3 l hl; ⟨real_of p, real_of q, real_of r, real_of t, real_of u⟩⟩

/-- Values of the 32 lanes of a source, and a tile of scales at scratchpad address 0. -/
def quants (x : Nat → Word) : State := setV sW 2 x
def sTile : State := setV (setS sN 9 0) 3 fun l => BitVec.ofNat 32 l
def isOne (v : FV) : Bool := decide (v = .fin false (.rat ⟨8388608, 8388608⟩))
theorem one_of {v : FV} (h : isOne v = true) : Claims.fvReal v = some 1 := by
  rw [of_decide_eq_true h]
  simp [Claims.fvReal, Claims.reVal]
abbrev mxq (c : Cx) : Prop :=
  Claims.narrowFmt c (ve 1 2 123 4 0 0 0) = some .e4m3 ∧ rmOk c ∧ c.g.ident.width = 32 ∧
  c.vCheck spMxquant (ve 1 2 123 4 0 0 0) (blockFmt .e4m3 && c.g.ident.width == 32) = .ok () ∧ c.active = 0xFFFFFFFF
theorem witness_NarrowValues :
    (∃ (s : State) (c : Cx), s.cx? = some c ∧ rmOk c ∧ Claims.narrowFmt c (ve 1 2 123 123 0 0 0) = some .e4m3 ∧
      c.vCheck spQpack (ve 1 2 123 123 0 0 0) true = .ok () ∧ c.vCheck spQunpack (ve 1 2 123 123 0 0 0) true = .ok () ∧
      c.vCheck spMxdeq (ve 1 2 3 123 0 0 1) true = .ok ()) ∧
    (∃ (s : State) (c : Cx), s.cx? = some c ∧ mxq c ∧ ∀ l < 32, Claims.fvReal (Claims.srcF32 c (ve 1 2 123 4 0 0 0) 0 2 l) = some 1) ∧
    (∃ (s : State) (c : Cx), s.cx? = some c ∧ mxq c ∧ ∀ l < 32, isFin (Claims.srcF32 c (ve 1 2 123 4 0 0 0) 0 2 l) = true) ∧
    (∃ (s : State) (c : Cx), s.cx? = some c ∧ mxq c ∧ ∃ l < 32, Claims.fvReal (Claims.srcF32 c (ve 1 2 123 4 0 0 0) 0 2 l) = none) ∧
    (∃ (s : State) (c : Cx), s.cx? = some c ∧ rmOk c ∧ c.vCheck spMxdeq (ve 1 2 3 123 0 9 2) true = .ok () ∧ Claims.tileReadable c (ve 1 2 3 123 0 9 2) ∧
      c.place (c.g.readS 9) 128 = some (.team 2 0)) := by
  refine ⟨let ⟨c, h⟩ := found (o := sN.cx?) (by decide +kernel); ⟨_, c, h⟩, ?_,
    let ⟨c, h⟩ := found (o := (quants fun _ => 0).cx?) (by decide +kernel); ⟨_, c, h⟩, ?_, ?_⟩
  · obtain ⟨c, hc, h1, h2⟩ := found (o := (quants fun _ => 0x3F800000).cx?) (P := fun c : Cx => mxq c ∧
      ((List.range 32).all fun l => isOne (Claims.srcF32 c (ve 1 2 123 4 0 0 0) 0 2 l)) = true) (by decide +kernel)
    exact ⟨_, c, hc, h1, fun l hl => one_of (List.all_eq_true.mp h2 l (List.mem_range.mpr hl))⟩
  · obtain ⟨c, hc, h1, h2⟩ := found (o := (quants fun _ => 0x7F800000).cx?) (P := fun c : Cx => mxq c ∧ Claims.srcF32 c (ve 1 2 123 4 0 0 0) 0 2 0 = .inf false)
      (by decide +kernel)
    exact ⟨_, c, hc, h1, 0, by decide, by rw [h2]; rfl⟩
  · obtain ⟨c, hc, h1, h2, h0, h3, h4, h5, h6, h7⟩ := found (o := sTile.cx?) (P := fun c : Cx => rmOk c ∧ c.vCheck spMxdeq (ve 1 2 3 123 0 9 2) true = .ok () ∧
      c.loadWait = none ∧ (c.g.readS 9).toNat % 128 = 0 ∧ c.tilePlace (c.g.readS 9) = some (.team 2 0) ∧ c.crewMeets (.team 2 0) 128 false = false ∧ (∀ l ∈ c.lanes, (c.scaleOf (ve 1 2 3 123 0 9 2) (some (.team 2 0)) l).2 = false) ∧
      c.place (c.g.readS 9) 128 = some (.team 2 0)) (by decide +kernel)
    exact ⟨_, c, hc, h1, h2, ⟨h0, h3, _, h4, h5, h6⟩, h7⟩

/-- Binary64, packed and integer forms of the comparisons, classes and conversions. -/
abbrev wideOk (c : Cx) : Prop :=
  c.vCheck spFcmp (ve 123 2 4 123 3 9 7) = .ok () ∧ (∀ t ∈ [1, 3], c.vCheck spFclass (ve 1 2 123 123 t 0 0) = .ok ()) ∧
  (∀ f ∈ [ve 1 2 123 123 3 0 0, ve 2 2 123 123 3 0 3, ve 1 2 123 123 1 0 2, ve 2 2 123 123 1 0 0, ve 1 2 3 123 0 0 2], c.vCheck spFcvt f = .ok ()) ∧
  (∀ f ∈ [ve 1 2 123 123 3 0 4, ve 1 2 123 123 3 0 5, ve 2 2 123 123 3 0 6], c.vCheck spCvtfi f = .ok ()) ∧
  ∀ f ∈ [ve 1 2 123 123 6 0 0, ve 2 2 123 123 6 0 3, ve 2 2 123 123 5 0 3], c.vCheck spCvtif f = .ok ()
theorem witness_WideConversions : ∃ (s : State) (c : Cx), s.cx? = some c ∧ c.g.ident.width ≤ 32 ∧ rmOk c ∧ wideOk c :=
  let ⟨c, h⟩ := found (o := sR.cx?) (by decide +kernel); ⟨_, c, h⟩

/-- A `v.mxquant` to E2M1 with an immediate clip, over values of which two, 9 and -12, are above a clip of 4. -/
def clipForm (v : Word) : VForm := match decode [0x67100BE8, 0x12000002, v] with | .ok (.vMxquant f) _ => f | _ => va 1 2 3
def quantVals (l : Nat) : Word := if l = 0 then 0x41100000 else if l = 5 then 0xC1400000 else if l = 7 then 0x40200000 else if l = 12 then 0xBF400000 else 0
def sClip : State := modX' (quants quantVals) 5
abbrev clipOk (c : Cx) (f : VForm) : Prop := Claims.narrowFmt c f = some .e2m1 ∧ c.rm f.rnd ≠ .sr ∧
  c.vCheck spMxquant f (blockFmt .e2m1 && c.g.ident.width == 32) = .ok () ∧ c.active = 0xFFFFFFFF ∧ f.b.toNat ≠ 123
abbrev clipOf (c : Cx) (v : Word) : FV := Claims.srcF32 c (clipForm v) 1 (clipForm v).b.toNat 0
abbrev laneOf (c : Cx) (v : Word) (l : Nat) : FV := Claims.srcF32 c (clipForm v) 0 (clipForm v).a.toNat l
def isRat (neg : Bool) (n d : Nat) (v : FV) : Bool := decide (v = .fin neg (.rat ⟨n, d⟩))
theorem rat_of {neg : Bool} {n d : Nat} {v : FV} (h : isRat neg n d v = true) : Claims.fvReal v = some (if neg then -((n : ℝ) / d) else (n : ℝ) / d) := by
  rw [of_decide_eq_true h]
  simp [Claims.fvReal, Claims.reVal]
theorem witness_ClippedBlocks :
    (∀ e ∈ [((0x40800000 : Word), some (4 : ℝ)), (0x7F800000, none)], ∃ (s : State) (c : Cx) (v : Nat → ℝ), s.cx? = some c ∧ clipOk c (clipForm e.1) ∧
      (∀ l < 32, Claims.fvReal (laneOf c e.1 l) = some (v l)) ∧ Claims.ClipIs (clipOf c e.1) e.2 ∧ v 0 = 9 ∧ v 5 = -12) ∧
    (∃ (s : State) (c : Cx), s.cx? = some c ∧ clipOk c (clipForm 0x40800000) ∧ ∃ l < 32, Claims.fvReal (laneOf c 0x40800000 l) = none) ∧
    (∀ e ∈ [((0x7FC00000 : Word), FV.nan false), (0xFF800000, .inf true)], ∃ (s : State) (c : Cx), s.cx? = some c ∧ clipOk c (clipForm e.1) ∧ clipOf c e.1 = e.2) ∧
    (∃ (s : State) (c : Cx) (k : ℝ), s.cx? = some c ∧ clipOk c (clipForm 0xC0800000) ∧ Claims.fvReal (clipOf c 0xC0800000) = some k ∧ k ≤ 0) := by
  have go : ∀ (w : Word) (clip : Option ℝ), (sClip.cx?.any fun c => decide (clipOk c (clipForm w) ∧ ((List.range 32).all fun l => isFin (laneOf c w l)) = true ∧
      (isRat false 9437184 1048576 (laneOf c w 0) = true ∧ isRat true 12582912 1048576 (laneOf c w 5) = true) ∧
      if w = 0x40800000 then isRat false 8388608 2097152 (clipOf c w) = true else clipOf c w = .inf false)) = true →
      (clip = if w = 0x40800000 then some 4 else none) → ∃ (s : State) (c : Cx) (v : Nat → ℝ), s.cx? = some c ∧ clipOk c (clipForm w) ∧
      (∀ l < 32, Claims.fvReal (laneOf c w l) = some (v l)) ∧ Claims.ClipIs (clipOf c w) clip ∧ v 0 = 9 ∧ v 5 = -12 := by
    intro w clip h hk
    obtain ⟨c, hc, h1, h2, ⟨h3, h4⟩, h5⟩ := found h
    refine ⟨_, c, _, hc, h1, fun l hl => real_of (List.all_eq_true.mp h2 l (List.mem_range.mpr hl)), ?_, ?_, ?_⟩
    · subst hk
      split at h5 <;> rename_i hw
      · simp only [hw, if_true, Claims.ClipIs] at h5 ⊢
        exact ⟨by rw [rat_of h5]; norm_num, by norm_num⟩
      · rw [if_neg hw, h5]
        intro k hk
        simp [Claims.fvReal] at hk
    · simp only [rat_of h3, Option.getD_some]; norm_num
    · simp only [rat_of h4, Option.getD_some]; norm_num
  refine ⟨fun e he => ?_, ?_, fun e he => ?_, ?_⟩
  · simp only [List.mem_cons, List.not_mem_nil, or_false] at he
    rcases he with rfl | rfl
    · exact go _ _ (by decide +kernel) (by simp)
    · exact go _ _ (by decide +kernel) (by simp)
  · obtain ⟨c, hc, h1, h2⟩ := found (o := (modX' (quants fun _ => 0x7F800000) 5).cx?) (P := fun c : Cx => clipOk c (clipForm 0x40800000) ∧ laneOf c 0x40800000 31 = .inf false)
      (by decide +kernel)
    exact ⟨_, c, hc, h1, 31, by decide, by rw [h2]; rfl⟩
  · simp only [List.mem_cons, List.not_mem_nil, or_false] at he
    rcases he with rfl | rfl
    · exact let ⟨c, h⟩ := found (o := sClip.cx?) (by decide +kernel); ⟨_, c, h⟩
    · exact let ⟨c, h⟩ := found (o := sClip.cx?) (by decide +kernel); ⟨_, c, h⟩
  · obtain ⟨c, hc, h1, h2⟩ := found (o := sClip.cx?) (P := fun c : Cx => clipOk c (clipForm 0xC0800000) ∧ isRat true 8388608 2097152 (clipOf c 0xC0800000) = true) (by decide +kernel)
    exact ⟨_, c, _, hc, h1, rat_of h2, by norm_num⟩

theorem witness_ReductionValues :
    (∃ (s : State) (c : Cx), s.cx? = some c ∧ rmOk c ∧ c.gg.fmt.getLsbD 8 = false ∧
      (∃ r, Claims.treeOf (fun l => decide (l ∈ c.lanes)) (fun l => (Claims.srcWord32 c (ve 1 2 123 123 0 0 0) 0 2 l).toNat) (Claims.comb32 (c.rm 0) 0)
        (Nat.log2 c.g.ident.width) 0 = some r) ∧
      c.vCheck spFred (ve 1 2 123 123 0 0 0) = .ok () ∧ c.vCheck spFred (ve 123 2 123 123 0 9 8) = .ok () ∧ 9 < c.g.s.length ∧
      c.vCheck spFscan (ve 1 2 123 123 0 0 8) = .ok () ∧ c.vCheck spArgmax (ve 2 4 6 123 0 0 0) = .ok () ∧ c.vCheck spRnd (ve 1 123 123 123 0 0 0) true = .ok ()) := by
  obtain ⟨c, hc, h1, h2, h3, h4⟩ := found (o := sR.cx?) (P := fun c : Cx => rmOk c ∧ c.gg.fmt.getLsbD 8 = false ∧
      (Claims.treeOf (fun l => decide (l ∈ c.lanes)) (fun l => (Claims.srcWord32 c (ve 1 2 123 123 0 0 0) 0 2 l).toNat) (Claims.comb32 (c.rm 0) 0)
        (Nat.log2 c.g.ident.width) 0).isSome = true ∧
      c.vCheck spFred (ve 1 2 123 123 0 0 0) = .ok () ∧ c.vCheck spFred (ve 123 2 123 123 0 9 8) = .ok () ∧ 9 < c.g.s.length ∧
      c.vCheck spFscan (ve 1 2 123 123 0 0 8) = .ok () ∧ c.vCheck spArgmax (ve 2 4 6 123 0 0 0) = .ok () ∧ c.vCheck spRnd (ve 1 123 123 123 0 0 0) true = .ok ()) (by decide +kernel)
  exact ⟨_, c, hc, h1, h2, Option.isSome_iff_exists.mp h3, h4⟩

/-- Distributions in independent mode and in tracked mode. -/
def sInd : State := modX' sN 0x1011
def sTrk : State := modX' sN 0x2011
abbrev clearB (c : Cx) : Prop :=
  (∀ e ∈ Claims.vectorTable, c.vCheck e.2.1 (va 1 2 3) = .ok () ∨ c.vCheck e.2.1 (va 1 2 123) = .ok ()) ∧
  c.vCheck spInt2 (va 1 2 3) = .ok () ∧ c.vCheck spBfi (ve 1 2 3 4 5 0 0) = .ok () ∧ c.vCheck spMad (ve 1 2 3 4 5 0 0) = .ok () ∧
  c.vCheck spIscan (ve 1 2 123 123 5 0 0) = .ok () ∧ c.vCheck spInt64 (va 2 4 6) = .ok () ∧ c.vCheck spFclass (ve 1 2 123 123 0 0 0) = .ok () ∧
  c.vCheck spCvtfi (ve 1 2 123 123 0 0 4) = .ok () ∧ c.vCheck spRnd (ve 1 123 123 123 0 0 0) true = .ok ()
abbrev copyB (c : Cx) : Prop :=
  c.vCheck spMov (va 1 2 123) = .ok () ∧ c.vCheck spSel (ve 1 2 3 123 5 9 0) = .ok () ∧ c.vCheck spShfl (ve 1 2 3 123 5 9 0) = .ok () ∧
  c.vCheck spShflx (va 1 2 3) = .ok () ∧ c.vCheck spSetlane (ve 1 2 123 7 5 0 0) ((ve 1 2 123 7 5 0 0).c < c.g.ident.width) = .ok () ∧ 7 ∈ c.lanes ∧
  1 < (c.g.lane 7).gloves.length
abbrev partialOk (c : Cx) (sp : VSpec) (f : VForm) : Prop :=
  c.vCheck sp f = .ok () ∧ sp.type (c.gg.fmt.getLsbD 8) f = 0 ∧ f.rnd = 0 ∧
  (∀ i < 3, isFin (Claims.srcF32 c f i ([f.a.toNat, f.b.toNat, f.c].getD i 123) 7) = true) ∧
  ∀ i < 3, (Claims.gloveWord c ([f.a.toNat, f.b.toNat, f.c].getD i 123) 7 0).extractLsb' 23 8 ≠ 0xFF#8
abbrev partialB (c : Cx) : Prop :=
  (c.gg.pfx = [] ∧ c.gg.fmt.extractLsb' 12 2 = 1#2 ∧ c.gg.fmt.getLsbD 14 = false ∧ c.gg.fmt.getLsbD 18 = false ∧ rmOk c ∧ 7 ∈ c.lanes) ∧
  ∀ e ∈ Claims.partialSquares, ∃ f ∈ [ve 1 2 3 123 0 0 0, ve 1 2 3 4 0 0 0], partialOk c e.2.1 f
theorem witness_Gloves :
    (∀ e ∈ Claims.clearTable, ∃ (s : State) (c : Cx) (f : VForm), s.cx? = some c ∧ e.2.1 c f) ∧
    (∀ e ∈ Claims.copyGloves, ∃ (s : State) (c : Cx) (f : VForm), s.cx? = some c ∧ c.vCheck e.2.1 f = .ok () ∧ 7 ∈ c.lanes ∧ f.d.toNat < (c.g.lane 7).gloves.length) ∧
    (∃ (s : State) (c : Cx), s.cx? = some c ∧ c.vCheck spSetlane (ve 1 2 123 7 5 0 0) ((ve 1 2 123 7 5 0 0).c < c.g.ident.width) = .ok ()) ∧
    (∀ e ∈ Claims.partialSquares, ∃ (s : State) (c : Cx) (f : VForm), s.cx? = some c ∧ c.gg.pfx = [] ∧ c.gg.fmt.extractLsb' 12 2 = 1#2 ∧ c.gg.fmt.getLsbD 14 = false ∧
      c.gg.fmt.getLsbD 18 = false ∧ c.vCheck e.2.1 f = .ok () ∧ e.2.1.type (c.gg.fmt.getLsbD 8) f = 0 ∧ Claims.notSr c f ∧ 7 ∈ c.lanes ∧
      (∀ i < 3, isFin (Claims.srcF32 c f i ([f.a.toNat, f.b.toNat, f.c].getD i 123) 7) = true) ∧
      ∀ i < 3, Claims.finiteWord (Claims.gloveWord c ([f.a.toNat, f.b.toNat, f.c].getD i 123) 7 0)) := by
  obtain ⟨c, hc, h1, b1, b2, b3, b4, b5, b6, b7, b8⟩ := found (o := sInd.cx?) (P := clearB) (by decide +kernel)
  obtain ⟨m, hm, m1, m2, m3, m4, m5, m6, m7⟩ := found (o := sInd.cx?) (P := copyB) (by decide +kernel)
  obtain ⟨p, hq, ⟨p1, p2, p3, p4, p5⟩, hp⟩ := found (o := sInd.cx?) (P := partialB) (by decide +kernel)
  refine ⟨?_, ?_, ⟨_, m, hm, m5⟩, ?_⟩
  · intro e he
    simp only [Claims.clearTable, List.mem_append] at he
    rcases he with he | he
    · obtain ⟨x, hx, rfl⟩ := List.mem_map.mp he
      rcases h1 x hx with h | h
      · exact ⟨_, c, _, hc, h⟩
      · exact ⟨_, c, _, hc, h⟩
    · revert e
      simp only [List.forall_mem_cons]
      exact ⟨⟨_, c, _, hc, b1⟩, ⟨_, c, _, hc, b1⟩, ⟨_, c, _, hc, b2⟩, ⟨_, c, _, hc, b3⟩, ⟨_, c, _, hc, b4⟩, ⟨_, c, _, hc, b5⟩, ⟨_, c, _, hc, b5⟩, ⟨_, c, _, hc, b6⟩,
        ⟨_, c, _, hc, b7⟩, ⟨_, c, ve 1 123 123 123 0 0 0, hc, b8⟩, ⟨_, c, ve 1 123 123 123 0 0 0, hc, b8⟩, ⟨_, c, ve 1 123 123 123 0 0 0, hc, b8⟩, by simp⟩
  · simp only [Claims.copyGloves, List.forall_mem_cons]
    exact ⟨⟨_, m, _, hm, m1, m6, m7⟩, ⟨_, m, _, hm, m2, m6, m7⟩, ⟨_, m, _, hm, m3, m6, m7⟩, ⟨_, m, _, hm, m4, m6, m7⟩, by simp⟩
  · intro e he
    obtain ⟨f, -, h1, h2, h3, h4, h5⟩ := hp e he
    exact ⟨_, p, f, hq, p1, p2, p3, p4, h1, h2, by unfold Claims.notSr; rw [h3]; exact p5.1, p5.2, h4, h5⟩

/-- What the distribution instructions take, with whole gloves: in independent mode, and in tracked mode with finite words. -/
abbrev glovesB (c : Cx) : Prop := ∀ l ∈ c.lanes, ∀ gl ∈ (c.g.lane l).gloves, gl.length = 1 + c.g.ident.k
theorem witness_DistributionValues :
    (∃ (s : State) (c : Cx), s.cx? = some c ∧ Claims.glovesWhole c ∧ distOk c ∧ c.gg.fmt.extractLsb' 12 2 ≠ 2#2 ∧ c.g.ident.width ≤ 32 ∧
      Claims.finiteWord (c.src (ve 7 123 3 123 0 0 0) 3 7)) ∧
    (∃ (s : State) (c : Cx), s.cx? = some c ∧ Claims.glovesWhole c ∧ distOk c ∧ c.gg.fmt.extractLsb' 12 2 = 2#2 ∧ 7 ∈ c.lanes ∧
      (∀ r, r < c.g.ident.dw → r < (c.g.lane 7).gloves.length) ∧ (∀ j < c.g.ident.k + 1, Claims.finiteWord (Claims.gloveWord c 2 7 j)) ∧
      c.dCheck dnoiseOk (ve 7 123 3 123 0 0 1) true = .ok ()) := by
  obtain ⟨c, hc, h1, h2, h3, h4, h5⟩ := found (o := sInd.cx?) (P := fun c : Cx => glovesB c ∧ distOk c ∧ c.gg.fmt.extractLsb' 12 2 ≠ 2#2 ∧ c.g.ident.width ≤ 32 ∧
    (c.src (ve 7 123 3 123 0 0 0) 3 7).extractLsb' 23 8 ≠ 0xFF#8) (by decide +kernel)
  obtain ⟨d, hd, k1, k2, k3, k4, k5, k6, k7⟩ := found (o := sTrk.cx?) (P := fun c : Cx => glovesB c ∧ distOk c ∧ c.gg.fmt.extractLsb' 12 2 = 2#2 ∧ 7 ∈ c.lanes ∧
    (c.g.ident.dw ≤ (c.g.lane 7).gloves.length) ∧ (∀ j < c.g.ident.k + 1, (Claims.gloveWord c 2 7 j).extractLsb' 23 8 ≠ 0xFF#8) ∧
    c.dCheck dnoiseOk (ve 7 123 3 123 0 0 1) true = .ok ()) (by decide +kernel)
  exact ⟨⟨_, c, hc, h1, h2, h3, h4, h5⟩, ⟨_, d, hd, k1, k2, k3, k4, fun r hr => Nat.lt_of_lt_of_le hr k5, k6, k7⟩⟩

theorem witness_DclrClearsGlove : ∃ (s : State) (c : Cx), s.cx? = some c ∧ c.dCheck dclrOk (ve 7 123 123 123 0 0 0) true = .ok () ∧
    7 ∈ c.lanes ∧ (c.g.lane 7).gloves[7]? = some [0, 0] ∧ [(0 : Word), 0].length = 1 + c.g.ident.k :=
  let ⟨c, h⟩ := found (o := sN.cx?) (by decide +kernel); ⟨sN, c, h⟩

/-- Lane 0 has the word 7 in latch 1, readable for two instructions more. -/
def sLat : State := { sR with groups := sR.groups.map fun (g : Group) => { g with lanes := g.lanes.map fun (x : Lane) => { x with latches := x.latches.set 1 ⟨7, 2⟩ } } }
theorem witness_LatchValues : ∃ (s : State) (c : Cx), s.cx? = some c ∧ c.gg.slices.Nodup ∧ 0 ∈ c.gg.lanes ∧ (c.g.lane 0).latches[1]? = some ⟨7, 2⟩ ∧
    ∀ f ∈ [va 121 2 3, { va 1 2 3 with hold := 2 }, { va 120 2 3 with hold := 6 }, va 122 121 3], c.vCheck spInt2 f = .ok () :=
  let ⟨c, h⟩ := found (o := sLat.cx?) (by decide +kernel); ⟨sLat, c, h⟩

theorem val_of {w : Word} {e m : Nat} (h : (w.extractLsb' 23 8).toNat = e ∧ (w.extractLsb' 0 23).toNat = m ∧ w.getLsbD 31 = false) (he : e ≠ 0) :
    Claims.wordVal w = ((m + 2 ^ 23 : Nat) : ℝ) * (2 : ℝ) ^ ((e : ℤ) - 150) := by
  simp [Claims.wordVal, h.1, h.2.1, he]
  intro hx
  simp [hx] at h
/-- 2,048, and a value of no more than 2,000. -/
theorem witness_ExactFunctions : Claims.finiteWord 0x45000000 ∧ 2000 < |Claims.wordVal 0x45000000| ∧ |Claims.wordVal 0x3F800000| ≤ 2000 := by
  refine ⟨by unfold Claims.finiteWord; decide, ?_, ?_⟩
  · rw [val_of (e := 138) (m := 0) (by decide) (by decide)]; norm_num
  · rw [val_of (e := 127) (m := 0) (by decide) (by decide)]; norm_num

/-- Roundings that are exact, inexact, inexact below the normal range, and overflow to infinity or, saturating, to the largest. -/
theorem witness_Roundings : ∀ e ∈ [(Fmt.f32, false, (⟨1, 1⟩ : Q), (0 : Word)), (.f32, false, ⟨1, 3⟩, 1), (.f32, false, ⟨1, 3 * 2 ^ 140⟩, 3), (.f32, false, ⟨2 ^ 200, 1⟩, 5),
      (.e4m3, true, ⟨500, 1⟩, 0x21)],
    e.1 ≠ .lns6 ∧ 0 < e.2.2.1.n ∧ 0 < e.2.2.1.d ∧ (e.1.roundTo .rne e.2.1 0 (.fin false (.rat e.2.2.1))).flags = e.2.2.2 := by decide +kernel

theorem witness_AdvanceAndPrefix : ∃ (s : State) (c : Cx), s.cx? = some c ∧ c.gg.atEnd 0 = false :=
  let ⟨c, h⟩ := found (o := sV.cx?) (by decide +kernel); ⟨sV, c, h⟩

theorem witness_DrawCounterAdvances : 7 < (grp sV).lanes.length := by decide +kernel

/-! ## Witnesses: memory -/

def setEm (s : State) (e : Word) : State := { s with groups := s.groups.map fun (g : Group) => { g with em := e } }
/-- Lane l has 16 l in v2: the offset of its access. -/
def sG : State := setV (setS sV 2 0x4000) 2 (fun l => BitVec.ofNat 32 (16 * l))
def mo (m : MForm) : MForm := { m with vo := 2 }

/-- Nothing of the group, its handlers' sets, the links and the engines holds an access back. -/
def aheadB (c : Cx) : Bool :=
  c.g.tx.close.isNone && c.g.keyq.isEmpty && !c.g.tx.lockHeld && c.gg.split.isNone && !c.releaseHeld && !c.s.linksDown.contains .cdCd &&
  (c.s.groups.all fun g => g.cmds.isEmpty) && !c.scBusy
theorem ahead_of {c : Cx} (h : aheadB c = true) : Claims.nothingAhead c := by
  simp only [aheadB, Bool.and_eq_true, Option.isNone_iff_eq_none, List.isEmpty_iff, Bool.not_eq_true', List.all_eq_true] at h
  obtain ⟨⟨⟨⟨⟨⟨⟨h1, h2⟩, h3⟩, h4⟩, h5⟩, h6⟩, h7⟩, h8⟩ := h
  exact ⟨h1, h2, h3, h4, h5, by simpa using h6, h7, h8⟩

/-- The translations have all succeeded. -/
def okTr (x : Tr) : Bool := match x with | .ok .. => true | _ => false
theorem trs_of {ts : List (Req × List (Sub × Tr))} (h : (ts.all fun t => t.2.all fun x => okTr x.2) = true) : ∀ t ∈ ts, ∀ x ∈ t.2, ∃ pa leaf, x.2 = .ok pa leaf := by
  intro t ht x hx
  have := List.all_eq_true.mp (List.all_eq_true.mp h t ht) x hx
  revert this
  cases x.2 <;> simp [okTr]
def readyB (c : Cx) (reqs : List Req) : Bool :=
  aheadB c && c.g.tx.depth == 0 && (reqs.all fun r => r.lane.all fun l => !(c.g.lane l).tx.inTx) &&
  (reqs.all fun r => r.subs.all fun b => b.va.toNat % b.n == 0) && ((c.trReqs reqs c.s).1.all fun t => t.2.all fun x => okTr x.2)
theorem ready_of {c : Cx} {reqs : List Req} (h : readyB c reqs = true) : Claims.accessReady c reqs := by
  simp only [readyB, Bool.and_eq_true] at h
  obtain ⟨⟨⟨⟨h1, h2⟩, h5⟩, h7⟩, h8⟩ := h
  refine ⟨⟨ahead_of h1, by simpa using h2, fun r hr l hl => ?_, by simpa using h7⟩, trs_of h8⟩
  simpa [hl] using List.all_eq_true.mp h5 r hr

/-- The state after the translations of a store, and what the nine rows of the table need in it. -/
def warm (s : State) (reqs : Cx → List Req) : State := match s.cx? with | some c => (c.trReqs (reqs c) c.s).2 | none => s
def sT : State := warm sG fun c => c.lanes.map (c.stReq (mo (ml 8 2 0 0 2)))
theorem row_ok {s : State} (hm : Mem.wf s.mem = true) (chk : Cx → Except Tq Unit) (rq : Cx → List Req)
    (h : (s.cx?.any fun c => decide (chk c = .ok () ∧ readyB c (rq c) = true ∧ (c.trReqs (rq c) c.s).2 = c.s)) = true) :
    ∃ (s : State) (c : Cx), s.cx? = some c ∧ chk c = .ok () ∧ MemCanonical s ∧ Claims.accessReady c (rq c) ∧ (c.trReqs (rq c) c.s).2 = c.s :=
  let ⟨c, e, a, b, t⟩ := found h; ⟨s, c, e, a, hm, ready_of b, t⟩

theorem witness_GlobalAccess : ∀ e ∈ Claims.globalTable, ∃ (m : MForm) (s : State) (c : Cx), s.cx? = some c ∧ e.2.1 c m ∧ MemCanonical s ∧
    Claims.accessReady c (e.2.2 c m).2 ∧ (c.trReqs (e.2.2 c m).2 c.s).2 = c.s := by
  have hm : Mem.wf sT.mem = true := by decide +kernel
  simp only [Claims.globalTable, List.forall_mem_cons]
  refine ⟨⟨{ mo (mt 1 2 1 1) with order := 1, scope := 6 }, ?_⟩, ⟨{ mo (ml 8 2 0 2 5) with vo := 123 }, ?_⟩, ⟨mt 3 2 1 2, ?_⟩, ⟨ml 3 2 0x38 2 3, ?_⟩,
    ⟨mo (ml 1 2 0xD000 3 2), ?_⟩, ⟨mo (ml 4 2 0 0 3), ?_⟩, ⟨mo (ml 1 2 0x9000 2 2), ?_⟩, ⟨ml 3 2 0xD000 0 3, ?_⟩, ⟨ml 4 2 0 3 2, ?_⟩, by simp⟩
  · exact row_ok hm _ _ (by decide +kernel)
  · exact row_ok hm _ _ (by decide +kernel)
  · exact row_ok hm _ _ (by decide +kernel)
  · exact row_ok hm _ _ (by decide +kernel)
  · exact row_ok hm _ _ (by decide +kernel)
  · exact row_ok hm _ _ (by decide +kernel)
  · exact row_ok hm _ _ (by decide +kernel)
  · exact row_ok hm _ _ (by decide +kernel)
  · exact row_ok hm _ _ (by decide +kernel)

/-- A result that is there, and an answer that is a next state, that meet a condition. -/
def okAnd {ε α : Type} (e : Except ε α) (p : α → Bool) : Bool := match e with | .ok a => p a | .error _ => false
theorem foundE {ε α : Type} {e : Except ε α} {p : α → Bool} (h : okAnd e p = true) : ∃ a, e = .ok a ∧ p a = true := by
  cases e with
  | error _ => simp [okAnd] at h
  | ok a => exact ⟨a, rfl, h⟩
theorem foundN {r : Host.Outcome State Fault Refusal} {P : State → Prop} [DecidablePred P]
    (h : (match r with | .next t => decide (P t) | _ => false) = true) : ∃ t, r = .next t ∧ P t := by
  cases r with
  | next t => exact ⟨t, rfl, by simpa using h⟩
  | fault _ => simp at h
  | refused _ => simp at h

/-- Where an access stands, with its translation already made; and accesses that stand apart. -/
def stand (c : Cx) (b : Sub) : Option Nat :=
  match c.s.translate c.die (some c.t.core) b.va ⟨b.act.isWrite, false, c.priv⟩ c.gg.afresh with
  | (.ok pa _, t) => if t = c.s then some pa else none
  | _ => none
theorem stand_iff {c : Cx} {b : Sub} {pa : Nat} : Claims.standsAt c b pa ↔ stand c b = some pa := by
  unfold Claims.standsAt stand
  constructor
  · rintro ⟨leaf, h⟩
    simp [h]
  · intro h
    split at h
    · rename_i q leaf t he
      split at h
      · rename_i ht
        simp only [Option.some.injEq] at h
        subst h
        subst ht
        exact ⟨leaf, he⟩
      · simp at h
    · simp at h
def apartB (c : Cx) (reqs : List Req) : Bool :=
  (reqs.all fun r => r.subs.all fun b => (stand c b).isSome) &&
  decide ((reqs.flatMap (·.subs)).Pairwise fun a b => (match stand c a, stand c b with
    | some p, some q => decide (p + a.n ≤ q) || decide (q + b.n ≤ p)
    | _, _ => true) = true)
theorem apart_of {c : Cx} {reqs : List Req} (h : apartB c reqs = true) : Claims.accessApart c reqs := by
  simp only [apartB, Bool.and_eq_true, List.all_eq_true, decide_eq_true_eq] at h
  refine ⟨fun r hr b hb => ?_, h.2.imp fun {a b} hab p q hp hq => ?_⟩
  · obtain ⟨pa, hpa⟩ := Option.isSome_iff_exists.mp (h.1 r hr b hb)
    exact ⟨pa, stand_iff.mpr hpa⟩
  · rw [stand_iff.mp hp, stand_iff.mp hq] at hab
    simpa using hab

/-- Every active lane's access stands apart from the others'; and the first load's lane 0 in a span, with a tangent shadow (R116). -/
def freeB (c : Cx) (reqs : List Req) : Bool := readyB c reqs && apartB c reqs
theorem free_of {c : Cx} {reqs : List Req} (h : freeB c reqs = true) : Claims.accessReady c reqs ∧ Claims.accessApart c reqs := by
  simp only [freeB, Bool.and_eq_true] at h
  exact ⟨ready_of h.1, apart_of h.2⟩
def sSh : State := warm { sG with
    launches := sG.launches.map fun (l : Launch) => { l with spans := [(0x4000, 0x1000, 0x1000)] }
    groups := sG.groups.map fun (g : Group) => { g with
      ident := { g.ident with dw := 8, k := 1 }
      lanes := g.lanes.map fun (x : Lane) => { x with gloves := List.replicate 8 [0, 0] }
      gangs := g.gangs.map fun (x : Gang) => { x with fmt := 0x00050000 } } } fun c => c.lanes.map (c.stReq (mo (ml 2 2 0 0 2)))
theorem witness_VectorAccessValues :
    (∃ (s : State) (c : Cx), s.cx? = some c ∧ MemCanonical s ∧ s.poison = [] ∧ c.l.hdr.det = false ∧ c.gg.op = none ∧ c.lanes.length = 8 ∧
      (c.mCheck (vLdOk (mo (mt 1 2 1 1))) (mo (mt 1 2 1 1)) (mRegs (mo (mt 1 2 1 1))) [] = .ok () ∧
        Claims.accessReady c (c.lanes.map (c.ldReq (mo (mt 1 2 1 1)))) ∧ Claims.accessApart c (c.lanes.map (c.ldReq (mo (mt 1 2 1 1))))) ∧
      (c.mCheck (vStOk (mo (ml 8 2 0 0 3))) (mo (ml 8 2 0 0 3)) (mRegs (mo (ml 8 2 0 0 3))) [] = .ok () ∧
        Claims.accessReady c (c.lanes.map (c.stReq (mo (ml 8 2 0 0 3)))) ∧ Claims.accessApart c (c.lanes.map (c.stReq (mo (ml 8 2 0 0 3))))) ∧
      (∀ m ∈ [mo (ml 1 2 0xD000 3 2)], c.mCheck (vAtomOk m) m (mRegs m) [] = .ok () ∧
        let rs := c.lanes.map (c.laneReq m (imm12 m) fun l => .act (.atom (mAtop m) (mW64 m) (c.g.opnd l m.vd.toNat (mW64 m)) (some (c.g.vTgts l m.vd.toNat (mRegs m)))))
        Claims.accessReady c rs ∧ Claims.accessApart c rs) ∧
      (∀ m ∈ [mo (ml 4 2 0 0 3)], c.mCheck (vCasOk m) m (2 * mRegs m) [] = .ok () ∧
        let rs := c.lanes.map (c.laneReq m (imm12 m) fun l =>
          .act (.cas (mW64 m) (c.g.opnd l m.vd.toNat (mW64 m)) (c.g.opnd l (m.vd.toNat + mRegs m) (mW64 m)) (c.g.vTgts l m.vd.toNat (mRegs m))))
        Claims.accessReady c rs ∧ Claims.accessApart c rs) ∧
      (∀ m ∈ [mo (ml 1 2 0x9000 2 2)], c.mCheck (vRedOk m) m (mRegs m) [] = .ok () ∧
        let rs := c.lanes.map (c.laneReq m (imm12 m) fun l => .act (.atom (mAtop m) (mW64 m) (c.g.opnd l m.vd.toNat (mW64 m)) none))
        Claims.accessReady c rs ∧ Claims.accessApart c rs)) ∧
    (∃ (s : State) (c : Cx), s.cx? = some c ∧ MemCanonical s ∧ s.poison = [] ∧ c.l.hdr.det = false ∧ c.gg.op = none ∧ ∀ m ∈ [mo (ml 2 2 0 0 2)],
      c.mCheck (vLdOk m) m (mRegs m) [] = .ok () ∧ c.mCheck (vStOk m) m (mRegs m) [] = .ok () ∧
      (Claims.accessReady c (c.lanes.map (c.ldReq m)) ∧ Claims.accessApart c (c.lanes.map (c.ldReq m))) ∧
      (Claims.accessReady c (c.lanes.map (c.stReq m)) ∧ Claims.accessApart c (c.lanes.map (c.stReq m))) ∧
      c.shadows m.vd.toNat (mRegs m) (mBytes m) (c.laneAddr m (imm16 m) 0) = [(0, 0, 0x5000)]) := by
  simp only [List.mem_singleton, forall_eq]
  constructor
  · obtain ⟨c, hc, h1, h2, h3, h4, h5, ⟨a, a'⟩, ⟨b, b'⟩, ⟨d, d'⟩, ⟨e, e'⟩, f, f'⟩ := found (o := sT.cx?) (P := fun c : Cx => Mem.wf sT.mem = true ∧ sT.poison = [] ∧
      c.l.hdr.det = false ∧ c.gg.op = none ∧ c.lanes.length = 8 ∧
      (c.mCheck (vLdOk (mo (mt 1 2 1 1))) (mo (mt 1 2 1 1)) (mRegs (mo (mt 1 2 1 1))) [] = .ok () ∧ freeB c (c.lanes.map (c.ldReq (mo (mt 1 2 1 1)))) = true) ∧
      (c.mCheck (vStOk (mo (ml 8 2 0 0 3))) (mo (ml 8 2 0 0 3)) (mRegs (mo (ml 8 2 0 0 3))) [] = .ok () ∧ freeB c (c.lanes.map (c.stReq (mo (ml 8 2 0 0 3)))) = true) ∧
      (let m := mo (ml 1 2 0xD000 3 2)
       c.mCheck (vAtomOk m) m (mRegs m) [] = .ok () ∧ freeB c (c.lanes.map (c.laneReq m (imm12 m) fun l =>
        .act (.atom (mAtop m) (mW64 m) (c.g.opnd l m.vd.toNat (mW64 m)) (some (c.g.vTgts l m.vd.toNat (mRegs m)))))) = true) ∧
      (let m := mo (ml 4 2 0 0 3)
       c.mCheck (vCasOk m) m (2 * mRegs m) [] = .ok () ∧ freeB c (c.lanes.map (c.laneReq m (imm12 m) fun l =>
        .act (.cas (mW64 m) (c.g.opnd l m.vd.toNat (mW64 m)) (c.g.opnd l (m.vd.toNat + mRegs m) (mW64 m)) (c.g.vTgts l m.vd.toNat (mRegs m))))) = true) ∧
      (let m := mo (ml 1 2 0x9000 2 2)
       c.mCheck (vRedOk m) m (mRegs m) [] = .ok () ∧ freeB c (c.lanes.map (c.laneReq m (imm12 m) fun l =>
        .act (.atom (mAtop m) (mW64 m) (c.g.opnd l m.vd.toNat (mW64 m)) none))) = true)) (by decide +kernel)
    exact ⟨sT, c, hc, h1, h2, h3, h4, h5, ⟨a, free_of a'⟩, ⟨b, free_of b'⟩, ⟨d, free_of d'⟩, ⟨e, free_of e'⟩, f, free_of f'⟩
  · obtain ⟨c, hc, h1, h2, h3, h4, h5, h6, a, b, h7⟩ := found (o := sSh.cx?) (P := fun c : Cx => let m := mo (ml 2 2 0 0 2)
      Mem.wf sSh.mem = true ∧ sSh.poison = [] ∧ c.l.hdr.det = false ∧ c.gg.op = none ∧
      c.mCheck (vLdOk m) m (mRegs m) [] = .ok () ∧ c.mCheck (vStOk m) m (mRegs m) [] = .ok () ∧
      freeB c (c.lanes.map (c.ldReq m)) = true ∧ freeB c (c.lanes.map (c.stReq m)) = true ∧
      c.shadows m.vd.toNat (mRegs m) (mBytes m) (c.laneAddr m (imm16 m) 0) = [(0, 0, 0x5000)]) (by decide +kernel)
    exact ⟨sSh, c, hc, h1, h2, h3, h4, h5, h6, free_of a, free_of b, h7⟩

/-- A load, a store, an atomic and a compare-and-swap at 0x4000 through its page. -/
theorem witness_ScalarLoadStoreValue : ∃ (s : State) (c : Cx), s.cx? = some c ∧ MemCanonical s ∧ s.poison = [] ∧ c.l.hdr.det = false ∧ c.gg.op = none ∧
    (c.mCheck (sLdOk (mt 3 2 1 2)) (mt 3 2 1 2) 0 [3] = .ok () ∧ Claims.onePiece c (mt 3 2 1 2) (imm16 (mt 3 2 1 2)) false 0x4000 0xC03 ∧
      Claims.accessReady c (c.groupReq (mt 3 2 1 2) (imm16 (mt 3 2 1 2)) (.load true [c.gg.sTgt 3]))) ∧
    (c.mCheck (sStOk (ml 3 2 0 0 3)) (ml 3 2 0 0 3) 0 [3] = .ok () ∧ Claims.onePiece c (ml 3 2 0 0 3) (imm16 (ml 3 2 0 0 3)) true 0x4000 0xC03 ∧
      Claims.accessReady c (c.groupReq (ml 3 2 0 0 3) (imm16 (ml 3 2 0 0 3)) (.act (.store (leBytes 8 (c.g.readS 3).toNat))))) := by
  obtain ⟨c, hc, h1, h2, h3, h4, ⟨a1, a2, a3⟩, b1, b2, b3⟩ := found (o := sT.cx?) (P := fun c : Cx => Mem.wf sT.mem = true ∧ sT.poison = [] ∧
    c.l.hdr.det = false ∧ c.gg.op = none ∧
    (c.mCheck (sLdOk (mt 3 2 1 2)) (mt 3 2 1 2) 0 [3] = .ok () ∧
      c.s.translate c.die (some c.t.core) (c.g.readS 2 + imm16 (mt 3 2 1 2)) ⟨false, false, c.priv⟩ c.gg.afresh = (.ok 0x4000 0xC03, c.s) ∧
      readyB c (c.groupReq (mt 3 2 1 2) (imm16 (mt 3 2 1 2)) (.load true [c.gg.sTgt 3])) = true) ∧
    (c.mCheck (sStOk (ml 3 2 0 0 3)) (ml 3 2 0 0 3) 0 [3] = .ok () ∧
      c.s.translate c.die (some c.t.core) (c.g.readS 2 + imm16 (ml 3 2 0 0 3)) ⟨true, false, c.priv⟩ c.gg.afresh = (.ok 0x4000 0xC03, c.s) ∧
      readyB c (c.groupReq (ml 3 2 0 0 3) (imm16 (ml 3 2 0 0 3)) (.act (.store (leBytes 8 (c.g.readS 3).toNat)))) = true)) (by decide +kernel)
  exact ⟨sT, c, hc, h1, h2, h3, h4, ⟨a1, a2, ready_of a3⟩, b1, b2, ready_of b3⟩

theorem witness_ScalarAtomicValue : ∃ (s : State) (c : Cx), s.cx? = some c ∧ MemCanonical s ∧ s.poison = [] ∧ c.l.hdr.det = false ∧ c.gg.op = none ∧
    (c.mCheck (sAtomOk (ml 3 2 0xD000 0 2)) (ml 3 2 0xD000 0 2) 0 [3] = .ok () ∧ Claims.onePiece c (ml 3 2 0xD000 0 2) (imm12 (ml 3 2 0xD000 0 2)) true 0x4000 0xC03 ∧
      Claims.accessReady c (c.groupReq (ml 3 2 0xD000 0 2) (imm12 (ml 3 2 0xD000 0 2)) (.act (.atom 13 false (c.g.readS 3) (some [c.gg.sTgt 3]))))) ∧
    (c.mCheck (sCasOk (ml 4 2 0 0 3)) (ml 4 2 0 0 3) 0 [4, 5] = .ok () ∧ Claims.onePiece c (ml 4 2 0 0 3) (imm12 (ml 4 2 0 0 3)) true 0x4000 0xC03 ∧
      Claims.accessReady c (c.groupReq (ml 4 2 0 0 3) (imm12 (ml 4 2 0 0 3)) (.act (.cas true (c.g.readS 4) (c.g.readS 5) [c.gg.sTgt 4])))) := by
  obtain ⟨c, hc, h1, h2, h3, h4, ⟨a1, a2, a3⟩, b1, b2, b3⟩ := found (o := sT.cx?) (P := fun c : Cx => Mem.wf sT.mem = true ∧ sT.poison = [] ∧
    c.l.hdr.det = false ∧ c.gg.op = none ∧
    (c.mCheck (sAtomOk (ml 3 2 0xD000 0 2)) (ml 3 2 0xD000 0 2) 0 [3] = .ok () ∧
      c.s.translate c.die (some c.t.core) (c.g.readS 2 + imm12 (ml 3 2 0xD000 0 2)) ⟨true, false, c.priv⟩ c.gg.afresh = (.ok 0x4000 0xC03, c.s) ∧
      readyB c (c.groupReq (ml 3 2 0xD000 0 2) (imm12 (ml 3 2 0xD000 0 2)) (.act (.atom 13 false (c.g.readS 3) (some [c.gg.sTgt 3])))) = true) ∧
    (c.mCheck (sCasOk (ml 4 2 0 0 3)) (ml 4 2 0 0 3) 0 [4, 5] = .ok () ∧
      c.s.translate c.die (some c.t.core) (c.g.readS 2 + imm12 (ml 4 2 0 0 3)) ⟨true, false, c.priv⟩ c.gg.afresh = (.ok 0x4000 0xC03, c.s) ∧
      readyB c (c.groupReq (ml 4 2 0 0 3) (imm12 (ml 4 2 0 0 3)) (.act (.cas true (c.g.readS 4) (c.g.readS 5) [c.gg.sTgt 4]))) = true)) (by decide +kernel)
  exact ⟨sT, c, hc, h1, h2, h3, h4, ⟨a1, a2, ready_of a3⟩, b1, b2, ready_of b3⟩

theorem witness_RegisterFrame : ∃ (i : Instr) (s t : State), Claims.writesNoRegister i = true ∧ Claims.uniqueGroups s ∧ exec i s = .next t ∧
    ((s.group? 3).isSome = true ∧ (t.group? 3).isSome = true) ∧
    ∃ u : State, exec (.part 1 2 1 1) s = .next u ∧ (u.group? 3).isSome = true := by
  obtain ⟨t, h, a, b, c⟩ := foundN (r := exec (.sSt (ml 3 2 0 0 3)) sT) (P := fun t : State => (sT.groups.map (·.ident.id)).Nodup ∧
    (sT.group? 3).isSome = true ∧ (t.group? 3).isSome = true) (by decide +kernel)
  exact ⟨.sSt (ml 3 2 0 0 3), sT, t, rfl, a, h, ⟨b, c⟩, foundN (by decide +kernel)⟩

theorem witness_MemoryUntouched : ∃ (i : Instr) (s t : State), Claims.leavesMemory i = true ∧ exec i s = .next t :=
  let ⟨t, h, _⟩ := foundN (r := exec (.fence (ml 0 0 0 3 0)) sV) (P := fun _ => True) (by decide +kernel); ⟨.fence (ml 0 0 0 3 0), sV, t, rfl, h⟩

/-! Scratchpads: 0x40 in s2, and lane l at 16 l further; one lane active in `sL`, with FULL or FAULT tags in `sL1` and `sL3`. -/
def sS : State := setV (setS sV 2 0x40) 2 (fun l => BitVec.ofNat 32 (16 * l))
def sL : State := setEm sS 1
def sL1 : State := sL.setTags (.team 2 0x40) 4 1
def sL3 : State := sL.setTags (.team 2 0x40) 4 3
abbrev spadWf (s : State) : Prop := (∀ t ∈ s.teams, Mem.wf t.spad.bytes = true ∧ Mem.wf t.spad.marks = true) ∧
  (Mem.wf s.cd0.dspad.bytes = true ∧ Mem.wf s.cd0.dspad.marks = true) ∧ (Mem.wf s.cd1.dspad.bytes = true ∧ Mem.wf s.cd1.dspad.marks = true)
theorem spads_of {s : State} (h : spadWf s) : SpadsCanonical s := ⟨h.1, fun d => by cases d; exacts [h.2.1, h.2.2]⟩

theorem witness_TagSetAndGet : ∃ (s : State) (c : Cx) (ps : List SPiece), s.cx? = some c ∧ Claims.spadReady c ∧ SpadsCanonical s ∧ c.gg.op = none ∧
    (c.mCheck (tagSetOk (mo (mt 0 2 2 2))) (mo (mt 0 2 2 2)) 0 [] = .ok () ∧ c.spadPieces (mo (mt 0 2 2 2)) 4 = .ok ps ∧ ps.length = 8) ∧
    (c.mCheck (tagGetOk (mo (mt 1 2 0 2))) (mo (mt 1 2 0 2)) 1 [] = .ok () ∧ c.spadPieces (mo (mt 1 2 0 2)) 4 = .ok ps) := by
  obtain ⟨c, hc, h1, h2, h3, h4, h5, h6⟩ := found (o := sS.cx?) (P := fun c : Cx => (c.g.tx.close = none ∧ c.g.keyq = [] ∧ c.gg.split = none ∧ c.releaseHeld = false) ∧ spadWf sS ∧ c.gg.op = none ∧
    c.mCheck (tagSetOk (mo (mt 0 2 2 2))) (mo (mt 0 2 2 2)) 0 [] = .ok () ∧ c.mCheck (tagGetOk (mo (mt 1 2 0 2))) (mo (mt 1 2 0 2)) 1 [] = .ok () ∧
    okAnd (c.spadPieces (mo (mt 0 2 2 2)) 4) (fun ps => decide (ps.length = 8 ∧ c.spadPieces (mo (mt 1 2 0 2)) 4 = .ok ps)) = true)
    (by decide +kernel)
  obtain ⟨ps, a, b⟩ := foundE h6
  obtain ⟨b1, b2⟩ := of_decide_eq_true b
  exact ⟨sS, c, ps, hc, h1, spads_of h2, h3, ⟨h4, a, b1⟩, h5, b2⟩

/-- A load that waits for FULL meets it, does not, or meets FAULT; a store that waits for EMPTY meets it or does not. -/
theorem witness_WaitingTagAccess : ∀ e ∈ [(sL1, 1, TagTest.met, TagTest.unmet), (sL, 1, .unmet, .met), (sL3, 1, .fault, .fault)],
    ∃ (s : State) (c : Cx) (p : SPiece), s.cx? = some c ∧ Claims.spadReady c ∧ SpadsCanonical s ∧ c.gg.op = none ∧
    (∀ m ∈ [mt 1 2 1 2, mt 1 2 2 2], c.spadPieces m (mBytes m) = .ok [p] ∧ s.tagBlocked s.tick p.pl (mBytes m) = false ∧ m.tag ≠ 0 ∧
      c.mCheck (vLdspOk m) m (mRegs m) [] = .ok () ∧ c.mCheck (tagGetWaitOk m) m (mRegs m) [] = .ok () ∧ m.sb.toNat ≠ 63) ∧
    c.mCheck (vStspOk (mt 1 2 1 2)) (mt 1 2 1 2) 1 [] = .ok () ∧ s.tagTest p.pl 4 e.2.1 = e.2.2.1 ∧ s.tagTest p.pl 4 0 = e.2.2.2 ∧
    s.spadPoison p.pl 4 = false ∧ p.lane < 32 ∧ c.g.ident.width ≤ 32 := by
  have go : ∀ (s : State) (w : Nat) (a b : TagTest), (s.cx?.any fun c => decide ((c.g.tx.close = none ∧ c.g.keyq = [] ∧ c.gg.split = none ∧ c.releaseHeld = false) ∧ spadWf s ∧ c.gg.op = none ∧
      (∀ m ∈ [mt 1 2 1 2, mt 1 2 2 2], c.spadPieces m (mBytes m) = .ok [⟨0, 0x40, .team 2 0x40⟩] ∧ s.tagBlocked s.tick (.team 2 0x40) (mBytes m) = false ∧ m.tag ≠ 0 ∧
        c.mCheck (vLdspOk m) m (mRegs m) [] = .ok () ∧ c.mCheck (tagGetWaitOk m) m (mRegs m) [] = .ok () ∧ m.sb.toNat ≠ 63) ∧
      c.mCheck (vStspOk (mt 1 2 1 2)) (mt 1 2 1 2) 1 [] = .ok () ∧ s.tagTest (.team 2 0x40) 4 w = a ∧ s.tagTest (.team 2 0x40) 4 0 = b ∧
      s.spadPoison (.team 2 0x40) 4 = false ∧ c.g.ident.width ≤ 32)) = true → ∃ (s : State) (c : Cx) (p : SPiece), s.cx? = some c ∧ Claims.spadReady c ∧ SpadsCanonical s ∧ c.gg.op = none ∧
      (∀ m ∈ [mt 1 2 1 2, mt 1 2 2 2], c.spadPieces m (mBytes m) = .ok [p] ∧ s.tagBlocked s.tick p.pl (mBytes m) = false ∧ m.tag ≠ 0 ∧
        c.mCheck (vLdspOk m) m (mRegs m) [] = .ok () ∧ c.mCheck (tagGetWaitOk m) m (mRegs m) [] = .ok () ∧ m.sb.toNat ≠ 63) ∧
      c.mCheck (vStspOk (mt 1 2 1 2)) (mt 1 2 1 2) 1 [] = .ok () ∧ s.tagTest p.pl 4 w = a ∧ s.tagTest p.pl 4 0 = b ∧ s.spadPoison p.pl 4 = false ∧ p.lane < 32 ∧ c.g.ident.width ≤ 32 := by
    intro s w a b h
    obtain ⟨c, hc, h1, h2, h3, h4, h5, h6, h7, h8, h9⟩ := found h
    exact ⟨s, c, ⟨0, 0x40, .team 2 0x40⟩, hc, h1, spads_of h2, h3, h4, h5, h6, h7, h8, by decide, h9⟩
  intro e he
  simp only [List.mem_cons, List.not_mem_nil, or_false] at he
  rcases he with rfl | rfl | rfl
  · exact go sL1 1 _ _ (by decide +kernel)
  · exact go sL 1 _ _ (by decide +kernel)
  · exact go sL3 1 _ _ (by decide +kernel)

theorem witness_LanePrivateAccess : ∃ (s : State) (c : Cx) (as : List (Nat × DWord)), s.cx? = some c ∧ c.g.tx.close = none ∧ c.gg.op = none ∧
    (∀ l, Mem.wf (c.g.lane l).lpm = true) ∧ ∀ m ∈ [mo (ml 1 2 0 0 2)], c.lplAddrs m = .ok as ∧ as.length = 8 ∧ mBytes m = 4 ∧
      c.mCheck (vLdlOk m) m (mRegs m) [] = .ok () ∧ c.mCheck (vStlOk m) m (mRegs m) [] = .ok () := by
  obtain ⟨c, hc, h1, h2, h3, h4, h5, h6⟩ := found (o := sS.cx?) (P := fun c : Cx => let m := mo (ml 1 2 0 0 2)
    c.g.tx.close = none ∧ c.gg.op = none ∧ (∀ x ∈ c.g.lanes, x.lpm = []) ∧ c.mCheck (vLdlOk m) m (mRegs m) [] = .ok () ∧
    c.mCheck (vStlOk m) m (mRegs m) [] = .ok () ∧ okAnd (c.lplAddrs m) (fun as => decide (as.length = 8 ∧ mBytes m = 4)) = true)
    (by decide +kernel)
  obtain ⟨as, a, b⟩ := foundE h6
  obtain ⟨b1, b2⟩ := of_decide_eq_true b
  refine ⟨sS, c, as, hc, h1, h2, ?_, by simp only [List.mem_singleton, forall_eq]; exact ⟨a, b1, b2, h4, h5⟩⟩
  intro l
  have : (c.g.lane l).lpm = [] := by
    unfold Group.lane
    rw [List.getD_eq_getElem?_getD]
    cases hx : c.g.lanes[l]? with
    | none => rfl
    | some x => exact h3 x (List.mem_of_getElem? hx)
  rw [this]
  rfl

/-- A chunk descriptor in the granted window of the die scratchpad: NEXT 0, END 100, CMIN 8, TAKERS 4. -/
def sK : State :=
  let s := setS sV 2 0x40000000
  { s with cd0 := { s.cd0 with
      ctl := { s.cd0.ctl with grants := [0x8000000100000000, 0, 0, 0] }
      dspad := ⟨Mem.writeN [] 0 (leBytes 8 0 ++ leBytes 8 100 ++ leBytes 4 8 ++ leBytes 4 4), []⟩ } }
theorem witness_ChunkTakeResult : ∃ (s : State) (c : Cx), s.cx? = some c ∧ (c.g.tx.close = none ∧ c.g.keyBarred = false) ∧ c.gg.op = none ∧
    c.mCheck (chunkTakeOk (ml 4 2 0 0 0)) (ml 4 2 0 0 0) 0 [4, 5] = .ok () ∧ SpadsCanonical s ∧
    (c.g.readS 2 + imm16 (ml 4 2 0 0 0)).toNat % 32 = 0 ∧ c.place (c.g.readS 2 + imm16 (ml 4 2 0 0 0)) 32 = some (.die .cd0 0) ∧
    s.spadPoison (.die .cd0 0) 32 = false ∧ leNat ((List.range 8).map fun i => Claims.spadByte s (Claims.placePlus (.die .cd0 0) (24 + i))) = 0 :=
  let ⟨c, hc, h1, h2, h3, h4, h5⟩ := found (o := sK.cx?) (P := fun c : Cx => (c.g.tx.close = none ∧ c.g.keyBarred = false) ∧ c.gg.op = none ∧
    c.mCheck (chunkTakeOk (ml 4 2 0 0 0)) (ml 4 2 0 0 0) 0 [4, 5] = .ok () ∧ spadWf sK ∧
    (c.g.readS 2 + imm16 (ml 4 2 0 0 0)).toNat % 32 = 0 ∧ c.place (c.g.readS 2 + imm16 (ml 4 2 0 0 0)) 32 = some (.die .cd0 0) ∧
    sK.spadPoison (.die .cd0 0) 32 = false ∧
    leNat ((List.range 8).map fun i => Claims.spadByte sK (Claims.placePlus (.die .cd0 0) (24 + i))) = 0) (by decide +kernel)
  ⟨sK, c, hc, h1, h2, h3, spads_of h4, h5⟩

/-- Eight lanes 16 bytes apart; and the same access one byte on, which is misaligned in every lane. -/
def loadSp : MForm := mo (ml 1 2 0 0 2)
def odd (m : MForm) : MForm := { m with imm16 := 1 }
theorem witness_ScratchpadPlainAccess : ∃ (s : State) (c : Cx) (ps : List SPiece), s.cx? = some c ∧ Claims.spadReady c ∧ SpadsCanonical s ∧ c.gg.op = none ∧
    loadSp.tag = 0 ∧ (c.spadPieces loadSp (mBytes loadSp) = .ok ps ∧ ps.length = 8 ∧ Claims.apart ps (mBytes loadSp) ∧
      (∀ p ∈ ps, s.spadPoison p.pl (mBytes loadSp) = false)) ∧
    (c.mCheck (vLdspOk loadSp) loadSp (mRegs loadSp) [] = .ok () ∧ c.mCheck (vStspOk loadSp) loadSp (mRegs loadSp) [] = .ok ()) ∧
    (c.mCheck (vLdspOk (odd loadSp)) (odd loadSp) 1 [] = .ok () ∧ c.mCheck (vStspOk (odd loadSp)) (odd loadSp) 1 [] = .ok () ∧
      (c.lanes.map fun l => (l, c.laneAddr (odd loadSp) (imm16 (odd loadSp)) l)).filter (fun a => a.2.toNat % mBytes (odd loadSp) != 0) ≠ []) := by
  obtain ⟨c, hc, h1, h2, h3, h4, h5, h6, h7⟩ := found (o := sS.cx?) (P := fun c : Cx => (c.g.tx.close = none ∧ c.g.keyq = [] ∧ c.gg.split = none ∧ c.releaseHeld = false) ∧ spadWf sS ∧ c.gg.op = none ∧
    loadSp.tag = 0 ∧ okAnd (c.spadPieces loadSp (mBytes loadSp)) (fun ps => decide (ps.length = 8 ∧
      (ps.Pairwise fun p q => placesOverlap p.pl (mBytes loadSp) q.pl (mBytes loadSp) = false) ∧
      ∀ p ∈ ps, sS.spadPoison p.pl (mBytes loadSp) = false)) = true ∧
    (c.mCheck (vLdspOk loadSp) loadSp (mRegs loadSp) [] = .ok () ∧ c.mCheck (vStspOk loadSp) loadSp (mRegs loadSp) [] = .ok ()) ∧
    (c.mCheck (vLdspOk (odd loadSp)) (odd loadSp) 1 [] = .ok () ∧ c.mCheck (vStspOk (odd loadSp)) (odd loadSp) 1 [] = .ok () ∧
      (c.lanes.map fun l => (l, c.laneAddr (odd loadSp) (imm16 (odd loadSp)) l)).filter (fun a => a.2.toNat % mBytes (odd loadSp) != 0) ≠ [])) (by decide +kernel)
  obtain ⟨ps, a, b⟩ := foundE h5
  have b := of_decide_eq_true b
  exact ⟨sS, c, ps, hc, h1, spads_of h2, h3, h4, ⟨a, b⟩, h6, h7⟩

def modG (s : State) (f : Group → Group) : State := { s with groups := s.groups.map f }
def modX (s : State) (f : Gang → Gang) : State := modG s fun g => { g with gangs := g.gangs.map f }
def modL (s : State) (n : Nat) (f : Lane → Lane) : State :=
  modG s fun g => { g with lanes := g.lanes.zipIdx.map fun (x : Lane × Nat) => if x.2 = n then f x.1 else x.1 }

/-- A monitor on line 1 that has not fired, and a gang that waits on it. -/
def sMon : State := modG (setS sV 2 0xFFFFFFFFFFFFFFFF) fun g => { g with mon := some ⟨1, false⟩ }
def sMonW (d : DWord) (f : Bool) : State := modX (modG sV fun g => { g with mon := some ⟨1, f⟩ }) fun x => { x with park := some (.mon d) }
/-- A range that holds the lines 128 and 129, and 129 marked. -/
def sRet : State := { sG with cd0 := { sG.cd0 with retained := [129], ctl := { sG.cd0.ctl with
  retainBase := [0x8000000000004000, 0, 0, 0], retainLimit := [0x4100, 0, 0, 0] } } }
/-- `fence.rel.pkg`. -/
def rel4 : MForm := { ml 0 0 0 2 0 with scope := 4 }
/-- `fence.rel` at host scope, and a group with a `cp.fill` to host memory in flight. -/
def rel5 : MForm := { rel4 with scope := 5 }
def sFar : State := modG sC fun g => { g with cmds := [{ CopyCmd.blank .fill 0 true with
  id := 8, batch := 1, dst := 0x4000, src := 5, rowBytes := 8, rows := 1, todo := [0, 1], dmap := [⟨0, 0x8000000000000, false, false⟩] }] }
theorem witness_MonitorsFencesCaches :
    (∃ (s : State) (c : Cx) (pa : Nat) (leaf : DWord) (t : State), s.cx? = some c ∧ Claims.uniqueGroups s ∧ c.g.tx.close = none ∧ (c.g.tx.depth = 0 ∧ c.g.keyBarred = false) ∧
      c.mCheck (monArmOk (ml 0 2 8 0 0)) (ml 0 2 8 0 0) 0 [] = .ok () ∧
      s.translate c.die (some c.t.core) (c.g.readS 2 + imm16 (ml 0 2 8 0 0)) ⟨false, false, c.priv⟩ c.gg.afresh = (.ok pa leaf, t) ∧
      c.mCheck (monWaitOk (ml 0 2 0 0 0)) (ml 0 2 0 0 0) 0 [] = .ok () ∧ (∀ x, c.g.mon = some x → x.fired = true)) ∧
    (∃ (s : State) (c : Cx) (x : Monitor), s.cx? = some c ∧ c.mCheck (monWaitOk (ml 0 2 0 0 0)) (ml 0 2 0 0 0) 0 [] = .ok () ∧ c.g.mon = some x ∧ x.fired = false ∧
      c.g.readS 2 = BitVec.allOnes 64) ∧
    (∃ (s : State) (c : Cx), s.cxOf 3 4 = some c ∧ c.gg.park = some (.mon 0xFFFFFFFFFFFFFFFF) ∧ 3 = c.g.ident.id ∧ c.g.mon = some ⟨1, true⟩) ∧
    (∃ (s : State) (c : Cx), s.cxOf 3 4 = some c ∧ c.gg.park = some (.mon 0) ∧ 3 = c.g.ident.id ∧ (0 : DWord).toNat ≤ s.timeNs.toNat) ∧
    (∃ g ∈ sMon.groups, g.mon = some ⟨1, false⟩ ∧ 255 / 128 ≤ 1 ∧ 1 ≤ (255 + [(7 : Byte)].length - 1) / 128) ∧
    (∃ (s : State) (c : Cx), s.cx? = some c ∧ c.g.tx.close = none ∧ c.g.keyBarred = false ∧ c.bareCheck (fenceOk (ml 0 0 0 3 0)) (ml 0 0 0 3 0) 0 [] = .ok () ∧ c.releaseHeld = false ∧ LinkId.cdCd ∉ s.linksDown ∧
      c.mCheck (prefetchOk (mt 0 2 2 0)) (mt 0 2 2 0) 0 [] = .ok () ∧ c.mCheck (linesOk 3 (mt 0 2 2 0)) (mt 0 2 2 0) 0 [] = .ok () ∧
      c.mCheck (linesOk 1 (ml 0 2 3 0 0)) (ml 0 2 3 0 0) 0 [] = .ok () ∧ c.cacheLines (ml 0 2 3 0 0) = [128, 129, 130] ∧ (s.die c.die).retained = [129] ∧ ownerOf (128 * 128) = .hbm c.die ∧
      (s.die c.die).ctl.retains 128 = true ∧ (s.die c.die).ctl.retains 130 = false) ∧
    (∃ (s : State) (c : Cx), s.cx? = some c ∧ c.g.tx.close = none ∧ c.bareCheck (fenceOk rel4) rel4 0 [] = .ok () ∧ c.releaseHeld = false ∧
      (rel4.order ≠ 1 ∧ 4 ≤ rel4.scope.toNat ∧ LinkId.cdCd ∈ s.linksDown) ∧ c.farLeft = []) ∧
    (∃ (s : State) (c : Cx), s.cx? = some c ∧ c.g.tx.close = none ∧ c.bareCheck (fenceOk rel5) rel5 0 [] = .ok () ∧ c.releaseHeld = false ∧
      rel5.order ≠ 1 ∧ 5 ≤ rel5.scope.toNat ∧ c.farLeft ≠ []) := by
  refine ⟨?_, ?_, ?_, ?_, ?_, ?_, let ⟨c, h⟩ := found (o := { sG with linksDown := [.cdCd] }.cx?) (by decide +kernel); ⟨_, c, h⟩,
    let ⟨c, h⟩ := found (o := sFar.cx?) (by decide +kernel); ⟨_, c, h⟩⟩
  · obtain ⟨c, hc, h1, h2, h3, h4, h5, h6, h7⟩ := found (o := sG.cx?) (P := fun c : Cx => (sG.groups.map (·.ident.id)).Nodup ∧ c.g.tx.close = none ∧ (c.g.tx.depth = 0 ∧ c.g.keyBarred = false) ∧
      c.mCheck (monArmOk (ml 0 2 8 0 0)) (ml 0 2 8 0 0) 0 [] = .ok () ∧
      (sG.translate c.die (some c.t.core) (c.g.readS 2 + imm16 (ml 0 2 8 0 0)) ⟨false, false, c.priv⟩ c.gg.afresh).1 = .ok 0x4008 0xC03 ∧
      c.mCheck (monWaitOk (ml 0 2 0 0 0)) (ml 0 2 0 0 0) 0 [] = .ok () ∧ c.g.mon = none) (by decide +kernel)
    exact ⟨sG, c, 0x4008, 0xC03, _, hc, h1, h2, h3, h4, Prod.ext h5 rfl, h6, by rw [h7]; exact nofun⟩
  · obtain ⟨c, hc, h1, h2, h3⟩ := found (o := sMon.cx?) (P := fun c : Cx => c.mCheck (monWaitOk (ml 0 2 0 0 0)) (ml 0 2 0 0 0) 0 [] = .ok () ∧
      c.g.mon = some ⟨1, false⟩ ∧ c.g.readS 2 = BitVec.allOnes 64) (by decide +kernel)
    exact ⟨sMon, c, _, hc, h1, h2, rfl, h3⟩
  · exact let ⟨c, h⟩ := found (o := (sMonW 0xFFFFFFFFFFFFFFFF true).cxOf 3 4) (by decide +kernel); ⟨_, c, h⟩
  · exact let ⟨c, h⟩ := found (o := (sMonW 0 false).cxOf 3 4) (by decide +kernel); ⟨_, c, h⟩
  · decide +kernel
  · exact let ⟨c, h⟩ := found (o := sRet.cx?) (by decide +kernel); ⟨_, c, h⟩

/-- A group at the retry limit; one at depth 7; and one at depth 1 whose lane 0 is in a transaction and undoomed. -/
def sTx0 : State := modG sV fun g => { g with tx := { g.tx with conflicts := 8 } }
def sTx7 : State := modG sV fun g => { g with tx := { g.tx with depth := 7 } }
def sTx1 : State := modL (modG sV fun g => { g with tx := { g.tx with depth := 1 } }) 0 fun x => { x with tx := { x.tx with inTx := true, nl := 1 } }
abbrev txFree (c : Cx) : Prop := c.g.tx.close = none ∧ c.gg.slices.Nodup
theorem witness_Transactions :
    (∃ (s : State) (c : Cx), s.cx? = some c ∧ txFree c ∧ c.bareCheck (bareOk (ml 0 0 0 0 0)) (ml 0 0 0 0 0) 0 [] = .ok () ∧ c.g.tx.depth < 7 ∧
      ¬ (c.g.tx.depth = 0 ∧ c.g.tx.lockHeld = false ∧ (s.die c.die).ctl.txRetryLimit.toNat ≤ c.g.tx.conflicts)) ∧
    (∃ (s : State) (c : Cx), s.cx? = some c ∧ txFree c ∧ c.l.hdr.det = false ∧
      (c.g.tx.depth = 0 ∧ c.g.tx.lockHeld = false ∧ (s.die c.die).ctl.txRetryLimit.toNat ≤ c.g.tx.conflicts)) ∧
    (∃ (s : State) (c : Cx), s.cx? = some c ∧ txFree c ∧ 7 ≤ c.g.tx.depth ∧ c.bareCheck (bareOk (ml 0 0 0 0 0)) (ml 0 0 0 0 0) 0 [] = .ok ()) ∧
    (∃ (s : State) (c : Cx), s.cx? = some c ∧ txFree c ∧ c.bareCheck (txAbortOk (ml 0 0 0xFF 0 0)) (ml 0 0 0xFF 0 0) 0 [] = .ok () ∧
      (0 ∈ c.lanes ∧ (c.g.lane 0).tx.inTx = true ∧ (c.g.lane 0).tx.doomed = false) ∧ (c.g.lane 1).tx.inTx = false ∧
      c.bareCheck (txEndOk (ml 5 0 0 0 0)) (ml 5 0 0 0 0) 0 [5] = .ok () ∧ 1 ≤ c.g.tx.depth ∧ c.releaseHeld = false ∧
      c.bareCheck (txStatOk (ml 1 0 0 0 2)) (ml 1 0 0 0 2) (mRegs (ml 1 0 0 0 2)) [] = .ok () ∧ c.gg.op = none) ∧
    (∃ (s : State) (c : Cx), s.cx? = some c ∧ txFree c ∧ c.bareCheck (txEndOk (ml 5 0 0 0 0)) (ml 5 0 0 0 0) 0 [5] = .ok () ∧ c.g.tx.depth = 0) :=
  ⟨let ⟨c, h⟩ := found (o := sV.cx?) (by decide +kernel); ⟨_, c, h⟩, let ⟨c, h⟩ := found (o := sTx0.cx?) (by decide +kernel); ⟨_, c, h⟩,
   let ⟨c, h⟩ := found (o := sTx7.cx?) (by decide +kernel); ⟨_, c, h⟩, let ⟨c, h⟩ := found (o := sTx1.cx?) (by decide +kernel); ⟨_, c, h⟩,
   let ⟨c, h⟩ := found (o := sV.cx?) (by decide +kernel); ⟨_, c, h⟩⟩

/-- The accessed lanes are in a transaction: after the translations of the accesses, with logs given. -/
def sIn (rl wl : List (Nat × DWord)) : State := modG sT fun g => { g with
  tx := { g.tx with depth := 1 }
  lanes := g.lanes.map fun (x : Lane) => { x with tx := { x.tx with inTx := true, nl := 1, rlog := rl, wlog := wl } } }
def logOf (n : Nat) : List (Nat × DWord) := (List.range n).map fun k => (k, 0)
/-- What the first part of `TransactionalAccess` asks of the accesses, and something more of each lane's. -/
abbrev txRow (c : Cx) (rs : List Req) (more : Nat → Sub → Bool) : Prop :=
  c.gg.op = none ∧ rs ≠ [] ∧ (rs.map (·.lane)).Nodup ∧ c.handler = false ∧ aheadB c = true ∧
  ∀ r ∈ rs, r.lane.any (fun l => decide (l < c.g.lanes.length) && (c.g.lane l).tx.inTx && !(c.g.lane l).tx.doomed && r.subs.all (more l)) = true ∧
    ∀ b ∈ r.subs, (c.s.translate c.die (some c.t.core) b.va ⟨b.act.isWrite, false, c.priv⟩ c.gg.afresh).2 = c.s
theorem tx_row {s : State} (chk : Cx → Except Tq Unit) (rq : Cx → List Req) (more : Cx → Nat → Sub → Bool)
    (h : (s.cx?.any fun c => decide (chk c = .ok () ∧ txRow c (rq c) (more c))) = true) :
    ∃ (s : State) (c : Cx), s.cx? = some c ∧ chk c = .ok () ∧ c.gg.op = none ∧ rq c ≠ [] ∧ ((rq c).map (·.lane)).Nodup ∧ c.handler = false ∧ Claims.nothingAhead c ∧
      (∀ r ∈ rq c, ∃ l < c.g.lanes.length, r.lane = some l ∧ (c.g.lane l).tx.inTx = true ∧ (c.g.lane l).tx.doomed = false ∧ ∀ b ∈ r.subs, more c l b = true) ∧
      ∀ r ∈ rq c, ∀ b ∈ r.subs, (c.s.translate c.die (some c.t.core) b.va ⟨b.act.isWrite, false, c.priv⟩ c.gg.afresh).2 = c.s := by
  obtain ⟨c, hc, h1, h2, h3, h4, h5, h6, h7⟩ := found h
  refine ⟨s, c, hc, h1, h2, h3, h4, h5, ahead_of h6, fun r hr => ?_, fun r hr => (h7 r hr).2⟩
  obtain ⟨l, hl, h8⟩ := (Option.any_eq_true _ _).mp (h7 r hr).1
  simp only [Bool.and_eq_true, decide_eq_true_eq, Bool.not_eq_true', List.all_eq_true] at h8
  exact ⟨l, h8.1.1.1, hl, h8.1.1.2, h8.1.2, h8.2⟩
/-- Physical addresses of the lanes' accesses, which are identity-mapped. -/
def fullR (c : Cx) (l : Nat) (b : Sub) : Bool := decide (32 < (c.g.lane l).tx.rlog.length + (Claims.txNew (c.g.lane l).tx (Claims.granulesOf b.va.toNat b.n)).length)
def fullW (c : Cx) (l : Nat) (b : Sub) : Bool := decide (16 < (c.g.lane l).tx.wlog.length + ((Claims.granulesOf b.va.toNat b.n).filter fun k => ((c.g.lane l).tx.wlog.lookup k).isNone).length)
def fits (c : Cx) (l : Nat) (b : Sub) : Bool := !fullR c l b && !fullW c l b
def crooked (_ : Cx) (_ : Nat) (b : Sub) : Bool := b.va.toNat % b.n != 0
/-- What a case of the first part asks: its instruction and form, and what each lane's accesses meet. -/
structure TxCase where
  row : Nat
  form : MForm
  more : Cx → Nat → Sub → Bool
/-- Loads and stores that the logs hold, or do not; a misaligned one; and accesses that are forbidden by their kind and by their scope. -/
def txCases : List TxCase :=
  [⟨0, mo (ml 1 2 0 0 2), fits⟩, ⟨1, mo (ml 8 2 0 0 2), fits⟩, ⟨0, mo (ml 1 2 0 0 2), fullR⟩, ⟨1, mo (ml 8 2 0 0 2), fullW⟩,
   ⟨0, mo (ml 1 2 2 0 2), crooked⟩, ⟨0, { mo (ml 1 2 0 0 2) with scope := 5 }, fits⟩,
   ⟨4, mo (ml 1 2 0xD000 3 2), fits⟩, ⟨5, mo (ml 4 2 0 0 3), fits⟩, ⟨6, mo (ml 1 2 0x9000 2 2), fits⟩]
/-- The request of `s.atom` with s3. -/
abbrev sAtReq (c : Cx) : List Req :=
  c.groupReq (ml 3 2 0xD000 0 3) (imm12 (ml 3 2 0xD000 0 3)) (.act (.atom (mAtop (ml 3 2 0xD000 0 3)) (mW64 (ml 3 2 0xD000 0 3)) (c.g.readS 3) (some [c.gg.sTgt 3])))
theorem witness_TransactionalAccess :
    (∀ k ∈ txCases, ∃ e, Claims.globalTable[k.row]? = some e ∧ ∃ (s : State) (c : Cx), s.cx? = some c ∧ e.2.1 c k.form ∧ c.gg.op = none ∧ (e.2.2 c k.form).2 ≠ [] ∧
      ((e.2.2 c k.form).2.map (·.lane)).Nodup ∧ c.handler = false ∧ Claims.nothingAhead c ∧
      (∀ r ∈ (e.2.2 c k.form).2, ∃ l < c.g.lanes.length, r.lane = some l ∧ (c.g.lane l).tx.inTx = true ∧ (c.g.lane l).tx.doomed = false ∧ ∀ b ∈ r.subs, k.more c l b = true) ∧
      ∀ r ∈ (e.2.2 c k.form).2, ∀ b ∈ r.subs, (c.s.translate c.die (some c.t.core) b.va ⟨b.act.isWrite, false, c.priv⟩ c.gg.afresh).2 = c.s) ∧
    (∃ (s : State) (c : Cx), s.cx? = some c ∧ c.handler = false ∧ c.mCheck (sAtomOk (ml 3 2 0xD000 0 3)) (ml 3 2 0xD000 0 3) 0 [3] = .ok () ∧ Claims.nothingAhead c ∧ 0 < c.g.tx.depth ∧
      (∀ r ∈ sAtReq c, ∀ b ∈ r.subs, b.va.toNat % b.n = 0) ∧ (∀ t ∈ (c.trReqs (sAtReq c) c.s).1, ∀ x ∈ t.2, ∃ pa leaf, x.2 = .ok pa leaf) ∧
      ∃ l ∈ c.gg.lanes, l < c.g.lanes.length ∧ (c.g.lane l).tx.inTx = true ∧ (c.g.lane l).tx.doomed = false) := by
  refine ⟨fun k hk => ?_, ?_⟩
  · simp only [txCases, List.mem_cons, List.not_mem_nil, or_false] at hk
    rcases hk with rfl | rfl | rfl | rfl | rfl | rfl | rfl | rfl | rfl
    · exact ⟨_, rfl, tx_row (s := sIn [] []) _ _ fits (by decide +kernel)⟩
    · exact ⟨_, rfl, tx_row (s := sIn [] []) _ _ fits (by decide +kernel)⟩
    · exact ⟨_, rfl, tx_row (s := sIn (logOf 32) []) _ _ fullR (by decide +kernel)⟩
    · exact ⟨_, rfl, tx_row (s := sIn [] (logOf 16)) _ _ fullW (by decide +kernel)⟩
    · exact ⟨_, rfl, tx_row (s := sIn [] []) _ _ crooked (by decide +kernel)⟩
    · exact ⟨_, rfl, tx_row (s := sIn [] []) _ _ fits (by decide +kernel)⟩
    · exact ⟨_, rfl, tx_row (s := sIn [] []) _ _ fits (by decide +kernel)⟩
    · exact ⟨_, rfl, tx_row (s := sIn [] []) _ _ fits (by decide +kernel)⟩
    · exact ⟨_, rfl, tx_row (s := sIn [] []) _ _ fits (by decide +kernel)⟩
  · obtain ⟨c, hc, h1, h2, h3, h4, h5, h6, h7⟩ := found (o := (sIn [] []).cx?) (P := fun c : Cx => c.handler = false ∧
      c.mCheck (sAtomOk (ml 3 2 0xD000 0 3)) (ml 3 2 0xD000 0 3) 0 [3] = .ok () ∧ aheadB c = true ∧ 0 < c.g.tx.depth ∧
      (∀ r ∈ sAtReq c, ∀ b ∈ r.subs, b.va.toNat % b.n = 0) ∧ ((c.trReqs (sAtReq c) c.s).1.all fun t => t.2.all fun x => okTr x.2) = true ∧
      ∃ l ∈ c.gg.lanes, l < c.g.lanes.length ∧ (c.g.lane l).tx.inTx = true ∧ (c.g.lane l).tx.doomed = false) (by decide +kernel)
    exact ⟨_, c, hc, h1, h2, ahead_of h3, h4, h5, trs_of h6, h7⟩

/-- A deterministic launch, over pages as they are and over SHARED_DET pages, after the translations of the accesses. -/
def sDet (pte : Nat) : State := warm (setV (setS { sD with mem := Mem.writeN sD.mem 0x100000 (leBytes 8 pte) } 2 0x4000) 2 (fun l => BitVec.ofNat 32 (16 * l)))
  fun c => c.lanes.map (c.stReq (mo (ml 8 2 0 0 2)))
/-- Whether some, or all, or none of the pieces of an access are keyed. -/
def keyedOf (c : Cx) (x : MKind × List Req) : List Bool := (Claims.piecesIn c x.2).map fun p => p.sub.act.isWrite && (x.1.atomic || p.shared)
theorem key_row {s : State} (hm : Mem.wf s.mem = true) (chk : Cx → Except Tq Unit) (rq : Cx → MKind × List Req) (keyed : Bool)
    (h : (s.cx?.any fun c => decide (chk c = .ok () ∧ c.l.hdr.det = true ∧ c.handler = false ∧ c.gg.op = none ∧ readyB c (rq c).2 = true ∧
      (c.trReqs (rq c).2 c.s).2 = c.s ∧ keyedOf c (rq c) ≠ [] ∧ ∀ b ∈ keyedOf c (rq c), b = keyed)) = true) :
    ∃ (s : State) (c : Cx), s.cx? = some c ∧ chk c = .ok () ∧ c.l.hdr.det = true ∧ c.handler = false ∧ c.gg.op = none ∧ MemCanonical s ∧
      Claims.accessReady c (rq c).2 ∧ (c.trReqs (rq c).2 c.s).2 = c.s ∧ keyedOf c (rq c) ≠ [] ∧ ∀ b ∈ keyedOf c (rq c), b = keyed :=
  let ⟨c, e, a, b, d, f, g, h⟩ := found h; ⟨s, c, e, a, b, d, f, hm, ready_of g, h⟩
/-- Loads, stores to pages of both kinds, and atomics of lanes and of the group. -/
def keyCases : List (Nat × MForm × Nat × Bool) :=
  [(0, mo (ml 1 2 0 0 2), 0xC23, false), (1, mo (ml 8 2 0 0 2), 0xC03, false), (1, mo (ml 8 2 0 0 2), 0xC23, true), (4, mo (ml 1 2 0xD000 3 2), 0xC03, true),
   (6, mo (ml 1 2 0x9000 2 2), 0xC03, true), (7, ml 3 2 0xD000 0 3, 0xC03, true)]
theorem witness_KeyedAccess : ∀ k ∈ keyCases, ∃ e, Claims.globalTable[k.1]? = some e ∧ ∃ (s : State) (c : Cx), s.cx? = some c ∧ e.2.1 c k.2.1 ∧ c.l.hdr.det = true ∧
    c.handler = false ∧ c.gg.op = none ∧ MemCanonical s ∧ Claims.accessReady c (e.2.2 c k.2.1).2 ∧ (c.trReqs (e.2.2 c k.2.1).2 c.s).2 = c.s ∧
    keyedOf c (e.2.2 c k.2.1) ≠ [] ∧ ∀ b ∈ keyedOf c (e.2.2 c k.2.1), b = k.2.2.2 := by
  have hm : ∀ p ∈ [0xC03, 0xC23], Mem.wf (sDet p).mem = true := by decide +kernel
  intro k hk
  simp only [keyCases, List.mem_cons, List.not_mem_nil, or_false] at hk
  rcases hk with rfl | rfl | rfl | rfl | rfl | rfl
  · exact ⟨_, rfl, key_row (hm 0xC23 (by decide)) _ _ _ (by decide +kernel)⟩
  · exact ⟨_, rfl, key_row (hm 0xC03 (by decide)) _ _ _ (by decide +kernel)⟩
  · exact ⟨_, rfl, key_row (hm 0xC23 (by decide)) _ _ _ (by decide +kernel)⟩
  · exact ⟨_, rfl, key_row (hm 0xC03 (by decide)) _ _ _ (by decide +kernel)⟩
  · exact ⟨_, rfl, key_row (hm 0xC03 (by decide)) _ _ _ (by decide +kernel)⟩
  · exact ⟨_, rfl, key_row (hm 0xC03 (by decide)) _ _ _ (by decide +kernel)⟩

/-- Commits of lane 0 outstanding, with a read of granule 0x1000 as it stands or otherwise, and a write, or with an error in its write
log; and a queued `tx.begin`. -/
def sCommit (read : DWord) (doomed : Bool) : State :=
  modL (modG sV fun g => { g with tx := { g.tx with close := some ⟨9, 5, 1, [0], 1, false, true, 0⟩ } }) 0
    fun x => { x with tx := { x.tx with rlog := [(0x1000, read)], wlog := [(0x1001, 7)], doomed := doomed } }
def sLock (rest : List (Nat × Nat)) : State :=
  let s := modX sV fun x => { x with park := some .lock }
  { s with cd0 := { s.cd0 with lockQueue := (3, 4) :: rest } }
theorem witness_CommitAndLockGrant :
    (∀ e ∈ [((0 : DWord), false), (1, false), (0, true)], ∃ (s : State) (c : Cx) (x : TxClose), s.cxGroup 3 = some c ∧ 3 = c.g.ident.id ∧
      c.g.tx.close = some x ∧ 0 ∈ x.todo ∧ 0 < c.g.lanes.length ∧ c.g.keyq = [] ∧ s.mayCommit c 0 = true ∧ s.poison = [] ∧ MemCanonical s ∧
      ((c.g.lane 0).tx.wlog.map (·.1)).Nodup ∧ (c.g.lane 0).tx.doomed = e.2 ∧
      ((∀ r ∈ (c.g.lane 0).tx.rlog, Mem.dword s.mem (8 * r.1) = r.2) ↔ e.1 = 0)) ∧
    (∀ rest ∈ [[], [(3, 9)]], ∃ (s : State) (g : Group) (x : Gang), (s.die .cd0).lockQueue = (3, 4) :: rest ∧ (s.die .cd0).lockHolder = none ∧
      s.group? 3 = some g ∧ g.gang? 4 = some x ∧ x.park = some .lock) := by
  have go : ∀ (v : DWord) (b : Bool), ((sCommit v b).cxGroup 3).any (fun c => decide (3 = c.g.ident.id ∧ c.g.tx.close = some ⟨9, 5, 1, [0], 1, false, true, 0⟩ ∧
      0 < c.g.lanes.length ∧ c.g.keyq = [] ∧ (sCommit v b).mayCommit c 0 = true ∧ (sCommit v b).poison = [] ∧ Mem.wf (sCommit v b).mem = true ∧
      ((c.g.lane 0).tx.wlog.map (·.1)).Nodup ∧ (c.g.lane 0).tx.doomed = b ∧
      ((∀ e ∈ (c.g.lane 0).tx.rlog, Mem.dword (sCommit v b).mem (8 * e.1) = e.2) ↔ v = 0))) = true →
      ∃ (s : State) (c : Cx) (x : TxClose), s.cxGroup 3 = some c ∧ 3 = c.g.ident.id ∧
      c.g.tx.close = some x ∧ 0 ∈ x.todo ∧ 0 < c.g.lanes.length ∧ c.g.keyq = [] ∧ s.mayCommit c 0 = true ∧ s.poison = [] ∧ MemCanonical s ∧
      ((c.g.lane 0).tx.wlog.map (·.1)).Nodup ∧ (c.g.lane 0).tx.doomed = b ∧
      ((∀ r ∈ (c.g.lane 0).tx.rlog, Mem.dword s.mem (8 * r.1) = r.2) ↔ v = 0) := by
    intro v b h
    obtain ⟨c, hc, h1, h2, h3, h4, h5, h6, h7, h8⟩ := found h
    exact ⟨sCommit v b, c, _, hc, h1, h2, by simp, h3, h4, h5, h6, h7, h8⟩
  refine ⟨?_, ?_⟩
  · intro v hv
    simp only [List.mem_cons, List.not_mem_nil, or_false] at hv
    rcases hv with rfl | rfl | rfl
    · exact go 0 false (by decide +kernel)
    · exact go 1 false (by decide +kernel)
    · exact go 0 true (by decide +kernel)
  · intro rest hr
    obtain ⟨g, hg, h1, h2, h3⟩ := found (o := (sLock rest).group? 3) (P := fun g : Group => ((sLock rest).die .cd0).lockQueue = (3, 4) :: rest ∧
      ((sLock rest).die .cd0).lockHolder = none ∧ (g.gang? 4).any (fun x => x.park == some .lock) = true) (by revert rest; decide +kernel)
    obtain ⟨x, hx, h4⟩ := (Option.any_eq_true _ _).mp h3
    exact ⟨sLock rest, g, x, h1, h2, hg, hx, by simpa using h4⟩

/-- In a deterministic launch: team 0 holds its round 0, and a second team does not; a group with a keyed store; and a group one
round on. -/
def sD1 : State := { modG sD fun g => { g with tx := { g.tx with depth := 1 } } with teams := sD.teams.map (fun (t : Team) => { t with teamId := 1 }), launches := sD.launches.map fun (l : Launch) => { l with todo := [0] } }
def aKeyed : KeyedAcc := ⟨0, 0, 0, none, 7, false, false, none, 0x4000, 0x4000, .store [1, 2], .none⟩
def sDq : State := modG sD fun g => { g with keyq := [aKeyed] }
def sDr : State := modG sD fun g => { g with round := 1 }
theorem witness_KeyOrder :
    (∃ (s : State) (c : Cx), s.cx? = some c ∧ c.bareCheck (bareOk (ml 0 0 0 0 0)) (ml 0 0 0 0 0) 0 [] = .ok () ∧ c.g.tx.close = none ∧ c.l.hdr.det = false) ∧
    (∃ (s : State) (c : Cx), s.cx? = some c ∧ c.bareCheck (bareOk (ml 0 0 0 0 0)) (ml 0 0 0 0 0) 0 [] = .ok () ∧ c.g.tx.close = none ∧ c.l.hdr.det = true ∧
      s.groupHolds c.l c.t c.g c.g.round = true ∧ c.g.tx.depth = 0 ∧ c.releaseHeld = false ∧ c.gg.slices ≠ [] ∧ ∀ j ∈ c.gg.slices, j ∉ c.g.passed) ∧
    (∃ (s : State) (c : Cx), s.cx? = some c ∧ c.l.hdr.det = true ∧ s.groupHolds c.l c.t c.g c.g.round = false ∧ c.g.tx.depth = 1 ∧ c.bareCheck (bareOk (ml 0 0 0 0 0)) (ml 0 0 0 0 0) 0 [] = .ok () ∧ c.g.tx.close = none) ∧
    (∃ (s : State) (c : Cx), s.cxGroup 3 = some c ∧ 3 = c.g.ident.id ∧ c.g.keyq = [aKeyed] ∧
      s.groupHolds c.l c.t c.g aKeyed.round = true ∧ aKeyed.wait ≠ .waits ∧ s.reachable c.die aKeyed.pa = true ∧ c.g.cmds = [] ∧ c.g.keyedBehind aKeyed = false ∧ (∀ k ∈ linesOf 0x4000 2, k ∉ s.engineLines) ∧ s.poison = [] ∧ Mem.wf s.mem = true) ∧
    (∃ (s : State) (t : Team) (l : Launch), s.team? 2 = some t ∧ s.launch? t.launch = some l ∧ l.hdr.det = true ∧ (∃ g ∈ s.groupsOf 2, g.ended = false) ∧
      (∀ g ∈ s.groupsOf 2, g.ended = true ∨ t.round < g.round) ∧ ∀ g ∈ s.groupsOf 2, g.keyq = [] ∧ g.cmds = []) := by
  refine ⟨let ⟨c, h⟩ := found (o := sV.cx?) (by decide +kernel); ⟨_, c, h⟩, let ⟨c, h⟩ := found (o := sD.cx?) (by decide +kernel); ⟨_, c, h⟩,
   let ⟨c, h⟩ := found (o := sD1.cx?) (by decide +kernel); ⟨_, c, h⟩, let ⟨c, h⟩ := found (o := sDq.cxGroup 3) (by decide +kernel); ⟨_, c, h⟩, ?_⟩
  obtain ⟨t, ht, h1, h2⟩ := found (o := sDr.team? 2) (P := fun t : Team => ((sDr.launch? t.launch).any fun l => l.hdr.det == true) = true ∧
    (∃ g ∈ sDr.groupsOf 2, g.ended = false) ∧ (∀ g ∈ sDr.groupsOf 2, g.ended = true ∨ t.round < g.round) ∧ ∀ g ∈ sDr.groupsOf 2, g.keyq = [] ∧ g.cmds = [])
    (by decide +kernel)
  obtain ⟨l, hl, h3⟩ := (Option.any_eq_true _ _).mp h1
  exact ⟨sDr, t, l, ht, hl, by simpa using h3, h2⟩

/-! ## Witnesses: control flow and traps -/

/-- The word at an address can be fetched and is a header; with the state as it was. -/
def hdrB (c : Cx) (va : DWord) : Bool := match c.fetchAt va c.s with | (.word w _, _) => w.extractLsb' 28 4 == 0xE#4 | _ => false
theorem hdr_of {c : Cx} {va : DWord} (h : hdrB c va = true) : ∃ t, Claims.headerAt c va t := by
  unfold hdrB at h
  split at h
  · rename_i w pa t he
    exact ⟨t, w, pa, he, by simpa using h⟩
  · simp at h
theorem hdr_same {c : Cx} {va : DWord} (h : hdrB c va = true) (h2 : (c.fetchAt va c.s).2 = c.s) : Claims.headerAt c va c.s := by
  obtain ⟨t, w, pa, he, hw⟩ := hdr_of h
  rw [he] at h2
  exact ⟨w, pa, by rw [he]; exact congrArg _ h2, hw⟩
/-- The word at an address can be fetched and is no header. -/
def noHdrB (c : Cx) (va : DWord) : Bool := match c.fetchAt va c.s with | (.word w _, _) => w.extractLsb' 28 4 != 0xE#4 | _ => false
theorem noHdr_of {c : Cx} {va : DWord} (h : noHdrB c va = true) : ∃ w pa u, c.fetchAt va c.s = (.word w pa, u) ∧ w.extractLsb' 28 4 ≠ 0xE#4 := by
  unfold noHdrB at h
  split at h
  · rename_i w pa t he
    exact ⟨w, pa, t, he, by simpa using h⟩
  · simp at h

theorem witness_ConditionalBranch : ∃ (s : State) (c : Cx) (t : State), s.cx? = some c ∧ c.gg.pfx = [] ∧ c.sregOk 3 = true ∧
    (Claims.brcHolds 2 (c.g.readS 3) ∧ ¬ Claims.brcHolds 3 (c.g.readS 3)) ∧ Claims.headerAt c (c.gg.pc + 4 + (0 : BitVec 15).signExtend 64 * 4) t := by
  obtain ⟨c, hc, h1, h2, h3, h4⟩ := found (o := sR.cx?) (P := fun c : Cx => c.gg.pfx = [] ∧ c.sregOk 3 = true ∧ c.g.readS 3 = 0xFFFFFFFFFFFFFFF9 ∧
    hdrB c (c.gg.pc + 4 + (0 : BitVec 15).signExtend 64 * 4) = true) (by decide +kernel)
  obtain ⟨t, ht⟩ := hdr_of h4
  refine ⟨sR, c, t, hc, h1, h2, ?_, ht⟩
  rw [h3]
  simp only [Claims.brcHolds]
  decide

/-- s1 = 0 names a header; s6 is not canonical, s7 is odd, s8 holds no header. -/
def sJ : State := setS (setS (setS sT 6 0x8000000000000000) 7 0x10001) 8 0x10004
theorem witness_TransfersGo : ∃ (s : State) (c : Cx), s.cx? = some c ∧ c.gg.pfx = [] ∧ (∀ r ∈ ([1, 6, 7, 8, 63] : List Nat), c.sregOk r = true) ∧
    (∃ t, Claims.headerAt c (c.gg.pc + 4 + (0 : BitVec 24).signExtend 64 * 4) t) ∧ (∃ t, Claims.headerAt c (c.g.readS 1) t) ∧ Claims.plainAddress (c.g.readS 1) ∧
    (c.active ≠ 0 ∧ c.active = c.g.live &&& c.gg.mask) ∧ canonical (c.g.readS 6) = false ∧
    (canonical (c.g.readS 7) = true ∧ (c.g.readS 7).toNat % 4 ≠ 0) ∧
    (Claims.plainAddress (c.g.readS 8) ∧ ∃ w pa u, c.fetchAt (c.g.readS 8) c.s = (.word w pa, u) ∧ w.extractLsb' 28 4 ≠ 0xE#4) := by
  obtain ⟨c, hc, h1, h2, h3, h4, h5, h6, h7, h8, h9, h10⟩ := found (o := sJ.cx?) (P := fun c : Cx => c.gg.pfx = [] ∧
    (∀ r ∈ ([1, 6, 7, 8, 63] : List Nat), c.sregOk r = true) ∧ hdrB c (c.gg.pc + 4 + (0 : BitVec 24).signExtend 64 * 4) = true ∧
    hdrB c (c.g.readS 1) = true ∧ (canonical (c.g.readS 1) = true ∧ (c.g.readS 1).toNat % 4 = 0) ∧ (c.active ≠ 0 ∧ c.active = c.g.live &&& c.gg.mask) ∧
    canonical (c.g.readS 6) = false ∧ (canonical (c.g.readS 7) = true ∧ (c.g.readS 7).toNat % 4 ≠ 0) ∧
    (canonical (c.g.readS 8) = true ∧ (c.g.readS 8).toNat % 4 = 0) ∧ noHdrB c (c.g.readS 8) = true) (by decide +kernel)
  exact ⟨sJ, c, hc, h1, h2, hdr_of h3, hdr_of h4, h5, h6, h7, h8, h9, noHdr_of h10⟩

/-- `part.any` on slice 0 of the two, with its hinge at address 0; and a group with full stacks. -/
def sP : State := setS sT 3 1
def sP8 : State := modG sP fun g => { g with parts := List.replicate 2 (List.replicate 8 ⟨0, 0, 0⟩) }
theorem witness_PartDivides :
    (∃ (s : State) (c : Cx), s.cx? = some c ∧ c.gg.pfx = [] ∧ c.sregOk 3 = true ∧ c.sregOk 1 = true ∧ c.gg.slices.Nodup ∧ (c.gg.slices = [0, 1] ∧ ∀ x ∈ c.g.gangs, x.park ≠ some .hinge) ∧
      (∀ j ∈ c.gg.slices, (c.g.parts.getD j []).length < 8) ∧ (c.g.readS 3).getLsbD 0 = true ∧ Claims.plainAddress (c.g.readS 1) ∧
      Claims.headerAt c (c.gg.pc + 4 + (0 : BitVec 11).signExtend 64 * 4) s ∧ Claims.headerAt c (c.gg.pc + 4) s) ∧
    (∃ (s : State) (c : Cx), s.cx? = some c ∧ c.gg.slices.Nodup ∧ (∀ x ∈ c.g.gangs, x.park ≠ some .hinge) ∧ ∃ j ∈ c.gg.slices, 8 ≤ (c.g.parts.getD j []).length) := by
  obtain ⟨c, hc, h1, h2, h3, h4, h5, h6, h7, h8, h9, h10, h11, h12, h13⟩ := found (o := sP.cx?) (P := fun c : Cx => c.gg.pfx = [] ∧ c.sregOk 3 = true ∧ c.sregOk 1 = true ∧
    c.gg.slices.Nodup ∧ (c.gg.slices = [0, 1] ∧ ∀ x ∈ c.g.gangs, x.park ≠ some .hinge) ∧ (∀ j ∈ c.gg.slices, (c.g.parts.getD j []).length < 8) ∧ (c.g.readS 3).getLsbD 0 = true ∧
    (canonical (c.g.readS 1) = true ∧ (c.g.readS 1).toNat % 4 = 0) ∧ hdrB c (c.gg.pc + 4 + (0 : BitVec 11).signExtend 64 * 4) = true ∧
    (c.fetchAt (c.gg.pc + 4 + (0 : BitVec 11).signExtend 64 * 4) c.s).2 = c.s ∧ hdrB c (c.gg.pc + 4) = true ∧ (c.fetchAt (c.gg.pc + 4) c.s).2 = c.s ∧ c.s = sP)
    (by decide +kernel)
  refine ⟨⟨sP, c, hc, h1, h2, h3, h4, h5, h6, h7, h8, ?_, ?_⟩, let ⟨c, h⟩ := found (o := sP8.cx?) (by decide +kernel); ⟨_, c, h⟩⟩
  · have := hdr_same h9 h10; rwa [h13] at this
  · have := hdr_same h11 h12; rwa [h13] at this

/-- Slice 0 alone in its gang and in its rendezvous set, at the hinge of its record; and a gang with no record. -/
def sRg : State := modX (modG sV fun g => { g with parts := [[⟨0x10000, 5, 3⟩], []] }) fun x => { x with slices := [0] }
theorem witness_RegangRestores :
    (∃ (s : State) (c : Cx), s.cx? = some c ∧ c.gg.pfx = [] ∧ ∀ j ∈ c.gg.slices, c.g.topRec j = none) ∧
    (∃ (s : State) (c : Cx) (r : PartRec), s.cx? = some c ∧ c.gg.pfx = [] ∧ c.gg.slices = [0] ∧ c.g.topRec 0 = some r ∧ r.hinge = c.gg.hdrAddr ∧
      c.g.rendezvous 0 = [0] ∧ GangsDisjoint c.g ∧ (c.g.gangs.map (·.id)).Nodup ∧ ∀ x ∈ c.g.gangs, x.park ≠ some .hinge) := by
  refine ⟨let ⟨c, h⟩ := found (o := sV.cx?) (by decide +kernel); ⟨_, c, h⟩, ?_⟩
  obtain ⟨c, hc, h1, h2, h3, h4, h5, h6, h7, h8⟩ := found (o := sRg.cx?) (P := fun c : Cx => c.gg.pfx = [] ∧ c.gg.slices = [0] ∧ c.g.topRec 0 = some ⟨0x10000, 5, 3⟩ ∧
    (0x10000 : DWord) = c.gg.hdrAddr ∧ c.g.rendezvous 0 = [0] ∧ (c.g.gangs.flatMap (·.slices)).Nodup ∧ (c.g.gangs.map (·.id)).Nodup ∧
    ∀ x ∈ c.g.gangs, x.park ≠ some .hinge) (by decide +kernel)
  exact ⟨sRg, c, _, hc, h1, h2, h3, h4, h5, h6, h7, h8⟩

abbrev gangsApart (g : Group) : Prop := (g.gangs.flatMap (·.slices)).Nodup ∧ (g.gangs.map (·.id)).Nodup
/-- Slices 0 and 1 in gangs of their own, both with a record of the hinge, slice 1 there or on its way. -/
def sMeet (there : Bool) : State := modG sV fun g => { g with
  parts := [[⟨0x10000, 5, 3⟩], [⟨0x10000, 5, 1⟩]]
  gangs := g.gangs.flatMap fun (x : Gang) => [{ x with slices := [0] }, { x with id := 5, slices := [1], park := if there then some .hinge else none }] }
abbrev hingeB (c : Cx) : Prop := c.gg.pfx = [] ∧ gangsApart c.g ∧ c.gg.slices = [0] ∧ c.g.topRec 0 = some ⟨0x10000, 5, 3⟩ ∧ (0x10000 : DWord) = c.gg.hdrAddr
theorem witness_HingesMeet :
    (∃ (s : State) (c : Cx), s.cx? = some c ∧ hingeB c ∧ ∀ j ∈ c.gg.slices ++ c.g.atHinge, ∃ i ∈ c.g.rendezvous j, i ∉ c.gg.slices ++ c.g.atHinge) ∧
    (∃ (s : State) (c : Cx) (x : Gang), s.cx? = some c ∧ hingeB c ∧ (∀ j, j ∈ c.g.rendezvous 0 ↔ j ∈ c.gg.slices ++ c.g.atHinge) ∧
      c.g.topRec 1 = some ⟨0x10000, 5, 1⟩ ∧ Claims.comesFrom c 1 x ∧ c.gg.pc = x.pc ∧ c.gg.clause = x.clause) := by
  refine ⟨let ⟨c, h⟩ := found (o := (sMeet false).cx?) (by decide +kernel); ⟨_, c, h⟩, ?_⟩
  obtain ⟨c, hc, h1, ⟨h2, h3⟩, h4, x, h5, h6, h7, h8⟩ := found (o := (sMeet true).cx?) (P := fun c : Cx => hingeB c ∧
    (c.g.rendezvous 0 = [0, 1] ∧ c.gg.slices ++ c.g.atHinge = [0, 1]) ∧ c.g.topRec 1 = some ⟨0x10000, 5, 1⟩ ∧
    ∃ x ∈ c.g.gangs, x.park = some .hinge ∧ 1 ∈ x.slices ∧ c.gg.pc = x.pc ∧ c.gg.clause = x.clause) (by decide +kernel)
  exact ⟨_, c, x, hc, h1, fun j => by rw [h2, h3], h4, ⟨h7, .inr ⟨h5, h6⟩⟩, h8⟩

/-- A second group of the team that has not arrived. -/
def sTwo : State := { sV with groups := sV.groups ++ sV.groups.map fun (g : Group) => { g with ident := { g.ident with id := 9, idx := 1 } } }
abbrev barReady (s : State) (c : Cx) : Prop := (c.gg.slices ≠ [] ∧ c.releaseHeld = false) ∧ c.gg.pfx = [] ∧ c.g.keyq = [] ∧ c.g.tx.close = none ∧ (∀ o ∈ s.crewOps, c.g.ident.id ∉ o.members) ∧
  (∀ p ∈ c.t.bars, p.num ≠ (15 : BitVec 4).toNat)
theorem witness_TeamBarrier :
    (∃ (s : State) (c : Cx), s.cx? = some c ∧ barReady s c ∧ gangsApart c.g ∧ inRoles 6 c.g.ident.role = false ∧ inRoles 1 c.g.ident.role = true ∧
      s.groupsOf c.t.id = [c.g] ∧ c.g.ended = false ∧ ∀ j ∈ c.g.liveSlices, j ∈ c.gg.slices) ∧
    (∃ (s : State) (c : Cx), s.cx? = some c ∧ barReady s c ∧ gangsApart c.g ∧ inRoles 0 c.g.ident.role = true ∧
      (∃ g ∈ s.groupsOf c.t.id, g.ident.id ≠ c.g.ident.id ∧ g.ended = false ∧ inRoles 0 g.ident.role = true) ∧ c.t.bars = []) :=
  ⟨let ⟨c, h⟩ := found (o := sV.cx?) (by decide +kernel); ⟨_, c, h⟩, let ⟨c, h⟩ := found (o := sTwo.cx?) (by decide +kernel); ⟨_, c, h⟩⟩

/-- A phase that is open: with other ROLES; with slice 1 of the group counted, arrive-only, and slice 0 to come; and with a second
group of the team that waits in it, slice 0 alone to come. -/
def sPhase (s : State) (roles : Option Nat) (arrs : List BarArr) : State :=
  { s with teams := s.teams.map fun (t : Team) => { t with bars := [⟨15, roles, arrs⟩] } }
def sOpen (s : State) (arrive : Bool) (more : List BarArr) : State :=
  sPhase (modG s fun g => if g.ident.id = 9 then { g with gangs := g.gangs.map fun (x : Gang) => { x with park := some (.bar 15) } } else
    { g with gangs := g.gangs.flatMap fun (x : Gang) => [{ x with slices := [0] }, { x with id := 5, slices := [1], park := if arrive then none else some (.bar 15) }] })
    none (⟨3, 0, arrive, [1], false⟩ :: more)
abbrev ownArr (c : Cx) (arrs : List BarArr) : Option BarArr := arrs.find? fun a => a.group == c.g.ident.id
abbrev phaseB (c : Cx) (roles : Option Nat) (arrs : List BarArr) : Prop := c.gg.pfx = [] ∧ c.t.bars = [⟨15, roles, arrs⟩] ∧ inRoles 0 c.g.ident.role = true ∧
  (ownArr c arrs).all (fun a => !a.done) = true
/-- The gang is the last arrival, and gangs of another group wait in the phase or not. -/
abbrev lastB (s : State) (c : Cx) (arrs : List BarArr) (other : Bool) : Prop :=
  phaseB c none arrs ∧ (s.groups.map (·.ident.id)).Nodup ∧ s.team? c.t.id = some c.t ∧ c.g.ended = false ∧ c.g.keyq = [] ∧ c.g.tx.close = none ∧ c.releaseHeld = false ∧
  gangsApart c.g ∧ c.gg.slices = [0] ∧ (∀ a ∈ arrs, a.roles = 0) ∧ (ownArr c arrs).all (fun a => !a.arrive && !a.slices.contains 0) = true ∧
  (∀ j ∈ c.g.liveSlices, j ∈ c.gg.slices ∨ (ownArr c arrs).any (fun a => a.slices.contains j) = true) ∧
  (∀ h ∈ s.groupsOf c.t.id, h.ident.id ≠ c.g.ident.id → inRoles 0 h.ident.role = true → h.ended = false → ∃ a ∈ arrs, a.group = h.ident.id ∧ a.done = true) ∧
  ((∃ h ∈ s.groupsOf c.t.id, h.ident.id = 9 ∧ ∃ x ∈ h.gangs, x.park = some (.bar 15)) ↔ other = true)
theorem witness_OpenPhase :
    (∃ (s : State) (c : Cx), s.cx? = some c ∧ phaseB c (some 1) []) ∧
    (∃ (s : State) (c : Cx), s.cx? = some c ∧ phaseB c none [⟨3, 0, true, [1], false⟩] ∧ ownArr c [⟨3, 0, true, [1], false⟩] = some ⟨3, 0, true, [1], false⟩) ∧
    ∀ e ∈ [([], false), ([⟨9, 0, false, [0, 1], true⟩], true)], ∃ (s : State) (c : Cx), s.cx? = some c ∧ lastB s c (⟨3, 0, false, [1], false⟩ :: e.1) e.2 := by
  refine ⟨let ⟨c, h⟩ := found (o := (sPhase sV (some 1) []).cx?) (by decide +kernel); ⟨_, c, h⟩,
    let ⟨c, h⟩ := found (o := (sOpen sV true []).cx?) (by decide +kernel); ⟨_, c, h⟩, fun e he => ?_⟩
  simp only [List.mem_cons, List.not_mem_nil, or_false] at he
  rcases he with rfl | rfl
  · exact let ⟨c, h⟩ := found (o := (sOpen sV false []).cx?) (by decide +kernel); ⟨_, c, h⟩
  · exact let ⟨c, h⟩ := found (o := (sOpen sTwo false [⟨9, 0, false, [0, 1], true⟩]).cx?) (by decide +kernel); ⟨_, c, h⟩

/-- Number 63 bound to the team's launch with its core a member; not bound; a group of the team already counted, arrive-only; the link
between the dies down; and a phase that is complete, with a team that waits and is bound, or is not any more. -/
def sWb (bind : DWord) (arrs : List (Nat × BarArr)) : State :=
  { sV with wbars := sV.wbars.set 63 { Wbar.reset with bind := bind, arrs := arrs }
            cd0 := { sV.cd0 with ctl := { sV.cd0.ctl with wbarMember := sV.cd0.ctl.wbarMember.set 0 0x8000000000000000 } } }
def sWd (arrived : List Nat) : State := modX { sWb 1 [] with wbars := (sWb 1 []).wbars.set 63 { Wbar.reset with bind := 1, arrived := arrived, history := [(.cd0, 0)] } }
  fun x => { x with park := some (.wbar 63) }
/-- A team whose phase was complete before its line fell again. -/
def sWf : State := { sWd [] with wbars := (sWb 1 []).wbars.set 63 { Wbar.reset with bind := 1, released := [2], history := [(.cd0, 0)] } }
/-- A second team, of a launch that is not bound. -/
def sWe : State :=
  let s := sWd [2, 7]
  { s with
    launches := s.launches ++ s.launches.map fun (l : Launch) => { l with id := 6, launchId := 6 }
    teams := s.teams ++ s.teams.map fun (t : Team) => { t with id := 7, launch := 6 }
    groups := s.groups ++ s.groups.map fun (g : Group) => { g with ident := { g.ident with id := 9, team := 7 } } }
abbrev isMember (s : State) (c : Cx) : Bool := ((s.die c.die).ctl.wbarMember.getD ((s.die c.die).physCore c.t.core) 0).getLsbD 63
abbrev freshHere (s : State) (c : Cx) : Prop := c.t.id ∉ (s.wbars.getD 63 .reset).arrived ∧ c.t.id ∉ (s.wbars.getD 63 .reset).released ∧ ∀ a ∈ (s.wbars.getD 63 .reset).arrs, a.1 ≠ c.t.id
theorem witness_WiredBarrier :
    (∃ (s : State) (c : Cx), s.cx? = some c ∧ barReady s c ∧ freshHere s c ∧ isMember s c = false) ∧
    (∃ (s : State) (c : Cx), s.cx? = some c ∧ barReady s c ∧ freshHere s c ∧ isMember s c = true ∧ s.bound 63 c.die c.l = false) ∧
    (∃ (s : State) (c : Cx), s.cx? = some c ∧ barReady s c ∧ c.t.id ∉ (s.wbars.getD 63 .reset).arrived ∧ c.t.id ∉ (s.wbars.getD 63 .reset).released ∧
      ∃ x ∈ (s.wbars.getD 63 .reset).arrs, x.1 = c.t.id ∧ x.2.arrive ≠ ((0 : BitVec 1) == 1)) ∧
    (∀ down ∈ [[], [LinkId.cdCd]], ∃ (s : State) (c : Cx), s.cx? = some c ∧ barReady s c ∧ freshHere s c ∧ isMember s c = true ∧
      s.bound 63 c.die c.l = true ∧ s.linksDown = down) ∧
    (∃ (s : State) (g : Group) (x : Gang), s.wbarComplete 63 = true ∧ 63 < s.wbars.length ∧ s.group? g.ident.id = some g ∧
      g.ident.team ∈ (s.wbar 63).arrived ∧ g.ident.team ∈ s.allBound 63 ∧ x ∈ g.gangs ∧ x.park = some (.wbar 63)) ∧
    (∃ (s : State) (g : Group), s.wbarComplete 63 = true ∧ s.group? g.ident.id = some g ∧ g.ident.team ∈ (s.wbar 63).arrived ∧ g.ident.team ∉ s.allBound 63) ∧
    (∃ (s : State) (g : Group) (x : Gang), s.wbarComplete 63 = false ∧ 63 < s.wbars.length ∧ s.group? g.ident.id = some g ∧ g.ident.team ∈ (s.wbar 63).released ∧
      x ∈ g.gangs ∧ x.park = some (.wbar 63)) := by
  refine ⟨let ⟨c, h⟩ := found (o := sV.cx?) (by decide +kernel); ⟨_, c, h⟩, let ⟨c, h⟩ := found (o := (sWb 0 []).cx?) (by decide +kernel); ⟨_, c, h⟩,
    let ⟨c, h⟩ := found (o := (sWb 1 [(2, ⟨9, 0, true, [0], true⟩)]).cx?) (by decide +kernel); ⟨_, c, h⟩, ?_, ?_, ?_, ?_⟩
  · intro d hd
    simp only [List.mem_cons, List.not_mem_nil, or_false] at hd
    rcases hd with rfl | rfl
    · exact let ⟨c, h⟩ := found (o := (sWb 1 []).cx?) (by decide +kernel); ⟨_, c, h⟩
    · exact let ⟨c, h⟩ := found (o := { sWb 1 [] with linksDown := [.cdCd] }.cx?) (by decide +kernel); ⟨_, c, h⟩
  · obtain ⟨g, hg, h1, h2, h3, h4, h7, x, h5, h6⟩ := found (o := (sWd [2]).group? 3) (P := fun g : Group => (sWd [2]).wbarComplete 63 = true ∧ 63 < (sWd [2]).wbars.length ∧
      g.ident.id = 3 ∧ g.ident.team ∈ ((sWd [2]).wbar 63).arrived ∧ g.ident.team ∈ (sWd [2]).allBound 63 ∧ ∃ x ∈ g.gangs, x.park = some (.wbar 63)) (by decide +kernel)
    exact ⟨sWd [2], g, x, h1, h2, by rw [h3]; exact hg, h4, h7, h5, h6⟩
  · obtain ⟨g, hg, h1, h3, h4, h5⟩ := found (o := sWe.group? 9) (P := fun g : Group => sWe.wbarComplete 63 = true ∧
      g.ident.id = 9 ∧ g.ident.team ∈ (sWe.wbar 63).arrived ∧ g.ident.team ∉ sWe.allBound 63) (by decide +kernel)
    exact ⟨sWe, g, h1, by rw [h3]; exact hg, h4, h5⟩
  · obtain ⟨g, hg, h1, h2, h3, h4, x, h5, h6⟩ := found (o := sWf.group? 3) (P := fun g : Group => sWf.wbarComplete 63 = false ∧ 63 < sWf.wbars.length ∧
      g.ident.id = 3 ∧ g.ident.team ∈ (sWf.wbar 63).released ∧ ∃ x ∈ g.gangs, x.park = some (.wbar 63)) (by decide +kernel)
    exact ⟨sWf, g, x, h1, h2, by rw [h3]; exact hg, h4, h5, h6⟩

theorem witness_YieldAndExit :
    (∃ (s : State) (c : Cx), s.cx? = some c ∧ c.gg.pfx = [] ∧ Claims.uniqueGroups s ∧ c.g.keyq = [] ∧ c.g.tx.close = none ∧ c.lanes ≠ []) ∧
    (∃ (s : State) (c : Cx), s.cx? = some c ∧ c.gg.pfx = [] ∧ c.g.keyq = [] ∧ c.g.tx.close = none ∧ c.lanes = []) := by
  refine ⟨?_, let ⟨c, h⟩ := found (o := (setEm sV 0).cx?) (by decide +kernel); ⟨_, c, h⟩⟩
  obtain ⟨c, hc, h1, h2, h3⟩ := found (o := sV.cx?) (P := fun c : Cx => c.gg.pfx = [] ∧ (sV.groups.map (·.ident.id)).Nodup ∧ c.g.keyq = [] ∧ c.g.tx.close = none ∧
    c.lanes ≠ []) (by decide +kernel)
  exact ⟨sV, c, hc, h1, h2, h3⟩

/-- A trap vector; a group in its handler, with a resume point; and an unprivileged group. -/
def sVec : State := { sV with cd0 := { sV.cd0 with ctl := { sV.cd0.ctl with trapVector := 0x20000 } } }
def sHan : State := modG sVec fun g => { g with handler := some ⟨[0, 1], 0x10000, none, false⟩, trap := { g.trap with resume := 0x10008, state := 0xFF00000000 } }
theorem witness_TrapEntry : ∃ (s : State) (c : Cx), s.cx? = some c ∧ Claims.mayEnter s c ∧ c.gg.pfx = [] ∧ ∀ j ∈ c.gg.slices, j < 8 := by
  obtain ⟨c, hc, h1, h2⟩ := found (o := sVec.cx?) (P := fun c : Cx => ((sVec.die c.die).ctl.trapVector ≠ 0 ∧ c.g.handler = none ∧ c.g.held = []) ∧ c.gg.pfx = [] ∧
    ∀ j ∈ c.gg.slices, j < 8) (by decide +kernel)
  exact ⟨sVec, c, hc, h1, h2⟩

theorem witness_DoubleTrapHolds :
    (∃ (s : State) (c : Cx), s.cx? = some c ∧ c.t.id = c.g.ident.team ∧ (s.launch? c.t.launch).isSome = true ∧ (s.die c.die).ctl.trapVector = 0) ∧
    (∃ (s : State) (c : Cx), s.cx? = some c ∧ c.t.id = c.g.ident.team ∧ s.launch? c.t.launch = some c.l ∧ c.g.inHandler c.gg = true) :=
  ⟨let ⟨c, h⟩ := found (o := sV.cx?) (by decide +kernel); ⟨_, c, h⟩, let ⟨c, h⟩ := found (o := sHan.cx?) (by decide +kernel); ⟨_, c, h⟩⟩

theorem witness_ReturnFromHandler :
    (∃ (s : State) (c : Cx) (h : Handler) (t : State), s.cx? = some c ∧ c.gg.pfx = [] ∧ c.g.handler = some h ∧ c.g.inHandler c.gg = true ∧
      Claims.plainAddress c.g.trap.resume ∧ Claims.headerAt c c.g.trap.resume t) ∧
    (∃ (s : State) (c : Cx), s.cx? = some c ∧ c.gg.pfx = [] ∧ c.g.handler = none ∧ c.l.priv = true) := by
  refine ⟨?_, let ⟨c, h⟩ := found (o := sV.cx?) (by decide +kernel); ⟨_, c, h⟩⟩
  obtain ⟨c, hc, h1, h2, h3, h4, h5⟩ := found (o := sHan.cx?) (P := fun c : Cx => c.gg.pfx = [] ∧ c.g.handler = some ⟨[0, 1], 0x10000, none, false⟩ ∧
    c.g.inHandler c.gg = true ∧ (canonical c.g.trap.resume = true ∧ c.g.trap.resume.toNat % 4 = 0) ∧ hdrB c c.g.trap.resume = true) (by decide +kernel)
  obtain ⟨t, ht⟩ := hdr_of h5
  exact ⟨sHan, c, _, t, hc, h1, h2, h3, h4, ht⟩

theorem witness_SystemNeedsPrivilege : ∃ (s : State) (c : Cx), s.cx? = some c ∧ c.l.priv = false ∧ c.g.inHandler c.gg = false :=
  let ⟨c, h⟩ := found (o := sU.cx?) (by decide +kernel); ⟨_, c, h⟩

abbrev sysB (c : Cx) : Prop := c.priv = true ∧ c.gg.pfx = []
/-- Registers by selector in a handler; plain writes, a write of zero to TX_RETRY_LIMIT and another; and selectors that name no
register, or a read-only one. -/
theorem witness_ControlRegisters :
    (∃ (s : State) (c : Cx), s.cx? = some c ∧ sysB c ∧ c.sregOk 63 = true ∧ c.g.inHandler c.gg = true ∧
      (∀ e ∈ Claims.dieRegs (s.die c.die), crExists e.1 = true) ∧ ∀ n ∈ [0x68, 0x69, 0x6A, 0x6B, 0x6C, 0x6D, 0x70], crExists n = true) ∧
    (∃ (s : State) (c : Cx), s.cx? = some c ∧ sysB c ∧ c.sregOk 4 = true ∧ (∀ e ∈ Claims.plainRegs, crWritable e.1 = true) ∧ crWritable 0x33 = true ∧
      (s.die c.die).ctl.retainBase ≠ [] ∧ (s.die c.die).ctl.retainLimit ≠ [] ∧ c.g.readS 4 = 2 ∧ (c.g.readS 5).extractLsb' 0 8 = 0#8 ∧
      (crWritable 0x61 = true ∧ crWritable 0x63 = true ∧ Claims.ringEntries 2 = 2) ∧ (crWritable 0x65 = true ∧ c.g.keyq = [] ∧ c.g.tx.close = none) ∧ (crExists 3 = false ∧ crWritable 0 = false)) :=
  ⟨let ⟨c, h⟩ := found (o := sHan.cx?) (by decide +kernel); ⟨_, c, h⟩, let ⟨c, h⟩ := found (o := sR.cx?) (by decide +kernel); ⟨_, c, h⟩⟩

/-- The second GiB with a table entry of its own, and lanes from n on that access it. -/
def sHole (pte n : Nat) (fs : List FaultRec) (up : Bool) : State :=
  let s := setV (setS { sV with mem := Mem.writeN sV.mem 0x100008 (leBytes 8 pte) } 2 0x4000) 2 (fun l => BitVec.ofNat 32 ((if l < n then 0 else 0x40000000) + 16 * l))
  { s with cd0 := { s.cd0 with faults := fs }, cd1 := { s.cd1 with memUp := up } }
abbrev openB (c : Cx) (reqs : List Req) : Prop :=
  aheadB c = true ∧ c.g.tx.depth = 0 ∧ (reqs.all fun r => r.lane.all fun l => !(c.g.lane l).tx.inTx) = true ∧ ∀ r ∈ reqs, ∀ b ∈ r.subs, b.va.toNat % b.n = 0
theorem open_of {c : Cx} {reqs : List Req} (h : openB c reqs) : Claims.accessFree c reqs :=
  ⟨ahead_of h.1, h.2.1, fun r hr l hl => by simpa [hl] using List.all_eq_true.mp h.2.2.1 r hr, h.2.2.2⟩
/-- A fault of the accesses on the page of 0x40004000, with code and SUB; and other pages' faults. -/
def holeRec (core code sub level : Nat) (write : Bool) : FaultRec := ⟨0, core, level, 1, 0x4000, code, 0, sub, write, false⟩
def others (n : Nat) : List FaultRec := (List.range n).map fun k => ⟨1, 0, 0, 1, BitVec.ofNat 48 k, 8, 0, 0, false, false⟩
structure ParkCase where
  row : Nat
  form : MForm
  pte : Nat
  first : Nat
  faults : List FaultRec
  up : Bool
  rec' : FaultRec
/-- Loads and stores of which one slice parks, or both; a fault of a page that the buffer holds; one where it is full; and a home that
cannot be reached. -/
def parkCases : List ParkCase :=
  [⟨0, mo (ml 1 2 0 0 2), 0, 4, [], true, holeRec 0 8 0 2 false⟩, ⟨1, mo (ml 8 2 0 0 2), 0, 4, others 7, true, holeRec 0 8 0 2 true⟩,
   ⟨1, mo (ml 8 2 0 0 2), 0, 0, [holeRec 0 8 0 2 false], true, holeRec 0 8 0 2 true⟩, ⟨0, mo (ml 1 2 0 0 2), 0, 0, others 8, true, holeRec 0 8 0 2 false⟩,
   ⟨4, mo (ml 1 2 0xD000 3 2), 0x8000000C03, 4, [], false, holeRec 0 13 0 2 true⟩]
/-- What `FaultsPark` asks of the accesses; the record of all its faults; and whether one of the accesses does not park. -/
abbrev ParkAsk (c : Cx) (reqs : List Req) (k : ParkCase) : Prop :=
  c.gg.afresh = false ∧ (∀ t ∈ (c.trReqs reqs c.s).1, ∀ x ∈ t.2, x.2 ≠ .prot) ∧ (∀ g ∈ c.s.groups, ∀ x ∈ g.gangs, x.id < c.s.nextId) ∧
  (∃ t ∈ (c.trReqs reqs c.s).1, ∃ x ∈ t.2, x.2.parks = true) ∧ (∀ t ∈ (c.trReqs reqs c.s).1, ∀ x ∈ t.2, x.2.parks = true → Claims.recordOf c x.1 x.2 = some k.rec') ∧
  ((∃ t ∈ (c.trReqs reqs c.s).1, ∃ x ∈ t.2, x.2.parks = false) ↔ k.first = 4) ∧ (c.s.die c.die).faults = k.faults
theorem park_row {k : ParkCase} (hm : Mem.wf (sHole k.pte k.first k.faults k.up).mem = true) (chk : Cx → Except Tq Unit) (rq : Cx → List Req)
    (h : ((sHole k.pte k.first k.faults k.up).cx?.any fun c => decide (chk c = .ok () ∧ openB c (rq c) ∧ ParkAsk c (rq c) k)) = true) :
    ∃ (s : State) (c : Cx), s.cx? = some c ∧ chk c = .ok () ∧ MemCanonical s ∧ Claims.accessFree c (rq c) ∧ ParkAsk c (rq c) k :=
  let ⟨c, e, a, b, h⟩ := found h; ⟨_, c, e, a, hm, open_of b, h⟩
theorem witness_FaultsPark : ∀ k ∈ parkCases, ∃ e, Claims.globalTable[k.row]? = some e ∧ ∃ (s : State) (c : Cx), s.cx? = some c ∧ e.2.1 c k.form ∧ MemCanonical s ∧
    Claims.accessFree c (e.2.2 c k.form).2 ∧ ParkAsk c (e.2.2 c k.form).2 k := by
  have hm : ∀ k ∈ parkCases, Mem.wf (sHole k.pte k.first k.faults k.up).mem = true := by decide +kernel
  intro k hk
  have h := hm k hk
  simp only [parkCases, List.mem_cons, List.not_mem_nil, or_false] at hk
  rcases hk with rfl | rfl | rfl | rfl | rfl
  · exact ⟨_, rfl, park_row h _ _ (by decide +kernel)⟩
  · exact ⟨_, rfl, park_row h _ _ (by decide +kernel)⟩
  · exact ⟨_, rfl, park_row h _ _ (by decide +kernel)⟩
  · exact ⟨_, rfl, park_row h _ _ (by decide +kernel)⟩
  · exact ⟨_, rfl, park_row h _ _ (by decide +kernel)⟩

theorem witness_NoLeafFaults : ∃ s : State, canonical 0x40000000 = true ∧ findTlb (s.die .cd0).tlb (some 0) ((0x40000000 : DWord).extractLsb' 0 57).toNat = none ∧
    s.walk .cd0 ((0x40000000 : DWord).extractLsb' 0 57).toNat = .fault 0 2 := ⟨sV, by decide +kernel⟩

/-- A page at 0x40000000 that is backed on first access, with a pool of one frame, at 0x400000, or with a held one, or with none. -/
def sTouch (spare : Option Nat) (tail : Word) : State :=
  let m := Mem.writeN sV.mem 0x100008 (leBytes 8 0x101001)
  let m := Mem.writeN m 0x101000 (leBytes 8 0x102001)
  let m := Mem.writeN m 0x102000 (leBytes 8 0x42)
  let m := Mem.writeN m 0x110000 (leBytes 8 0x400000)
  { sV with mem := m, cd0 := { sV.cd0 with ctl := { sV.cd0.ctl with poolBase := 0x110000, poolSize := 2, poolTail := tail, spare := spare } } }
theorem witness_FirstTouch : ∀ e ∈ [(none, (1 : Word)), (some 0x400000, 0), (none, 0)], ∃ s : State, canonical 0x40000000 = true ∧ (s.die .cd0).coresHeld = false ∧ MemCanonical s ∧
    s.walk .cd0 ((0x40000000 : DWord).extractLsb' 0 57).toNat = .back 0x102000 0x42 ∧ 0x400000 % 65536 = 0 ∧ ownerOf 0x400000 = .hbm .cd0 ∧
    (s.die .cd0).ctl.spare = e.1 ∧ Claims.ringEntries (s.die .cd0).ctl.poolSize.toNat = 2 ∧ ((s.die .cd0).ctl.poolHead % 2 ≠ (s.die .cd0).ctl.poolTail.toNat % 2 ↔ e.2 = 1) ∧
    (Mem.dword s.mem (((s.die .cd0).ctl.poolBase.extractLsb' 12 40).toNat * 4096 + 8 * ((s.die .cd0).ctl.poolHead % 2))).toNat = 0x400000 := by
  intro e he
  refine ⟨sTouch e.1 e.2, ?_⟩
  fin_cases he <;> simp only [MemCanonical] <;> decide +kernel

/-- A fault in the buffer. -/
def sFlt : State := { sV with cd0 := { sV.cd0 with faults := [⟨0, 0, 0, 1, 0x40, 1, 0, 0, false, false⟩] } }
theorem witness_TranslationsAndFaults : ∀ s ∈ [sV, sFlt], ∃ c : Cx, s.cx? = some c ∧ sysB c ∧ c.sregOk 2 = true ∧ canonical (c.g.readS 2) = true ∧
    c.sregOk (60 + 1) = true ∧ 60 + 1 < c.g.s.length ∧ c.g.keyq = [] ∧ c.g.tx.close = none := by
  intro s hs
  simp only [List.mem_cons, List.not_mem_nil, or_false] at hs
  rcases hs with rfl | rfl
  · exact found (by decide +kernel)
  · exact found (by decide +kernel)

/-- Another group of the core is halted. -/
def sHalt : State := { sTwo with groups := sTwo.groups.map fun (g : Group) =>
  if g.ident.id = 9 then { g with gangs := g.gangs.map fun (x : Gang) => { x with park := some .halt } } else g }
theorem witness_PreemptSignalHalt :
    (∃ (s : State) (c : Cx), s.cx? = some c ∧ sysB c ∧ c.sregOk 2 = true ∧ (s.die c.die).preempt.busy = false ∧
      (c.g.readS 4).toNat % 256 = 155 ∧ (∀ g ∈ s.groups, ∀ x ∈ g.gangs, x.park ≠ some .halt) ∧ c.t.core ∉ (s.die c.die).ipi ∧
      (156 ≤ (c.g.readS 5).toNat % 256 ∧ (c.g.readS 5).toNat % 256 ≤ 254) ∧ (c.g.readS 6).toNat % 256 = 255 ∧ c.gg.park = none ∧ (c.g.gangs.map (·.id)).Nodup) ∧
    (∃ (s : State) (c : Cx), s.cx? = some c ∧ sysB c ∧ c.sregOk 2 = true ∧ (s.die c.die).preempt.busy = true ∧ c.t.core ∈ (s.die c.die).ipi) ∧
    (∃ (s : State) (c : Cx), s.cx? = some c ∧ sysB c ∧ c.gg.park = none ∧ (c.g.gangs.map (·.id)).Nodup ∧ (c.g.readS 4).toNat % 256 = 0 ∧
      ∃ g ∈ s.groups, (s.team? g.ident.team = some c.t ∧ c.t.die = c.die ∧ c.t.core = 0) ∧ ∃ x ∈ g.gangs, x.park = some .halt) :=
  ⟨let ⟨c, h⟩ := found (o := (setS (setS (setS sV 4 155) 5 254) 6 255).cx?) (by decide +kernel); ⟨_, c, h⟩,
   let ⟨c, h⟩ := found (o := ({ sV with cd0 := { sV.cd0 with ipi := [0], preempt := { sV.cd0.preempt with busy := true } } } : State).cx?) (by decide +kernel); ⟨_, c, h⟩,
   let ⟨c, h⟩ := found (o := sHalt.cx?) (by decide +kernel); ⟨_, c, h⟩⟩

/-! ## Witnesses: contexts, crews and copies -/

def isOther : AtArea → Bool | .other => true | _ => false
theorem other_of {a : AtArea} (h : isOther a = true) : a = .other := by cases a <;> simp [isOther] at h; rfl
def mapV {α β : Type} : α ⊕ β → Option β | .inr m => some m | .inl _ => none
theorem mapV_of {α β : Type} {x : α ⊕ β} {m : β} (h : mapV x = some m) : x = .inr m := by
  cases x <;> simp [mapV] at h
  rw [h]

/-- An area of one byte at 0x8000, and an image of it at 0x9000; its team also resident; and nothing there. -/
def anArea (addr : DWord) (image : Bool) (key : Nat) : Saved :=
  ⟨.cd0, addr, [0], image, { loadLaunch 8 .vector with launchId := 8 }, [⟨8, 8, .cd0, 0, 0, 0, [], 0, 4096, ⟨[], []⟩, [], false, 0, 0⟩], [], [],
   Config.formatVersion, key, false, false, false⟩
def sArea (key : Nat) : State := { setS (setS sV 2 0x8000) 3 0x9000 with saved := [anArea 0x8000 false 0, anArea 0x9000 true key] }
def sAreaOn : State := { sArea 0 with teams := sV.teams ++ [⟨8, 8, .cd0, 0, 0, 0, [], 0, 4096, ⟨[], []⟩, [], false, 0, 0⟩] }
/-- Its launch runs on the other die, with a team to dispatch there. -/
def sAreaTied : State := { sArea 0 with launches := sV.launches ++ [{ loadLaunch 8 .vector with die := .cd1, todo := [5] }] }
/-- The area found is one of those made above; the version, a free value, apart. -/
def isArea (a : AtArea) (addr : DWord) (image : Bool) (key : Nat) : Bool :=
  match a with
  | .found v => decide ({ v with version := 0 } = { anArea addr image key with version := 0 })
  | _ => false
def withVersion (k : Nat) (v : Saved) : Saved := { v with version := k }
theorem area_of {a : AtArea} {addr : DWord} {image : Bool} {key : Nat} (h : isArea a addr image key = true) : ∃ k, a = .found { anArea addr image key with version := k } := by
  cases a with
  | found v =>
    have e : withVersion 0 v = withVersion 0 (anArea addr image key) := of_decide_eq_true h
    have e := congrArg (fun w => AtArea.found (withVersion v.version w)) e
    exact ⟨v.version, e⟩
  | _ => cases h
abbrev regs3 (c : Cx) : Prop := ∀ r ∈ ([4, 2, 3] : List Nat), c.sregOk r = true
/-- The first image found is one that this package wrote, of its own version. -/
theorem version_ok {c : Cx} {va : DWord} {t : State} {v : Saved} (h : c.findArea true va (sArea 0) = (.found v, t)) (hk : v.key = 0) : v.versionOk = true := by
  rcases Sys2Proof.Laws.findArea_found h with h | ⟨u, h⟩
  · have : v.version = Config.formatVersion := by
      simp only [sArea, List.mem_cons, List.not_mem_nil, or_false] at h
      rcases h with rfl | rfl <;> rfl
    simp [Saved.versionOk, this]
  · unfold State.foreignImage at h
    split at h
    · split at h
      · rename_i hs
        cases h
        simp only [bne_iff_ne, ne_eq, Bool.and_eq_true] at hs
        exact absurd hk hs.1
      · cases h
    · cases h
/-- Whether a key that is not the package's own is held is free, so that the first entry is of both kinds or of one. -/
theorem witness_SealedContexts :
    (∃ (s t t2 : State) (c : Cx) (v v2 : Saved), s.cx? = some c ∧ sysB c ∧ regs3 c ∧ t.savedActive v = false ∧ c.findArea false (c.g.readS 2) s = (.found v, t) ∧
      (∃ m u, t.mapSpan c.die (some c.t.core) ⟨true, false, c.priv⟩ (c.g.readS 3) v.bytes.length c.gg.afresh = (.inr m, u)) ∧
      (t2.savedActive v2 = false ∧ v2.keyHeld t2.tick = true ∧ v2.versionOk = true) ∧ c.findArea true (c.g.readS 3) s = (.found v2, t2)) ∧
    (∃ (s t t2 : State) (c : Cx) (v v2 : Saved), s.cx? = some c ∧ sysB c ∧ regs3 c ∧ t.savedActive v = true ∧ c.findArea false (c.g.readS 2) s = (.found v, t) ∧
      (t2.savedActive v2 = true ∧ v2.keyHeld t2.tick = true) ∧ c.findArea true (c.g.readS 3) s = (.found v2, t2)) ∧
    (∃ (s t : State) (c : Cx) (v : Saved), s.cx? = some c ∧ sysB c ∧ regs3 c ∧ c.findArea true (c.g.readS 3) s = (.found v, t) ∧ v.key = 5) ∧
    (∃ (s t t2 : State) (c : Cx), s.cx? = some c ∧ sysB c ∧ regs3 c ∧ c.findArea false (c.g.readS 2) s = (.other, t) ∧ c.findArea true (c.g.readS 2) s = (.other, t2)) ∧
    (∃ (s t : State) (c : Cx) (v : Saved), s.cx? = some c ∧ sysB c ∧ regs3 c ∧ c.findArea true (c.g.readS 3) s = (.found v, t) ∧ v.keyHeld t.tick = true ∧
      t.savedActive v = false ∧ t.tiedAway c.die v = true) := by
  refine ⟨?_, ?_, ?_, ?_, ?_⟩
  · obtain ⟨c, hc, h1, h2, h3, h4, h5, h6, h7⟩ := found (o := (sArea 0).cx?) (P := fun c : Cx => sysB c ∧ regs3 c ∧
      (c.findArea false (c.g.readS 2) (sArea 0)).2.savedActive (anArea 0x8000 false 0) = false ∧
      isArea (c.findArea false (c.g.readS 2) (sArea 0)).1 0x8000 false 0 = true ∧
      mapV ((c.findArea false (c.g.readS 2) (sArea 0)).2.mapSpan c.die (some c.t.core) ⟨true, false, c.priv⟩ (c.g.readS 3) 1 c.gg.afresh).1 = some [(0, 0)] ∧
      (c.findArea true (c.g.readS 3) (sArea 0)).2.savedActive (anArea 0x9000 true 0) = false ∧
      isArea (c.findArea true (c.g.readS 3) (sArea 0)).1 0x9000 true 0 = true) (by decide +kernel)
    obtain ⟨k, h4⟩ := area_of h4
    obtain ⟨l, h7⟩ := area_of h7
    have h8 : c.findArea true (c.g.readS 3) (sArea 0) = (.found _, _) := Prod.ext h7 rfl
    exact ⟨sArea 0, _, _, c, { anArea 0x8000 false 0 with version := k }, { anArea 0x9000 true 0 with version := l }, hc, h1, h2, h3, Prod.ext h4 rfl,
      ⟨_, _, Prod.ext (mapV_of h5) rfl⟩, ⟨h6, rfl, version_ok h8 rfl⟩, h8⟩
  · obtain ⟨c, hc, h1, h2, h3, h4, h6, h7⟩ := found (o := sAreaOn.cx?) (P := fun c : Cx => sysB c ∧ regs3 c ∧
      (c.findArea false (c.g.readS 2) sAreaOn).2.savedActive (anArea 0x8000 false 0) = true ∧
      isArea (c.findArea false (c.g.readS 2) sAreaOn).1 0x8000 false 0 = true ∧
      (c.findArea true (c.g.readS 3) sAreaOn).2.savedActive (anArea 0x9000 true 0) = true ∧
      isArea (c.findArea true (c.g.readS 3) sAreaOn).1 0x9000 true 0 = true) (by decide +kernel)
    obtain ⟨k, h4⟩ := area_of h4
    obtain ⟨l, h7⟩ := area_of h7
    exact ⟨sAreaOn, _, _, c, { anArea 0x8000 false 0 with version := k }, { anArea 0x9000 true 0 with version := l }, hc, h1, h2, h3, Prod.ext h4 rfl,
      ⟨h6, rfl⟩, Prod.ext h7 rfl⟩
  · obtain ⟨c, hc, h1, h2, h3⟩ := found (o := (sArea 5).cx?) (P := fun c : Cx => sysB c ∧ regs3 c ∧
      isArea (c.findArea true (c.g.readS 3) (sArea 5)).1 0x9000 true 5 = true) (by decide +kernel)
    obtain ⟨k, h3⟩ := area_of h3
    exact ⟨sArea 5, _, c, _, hc, h1, h2, Prod.ext h3 rfl, rfl⟩
  · obtain ⟨c, hc, h1, h2, h3, h4⟩ := found (o := (setS sV 2 0x8000).cx?) (P := fun c : Cx => sysB c ∧ regs3 c ∧
      isOther (c.findArea false (c.g.readS 2) (setS sV 2 0x8000)).1 = true ∧ isOther (c.findArea true (c.g.readS 2) (setS sV 2 0x8000)).1 = true) (by decide +kernel)
    exact ⟨_, _, _, c, hc, h1, h2, Prod.ext (other_of h3) rfl, Prod.ext (other_of h4) rfl⟩
  · obtain ⟨c, hc, h1, h2, h3, h4, h5⟩ := found (o := sAreaTied.cx?) (P := fun c : Cx => sysB c ∧ regs3 c ∧
      (c.findArea true (c.g.readS 3) sAreaTied).2.savedActive (anArea 0x9000 true 0) = false ∧
      isArea (c.findArea true (c.g.readS 3) sAreaTied).1 0x9000 true 0 = true ∧
      (c.findArea true (c.g.readS 3) sAreaTied).2.tiedAway c.die (anArea 0x9000 true 0) = true) (by decide +kernel)
    obtain ⟨l, h4⟩ := area_of h4
    exact ⟨sAreaTied, _, c, { anArea 0x9000 true 0 with version := l }, hc, h1, h2, Prod.ext h4 rfl, rfl, h3, h5⟩

/-- Two matrix groups on quadrants 0 and 2, in a crew of both, with a scratchpad of 64 KiB. -/
def twoName : CrewForm := ⟨5, 0, 0, 0x001000⟩
def sCrew0 : State :=
  { sM with
    teams := sM.teams.map fun (t : Team) => { t with spadBytes := 65536 }
    groups := sM.groups ++ sM.groups.map fun (g : Group) => { g with ident := { g.ident with id := 9, idx := 1, quad := 2 } } }
def sCrew : State := modG sCrew0 fun g => { g with mxcrew := 0x15001000 }
/-- The other member has placed the same operation. -/
def sLast (i : Instr) : State :=
  match sCrew.cx? with
  | some c => modG sCrew fun g => if g.ident.id = 9 then { g with slot := some { Claims.crewEntry c i with gang := 4 } } else g
  | none => sCrew
def stcX : StcForm := ⟨1, 0, 4, 1, 0, 9, 0, 1, 0, 0, 0, 0, 0, 8, 0⟩
def crewForms : List Instr :=
  [.mxZero ⟨1, 0, 0⟩, .mxMma (mxf 7 0 0 4), .mxMmac (mxf 9 0 0 2), .mxMma64 (mxf 10 0 0 2), .mxMmad (mxf 7 5 20 4), .mxLdc ⟨1, 0, 4, 0, 0, 8, 0, 0, 0⟩,
   .mxLdcVar ⟨1, 0, 4, 0, 0, 8, 0, 0, 0⟩, .mxLdcB ⟨0, 8, 4, 1, 0, 8, 16, 0, 0⟩, .mxLdcF64 ⟨2, 0, 4, 0, 0, 16, 0, 0, 0⟩,
   .mxStc stcX]
abbrev meets (s : State) (c : Cx) (i : Instr) : Prop :=
  (s.groups.map (·.ident.id)).Nodup ∧ c.g.mxcrew.getLsbD 28 = true ∧ c.g.slot = none ∧ (∀ h ∈ s.crewOf c.t.id c.g.mxcrew, h.mxcrew = c.g.mxcrew) ∧
  (∀ h ∈ s.groupsOf c.t.id, h.slot ≠ none → h ∈ s.crewOf c.t.id c.g.mxcrew) ∧ (s.crewOf c.t.id c.g.mxcrew).length = crewSize c.g.mxcrew ∧
  c.g ∈ s.crewOf c.t.id c.g.mxcrew ∧
  (∀ h ∈ s.crewOf c.t.id c.g.mxcrew, h.ident.id ≠ c.g.ident.id → h.slot = some { Claims.crewEntry c i with gang := 4 } ∧ (s.cxOf h.ident.id 4).isSome = true) ∧
  (s.crewOps.filter fun o => o.members == (s.crewOf c.t.id c.g.mxcrew).map (·.ident.id)).length < 4 ∧
  c.crewChecks i (Claims.crewPlaced c i).2 (s.crewOf c.t.id c.g.mxcrew).length = .ok ()
theorem last_of (i : Instr) (ok : Cx → Prop) [DecidablePred ok] (h0 : ∀ c, ok c → (Claims.crewPlaced c i).1)
    (h : ((sLast i).cx?.any fun c => decide (ok c ∧ meets (sLast i) c i)) = true) :
    ∃ (s : State) (c : Cx), s.cx? = some c ∧ (Claims.crewPlaced c i).1 ∧ meets s c i :=
  let ⟨c, hc, h1, h2⟩ := found h; ⟨_, c, hc, h0 c h1, h2⟩

theorem witness_CrewOperationsAccepted :
    (∃ (s : State) (c : Cx), s.cx? = some c ∧ c.mxCheck (crewOk twoName && c.gg.pfx.isEmpty) [] [] = .ok () ∧ c.crewNamed twoName = true ∧ s.crewIdle c.g = true) ∧
    (∃ (s : State) (c : Cx), s.cx? = some c ∧ c.mxCheck (crewOk twoName && c.gg.pfx.isEmpty) [] [] = .ok () ∧ c.crewNamed twoName = false ∧
      c.g.mxcrew.getLsbD 28 = false ∧ (Claims.crewPlaced c (.mxZero ⟨1, 0, 0⟩)).1) ∧
    (∃ (s : State) (c : Cx), s.cx? = some c ∧ c.g.mxcrew.getLsbD 28 = true ∧ c.g.slot = none ∧ (Claims.crewPlaced c (.mxZero ⟨1, 0, 0⟩)).1 ∧
      ∃ h ∈ s.crewOf c.t.id c.g.mxcrew, h.ident.id ≠ c.g.ident.id ∧ h.slot = none) ∧
    (∀ i ∈ crewForms, ∃ (s : State) (c : Cx), s.cx? = some c ∧ (Claims.crewPlaced c i).1 ∧ meets s c i) := by
  refine ⟨let ⟨c, h⟩ := found (o := sCrew0.cx?) (by decide +kernel); ⟨_, c, h⟩, ?_, ?_, ?_⟩
  · obtain ⟨c, hc, h1, h2, h3, h4⟩ := found (o := sM.cx?) (P := fun c : Cx => c.mxCheck (crewOk twoName && c.gg.pfx.isEmpty) [] [] = .ok () ∧
      c.crewNamed twoName = false ∧ c.g.mxcrew.getLsbD 28 = false ∧ c.mxCheck (noPfx (zeroOk ⟨1, 0, 0⟩) c) [] [] = .ok ()) (by decide +kernel)
    exact ⟨sM, c, hc, h1, h2, h3, h4⟩
  · obtain ⟨c, hc, h1, h2, h3, h4⟩ := found (o := sCrew.cx?) (P := fun c : Cx => c.g.mxcrew.getLsbD 28 = true ∧ c.g.slot = none ∧
      c.mxCheck (noPfx (zeroOk ⟨1, 0, 0⟩) c) [] [] = .ok () ∧ ∃ h ∈ sCrew.crewOf c.t.id c.g.mxcrew, h.ident.id ≠ c.g.ident.id ∧ h.slot = none) (by decide +kernel)
    exact ⟨sCrew, c, hc, h1, h2, h3, h4⟩
  · intro i hi
    simp only [crewForms, List.mem_cons, List.not_mem_nil, or_false] at hi
    rcases hi with rfl | rfl | rfl | rfl | rfl | rfl | rfl | rfl | rfl | rfl
    · exact last_of _ (fun c => c.mxCheck (noPfx (zeroOk ⟨1, 0, 0⟩) c) [] [] = .ok ()) (fun _ h => h) (by decide +kernel)
    · exact last_of _ (fun c => c.mxCheck (noPfx (mmaOk (mxf 7 0 0 4)) c) (mxSregs false (mxf 7 0 0 4)) (mxVregs (mxf 7 0 0 4) (mxShapeOf false (mxf 7 0 0 4))) = .ok ())
        (fun _ h => h) (by decide +kernel)
    · exact last_of _ (fun c => c.mxCheck (noPfx (mmacOk (mxf 9 0 0 2)) c) (mxSregs false (mxf 9 0 0 2)) (mxVregs (mxf 9 0 0 2) (mxShapeOf true (mxf 9 0 0 2))) = .ok ())
        (fun _ h => h) (by decide +kernel)
    · exact last_of _ (fun c => c.mxCheck (noPfx (mma64Ok (mxf 10 0 0 2)) c) (mxSregs false (mxf 10 0 0 2)) (mxVregs (mxf 10 0 0 2) (mxShapeOf false (mxf 10 0 0 2))) = .ok ())
        (fun _ h => h) (by decide +kernel)
    · exact last_of _ (fun c => c.mxCheck (mmadOk (mxf 7 5 20 4) && c.gg.pfx.all fun p => p.isMom && p.fieldsOk && (momOf [p]).all fun f => f.pmod.toNat % 4 == 1)
        (mxSregs true (mxf 7 5 20 4)) (mxVregs (mxf 7 5 20 4) (mxShapeOf false (mxf 7 5 20 4)) ++
          [((mxf 7 5 20 4).vbv.toNat, mxR 6 (mxShapeOf false (mxf 7 5 20 4)).k)]) = .ok ()) (fun _ h => h) (by decide +kernel)
    · exact last_of _ (fun c => c.mxCheck (noPfx (ldcOk 0 ⟨1, 0, 4, 0, 0, 8, 0, 0, 0⟩) c && 16 * (8 : BitVec 12).toNat ≥ ldcRow 0 0 (crewSize c.g.mxcrew)) [4] [] = .ok ())
        (fun _ h => h) (by decide +kernel)
    · exact last_of _ (fun c => c.mxCheck (noPfx (ldcOk 1 ⟨1, 0, 4, 0, 0, 8, 0, 0, 0⟩) c && 16 * (8 : BitVec 12).toNat ≥ ldcRow 1 0 (crewSize c.g.mxcrew)) [4] [] = .ok ())
        (fun _ h => h) (by decide +kernel)
    · exact last_of _ (fun c => c.mxCheck (noPfx (ldcOk 2 ⟨0, 8, 4, 1, 0, 8, 16, 0, 0⟩) c && 16 * (8 : BitVec 12).toNat ≥ ldcRow 2 16 (crewSize c.g.mxcrew)) [4] [(8, 16)] = .ok ())
        (fun _ h => h) (by decide +kernel)
    · exact last_of _ (fun c => c.mxCheck (noPfx (ldcOk 3 ⟨2, 0, 4, 0, 0, 16, 0, 0, 0⟩) c && 16 * (16 : BitVec 12).toNat ≥ ldcRow 3 0 (crewSize c.g.mxcrew)) [4] [] = .ok ())
        (fun _ h => h) (by decide +kernel)
    · exact last_of _ (fun c => c.mxCheck (stcOk stcX && (c.gg.pfx.all fun p => p.isSr && p.fieldsOk && (srOf [p]).all fun f => f.opr.toNat < 120) &&
        (c.gg.pfx.isEmpty || stcX.rnd.toNat == 0 || stcX.rnd.toNat == 5) && 16 * stcX.pitch.toNat ≥ stcRow stcX.outf.toNat (crewSize c.g.mxcrew)) [stcX.sa.toNat]
        (match srOf c.gg.pfx with | some p => [(p.opr.toNat, 8 * crewSize c.g.mxcrew)] | none => []) = .ok ()) (fun _ h => h) (by decide +kernel)

/-! ## Witnesses: crew operations, copies and collectives -/

/-- An accepted operation of a crew of one with nothing left to read. -/
def opOf (i : Instr) (vals : List DWord) : CrewOp := ⟨7, 2, [3], [0], encode i, [], vals, 0, false, false, [], [], none, [], [(0, 5)], [], [], 0, 0⟩
def sOp (i : Instr) (vals : List DWord) : State := { sM with crewOps := [opOf i vals] }
abbrev opReady (s : State) (o : CrewOp) (i : Instr) (c : Cx) (g : Group) : Prop := o.instr? = some i ∧ o.members.head?.bind s.cxMember = some c ∧
  s.crewTurn o = true ∧ o.reads = [] ∧ o.errs = [] ∧ (s.groups.map (·.ident.id)).Nodup ∧ o.members.Nodup ∧ o.members[0]? = some 3 ∧ s.group? 3 = some g ∧
  g.accs.length = 8 ∧ g.ended = false
theorem opReady_of (i : Instr) (vals : List DWord) (h : ((sOp i vals).cxMember 3).any (fun c => decide ((opOf i vals).instr? = some i ∧
      (sOp i vals).crewTurn (opOf i vals) = true ∧ ((sOp i vals).groups.map (·.ident.id)).Nodup ∧ (sOp i vals).group? 3 = some c.g ∧ c.g.accs.length = 8 ∧ c.g.ended = false)) = true) :
    ∃ (s : State) (o : CrewOp) (c : Cx) (g : Group), (s.crewOps.find? fun x => x.id == 7) = some o ∧ opReady s o i c g :=
  let ⟨c, hc, h1, h2, h3, h4, h5⟩ := found h
  ⟨sOp i vals, opOf i vals, c, _, rfl, h1, hc, h2, rfl, rfl, h3, by simp [opOf], rfl, h4, h5⟩

theorem witness_CrewOperationEffects :
    (∃ (s : State) (o : CrewOp) (c : Cx) (g : Group), (s.crewOps.find? fun x => x.id == 7) = some o ∧ opReady s o (.mxZero ⟨0x81, 0, 0⟩) c g) ∧
    (∃ (s : State) (o : CrewOp) (c : Cx) (g : Group), (s.crewOps.find? fun x => x.id == 7) = some o ∧
      opReady s o (.mxLdc ⟨7, 0, 4, 0, 0, 8, 0, 0, 0⟩) c g) ∧
    (∃ (s : State) (c : Cx), s.cx? = some c ∧ c.mxCheck (noPfx (statOk ⟨4, 7, 0, 0⟩) c) [4] [] = .ok () ∧ c.gg.op = none ∧
      ∀ o ∈ s.crewOps, c.g.ident.id ∉ o.members) :=
  ⟨opReady_of _ [] (by decide +kernel), opReady_of _ [0x100] (by decide +kernel),
   let ⟨c, h⟩ := found (o := sM.cx?) (by decide +kernel); ⟨_, c, h⟩⟩

/-- An operation that may be performed, with its words read, and its one member. -/
def sPerf (o : CrewOp) : State := { sM with teams := sM.teams.map (fun (t : Team) => { t with spadBytes := 65536 }), crewOps := [o] }
theorem performs_of (o : CrewOp) (i : Instr) (P : Cx → Prop) [DecidablePred P] (ho : o.members = [3])
    (h : ((sPerf o).cxMember 3).any (fun c => decide (o.instr? = some i ∧ (sPerf o).crewTurn o = true ∧ ((sPerf o).groups.map (·.ident.id)).Nodup ∧
      c.g.ident.id = 3 ∧ (sPerf o).group? 3 = some c.g ∧ c.g.ended = false ∧ c.g.accs.length = 8 ∧ P c)) = true) :
    ∃ c : Cx, Claims.OpPerforms (sPerf o) o i c 0 c.g ∧ P c :=
  let ⟨c, hc, h1, h2, h3, h4, h5, h6, h7, h8⟩ := found h
  ⟨c, ⟨by simp [sPerf], h1, by rw [ho]; exact hc, h2, h3, by rw [ho]; decide, by rw [ho, h4]; rfl, by rw [h4]; exact h5, h6, h7⟩, h8⟩

/-- The arithmetic operations and the loads, with A at address 0 of the scratchpad. -/
def arithForms : List (Instr × Bool) :=
  [(.mxMma (mxf 7 0 0 4), mmaOk (mxf 7 0 0 4)), (.mxMmad (mxf 7 5 20 4), mmadOk (mxf 7 5 20 4)), (.mxMmac (mxf 9 0 0 2), mmacOk (mxf 9 0 0 2)),
   (.mxMma64 (mxf 10 0 0 2), mma64Ok (mxf 10 0 0 2))]
def loadForms : List Instr := [.mxLdcVar ⟨1, 0, 4, 0, 0, 8, 0, 0, 0⟩, .mxLdcB ⟨0, 8, 4, 1, 0, 8, 16, 0, 0⟩, .mxLdcF64 ⟨2, 0, 4, 0, 0, 16, 0, 0, 0⟩]
/-- A store that has begun, with one word to write or none. -/
def stcOne : StcForm := { stcX with tm := 1 }
def stcPlain : StcForm := { stcX with tm := 0 }
def aWrite : CrewWrite := ⟨0, 0x100, 5, false⟩
def stcOp (x : StcForm) (ws : List CrewWrite) : CrewOp := { opOf (.mxStc x) [0x400] with started := some 0, writes := ws, errs := [] }
theorem witness_CrewArithmetic :
    (∀ e ∈ arithForms, e.2 = true ∧ ∃ (s : State) (o : CrewOp) (c : Cx), Claims.OpPerforms s o e.1 c 0 c.g ∧ o.reads = [] ∧ o.errs = []) ∧
    (∀ i ∈ loadForms, ∃ (s : State) (o : CrewOp) (c : Cx), Claims.OpPerforms s o i c 0 c.g ∧ o.reads = [] ∧ o.errs = []) ∧
    (∃ (s : State) (o : CrewOp) (c : Cx), Claims.OpPerforms s o (.mxStc stcX) c 0 c.g ∧ (∀ k ∈ o.members, (s.group? k).isSome = true) ∧ stcOk stcX = true ∧
      o.started = none ∧ ∀ r < 16, ∀ k ∈ mxNames (.mxStc stcX), (c.g.accs.getD k .blank).marks.getLsbD r = false) ∧
    (∃ (s : State) (o : CrewOp) (c : Cx) (p : Place), Claims.OpPerforms s o (.mxStc stcOne) c 0 c.g ∧ stcOk stcOne = true ∧ o.started = some 0 ∧
      o.writes.find? (fun w => c.writeReady stcOne 0 w.addr) = some aWrite ∧ c.place aWrite.addr 4 = some p ∧ ¬ (stcOne.tm = 1 ∧ s.tagTest p 4 tagEmpty = .fault) ∧
      SpadsCanonical s ∧ aWrite.addr.toNat % 4 = 0) ∧
    (∃ (s : State) (o : CrewOp) (c : Cx) (p : Place), Claims.OpPerforms s o (.mxStc stcPlain) c 0 c.g ∧ o.started = some 0 ∧ o.writes = [] ∧
      (let status := o.vals.getD 0 0 + BitVec.ofNat 64 (16 * o.members.length * 16 * stcPlain.pitch.toNat)
       c.place (status + 4) 4 = some (Claims.placePlus p 4) ∧ c.place status 4 = some p ∧ c.writeReady stcPlain 0 status = true ∧ c.writeReady stcPlain 0 (status + 4) = true ∧
       status.toNat % 8 = 0) ∧ SpadsCanonical s ∧ stcPlain.tm = 0) := by
  refine ⟨?_, ?_, ?_, ?_, ?_⟩
  · intro e he
    simp only [arithForms, List.mem_cons, List.not_mem_nil, or_false] at he
    rcases he with rfl | rfl | rfl | rfl
    · exact ⟨by decide, let ⟨c, h, _⟩ := performs_of (opOf (.mxMma (mxf 7 0 0 4)) [0, 0]) _ (fun _ => True) rfl (by decide +kernel); ⟨_, _, c, h, rfl, rfl⟩⟩
    · exact ⟨by decide, let ⟨c, h, _⟩ := performs_of (opOf (.mxMmad (mxf 7 5 20 4)) [0, 0, 0]) _ (fun _ => True) rfl (by decide +kernel); ⟨_, _, c, h, rfl, rfl⟩⟩
    · exact ⟨by decide, let ⟨c, h, _⟩ := performs_of (opOf (.mxMmac (mxf 9 0 0 2)) [0, 0]) _ (fun _ => True) rfl (by decide +kernel); ⟨_, _, c, h, rfl, rfl⟩⟩
    · exact ⟨by decide, let ⟨c, h, _⟩ := performs_of (opOf (.mxMma64 (mxf 10 0 0 2)) [0, 0]) _ (fun _ => True) rfl (by decide +kernel); ⟨_, _, c, h, rfl, rfl⟩⟩
  · intro i hi
    simp only [loadForms, List.mem_cons, List.not_mem_nil, or_false] at hi
    rcases hi with rfl | rfl | rfl
    · exact let ⟨c, h, _⟩ := performs_of (opOf (.mxLdcVar ⟨1, 0, 4, 0, 0, 8, 0, 0, 0⟩) [0]) _ (fun _ => True) rfl (by decide +kernel); ⟨_, _, c, h, rfl, rfl⟩
    · exact let ⟨c, h, _⟩ := performs_of (opOf (.mxLdcB ⟨0, 8, 4, 1, 0, 8, 16, 0, 0⟩) [0]) _ (fun _ => True) rfl (by decide +kernel); ⟨_, _, c, h, rfl, rfl⟩
    · exact let ⟨c, h, _⟩ := performs_of (opOf (.mxLdcF64 ⟨2, 0, 4, 0, 0, 16, 0, 0, 0⟩) [0]) _ (fun _ => True) rfl (by decide +kernel); ⟨_, _, c, h, rfl, rfl⟩
  · obtain ⟨c, h, h1, h2⟩ := performs_of (opOf (.mxStc stcX) [0x400]) (.mxStc stcX) (fun c =>
      ((sPerf (opOf (.mxStc stcX) [0x400])).group? 3).isSome = true ∧
      ((List.range 16).all fun r => (mxNames (.mxStc stcX)).all fun k => !(c.g.accs.getD k .blank).marks.getLsbD r) = true) rfl (by decide +kernel)
    refine ⟨_, _, c, h, ?_, by decide, rfl, fun r hr k hk => ?_⟩
    · intro k hk
      simp only [opOf, List.mem_cons, List.not_mem_nil, or_false] at hk
      rw [hk]; exact h1
    · simpa using List.all_eq_true.mp (List.all_eq_true.mp h2 r (List.mem_range.mpr hr)) k hk
  · obtain ⟨c, h, h1, h2, h3, h4⟩ := performs_of (stcOp stcOne [aWrite]) (.mxStc stcOne) (fun c =>
      (stcOp stcOne [aWrite]).writes.find? (fun w => c.writeReady stcOne 0 w.addr) = some aWrite ∧ c.place aWrite.addr 4 = some (.team 2 0x100) ∧
      (sPerf (stcOp stcOne [aWrite])).tagTest (.team 2 0x100) 4 tagEmpty ≠ .fault ∧ spadWf (sPerf (stcOp stcOne [aWrite]))) rfl (by decide +kernel)
    exact ⟨_, _, c, _, h, by decide, rfl, h1, h2, fun k => h3 k.2, spads_of h4, by decide⟩
  · obtain ⟨c, h, ⟨h1, h2, h3, h4, h5⟩, h6⟩ := performs_of (stcOp stcPlain []) (.mxStc stcPlain) (fun c =>
      (c.place 0xC04 4 = some (.team 2 0xC04) ∧ c.place 0xC00 4 = some (.team 2 0xC00) ∧ c.writeReady stcPlain 0 0xC00 = true ∧ c.writeReady stcPlain 0 0xC04 = true ∧
        ((stcOp stcPlain []).vals.getD 0 0 + BitVec.ofNat 64 (16 * (stcOp stcPlain []).members.length * 16 * stcPlain.pitch.toNat)) = 0xC00) ∧ spadWf (sPerf (stcOp stcPlain []))) rfl
      (by decide +kernel)
    refine ⟨_, _, c, .team 2 0xC00, h, rfl, rfl, ?_, spads_of h6, by decide⟩
    simp only [h5]
    exact ⟨h1, h2, h3, h4, by decide⟩

/-- Operands of a copy: 16 bytes of 2 rows, with the global address the page at 0x4000. -/
def sCp (d src : DWord) : State := setS (setS (setS sC 4 d) 5 src) 6 0x200000010
def oks (ts : List (DWord × Tr)) : Bool := ts.all fun x => match x.2 with | .ok .. => true | _ => false
theorem oks_of {ts : List (DWord × Tr)} (h : oks ts = true) : ∀ x ∈ ts, ∃ pa leaf, x.2 = .ok pa leaf := by
  intro x hx
  have := List.all_eq_true.mp h x hx
  split at this
  · exact ⟨_, _, by assumption⟩
  · simp at this

abbrev cpReady (c : Cx) (kind : CopyKind) (f : CpForm) (ok : Bool) : Prop := c.g.batchesFull = false ∧ c.cpCheck kind ok f = .ok () ∧ (c.command kind f []).todo ≠ []
theorem copy_row (s : State) (kind : CopyKind) (f : CpForm) (ok : CpForm → Bool)
    (h : (s.cx?.any fun c => decide (cpReady c kind f (ok f) ∧ oks (c.trAll (Claims.destPages (c.command kind f [])) s).1 = true)) = true) :
    ∃ (s : State) (c : Cx) (f : CpForm) (ts : List (DWord × Tr)) (u : State), s.cx? = some c ∧ cpReady c kind f (ok f) ∧
      c.trAll (Claims.destPages (c.command kind f [])) s = (ts, u) ∧ ∀ x ∈ ts, ∃ pa leaf, x.2 = .ok pa leaf :=
  let ⟨c, hc, h1, h2⟩ := found h; ⟨s, c, f, _, _, hc, h1, rfl, oks_of h2⟩

/-- A fill, with its destination in global memory. -/
def fillForm : CpForm := { cpf 0 with spitch := 0 }
theorem witness_CopyCommandsQueued :
    (∀ e ∈ [(CopyKind.load, cpf 2, cpLoadOk), (.store, cpf 1, cpStoreOk), (.gather, { cpf 2 with sx := 7 }, cpGatherOk), (.xfer, cpf 3, cpXferOk),
        (.xfer, cpf 0, cpXferOk), (.fill, fillForm, cpFillOk)],
      ∃ (s : State) (c : Cx) (f : CpForm) (ts : List (DWord × Tr)) (u : State), s.cx? = some c ∧ cpReady c e.1 f (e.2.2 f) ∧
        c.trAll (Claims.destPages (c.command e.1 f [])) s = (ts, u) ∧ ∀ x ∈ ts, ∃ pa leaf, x.2 = .ok pa leaf) ∧
    (∃ (s : State) (c : Cx), s.cx? = some c ∧ c.g.batchesFull = false ∧ c.gg.pfx = [] ∧ c.sregOk 5 = true ∧ c.active = c.gg.mask ∧ c.g.live = maskW c.g.ident.width ∧
      canonical (c.g.readS 5) = true ∧ collOk (cpAddr 6) = true ∧ launchOk (cpAddr 0) = true ∧ (c.g.readS 5).toNat % 128 = 0) := by
  refine ⟨?_, let ⟨c, h⟩ := found (o := (sCp 0x4000 0x4000).cx?) (by decide +kernel); ⟨_, c, h⟩⟩
  intro e he
  simp only [List.mem_cons, List.not_mem_nil, or_false] at he
  rcases he with rfl | rfl | rfl | rfl | rfl | rfl
  · exact copy_row (sCp 0x100 0x4000) .load (cpf 2) cpLoadOk (by decide +kernel)
  · exact copy_row (sCp 0x4000 0x100) .store (cpf 1) cpStoreOk (by decide +kernel)
  · exact copy_row (sCp 0x100 0x4000) .gather { cpf 2 with sx := 7 } cpGatherOk (by decide +kernel)
  · exact copy_row (sCp 0x100 0x200) .xfer (cpf 3) cpXferOk (by decide +kernel)
  · exact copy_row (sCp 0x4000 0x8000) .xfer (cpf 0) cpXferOk (by decide +kernel)
  · exact copy_row (sCp 0x4000 5) .fill fillForm cpFillOk (by decide +kernel)

/-- Operands of the batch instructions: s4 = 0, s3 = 0x4000, s2 = 5; batches up to 5 closed, the last one not complete, complete, or
failed. -/
def aBatch (comp : Bool) (failed : Option Trap) : Batch := ⟨5, none, failed, comp, .none, false⟩
/-- The same, reported already. -/
def told : Batch := { aBatch true (some .protection) with reported := true }
def sBt (b : Batch) : State := modG (setS (setS (setS sC 4 0) 3 0x4000) 2 5) fun g => { g with lastBatch := 5, batches := [b] }
abbrev evtB (c : Cx) (ok : Bool) (regs : List (BitVec 6)) : Prop := ok = true ∧ c.gg.pfx = [] ∧ ∀ r ∈ regs, c.sregOk r.toNat = true
abbrev wordB (a : DWord) : Prop := a.toNat % 8 = 0 ∧ canonical a = true
abbrev namedB (c : Cx) (n : Nat) : Prop := ¬ (1 ≤ batchDist c.g.lastBatch n ∧ batchDist c.g.lastBatch n < 2 ^ 31)
abbrev waits (v : Nat) : EvForm := ⟨BitVec.ofNat 6 v, 0, 0, 0, 6, 0⟩
theorem witness_BatchesAndEvents :
    (∃ (s : State) (c : Cx) (u : State), s.cx? = some c ∧ Claims.evtReady c (closeOk ⟨4, 3, 1, 0, 6, 0⟩) [4, 3] ∧ c.g.batchesFull = false ∧
      Claims.eventWord (c.g.readS 3) ∧ c.trAll [c.g.readS 3] s = ([(c.g.readS 3, .ok 0x4000 0xC03)], u) ∧ 4 < c.g.s.length) ∧
    (∃ (s : State) (c : Cx), s.cx? = some c ∧ Claims.evtReady c (waitOk (waits 4)) [4] ∧ (c.g.readS 4).toNat = 0) ∧
    (∃ (s : State) (c : Cx), s.cx? = some c ∧ Claims.evtReady c (waitOk (waits 2)) [2] ∧ (c.g.readS 2).toNat = 5 ∧ ¬ namedB c 5) ∧
    (∃ (s : State) (c : Cx), s.cx? = some c ∧ Claims.evtReady c (waitOk (waits 2)) [2] ∧ (c.g.readS 2).toNat = 5 ∧ namedB c 5 ∧
      ∃ b ∈ c.g.batches, b.complete = false ∧ batchDist b.num 5 < 2 ^ 31) ∧
    (∀ x ∈ [aBatch true none, told], ∃ (s : State) (c : Cx), s.cx? = some c ∧ Claims.evtReady c (waitOk (waits 2)) [2] ∧ (c.g.readS 2).toNat = 5 ∧ namedB c 5 ∧
      (∀ b ∈ c.g.batches, batchDist b.num 5 < 2 ^ 31 → b.complete = true ∧ (b.failed = none ∨ b.reported = true)) ∧ x ∈ c.g.batches) ∧
    (∃ (s : State) (c : Cx), s.cx? = some c ∧ Claims.evtReady c (waitOk (waits 2)) [2] ∧ (c.g.readS 2).toNat = 5 ∧ namedB c 5 ∧
      (∀ b ∈ c.g.batches, batchDist b.num 5 < 2 ^ 31 → b.complete = true) ∧ c.g.batches = [] ++ aBatch true (some .protection) :: [] ∧
      batchDist (aBatch true (some .protection)).num 5 < 2 ^ 31) ∧
    (∃ (s : State) (c : Cx) (u : State), s.cx? = some c ∧ Claims.evtReady c (evtAddOk ⟨3, 2, 0, 0, 6, 0⟩) [3, 2] ∧ Claims.evtReady c (evtAddOk ⟨3, 2, 1, 0, 6, 0⟩) [3, 2] ∧
      c.active = c.gg.mask ∧ c.g.live = maskW c.g.ident.width ∧ c.g.tx.close = none ∧ LinkId.cdCd ∉ s.linksDown ∧ Claims.eventWord (c.g.readS 3) ∧
      c.trAll [c.g.readS 3] s = ([(c.g.readS 3, .ok 0x4000 0xC03)], u) ∧ (c.g.keyq = [] ∧ c.releaseHeld = false ∧ c.g.cmds = []) ∧
      MemCanonical u ∧ u.poison = [] ∧ 0x4000 / 128 ∉ u.engineLines ∧ c.g.lastBatch ≠ 0 ∧ (c.g.adds = [] ∧ ∀ b ∈ c.g.batches, b.complete = true ∨ b.evt = none)) := by
  refine ⟨?_, ?_, ?_, ?_, ?_, ?_, ?_⟩
  · obtain ⟨c, hc, h1, h2, h3, h4, h5⟩ := found (o := (sBt (aBatch true none)).cx?) (P := fun c : Cx => evtB c (closeOk ⟨4, 3, 1, 0, 6, 0⟩) [4, 3] ∧ c.g.batchesFull = false ∧
      wordB (c.g.readS 3) ∧ (c.trAll [c.g.readS 3] (sBt (aBatch true none))).1 = [(c.g.readS 3, .ok 0x4000 0xC03)] ∧ 4 < c.g.s.length) (by decide +kernel)
    exact ⟨_, c, _, hc, h1, h2, h3, Prod.ext h4 rfl, h5⟩
  · obtain ⟨c, hc, h1, h2⟩ := found (o := (sBt (aBatch true none)).cx?) (P := fun c : Cx => evtB c (waitOk (waits 4)) [4] ∧ (c.g.readS 4).toNat = 0) (by decide +kernel)
    exact ⟨_, c, hc, h1, h2⟩
  · obtain ⟨c, hc, h1, h2⟩ := found (o := (setS sC 2 5).cx?) (P := fun c : Cx => evtB c (waitOk (waits 2)) [2] ∧ (c.g.readS 2).toNat = 5 ∧ ¬ namedB c 5)
      (by decide +kernel)
    exact ⟨_, c, hc, h1, h2⟩
  · obtain ⟨c, hc, h1, h2⟩ := found (o := (sBt (aBatch false none)).cx?) (P := fun c : Cx => evtB c (waitOk (waits 2)) [2] ∧ (c.g.readS 2).toNat = 5 ∧ namedB c 5 ∧
      ∃ b ∈ c.g.batches, b.complete = false ∧ batchDist b.num 5 < 2 ^ 31) (by decide +kernel)
    exact ⟨_, c, hc, h1, h2⟩
  · have go : ∀ x : Batch, ((sBt x).cx?.any fun c => decide (evtB c (waitOk (waits 2)) [2] ∧ (c.g.readS 2).toNat = 5 ∧ namedB c 5 ∧
        (∀ b ∈ c.g.batches, batchDist b.num 5 < 2 ^ 31 → b.complete = true ∧ (b.failed = none ∨ b.reported = true)) ∧ x ∈ c.g.batches)) = true → _ :=
      fun x h => let ⟨c, h⟩ := found h; (⟨_, c, h⟩ : ∃ (s : State) (c : Cx), s.cx? = some c ∧ Claims.evtReady c (waitOk (waits 2)) [2] ∧ (c.g.readS 2).toNat = 5 ∧ namedB c 5 ∧
        (∀ b ∈ c.g.batches, batchDist b.num 5 < 2 ^ 31 → b.complete = true ∧ (b.failed = none ∨ b.reported = true)) ∧ x ∈ c.g.batches)
    intro x hx
    simp only [List.mem_cons, List.not_mem_nil, or_false] at hx
    rcases hx with rfl | rfl
    · exact go _ (by decide +kernel)
    · exact go _ (by decide +kernel)
  · obtain ⟨c, hc, h1, h2, h3, h4, h5⟩ := found (o := (sBt (aBatch true (some .protection))).cx?) (P := fun c : Cx => evtB c (waitOk (waits 2)) [2] ∧ (c.g.readS 2).toNat = 5 ∧
      namedB c 5 ∧ (∀ b ∈ c.g.batches, batchDist b.num 5 < 2 ^ 31 → b.complete = true) ∧ c.g.batches = [aBatch true (some .protection)]) (by decide +kernel)
    exact ⟨_, c, hc, h1, h2, h3, h4, h5, by decide⟩
  · obtain ⟨c, hc, h1, h2, h3, h3a, h3b, h3c, h4, h5, h5a, h6, h7⟩ := found (o := (sBt (aBatch true none)).cx?) (P := fun c : Cx => evtB c (evtAddOk ⟨3, 2, 0, 0, 6, 0⟩) [3, 2] ∧
      evtB c (evtAddOk ⟨3, 2, 1, 0, 6, 0⟩) [3, 2] ∧ c.active = c.gg.mask ∧ c.g.live = maskW c.g.ident.width ∧ c.g.tx.close = none ∧
      LinkId.cdCd ∉ (sBt (aBatch true none)).linksDown ∧ wordB (c.g.readS 3) ∧
      (c.trAll [c.g.readS 3] (sBt (aBatch true none))).1 = [(c.g.readS 3, .ok 0x4000 0xC03)] ∧ (c.g.keyq = [] ∧ c.releaseHeld = false ∧ c.g.cmds = []) ∧
      Mem.wf (c.trAll [c.g.readS 3] (sBt (aBatch true none))).2.mem = true ∧
      (c.trAll [c.g.readS 3] (sBt (aBatch true none))).2.poison = [] ∧ 0x4000 / 128 ∉ (c.trAll [c.g.readS 3] (sBt (aBatch true none))).2.engineLines ∧ c.g.lastBatch ≠ 0 ∧ (c.g.adds = [] ∧ ∀ b ∈ c.g.batches, b.complete = true ∨ b.evt = none))
      (by decide +kernel)
    exact ⟨_, c, _, hc, h1, h2, h3, h3a, h3b, h3c, h4, Prod.ext h5 rfl, h5a, h6, h7⟩

/-- A command of two words, between the page at 0x4000 and the scratchpad at 0x100; a batch with nothing left; rank 0 of a collective
of one; an append passed from the other die. -/
def cmdOf (kind : CopyKind) (todo : List Nat) : CopyCmd :=
  { CopyCmd.blank kind 0 true with id := 8, batch := 1, dst := 0x4000, src := 5, rowBytes := 8, rows := 1, todo := todo, dmap := [⟨0, 0, false, false⟩] }
def toSpad (k : CopyCmd) : CopyCmd := { k with dspad := true, dst := 0x100, src := 0x4000, dmap := [] }
def fromSpad (k : CopyCmd) : CopyCmd := { k with sspad := true, src := 0x100 }
def sCmd (k : CopyCmd) : State := modG sC fun g => { g with cmds := [k] }
def aDue : Batch := ⟨1, none, none, false, .none, false⟩
def sDue : State := modG sC fun g => { g with lastBatch := 1, batches := [aDue] }
def aColl (stage : Nat) : Coll :=
  { id := 7, die := .cd0, group := 3, cmd := 8, comm := 0, seq := 0, ranks := 1, myRank := 0, routes := [0x1000000000000000], op := 0, type := 0, count := 1,
    src := 0x4000, dst := 0x8000, event := 0, sa := 1, launchId := 1, failed := none, wait := .none, stage := stage, sent := 0 }
def sColl (stage : Nat) : State := { sCmd (cmdOf .coll []) with colls := [aColl stage] }
def sPeer : State :=
  let s := sCmd (cmdOf .launch [0])
  { s with cd0 := { s.cd0 with peerAppends := [(3, 8, 0x6000, 0)], ctl := { s.cd0.ctl with anchors := [0x8001, 0, 0, 0] } } }
def linkedB : AppendEnd → Bool | .linked => true | _ => false
theorem linked_of {a : AppendEnd} (h : linkedB a = true) : a = .linked := by cases a <;> simp [linkedB] at h; rfl
/-- With every link and both memories up, everything can be reached. -/
theorem reach_all {s : State} (h : s.linksDown = [] ∧ s.cd0.memUp = true ∧ s.cd1.memUp = true) (d : DieId) (pa : Nat) : s.reachable d pa = true := by
  unfold State.reachable
  split
  · rename_i x _
    cases x <;> simp [State.die, h.1, h.2.1, h.2.2]
  · rfl
/-- Everything is up. -/
abbrev upB (s : State) : Prop := s.linksDown = [] ∧ s.cd0.memUp = true ∧ s.cd1.memUp = true
/-- What `recordPlain` asks, as a test. -/
abbrev plainB (s : State) (l : Launch) : Prop :=
  s.poison = [] ∧ Mem.wf s.mem = true ∧ upB s ∧ l.owed = [] ∧ (s.launch? l.id).all (fun x => x.owed.isEmpty) = true
theorem plain_of {s : State} {l : Launch} (h : plainB s l) : Claims.recordPlain s l :=
  ⟨h.1, h.2.1, fun _ _ => reach_all h.2.2.1 _ _, h.2.2.2.1, fun x hx => by simpa [hx] using h.2.2.2.2⟩
/-- What `MovesWords` asks of a command. -/
abbrev moves (s : State) (c : Cx) (k : CopyCmd) : Prop :=
  s.cxMember 3 = some c ∧ (c.g.cmds.find? fun x => x.id == k.id) = some k ∧ k.wait ≠ .waits ∧ k.kind ∈ [CopyKind.load, .store, .gather, .xfer, .fill] ∧
  (∀ d pa, s.reachable d pa = true) ∧ s.linksDown = [] ∧ c.g.ended = false ∧ MemCanonical s ∧ SpadsCanonical s ∧
  (∃ w ∈ k.todo, c.wordReady { k with started := some (k.started.getD s.tick) } w = true) ∧ ∀ w ∈ k.todo, c.overlapped k w = false
theorem moves_of (k : CopyCmd) (h0 : k.wait ≠ .waits ∧ k.kind ∈ [CopyKind.load, .store, .gather, .xfer, .fill])
    (h : ((sCmd k).cxMember 3).any (fun c => decide ((c.g.cmds.find? fun x => x.id == k.id) = some k ∧
      ((sCmd k).linksDown = [] ∧ (sCmd k).cd0.memUp = true ∧ (sCmd k).cd1.memUp = true) ∧ c.g.ended = false ∧ Mem.wf (sCmd k).mem = true ∧ spadWf (sCmd k) ∧
      (∃ w ∈ k.todo, c.wordReady { k with started := some (k.started.getD (sCmd k).tick) } w = true) ∧ ∀ w ∈ k.todo, c.overlapped k w = false)) = true) :
    ∃ (s : State) (c : Cx), moves s c k :=
  let ⟨c, hc, h1, h2, h3, h4, h5, h6⟩ := found h
  ⟨_, c, hc, h1, h0.1, h0.2, reach_all h2, h2.1, h3, h4, spads_of h5, h6⟩
def movers : List CopyCmd :=
  [cmdOf .fill [0, 1], toSpad (cmdOf .load [0, 1]), fromSpad (cmdOf .store [0, 1]), toSpad (cmdOf .gather [0, 1]),
   toSpad { cmdOf .gather [0, 1] with gidx := [(0, .inl 0)] }, cmdOf .xfer [0, 1]]
theorem witness_MovesWords : ∀ k ∈ movers, ∃ (s : State) (c : Cx), moves s c k := by
  intro k hk
  simp only [movers, List.mem_cons, List.not_mem_nil, or_false] at hk
  rcases hk with rfl | rfl | rfl | rfl | rfl | rfl
  · exact moves_of _ (by decide) (by decide +kernel)
  · exact moves_of _ (by decide) (by decide +kernel)
  · exact moves_of _ (by decide) (by decide +kernel)
  · exact moves_of _ (by decide) (by decide +kernel)
  · exact moves_of _ (by decide) (by decide +kernel)
  · exact moves_of _ (by decide) (by decide +kernel)

/-- A rank of a collective of two, with the routes of its communicator (at 0x40000000) to the other die or out of the package: rank 1
that has its node to send up, or the result to send down to nobody; rank 0 that takes the node in, and sends the result down; and
rank 0 with DST to write. -/
def treeOf2 (my sent kind : Nat) : Coll :=
  let r : DWord := BitVec.ofNat 64 (kind * 2 ^ 60)
  { aColl 1 with ranks := 2, myRank := my, sent := sent, routes := if my = 0 then [0, r] else [r, 0] }
structure TreeCase where
  sent : Nat
  myRank : Nat
  kind : Nat
  parent : Option Nat
def trees : List TreeCase := [⟨0, 1, 1, some 0⟩, ⟨1, 1, 1, some 0⟩, ⟨0, 0, 1, none⟩, ⟨0, 0, 2, none⟩]
def treeUp : Coll := treeOf2 0 0 1
def treeEnd : Coll := treeOf2 0 2 1
def sTree (k : Coll) : State :=
  let s := sCmd (cmdOf .coll [])
  { s with
    colls := [k], collMsgs := [0, 1].map fun r => ⟨.cd0, 0, 0, r, (0, 0, 1), none, [5]⟩
    cd0 := { s.cd0 with ctl := { s.cd0.ctl with commTable := 0x40000000 } }
    mem := Mem.writeN s.mem 0x40000000 (leBytes 8 (2 + 2 ^ 32 * k.myRank) ++ leBytes 8 0x40001000) |> fun m =>
      Mem.writeN m 0x40001000 (k.routes.flatMap fun r => leBytes 8 r.toNat) }
abbrev treeB (s : State) (k : Coll) : Prop := (s.colls.find? fun x => x.id == k.id) = some k ∧ LinkId.cdCd ∉ s.linksDown ∧
  ∀ r ∈ k.awaits, ((s.collFrom k r).any fun m => decide (m.failed = none ∧ m.shape = (k.op, k.type, k.count))) = true
theorem ready_tree {s : State} {k : Coll} {c : Cx} (hc : s.cxMember k.group = some c) (h0 : k.wait ≠ .waits ∧ k.stage = 1 ∧ k.failed = none ∧ k.myRank < k.ranks)
    (hh : c.collHeld k = false) (h : treeB s k) : Claims.CollReady s k c :=
  ⟨h.1, hc, h0.1, hh, h0.2.1, h0.2.2.1, h0.2.2.2, h.2.1, fun r hr => found (h.2.2 r hr)⟩
theorem treeReady_of (e : TreeCase) (h0 : Claims.givesTo 2 e.myRank = e.parent ∧ e.myRank < 2)
    (h : ((sTree (treeOf2 e.myRank e.sent e.kind)).cxMember 3).any (fun c =>
      decide (c.collHeld (treeOf2 e.myRank e.sent e.kind) = false ∧ treeB (sTree (treeOf2 e.myRank e.sent e.kind)) (treeOf2 e.myRank e.sent e.kind))) = true) :
    ∃ (s : State) (k : Coll) (c : Cx), Claims.CollReady s k c ∧ k.sent = e.sent ∧ k.myRank = e.myRank ∧ Claims.givesTo k.ranks k.myRank = e.parent :=
  let ⟨c, hc, hh, h⟩ := found h
  ⟨_, treeOf2 e.myRank e.sent e.kind, c, ready_tree hc ⟨by show Redo.none ≠ Redo.waits; decide, rfl, rfl, h0.2⟩ hh h, rfl, rfl, h0.1⟩

theorem witness_CopyAndCollectiveEvents :
    (∃ (s : State) (c : Cx) (k : CopyCmd), s.cxMember 3 = some c ∧ (c.g.cmds.find? fun x => x.id == k.id) = some k ∧ k.wait ≠ .waits ∧ k.kind = .fill ∧
      k.dspad = false ∧ k.sspad = false ∧ k.todo ≠ [] ∧ (∀ e ∈ k.dmap, e.keyed = false ∧ e.sc = false) ∧ c.g.keyq = [] ∧ c.g.tx.close = none ∧ (∀ g ∈ s.groups, ∀ x ∈ g.cmds, k.id ≤ x.id) ∧ MemCanonical s ∧
      ∀ w pa, k.dstPa w = some pa → s.reachable c.die pa = true) ∧
    (∃ (s : State) (c : Cx), s.cxMember 3 = some c ∧ (s.groups.map (·.ident.id)).Nodup ∧ 3 = c.g.ident.id ∧ c.dueAdd = none ∧
      c.dueBatch = some aDue ∧ aDue.evt = none) ∧
    (∃ (s u : State) (k : Coll) (c : Cx) (m : List (Nat × Nat)), (s.colls.find? fun x => x.id == k.id) = some k ∧ s.cxMember k.group = some c ∧ k.wait ≠ .waits ∧
      c.collHeld k = false ∧ k.stage = 0 ∧ k.failed = none ∧ k.scalesOut = false ∧
      s.engSpan (c.collAsker (((c.g.cmds.find? fun x => x.id == k.cmd).map (·.priv)).getD c.l.priv) k.wait) k.src false (k.count * collBytes k.type) = (.inr m, u) ∧
      u.linesBefore k.cmd = [] ∧ u.poison = [] ∧ s.poison = []) ∧
    (∃ s : State, s.collMsgs = []) ∧
    (∀ e ∈ trees, ∃ (s : State) (k : Coll) (c : Cx), Claims.CollReady s k c ∧ k.sent = e.sent ∧ k.myRank = e.myRank ∧ Claims.givesTo k.ranks k.myRank = e.parent) ∧
    (∃ (s u : State) (k : Coll) (c : Cx) (m : List (Nat × Nat)), Claims.CollReady s k c ∧ k.sent = 2 ∧
      s.engSpan (c.collAsker (((c.g.cmds.find? fun x => x.id == k.cmd).map (·.priv)).getD c.l.priv) k.wait) k.dst true (k.count * collBytes k.type) = (.inr m, u) ∧
      u.routesChanged k = false ∧ u.linesBefore k.cmd (u.matchCmds k) = []) ∧
    (∃ (s : State) (k : Coll), (s.colls.find? fun x => x.id == k.id) = some k ∧ k.stage = 1 ∧ k.failed = none ∧ 1 ∈ k.awaits ∧ s.collMsgs = []) ∧
    (∃ (s u : State) (c : Cx) (k : CopyCmd), (s.die .cd0).peerAppends = [(3, 8, 0x6000, 0)] ∧ s.cxMember 3 = some c ∧ 3 = c.g.ident.id ∧
      (c.g.cmds.find? fun x => x.id == 8) = some k ∧ k.wait ≠ .waits ∧
      s.append .cd0 0 0x6000 (c.l.launchId.zeroExtend 64) k.priv k.id k.wait = (.linked, u)) := by
  refine ⟨?_, let ⟨c, h⟩ := found (o := sDue.cxMember 3) (by decide +kernel); ⟨_, c, h⟩, ?_, ⟨sV, by decide +kernel⟩, ?_, ?_,
    ⟨{ sTree treeUp with collMsgs := [] }, treeUp, by decide +kernel⟩, ?_⟩
  · obtain ⟨c, hc, h1, h2, h2b, h2a, h3, h4⟩ := found (o := (sCmd (cmdOf .fill [0, 1])).cxMember 3) (P := fun c : Cx =>
      (c.g.cmds.find? fun x => x.id == (cmdOf .fill [0, 1]).id) = some (cmdOf .fill [0, 1]) ∧ c.g.keyq = [] ∧ c.g.tx.close = none ∧ (∀ g ∈ (sCmd (cmdOf .fill [0, 1])).groups, ∀ x ∈ g.cmds, (cmdOf .fill [0, 1]).id ≤ x.id) ∧ Mem.wf (sCmd (cmdOf .fill [0, 1])).mem = true ∧
      ((sCmd (cmdOf .fill [0, 1])).linksDown = [] ∧ (sCmd (cmdOf .fill [0, 1])).cd0.memUp = true ∧ (sCmd (cmdOf .fill [0, 1])).cd1.memUp = true)) (by decide +kernel)
    exact ⟨_, c, _, hc, h1, by decide, rfl, rfl, rfl, by decide, by decide, h2, h2b, h2a, h3, fun _ _ _ => reach_all h4 _ _⟩
  · obtain ⟨c, hc, h1, h2, h3, h4, h5⟩ := found (o := (sColl 0).cxMember 3) (P := fun c : Cx => c.collHeld (aColl 0) = false ∧
      mapV ((sColl 0).engSpan (c.collAsker (((c.g.cmds.find? fun x => x.id == (aColl 0).cmd).map (·.priv)).getD c.l.priv) .none) 0x4000 false (1 * collBytes 0)).1 =
        some [(0, 0)] ∧
      ((sColl 0).engSpan (c.collAsker (((c.g.cmds.find? fun x => x.id == (aColl 0).cmd).map (·.priv)).getD c.l.priv) .none) 0x4000 false (1 * collBytes 0)).2.linesBefore 8 = [] ∧
      ((sColl 0).engSpan (c.collAsker (((c.g.cmds.find? fun x => x.id == (aColl 0).cmd).map (·.priv)).getD c.l.priv) .none) 0x4000 false (1 * collBytes 0)).2.poison = [] ∧
      (sColl 0).poison = []) (by decide +kernel)
    exact ⟨sColl 0, _, aColl 0, c, _, rfl, hc, by decide, h1, rfl, rfl, by decide, Prod.ext (mapV_of h2) rfl, h3, h4, h5⟩
  · intro k hk
    simp only [trees, List.mem_cons, List.not_mem_nil, or_false] at hk
    rcases hk with rfl | rfl | rfl | rfl
    · exact treeReady_of _ (by decide) (by decide +kernel)
    · exact treeReady_of _ (by decide) (by decide +kernel)
    · exact treeReady_of _ (by decide) (by decide +kernel)
    · exact treeReady_of _ (by decide) (by decide +kernel)
  · obtain ⟨c, hc, hh, h1, h2, h3, h4⟩ := found (o := (sTree treeEnd).cxMember 3) (P := fun c : Cx => c.collHeld treeEnd = false ∧ treeB (sTree treeEnd) treeEnd ∧
      mapV ((sTree treeEnd).engSpan (c.collAsker (((c.g.cmds.find? fun x => x.id == treeEnd.cmd).map (·.priv)).getD c.l.priv) .none) 0x8000 true (1 * collBytes 0)).1 =
        some [(0, 0)] ∧
      ((sTree treeEnd).engSpan (c.collAsker (((c.g.cmds.find? fun x => x.id == treeEnd.cmd).map (·.priv)).getD c.l.priv) .none) 0x8000 true (1 * collBytes 0)).2.routesChanged
        treeEnd = false ∧
      ((sTree treeEnd).engSpan (c.collAsker (((c.g.cmds.find? fun x => x.id == treeEnd.cmd).map (·.priv)).getD c.l.priv) .none) 0x8000 true (1 * collBytes 0)).2.linesBefore 8
        (((sTree treeEnd).engSpan (c.collAsker (((c.g.cmds.find? fun x => x.id == treeEnd.cmd).map (·.priv)).getD c.l.priv) .none) 0x8000 true (1 * collBytes 0)).2.matchCmds
          treeEnd) = []) (by decide +kernel)
    exact ⟨sTree treeEnd, _, treeEnd, c, _, ready_tree hc (by decide) hh h1, rfl, Prod.ext (mapV_of h2) rfl, h3, h4⟩
  · obtain ⟨c, hc, h1, h2, h3, h4⟩ := found (o := sPeer.cxMember 3) (P := fun c : Cx => (sPeer.die .cd0).peerAppends = [(3, 8, 0x6000, 0)] ∧ 3 = c.g.ident.id ∧
      (c.g.cmds.find? fun x => x.id == 8) = some (cmdOf .launch [0]) ∧
      linkedB (sPeer.append .cd0 0 0x6000 (c.l.launchId.zeroExtend 64) true 8 .none).1 = true) (by decide +kernel)
    exact ⟨sPeer, _, c, cmdOf .launch [0], h1, hc, h2, h3, by decide, Prod.ext (linked_of h4) rfl⟩

/-! ## Witnesses: issue, completion and walks -/

/-- TRAP_VECTOR is 0x20000. -/
def vec0 (s : State) : State := { s with cd0 := { s.cd0 with ctl := { s.cd0.ctl with trapVector := 0x20000 } } }
/-- The gang with a clause of headers to fetch, and with its clause fetched and not begun. -/
def sNo : State := modX sV fun x => { x with clause := none, begun := false, pc := 0x10000 }
def sNew : State := modX sV fun x => { x with begun := false }
def sOld : State := modX sNew fun x => { x with bypassed := 70 }
/-- Two groups of the quadrant that are ready, the second for longer. -/
def sNew2 : State := modG sTwo fun g => { g with gangs := g.gangs.map fun (x : Gang) => { x with begun := false, age := g.ident.id } }
/-- A header and the word after it at the pc, in a privileged launch and not; a trap vector is set. -/
def sBadClause (priv : Bool) (h w : Word) : State :=
  let s := (vec0 sNo).writePa 0x10000 (leBytes 4 h.toNat ++ leBytes 4 w.toNat)
  { s with launches := s.launches.map fun (l : Launch) => { l with priv := priv } }
/-- R75's checks in turn: reserved bits, SYS outside a privileged context, a class that a vector group may not issue, a reserved opcode,
a header within the clause, and an instruction of another class. -/
structure BadClause where
  priv : Bool
  hdr : Word
  word : Word
  code : Nat
  addr : DWord
def badClauses : List BadClause :=
  [⟨true, 0xE1000001, 0, 0x04, 0x10000⟩, ⟨false, 0xE1A00000, 0xFA000000, 0x0F, 0⟩, ⟨true, 0xE1600000, 0, 0x03, 0⟩, ⟨true, 0xE1000000, 0xFF000000, 0x01, 0⟩,
   ⟨true, 0xE1000000, 0xE1000000, 0x01, 0⟩, ⟨true, 0xE1800000, 0x01000000, 0x03, 0⟩]

def wordB4 (f : Fetched) : Option (Word × Nat) := match f with | .word w pa => some (w, pa) | _ => none
theorem word_of {f : Fetched} {w : Word} {pa : Nat} (h : wordB4 f = some (w, pa)) : f = .word w pa := by
  cases f <;> simp [wordB4] at h
  obtain ⟨rfl, rfl⟩ := h
  rfl
/-- What `clauseFetch` asks of its words, as tests. -/
def fetchB (c : Cx) : Bool :=
  match wordB4 (c.fetchAt c.gg.pc c.s).1 with
  | some (h, _) =>
    let u := (c.fetchAt c.gg.pc c.s).2
    h.extractLsb' 28 4 == 0xE#4 &&
    (match mapV (c.fetchWords (h.extractLsb' 24 4).toNat (c.gg.pc + 4) u).1 with
     | some ws => (Cx.clauseBad { c with s := u } h (ws.map (·.1))).isNone
     | none => false)
  | none => false
theorem fetch_of {c : Cx} (hb : fetchB c = true) : ∃ (u v : State) (h : Word) (pa : Nat) (ws : List (Word × Nat)), c.fetchAt c.gg.pc c.s = (.word h pa, u) ∧
    h.extractLsb' 28 4 = 0xE#4 ∧ c.fetchWords (h.extractLsb' 24 4).toNat (c.gg.pc + 4) u = (.inr ws, v) ∧ Cx.clauseBad { c with s := u } h (ws.map (·.1)) = none := by
  unfold fetchB at hb
  split at hb
  · rename_i h pa hw
    simp only [Bool.and_eq_true, beq_iff_eq] at hb
    obtain ⟨h1, h2⟩ := hb
    split at h2
    · rename_i ws hs
      exact ⟨_, _, h, pa, ws, Prod.ext (word_of hw) rfl, h1, Prod.ext (mapV_of hs) rfl, by simpa using h2⟩
    · simp at h2
  · simp at hb

/-- What the trap clause asks, with the one word of the clause, as tests. -/
abbrev badB (e : BadClause) (c : Cx) : Prop := 3 = c.g.ident.id ∧ c.gg.clause = none ∧ c.groupMay = true ∧ c.gg.park = none ∧
  (wordB4 (c.fetchAt c.gg.pc c.s).1 = some (e.hdr, 0x10000) ∧ e.hdr.extractLsb' 28 4 = 0xE#4 ∧
    mapV (c.fetchWords (e.hdr.extractLsb' 24 4).toNat (c.gg.pc + 4) (c.fetchAt c.gg.pc c.s).2).1 = some [(e.word, 0x10004)] ∧
    ((c.fetchWords (e.hdr.extractLsb' 24 4).toNat (c.gg.pc + 4) (c.fetchAt c.gg.pc c.s).2).2.die c.die).ctl.trapVector ≠ 0 ∧ c.g.handler = none ∧ c.g.held = []) ∧
  (∀ j ∈ c.gg.slices, j < 8) ∧ c.g.ident.role = .vector ∧ c.priv = e.priv ∧ c.gg.pc = 0x10000
theorem bad_clause (e : BadClause) (hf : Claims.clauseFault .vector e.priv 0x10000 e.hdr [e.word] e.code e.addr)
    (h : ((sBadClause e.priv e.hdr e.word).cxOf 3 4).any (fun c => decide (badB e c)) = true) :
    ∃ (s u v : State) (c : Cx) (h : Word) (pa : Nat) (ws : List (Word × Nat)), s.cxOf 3 4 = some c ∧ 3 = c.g.ident.id ∧ c.gg.clause = none ∧
      c.groupMay = true ∧ c.gg.park = none ∧ c.fetchAt c.gg.pc c.s = (.word h pa, u) ∧ h.extractLsb' 28 4 = 0xE#4 ∧
      c.fetchWords (h.extractLsb' 24 4).toNat (c.gg.pc + 4) u = (.inr ws, v) ∧ Claims.mayEnter v c ∧ (∀ j ∈ c.gg.slices, j < 8) ∧
      Claims.clauseFault c.g.ident.role c.priv c.gg.pc h (ws.map (·.1)) e.code e.addr := by
  obtain ⟨c, hc, h1, h2, h3, h4, ⟨h5, h6, h7, h8⟩, h9, h10, h11, h12⟩ := found h
  exact ⟨_, _, _, c, e.hdr, 0x10000, [(e.word, 0x10004)], hc, h1, h2, h3, h4, Prod.ext (word_of h5) rfl, h6, Prod.ext (mapV_of h7) rfl, h8, h9,
    by rw [h10, h11, h12]; exact hf⟩
/-- And its trap is the one that R75 names. -/
theorem test_clause_traps : ∀ e ∈ badClauses, ((grp (ran (.clauseFetch 3 4) (sBadClause e.priv e.hdr e.word))).trap.cause.extractLsb' 0 8).toNat = e.code ∧
    (grp (ran (.clauseFetch 3 4) (sBadClause e.priv e.hdr e.word))).trap.addr = e.addr := by decide +kernel
theorem witness_ClauseEvents :
    (∃ (s : State) (c : Cx), pickOn (s.quadGangs .cd0 0 0) = none ∧ pickNew s.tick (s.quadGangs .cd0 0 0) = some c ∧
      ∀ x, x ∈ s.quadGangs .cd0 0 0 ∧ x.ready = true → x.gg.bypassed < 64) ∧
    (∃ (s : State) (c : Cx), pickOn (s.quadGangs .cd0 0 0) = none ∧ pickNew s.tick (s.quadGangs .cd0 0 0) = some c ∧
      ∃ x, (x ∈ s.quadGangs .cd0 0 0 ∧ x.ready = true) ∧ 64 ≤ x.gg.bypassed) ∧
    (∃ (s : State) (c : Cx), pickOn (s.quadGangs .cd0 0 0) = none ∧ pickNew s.tick (s.quadGangs .cd0 0 0) = some c ∧ Claims.uniqueGroups s ∧
      ∃ x, (x ∈ s.quadGangs .cd0 0 0 ∧ x.ready = true) ∧ x.g.ident.id ≠ c.g.ident.id) ∧
    (∃ (s : State) (c : Cx), pickOn (s.quadGangs .cd0 0 0) = some c) ∧
    (∃ (s u v : State) (c : Cx) (h : Word) (pa : Nat) (ws : List (Word × Nat)), s.cxOf 3 4 = some c ∧ c.gg.clause = none ∧ c.groupMay = true ∧ c.gg.park = none ∧
      c.fetchAt c.gg.pc c.s = (.word h pa, u) ∧ h.extractLsb' 28 4 = 0xE#4 ∧
      c.fetchWords (h.extractLsb' 24 4).toNat (c.gg.pc + 4) u = (.inr ws, v) ∧ Cx.clauseBad { c with s := u } h (ws.map (·.1)) = none) ∧
    (∀ e ∈ badClauses, ∃ (s u v : State) (c : Cx) (h : Word) (pa : Nat) (ws : List (Word × Nat)), s.cxOf 3 4 = some c ∧ 3 = c.g.ident.id ∧ c.gg.clause = none ∧
      c.groupMay = true ∧ c.gg.park = none ∧ c.fetchAt c.gg.pc c.s = (.word h pa, u) ∧ h.extractLsb' 28 4 = 0xE#4 ∧
      c.fetchWords (h.extractLsb' 24 4).toNat (c.gg.pc + 4) u = (.inr ws, v) ∧ Claims.mayEnter v c ∧ (∀ j ∈ c.gg.slices, j < 8) ∧
      Claims.clauseFault c.g.ident.role c.priv c.gg.pc h (ws.map (·.1)) e.code e.addr) := by
  refine ⟨?_, ?_, ?_, let ⟨c, h⟩ := found (o := pickOn (sV.quadGangs .cd0 0 0)) (P := fun _ => True) (by decide +kernel); ⟨_, c, h.1⟩, ?_, ?_⟩
  · obtain ⟨c, hc, h1, h2⟩ := found (o := pickNew sNew.tick (sNew.quadGangs .cd0 0 0)) (P := fun _ : Cx => (pickOn (sNew.quadGangs .cd0 0 0)).isNone = true ∧
      ∀ x ∈ sNew.quadGangs .cd0 0 0, x.ready = true → x.gg.bypassed < 64) (by decide +kernel)
    exact ⟨sNew, c, by simpa using h1, hc, fun x h => h2 x h.1 h.2⟩
  · obtain ⟨c, hc, h1, h2⟩ := found (o := pickNew sOld.tick (sOld.quadGangs .cd0 0 0)) (P := fun _ : Cx => (pickOn (sOld.quadGangs .cd0 0 0)).isNone = true ∧
      ∃ x ∈ sOld.quadGangs .cd0 0 0, x.ready = true ∧ 64 ≤ x.gg.bypassed) (by decide +kernel)
    obtain ⟨x, hx, h3, h4⟩ := h2
    exact ⟨sOld, c, by simpa using h1, hc, x, ⟨hx, h3⟩, h4⟩
  · obtain ⟨c, hc, h1, h2, x, hx, h3, h4⟩ := found (o := pickNew sNew2.tick (sNew2.quadGangs .cd0 0 0)) (P := fun c : Cx =>
      (pickOn (sNew2.quadGangs .cd0 0 0)).isNone = true ∧ (sNew2.groups.map (·.ident.id)).Nodup ∧
      ∃ x ∈ sNew2.quadGangs .cd0 0 0, x.ready = true ∧ x.g.ident.id ≠ c.g.ident.id) (by decide +kernel)
    exact ⟨sNew2, c, by simpa using h1, hc, h2, x, ⟨hx, h3⟩, h4⟩
  · obtain ⟨c, hc, h1, h2, h3, h4⟩ := found (o := sNo.cxOf 3 4) (P := fun c : Cx => c.gg.clause = none ∧ c.groupMay = true ∧ c.gg.park = none ∧ fetchB c = true)
      (by decide +kernel)
    obtain ⟨u, v, h, pa, ws, h5⟩ := fetch_of h4
    exact ⟨sNo, u, v, c, h, pa, ws, hc, h1, h2, h3, h5⟩
  · intro e he
    simp only [badClauses, List.mem_cons, List.not_mem_nil, or_false] at he
    rcases he with rfl | rfl | rfl | rfl | rfl | rfl
    · exact bad_clause _ (by dsimp only [Claims.clauseFault]; exact .inl ⟨by decide, rfl, rfl⟩) (by decide +kernel)
    · exact bad_clause _ (by dsimp only [Claims.clauseFault]; exact .inr (.inl ⟨by decide, by decide, rfl, rfl, rfl⟩)) (by decide +kernel)
    · exact bad_clause _ (by dsimp only [Claims.clauseFault]; exact .inr (.inr (.inl ⟨by decide, by decide, by decide, rfl, rfl⟩))) (by decide +kernel)
    · exact bad_clause _ (by dsimp only [Claims.clauseFault]; exact .inr (.inr (.inr ⟨by decide, by decide, by decide, by decide, .inl ⟨by decide, rfl, rfl⟩⟩)))
        (by decide +kernel)
    · exact bad_clause _ (by dsimp only [Claims.clauseFault]; exact .inr (.inr (.inr ⟨by decide, by decide, by decide, by decide, .inl ⟨by decide, rfl, rfl⟩⟩)))
        (by decide +kernel)
    · exact bad_clause _ (by dsimp only [Claims.clauseFault]; exact .inr (.inr (.inr ⟨by decide, by decide, by decide, by decide,
        .inr ⟨⟨0, by decide, by decide, by decide⟩, rfl, rfl⟩⟩))) (by decide +kernel)

/-- An outstanding operation on entry 2 that writes v0 of lane 1, or s5; a split set that has met; a held gang; a poisoned return. -/
def sPend (t : Tgt) : State := modG sV fun g => { g with pend := [⟨9, 2, 0, [(t, 7)], []⟩], sb := g.sb.set 2 1 }
def sSpl : State := modX sV fun x => { x with split := some 1, park := some .catchUp }
/-- Two parts of a split set, one with a poisoned return, that agree or stand apart. -/
def sSpl2 (agree : Bool) : State := modG sSpl fun g => { g with gangs := g.gangs.flatMap fun (x : Gang) =>
  [{ x with slices := [0], poison := [(0x10004, 1, 0x40)] }, { x with id := 5, slices := [1], pc := if agree then x.pc else x.pc + 4 }] }
def anInfo : TrapInfo := ⟨.misaligned, 1, 0, 0x10004, 0x41, 0x10000, 0x10000⟩
def sHeld : State := modX (modG sVec fun g => { g with held := [(4, anInfo)] }) fun x => { x with park := some .held }
def sPoi : State := modX sVec fun x => { x with poison := [(0x10004, 1, 0x40)], begun := false }
/-- Lane 0 waits for tag 0 on the word at 0x40. -/
def ldspForm : MForm := { ml 4 0 0x40 0 2 with tag := 1 }
def aWait : TagWait := ⟨5, 4, 0, [(0, 0x40, .team 2 0x40)], []⟩
def sTag : State := modX (put (.vLdsp ldspForm)) fun x => { x with park := some (.tag aWait) }
theorem witness_CompletionEvents :
    (∀ t ∈ [Tgt.vreg 1 0, .sreg 5 (BitVec.allOnes 64)], ∃ (s : State) (g : Group), s.group? 3 = some g ∧
      (g.pend.find? fun x => x.id == 9) = some ⟨9, 2, 0, [(t, 7)], []⟩ ∧ 2 < g.sb.length ∧ 0 < (g.lane 1).v.length ∧ 5 < g.s.length) ∧
    (∀ n ∈ [1, 2, 3], ∃ (s : State) (g : Group), s.group? 3 = some g ∧ g.handler = none ∧ (∃ x ∈ g.gangs, x.split = some 1) ∧
      (∀ x ∈ g.gangs, x.split = some 1 → x.park = some .catchUp) ∧ g.gangs.length = min n 2 ∧
      ((∀ y ∈ g.gangs, ∀ z ∈ g.gangs, y.split = some 1 → z.split = some 1 → y.pc = z.pc ∧ y.fmt = z.fmt ∧ y.clause = z.clause) ↔ n ≤ 2)) ∧
    (∃ (s : State) (c : Cx), s.cxOf 3 4 = some c ∧ c.g.handler = none ∧ (s.die c.die).ctl.trapVector ≠ 0 ∧ c.g.held = [(4, anInfo)]) ∧
    (∃ (s : State) (c : Cx), s.cxOf 3 4 = some c ∧ c.g.handler = none ∧ (s.die c.die).ctl.trapVector ≠ 0 ∧ c.gg.poison = [(0x10004, 1, 0x40)] ∧
      c.gg.begun = false ∧ c.gg.park = none ∧ c.groupMay = true) ∧
    (∃ (s : State) (c : Cx), s.cxOf 3 4 = some c ∧ c.g.handler = none ∧ c.gg.park = some (.tag aWait) ∧ c.gg.instr? = some (.vLdsp ldspForm) ∧
      s.tagBlocked aWait.arrived (.team 2 0x40) aWait.n = false ∧ s.tagTest (.team 2 0x40) aWait.n aWait.want = .met) ∧
    (∃ (s : State) (v slot level : Nat) (e : DWord), (s.die .cd0).coresHeld = false ∧ MemCanonical s ∧ slot % 8 = 0 ∧ v = ((0x4000 : DWord).extractLsb' 0 57).toNat ∧
      canonical 0x4000 = true ∧ s.walk .cd0 v = .leaf slot level e ∧ s.permitted .cd0 e ⟨true, false, true⟩ = true ∧ e = Mem.dword s.mem slot) := by
  refine ⟨?_, fun n hn => ?_, let ⟨c, h⟩ := found (o := sHeld.cxOf 3 4) (by decide +kernel); ⟨_, c, h⟩,
    let ⟨c, h⟩ := found (o := sPoi.cxOf 3 4) (by decide +kernel); ⟨_, c, h⟩, let ⟨c, h⟩ := found (o := sTag.cxOf 3 4) (by decide +kernel); ⟨_, c, h⟩,
    sV, 0x4000, 0x100000, 2, Mem.dword sV.mem 0x100000, by decide +kernel, by show Mem.wf sV.mem = true; decide +kernel, by decide +kernel, by decide +kernel, by decide +kernel, by decide +kernel, by decide +kernel, rfl⟩
  rotate_left
  · simp only [List.mem_cons, List.not_mem_nil, or_false] at hn
    rcases hn with rfl | rfl | rfl
    · exact let ⟨c, h⟩ := found (o := sSpl.group? 3) (by decide +kernel); ⟨_, c, h⟩
    · exact let ⟨c, h⟩ := found (o := (sSpl2 true).group? 3) (by decide +kernel); ⟨_, c, h⟩
    · exact let ⟨c, h⟩ := found (o := (sSpl2 false).group? 3) (by decide +kernel); ⟨_, c, h⟩
  intro t ht
  simp only [List.mem_cons, List.not_mem_nil, or_false] at ht
  rcases ht with rfl | rfl
  · exact let ⟨c, h⟩ := found (o := (sPend (.vreg 1 0)).group? 3) (by decide +kernel); ⟨_, c, h⟩
  · exact let ⟨c, h⟩ := found (o := (sPend (.sreg 5 (BitVec.allOnes 64))).group? 3) (by decide +kernel); ⟨_, c, h⟩

/-! ## Witnesses: the host, the front-end and the dispatcher -/

def sLck : State := { State.reset with cd0 := { State.reset.cd0 with tdisp := .locked } }
def sFrq (r : PowerReq) : State := { State.reset with cd0 := { State.reset.cd0 with power := { State.reset.cd0.power with active := some r } } }
/-- An uncorrectable error pending and not enabled, with the vectors unmasked. -/
def sInt : State := { State.reset with cd0 := { State.reset.cd0 with masked := List.replicate 4 false, ctl := { State.reset.cd0.ctl with intStatus := 8 } } }
theorem witness_HostRegisterWrites :
    (∃ s : State, (s.die .cd0).tdisp ≠ .unlocked) ∧
    (∀ r ∈ [PowerReq.freq 0 800, .steps true 3, .steps false 2, .width 4 1], ∃ (s : State) (x : Island) (w : Nat), (s.die .cd0).power.active = some r ∧
      (s.die .cd0).power.islands[0]? = some x ∧ (s.die .cd0).power.linkWidths[4]? = some w) ∧
    (∃ s : State, (s.die .cd0).tdisp = .unlocked ∧ Claims.hostBusy (s.die .cd0)) ∧
    (∃ s : State, (s.die .cd0).tdisp = .unlocked ∧ ¬ Claims.hostBusy (s.die .cd0) ∧ ¬ Claims.powerIdle (s.die .cd0)) ∧
    (∃ s : State, (s.die .cd0).tdisp = .unlocked ∧ (s.die .cd0).ctl.intEnable.getLsbD 3 = false ∧ (s.die .cd0).ctl.intStatus.getLsbD 3 = true ∧
      (s.die .cd0).masked.getD (intVector 3) false = false) ∧
    (∃ s : State, (s.die .cd0).tdisp = .unlocked ∧ (s.die .cd0).ctl.grants.length = 4 ∧ (s.die .cd0).ctl.anchors.length = 4 ∧ (s.die .cd0).lists.length = 4 ∧
      (grantRange (0x00010000 &&& 0x8007FFFF0003FFFF)).1 ≤ (grantRange (0x00010000 &&& 0x8007FFFF0003FFFF)).2 ∧
      ((0x8000 : DWord).getLsbD 0 = false ∧ (0x8001 : DWord).getLsbD 0 = true ∧ ((s.die .cd0).ctl.anchors.getD 3 0).getLsbD 0 = false) ∧
      ((s.die .cd0).msix.length = 4 ∧ (s.die .cd0).masked.length = 4) ∧ 159 < (s.die .cd0).ctl.wbarMember.length ∧ 63 < s.wbars.length ∧ ((s.wbar 63).bind.extractLsb' 32 32 ≠ (0x100000000 : DWord).extractLsb' 32 32) ∧
      (2400 ≤ (2400 : Word).toNat % 65536 ∧ (3600 : Word).toNat % 65536 ≤ 3600) ∧ ((s.die .cd0).power.active = none ∧ (s.die .cd0).power.reqs = []) ∧
      ((0x06408003 : DWord).extractLsb' 0 16 = 0x8000#16 ||| BitVec.ofNat 16 3 ∧ (0x06408003 : DWord).extractLsb' 16 16 = BitVec.ofNat 16 1600 ∧ ((0x06408003 : DWord).extractLsb' 41 3).toNat ≤ 2 ∧
        ((0x06408003 : DWord).extractLsb' 44 4).toNat ≤ 12) ∧
      ((0xC50000000000 : DWord).getLsbD 15 = false ∧ (0xC50000000000 : DWord).getLsbD 40 = true ∧ (0xC50000000000 : DWord).extractLsb' 41 3 = BitVec.ofNat 3 2 ∧
        (0xC50000000000 : DWord).extractLsb' 44 4 = BitVec.ofNat 4 12)) := by
  refine ⟨⟨sLck, by decide⟩, fun r _ => ⟨sFrq r, ⟨false, 1600, 1600, 0⟩, 0, rfl, rfl, rfl⟩,
    ⟨sFrq (.freq 0 800), by decide, .freq 0 800, by simp [sFrq, State.die], by simp⟩,
    ⟨sFrq (.steps true 3), by decide, by simp [Claims.hostBusy, sFrq, State.die, State.reset, Die.reset, PowerState.reset], by simp [Claims.powerIdle, sFrq, State.die]⟩, ⟨sInt, by decide +kernel⟩,
    ⟨State.reset, by decide +kernel⟩⟩

/-- A list with its anchor at 0x8000, NEXT naming the record at 0x8080, its kernel header at 0x9000. -/
def recBytes (flags : Nat) : List Byte :=
  leBytes 8 0 ++ leBytes 8 0x9000 ++ leBytes 16 0 ++ leBytes 4 2 ++ leBytes 2 1 ++ leBytes 2 1 ++ leBytes 4 9 ++ leBytes 2 flags ++ List.replicate 82 0
def hdrBytes : List Byte := leBytes 2 0x4C59 ++ leBytes 2 1 ++ [8, 1, 0, 0, 16, 0, 0, 8, 0, 0, 0, 0, 1, 0, 0, 0, 0, 16, 0, 0] ++ List.replicate 40 0
def sList (nx : Nat) (flags : Nat) : State :=
  let s := ((sV.writePa 0x8000 (leBytes 8 nx)).writePa 0x8080 (recBytes flags)).writePa 0x9000 hdrBytes
  { s with cd0 := { s.cd0 with ctl := { s.cd0.ctl with anchors := [0x8005, 0, 0, 0] }, lists := s.cd0.lists.set 0 ⟨some 0x8000, false, .none⟩ } }
abbrev runsB (s : State) : Prop := s.frontRuns .cd0 = true ∧ ((s.die .cd0).ctl.anchors.getD 0 0).getLsbD 0 = true ∧ s.outstanding .cd0 < 256 ∧
  (s.die .cd0).lists[0]? = some ⟨some 0x8000, false, .none⟩
def okFr (x : FrTr) : Option Nat := match x with | .ok pa => some pa | _ => none
theorem okFr_of {x : FrTr} {pa : Nat} (h : okFr x = some pa) : x = .ok pa := by cases x <;> simp [okFr] at h; rw [h]
def reasonOf (x : Checked) : Option (Option Nat) := match x with | .reason n => some (some n) | .pass _ _ => some none | _ => none
theorem reason_of {x : Checked} {n : Nat} (h : reasonOf x = some (some n)) : x = .reason n := by cases x <;> simp [reasonOf] at h; rw [h]
theorem pass_of {x : Checked} (h : reasonOf x = some none) : ∃ k sp, x = .pass k sp := by cases x <;> simp [reasonOf] at h; exact ⟨_, _, rfl⟩
def anc (s : State) : DWord := (s.die .cd0).ctl.anchors.getD 0 0
def frNext (s : State) : FrTr × State := s.frTr .cd0 (Config.freeWord s.tick 0) ((anc s).getLsbD 2) (!((0x8000 : DWord) == anc s &&& ~~~127)) 0x8000
  (if (0x8000 : DWord) == anc s &&& ~~~127 then 128 else 8)
/-- The reserved bytes of the anchor are zero. -/
def anchorB (u : State) : Bool := (List.range 128).all fun i => decide (i < 16) || Mem.read u.mem (0x8000 + i) == 0
def frRec (u : State) : FrTr × State := u.frTr .cd0 (Config.freeWord u.tick 0) true true 0x8080 128
def chk (v : State) : Checked × State :=
  (Claims.taken v .cd0 0 true 0x8080 0x8080).2.checkRecord .cd0 (Claims.taken v .cd0 0 true 0x8080 0x8080).1 (v.readPa 0x8080 128) .none
abbrev listB (flags : Nat) (o : Option Nat) : Prop :=
  let s := sList 0x8080 flags
  runsB s ∧ (okFr (frNext s).1 = some 0x8000 ∧ anchorB (frNext s).2 = true) ∧ Mem.dword (frNext s).2.mem 0x8000 = 0x8080 ∧ okFr (frRec (frNext s).2).1 = some 0x8080 ∧
    reasonOf (chk (frRec (frNext s).2).2).1 = some o ∧
    (Claims.taken (frRec (frNext s).2).2 .cd0 0 true 0x8080 0x8080).1.conds = [] ∧
    (Claims.taken (frRec (frNext s).2).2 .cd0 0 true 0x8080 0x8080).1.undone = [] ∧
    (∀ x ∈ (frRec (frNext s).2).2.launches, x.id ≠ (frRec (frNext s).2).2.nextId) ∧
    plainB (chk (frRec (frNext s).2).2).2 (Claims.taken (frRec (frNext s).2).2 .cd0 0 true 0x8080 0x8080).1
theorem listB_pass : listB 0 none := by decide +kernel
theorem listB_fail : listB 0x400 (some 1) := by decide +kernel

/-- A launch with one condition, met or not; and one of which every team has ended. -/
def sCond (val : DWord) : State :=
  { sV with launches := sV.launches.map fun (l : Launch) => { l with ready := none, running := false, conds := [⟨0x4000, val, false, .none⟩] } }
def sEnded : State := { sV with launches := sV.launches.map fun (l : Launch) => { l with running := true, todo := [], live := [], undone := [] } }
theorem nextIs_of {nx flags : Nat} {v : DWord} (h1 : okFr (frNext (sList nx flags)).1 = some 0x8000 ∧ anchorB (frNext (sList nx flags)).2 = true)
    (h2 : Mem.dword (frNext (sList nx flags)).2.mem 0x8000 = v) :
    Claims.nextIs (sList nx flags) (frNext (sList nx flags)).2 .cd0 0 0x8000 v :=
  ⟨_, Prod.ext (okFr_of h1.1) rfl, fun _ i h3 h4 => by
    have := List.all_eq_true.mp h1.2 i (List.mem_range.mpr h4)
    simpa [Nat.not_lt.mpr h3] using this, h2⟩
theorem rec_of {u : State} (h : okFr (frRec u).1 = some 0x8080) :
    u.frTr .cd0 (Config.freeWord u.tick 0) true true 0x8080 128 = (.ok 0x8080, (frRec u).2) := Prod.ext (okFr_of h) rfl
theorem chk_of {v : State} {x : Checked} (h : (chk v).1 = x) : (Claims.taken v .cd0 0 true 0x8080 0x8080).2.checkRecord .cd0
    (Claims.taken v .cd0 0 true 0x8080 0x8080).1 (v.readPa 0x8080 128) .none = (x, (chk v).2) := Prod.ext h rfl
/-- The words of `Raises`, raised. -/
def raised (l : Launch) : List DWord → State → Option Mem
  | [], z => some z.mem
  | w :: ws, z =>
    let x := z.frTr l.die l.launchId l.priv true w 8 l.doneWait
    match okFr x.1 with
    | some pa => if w ≠ 0 ∧ w.toNat % 8 = 0 ∧ pa / 128 ∉ x.2.engineLines then raised l ws (x.2.addWord pa 1) else none
    | none => none
theorem raises_of {l : Launch} : ∀ {ws : List DWord} {z : State} {m : Mem}, raised l ws z = some m → Claims.Raises l ws z m
  | [], _, _, h => (Option.some.inj h).symm
  | w :: ws, z, m, h => by
    simp only [raised] at h
    split at h
    · rename_i pa hp
      split at h
      · rename_i hw
        exact ⟨hw.1, hw.2.1, pa, _, Prod.ext (okFr_of hp) rfl, hw.2.2, raises_of h⟩
      · cases h
    · cases h
/-- A launch of which every team has ended, with two completion words to raise. -/
def sEnded2 : State := { sEnded with launches := sEnded.launches.map fun (l : Launch) => { l with undone := [0x4000, 0x4008] } }
theorem witness_FrontEndEvents :
    (∃ (s : State) (p : ListPos), (s.die .cd0).lists[0]? = some p) ∧
    (∃ (s u : State), Claims.listRuns s .cd0 0 0x8000 ∧ Claims.nextIs s u .cd0 0 0x8000 0) ∧
    (∃ (s u v : State) (h : KHdr) (sp : List (DWord × DWord × DWord)) (w : State), Claims.listRuns s .cd0 0 0x8000 ∧ Claims.nextIs s u .cd0 0 0x8000 0x8080 ∧
      u.frTr .cd0 (Config.freeWord u.tick 0) true true 0x8080 128 = (.ok 0x8080, v) ∧ (∀ x ∈ v.launches, x.id ≠ v.nextId) ∧
      (Claims.taken v .cd0 0 true 0x8080 0x8080).2.checkRecord .cd0 (Claims.taken v .cd0 0 true 0x8080 0x8080).1 (v.readPa 0x8080 128) .none = (.pass h sp, w) ∧
      (Claims.taken v .cd0 0 true 0x8080 0x8080).1.conds = []) ∧
    (∃ (s u v w : State), Claims.listRuns s .cd0 0 0x8000 ∧ Claims.nextIs s u .cd0 0 0x8000 0x8080 ∧
      u.frTr .cd0 (Config.freeWord u.tick 0) true true 0x8080 128 = (.ok 0x8080, v) ∧ (∀ x ∈ v.launches, x.id ≠ v.nextId) ∧
      (Claims.taken v .cd0 0 true 0x8080 0x8080).2.checkRecord .cd0 (Claims.taken v .cd0 0 true 0x8080 0x8080).1 (v.readPa 0x8080 128) .none = (.reason 1, w) ∧
      (Claims.taken v .cd0 0 true 0x8080 0x8080).1.undone = [] ∧
      Claims.recordPlain w (Claims.taken v .cd0 0 true 0x8080 0x8080).1) ∧
    (∀ val ∈ [(0 : DWord), 1], ∃ (s u : State) (l : Launch), s.launch? l.id = some l ∧ l.finished = false ∧ l.ready = none ∧ l.conds = [⟨0x4000, val, false, .none⟩] ∧
      s.frTr l.die l.launchId l.priv false 0x4000 8 = (.ok 0x4000, u) ∧ (val.toNat ≤ (Mem.dword u.mem 0x4000).toNat ↔ val = 0)) ∧
    (∀ s ∈ [sEnded, sEnded2], ∃ (l : Launch) (m : Mem), s.launch? l.id = some l ∧ l.finished = false ∧ l.running = true ∧ l.todo = [] ∧ l.live = [] ∧
      Claims.recordPlain s l ∧ Claims.Raises l l.undone ((s.recByte l 46 0x03).modLaunch l.id fun x => { x with finished := true }) m) := by
  refine ⟨⟨sV, _, rfl⟩, ?_, ?_, ?_, ?_, ?_⟩
  · have h : runsB (sList 0 0) ∧ (okFr (frNext (sList 0 0)).1 = some 0x8000 ∧ anchorB (frNext (sList 0 0)).2 = true) ∧ Mem.dword (frNext (sList 0 0)).2.mem 0x8000 = 0 := by decide +kernel
    exact ⟨_, _, h.1, nextIs_of h.2.1 h.2.2⟩
  · obtain ⟨h1, h2, h3, h4, h5, h6, -, h8, -⟩ := listB_pass
    obtain ⟨k, sp, hp⟩ := pass_of h5
    exact ⟨_, _, _, k, sp, _, h1, nextIs_of h2 h3, rec_of h4, h8, chk_of hp, h6⟩
  · obtain ⟨h1, h2, h3, h4, h5, -, h7, h8, h9⟩ := listB_fail
    exact ⟨_, _, _, _, h1, nextIs_of h2 h3, rec_of h4, h8, chk_of (reason_of h5), h7, plain_of h9⟩
  · have go : ∀ val : DWord, ((sCond val).launch? 1).any (fun l => decide (l.id = 1 ∧ l.finished = false ∧ l.ready = none ∧ l.conds = [⟨0x4000, val, false, .none⟩] ∧
        okFr ((sCond val).frTr l.die l.launchId l.priv false 0x4000 8).1 = some 0x4000 ∧
        (val.toNat ≤ (Mem.dword ((sCond val).frTr l.die l.launchId l.priv false 0x4000 8).2.mem 0x4000).toNat ↔ val = 0))) = true →
      ∃ (s u : State) (l : Launch), s.launch? l.id = some l ∧ l.finished = false ∧ l.ready = none ∧ l.conds = [⟨0x4000, val, false, .none⟩] ∧
        s.frTr l.die l.launchId l.priv false 0x4000 8 = (.ok 0x4000, u) ∧ (val.toNat ≤ (Mem.dword u.mem 0x4000).toNat ↔ val = 0) := by
      intro val h
      obtain ⟨l, hl, h1, h2, h3, h4, h5, h6⟩ := found h
      exact ⟨sCond val, _, l, by rw [h1]; exact hl, h2, h3, h4, Prod.ext (okFr_of h5) rfl, h6⟩
    intro val hv
    simp only [List.mem_cons, List.not_mem_nil, or_false] at hv
    rcases hv with rfl | rfl
    · exact go 0 (by decide +kernel)
    · exact go 1 (by decide +kernel)
  · have go : ∀ s : State, (s.launch? 1).any (fun l => decide (l.id = 1 ∧ l.finished = false ∧ l.running = true ∧ l.todo = [] ∧ l.live = [] ∧
        plainB s l ∧
        (raised l l.undone ((s.recByte l 46 0x03).modLaunch l.id fun x => { x with finished := true })).isSome = true)) = true →
      ∃ (l : Launch) (m : Mem), s.launch? l.id = some l ∧ l.finished = false ∧ l.running = true ∧ l.todo = [] ∧ l.live = [] ∧
        Claims.recordPlain s l ∧ Claims.Raises l l.undone ((s.recByte l 46 0x03).modLaunch l.id fun x => { x with finished := true }) m := by
      intro s h
      obtain ⟨l, hl, h1, h2, h3, h4, h5, h6, h7⟩ := found h
      obtain ⟨m, hm⟩ := Option.isSome_iff_exists.mp h7
      exact ⟨l, m, by rw [h1]; exact hl, h2, h3, h4, h5, plain_of h6, raises_of hm⟩
    intro s hs
    simp only [List.mem_cons, List.not_mem_nil, or_false] at hs
    rcases hs with rfl | rfl
    · exact go _ (by decide +kernel)
    · exact go _ (by decide +kernel)

/-- A launch that is ready with one team to dispatch, on a package whose teams have ended. -/
def sDisp : State :=
  { sV with teams := [], groups := [], focus := none,
            launches := sV.launches.map fun (l : Launch) => { l with ready := some 0, running := false, todo := [0], live := [], gx := 1, gy := 1, gz := 1 } }
/-- The same with a scratchpad larger than any core's, and with a loaded context of the launch that waits. -/
def sFull : State := { sDisp with launches := sDisp.launches.map fun (l : Launch) => { l with hdr := { l.hdr with spad := 0x1000000 } } }
def aWaiter : Saved := { anArea 0x8000 false 0 with launch := loadLaunch 1 .vector, queued := true, waiting := true }
def sWaits : State := { sV with saved := [aWaiter] }
/-- A request in hand for team 2. -/
def sPre (p : PrePath) (area : DWord) (bytes : Word) : State :=
  { (modX sV fun x => { x with clause := none, begun := false }) with
    cd0 := { sV.cd0 with preempt := { sV.cd0.preempt with busy := true, req := some ⟨2, p, 0⟩, area := area, bytes := bytes } } }
theorem witness_DispatchAndPreemption :
    (∃ (s : State) (l : Launch) (cores : List Nat), (s.die .cd0).coresHeld = false ∧ (s.die .cd0).isReady = true ∧ s.candidates .cd0 = [.launch l] ∧
      s.launch? l.id = some l ∧ (s.restIslands .cd0).pickPlaces .cd0 l.hdr (l.nextTeams.map l.memberOf) = some cores ∧ l.running = false ∧ Claims.recordPlain s l) ∧
    (∃ (s : State) (l : Launch), (s.die .cd0).coresHeld = false ∧ (s.die .cd0).isReady = true ∧ s.candidates .cd0 = [.launch l] ∧
      s.launch? l.id = some l ∧ (s.restIslands .cd0).pickPlaces .cd0 l.hdr (l.nextTeams.map l.memberOf) = none ∧ l.expired = false) ∧
    (∃ (s : State) (l : Launch) (v : Saved), s.launch? l.id = some l ∧ v ∈ s.saved ∧ v.queued = true ∧ v.waiting = true ∧ v.launch.id = l.id) ∧
    (∃ (s : State) (x : Island), s.islandBusy .cd0 0 = true ∧ (s.die .cd0).power.islands[0]? = some x) ∧
    (∃ (s : State) (r : PreReq) (u : Team) (l : Launch), s.preRequest .cd0 = some (r, u, l) ∧ r.path = .drain ∧ r.deadline ≤ s.timeNs.toNat) ∧
    (∃ (s : State) (r : PreReq) (u : Team) (l : Launch), s.preRequest .cd0 = some (r, u, l) ∧ r.path = .discard ∧ s.stopped (s.setOf u) = true ∧ u.sideEffect = false) ∧
    (∃ (s : State) (r : PreReq) (u : Team) (l : Launch), s.preRequest .cd0 = some (r, u, l) ∧ r.path = .save ∧ s.stopped (s.setOf u) = true ∧
      s.saveReady .cd0 u = false) ∧
    (∃ (s v : State) (r : PreReq) (u : Team) (l : Launch) (m : List (Nat × Nat)), s.preRequest .cd0 = some (r, u, l) ∧ r.path = .save ∧
      s.stopped (s.setOf u) = true ∧ s.saveReady .cd0 u = true ∧
      (s.modPre .cd0 fun p => { p with area := 0 }).mapSpan .cd0 none ⟨true, false, true⟩ (s.die .cd0).preempt.area (s.saveBytes u) = (.inr m, v)) := by
  refine ⟨?_, ?_, let ⟨l, hl⟩ := found (o := sWaits.launch? 1) (P := fun l => l.id = 1) (by decide +kernel);
      ⟨sWaits, l, aWaiter, by rw [hl.2]; exact hl.1, by simp [sWaits], rfl, rfl, by rw [hl.2]; rfl⟩, let ⟨x, h⟩ := found (o := (sV.die .cd0).power.islands[0]?) (P := fun _ => sV.islandBusy .cd0 0 = true) (by decide +kernel); ⟨sV, x, h.2, h.1⟩,
    ?_, ?_, ?_, ?_⟩
  · obtain ⟨l, hl, h1, h2, h3, h4, h5, h6, h7⟩ := found (o := sDisp.launch? 1) (P := fun l : Launch => l.id = 1 ∧ (sDisp.die .cd0).coresHeld = false ∧ (sDisp.die .cd0).isReady = true ∧
      (sDisp.launches = [l] ∧ l.die = .cd0 ∧ l.ready.isSome = true ∧ l.finished = false ∧ l.todo.isEmpty = false) ∧
      (sDisp.restIslands .cd0).pickPlaces .cd0 l.hdr (l.nextTeams.map l.memberOf) = some [0] ∧ l.running = false ∧ plainB sDisp l) (by decide +kernel)
    refine ⟨sDisp, l, [0], h2, h3, ?_, by rw [h1]; exact hl, h5, h6, plain_of h7⟩
    have hs : sDisp.saved = [] := by decide +kernel
    simp [State.candidates, h4.1, h4.2.1, h4.2.2.1, h4.2.2.2.1, h4.2.2.2.2, hs, insCand]
  · obtain ⟨l, hl, h1, h2, h3, h4, h5, h6⟩ := found (o := sFull.launch? 1) (P := fun l : Launch => l.id = 1 ∧ (sFull.die .cd0).coresHeld = false ∧ (sFull.die .cd0).isReady = true ∧
      (sFull.launches = [l] ∧ l.die = .cd0 ∧ l.ready.isSome = true ∧ l.finished = false ∧ l.todo.isEmpty = false) ∧
      (sFull.restIslands .cd0).pickPlaces .cd0 l.hdr (l.nextTeams.map l.memberOf) = none ∧ l.expired = false) (by decide +kernel)
    refine ⟨sFull, l, h2, h3, ?_, by rw [h1]; exact hl, h5, h6⟩
    have hs : sFull.saved = [] := by decide +kernel
    simp [State.candidates, h4.1, h4.2.1, h4.2.2.1, h4.2.2.2.1, h4.2.2.2.2, hs, insCand]
  · obtain ⟨⟨r, u, l⟩, hx, h⟩ := found (o := (sPre .drain 0 0).preRequest .cd0) (P := fun x : PreReq × Team × Launch => x.1.path = .drain ∧ x.1.deadline ≤ (sPre .drain 0 0).timeNs.toNat)
      (by decide +kernel)
    exact ⟨_, r, u, l, hx, h⟩
  · obtain ⟨⟨r, u, l⟩, hx, h⟩ := found (o := (sPre .discard 0 0).preRequest .cd0) (P := fun x : PreReq × Team × Launch => x.1.path = .discard ∧
      (sPre .discard 0 0).stopped ((sPre .discard 0 0).setOf x.2.1) = true ∧ x.2.1.sideEffect = false) (by decide +kernel)
    exact ⟨_, r, u, l, hx, h⟩
  · obtain ⟨⟨r, u, l⟩, hx, h⟩ := found (o := (sPre .save 0 0).preRequest .cd0) (P := fun x : PreReq × Team × Launch => x.1.path = .save ∧
      (sPre .save 0 0).stopped ((sPre .save 0 0).setOf x.2.1) = true ∧ (sPre .save 0 0).saveReady .cd0 x.2.1 = false) (by decide +kernel)
    exact ⟨_, r, u, l, hx, h⟩
  · obtain ⟨⟨r, u, l⟩, hx, h1, h2, h3, h4⟩ := found (o := (sPre .save 0x8000 0x100000).preRequest .cd0) (P := fun x : PreReq × Team × Launch => x.1.path = .save ∧
      (sPre .save 0x8000 0x100000).stopped ((sPre .save 0x8000 0x100000).setOf x.2.1) = true ∧ (sPre .save 0x8000 0x100000).saveReady .cd0 x.2.1 = true ∧
      (mapV (((sPre .save 0x8000 0x100000).modPre .cd0 fun p => { p with area := 0 }).mapSpan .cd0 none ⟨true, false, true⟩ ((sPre .save 0x8000 0x100000).die .cd0).preempt.area
        ((sPre .save 0x8000 0x100000).saveBytes x.2.1)).1).isSome = true) (by decide +kernel)
    obtain ⟨m, hm⟩ := Option.isSome_iff_exists.mp h4
    exact ⟨_, _, r, u, l, m, hx, h1, h2, h3, Prod.ext (mapV_of hm) rfl⟩

/-! ## Witnesses: the package, outside accesses, steps -/

def sTel : State := { State.reset with cd0 := { State.reset.cd0 with ctl := { State.reset.cd0.ctl with telemetry := 0x5001 } } }
theorem witness_PackagePowerAndErrors :
    (∃ (s : State) (x : Island), LinkId.cdCd ∉ s.linksDown ∧ MemCanonical s ∧ Claims.powerIdle (s.die .cd0) ∧ (s.die .cd0).power.islands[3]? = some x ∧ (s.die .cd0).ctl.telemetry.getLsbD 0 = false ∧
      (s.die .cd0).power.ce[7]? = some 0) ∧
    (∃ s : State, (s.die .cd0).ctl.telemetry.getLsbD 0 = true ∧ ownerOf (((s.die .cd0).ctl.telemetry.extractLsb' 12 40).toNat * 4096) ≠ .unassigned ∧ MemCanonical s ∧
      (s.die .cd0).power.ce.length = 8 ∧ (s.die .cd0).power.islands.length = 4) ∧
    (∃ s : State, MemCanonical s ∧ (s.die .cd0).power.active = some (.steps true 3) ∧ (s.die .cd0).power.reqs = []) :=
  ⟨⟨State.reset, ⟨false, 1600, 1600, 0⟩, by decide +kernel, by show Mem.wf State.reset.mem = true; decide +kernel, ⟨by decide +kernel, by decide +kernel⟩, by decide +kernel⟩, ⟨sTel, by decide +kernel, by decide +kernel, by show Mem.wf sTel.mem = true; decide +kernel, by decide +kernel, by decide +kernel⟩,
   ⟨sFrq (.steps true 3), by show Mem.wf (sFrq (.steps true 3)).mem = true; decide +kernel, rfl, rfl⟩⟩

/-- A die whose root names a 1 GiB page with ENCRYPT. -/
def sEnc : State := { sV with mem := Mem.writeN sV.mem 0x100000 (leBytes 8 0xE03) }
/-- Frames used under keys, with slot 0 filled. -/
def sKey (ps : List KeyPage) : State := { sV with cd0 := { sV.cd0 with keySlots := [0], keyPages := ps } }
theorem key_wf (ps : List KeyPage) : MemCanonical (sKey ps) := by show Mem.wf sV.mem = true; decide +kernel
abbrev homeB (s : State) (pa n : Nat) : Prop :=
  (0 < n ∧ s.inHbm pa n = true ∧ s.poisoned pa n = false ∧ (linesOf pa n).any s.engineLines.contains = false) ∧
  ∀ p ∈ s.cd0.keyPages ++ s.cd1.keyPages, p.key = none ∨ pa + n ≤ p.base ∨ p.base + 65536 ≤ pa
theorem home_of {s : State} {pa n : Nat} (h : homeB s pa n) : Claims.homeReady s pa n :=
  let ⟨⟨h1, h2, h3, h4⟩, h5⟩ := h
  ⟨h1, h2, h3, h4, fun d p hp => h5 p (by cases d <;> simp [State.die] at hp <;> simp [hp])⟩
theorem witness_OutsideAccesses :
    (∃ s : State, MemCanonical s ∧ Claims.homeReady s 0x4000 8 ∧ Claims.homeReady s 0x4000 4 ∧ s.encrypted 0x4000 8 = false ∧ ownerOf 0x4000 = .hbm .cd0) ∧
    (∃ s : State, MemCanonical s ∧ Claims.homeReady s 0x4000 8 ∧ s.encrypted 0x4000 8 = true ∧ ownerOf 0x4000 = .hbm .cd0) ∧
    (∀ key ∈ [some 0, none], ∃ s : State, MemCanonical s ∧ 0 ∈ (s.die .cd0).keySlots ∧ (s.die .cd0).keyPages = [⟨0, key, [], []⟩]) ∧
    (∀ k ∈ [some 1, none], ∃ (s : State) (p : KeyPage), MemCanonical s ∧ ownerOf 0x4000 = .hbm .cd0 ∧
      (s.die .cd0).keyPages.find? (fun x => x.frame == 0x4000 / 65536) = some p ∧ p.key = some 0 ∧ p.key ≠ k ∧
      ((∃ o ∈ p.others, o.1 = k) ↔ k = some 1)) ∧
    (ownerOf 0x8000000000000 = .host ∧ ownerOf (0x8000000000000 + 4 - 1) = .host) ∧
    (∃ s : State, MemCanonical s ∧ Claims.homeReady s 0x8000000000 8 ∧ ownerOf 0x8000000000 = .hbm .cd1) := by
  refine ⟨⟨sKey [⟨1, some 0, [], []⟩], key_wf _, home_of (by decide +kernel), home_of (by decide +kernel), by decide +kernel, by decide⟩,
    ⟨sEnc, by show Mem.wf sEnc.mem = true; decide +kernel, home_of (by decide +kernel), by decide +kernel, by decide⟩,
    fun key _ => ⟨sKey [⟨0, key, [], []⟩], key_wf _, by simp [sKey, State.die], rfl⟩, fun k hk =>
    ⟨sKey [⟨0, some 0, [], [(some 1, [])]⟩], _, key_wf _, by decide, rfl, rfl, ?_⟩, by decide,
    ⟨State.reset, by show Mem.wf State.reset.mem = true; decide +kernel, home_of (by decide +kernel), by decide⟩⟩
  fin_cases hk <;> decide

/-- The state that a step acts in. -/
def acts (s : State) : State := { s.passTime with agenda := s.agenda.tail }
def goesB (c : Cx) : Bool := c.gg.begun && c.gg.park.isNone && c.powered && (match c.g.handler with | some h => !h.double | none => true)
/-- Where the words of the clause decode: to an instruction, or to reserved words. -/
def decB (c : Cx) (cl : Clause) : Option (Option Instr) :=
  match decode (cl.words.drop ((c.gg.pc - cl.addr).toNat / 4 - 1)) with | .ok i _ => some (some i) | .bad .field => some none | .bad _ => none
/-- A gang at a `cache.op` whose TAG has no row, of a fault split or not. -/
def sBad (split : Option Nat) : State :=
  modX sV fun x => { x with split := split, clause := x.clause.map fun (c : Clause) => { c with words := encode (.cacheOpIfetch { ml 0 2 0 0 0 with tag := 3 }) } }
theorem dec_of {c : Cx} {cl : Clause} {i : Instr} (h : decB c cl = some (some i)) : ∃ n, decode (cl.words.drop ((c.gg.pc - cl.addr).toNat / 4 - 1)) = .ok i n := by
  unfold decB at h
  split at h <;> simp at h
  rename_i j n e
  exact ⟨n, by rw [e, h]⟩
theorem bad_of {c : Cx} {cl : Clause} (h : decB c cl = some none) : decode (cl.words.drop ((c.gg.pc - cl.addr).toNat / 4 - 1)) = .bad .field := by
  unfold decB at h
  split at h <;> simp at h
  assumption
abbrev stepB (s : State) (c : Cx) (i : Option Instr) : Prop := s.agenda = [] ∧ goesB c = true ∧ c.gg.clause.any (fun cl => decB c cl == some i) = true
theorem goes_of {c : Cx} (h : goesB c = true) : c.gg.begun = true ∧ c.gg.park = none ∧ c.powered = true ∧ ∀ x, c.g.handler = some x → x.double = false := by
  simp only [goesB, Bool.and_eq_true, Option.isNone_iff_eq_none] at h
  obtain ⟨⟨⟨h1, h2⟩, h3⟩, h4⟩ := h
  exact ⟨h1, h2, h3, fun x hx => by rw [hx] at h4; simpa using h4⟩
/-- A gang of a fault split before an instruction that is lane-confined, and before one that is not. -/
def sSplit (i : Instr) : State := modX (put i) fun x => { x with split := some 1 }
theorem witness_StepRunsDecodedWord :
    (∀ e ∈ [(sV, Instr.nop (sr 0 0 0 0), true), (sSplit (.vAdd (va 1 2 3)), .vAdd (va 1 2 3), true), (sSplit (.nop (sr 0 0 0 0)), .nop (sr 0 0 0 0), false)],
      ∃ (c : Cx) (cl : Clause) (n : Nat), e.1.agenda = [] ∧ (acts e.1).cx? = some c ∧ c.gg.clause = some cl ∧ (c.gg.begun = true ∧ c.gg.park = none ∧ c.powered = true ∧
        ∀ x, c.g.handler = some x → x.double = false) ∧ decode (cl.words.drop ((c.gg.pc - cl.addr).toNat / 4 - 1)) = .ok e.2.1 n ∧
        ((c.gg.split = none ∨ instrConfined e.2.1 = true) ↔ e.2.2 = true)) ∧
    (∀ e ∈ [none, some 1], ∃ (s : State) (c : Cx) (cl : Clause), s.agenda = [] ∧ (acts s).cx? = some c ∧ c.gg.clause = some cl ∧ (c.gg.begun = true ∧ c.gg.park = none ∧ c.powered = true ∧
        ∀ x, c.g.handler = some x → x.double = false) ∧ decode (cl.words.drop ((c.gg.pc - cl.addr).toNat / 4 - 1)) = .bad .field ∧
        (c.gg.split = e ∧ wordConfined (cl.words.drop ((c.gg.pc - cl.addr).toNat / 4 - 1)) = false)) ∧
    (∃ (s : State), s.agenda = [some (.lockGrant .cd0)] ∧ isWord (.lockGrant .cd0) = false) := by
  have go : ∀ (s : State) (i : Instr) (b : Bool), (acts s).cx?.any (fun c => decide (stepB s c (some i) ∧ ((c.gg.split = none ∨ instrConfined i = true) ↔ b = true))) = true →
      ∃ (c : Cx) (cl : Clause) (n : Nat), s.agenda = [] ∧ (acts s).cx? = some c ∧ c.gg.clause = some cl ∧ (c.gg.begun = true ∧ c.gg.park = none ∧ c.powered = true ∧
        ∀ x, c.g.handler = some x → x.double = false) ∧ decode (cl.words.drop ((c.gg.pc - cl.addr).toNat / 4 - 1)) = .ok i n ∧
        ((c.gg.split = none ∨ instrConfined i = true) ↔ b = true) := by
    intro s i b h
    obtain ⟨c, hc, ⟨h1, h2, h3⟩, h4⟩ := found h
    obtain ⟨cl, hcl, h5⟩ := (Option.any_eq_true _ _).mp h3
    obtain ⟨n, hn⟩ := dec_of (by simpa using h5)
    exact ⟨c, cl, n, h1, hc, hcl, goes_of h2, hn, h4⟩
  refine ⟨?_, ?_, ⟨{ sV with agenda := [some (.lockGrant .cd0)] }, rfl, by decide⟩⟩
  · intro e he
    simp only [List.mem_cons, List.not_mem_nil, or_false] at he
    rcases he with rfl | rfl | rfl
    · exact go _ _ _ (by decide +kernel)
    · exact go _ _ _ (by decide +kernel)
    · exact go _ _ _ (by decide +kernel)
  · have bad : ∀ e : Option Nat, (acts (sBad e)).cx?.any (fun c => decide (stepB (sBad e) c none ∧ c.gg.split = e ∧
        c.gg.clause.all (fun cl => !wordConfined (cl.words.drop ((c.gg.pc - cl.addr).toNat / 4 - 1))) = true)) = true →
      ∃ (s : State) (c : Cx) (cl : Clause), s.agenda = [] ∧ (acts s).cx? = some c ∧ c.gg.clause = some cl ∧ (c.gg.begun = true ∧ c.gg.park = none ∧ c.powered = true ∧
        ∀ x, c.g.handler = some x → x.double = false) ∧ decode (cl.words.drop ((c.gg.pc - cl.addr).toNat / 4 - 1)) = .bad .field ∧
        (c.gg.split = e ∧ wordConfined (cl.words.drop ((c.gg.pc - cl.addr).toNat / 4 - 1)) = false) := by
      intro e h
      obtain ⟨c, hc, ⟨h1, h2, h3⟩, h4, h6⟩ := found h
      obtain ⟨cl, hcl, h5⟩ := (Option.any_eq_true _ _).mp h3
      rw [hcl] at h6
      exact ⟨_, c, cl, h1, hc, hcl, goes_of h2, bad_of (by simpa using h5), h4, by simpa using h6⟩
    intro e he
    simp only [List.mem_cons, List.not_mem_nil, or_false] at he
    rcases he with rfl | rfl
    · exact bad none (by decide +kernel)
    · exact bad (some 1) (by decide +kernel)

theorem witness_DecodeEncodeRoundTrip : isWord (.sAdd (sr 63 63 63 0)) = true ∧ wellFormed (.sAdd (sr 63 63 63 0)) = true := by decide
def goesOn (s : State) : Bool := match step s with | .next _ => true | _ => false
theorem next_of {s : State} (h : goesOn s = true) : step s = .next (after s) := by
  unfold goesOn at h
  unfold after
  split at h <;> simp_all
theorem witness_MemCanonicalKept : ∃ s t : State, MemCanonical s ∧ step s = .next t :=
  ⟨sV, after sV, by show Mem.wf sV.mem = true; decide +kernel, next_of (by decide +kernel)⟩

/-! ## One step -/

/-- One step of an instruction placed after reset, on the state prepared by f. -/
def one (i : Instr) (f : State → State) : State := after (f (put i))
def setFmt (w : Word) (s : State) : State := modX s fun x => { x with fmt := w }
/-- What the one outstanding result writes. -/
def due (s : State) : List (Tgt × DWord) := (grp s).pend.flatMap (·.writes)
def causeOf (s : State) : Nat := ((grp s).trap.cause.extractLsb' 0 8).toNat
def lanesOf (s : State) (r : Nat) : List Word := (List.range 8).map fun l => vr s l r
def immS (d a v : Nat) : SForm := ⟨BitVec.ofNat 6 d, BitVec.ofNat 6 a, .imm10 (BitVec.ofNat 10 v)⟩

/-- Every legal form runs as the first instruction after reset (log 6). -/
theorem test_scalar_goes_on : ∀ i ∈ legalScalar, goesOn (put i) = true := by decide +kernel
theorem test_vector_goes_on : ∀ i ∈ legalVector, goesOn (put i) = true := by decide +kernel
theorem test_float_goes_on : ∀ i ∈ legalFloat, goesOn (put i) = true := by decide +kernel
theorem test_memory_goes_on : ∀ i ∈ legalMemory, goesOn (setEm (put i) 1) = true := by decide +kernel
theorem test_copy_goes_on : ∀ i ∈ legalX, goesOn (put i) = true := by decide +kernel
theorem test_control_goes_on : ∀ i ∈ legalControl, goesOn (put i) = true := by decide +kernel

/-- R128: sums wrap; R129's example: 7 by 0, and -7 by 2. -/
theorem test_sAdd_wraps : sreg (one (.sAdd (sr 5 3 4 0)) fun s => setS (setS s 3 0xFFFFFFFFFFFFFFFF) 4 2) 5 = 1 := by decide +kernel
theorem test_sDivu_by_zero : sreg (one (.sDivu (sr 5 3 4 0)) fun s => setS s 3 7) 5 = 0xFFFFFFFFFFFFFFFF := by decide +kernel
theorem test_sRemu_by_zero : sreg (one (.sRemu (sr 5 3 4 0)) fun s => setS s 3 7) 5 = 7 := by decide +kernel
theorem test_sRems_truncates : sreg (one (.sRems (sr 5 3 4 0)) fun s => setS (setS s 3 0xFFFFFFFFFFFFFFF9) 4 2) 5 = 0xFFFFFFFFFFFFFFFF := by decide +kernel
theorem test_sSub_source_is_target : sreg (one (.sSub (sr 3 3 3 0)) fun s => setS s 3 9) 3 = 0 := by decide +kernel
theorem test_sMulhs_sign : sreg (one (.sMulhs (sr 5 3 4 0)) fun s => setS (setS s 3 0xFFFFFFFFFFFFFFFF) 4 2) 5 = 0xFFFFFFFFFFFFFFFF := by decide +kernel
theorem test_sSar_keeps_sign : sreg (one (.sSar (immS 5 3 4)) fun s => setS s 3 0x8000000000000000) 5 = 0xF800000000000000 := by decide +kernel
theorem test_sBfx_signed : sreg (one (.sBfx (sr 5 3 4 1)) fun s => setS (setS s 3 0xF0) 4 0x104) 5 = 0xFFFFFFFFFFFFFFFF := by decide +kernel
theorem test_s63_discards : sreg (one (.sAdd (sr 63 3 4 0)) fun s => setS s 3 9) 63 = 0 ∧ pcOf (one (.sAdd (sr 63 3 4 0)) fun s => setS s 3 9) = 0x10008 := by
  decide +kernel
/-- R133's example. -/
theorem test_sSetfmt_example : (match (grp (one (.sSetfmt ⟨0, 3, .imm32 0 0 0x200⟩) fun s => setFmt 0x7F008815 (setS s 3 0xE00))).gangs with | x :: _ => x.fmt | [] => 0) = 0x7F008215 := by
  decide +kernel

/-- `v.iota`: a + b times the lane. -/
theorem test_vIota_records : lanesOf (one (.vIota (va 0 2 3)) fun s => setV (setV s 2 fun _ => 100) 3 fun _ => 16) 0 = [100, 116, 132, 148, 164, 180, 196, 212] := by
  decide +kernel
/-- Inactive lanes keep their values. -/
theorem test_vAdd_masked : lanesOf (one (.vAdd (va 1 2 3)) fun s => setEm (setV (setV s 2 fun _ => 0xFFFFFFFF) 3 fun l => BitVec.ofNat 32 l) 0x0F) 1 =
    [0xFFFFFFFF, 0, 1, 2, 0, 0, 0, 0] := by decide +kernel
/-- `v.shflx` reads across the lanes of its group. -/
theorem test_vShflx_four : lanesOf (one (.vShflx (va 1 2 3)) fun s => setV (setV s 2 fun l => BitVec.ofNat 32 l) 3 fun _ => 4) 1 = [4, 5, 6, 7, 0, 1, 2, 3] := by
  decide +kernel
/-- `v.icmp.lt.i32 s9`: the bits of the lanes that hold. -/
theorem test_vIcmp_mask : sreg (one (.vIcmp (ve 123 2 3 123 4 9 2)) fun s => setV (setV s 2 fun l => BitVec.ofNat 32 l - 3) 3 fun _ => 0) 9 = 7 := by decide +kernel
/-- R111's example: (1 + 2^-23)² under RNE. -/
theorem test_vFmul_example : vr (one (.vFmul (ve 3 1 2 123 0 0 0)) fun s => setV (setV s 1 fun _ => 0x3F800001) 2 fun _ => 0x3F800001) 0 3 = 0x3F800002 := by
  decide +kernel
theorem test_vFadd_signed_zero : vr (one (.vFadd (ve 3 1 2 123 0 0 0)) fun s => setV (setV s 1 fun _ => 0x80000000) 2 fun _ => 0x80000000) 0 3 = 0x80000000 := by decide +kernel
theorem test_vFdiv_by_zero : vr (one (.vFdiv (ve 3 1 2 123 0 0 0)) fun s => setV s 1 fun _ => 0xBF800000) 0 3 = 0xFF800000 := by decide +kernel
theorem test_vFsqrt_four : vr (one (.vFsqrt (ve 3 1 123 123 0 0 0)) fun s => setV s 1 fun _ => 0x40800000) 0 3 = 0x40000000 := by decide +kernel
theorem test_vFfma_one_rounding : vr (one (.vFfma (ve 3 1 2 4 0 0 0)) fun s => setV (setV (setV s 1 fun _ => 0x3F800001) 2 fun _ => 0x3F800001) 4 fun _ => 0xBF800002) 0 3 =
    0x28800000 := by decide +kernel
/-- R191's example: the tree of four lanes of eight. -/
def fredVals (l : Nat) : Word := [0x3F800000, 0x33800000, 0x33800000, 0xBF800000].getD l 0
theorem test_vFred_example : (lanesOf (one (.vFred (ve 6 1 123 123 0 0 0)) fun s => setEm (setV s 1 fredVals) 0x0F) 6).take 4 =
    [0x33800000, 0x33800000, 0x33800000, 0x33800000] := by decide +kernel
/-- R192's example: the first draw of lane 0 of team 0. -/
theorem test_vRndu_example : vr (one (.vRndu (va 4 123 123)) id) 0 4 = 0x3ECC4FD1 ∧ ((grp (one (.vRndu (va 4 123 123)) id)).lane 0).draw = 1 := by decide +kernel

/-- Stores: little endian, at S[SB] and the offset of the lane. -/
theorem test_sSt_bytes : Mem.readN (one (.sSt (ml 3 2 8 0 2)) fun s => setS (setS s 2 0x4000) 3 0x11223344).mem 0x4007 6 = [0, 0x44, 0x33, 0x22, 0x11, 0] := by decide +kernel
theorem test_vSt_lanes : Mem.readN (one (.vSt (mo (ml 8 2 0 0 0))) fun s => setV (setV (setS s 2 0x4000) 2 fun l => BitVec.ofNat 32 (2 * l)) 8 fun l => BitVec.ofNat 32 (l + 1)).mem 0x4000 4 =
    [1, 0, 2, 0] := by decide +kernel
theorem test_sLd_result : (due (one (.sLd (mt 3 2 0 2)) fun s => setS s 2 0x10000)).map (·.2) = [(Mem.dword (put (.sLd (mt 3 2 0 2))).mem 0x10000).extractLsb' 0 32 |>.zeroExtend 64] := by
  decide +kernel
/-- R210: one lane adds 1 to a word that holds 0. -/
theorem test_vRed_adds : Mem.word (one (.vRed (mo (ml 3 2 0 0 2))) fun s => setEm (setV (setS s 2 0x4000) 3 fun _ => 1) 0x80).mem 0x4000 = 1 := by decide +kernel
theorem test_vSt_misaligned_traps : causeOf (one (.vSt (ml 8 2 1 0 2)) fun s =>
    { setS s 2 0x4000 with cd0 := { s.cd0 with ctl := { s.cd0.ctl with trapVector := 0x20000 } } }) = 0x07 := by decide +kernel

/-- R27: the first check that FMT fails decides the trap. -/
theorem test_fmt_traps : ∀ e ∈ badFmts, causeOf (ran (.sWrsr ⟨0, 4, .imm10 0⟩) (vec0 (sFmt (e.1.zeroExtend 64)))) = e.2.code := by decide +kernel
/-- The trap vector at 0x20000. -/
def vec (s : State) : State := { s with cd0 := { s.cd0 with ctl := { s.cd0.ctl with trapVector := 0x20000 } } }
/-- R151, R340: `trap #3` saves its cause and the word after it, and goes to the vector; R344: in a handler it holds the group. -/
theorem test_trap_entry : (grp (one (.trap 3 0) vec)).trap.cause.extractLsb' 0 16 = 0x0310#16 ∧ (grp (one (.trap 3 0) vec)).trap.resume = 0x10008 ∧
    pcOf (one (.trap 3 0) vec) = 0x20000 := by decide +kernel
theorem test_double_trap : ((grp (one (.trap 3 0) fun s => modG (vec s) fun g => { g with handler := some ⟨[0, 1], 0x10000, none, false⟩ })).handler.map (·.double)) = some true := by
  decide +kernel
/-- R155: TRAP_VECTOR holds what is written, bits [1:0] apart; R150: `exit` ends the active lanes alone. -/
theorem test_sysWrcr_vector : (one (.sysWrcr 3 0x31 0) fun s => setS s 3 0x40003).cd0.ctl.trapVector = 0x40000 := by decide +kernel
theorem test_exit_active : (grp (one (.exit 0) fun s => setEm s 0x0F)).lanes.map (·.exited) = [true, true, true, true, false, false, false, false] := by decide +kernel
theorem test_bar_alone : pcOf (one (.bar 3 0 0 0) id) = 0x10008 := by decide +kernel
/-- R141: TOFF words from the next header, and a false condition. -/
theorem test_brc_falls : pcOf (one (.brc 4 1 8) id) = 0x10008 := by decide +kernel
/-- R261: the first batch has the number 1. -/
theorem test_cpClose_first : sreg (one (.cpClose ⟨3, 0, 0, 0, 6, 0⟩) id) 3 = 1 := by decide +kernel
/-- R211's example: the first take from 10,000 items. -/
def chunk (s : State) : State :=
  let s := setS s 3 0x40000000
  { s with cd0 := { s.cd0 with
      ctl := { s.cd0.ctl with grants := [0x8000000100000000, 0, 0, 0] }
      dspad := ⟨Mem.writeN [] 0 (leBytes 8 0 ++ leBytes 8 10000 ++ leBytes 4 64 ++ leBytes 4 4), []⟩ } }
theorem test_chunkTake_first : (due (one (.chunkTake (ml 10 3 0 0 0)) chunk)).map (·.2) = [0, 1250] := by decide +kernel

/-! ## The spec's worked examples -/

/-- R58: 0x3E99999A to E4M3 under SR; R60: 500.0 to E4M3 under RNE. -/
theorem test_sr_up : (Fmt.e4m3.roundTo .sr false 0x700000 (f32 0x3E99999A)).bits = 0x2A := by decide +kernel
theorem test_sr_down : (Fmt.e4m3.roundTo .sr false 0x100000 (f32 0x3E99999A)).bits = 0x29 := by decide +kernel
theorem test_e4m3_overflow : (Fmt.e4m3.roundTo .rne false 0 (f32 0x43FA0000)).bits = 0x7F ∧ (Fmt.e4m3.roundTo .rne true 0 (f32 0x43FA0000)).bits = 0x7E := by decide +kernel
/-- R188: `v.mxquant.cap1 v8, v2, #4.0, v9` on a group of 32 lanes with NFA = E2M1. -/
def sQ : State := match decode [0x67100BE8, 0x12000002, 0x40800000] with | .ok i _ => ran i (setFmt 5 (setV sW 2 quantVals)) | .bad _ => sW
theorem test_mxquant_codes : (List.range 5).map (fun l => vr sQ l 8) = [0x40000007, 0x000A0000, 0, 0, 0] := by decide +kernel
theorem test_mxquant_scale : (List.range 5).map (fun l => vr sQ l 9) = [0x0000097F, 0xC1400025, 0, 0, 0] := by decide +kernel
/-- R111: the variance of a product in independent mode; the tracked fragment's product, and its total variance. -/
def dist (fmt : Word) (v1 g0 g1 : Word) : State :=
  modG (setFmt fmt (setV sN 1 fun _ => v1)) fun g => { g with lanes := g.lanes.map fun (x : Lane) => { x with gloves := x.gloves.set 1 [g0, g1] } }
def glove (s : State) (r : Nat) : List Word := ((grp s).lane 0).gloves.getD r []
theorem test_vFmul_rounding_variance : glove (ran (.vFmul (ve 3 1 1 123 0 0 0)) (dist 0x1000 0x3F800001 0 0)) 3 = [0x26AAAAAB, 0] := by decide +kernel
theorem test_vFmul_independent : glove (ran (.vFmul (ve 2 1 1 123 0 0 0)) (dist 0x1000 0x40400000 0x3C800000 0)) 2 = [0x3E900000, 0] := by decide +kernel
theorem test_vFmul_tracked : glove (ran (.vFmul (ve 2 1 1 123 0 0 0)) (dist 0x2000 0x40400000 0 0x3E000000)) 2 = [0, 0x3F400000] := by decide +kernel
theorem test_vDvar_tracked : vr (ran (.vDvar (ve 4 1 123 123 0 0 0)) (dist 0x2000 0x40C00000 0 0x3F200000)) 0 4 = 0x3EC80000 := by decide +kernel
theorem test_vDchk_tracked : sreg (ran (.vDchk (ve 123 1 123 123 0 9 0)) (dist 0x79002000 0x40C00000 0 0x3F200000)) 9 = 0xFF := by decide +kernel
/-- R304: the header of `add_scalar`, and the same with too few scalar registers. -/
def addScalar (sregs : DWord) : List Byte :=
  ([0x0000012000014C59, 0x0000000000000003 + sregs <<< 24, 0, 0x0000020500000000, 0x190] : List DWord).flatMap (fun w => leBytes 8 w.toNat) ++ List.replicate 24 0
theorem test_header_fields : let k := parseHdr (addScalar 9); k.width = 32 ∧ k.counts = [1, 0, 0] ∧ k.vregs = [3, 0, 0] ∧ k.sregs = 9 ∧ k.preload = 0x205 ∧ k.hint = 400 := by decide +kernel
theorem test_header_reasons : headerReason .reset (recBytes 0) (addScalar 9) = none ∧ headerReason .reset (recBytes 0) (addScalar 7) = some 6 := by decide +kernel
/-- R317: the example's SaveBytes. R326: the example's leaf after a store. R333: the example's entry. -/
theorem test_saveBytes : Team.saveBytes ⟨1, 1, .cd0, 0, 0, 0, [], 0, 65536, ⟨[], []⟩, [], false, 0, 0⟩
    [{ grp sV with ident := { (grp sV).ident with width := 32, nr := 48, dw := 16, k := 2 } }] = 89088 := by decide +kernel
theorem test_leaf_touched : touched 0x003000123456020B true = 0x0030001234560E0B := by decide
def sPop : State :=
  ran (.sysFltpop 2 0) { sV with cd0 := { sV.cd0 with faults := [⟨0x42, 5, 0, 3, 0x000010000041, 8, 0, 0, false, false⟩] } }
theorem test_fault_entry : sreg sPop 2 = 0x0000100000410801 ∧ sreg sPop 3 = 0x0000004205000003 := by decide +kernel

end Sys2Proof.Tests
end

section
namespace Sys2Proof.Proofs.MachineState
open Sys2Proof Sys2Proof.Machine Sys2Proof.Claims Sys2Proof.Laws

/-! ## DrawWord (R20) -/

/-- Bits(counter, 31, 2). -/
theorem toNat_drawBlock (n : Word) : (n.extractLsb' 2 30).toNat = n.toNat / 4 := by
  have := n.isLt
  simp only [BitVec.extractLsb'_toNat, Nat.shiftRight_eq_div_pow]
  omega

/-- Bits(counter, 1, 0). -/
theorem toNat_drawIndex (n : Word) : (n.extractLsb' 0 2).toNat = n.toNat % 4 := by
  simp [BitVec.extractLsb'_toNat]

/-- A word of a lane's sequence: its block by bits [31:2] of its number, its place there by bits [1:0] (R20, R67). -/
theorem drawWordAt_eq (lo hi : Word) (idx lane team : Nat) (launch n : Word) : drawWordAt lo hi idx lane team launch n =
    let o := philox ((n.extractLsb' 2 30).toNat, idx * 32 + lane, team, launch.toNat) lo.toNat hi.toNat
    BitVec.ofNat 32 ([o.1, o.2.1, o.2.2.1, o.2.2.2].getD (n.extractLsb' 0 2).toNat 0) := by
  have hk : n.toNat % 4 < 4 := Nat.mod_lt _ (by decide)
  simp only [drawWordAt, toNat_drawBlock, toNat_drawIndex, wd]
  generalize philox _ _ _ = o
  match n.toNat % 4, hk with
  | 0, _ | 1, _ | 2, _ | 3, _ => rfl

/-- Settles O14: the word is read in the block that bits [31:2] of the counter number, and the lane's counter alone rises. -/
theorem drawCounterAdvances : Obligations.DrawCounterAdvances := by
  intro c g l hl
  refine ⟨?_, fun i hi => ?_, ?_⟩
  · simp [Cx.drawWord, lane_modLane, hl]
  · simp [Cx.drawWord, lane_modLane, hi]
  · exact drawWordAt_eq ..

/-! ## Checks of scalar instructions -/

/-- An instruction that touches its group alone, one of whose checks fails, traps. -/
theorem local1_trap {n : Nat} {s : State} {c : Cx} {f : Cx → Except Tq Machine.Group} {q : Tq} (h : s.cx? = some c)
    (hf : f c = .error q) : local1 n s f = c.trap q := by
  simp only [local1, issue, h, hf]

/-- An instruction goes on behind a check that holds, and traps at one that fails. -/
theorem local1_after {n : Nat} {s : State} {c : Cx} {chk : Cx → Except Tq Unit} {k : Cx → Except Tq Machine.Group}
    (h : s.cx? = some c) (hc : chk c = .ok ()) : local1 n s (fun c => do chk c; k c) = local1 n s k := by
  simp only [local1, issue, h, hc]
  rfl

theorem local1_at {n : Nat} {s : State} {c : Cx} {chk : Cx → Except Tq Unit} {k : Cx → Except Tq Machine.Group} {q : Tq}
    (h : s.cx? = some c) (hc : chk c = .error q) : local1 n s (fun c => do chk c; k c) = c.trap q := by
  simp only [local1, issue, h, hc]
  rfl

/-- Legal fields, nothing latched before them, and registers that may be named pass ranks 3 and 4. -/
theorem sCheck_ok {c : Cx} {ok : Bool} {regs : List Nat} (hok : ok = true) (hp : c.gg.pfx = [])
    (hr : ∀ r ∈ regs, c.sregOk r = true) : c.sCheck ok regs = .ok () := by
  have h : c.sregsOk regs = true := List.all_eq_true.mpr hr
  simp only [Cx.sCheck, hok, hp, h]
  rfl

/-- A reserved field traps before the registers are looked at. -/
theorem sCheck_bad {c : Cx} {ok : Bool} (regs : List Nat) (hok : ok = false) :
    c.sCheck ok regs = .error { code := .illegalOperand } := by
  simp only [Cx.sCheck, hok]
  rfl

/-! ## FMT (R27) -/

theorem dkCount_eq (v : Word) : dkCount (fmtDk v) = [0, 1, 2, 4].getD (v.extractLsb' 16 2).toNat 0 := by
  have h : (v.extractLsb' 16 2).toNat < 4 := (v.extractLsb' 16 2).isLt
  unfold fmtDk fld
  match (v.extractLsb' 16 2).toNat, h with
  | 0, _ | 1, _ | 2, _ | 3, _ => rfl

/-- DK is not zero. -/
theorem fmtDk_ne_zero (v : Word) : fmtDk v ≠ 0 ↔ v.extractLsb' 16 2 ≠ 0#2 := by
  rw [ne_eq, ne_eq, fmtDk, fld, ← BitVec.toNat_inj]
  rfl

/-- A value that R27 allows passes the checks. -/
theorem fmtCheck_of_legal {k : Nat} {v : Word} (h : fmtLegal k v) : fmtCheck k v = none := by
  obtain ⟨hnfa, hnfb, hrm, hdm, hrsv, hclash, hk⟩ := h
  rw [← dkCount_eq] at hk
  rw [← fmtDk_ne_zero] at hclash
  unfold fmtCheck
  rw [if_neg, if_neg, if_neg]
  · exact Nat.not_lt.mpr hk
  · exact hclash
  · rintro (h | h | h | h | h)
    · exact absurd hnfa (Nat.not_le.mpr h)
    · exact absurd hnfb (Nat.not_le.mpr h)
    · exact absurd hrm (Nat.not_le.mpr h)
    · exact hdm h
    · exact h hrsv

/-- A value that fails a check of R27 takes the trap of the first that it fails. -/
theorem fmtCheck_of_trap {k : Nat} {v : Word} {q : Trap} (h : fmtTrap k v q) : fmtCheck k v = some q := by
  simp only [fmtTrap, ← dkCount_eq, ← fmtDk_ne_zero] at h
  have e1 : (fmtNfa v > 8 ∨ fmtNfb v > 8 ∨ fmtRm v > 4 ∨ fmtDm v = 3 ∨ fld v 19 5 ≠ 0) ↔
      (8 < (v.extractLsb' 0 4).toNat ∨ 8 < (v.extractLsb' 4 4).toNat ∨ 4 < (v.extractLsb' 9 3).toNat ∨
        (v.extractLsb' 12 2).toNat = 3 ∨ v.extractLsb' 19 5 ≠ 0#5) := Iff.rfl
  have e2 : (fmtDm v = 2 ∧ (fmtIdl v = true ∨ fmtDk v ≠ 0)) ↔
      ((v.extractLsb' 12 2).toNat = 2 ∧ (v.getLsbD 18 = true ∨ fmtDk v ≠ 0)) := Iff.rfl
  rw [← e1, ← e2] at h
  unfold fmtCheck
  rcases h with ⟨h1, rfl⟩ | ⟨h1, h2, rfl⟩ | ⟨h1, h2, h3, rfl⟩
  · rw [if_pos h1]
  · rw [if_neg h1, if_pos h2]
  · rw [if_neg h1, if_neg h2, if_pos h3]

/-- FMT is written where the value is legal. -/
theorem putFmt_of_legal {c : Cx} {v : Word} (h : fmtLegal c.g.ident.k v) :
    c.putFmt v = .ok (c.g.modGang c.gg.id fun x => { x with fmt := v }) := by
  simp only [Cx.putFmt, fmtCheck_of_legal h]

theorem putFmt_of_trap {c : Cx} {v : Word} {q : Trap} (h : fmtTrap c.g.ident.k v q) :
    c.putFmt v = .error { code := q } := by
  simp only [Cx.putFmt, fmtCheck_of_trap h]

/-! ## Special registers written (R37, R38, R133) -/

/-- `nop` passes its word. -/
theorem exec_nop {s : State} {c : Cx} (h : s.cx? = some c) (hp : c.gg.pfx = []) :
    GroupDone s c 1 c.g (exec (.nop ⟨0, 0, .reg 0 0⟩) s) := by
  refine local1_next (f := fun c => do c.sCheck (fieldsOk (.nop ⟨0, 0, .reg 0 0⟩)) []; pure c.g) h ?_
  simp only [sCheck_ok (c := c) (regs := []) (show fieldsOk (.nop ⟨0, 0, .reg 0 0⟩) = true from rfl) hp (by simp)]
  rfl

/-- The moves into a special register, by selector. -/
def wrsrForm (sa : BitVec 6) (sel : BitVec 10) : SForm := ⟨0, sa, .imm10 sel⟩

/-- A write of FMT, FLAGS or DRAWBASE looks at the register only after its fields and its register number. -/
theorem exec_wrsr_fmt {s : State} {c : Cx} {sa : BitVec 6} (h : s.cx? = some c) (hp : c.gg.pfx = [])
    (ha : c.sregOk sa.toNat = true) : exec (.sWrsr (wrsrForm sa 0)) s =
      local1 1 s (fun c => do need (hi32 (c.g.readS sa.toNat) == 0) .illegalOperand; c.putFmt (lo32 (c.g.readS sa.toNat))) := by
  have hc := sCheck_ok (c := c) (regs := [sa.toNat]) (show fieldsOk (.sWrsr (wrsrForm sa 0)) = true from rfl) hp (by simpa using ha)
  show execSWrsr _ s = _
  unfold execSWrsr
  rw [local1_after h hc]
  rfl

theorem exec_wrsr_flags {s : State} {c : Cx} {sa : BitVec 6} (h : s.cx? = some c) (hp : c.gg.pfx = [])
    (ha : c.sregOk sa.toNat = true) : exec (.sWrsr (wrsrForm sa 1)) s =
      local1 1 s (fun c => do
        need (hi32 (c.g.readS sa.toNat) == 0) .illegalOperand
        need (fld (lo32 (c.g.readS sa.toNat)) 10 22 == 0) .illegalOperand
        pure { c.g with flags := lo32 (c.g.readS sa.toNat) }) := by
  have hc := sCheck_ok (c := c) (regs := [sa.toNat]) (show fieldsOk (.sWrsr (wrsrForm sa 1)) = true from rfl) hp (by simpa using ha)
  show execSWrsr _ s = _
  unfold execSWrsr
  rw [local1_after h hc]
  rfl

theorem exec_wrsr_drawbase {s : State} {c : Cx} {sa : BitVec 6} (h : s.cx? = some c) (hp : c.gg.pfx = [])
    (ha : c.sregOk sa.toNat = true) : exec (.drawbaseWrite (wrsrForm sa 0x12)) s =
      local1 1 s (fun c => do
        need (hi32 (c.g.readS sa.toNat) == 0) .illegalOperand
        pure (c.g.modLanes c.lanes fun x => { x with draw := lo32 (c.g.readS sa.toNat) })) := by
  have hc := sCheck_ok (c := c) (regs := [sa.toNat]) (show fieldsOk (.drawbaseWrite (wrsrForm sa 0x12)) = true from rfl) hp (by simpa using ha)
  show execDrawbaseWrite _ s = _
  unfold execDrawbaseWrite
  rw [local1_after h hc]
  rfl

/-! ## The second operand of format S (R127) -/

theorem operandB_eq (g : Machine.Group) (f : SForm) : operandB g f = f.op.value g := by
  obtain ⟨sd, sa, op⟩ := f
  cases op <;> rfl

theorem operandRegs_eq (f : SForm) : operandRegs f = f.op.regs := by
  obtain ⟨sd, sa, op⟩ := f
  cases op <;> rfl

theorem sPlain_of_plainFields {f : SForm} (h : plainFields f) : sPlain f = true := by
  obtain ⟨sd, sa, op⟩ := f
  cases op with
  | reg sb fn => simp [sPlain, SOp.rsvOk, SOp.func, show fn = 0 from h]
  | imm10 v => rfl
  | imm32 r fn w => obtain ⟨rfl, rfl⟩ := h; rfl
  | imm64 r fn lo hi => obtain ⟨rfl, rfl⟩ := h; rfl

/-- The words after the first are those that MODE calls for. -/
theorem length_encS (op : Nat) (f : SForm) : (encS op f).length = sLen f := by
  obtain ⟨sd, sa, o⟩ := f
  cases o <;> rfl

/-- The masked write of FMT. -/
theorem exec_sSetfmt {s : State} {c : Cx} {sa : BitVec 6} {op : SOp} (h : s.cx? = some c) (hp : c.gg.pfx = [])
    (hf : plainFields ⟨0, sa, op⟩) (ha : c.sregOk sa.toNat = true) (hb : ∀ r ∈ operandRegs ⟨0, sa, op⟩, c.sregOk r = true) :
    exec (.sSetfmt ⟨0, sa, op⟩) s = local1 (sLen ⟨0, sa, op⟩) s (fun c =>
      c.putFmt ((c.gg.fmt &&& ~~~(lo32 (c.g.readS sa.toNat))) |||
        (lo32 (operandB c.g ⟨0, sa, op⟩) &&& lo32 (c.g.readS sa.toNat)))) := by
  rw [operandRegs_eq] at hb
  have hok : fieldsOk (.sSetfmt ⟨0, sa, op⟩) = true := by
    show ((0 : BitVec 6) == 0 && sPlain _) = true
    rw [sPlain_of_plainFields hf]; rfl
  have hc := sCheck_ok (c := c) (regs := sa.toNat :: op.regs) hok hp (List.forall_mem_cons.mpr ⟨ha, hb⟩)
  simp only [operandB_eq]
  show execSSetfmt _ s = _
  unfold execSSetfmt
  rw [local1_after h hc]

theorem lo32_zeroExtend (v : Word) : lo32 (v.zeroExtend 64) = v := by
  ext i hi
  simp [lo32, hi]
  exact fun _ => by omega

theorem hi32_zeroExtend (v : Word) : hi32 (v.zeroExtend 64) = 0 := by
  ext i hi
  simp [hi32]

/-- Bits [31:10] of a doubleword. -/
theorem extract_lo32 (w : DWord) : fld (lo32 w) 10 22 = w.extractLsb' 10 22 := by
  ext i hi
  simp [fld, lo32]

/-- A write of FMT, FLAGS or DRAWBASE of a value whose high word is not zero. -/
theorem wrsr_high {s : State} {c : Cx} {sa : BitVec 6} (h : s.cx? = some c) (hp : c.gg.pfx = [])
    (ha : c.sregOk sa.toNat = true) (hw : hi32 (c.g.readS sa.toNat) ≠ 0) :
    ∀ i ∈ [Instr.sWrsr (wrsrForm sa 0), .sWrsr (wrsrForm sa 1), .drawbaseWrite (wrsrForm sa 0x12)],
      exec i s = c.trap { code := .illegalOperand } := by
  have hn : need (hi32 (c.g.readS sa.toNat) == 0) .illegalOperand = .error { code := .illegalOperand } := by
    rw [beq_eq_false_iff_ne.mpr hw]; rfl
  simp only [List.forall_mem_cons, List.not_mem_nil, false_imp_iff, implies_true, and_true]
  refine ⟨?_, ?_, ?_⟩
  · rw [exec_wrsr_fmt h hp ha, local1_at h hn]
  · rw [exec_wrsr_flags h hp ha, local1_at h hn]
  · rw [exec_wrsr_drawbase h hp ha, local1_at h hn]

/-- A selector that names no register, or one that is read only. -/
theorem wrsr_selector {s : State} {c : Cx} (h : s.cx? = some c) (r : BitVec 6) (sel : BitVec 10) :
    (sel.toNat ∉ [0, 1, 0x12] → exec (.sWrsr ⟨0, r, .imm10 sel⟩) s = c.trap { code := .illegalOperand }) ∧
    (0x14 ≤ sel.toNat → exec (.sRdsr ⟨r, 0, .imm10 sel⟩) s = c.trap { code := .illegalOperand }) := by
  constructor
  · intro hs
    simp only [List.mem_cons, List.not_mem_nil, or_false, not_or] at hs
    obtain ⟨h0, h1, -⟩ := hs
    have hok : fieldsOk (.sWrsr ⟨0, r, .imm10 sel⟩) = false := by
      simp only [fieldsOk, srSel]
      split <;> simp [h0, h1]
    exact local1_at (chk := fun c => c.sCheck (fieldsOk (.sWrsr ⟨0, r, .imm10 sel⟩)) [r.toNat]) h (sCheck_bad _ hok)
  · intro hs
    have hok : fieldsOk (.sRdsr ⟨r, 0, .imm10 sel⟩) = false := by
      simp only [fieldsOk, srSel]
      split <;> simp [hs]
    exact local1_at (chk := fun c => c.sCheck (fieldsOk (.sRdsr ⟨r, 0, .imm10 sel⟩)) [r.toNat]) h (sCheck_bad _ hok)

/-- The writes of a value of 32 bits that the register takes. -/
theorem wrsr_legal {s : State} {c : Cx} {sa : BitVec 6} {v : Word} (h : s.cx? = some c) (hp : c.gg.pfx = [])
    (ha : c.sregOk sa.toNat = true) (hv : c.g.readS sa.toNat = v.zeroExtend 64) :
    (v.extractLsb' 10 22 = 0#22 → GroupDone s c 1 { c.g with flags := v } (exec (.sWrsr (wrsrForm sa 1)) s)) ∧
    (fmtLegal c.g.ident.k v →
      GroupDone s c 1 (c.g.modGang c.gg.id fun x => { x with fmt := v }) (exec (.sWrsr (wrsrForm sa 0)) s)) ∧
    GroupDone s c 1 (c.g.modLanes c.lanes fun x => { x with draw := v }) (exec (.drawbaseWrite (wrsrForm sa 0x12)) s) := by
  have hn : need (hi32 (c.g.readS sa.toNat) == 0) .illegalOperand = .ok () := by
    rw [hv, hi32_zeroExtend]; rfl
  refine ⟨fun hz => ?_, fun hl => ?_, ?_⟩
  · have hz : need (fld (lo32 (c.g.readS sa.toNat)) 10 22 == 0) .illegalOperand = .ok () := by
      rw [hv, lo32_zeroExtend, fld, hz]; rfl
    rw [exec_wrsr_flags h hp ha, local1_after h hn, local1_after h hz]
    exact local1_next h (by rw [hv, lo32_zeroExtend]; rfl)
  · rw [exec_wrsr_fmt h hp ha, local1_after h hn]
    exact local1_next h (by rw [hv, lo32_zeroExtend, putFmt_of_legal hl])
  · rw [exec_wrsr_drawbase h hp ha, local1_after h hn]
    exact local1_next h (by rw [hv, lo32_zeroExtend]; rfl)

/-- The writes of a value of 32 bits that FLAGS or FMT does not take. -/
theorem wrsr_reserved {s : State} {c : Cx} {sa : BitVec 6} (h : s.cx? = some c) (hp : c.gg.pfx = [])
    (ha : c.sregOk sa.toNat = true) (hw : hi32 (c.g.readS sa.toNat) = 0) :
    ((c.g.readS sa.toNat).extractLsb' 10 22 ≠ 0 →
      exec (.sWrsr (wrsrForm sa 1)) s = c.trap { code := .illegalOperand }) ∧
    ∀ q, fmtTrap c.g.ident.k (lo32 (c.g.readS sa.toNat)) q → exec (.sWrsr (wrsrForm sa 0)) s = c.trap { code := q } := by
  have hn : need (hi32 (c.g.readS sa.toNat) == 0) .illegalOperand = .ok () := by rw [hw]; rfl
  refine ⟨fun hz => ?_, fun q hq => ?_⟩
  · have hz : need (fld (lo32 (c.g.readS sa.toNat)) 10 22 == 0) .illegalOperand = .error { code := .illegalOperand } := by
      rw [extract_lo32, beq_eq_false_iff_ne.mpr hz]; rfl
    rw [exec_wrsr_flags h hp ha, local1_after h hn, local1_at h hz]
  · rw [exec_wrsr_fmt h hp ha, local1_after h hn]
    exact local1_trap h (putFmt_of_trap hq)

/-- Settles O3: the checks of each write, in the order of R27 and R133, decide between the write of its one register and the trap. -/
theorem specialRegisterWrites : Obligations.SpecialRegisterWrites := by
  intro s c h hp
  refine ⟨exec_nop h hp, fun sa ha v hv => wrsr_legal h hp ha hv, fun sa op hf ha hb v hv => ?_, wrsr_selector h,
    fun sa ha => ⟨wrsr_high h hp ha, wrsr_reserved h hp ha⟩⟩
  rw [exec_sSetfmt h hp hf ha hb]
  subst hv
  refine ⟨fun hl => ?_, fun q hq => local1_trap h (putFmt_of_trap hq)⟩
  rw [encode, length_encS]
  exact local1_next h (putFmt_of_legal hl)

end Sys2Proof.Proofs.MachineState
end

section
namespace Sys2Proof.Proofs.MachineState
open Sys2Proof Sys2Proof.Machine Sys2Proof.Claims Sys2Proof.Laws

/-! ## Scalar results -/

/-- An instruction of the gang that writes SD alone. -/
theorem scalarDone_writeS {n sd : Nat} {v : DWord} {s : State} {c : Cx} {f : Cx → Except Tq Machine.Group} (h : s.cx? = some c)
    (hf : f c = .ok (c.g.writeS c.gg sd v)) : ScalarDone s c n sd v (local1 n s f) := by
  refine ⟨_, local1_next h hf, aluFrame_advance c.gg n (keeps_writeS (onlyS sd) c.g c.gg sd v rfl), fun h63 hn => ?_, ?_⟩
  · rw [(s_advance _ _ _).1]
    exact readS_writeS c.g c.gg sd v h63 hn
  · rintro rfl
    rw [(s_advance _ _ _).2]
    exact em_writeS c.g c.gg v

/-! ## Counts of bits (R128) -/

theorem popc_eq (a : DWord) : popc 64 a.toNat = ((List.range 64).filter fun i => a.getLsbD i).length := rfl

/-- The leading zeros are counted from bit 63 down to the first one. -/
theorem clz_eq (a : DWord) : clz 64 a.toNat = ((List.range 64).map fun i => 63 - i).findIdx fun i => a.getLsbD i := by
  have ha : a.toNat < 2 ^ 64 := a.isLt
  unfold clz
  split
  · next hz =>
    have hb (i : Nat) : a.getLsbD i = false := by rw [BitVec.getLsbD, hz, Nat.zero_testBit]
    exact ((List.findIdx_eq_length (xs := (List.range 64).map fun i => 63 - i)).mpr fun x _ => hb x).symm
  · next hz =>
    have hlog : a.toNat.log2 < 64 := (Nat.log2_lt hz).mpr ha
    symm
    rw [List.findIdx_eq (by rw [List.length_map, List.length_range]; omega)]
    refine ⟨?_, fun j hj => ?_⟩
    · have e : 63 - (64 - 1 - a.toNat.log2) = a.toNat.log2 := by omega
      simp only [List.getElem_map, List.getElem_range, e]
      exact Nat.testBit_log2 hz
    · simp only [List.getElem_map, List.getElem_range]
      exact Nat.testBit_lt_two_pow (lt_of_lt_of_le Nat.lt_log2_self (Nat.pow_le_pow_right (by decide) (by omega)))

/-- The trailing zeros are counted from bit 0 up to the first one. -/
theorem ctz_eq (a : DWord) : ctz 64 a.toNat = (List.range 64).findIdx fun i => a.getLsbD i := by
  show ((List.range 64).find? fun i => a.getLsbD i).getD 64 = _
  cases hf : (List.range 64).find? fun i => a.getLsbD i with
  | none =>
    have hn := List.find?_range_eq_none.mp hf
    exact (List.findIdx_eq_length.mpr fun x hx => by simpa using hn x (List.mem_range.mp hx)).symm
  | some i =>
    obtain ⟨hi, hm, hlow⟩ := List.find?_range_eq_some.mp hf
    symm
    rw [Option.getD_some, List.findIdx_eq (by simpa using hm)]
    exact ⟨by simpa using hi, fun j hj => by simpa using hlow j hj⟩

/-- The unary counts. -/
theorem scalarUnary_done : ∀ e ∈ scalarUnary, ∀ (s : State) (c : Cx) (f : SForm), s.cx? = some c → c.gg.pfx = [] →
    f.op = .reg 0 0 → c.sregOk f.sd.toNat = true → c.sregOk f.sa.toNat = true →
    ScalarDone s c 1 f.sd.toNat (BitVec.ofNat 64 (e.2 (c.g.readS f.sa.toNat))) (exec (e.1 f) s) := by
  intro e he s c f h hp hop hd ha
  have hlen : sLen f = 1 := by simp only [sLen, hop]
  have hc : c.sCheck (SOp.isUnary f.op) [f.sd.toNat, f.sa.toNat] = .ok () :=
    sCheck_ok (by rw [hop]; rfl) hp (by simp [hd, ha])
  have one (res : DWord → DWord) : ScalarDone s c 1 f.sd.toNat (res (c.g.readS f.sa.toNat)) (sAlu1 f s res) := by
    unfold sAlu1
    rw [hlen, local1_after h hc]
    exact scalarDone_writeS h rfl
  simp only [scalarUnary, List.mem_cons, List.not_mem_nil, or_false] at he
  rcases he with rfl | rfl | rfl
  · exact one fun a => dw (popc 64 a.toNat)
  · simp only [← clz_eq]; exact one fun a => dw (clz 64 a.toNat)
  · simp only [← ctz_eq]; exact one fun a => dw (ctz 64 a.toNat)

/-! ## Moves (R132, R135) -/

theorem sMov_done {s : State} {c : Cx} {sd : BitVec 6} {op : SOp} (h : s.cx? = some c) (hp : c.gg.pfx = [])
    (hd : c.sregOk sd.toNat = true) (hf : plainFields ⟨sd, 0, op⟩) (hb : ∀ r ∈ operandRegs ⟨sd, 0, op⟩, c.sregOk r = true) :
    ScalarDone s c (encode (.sMov ⟨sd, 0, op⟩)).length sd.toNat (operandB c.g ⟨sd, 0, op⟩) (exec (.sMov ⟨sd, 0, op⟩) s) := by
  rw [operandRegs_eq] at hb
  have hok : fieldsOk (.sMov ⟨sd, 0, op⟩) = true := by
    show ((0 : BitVec 6) == 0 && sPlain _) = true
    rw [sPlain_of_plainFields hf]; rfl
  have hc := sCheck_ok (c := c) (regs := sd.toNat :: op.regs) hok hp (List.forall_mem_cons.mpr ⟨hd, hb⟩)
  rw [encode, length_encS, operandB_eq]
  show ScalarDone s c _ _ _ (execSMov _ s)
  unfold execSMov
  rw [local1_after h hc]
  exact scalarDone_writeS h rfl

theorem word?_imm32 (w : Word) : SOp.word? (.imm32 0 0 w) = some w := rfl

/-- A shift is a product with a power of two. -/
theorem ofNat_mul_two_pow (x k : Nat) : BitVec.ofNat 64 (x * 2 ^ k) = BitVec.ofNat 64 x <<< k := by
  apply BitVec.eq_of_toNat_eq
  simp [BitVec.toNat_shiftLeft, Nat.shiftLeft_eq]

theorem toNat_movkImm (h : BitVec 2) (v : BitVec 16) : (0#14 ++ h ++ v).toNat = h.toNat * 65536 + v.toNat := by
  rw [toNat_cat, toNat_cat]; simp

theorem sMovk_done {s : State} {c : Cx} {sd : BitVec 6} (hx : s.cx? = some c) (hp : c.gg.pfx = [])
    (hd : c.sregOk sd.toNat = true) (h : BitVec 2) (v : BitVec 16) :
    ScalarDone s c 2 sd.toNat
      ((c.g.readS sd.toNat &&& ~~~((0xFFFF : DWord) <<< (16 * h.toNat))) ||| (v.zeroExtend 64 <<< (16 * h.toNat)))
      (exec (.sMovk ⟨sd, 0, .imm32 0 0 (0#14 ++ h ++ v)⟩) s) := by
  have hh := h.isLt
  have hv := v.isLt
  have hn := toNat_movkImm h v
  have hok : fieldsOk (.sMovk ⟨sd, 0, .imm32 0 0 (0#14 ++ h ++ v)⟩) = true := by
    have hz : fld (0#14 ++ h ++ v) 18 14 = 0 := by
      apply fld_of_toNat; rw [hn]; simp; omega
    simp only [fieldsOk, sMovkOk, word?_imm32, Option.any_some, hz]
    rfl
  have hc := sCheck_ok (c := c) (regs := [sd.toNat]) hok hp (by simpa using hd)
  show ScalarDone s c _ _ _ (execSMovk _ s)
  unfold execSMovk
  rw [local1_after hx hc]
  refine scalarDone_writeS hx ?_
  have eh : nbits (0#14 ++ h ++ v).toNat 16 2 = h.toNat := by rw [hn, nbits]; omega
  have ev : (0#14 ++ h ++ v).toNat % 65536 = v.toNat := by rw [hn]; omega
  have ez : v.zeroExtend 64 = BitVec.ofNat 64 v.toNat := by
    apply BitVec.eq_of_toNat_eq; simp
  simp only [word?_imm32, Option.getD_some, eh, ev, dw, ofNat_mul_two_pow, ez]
  rfl

theorem sLeaPc_done {s : State} {c : Cx} {sd : BitVec 6} (h : s.cx? = some c) (hp : c.gg.pfx = [])
    (hd : c.sregOk sd.toNat = true) (sh : BitVec 2) (lo hi : Word) :
    ScalarDone s c 2 sd.toNat (c.gg.pc + (lo.signExtend 64 <<< sh.toNat)) (exec (.sLeaPc ⟨sd, 0, .imm32 0 (2#2 ++ sh) lo⟩) s) ∧
    ScalarDone s c 3 sd.toNat (c.gg.pc + ((hi ++ lo) <<< sh.toNat)) (exec (.sLeaPc ⟨sd, 0, .imm64 0 (2#2 ++ sh) lo hi⟩) s) := by
  have hs := sh.isLt
  have hn : (2#2 ++ sh).toNat = 8 + sh.toNat := by rw [toNat_cat]; simp
  have em : (2#2 ++ sh).toNat % 4 = sh.toNat := by omega
  have hregs : ∀ r ∈ [sd.toNat], c.sregOk r = true := by simpa using hd
  constructor
  · have hok : fieldsOk (.sLeaPc ⟨sd, 0, .imm32 0 (2#2 ++ sh) lo⟩) = true := by
      simp [fieldsOk, SOp.rsvOk, SOp.func, hn]; omega
    show ScalarDone s c _ _ _ (execSLeaPc _ s)
    unfold execSLeaPc
    rw [local1_after h (sCheck_ok (c := c) hok hp hregs)]
    exact scalarDone_writeS h (by simp only [SOp.func, em]; rfl)
  · have hok : fieldsOk (.sLeaPc ⟨sd, 0, .imm64 0 (2#2 ++ sh) lo hi⟩) = true := by
      simp [fieldsOk, SOp.rsvOk, SOp.func, hn]; omega
    show ScalarDone s c _ _ _ (execSLeaPc _ s)
    unfold execSLeaPc
    rw [local1_after h (sCheck_ok (c := c) hok hp hregs)]
    exact scalarDone_writeS h (by simp only [SOp.func, em]; rfl)

theorem sGetfmt_done {s : State} {c : Cx} {sd : BitVec 6} (h : s.cx? = some c) (hp : c.gg.pfx = [])
    (hd : c.sregOk sd.toNat = true) :
    ScalarDone s c 1 sd.toNat (c.gg.fmt.zeroExtend 64) (exec (.sGetfmt ⟨sd, 0, .reg 0 0⟩) s) := by
  have hc := sCheck_ok (c := c) (regs := [sd.toNat]) (show fieldsOk (.sGetfmt ⟨sd, 0, .reg 0 0⟩) = true from rfl) hp
    (by simpa using hd)
  show ScalarDone s c _ _ _ (execSGetfmt _ s)
  unfold execSGetfmt
  rw [local1_after h hc]
  exact scalarDone_writeS h rfl

/-- The immediate of `s.getlane`: the register, the lane, and LSEL. -/
theorem toNat_getlaneImm (q : BitVec 1) (lane : BitVec 5) (v : BitVec 7) :
    (0#18 ++ q ++ lane ++ 0#1 ++ v).toNat = q.toNat * 8192 + lane.toNat * 256 + v.toNat := by
  repeat rw [toNat_cat]
  simp; omega

/-- `s.getlane` with legal fields and registers that may be named. -/
theorem exec_sGetlane {s : State} {c : Cx} {f : SForm} {w : Word} (h : s.cx? = some c) (hp : c.gg.pfx = [])
    (hw : SOp.word? f.op = some w) (hok : fieldsOk (.sGetlane f) = true)
    (hr : c.sregsOk (f.sd.toNat :: if nbits w.toNat 13 1 == 1 then [f.sa.toNat] else []) = true)
    (hv : nbits w.toNat 0 7 < c.g.ident.nr) :
    let l := if nbits w.toNat 13 1 == 1 then (c.g.readS f.sa.toNat).toNat % 32 else nbits w.toNat 8 5
    ScalarDone s c (sLen f) f.sd.toNat (zx64 (if l < c.g.ident.width then (c.g.lane l).vreg (nbits w.toNat 0 7) else 0))
      (exec (.sGetlane f) s) := by
  have n1 : need (fieldsOk (.sGetlane f) && c.gg.pfx.isEmpty) .illegalOperand = .ok () := by rw [hok, hp]; rfl
  have n2 : need (c.sregsOk (f.sd.toNat :: if nbits w.toNat 13 1 == 1 then [f.sa.toNat] else []) &&
      nbits w.toNat 0 7 < c.g.ident.nr) .regRange = .ok () := by rw [hr, decide_eq_true hv]; rfl
  show ScalarDone s c _ _ _ (execSGetlane f s)
  unfold execSGetlane
  simp only [hw, Option.getD_some]
  rw [local1_after h n1, local1_after h n2]
  exact scalarDone_writeS h rfl

/-- The fields of `s.getlane` are legal: LSEL 1, or SA 0. -/
theorem getlane_fields (sd sa : BitVec 6) (q : BitVec 1) (lane : BitVec 5) (v : BitVec 7) (hv : v.toNat < 120)
    (hq : q = 1#1 ∨ sa = 0) : fieldsOk (.sGetlane ⟨sd, sa, .imm32 0 0 (0#18 ++ q ++ lane ++ 0#1 ++ v)⟩) = true := by
  have hn := toNat_getlaneImm q lane v
  have hl := lane.isLt
  have h7 := v.isLt
  have h1 := q.isLt
  have z1 : fld (0#18 ++ q ++ lane ++ 0#1 ++ v) 14 18 = 0 := by apply fld_of_toNat; rw [hn]; simp; omega
  have z2 : fld (0#18 ++ q ++ lane ++ 0#1 ++ v) 7 1 = 0 := by apply fld_of_toNat; rw [hn]; simp; omega
  have z3 : fld (0#18 ++ q ++ lane ++ 0#1 ++ v) 0 7 = v := by apply fld_of_toNat; rw [hn]; omega
  have z4 : fld (0#18 ++ q ++ lane ++ 0#1 ++ v) 13 1 = q := by apply fld_of_toNat; rw [hn]; omega
  simp only [fieldsOk, sGetlaneOk, word?_imm32, Option.any_some, z1, z2, z3, z4, decide_eq_true hv]
  rcases hq with rfl | rfl <;> simp

/-- `s.getlane` by a register, and by the lane of its immediate. -/
theorem sGetlane_done {s : State} {c : Cx} {sd sa : BitVec 6} (h : s.cx? = some c) (hp : c.gg.pfx = [])
    (hd : c.sregOk sd.toNat = true) (lane : BitVec 5) (v : BitVec 7) (hv : v.toNat < 120) (hr : v.toNat < c.g.ident.nr) :
    ScalarDone s c 2 sd.toNat (if lane.toNat < c.g.ident.width then ((c.g.lane lane.toNat).vreg v.toNat).zeroExtend 64 else 0)
      (exec (.sGetlane ⟨sd, 0, .imm32 0 0 (0#18 ++ 0#1 ++ lane ++ 0#1 ++ v)⟩) s) ∧
    (c.sregOk sa.toNat = true → ScalarDone s c 2 sd.toNat
      (if (c.g.readS sa.toNat).toNat % 32 < c.g.ident.width then
        ((c.g.lane ((c.g.readS sa.toNat).toNat % 32)).vreg v.toNat).zeroExtend 64 else 0)
      (exec (.sGetlane ⟨sd, sa, .imm32 0 0 (0#18 ++ 1#1 ++ lane ++ 0#1 ++ v)⟩) s)) := by
  have hl := lane.isLt
  have h7 := v.isLt
  have fields (q : BitVec 1) : nbits (0#18 ++ q ++ lane ++ 0#1 ++ v).toNat 13 1 = q.toNat ∧
      nbits (0#18 ++ q ++ lane ++ 0#1 ++ v).toNat 0 7 = v.toNat ∧ nbits (0#18 ++ q ++ lane ++ 0#1 ++ v).toNat 8 5 = lane.toNat := by
    have h1 := q.isLt
    rw [toNat_getlaneImm]
    simp only [nbits]
    omega
  have zero (b : Prop) [Decidable b] (x : Word) : zx64 (if b then x else 0) = if b then x.zeroExtend 64 else 0 := by
    split <;> rfl
  constructor
  · obtain ⟨e1, e2, e3⟩ := fields 0#1
    have key := exec_sGetlane (f := ⟨sd, 0, .imm32 0 0 (0#18 ++ 0#1 ++ lane ++ 0#1 ++ v)⟩) h hp (word?_imm32 _)
      (getlane_fields sd 0 0#1 lane v hv (.inr rfl)) (by rw [e1]; simpa [Cx.sregsOk] using hd) (by rw [e2]; exact hr)
    simp only [e1, e2, e3, zero] at key
    exact key
  · intro ha
    obtain ⟨e1, e2, e3⟩ := fields 1#1
    have key := exec_sGetlane (f := ⟨sd, sa, .imm32 0 0 (0#18 ++ 1#1 ++ lane ++ 0#1 ++ v)⟩) h hp (word?_imm32 _)
      (getlane_fields sd sa 1#1 lane v hv (.inl rfl)) (by rw [e1]; simpa [Cx.sregsOk] using ⟨hd, ha⟩) (by rw [e2]; exact hr)
    simp only [e1, e2, e3, zero] at key
    exact key

end Sys2Proof.Proofs.MachineState
end

section
namespace Sys2Proof.Proofs.MachineState
open Sys2Proof Sys2Proof.Machine Sys2Proof.Claims Sys2Proof.Laws

/-! ## Masks of bits -/

/-- A bit that is shifted out of the word sets nothing. -/
theorem getLsbD_ofNat_two_pow (w k i : Nat) : (BitVec.ofNat w (2 ^ k)).getLsbD i = decide (i < w ∧ i = k) := by
  simp only [BitVec.getLsbD_ofNat, Nat.testBit_two_pow, Bool.decide_and, eq_comm (a := k)]

/-- The bits of a mask gathered bit by bit. -/
theorem getLsbD_foldl_bits {w : Nat} (ls : List Nat) (m : BitVec w) (i : Nat) (hi : i < w) :
    (ls.foldl (fun m l => m ||| BitVec.ofNat w (2 ^ l)) m).getLsbD i = (m.getLsbD i || decide (i ∈ ls)) := by
  induction ls generalizing m with
  | nil => simp
  | cons l ls ih =>
    rw [List.foldl_cons, ih, BitVec.getLsbD_or, getLsbD_ofNat_two_pow]
    simp [hi, Bool.or_assoc]

/-! ## Cores in use (R347, R348) -/

/-- The first k of the numbers below n that satisfy q: those with fewer than k such numbers below them. -/
theorem mem_take_filter_range (q : Nat → Bool) (k n p : Nat) :
    p ∈ ((List.range n).filter q).take k ↔ p < n ∧ q p = true ∧ ((List.range p).filter q).length < k := by
  induction n with
  | zero => simp
  | succ n ih =>
    rw [List.range_succ, List.filter_append, List.take_append, List.mem_append, ih]
    have last : p ∈ ([n].filter q).take (k - ((List.range n).filter q).length) ↔
        p = n ∧ q p = true ∧ ((List.range p).filter q).length < k := by
      by_cases hq : q n = true
      · rw [List.filter_cons_of_pos hq, List.filter_nil]
        by_cases hk : ((List.range n).filter q).length < k
        · rw [List.take_of_length_le (by simpa using by omega), List.mem_singleton]
          exact ⟨fun e => by subst e; exact ⟨rfl, hq, hk⟩, fun h => h.1⟩
        · rw [Nat.sub_eq_zero_of_le (Nat.not_lt.mp hk), List.take_zero]
          exact ⟨fun h => by simp at h, fun ⟨e, _, h⟩ => absurd (e ▸ h) hk⟩
      · rw [List.filter_cons_of_neg hq, List.filter_nil, List.take_nil]
        exact ⟨fun h => by simp at h, fun ⟨e, h, _⟩ => absurd (e ▸ h) hq⟩
    rw [last, Nat.lt_succ_iff_lt_or_eq, or_and_right]

theorem mem_coresInUse (d : Die) (p : Nat) : p ∈ d.coresInUse ↔ coreInUse d p = true := by
  rw [Die.coresInUse, mem_take_filter_range]
  simp [coreInUse, and_assoc]

/-- CORES_PRESENT holds the cores in use. -/
theorem getLsbD_present (d : Die) (p : Nat) : d.present.getLsbD p = coreInUse d p := by
  by_cases hp : p < 160
  · rw [Die.present, getLsbD_foldl_bits _ _ _ hp, show (0 : BitVec 160).getLsbD p = false from BitVec.getLsbD_zero, Bool.false_or, Bool.eq_iff_iff, decide_eq_true_iff,
      mem_coresInUse]
  · rw [BitVec.getLsbD_of_ge _ _ (Nat.not_lt.mp hp), coreInUse, decide_eq_false hp]
    rfl

/-- A cluster holds a core in use. -/
theorem any_coresInUse (d : Die) (k : Nat) :
    (d.coresInUse.any fun p => p / 4 == k) = (List.range 160).any fun q => coreInUse d q && q / 4 == k := by
  rw [Bool.eq_iff_iff]
  simp only [List.any_eq_true, mem_coresInUse, List.mem_range, Bool.and_eq_true]
  constructor
  · rintro ⟨p, hp, e⟩
    have hlt : p < 160 := by simp only [coreInUse, Bool.and_eq_true, decide_eq_true_eq] at hp; omega
    exact ⟨p, hlt, hp, e⟩
  · rintro ⟨p, -, hp, e⟩
    exact ⟨p, hp, e⟩

/-- The place of x among the numbers below n that satisfy P counts those below x. -/
theorem idxOf_filter_range (P : Nat → Bool) (n x : Nat) (hx : x < n → P x = true) (hP : ∀ k, n ≤ k → P k = false) :
    ((List.range n).filter P).idxOf x = ((List.range x).filter P).length := by
  by_cases h : x < n
  · obtain ⟨m, rfl⟩ : ∃ m, n = x + (m + 1) := ⟨n - x - 1, by omega⟩
    have hnot : x ∉ (List.range x).filter P := by simp
    rw [List.range_add, List.filter_append, List.idxOf_append_of_notMem hnot, List.range_succ_eq_map]
    simp [hx h]
  · obtain ⟨m, rfl⟩ : ∃ m, x = n + m := ⟨x - n, by omega⟩
    have hnot : n + m ∉ (List.range n).filter P := by simp
    have hrest : ((List.range m).map (n + ·)).filter P = [] := by
      simp only [List.filter_eq_nil_iff, List.mem_map]
      rintro _ ⟨j, -, rfl⟩
      simp [hP (n + j) (Nat.le_add_right n j)]
    rw [List.idxOf_of_notMem hnot, List.range_add, List.filter_append, hrest, List.append_nil]

/-- CLUSTER (Table 1.5). -/
theorem clusterOf_eq (d : Die) (core : Nat) : d.clusterOf core = logicalCluster d (d.physCore core) := by
  have hP : ∀ k, 40 ≤ k → (d.coresInUse.any fun p => p / 4 == k) = false := by
    intro k hk
    rw [any_coresInUse]
    simp only [List.any_eq_false, List.mem_range, Bool.and_eq_true, beq_iff_eq, not_and]
    intro q hq _
    omega
  have hx : d.physCore core / 4 < 40 → (d.coresInUse.any fun p => p / 4 == d.physCore core / 4) = true := by
    intro h
    refine List.any_eq_true.mpr ⟨d.physCore core, ?_, by simp⟩
    by_cases hc : core < d.coresInUse.length
    · rw [Die.physCore, List.getD_eq_getElem _ _ hc]
      exact List.getElem_mem hc
    · rw [Die.physCore, List.getD_eq_default _ _ (Nat.not_lt.mp hc)] at h
      omega
  rw [Die.clusterOf, Die.clusters, idxOf_filter_range _ _ _ hx hP, logicalCluster]
  simp only [any_coresInUse]

/-! ## Special registers read (R38 to R40, R133) -/

theorem cause_code_eq (t : GroupTx) : t.status t.cause.code = txStatus t := by
  unfold txStatus GroupTx.status
  cases t.cause <;> rfl

/-- The table of the special registers is what `s.rdsr` reads. -/
theorem special_of_mem {c : Cx} : ∀ e ∈ specials c, c.special e.1 = e.2 := by
  have hrole : (BitVec.ofNat 64 (roleCode c.g.ident.role)) = match c.g.ident.role with | .vector => 0 | .copy => 1 | .matrix => 2 := by
    cases c.g.ident.role <;> rfl
  have hdie : (BitVec.ofNat 64 (dieNum c.t.die)) = match c.t.die with | .cd0 => 0 | .cd1 => 1 := by
    cases c.t.die <;> rfl
  have hkey : c.special 0x11 = if c.l.hdr.det then
      BitVec.ofBool (c.s.teamHolds c.l c.t.teamId c.t.round) ++ 0#31 ++ BitVec.ofNat 32 c.t.round else 0 := by
    show keyRoundWord (c.s.keyState c.l c.t).1 (c.s.keyState c.l c.t).2 = _
    unfold State.keyState
    split <;> rfl
  have hdraw : c.special 0x12 = match c.lanes with | l :: _ => ((c.g.lane l).draw).zeroExtend 64 | [] => 0 := by
    show zx64 c.drawBase = _
    unfold Cx.drawBase
    cases c.lanes <;> rfl
  have htx : c.special 0x10 = (txStatus c.g.tx).zeroExtend 64 := by rw [← cause_code_eq]; rfl
  have hcl : c.special 0x0B = BitVec.ofNat 64 (logicalCluster (c.s.die c.die) ((c.s.die c.die).physCore c.t.core)) := by
    rw [← clusterOf_eq]; rfl
  simp only [specials, List.forall_mem_cons, List.not_mem_nil, false_imp_iff, implies_true, and_true]
  exact ⟨rfl, rfl, rfl, rfl, rfl, rfl, rfl, rfl, rfl, hrole, rfl, hcl, hdie, htx, hkey, hdraw, rfl⟩

/-- CORES_PRESENT, 64 cores a register. -/
theorem special_present (c : Cx) (i : Nat) (hi : i < 3) (n : Nat) (hn : n < 64) :
    (c.special (0x0D + i)).getLsbD n = coreInUse (c.s.die c.die) (64 * i + n) := by
  rw [← getLsbD_present]
  match i, hi with
  | 0, _ =>
    show ((c.s.die c.die).present.extractLsb' 0 64).getLsbD n = _
    rw [BitVec.getLsbD_extractLsb', decide_eq_true hn, Bool.true_and]
  | 1, _ =>
    show ((c.s.die c.die).present.extractLsb' 64 64).getLsbD n = _
    rw [BitVec.getLsbD_extractLsb', decide_eq_true hn, Bool.true_and]
  | 2, _ =>
    show (((c.s.die c.die).present.extractLsb' 128 32).zeroExtend 64).getLsbD n = _
    rw [BitVec.zeroExtend, BitVec.getLsbD_setWidth, decide_eq_true hn, Bool.true_and, BitVec.getLsbD_extractLsb']
    by_cases h : n < 32
    · rw [decide_eq_true h, Bool.true_and]
    · rw [decide_eq_false h, Bool.false_and, BitVec.getLsbD_of_ge _ _ (by omega)]

theorem sRdsr_done {s : State} {c : Cx} {sd : BitVec 6} (h : s.cx? = some c) (hp : c.gg.pfx = [])
    (hd : c.sregOk sd.toNat = true) (sel : BitVec 10) (hs : sel.toNat < 0x14) :
    ScalarDone s c 1 sd.toNat (c.special sel.toNat) (exec (.sRdsr ⟨sd, 0, .imm10 sel⟩) s) := by
  have hsel : srSel ⟨sd, 0, .imm10 sel⟩ = some sel.toNat := if_pos (by omega)
  have hok : fieldsOk (.sRdsr ⟨sd, 0, .imm10 sel⟩) = true := by
    simp only [fieldsOk, hsel]
    simpa using hs
  have hc := sCheck_ok (c := c) (regs := [sd.toNat]) hok hp (by simpa using hd)
  show ScalarDone s c _ _ _ (execSRdsr _ s)
  unfold execSRdsr
  rw [local1_after h hc]
  exact scalarDone_writeS h (by rw [hsel]; rfl)

/-- Settles O2: one lemma per form; each checks its fields, then writes SD alone. -/
theorem scalarMoveResult : Obligations.ScalarMoveResult := by
  refine ⟨scalarUnary_done, fun s c sd sa h hp hd => ⟨fun op => sMov_done h hp hd, sMovk_done h hp hd, fun lane v hv hr => ?_,
    fun sh lo hi => sLeaPc_done h hp hd sh lo hi, sGetfmt_done h hp hd, fun sel hs => ?_⟩⟩
  · exact sGetlane_done h hp hd lane v hv hr
  · refine ⟨c.special sel.toNat, sRdsr_done h hp hd sel hs, fun e he e1 => e1 ▸ special_of_mem e he, fun i hi e1 n hn => ?_⟩
    rw [e1, special_present c i hi n hn, cx_s h]

end Sys2Proof.Proofs.MachineState
end

section
namespace Sys2Proof.Proofs.MachineState
open Sys2Proof Sys2Proof.Machine Sys2Proof.Claims Sys2Proof.Laws

/-! ## Live lanes -/

theorem liveBits_congr {ls ls' : List Lane} (i : Nat) (h : ls.map (·.exited) = ls'.map (·.exited)) : liveBits ls i = liveBits ls' i := by
  induction ls generalizing ls' i with
  | nil => rw [List.map_nil, eq_comm, List.map_eq_nil_iff] at h; rw [h]
  | cons x ls ih =>
    cases ls' with
    | nil => simp at h
    | cons y ls' =>
      simp only [List.map_cons, List.cons.injEq] at h
      rw [liveBits, liveBits, h.1, ih (i + 1) h.2]

/-- What keeps the group keeps which of its lanes are live. -/
theorem live_of_keeps {a : Allow} {g g' : Machine.Group} (k : Keeps a g g') : g'.live = g.live := by
  refine liveBits_congr 0 (List.ext_getElem (by simp [k.lanes]) fun i h1 h2 => ?_)
  have e := k.exited i
  rw [List.length_map] at h1 h2
  simp only [Group.lane, List.getD_eq_getElem _ _ h1, List.getD_eq_getElem _ _ h2] at e
  simpa using e

/-! ## Masks of lanes (R123, R170) -/

theorem getLsbD_maskOf (ls : List Nat) (i : Nat) (hi : i < 32) : (maskOf ls).getLsbD i = decide (i ∈ ls) :=
  (getLsbD_foldl_bits ls (0 : Word) i hi).trans (by simp)

theorem getLsbD_maskW {n i : Nat} (hn : n ≤ 32) : (maskW n).getLsbD i = decide (i < n) := by
  rw [maskW, wd, BitVec.getLsbD_ofNat, Nat.testBit_two_pow_sub_one, ← Bool.decide_and, decide_eq_decide]
  omega

theorem getLsbD_lo32 (v : DWord) {i : Nat} (hi : i < 32) : (lo32 v).getLsbD i = v.getLsbD i := by
  simp [lo32, hi]

theorem getLsbD_zx64 (v : Word) {i : Nat} (hi : i < 64) : (zx64 v).getLsbD i = v.getLsbD i := by
  simp [zx64, BitVec.zeroExtend, hi]

/-- No lane is active where the gang has no active bit. -/
theorem mem_lanes (c : Cx) (l : Nat) : l ∈ c.lanes ↔ l < c.g.ident.width ∧ c.active.getLsbD l = true := by
  simp [Cx.lanes, Group.activeLanes, lanesOf, Cx.active]

theorem keeps_writeMask (g : Machine.Group) (gg : Gang) (n : Nat) (v : Word) :
    Keeps (onlyS n) g (g.writeMask gg n v) ∧ (g.writeMask gg n v).gangs = g.gangs := by
  unfold Group.writeMask
  split
  · next h => subst h; exact keeps_writeS _ g gg 63 _ rfl
  · exact keeps_writeS _ g gg n _ rfl

theorem keeps_putMask (c : Cx) (g : Machine.Group) (n : Nat) (ls : List Nat) :
    Keeps (onlyS n) g (c.putMask n ls g) ∧ (c.putMask n ls g).gangs = g.gangs := by
  unfold Cx.putMask
  split
  · exact keeps_writeMask g c.gg n _
  · exact ⟨keeps_refl _ g, rfl⟩

theorem s_hold (c : Cx) (f : VForm) (g : Machine.Group) : (c.hold f g).s = g.s := by
  have fold (n code : Nat) (ls : List Nat) (g : Machine.Group) :
      (ls.foldl (fun g l => g.modLane l fun x => x.setLatch n (c.src f code l) 3) g).s = g.s := by
    induction ls generalizing g with
    | nil => rfl
    | cons l ls ih => exact ih _
  unfold Cx.hold
  simp only
  split
  · rfl
  · exact fold ..

/-- A mask of active lanes written to SREG: the gang's bits are those of the lanes, the others stay. -/
theorem maskWritten_putMask {c : Cx} {g : Machine.Group} {a : Allow} (hw : c.g.ident.width ≤ 32) (n : Nat) {p : Nat → Prop}
    {q : Nat → Bool} (hq : ∀ l, q l = true ↔ p l) (k : Keeps a c.g g) (hs : g.s = c.g.s) (he : g.em = c.g.em) :
    maskWritten c n p (c.putMask n (c.lanes.filter q) g) := by
  have hv (i : Nat) (hi : i < 32) : (maskOf (c.lanes.filter q)).getLsbD i = true ↔ i ∈ c.lanes ∧ p i := by
    rw [getLsbD_maskOf _ _ hi]; simp [hq]
  unfold maskWritten Cx.putMask
  by_cases h0 : c.active = 0
  · have hn : c.anyActive = false := by simp [Cx.anyActive, h0]
    rw [if_pos h0, hn]
    exact ⟨by simp [hs], he⟩
  · have hy : c.anyActive = true := by simpa [Cx.anyActive] using h0
    rw [if_neg h0, if_pos hy]
    split
    · next h63 =>
      intro l hl
      have h32 : l < 32 := by omega
      have h64 : l < 64 := by omega
      rw [Group.writeMask, if_pos h63, em_writeS, live_of_keeps k, he]
      specialize hv l h32
      simp only [BitVec.getLsbD_or, BitVec.getLsbD_and, BitVec.getLsbD_not, getLsbD_lo32 _ h32, getLsbD_zx64 _ h64,
        decide_eq_true h32, Bool.true_and]
      cases (c.gg.mask.getLsbD l && c.g.live.getLsbD l) <;> simp [hv]
    · next h63 =>
      intro hr l hl
      rw [Group.writeMask, if_neg h63, readS_writeS _ _ _ _ h63 (by rw [hs]; exact hr), getLsbD_zx64 _ hl]
      have hread : g.readS n = c.g.readS n := by simp [Group.readS, h63, hs]
      rw [hread, k.ident]
      by_cases h32 : l < 32
      · specialize hv l h32
        have hlt : l ∈ c.lanes → l < c.g.ident.width := fun h => ((mem_lanes c l).mp h).1
        simp only [BitVec.getLsbD_or, BitVec.getLsbD_and, BitVec.getLsbD_not, getLsbD_lo32 _ h32, getLsbD_maskW hw,
          decide_eq_true h32, Bool.true_and]
        cases c.gg.mask.getLsbD l
        · simp [and_comm]
        · simpa [hv] using fun h _ => hlt h
      · rw [BitVec.getLsbD_of_ge _ _ (by omega)]
        simp only [Bool.false_eq_true, false_iff, not_and]
        omega

/-! ## v.icmp (R170) -/

/-- Which of the conditions of R170 holds. -/
theorem iCond_lt (signed : Bool) (x y : Word) :
    (if signed then x.slt y else x.ult y) = decide (if signed then x.toInt < y.toInt else x.toNat < y.toNat) := by
  cases signed
  · simp [BitVec.ult]
  · simp [BitVec.slt]

theorem em_hold (c : Cx) (f : VForm) (g : Machine.Group) : (c.hold f g).em = g.em :=
  (keeps_hold onlyNone c f g).1.em fun h => h

theorem length_encV (op : Nat) (f : VForm) : (encV op f).length = vLen f := by
  obtain ⟨d, a, b, h, e, i⟩ := f
  cases e <;> cases i <;> rfl

/-- A mask that is written stands in the advanced group. -/
theorem maskWritten_advance {c : Cx} {n k : Nat} {p : Nat → Prop} {g : Machine.Group} (h : maskWritten c n p g) :
    maskWritten c n p (g.advance c.gg k) := by
  obtain ⟨hs, he⟩ := s_advance g c.gg k
  unfold maskWritten at h ⊢
  rw [hs, he]
  exact h

/-- Settles O7: the lanes where the condition holds are the mask that is written, after the sources that are held. -/
theorem vectorCompareMask : Obligations.VectorCompareMask := by
  intro s c f h hw hc signed a b lt holds
  have hq (l : Nat) : iCond f.sel (c.type spIcmp f == 4) (a l) (b l) = true ↔ holds l := by
    have hl (x y : Word) : (if (c.type spIcmp f == 4) = true then x.slt y else x.ult y) = decide (lt x y) := by
      rw [iCond_lt]; simp only [lt, signed, beq_iff_eq, Cx.type, fmtHt]
    simp only [iCond, hl, holds]
    rcases f.sel with _ | _ | _ | _ | _ | _ <;> simp
  have hk := keeps_hold (onlyS f.sreg) c f c.g
  have hp := keeps_putMask c (c.hold f c.g) f.sreg (c.lanes.filter fun l => iCond f.sel (c.type spIcmp f == 4) (a l) (b l))
  refine ⟨_, local1_next h (by rw [hc]; rfl), ?_, ?_⟩
  · rw [encode, length_encV]
    exact aluFrame_advance c.gg _ ⟨keeps_trans hk.1 hp.1, hp.2.trans hk.2⟩
  · exact maskWritten_advance (maskWritten_putMask hw f.sreg hq hk.1 (s_hold c f c.g) (em_hold c f c.g))

end Sys2Proof.Proofs.MachineState
end

section
namespace Sys2Proof.Proofs.MachineState
open Sys2Proof Sys2Proof.Machine Sys2Proof.Claims Sys2Proof.Laws

/-! ## Groups: lanes updated one by one, and advancing -/

/-- A run of updates of distinct lanes: each lane named has its own update, the others stand. -/
theorem foldl_modLane_lane {α : Type} (key : α → Nat) (F : α → Lane → Lane) (xs : List α) (hn : (xs.map key).Nodup)
    (g : Machine.Group) :
    (∀ l, l ∉ xs.map key → (xs.foldl (fun g x => g.modLane (key x) (F x)) g).lane l = g.lane l) ∧
    (∀ x ∈ xs, key x < g.lanes.length → (xs.foldl (fun g x => g.modLane (key x) (F x)) g).lane (key x) = F x (g.lane (key x))) := by
  induction xs generalizing g with
  | nil => exact ⟨fun _ _ => rfl, fun _ h => by simp at h⟩
  | cons x xs ih =>
    rw [List.map_cons, List.nodup_cons] at hn
    obtain ⟨hx, hn⟩ := hn
    obtain ⟨ih1, ih2⟩ := ih hn (g.modLane (key x) (F x))
    have hlen : (g.modLane (key x) (F x)).lanes.length = g.lanes.length := length_modAt ..
    constructor
    · intro l hl
      rw [List.map_cons, List.mem_cons, not_or] at hl
      rw [List.foldl_cons, ih1 l hl.2, lane_modLane, if_neg fun c => hl.1 c.1]
    · intro y hy hk
      rw [List.foldl_cons]
      rcases List.mem_cons.mp hy with rfl | hy
      · rw [ih1 _ hx, lane_modLane, if_pos ⟨rfl, hk⟩]
      · have hne : key y ≠ key x := fun e => hx (e ▸ List.mem_map_of_mem hy)
        rw [ih2 y hy (by rw [hlen]; exact hk), lane_modLane, if_neg fun c => hne c.1]

/-- Updates of lanes touch the lanes alone. -/
theorem modLanes_eq (g : Machine.Group) (ls : List Nat) (f : Lane → Lane) : ∃ xs, g.modLanes ls f = { g with lanes := xs } := by
  unfold Group.modLanes
  induction ls generalizing g with
  | nil => exact ⟨g.lanes, rfl⟩
  | cons l ls ih => exact ih (g.modLane l f)

/-- Advancing touches the lanes and the gangs alone. -/
theorem advance_eq (g : Machine.Group) (gg : Gang) (n : Nat) : ∃ xs gs, g.advance gg n = { g with lanes := xs, gangs := gs } := by
  unfold Group.advance
  split
  · obtain ⟨xs, h⟩ := modLanes_eq g gg.lanes fun x => { x with latches := x.latches.map Latch.close }
    exact ⟨xs, _, by simp only [Group.closeLatches, h]; rfl⟩
  · obtain ⟨xs, h⟩ := modLanes_eq g gg.lanes fun x => { x with latches := x.latches.map Latch.tick }
    exact ⟨xs, _, by simp only [Group.ageLatches, h]; rfl⟩

theorem pend_advance (g : Machine.Group) (gg : Gang) (n : Nat) : (g.advance gg n).pend = g.pend := by
  obtain ⟨xs, gs, h⟩ := advance_eq g gg n
  rw [h]

theorem ident_advance (g : Machine.Group) (gg : Gang) (n : Nat) : (g.advance gg n).ident = g.ident := by
  obtain ⟨xs, gs, h⟩ := advance_eq g gg n
  rw [h]

theorem lpm_advance (g : Machine.Group) (gg : Gang) (n l : Nat) : ((g.advance gg n).lane l).lpm = (g.lane l).lpm :=
  (aluFrame_advance gg n ⟨keeps_refl onlyNone g, rfl⟩).1.lpm l

/-- The gang stands advanced in a state whose group has been advanced. -/
theorem advanced_of_group {t : State} {c : Cx} {n : Nat} {g : Machine.Group} (hg : g.gang? c.gg.id = some c.gg)
    (ht : t.group? c.g.ident.id = some (g.advance c.gg n)) : Advanced t c n :=
  ⟨_, _, ht, gang_advance n hg, rfl, rfl⟩

/-! ## Bytes, little-endian -/

theorem leNat_drop (bs : List Byte) (k : Nat) : leNat (bs.drop k) = leNat bs / 256 ^ k := by
  induction k generalizing bs with
  | zero => simp
  | succ k ih =>
    cases bs with
    | nil => simp [leNat]
    | cons b bs =>
      have hb : b.toNat < 256 := b.isLt
      rw [List.drop_succ_cons, ih, leNat, Nat.pow_succ', ← Nat.div_div_eq_div_mul]
      congr 1
      omega

theorem leNat_take (bs : List Byte) (k : Nat) : leNat (bs.take k) = leNat bs % 256 ^ k := by
  induction k generalizing bs with
  | zero => simp [leNat, Nat.mod_one]
  | succ k ih =>
    cases bs with
    | nil => simp [leNat]
    | cons b bs =>
      have hb : b.toNat < 256 := b.isLt
      have hd : (b.toNat + 256 * leNat bs) / 256 = leNat bs := by omega
      have hm : (b.toNat + 256 * leNat bs) % 256 = b.toNat := by omega
      rw [List.take_succ_cons, leNat, leNat, ih, Nat.pow_succ', Nat.mod_mul, hd, hm]

theorem leNat_lt (bs : List Byte) : leNat bs < 256 ^ bs.length := by
  induction bs with
  | nil => simp [leNat]
  | cons b bs ih =>
    have hb : b.toNat < 256 := b.isLt
    rw [leNat, List.length_cons, Nat.pow_succ']
    omega

/-- A word of a run of bytes. -/
theorem le32_drop (bs : List Byte) (i : Nat) : le32 (bs.drop (4 * i)) = BitVec.ofNat 32 (leNat bs / 2 ^ (32 * i)) := by
  apply BitVec.eq_of_toNat_eq
  rw [le32, wd, leNat_take, leNat_drop, show (256 : Nat) = 2 ^ 8 from rfl, ← Nat.pow_mul, ← Nat.pow_mul, ← Nat.mul_assoc]
  simp

/-- A narrow value as its register shows it (R195). -/
theorem extBytes_lo (sx : Bool) (bs : List Byte) (h0 : 0 < bs.length) (h4 : bs.length < 4) :
    (extBytes sx bs).extractLsb' 0 32 = if sx = true ∧ 2 ^ (8 * bs.length - 1) ≤ leNat bs then
      BitVec.ofInt 32 ((leNat bs : Int) - 2 ^ (8 * bs.length)) else BitVec.ofNat 32 (leNat bs) := by
  have hlt := leNat_lt bs
  unfold extBytes
  generalize leNat bs = v at hlt
  generalize bs.length = n at *
  rw [show (256 : Nat) = 2 ^ 8 from rfl, ← Nat.pow_mul] at hlt
  have hbit : v.testBit (8 * n - 1) = decide (2 ^ (8 * n - 1) ≤ v) := by
    rw [Bool.eq_iff_iff, decide_eq_true_iff]
    refine ⟨Nat.ge_two_pow_of_testBit, fun h => ?_⟩
    rw [Nat.testBit_eq_decide_div_mod_eq, decide_eq_true_iff]
    have hd : v / 2 ^ (8 * n - 1) = 1 := by
      rw [Nat.div_eq_iff (Nat.two_pow_pos _)]
      have : 2 ^ (8 * n) = 2 * 2 ^ (8 * n - 1) := by rw [← Nat.pow_succ']; congr 1; omega
      omega
    rw [hd]
  have hw : decide (8 * n < 64) = true := decide_eq_true (by omega)
  simp only [hbit, hw, Bool.and_true]
  by_cases hc : sx = true ∧ 2 ^ (8 * n - 1) ≤ v
  · rw [if_pos hc, if_pos (by simpa using hc)]
    have hp : 2 ^ (8 * n) ≤ 2 ^ 24 := Nat.pow_le_pow_right (by decide) (by omega)
    have hc : ((2 : Int) ^ (8 * n)) = ((2 ^ (8 * n) : Nat) : Int) := by simp
    rw [hc]
    generalize 2 ^ (8 * n) = p at hlt hp
    apply BitVec.eq_of_toNat_eq
    rw [BitVec.extractLsb'_toNat, dw, BitVec.toNat_ofNat, Nat.shiftRight_zero, BitVec.toNat_ofInt]
    norm_num at hp ⊢
    omega
  · rw [if_neg hc, if_neg (by simpa using hc)]
    apply BitVec.eq_of_toNat_eq
    simp [dw, BitVec.extractLsb'_toNat]

end Sys2Proof.Proofs.MachineState
end

section
namespace Sys2Proof.Proofs.MachineState
open Sys2Proof Sys2Proof.Machine Sys2Proof.Claims Sys2Proof.Laws

/-! ## Lane-private memory (R21, R195, R199) -/

theorem mCheck_ok {c : Cx} {ok : Bool} {m : MForm} {n : Nat} {rs : List Nat} (h : c.mCheck ok m n rs = .ok ()) : ok = true := by
  cases ok with
  | true => rfl
  | false => exact absurd h (by simp [Cx.mCheck, need, bind, Except.bind])

/-- The widths of a lane access. -/
theorem width_le_of_ok {sp : MSpec} {m : MForm} (hs : sp.widths = [0, 1, 2, 3, 4, 5]) (h : mOk sp m = true) : m.width.toNat ≤ 5 := by
  simp only [mOk, Bool.and_eq_true] at h
  obtain ⟨⟨⟨⟨⟨⟨⟨⟨⟨-, hw⟩, -⟩, -⟩, -⟩, -⟩, -⟩, -⟩, -⟩, -⟩ := h
  simp only [mWidthOk, hs, List.isEmpty_cons, Bool.false_eq_true, if_false, List.contains_iff_mem, List.mem_cons, List.not_mem_nil,
    or_false] at hw
  omega

/-- The registers of an access hold its bytes. -/
theorem mRegs_eq {m : MForm} (h : m.width.toNat ≤ 5) :
    0 < mRegs m ∧ 0 < mBytes m ∧ (mBytes m < 4 → mRegs m = 1) ∧ (4 ≤ mBytes m → mBytes m = 4 * mRegs m) := by
  unfold mRegs mBytes
  match m.width.toNat, h with
  | 0, _ | 1, _ | 2, _ | 3, _ | 4, _ | 5, _ => decide

/-- The addresses of an access are those of the active lanes, each in its own memory. -/
theorem lplAddrs_eq {c : Cx} {m : MForm} {as : List (Nat × DWord)} (h : c.lplAddrs m = .ok as) :
    as = c.lanes.map fun l => (l, c.laneAddr m (imm16 m) l) := by
  unfold Cx.lplAddrs at h
  simp only at h
  split at h
  · cases h
  · split at h
    · cases h
    · cases h; rfl

theorem lplAddrs_keys {c : Cx} {m : MForm} {as : List (Nat × DWord)} (h : c.lplAddrs m = .ok as) : as.map (·.1) = c.lanes := by
  rw [lplAddrs_eq h, List.map_map]
  exact List.map_id _

/-- Word i of a load goes to its target i. -/
theorem mem_wordWrites (ts : List Tgt) (bs : List Byte) (i : Nat) (t : Tgt) (h : ts[i]? = some t) :
    (t, zx64 (le32 (bs.drop (4 * i)))) ∈ wordWrites ts bs := by
  induction ts generalizing bs i with
  | nil => simp at h
  | cons u ts ih =>
    cases i with
    | zero => simp only [List.getElem?_cons_zero, Option.some.injEq] at h; subst h; exact List.mem_cons_self
    | succ i =>
      have hm := ih (bs.drop 4) i (by simpa using h)
      rw [List.drop_drop, show 4 + 4 * i = 4 * (i + 1) by omega] at hm
      exact List.mem_cons_of_mem _ hm

theorem vTgts_getElem? (g : Machine.Group) (l r n i : Nat) (h : i < n) : (g.vTgts l r n)[i]? = some (.vreg l (r + i)) := by
  rw [Group.vTgts, List.getElem?_append_left (by simpa using h)]
  simp [h]

/-- The writes of a load to vector registers, narrow and wide. -/
theorem loadWrites_vTgts (g : Machine.Group) (l r n : Nat) (sx : Bool) (bs : List Byte) (hn : 0 < n) :
    (bs.length < 4 → (.vreg l r, extBytes sx bs) ∈ loadWrites sx (g.vTgts l r n) bs) ∧
    (4 ≤ bs.length → loadWrites sx (g.vTgts l r n) bs = wordWrites (g.vTgts l r n) bs) := by
  obtain ⟨ts, hts⟩ : ∃ ts, g.vTgts l r n = .vreg l r :: ts := by
    have h0 := vTgts_getElem? g l r n 0 hn
    cases hv : g.vTgts l r n with
    | nil => rw [hv] at h0; simp at h0
    | cons t ts => rw [hv, List.getElem?_cons_zero, Option.some.injEq, Nat.add_zero] at h0; exact ⟨ts, by rw [h0]⟩
  rw [hts]
  constructor
  · intro h
    simp [loadWrites, h]
  · intro h
    simp [loadWrites, Nat.not_lt.mpr h]

/-- A load fills the registers of its lane with the value of the bytes. -/
theorem fillsLane_loadWrites {m : MForm} (g : Machine.Group) (l : Nat) (sx : Bool) (bs : List Byte) (hw : m.width.toNat ≤ 5)
    (hb : bs.length = mBytes m) :
    fillsLane (loadWrites sx (g.vTgts l m.vd.toNat (mRegs m)) bs) l m.vd.toNat (loadedWords (mBytes m) sx (leNat bs)) := by
  obtain ⟨hr, h0, h1, hwide⟩ := mRegs_eq hw
  obtain ⟨narrow, wide⟩ := loadWrites_vTgts g l m.vd.toNat (mRegs m) sx bs hr
  intro i w hi
  unfold loadedWords at hi
  split at hi
  · next h4 =>
    cases i with
    | succ i => simp at hi
    | zero =>
      refine ⟨_, narrow (hb ▸ h4), ?_⟩
      rw [extBytes_lo sx bs (hb ▸ h0) (hb ▸ h4), hb]
      simpa using hi
  · next h4 =>
    obtain ⟨hlt, rfl⟩ : i < mBytes m / 4 ∧ BitVec.ofNat 32 (leNat bs / 2 ^ (32 * i)) = w := by
      obtain ⟨hl, e⟩ := List.getElem?_eq_some_iff.mp hi
      exact ⟨by simpa using hl, by simpa using e⟩
    have hreg := hwide (by omega)
    refine ⟨zx64 (le32 (bs.drop (4 * i))), ?_, ?_⟩
    · rw [wide (by omega)]
      exact mem_wordWrites _ _ _ _ (vTgts_getElem? g l _ _ _ (by omega))
    · rw [le32_drop]
      exact lo32_zeroExtend _

theorem addPend_pend (g : Machine.Group) (o : PendOp) : (g.addPend o).pend = g.pend ++ [o] := rfl

/-- An instruction with no operation of its own that returns its results at once: its group gains an operation that waits for
nothing and holds them. -/
theorem group_result {s : State} {c : Cx} {ws : List (Tgt × DWord)} (h : s.cx? = some c) (ho : c.gg.op = none) :
    ∃ g', (c.result s ws).group? c.g.ident.id = some g' ∧ (∃ sb ps, g' = { c.g with sb := sb, pend := ps }) ∧
      ∃ o ∈ g'.pend, o.waiting = 0 ∧ o.writes = ws := by
  obtain ⟨-, hg, -⟩ := cx_parts h
  let new : PendOp := ⟨s.nextId, c.gg.setEntry, 1, [], []⟩
  have h1 := group_modGroup_self (s := { s with nextId := s.nextId + 1 }) (fun g => g.addPend new) (fun _ => rfl) hg
  have h2 := group_modGroup_self (fun g => (g.addWrites s.nextId ws).opPart s.nextId) (fun _ => rfl) h1
  have e : c.result s ws = (({ s with nextId := s.nextId + 1 }.modGroup c.g.ident.id fun g => g.addPend new).modGroup c.g.ident.id
      fun g => (g.addWrites s.nextId ws).opPart s.nextId) := by
    simp only [Cx.result, Cx.openOp, ho, State.fresh]; rfl
  refine ⟨_, e ▸ h2, ⟨_, _, rfl⟩, { new with waiting := 0, writes := ws }, ?_, rfl, rfl⟩
  simp only [Group.addWrites, Group.modOp, addPend_pend, List.map_append, List.map_map]
  refine List.mem_append_right _ ?_
  simp [new, PendOp.add]

/-- A lane-private load. -/
theorem vLdl_done {s : State} {c : Cx} {m : MForm} {as : List (Nat × DWord)} (h : s.cx? = some c) (hcl : c.g.tx.close = none)
    (ha : c.lplAddrs m = .ok as) (hc : c.mCheck (vLdlOk m) m (mRegs m) [] = .ok ()) (ho : c.gg.op = none) :
    groupAfter (exec (.vLdl m) s) c.g.ident.id fun t g' => Advanced t c 2 ∧
      (∀ l, (g'.lane l).lpm = (c.g.lane l).lpm) ∧
      Returns g' fun ws => ∀ a ∈ as, fillsLane ws a.1 m.vd.toNat
        (loadedWords (mBytes m) (m.tag == 1) (leNat (Mem.readN (c.g.lane a.1).lpm a.2.toNat (mBytes m)))) := by
  have hw : m.width.toNat ≤ 5 := by
    have hok := mCheck_ok hc
    simp only [vLdlOk, Bool.and_eq_true] at hok
    exact width_le_of_ok rfl hok.1.1
  obtain ⟨-, -, hgang, -⟩ := cx_parts h
  let ws := as.flatMap fun a => loadWrites (m.tag == 1) (c.g.vTgts a.1 m.vd.toNat (mRegs m))
    (Mem.readN (c.g.lane a.1).lpm a.2.toNat (mBytes m))
  obtain ⟨g', hg', ⟨sb, ps, rfl⟩, o, ho1, ho2, ho3⟩ := group_result (ws := ws) h ho
  have hstep : exec (.vLdl m) s = .next ((c.result s ws).modGroup c.g.ident.id fun g => g.advance c.gg 2) := by
    show execVLdl m s = _
    simp only [execVLdl, issue_cx h, hc, hcl, ha, cx_s h]
    rfl
  have hfin := group_modGroup_self (fun g => g.advance c.gg 2) (fun g => by rw [ident_advance]) hg'
  refine ⟨_, _, hstep, hfin, advanced_of_group (g := { c.g with sb := sb, pend := ps }) hgang hfin,
    fun l => lpm_advance _ _ _ _, o, ?_, ho2, fun a hmem => ?_⟩
  · rw [pend_advance]; exact ho1
  · rw [ho3]
    have hf := fillsLane_loadWrites c.g a.1 (m.tag == 1) (Mem.readN (c.g.lane a.1).lpm a.2.toNat (mBytes m)) hw (length_readN ..)
    intro i w hi
    obtain ⟨d, hd, e⟩ := hf i w hi
    exact ⟨d, List.mem_flatMap.mpr ⟨a, hmem, hd⟩, e⟩

/-! ### Stores -/

/-- Byte i of the words of registers, each of 4 bytes. -/
theorem getD_flatMap_leBytes (f : Nat → Word) (n i : Nat) (h : i < 4 * n) :
    ((List.range n).flatMap fun k => leBytes 4 (f k).toNat).getD i 0 = (f (i / 4)).extractLsb' (8 * (i % 4)) 8 := by
  induction n generalizing f i with
  | zero => omega
  | succ n ih =>
    rw [List.range_succ_eq_map, List.flatMap_cons, List.flatMap_map]
    by_cases h4 : i < 4
    · have hb := getD_leBytes 4 (f 0).toNat i h4
      rw [List.getD_append _ _ _ _ (by rw [length_leBytes]; exact h4), hb, Nat.div_eq_of_lt h4, Nat.mod_eq_of_lt h4]
      apply BitVec.eq_of_toNat_eq
      rw [BitVec.extractLsb'_toNat, BitVec.toNat_ofNat, Nat.shiftRight_eq_div_pow, show (256 : Nat) = 2 ^ 8 from rfl, ← Nat.pow_mul]
    · rw [List.getD_append_right _ _ _ _ (by rw [length_leBytes]; omega), length_leBytes, ih (fun k => f (k + 1)) (i - 4) (by omega)]
      rw [show (i - 4) / 4 + 1 = i / 4 by omega, show (i - 4) % 4 = i % 4 by omega]

theorem length_flatMap_leBytes (f : Nat → Word) (n : Nat) :
    ((List.range n).flatMap fun k => leBytes 4 (f k).toNat).length = 4 * n := by
  simp [List.length_flatMap, length_leBytes, Nat.mul_comm]

/-- The bytes that an access stores are those of its registers. -/
theorem regBytes_eq {m : MForm} (g : Machine.Group) (l : Nat) (hw : m.width.toNat ≤ 5) :
    (g.regBytes l m.vd.toNat (mRegs m) (mBytes m)).length = mBytes m ∧
    ∀ i < mBytes m, (g.regBytes l m.vd.toNat (mRegs m) (mBytes m)).getD i 0 = regByte g l m.vd.toNat i := by
  obtain ⟨-, -, h1, h4⟩ := mRegs_eq hw
  have hfit : mBytes m ≤ 4 * mRegs m := by
    by_cases h : mBytes m < 4
    · have := h1 h; omega
    · have := h4 (Nat.not_lt.mp h); omega
  constructor
  · rw [Group.regBytes, List.length_take, length_flatMap_leBytes]
    omega
  · intro i hi
    rw [Group.regBytes, List.getD_eq_getElem?_getD, List.getElem?_take, if_pos hi, ← List.getD_eq_getElem?_getD,
      getD_flatMap_leBytes (fun k => (g.lane l).vreg (m.vd.toNat + k)) _ _ (by omega)]
    rfl

/-- A lane's own memory with the bytes of a store put in. -/
def storeLpm (c : Cx) (m : MForm) (a : Nat × DWord) (x : Lane) : Lane :=
  { x with lpm := Mem.writeN x.lpm a.2.toNat (c.g.regBytes a.1 m.vd.toNat (mRegs m) (mBytes m)) }

/-- A lane-private store. -/
theorem vStl_done {s : State} {c : Cx} {m : MForm} {as : List (Nat × DWord)} (h : s.cx? = some c) (hcl : c.g.tx.close = none)
    (ha : c.lplAddrs m = .ok as) (hc : c.mCheck (vStlOk m) m (mRegs m) [] = .ok ()) (hwf : ∀ l, Mem.wf (c.g.lane l).lpm = true) :
    groupAfter (exec (.vStl m) s) c.g.ident.id fun t g' => Advanced t c 2 ∧
      (∀ a ∈ as, ∀ i < mBytes m, Mem.read (g'.lane a.1).lpm (a.2.toNat + i) = regByte c.g a.1 m.vd.toNat i) ∧
      ∀ l x, (∀ a ∈ as, a.1 = l → ¬ (a.2.toNat ≤ x ∧ x < a.2.toNat + mBytes m)) →
        Mem.read (g'.lane l).lpm x = Mem.read (c.g.lane l).lpm x := by
  have hw : m.width.toNat ≤ 5 := by
    have hok := mCheck_ok hc
    simp only [vStlOk, Bool.and_eq_true] at hok
    exact width_le_of_ok rfl hok.1
  obtain ⟨-, hg, hgang, -⟩ := cx_parts h
  let stored (g : Machine.Group) : Machine.Group := as.foldl (fun g a => g.modLane a.1 (storeLpm c m a)) g
  have hstep : exec (.vStl m) s = .next (s.modGroup c.g.ident.id fun g => (stored g).advance c.gg 2) := by
    show execVStl m s = _
    simp only [execVStl, issue_cx h, hc, hcl, ha]
    rfl
  have hkeep (g : Machine.Group) : (stored g).ident = g.ident ∧ (stored g).gangs = g.gangs := by
    have : ∀ (xs : List (Nat × DWord)) (g : Machine.Group), (xs.foldl (fun g a => g.modLane a.1 (storeLpm c m a)) g).ident = g.ident ∧
        (xs.foldl (fun g a => g.modLane a.1 (storeLpm c m a)) g).gangs = g.gangs := by
      intro xs
      induction xs with
      | nil => exact fun g => ⟨rfl, rfl⟩
      | cons a xs ih => exact fun g => ih _
    exact this as g
  have hfin := group_modGroup_self (fun g => (stored g).advance c.gg 2) (fun g => by rw [ident_advance, (hkeep g).1]) hg
  have hgang' : (stored c.g).gang? c.gg.id = some c.gg := by rw [Group.gang?, (hkeep c.g).2]; exact hgang
  obtain ⟨hother, hown⟩ := foldl_modLane_lane (fun a : Nat × DWord => a.1) (storeLpm c m) as
    (by rw [lplAddrs_keys ha]; exact lanesOf_nodup _ _) c.g
  have hlpm (a : Nat × DWord) (hmem : a ∈ as) : ((stored c.g).lane a.1).lpm =
      Mem.writeN (c.g.lane a.1).lpm a.2.toNat (c.g.regBytes a.1 m.vd.toNat (mRegs m) (mBytes m)) := by
    have hin : a.1 ∈ c.lanes := lplAddrs_keys ha ▸ List.mem_map_of_mem hmem
    rw [show (stored c.g).lane a.1 = _ from hown a hmem (active_lt c _ hin)]
    rfl
  obtain ⟨hlen, hbyte⟩ : (∀ a : Nat × DWord, (c.g.regBytes a.1 m.vd.toNat (mRegs m) (mBytes m)).length = mBytes m) ∧ _ :=
    ⟨fun a => (regBytes_eq c.g a.1 hw).1, fun a : Nat × DWord => (regBytes_eq c.g a.1 hw).2⟩
  refine ⟨_, _, hstep, hfin, advanced_of_group hgang' hfin, fun a hmem i hi => ?_, fun l x hx => ?_⟩
  · rw [lpm_advance, hlpm a hmem, read_writeN (hwf a.1), hlen, if_pos ⟨Nat.le_add_right _ _, by omega⟩, Nat.add_sub_cancel_left]
    exact hbyte a i hi
  · rw [lpm_advance]
    by_cases hl : l ∈ as.map (·.1)
    · obtain ⟨a, hmem, rfl⟩ := List.mem_map.mp hl
      rw [hlpm a hmem, read_writeN (hwf a.1), hlen, if_neg (hx a hmem rfl)]
    · rw [show (stored c.g).lane l = _ from hother l hl]

/-- Settles O22: the load's results stand in the operation that it opens, the store's in the memory of each active lane. -/
theorem lanePrivateAccess : Obligations.LanePrivateAccess :=
  fun _ _ _ _ h hcl ha => ⟨vLdl_done h hcl ha, vStl_done h hcl ha⟩

end Sys2Proof.Proofs.MachineState
end

section
namespace Sys2Proof.Proofs.MachineState
open Sys2Proof Sys2Proof.Machine Sys2Proof.Claims Sys2Proof.Laws

/-! ## part: the records (R26, R141) -/

/-- The record that `part` pushes for a slice. -/
def partRec (gg : Gang) (h : DWord) (em : Word) (j : Nat) : PartRec := ⟨h, gg.fmt, BitVec.ofNat 4 (nbits em.toNat (4 * j) 4)⟩

theorem getLsbD_partRec (gg : Gang) (h : DWord) (em : Word) (j i : Nat) (hi : i < 4) :
    (partRec gg h em j).em.getLsbD i = em.getLsbD (4 * j + i) := by
  simp only [partRec, nbits, BitVec.getLsbD_ofNat, Nat.testBit_mod_two_pow, Nat.testBit_div_two_pow, decide_eq_true hi, Bool.true_and]
  rw [Nat.add_comm]
  rfl

/-- The records pushed for some slices, each once: only their stacks change. -/
theorem pushRecs_fold (gg : Gang) (h : DWord) (js : List Nat) (hn : js.Nodup) (g : Machine.Group) :
    ∃ ps, js.foldl (fun (g : Machine.Group) j =>
        { g with parts := modAt g.parts j fun ps => ⟨h, gg.fmt, BitVec.ofNat 4 (nbits g.emRead.toNat (4 * j) 4)⟩ :: ps }) g =
          { g with parts := ps } ∧
      ∀ j, ps.getD j [] = if j ∈ js ∧ j < g.parts.length then partRec gg h g.emRead j :: g.parts.getD j [] else g.parts.getD j [] := by
  induction js generalizing g with
  | nil => exact ⟨g.parts, rfl, fun j => by simp⟩
  | cons k js ih =>
    rw [List.nodup_cons] at hn
    obtain ⟨ps, e, hps⟩ := ih hn.2 { g with parts := modAt g.parts k fun ps => partRec gg h g.emRead k :: ps }
    refine ⟨ps, e, fun j => ?_⟩
    rw [hps j]
    simp only [length_modAt, getD_modAt]
    by_cases hk : j = k
    · subst hk
      rw [if_neg fun c => hn.1 c.1]
      simp
    · have hem : ({ g with parts := modAt g.parts k fun ps => partRec gg h g.emRead k :: ps } : Machine.Group).emRead = g.emRead := rfl
      simp [hk, hem]

theorem pushRecs_eq (g : Machine.Group) (gg : Gang) (h : DWord) (hn : gg.slices.Nodup) :
    ∃ ps, g.pushRecs gg h = { g with parts := ps } ∧
      ∀ j, ps.getD j [] = if j ∈ gg.slices ∧ j < g.parts.length then partRec gg h g.emRead j :: g.parts.getD j []
        else g.parts.getD j [] :=
  pushRecs_fold gg h gg.slices hn g

/-! ## part: the gangs -/

/-- With no gang at a hinge no rendezvous is complete. -/
theorem settleHinges_eq {s : State} {gid : Nat} {g : Machine.Group} (hg : s.group? gid = some g)
    (h : ∀ x ∈ g.gangs, x.park ≠ some .hinge) : s.settleHinges gid = s := by
  have he : g.atHinge = [] := by
    unfold Group.atHinge
    rw [List.filter_eq_nil_iff.mpr fun x hx => by simpa using h x hx]
    rfl
  simp only [State.settleHinges, hg, he, List.foldl_nil]

theorem isHeader_eq {w : Word} (h : w.extractLsb' 28 4 = 0xE#4) : isHeader w = true := by
  rw [isHeader, fld, h]; rfl

/-- A target that holds a header is gone on to. -/
theorem withTarget_header {c : Cx} {va : DWord} {k : Cx → Res} (h : headerAt c va c.s) : c.withTarget va k = k c := by
  obtain ⟨w, pa, hf, hw⟩ := h
  simp only [Cx.withTarget, hf, isHeader_eq hw]
  rfl

theorem addrCheck_ok {va : DWord} (h : plainAddress va) : addrCheck va = .ok () := by
  obtain ⟨hc, ha⟩ := h
  simp [addrCheck, hc, ha]

theorem keeps_closeLatches (a : Allow) (g : Machine.Group) (gg : Gang) :
    Keeps a g (g.closeLatches gg) ∧ (g.closeLatches gg).gangs = g.gangs := keeps_modLanes_latches a g gg.lanes Latch.close

theorem parts_closeLatches (g : Machine.Group) (gg : Gang) : (g.closeLatches gg).parts = g.parts :=
  (keeps_closeLatches onlyNone g gg).1.parts

/-- A gang changed by its number. -/
theorem mem_modGang {g : Machine.Group} {gg : Gang} {f : Gang → Gang} (h : g.gang? gg.id = some gg) :
    f gg ∈ (g.modGang gg.id f).gangs :=
  List.mem_map.mpr ⟨gg, List.mem_of_find?_eq_some h, if_pos rfl⟩

/-- No gang is at a hinge after a change of one that leaves it not parked. -/
theorem modGang_no_hinge {g : Machine.Group} {k : Nat} {f : Gang → Gang} (hf : ∀ x, (f x).park = none)
    (h : ∀ x ∈ g.gangs, x.park ≠ some .hinge) : ∀ x ∈ (g.modGang k f).gangs, x.park ≠ some .hinge := by
  intro x hx
  obtain ⟨y, hy, rfl⟩ := List.mem_map.mp hx
  split
  · rw [hf]; nofun
  · exact h y hy

/-- The slices of `go` at `va` and those of `stay` at `next`, where there are any. -/
def DividedGangs (c : Cx) (next va : DWord) (go stay : List Nat) (g' : Machine.Group) : Prop :=
  (go ≠ [] → ∃ x ∈ g'.gangs, x.slices = go ∧ x.pc = va ∧ x.fmt = c.gg.fmt) ∧
  (stay ≠ [] → ∃ x ∈ g'.gangs, x.slices = stay ∧ x.pc = next ∧ x.fmt = c.gg.fmt)

/-- The group that a division leaves: its records pushed, its gangs divided, and nothing else changed. -/
def Divided (c : Cx) (hv va : DWord) (go stay : List Nat) (g' : Machine.Group) : Prop :=
  Keeps onlyNone (c.g.pushRecs c.gg hv) g' ∧ DividedGangs c (c.gg.pc + 4) va go stay g'

/-- The group that takes the place of another one with no gang at a hinge. -/
theorem settled_group {s : State} {gid : Nat} {g : Machine.Group} {f : Machine.Group → Machine.Group} (hg : s.group? gid = some g)
    (hf : ∀ g, (f g).ident.id = g.ident.id) (hh : ∀ x ∈ (f g).gangs, x.park ≠ some .hinge) :
    ((s.modGroup gid f).settleHinges gid).group? gid = some (f g) := by
  have h1 := group_modGroup_self f hf hg
  rw [settleHinges_eq h1 hh, h1]

section
variable {s : State} {c : Cx} {hv va : DWord} {P : Nat → Bool} (h : s.cx? = some c) (hn : c.gg.slices.Nodup)
  (hh : ∀ x ∈ c.g.gangs, x.park ≠ some .hinge)
include h hn hh

/-- `part` with slices that go and slices that stay, or all of one kind. -/
theorem divide_done : groupAfter (c.divide hv va (c.gg.slices.filter P)) c.g.ident.id fun _ g' =>
    Divided c hv va (c.gg.slices.filter P) (c.gg.slices.filter fun j => !P j) g' := by
  obtain ⟨-, hg, hgang, -⟩ := cx_parts h
  have push (g : Machine.Group) : ∃ ps, g.pushRecs c.gg hv = { g with parts := ps } := by
    obtain ⟨ps, e, -⟩ := pushRecs_eq g c.gg hv hn
    exact ⟨ps, e⟩
  have hid (g : Machine.Group) : (g.pushRecs c.gg hv).ident = g.ident := by
    obtain ⟨ps, e⟩ := push g; rw [e]
  have hgangs : (c.g.pushRecs c.gg hv).gangs = c.g.gangs := by
    obtain ⟨ps, e⟩ := push c.g; rw [e]
  have hself : (c.g.pushRecs c.gg hv).gang? c.gg.id = some c.gg := by rw [Group.gang?, hgangs]; exact hgang
  have hstay : (c.gg.slices.filter fun j => !(c.gg.slices.filter P).contains j) = c.gg.slices.filter fun j => !P j :=
    List.filter_congr fun j hj => by simp [List.contains_eq_mem, hj]
  have hnone : ∀ x ∈ (c.g.pushRecs c.gg hv).gangs, x.park ≠ some .hinge := by rw [hgangs]; exact hh
  have close (g : Machine.Group) := keeps_closeLatches onlyNone g c.gg
  have hself' : ((c.g.pushRecs c.gg hv).closeLatches c.gg).gang? c.gg.id = some c.gg := by rw [Group.gang?, (close _).2]; exact hself
  have hnone' : ∀ x ∈ ((c.g.pushRecs c.gg hv).closeLatches c.gg).gangs, x.park ≠ some .hinge := by rw [(close _).2]; exact hnone
  simp only [Cx.divide, hstay, cx_s h]
  by_cases h1 : (c.gg.slices.filter fun j => !P j) = []
  · have hall : c.gg.slices.filter P = c.gg.slices := by
      rw [List.filter_eq_self]
      intro j hj
      simpa using List.filter_eq_nil_iff.mp h1 j hj
    rw [if_pos (by rw [h1]; rfl)]
    refine ⟨_, _, rfl, settled_group hg (fun g => ?_) ?_, ?_, fun _ => ?_, fun hs => absurd h1 hs⟩
    · show ((g.pushRecs c.gg hv).closeLatches c.gg).ident.id = _
      rw [(close _).1.ident, hid]
    · exact modGang_no_hinge (fun _ => rfl) hnone'
    · exact keeps_trans (close _).1 { keeps_refl onlyNone _ with }
    · exact ⟨_, mem_modGang hself', hall.symm, rfl, rfl⟩
  · rw [if_neg (by simpa using h1)]
    by_cases h2 : c.gg.slices.filter P = []
    · have hall : (c.gg.slices.filter fun j => !P j) = c.gg.slices := by
        rw [List.filter_eq_self]
        intro j hj
        simpa using List.filter_eq_nil_iff.mp h2 j hj
      rw [if_pos (by rw [h2]; rfl)]
      have hadv := aluFrame_advance c.gg 1 ⟨keeps_refl onlyNone (c.g.pushRecs c.gg hv), rfl⟩
      refine ⟨_, _, rfl, settled_group hg (fun g => by rw [ident_advance, hid]) ?_, hadv.1, fun hs => absurd h2 hs, fun _ => ?_⟩
      · show ∀ x ∈ ((c.g.pushRecs c.gg hv).advance c.gg 1).gangs, _
        rw [hadv.2]
        exact modGang_no_hinge (g := c.g.pushRecs c.gg hv) (fun _ => rfl) hnone
      · exact ⟨c.gg.advance 1, List.mem_of_find?_eq_some (gang_advance 1 hself), hall.symm, rfl, rfl⟩
    · rw [if_neg (by simpa using h2)]
      have hg' : (s.fresh.2).group? c.g.ident.id = some c.g := hg
      refine ⟨_, _, rfl, settled_group hg' (fun g => ?_) ?_, ?_, fun _ => ?_, fun _ => ?_⟩
      · show ((g.pushRecs c.gg hv).closeLatches c.gg).ident.id = _
        rw [(close _).1.ident, hid]
      · intro x hx
        rcases List.mem_append.mp hx with hx | hx
        · exact modGang_no_hinge (fun _ => rfl) hnone' x hx
        · rw [List.mem_singleton.mp hx]; nofun
      · exact keeps_trans (close _).1 { keeps_refl onlyNone _ with }
      · exact ⟨_, List.mem_append_right _ (List.mem_singleton_self _), rfl, rfl, rfl⟩
      · exact ⟨_, List.mem_append_left _ (mem_modGang hself'), rfl, rfl, rfl⟩

end

/-- What a division pushed stands on the stacks of the gang's slices alone. -/
theorem parts_of_divided {c : Cx} {hv va : DWord} {go stay : List Nat} {g' : Machine.Group} (hn : c.gg.slices.Nodup)
    (h : Divided c hv va go stay g') : OnlyParts c.g g' ∧
      (∀ j ∈ c.gg.slices, j < c.g.parts.length → ∃ e : BitVec 4, (∀ i < 4, e.getLsbD i = c.g.emRead.getLsbD (4 * j + i)) ∧
        g'.parts.getD j [] = ⟨hv, c.gg.fmt, e⟩ :: c.g.parts.getD j []) ∧
      ∀ j, j ∉ c.gg.slices → g'.parts.getD j [] = c.g.parts.getD j [] := by
  obtain ⟨ps, e, hps⟩ := pushRecs_eq c.g c.gg hv hn
  have k := h.1
  rw [e] at k
  refine ⟨{ k with parts := rfl }, fun j hj hl => ?_, fun j hj => ?_⟩
  · refine ⟨(partRec c.gg hv c.g.emRead j).em, fun i hi => getLsbD_partRec _ _ _ _ _ hi, ?_⟩
    rw [k.parts]
    exact (hps j).trans (if_pos ⟨hj, hl⟩)
  · rw [k.parts]
    exact (hps j).trans (if_neg fun c => hj c.1)

/-! ## part: its checks -/

theorem wCheck_ok {c : Cx} {ok : Bool} {regs : List Nat} (hok : ok = true) (hp : c.gg.pfx = []) (hr : ∀ r ∈ regs, c.sregOk r = true) :
    c.wCheck ok regs = .ok () := by
  have h : c.sregsOk regs = true := List.all_eq_true.mpr hr
  simp only [Cx.wCheck, hok, hp, h]
  rfl

/-- An instruction of one word under its checks. -/
theorem ctl_ok {s : State} {c : Cx} {ok : Bool} {regs : List Nat} {k : Cx → Res} (h : s.cx? = some c) (hok : ok = true)
    (hp : c.gg.pfx = []) (hr : ∀ r ∈ regs, c.sregOk r = true) : ctl s ok regs k = k c := by
  simp only [ctl, issue_cx h, wCheck_ok hok hp hr]

/-- A full stack traps. -/
theorem part_full {s : State} {c : Cx} {m h : BitVec 6} (all : BitVec 1) (toff : BitVec 11) (hx : s.cx? = some c) (hp : c.gg.pfx = [])
    (hm : c.sregOk m.toNat = true) (hh : c.sregOk h.toNat = true) (hd : ∃ j ∈ c.gg.slices, 8 ≤ (c.g.parts.getD j []).length) :
    exec (.part m h all toff) s = c.trap { code := .partDepth } := by
  have hany : (c.gg.slices.any fun j => decide (c.g.depth j ≥ 8)) = true := by
    obtain ⟨j, hj, h8⟩ := hd
    exact List.any_eq_true.mpr ⟨j, hj, decide_eq_true h8⟩
  show execPart m h all toff s = _
  rw [execPart, ctl_ok hx rfl hp (by simp [hm, hh])]
  exact if_pos hany

/-- With room on every stack, the gang divides where each target that slices go to holds a header. -/
theorem part_divide {s : State} {c : Cx} {m h : BitVec 6} {all : BitVec 1} {toff : BitVec 11} (hx : s.cx? = some c)
    (hp : c.gg.pfx = []) (hm : c.sregOk m.toNat = true) (hh : c.sregOk h.toNat = true)
    (hd : ∀ j ∈ c.gg.slices, (c.g.parts.getD j []).length < 8) (ha : plainAddress (c.g.readS h.toNat))
    (hgo : c.gg.slices.filter (c.partGoes (c.g.readS m.toNat) (all == 1)) ≠ [] → headerAt c (c.target toff) c.s)
    (hstay : (c.gg.slices.filter fun j => !c.partGoes (c.g.readS m.toNat) (all == 1) j) ≠ [] → headerAt c c.next c.s) :
    exec (.part m h all toff) s = c.divide (c.g.readS h.toNat) (c.target toff)
      (c.gg.slices.filter (c.partGoes (c.g.readS m.toNat) (all == 1))) := by
  have hany : ¬ (c.gg.slices.any fun j => decide (c.g.depth j ≥ 8)) = true := by
    rw [List.any_eq_true]
    rintro ⟨j, hj, h8⟩
    exact absurd (hd j hj) (Nat.not_lt.mpr (of_decide_eq_true h8))
  show execPart m h all toff s = _
  rw [execPart, ctl_ok hx rfl hp (by simp [hm, hh])]
  refine (if_neg hany).trans ?_
  simp only [addrCheck_ok ha]
  generalize hP : c.partGoes (c.g.readS m.toNat) (all == 1) = P at hgo hstay ⊢
  have sent : (if (c.gg.slices.filter P).isEmpty then c.divide (c.g.readS h.toNat) (c.target toff) (c.gg.slices.filter P)
      else c.withTarget (c.target toff) fun c => c.divide (c.g.readS h.toNat) (c.target toff) (c.gg.slices.filter P)) =
        c.divide (c.g.readS h.toNat) (c.target toff) (c.gg.slices.filter P) := by
    split
    · rfl
    · next he => exact withTarget_header (hgo (by simpa using he))
  split
  · exact sent
  · next hl =>
    have hs : (c.gg.slices.filter fun j => !P j) ≠ [] := by
      intro hs
      refine hl ?_
      rw [List.filter_eq_self.mpr fun j hj => by simpa using List.filter_eq_nil_iff.mp hs j hj]
      exact beq_self_eq_true _
    exact (withTarget_header (hstay hs)).trans sent

/-- Settles O31: the depth check, then the division of the gang with the records pushed. -/
theorem partDivides : Obligations.PartDivides := by
  intro s c m h all toff hx hp hm hh hn _ hno hv next va act bit goes go stay
  refine ⟨part_full all toff hx hp hm hh, fun hd ha hgo hstay => ?_⟩
  have hP : c.partGoes (c.g.readS m.toNat) (all == 1) = goes := by
    funext j
    simp only [Cx.partGoes, goes, act, bit, beq_iff_eq]
  have e := part_divide (m := m) (all := all) (toff := toff) hx hp hm hh hd ha
    (by rw [hP, cx_s hx]; exact hgo) (by rw [hP, cx_s hx]; exact hstay)
  rw [e, hP]
  obtain ⟨t, g', h1, h2, h3⟩ := divide_done (hv := hv) (va := va) (P := goes) hx hn hno
  obtain ⟨p1, p2, p3⟩ := parts_of_divided hn h3
  exact ⟨t, g', h1, h2, p1, p2, p3, h3.2⟩

end Sys2Proof.Proofs.MachineState
end

section
namespace Sys2Proof.Proofs.MachineState
open Sys2Proof Sys2Proof.Machine Sys2Proof.Claims Sys2Proof.Laws

/-! ## Launches, dies and wired barriers under updates -/

theorem launch_id {s : State} {k : Nat} {l : Launch} (h : s.launch? k = some l) : l.id = k := by
  simpa using List.find?_some h

theorem launch_modLaunch (s : State) (i k : Nat) (f : Launch → Launch) (h : ∀ l, (f l).id = l.id) :
    (s.modLaunch i f).launch? k = (s.launch? k).map fun l => if l.id = i then f l else l :=
  find_map_id (fun l : Launch => l.id) f i k h s.launches

theorem launch_modLaunch_self {s : State} {k : Nat} {l : Launch} (f : Launch → Launch) (h : ∀ l, (f l).id = l.id)
    (hl : s.launch? k = some l) : (s.modLaunch k f).launch? k = some (f l) := by
  rw [launch_modLaunch s k k f h, hl]; simp [launch_id hl]

/-- Some updates of states touch the wired barriers alone. -/
def OnlyWbars (s t : State) : Prop := ∃ ws, t = { s with wbars := ws }

theorem onlyWbars_refl (s : State) : OnlyWbars s s := ⟨s.wbars, rfl⟩

theorem onlyWbars_foldl {α : Type} (f : State → α → State) (h : ∀ s x, OnlyWbars s (f s x)) (xs : List α) (s : State) :
    OnlyWbars s (xs.foldl f s) := by
  induction xs generalizing s with
  | nil => exact onlyWbars_refl s
  | cons x xs ih =>
    obtain ⟨ws, e⟩ := h s x
    obtain ⟨ws', e'⟩ := ih (f s x)
    exact ⟨ws', by rw [List.foldl_cons, e', e]⟩

theorem onlyWbars_latchWbars (s : State) : OnlyWbars s s.latchWbars := by
  refine onlyWbars_foldl _ (fun s n => ?_) _ s
  unfold State.latchWbar
  split
  · exact onlyWbars_refl s
  · split
    · exact ⟨_, rfl⟩
    · exact onlyWbars_refl s

theorem onlyWbars_noteWbars (s : State) : OnlyWbars s s.noteWbars := by
  refine onlyWbars_foldl _ (fun s n => ?_) _ s
  simp only
  split
  · exact onlyWbars_refl s
  · exact ⟨_, rfl⟩

/-- A rest of the islands touches power alone. -/
theorem restIslands_eq (s : State) (d : DieId) : ∃ f : Die → PowerState, s.restIslands d = s.modDie d fun x => { x with power := f x } :=
  ⟨fun x => { x.power with islands := x.power.islands.zipIdx.map fun i => if s.islandBusy d i.2 then i.1 else { i.1 with on := false } },
    rfl⟩

/-! ## Placing teams (R41, R305, R306) -/

/-- A group as it starts at dispatch, of the team `uid`. -/
def StartsGroup (l : Launch) (uid : Nat) (e : Nat × Role × Nat × Nat × Nat) (g : Machine.Group) : Prop :=
  g.ident.team = uid ∧ g.ident.idx = e.1 ∧ g.ident.role = e.2.1 ∧ g.ident.quad = e.2.2.1 ∧
    ∃ y ∈ g.gangs, y.pc = l.khdr + 64 ∧ y.fmt = l.hdr.fmt ∧ y.slices = List.range (l.hdr.width / 4)

/-- A team that stands in the machine with every group of the header. -/
def StartsTeam (l : Launch) (ts : List Team) (gs : List Machine.Group) (k : Nat) : Prop :=
  ∃ u ∈ ts, u.launch = l.id ∧ u.teamId = k ∧ u.die = l.die ∧ u.spadBytes = l.hdr.spad ∧
    ∀ e ∈ l.hdr.layout, ∃ g ∈ gs, StartsGroup l u.id e g

theorem groupsInit_starts (l : Launch) (uid teamId cl core n : Nat) (e : Nat × Role × Nat × Nat × Nat) (he : e ∈ l.hdr.layout) :
    ∃ g ∈ l.groupsInit uid teamId cl core n, StartsGroup l uid e g := by
  obtain ⟨i, hi, rfl⟩ := List.getElem_of_mem he
  have hz : (l.hdr.layout[i], i) ∈ l.hdr.layout.zipIdx := List.mem_zipIdx_iff_getElem?.mpr (List.getElem?_eq_getElem hi)
  refine ⟨_, List.mem_map_of_mem hz, rfl, rfl, rfl, rfl, _, List.mem_singleton_self _, rfl, rfl, rfl⟩

/-- More teams and groups stand beside those that have started. -/
theorem startsTeam_mono {l : Launch} {ts ts' : List Team} {gs gs' : List Machine.Group} {k : Nat} (h : StartsTeam l ts gs k)
    (ht : ∀ u ∈ ts, u ∈ ts') (hg : ∀ g ∈ gs, ∃ g' ∈ gs', g'.ident = g.ident ∧ g'.gangs = g.gangs) : StartsTeam l ts' gs' k := by
  obtain ⟨u, hu, h1, h2, h3, h4, h5⟩ := h
  refine ⟨u, ht u hu, h1, h2, h3, h4, fun e he => ?_⟩
  obtain ⟨g, hgm, p⟩ := h5 e he
  obtain ⟨g', hgm', i1, i2⟩ := hg g hgm
  refine ⟨g', hgm', ?_⟩
  simpa only [StartsGroup, i1, i2] using p

theorem addTeam_eq (l : Launch) (s : State) (uid k core : Nat) (set : List Nat) : ∃ nid t gs, s.addTeam l uid k core set =
    { s with nextId := nid, teams := s.teams ++ [t], groups := s.groups ++ gs } ∧ StartsTeam l [t] gs k :=
  ⟨_, _, _, rfl, _, List.mem_singleton_self _, rfl, rfl, rfl, rfl, fun e he => groupsInit_starts l _ _ _ _ _ e he⟩

/-- Members placed one after another: their teams and groups are added, and nothing else changes but the numbers given out. -/
theorem addTeams_eq (l : Launch) (core uid : Nat → Nat) (set : List Nat) (xs : List (Nat × Nat)) (s : State) :
    ∃ nid ts gs, xs.foldl (fun s x => s.addTeam l (uid x.2) x.1 (core x.2) set) s =
        { s with nextId := nid, teams := s.teams ++ ts, groups := s.groups ++ gs } ∧
      ∀ x ∈ xs, StartsTeam l ts gs x.1 := by
  induction xs generalizing s with
  | nil => exact ⟨s.nextId, [], [], by simp, by simp⟩
  | cons x xs ih =>
    obtain ⟨nid1, t, gs1, e1, h1⟩ := addTeam_eq l s (uid x.2) x.1 (core x.2) set
    obtain ⟨nid, ts, gs, e, h⟩ := ih (s.addTeam l (uid x.2) x.1 (core x.2) set)
    refine ⟨nid, [t] ++ ts, gs1 ++ gs, ?_, fun y hy => ?_⟩
    · rw [List.foldl_cons, e, e1]
      simp only [List.append_assoc]
    · rcases List.mem_cons.mp hy with rfl | hy
      · exact startsTeam_mono h1 (fun u hu => List.mem_append_left _ hu) fun g hg => ⟨g, List.mem_append_left _ hg, rfl, rfl⟩
      · exact startsTeam_mono (h y hy) (fun u hu => List.mem_append_right _ hu) fun g hg => ⟨g, List.mem_append_right _ hg, rfl, rfl⟩

/-! ## The byte of a record (log 30, log 48) -/

theorem offerFault_keeps (s : State) (d : DieId) (r : FaultRec) (again : Bool) : (s.offerFault d r again).groups = s.groups ∧
    (s.offerFault d r again).teams = s.teams ∧ (s.offerFault d r again).launches = s.launches := by
  unfold State.offerFault
  simp only
  split
  · simp
  · split
    · split
      · have h := mem_interrupt (s.modDie d fun x => { x with faults := x.faults ++ [r] }) d 0
        simpa using And.intro h.2.1 (And.intro h.2.2.1 h.2.2.2.1)
      · simp
    · have h := mem_interrupt (s.modDie d fun x => { x with dropped := true }) d 1
      simpa using And.intro h.2.1 (And.intro h.2.2.1 h.2.2.2.1)

theorem fireLines_keeps (ls : List Nat) (g : Machine.Group) : (fireLines ls g).ident = g.ident ∧ (fireLines ls g).gangs = g.gangs := by
  unfold fireLines
  split
  · split <;> exact ⟨rfl, rfl⟩
  · exact ⟨rfl, rfl⟩

theorem writePa_groups (s : State) (pa : Nat) (bs : List Byte) (g : Machine.Group) (hg : g ∈ s.groups) :
    ∃ g' ∈ (s.writePa pa bs).groups, g'.ident = g.ident ∧ g'.gangs = g.gangs := by
  unfold State.writePa
  split
  · exact ⟨g, hg, rfl, rfl⟩
  · exact ⟨_, List.mem_map_of_mem hg, fireLines_keeps _ g⟩

/-- What a write of a record's byte keeps: the teams, what groups run, and the launches but for what their records owe. -/
def RecKeeps (s t : State) : Prop :=
  t.teams = s.teams ∧ (∀ g ∈ s.groups, ∃ g' ∈ t.groups, g'.ident = g.ident ∧ g'.gangs = g.gangs) ∧
  ∀ k x, s.launch? k = some x → ∃ o w, t.launch? k = some { x with owed := o, owedWait := w }

theorem recKeeps_owe (s : State) (l : Launch) (off : Nat) (b : Byte) : RecKeeps s (s.owe l off b) := by
  refine ⟨rfl, fun g hg => ⟨g, hg, rfl, rfl⟩, fun k x hx => ?_⟩
  unfold State.owe
  rw [launch_modLaunch s l.id k (fun x => { x with owed := x.owed.filter (fun e => e.1 != off) ++ [(off, b)], owedWait := .waits })
    fun _ => rfl, hx]
  simp only [Option.map_some]
  split
  · exact ⟨_, _, rfl⟩
  · exact ⟨x.owed, x.owedWait, rfl⟩

theorem recKeeps_recByte (s : State) (l : Launch) (off : Nat) (b : Byte) : RecKeeps s (s.recByte l off b) := by
  unfold State.recByte
  simp only
  split
  · obtain ⟨hg, ht, hl⟩ := offerFault_keeps s l.die (faultRec l.launchId 0xFF 4 l.record true (.down 0)) (l.owedWait == .again)
    obtain ⟨k1, k2, k3⟩ := recKeeps_owe (s.offerFault l.die (faultRec l.launchId 0xFF 4 l.record true (.down 0)) (l.owedWait == .again)) l off b
    refine ⟨k1.trans ht, fun g h => k2 g (by rw [hg]; exact h), fun k x h => k3 k x ?_⟩
    rw [State.launch?, hl]
    exact h
  · split
    · exact recKeeps_owe s l off b
    · split
      · exact ⟨rfl, fun g h => ⟨g, h, rfl, rfl⟩, fun k x h => ⟨x.owed, x.owedWait, h⟩⟩
      · obtain ⟨-, ht, hl⟩ := samePeople_writePa s (l.recPa + off) [b]
        refine ⟨ht, writePa_groups s _ _, fun k x h => ⟨x.owed, x.owedWait, ?_⟩⟩
        rw [State.launch?, hl]
        exact h

/-- A byte of a record whose home can be reached stands once it is written. -/
theorem recByte_plain {s : State} {l : Launch} (off : Nat) (b : Byte) (hwf : MemCanonical s) (hp : s.poison = [])
    (hr : s.reachable l.die (l.recPa + off) = true) (ho : ∀ x, s.launch? l.id = some x → x.owed = []) :
    Mem.read (s.recByte l off b).mem (l.recPa + off) = b := by
  have howed : (s.launch? l.id).any (fun x => !x.owed.isEmpty) = false := by
    cases hx : s.launch? l.id with
    | none => rfl
    | some x => simp [ho x hx]
  have hpois : s.poisoned (l.recPa + off) 1 = false := by simp [State.poisoned, hp]
  have e : s.recByte l off b = s.writePa (l.recPa + off) [b] := by
    simp only [State.recByte, hr, howed, hpois]
    rfl
  rw [e, mem_writePa, read_writeN hwf]
  simp

/-! ## Dispatch of the only candidate (R305) -/

theorem argsOf_eq (s : State) (l : Launch) : ∃ a lo hi, s.argsOf l = { l with args := a, seedLo := lo, seedHi := hi } := by
  unfold State.argsOf
  split
  · exact ⟨l.args, l.seedLo, l.seedHi, rfl⟩
  · exact ⟨_, _, _, rfl⟩

/-- Where the teams of a launch are placed, they and their groups have started, the launch counts them as live, and the record of a
launch that was not running says that it is. -/
theorem placeTeams_done {s : State} {l : Launch} (ids cores : List Nat) (hl : s.launch? l.id = some l) :
    (∃ x, (s.placeTeams l ids cores).launch? l.id = some x ∧ x.running = true ∧ x.live = l.live ++ ids ∧
      x.todo = l.todo.filter fun k => !ids.contains k) ∧
    (∀ k ∈ ids, StartsTeam l (s.placeTeams l ids cores).teams (s.placeTeams l ids cores).groups k) ∧
    (l.running = false → recordPlain s l → Mem.read (s.placeTeams l ids cores).mem (l.recPa + 46) = 0x02#8) := by
  obtain ⟨a, lo, hi, hargs⟩ := argsOf_eq s l
  obtain ⟨ws, hlatch⟩ := onlyWbars_latchWbars s
  unfold State.placeTeams
  simp only [hargs, hlatch]
  generalize (if l.hdr.cluster = true then _ else _ : List Nat) = set
  obtain ⟨nid, ts, gs, hadd, hstart⟩ := addTeams_eq { l with args := a, seedLo := lo, seedHi := hi } (fun i => cores.getD i 0)
    (fun i => s.nextId + i) set ids.zipIdx { s with wbars := ws, nextId := s.nextId + ids.length }
  rw [hadd]
  generalize hz : ({ s with nextId := nid, wbars := ws, teams := s.teams ++ ts, groups := s.groups ++ gs } : State) = z
  have hzl (k : Nat) : z.launch? k = s.launch? k := by rw [← hz]; rfl
  have started (k : Nat) (hk : k ∈ ids) : StartsTeam l z.teams z.groups k := by
    obtain ⟨i, hi, rfl⟩ := List.getElem_of_mem hk
    have hm : (ids[i], i) ∈ ids.zipIdx := List.mem_zipIdx_iff_getElem?.mpr (List.getElem?_eq_getElem hi)
    rw [← hz]
    exact startsTeam_mono (hstart _ hm) (fun u hu => List.mem_append_right _ hu) fun g hg => ⟨g, List.mem_append_right _ hg, rfl, rfl⟩
  have hkeep : RecKeeps z (if l.running = true then z else z.recByte { l with args := a, seedLo := lo, seedHi := hi } 46 0x02) := by
    split
    · exact ⟨rfl, fun g h => ⟨g, h, rfl, rfl⟩, fun k x h => ⟨x.owed, x.owedWait, h⟩⟩
    · exact recKeeps_recByte z _ _ _
  have hbyte : l.running = false → recordPlain s l →
      Mem.read (if l.running = true then z else z.recByte { l with args := a, seedLo := lo, seedHi := hi } 46 0x02).mem (l.recPa + 46) = 0x02#8 := by
    rintro hrun ⟨hp, hwf, hreach, -, howed⟩
    rw [hrun]
    have hdie (x : DieId) : z.die x = s.die x := by rw [← hz]; cases x <;> rfl
    refine recByte_plain (l := { l with args := a, seedLo := lo, seedHi := hi }) 46 0x02 ?_ ?_ ?_ fun x hx => howed x ((hzl l.id).symm.trans hx)
    · rw [← hz]; exact hwf
    · rw [← hz]; exact hp
    · have hlinks : z.linksDown = s.linksDown := by rw [← hz]
      have h46 := hreach 46 (by decide)
      simpa only [State.reachable, hdie, hlinks] using h46
  generalize (if l.running = true then z else z.recByte { l with args := a, seedLo := lo, seedHi := hi } 46 0x02) = y at hkeep hbyte ⊢
  obtain ⟨kt, kg, kl⟩ := hkeep
  obtain ⟨o, w, hy⟩ := kl l.id l ((hzl l.id).trans hl)
  obtain ⟨vs, hnote⟩ := onlyWbars_noteWbars (y.modLaunch l.id fun x =>
    { x with args := a, seedLo := lo, seedHi := hi, todo := x.todo.filter fun t => !ids.contains t, live := x.live ++ ids, running := true
             waiting := false, expired := false })
  rw [hnote]
  refine ⟨⟨_, launch_modLaunch_self _ (fun _ => rfl) hy, rfl, rfl, rfl⟩, fun k hk => ?_, hbyte⟩
  exact startsTeam_mono (started k hk) (fun u hu => by rw [← kt] at hu; exact hu) kg

end Sys2Proof.Proofs.MachineState
end

section
namespace Sys2Proof.Proofs.MachineState
open Sys2Proof Sys2Proof.Machine Sys2Proof.Claims Sys2Proof.Laws

/-! ## TEAM_DISPATCH (R305, R306) -/

theorem launch_restIslands (s : State) (d : DieId) (k : Nat) : (s.restIslands d).launch? k = s.launch? k := by
  obtain ⟨f, e⟩ := restIslands_eq s d
  rw [e, State.launch?, launches_modDie, State.launch?]

theorem recordPlain_restIslands {s : State} {l : Launch} (d : DieId) (h : recordPlain s l) : recordPlain (s.restIslands d) l := by
  obtain ⟨hp, hwf, hr, ho, hos⟩ := h
  obtain ⟨f, e⟩ := restIslands_eq s d
  have hmem (x : DieId) : ((s.restIslands d).die x).memUp = (s.die x).memUp := by
    rw [e, die_modDie]; split <;> rfl
  refine ⟨?_, ?_, fun i hi => ?_, ho, fun x hx => hos x (by rw [← launch_restIslands s d]; exact hx)⟩
  · rw [e, poison_modDie]; exact hp
  · rw [MemCanonical, e, mem_modDie]; exact hwf
  · have hl : (s.restIslands d).linksDown = s.linksDown := by rw [e, linksDown_modDie]
    simpa only [State.reachable, hmem, hl] using hr i hi

/-- A die that is ready serves its one candidate. -/
theorem exec_teamDispatch {s : State} {d : DieId} {l : Launch} (hh : (s.die d).coresHeld = false) (hr : (s.die d).isReady = true)
    (hc : s.candidates d = [.launch l]) : exec (.teamDispatch d) s = .next ((s.restIslands d).serve d [.launch l]) := by
  show execTeamDispatch d s = _
  rw [execTeamDispatch, hh, hr, hc]
  rfl

theorem teamDispatch_fits {s : State} {d : DieId} {l : Launch} {cores : List Nat} (hh : (s.die d).coresHeld = false)
    (hr : (s.die d).isReady = true) (hc : s.candidates d = [.launch l]) (hl : s.launch? l.id = some l)
    (hp : (s.restIslands d).pickPlaces d l.hdr (l.nextTeams.map l.memberOf) = some cores) :
    ∃ t, exec (.teamDispatch d) s = .next t ∧
      (∃ x, t.launch? l.id = some x ∧ x.running = true ∧ x.live = l.live ++ l.nextTeams ∧
        x.todo = l.todo.filter fun k => !l.nextTeams.contains k) ∧
      (∀ k ∈ l.nextTeams, StartsTeam l t.teams t.groups k) ∧
      (l.running = false → recordPlain s l → Mem.read t.mem (l.recPa + 46) = 0x02#8) := by
  obtain ⟨h1, h2, h3⟩ := placeTeams_done l.nextTeams cores ((launch_restIslands s d l.id).trans hl)
  refine ⟨_, exec_teamDispatch hh hr hc, ?_⟩
  simp only [State.serve, hp]
  exact ⟨h1, h2, fun hrun hplain => h3 hrun (recordPlain_restIslands d hplain)⟩

theorem teamDispatch_waits {s : State} {d : DieId} {l : Launch} (hh : (s.die d).coresHeld = false)
    (hr : (s.die d).isReady = true) (hc : s.candidates d = [.launch l]) (hl : s.launch? l.id = some l)
    (hp : (s.restIslands d).pickPlaces d l.hdr (l.nextTeams.map l.memberOf) = none) (he : l.expired = false) :
    ∃ t x, exec (.teamDispatch d) s = .next t ∧ t.mem = s.mem ∧ t.teams = s.teams ∧ t.groups = s.groups ∧
      t.launch? l.id = some x ∧ x.waiting = true ∧ x.todo = l.todo ∧ x.live = l.live := by
  obtain ⟨f, e⟩ := restIslands_eq s d
  refine ⟨(s.restIslands d).modLaunch l.id fun x => { x with waiting := true }, { l with waiting := true }, ?_, ?_, ?_, ?_, ?_, rfl, rfl, rfl⟩
  · rw [exec_teamDispatch hh hr hc]
    simp only [State.serve, hp, he]
    rfl
  · rw [mem_modLaunch, e, mem_modDie]
  · rw [teams_modLaunch, e, teams_modDie]
  · rw [groups_modLaunch, e, groups_modDie]
  · exact launch_modLaunch_self (fun x => { x with waiting := true }) (fun _ => rfl) ((launch_restIslands s d l.id).trans hl)

/-! ## DISPATCH_WAIT_TIMEOUT and ISLAND_POWER_UP -/

theorem dispatchWaitTimeout_done {s : State} {l : Launch} (hl : s.launch? l.id = some l) :
    ∃ t x, exec (.dispatchWaitTimeout l.id) s = .next t ∧ t.mem = s.mem ∧
      t.launch? l.id = some x ∧ x.expired = (l.expired || l.waiting) ∧
      ∀ v ∈ s.saved, v.queued = true → v.waiting = true → v.launch.id = l.id → { v with expired := true } ∈ t.saved := by
  have hid (x : Launch) : (if x.waiting = true then { x with expired := true } else x).id = x.id := by split <;> rfl
  refine ⟨_, _, rfl, rfl, launch_modLaunch_self (fun x => if x.waiting = true then { x with expired := true } else x) hid hl, ?_,
    fun v hv hq hw hk => ?_⟩
  · cases hw : l.waiting <;> simp
  · exact List.mem_map.mpr ⟨v, hv, if_pos (by simp [hq, hw, hk])⟩

theorem getElem?_modAt_self {α : Type} {xs : List α} {i : Nat} {x : α} (f : α → α) (h : xs[i]? = some x) : (modAt xs i f)[i]? = some (f x) := by
  have hi := (List.getElem?_eq_some_iff.mp h).1
  simp only [modAt, h]
  exact List.getElem?_set_self hi

theorem islandPowerUp_done {s : State} {d : DieId} {i : Nat} {x : Island} (hb : s.islandBusy d i = true)
    (hx : (s.die d).power.islands[i]? = some x) :
    ∃ t, exec (.islandPowerUp d i) s = .next t ∧ t.mem = s.mem ∧ (t.die d).power.islands[i]? = some { x with on := true } := by
  refine ⟨_, if_pos hb, mem_modDie .., ?_⟩
  rw [die_modDie, if_pos rfl]
  exact getElem?_modAt_self (fun i : Island => { i with on := true }) hx

/-! ## Pre-emption (R314 to R318) -/

theorem preRequest_parts {s : State} {d : DieId} {r : PreReq} {u : Team} {l : Launch} (h : s.preRequest d = some (r, u, l)) :
    (s.die d).preempt.req = some r ∧ u ∈ s.teams ∧ s.launch? u.launch = some l := by
  unfold State.preRequest at h
  cases hr : (s.die d).preempt.req with
  | none => simp [hr] at h
  | some r' =>
    cases ht : s.team? r'.teamUid with
    | none => simp [hr, ht] at h
    | some t =>
      cases hl : s.launch? t.launch with
      | none => simp [hr, ht, hl] at h
      | some l' =>
        simp only [hr, ht, hl, Option.map_some, Option.some.injEq, Prod.mk.injEq] at h
        obtain ⟨rfl, rfl, rfl⟩ := h
        exact ⟨rfl, List.mem_of_find?_eq_some ht, hl⟩

theorem preempt_modPre (s : State) (d : DieId) (f : Preempt → Preempt) : ((s.modPre d f).die d).preempt = f (s.die d).preempt := by
  rw [State.modPre, die_modDie, if_pos rfl]

theorem modPre_keeps (s : State) (d : DieId) (f : Preempt → Preempt) : (s.modPre d f).mem = s.mem ∧ (s.modPre d f).teams = s.teams ∧
    (s.modPre d f).launches = s.launches :=
  ⟨mem_modDie .., teams_modDie .., launches_modDie ..⟩

theorem preemptDrainDeadline_done {s : State} {d : DieId} {r : PreReq} {u : Team} {l : Launch} (h : s.preRequest d = some (r, u, l))
    (hp : r.path = .drain) (hd : r.deadline ≤ s.timeNs.toNat) :
    ∃ t, exec (.preemptDrainDeadline d) s = .next t ∧ t.mem = s.mem ∧
      (t.die d).preempt.req = some { r with path :=
        if u.sideEffect = false then .discard else if s.saveReady d u = true then .save else .drain } := by
  obtain ⟨hr, -, -⟩ := preRequest_parts h
  refine ⟨s.modPre d fun p => p.setPath (s.escalated d u), ?_, (modPre_keeps ..).1, ?_⟩
  · show execPreemptDrainDeadline d s = _
    simp [execPreemptDrainDeadline, h, hp, hd]
  · rw [preempt_modPre, Preempt.setPath, hr, State.escalated]
    cases u.sideEffect <;> simp

theorem mem_insNat (xs : List Nat) (x : Nat) : x ∈ insNat xs x ∧ ∀ y ∈ xs, y ∈ insNat xs x := by
  induction xs with
  | nil => exact ⟨List.mem_singleton_self x, by simp⟩
  | cons y ys ih =>
    obtain ⟨h1, h2⟩ := ih
    unfold insNat
    split
    · exact ⟨List.mem_cons_self, fun z hz => List.mem_cons_of_mem _ hz⟩
    · split
      · next e => subst e; exact ⟨List.mem_cons_self, fun z hz => hz⟩
      · refine ⟨List.mem_cons_of_mem _ h1, fun z hz => ?_⟩
        rcases List.mem_cons.mp hz with rfl | hz
        · exact List.mem_cons_self
        · exact List.mem_cons_of_mem _ (h2 z hz)

/-- A launch without the team t among those that live. -/
def backIn (t : Team) (l : Launch) : Launch := { l with live := l.live.filter (· != t.teamId), todo := insNat l.todo t.teamId }

theorem putBack_keeps (s : State) (t : Team) : (s.putBack t).mem = s.mem ∧ (s.putBack t).teams = s.teams.filter (·.id != t.id) ∧
    ∀ k, (s.putBack t).launch? k = (s.launch? k).map fun l => if l.id = t.launch then backIn t l else l := by
  refine ⟨?_, ?_, fun k => ?_⟩
  · simp [State.putBack, State.removeTeam]
  · simp [State.putBack, State.removeTeam]
  · unfold State.putBack
    simp only
    refine (launch_modLaunch _ t.launch k (backIn t) fun _ => rfl).trans ?_
    simp [State.launch?, State.removeTeam]

/-- The teams put back: none of them stands, memory is as it was, and a launch has its own among those to dispatch. -/
theorem putBack_foldl (ts : List Team) (s : State) : (ts.foldl State.putBack s).mem = s.mem ∧
    (∀ x ∈ (ts.foldl State.putBack s).teams, x ∈ s.teams ∧ ∀ t ∈ ts, x.id ≠ t.id) ∧
    ∀ k l, s.launch? k = some l → ∃ x, (ts.foldl State.putBack s).launch? k = some x ∧ (∀ y ∈ l.todo, y ∈ x.todo) ∧
      (∀ y ∈ x.live, y ∈ l.live) ∧ ∀ t ∈ ts, t.launch = k → t.teamId ∈ x.todo ∧ t.teamId ∉ x.live := by
  induction ts generalizing s with
  | nil => exact ⟨rfl, fun x hx => ⟨hx, by simp⟩, fun k l hl => ⟨l, hl, fun _ h => h, fun _ h => h, by simp⟩⟩
  | cons t ts ih =>
    obtain ⟨hm, ht, hl⟩ := putBack_keeps s t
    obtain ⟨ihm, iht, ihl⟩ := ih (s.putBack t)
    refine ⟨ihm.trans hm, fun x hx => ?_, fun k l hk => ?_⟩
    · obtain ⟨h1, h2⟩ := iht x hx
      rw [ht, List.mem_filter, bne_iff_ne] at h1
      exact ⟨h1.1, List.forall_mem_cons.mpr ⟨h1.2, h2⟩⟩
    · obtain ⟨x, hx, todo, live, all⟩ := ihl k (if l.id = t.launch then backIn t l else l) (by rw [hl, hk]; rfl)
      have htodo : ∀ y ∈ l.todo, y ∈ (if l.id = t.launch then backIn t l else l).todo := by
        split
        · exact (mem_insNat l.todo t.teamId).2
        · exact fun y hy => hy
      have hlive : ∀ y ∈ (if l.id = t.launch then backIn t l else l).live, y ∈ l.live := by
        split
        · exact fun y hy => (List.mem_filter.mp hy).1
        · exact fun y hy => hy
      refine ⟨x, hx, fun y hy => todo y (htodo y hy), fun y hy => hlive y (live y hy), List.forall_mem_cons.mpr ⟨fun e => ?_, all⟩⟩
      rw [if_pos ((launch_id hk).trans e.symm)] at todo live
      refine ⟨todo _ (mem_insNat _ _).1, fun hmem => ?_⟩
      have := live _ hmem
      simp [backIn] at this

theorem mem_setOf {s : State} {u : Team} (h : u ∈ s.teams) : u ∈ s.setOf u :=
  List.mem_filter.mpr ⟨h, by simp⟩

theorem preemptDiscard_done {s : State} {d : DieId} {r : PreReq} {u : Team} {l : Launch} (h : s.preRequest d = some (r, u, l))
    (hp : r.path = .discard) (hs : s.stopped (s.setOf u) = true) (hu : u.sideEffect = false) :
    ∃ t, exec (.preemptDiscard d) s = .next t ∧ t.mem = s.mem ∧ (∀ x ∈ t.teams, x.id ≠ u.id) ∧
      (t.die d).preempt.busy = false ∧ (t.die d).preempt.path = .discard ∧ (t.die d).preempt.error = 0 ∧
      ∃ x, t.launch? u.launch = some x ∧ u.teamId ∈ x.todo ∧ u.teamId ∉ x.live := by
  obtain ⟨-, hmem, hl⟩ := preRequest_parts h
  obtain ⟨hm, ht, hk⟩ := putBack_foldl (s.setOf u) s
  obtain ⟨km, kt, kl⟩ := modPre_keeps ((s.setOf u).foldl State.putBack s) d fun p => p.finish .discard 0
  obtain ⟨x, hx, -, -, hall⟩ := hk u.launch l hl
  refine ⟨((s.setOf u).foldl State.putBack s).modPre d fun p => p.finish .discard 0, ?_, km.trans hm, fun y hy => ?_, ?_, ?_, ?_, x, ?_,
    hall u (mem_setOf hmem) rfl⟩
  · show execPreemptDiscard d s = _
    simp [execPreemptDiscard, h, hp, hs, hu]
  · rw [kt] at hy
    exact (ht y hy).2 u (mem_setOf hmem)
  · rw [preempt_modPre]; rfl
  · rw [preempt_modPre]; rfl
  · rw [preempt_modPre]; rfl
  · rw [State.launch?, kl]; exact hx

theorem preemptSave_none {s : State} {d : DieId} {r : PreReq} {u : Team} {l : Launch} (h : s.preRequest d = some (r, u, l))
    (hp : r.path = .save) (hs : s.stopped (s.setOf u) = true) (hok : s.saveReady d u = false) :
    ∃ t, exec (.preemptSave d) s = .next t ∧ t.mem = s.mem ∧ t.teams = s.teams ∧
      (t.die d).preempt.busy = false ∧ (t.die d).preempt.error = 3 := by
  refine ⟨(s.modPre d fun p => { p with area := 0 }).modPre d fun p => p.finish .none 3, ?_, ?_, ?_, ?_, ?_⟩
  · show execPreemptSave d s = _
    simp [execPreemptSave, h, hp, hs, hok]
  · rw [(modPre_keeps ..).1, (modPre_keeps ..).1]
  · rw [(modPre_keeps ..).2.1, (modPre_keeps ..).2.1]
  · rw [preempt_modPre]; rfl
  · rw [preempt_modPre]; rfl

theorem dropAppends_keeps (s : State) (gids : List Nat) : (s.dropAppends gids).teams = s.teams ∧ (s.dropAppends gids).saved = s.saved := by
  simp [State.dropAppends]

/-- A set taken out of the machine: its teams are gone, the request is done, and the context stands among those saved. -/
theorem takeOut_done (s : State) (d : DieId) (l : Launch) (ts : List Team) (area : DWord) (bs : List Byte) :
    (∀ x ∈ ts, ∀ y ∈ (s.takeOut d l ts area bs).teams, y.id ≠ x.id) ∧
      ((s.takeOut d l ts area bs).die d).preempt.busy = false ∧ ((s.takeOut d l ts area bs).die d).preempt.error = 0 ∧
      ((s.takeOut d l ts area bs).die d).preempt.savedAt = area ∧
      ∃ x ∈ (s.takeOut d l ts area bs).saved, x.addr = area ∧ x.teams = ts ∧ x.queued = false ∧ x.image = false := by
  unfold State.takeOut
  simp only
  refine ⟨fun x hx y hy => ?_, ?_, ?_, ?_, ?_⟩
  · rw [teams_modDie, (dropAppends_keeps _ _).1, List.mem_filter] at hy
    intro e
    simp only [List.contains_eq_mem, Bool.not_eq_true', decide_eq_false_iff_not, List.mem_map, not_exists, not_and] at hy
    exact hy.2 x hx e.symm
  · rw [die_modDie, if_pos rfl]; rfl
  · rw [die_modDie, if_pos rfl]; rfl
  · rw [die_modDie, if_pos rfl]
  · rw [saved_modDie, (dropAppends_keeps _ _).2]
    exact ⟨_, List.mem_append_right _ (List.mem_singleton_self _), rfl, rfl, rfl, rfl⟩

theorem preemptSave_done {s : State} {d : DieId} {r : PreReq} {u : Team} {l : Launch} (h : s.preRequest d = some (r, u, l))
    (hp : r.path = .save) (hs : s.stopped (s.setOf u) = true) (hok : s.saveReady d u = true) {m : List (Nat × Nat)} {v : State}
    (hm : (s.modPre d fun p => { p with area := 0 }).mapSpan d none ⟨true, false, true⟩ (s.die d).preempt.area (s.saveBytes u) = (.inr m, v)) :
    ∃ t, exec (.preemptSave d) s = .next t ∧ (∀ x ∈ s.setOf u, ∀ y ∈ t.teams, y.id ≠ x.id) ∧
      (t.die d).preempt.busy = false ∧ (t.die d).preempt.error = 0 ∧ (t.die d).preempt.savedAt = (s.die d).preempt.area ∧
      ∃ x ∈ t.saved, x.addr = (s.die d).preempt.area ∧ x.teams = s.setOf u ∧ x.queued = false ∧ x.image = false := by
  let bytes := (List.range (s.saveBytes u)).map fun i => Config.saveByte v.tick i
  let written := v.writeSpan m ((s.die d).preempt.area.extractLsb' 0 57).toNat bytes
  refine ⟨written.takeOut d l (s.setOf u) (s.die d).preempt.area bytes, ?_, takeOut_done written d l (s.setOf u) (s.die d).preempt.area bytes⟩
  show execPreemptSave d s = _
  simp only [execPreemptSave, h, hp, hs, hok, hm]
  rfl

/-- Settles O53: one lemma for each event, and the dispatch through what its placing leaves. -/
theorem dispatchAndPreemption : Obligations.DispatchAndPreemption :=
  ⟨fun _ _ _ _ hh hr hc hl hp => teamDispatch_fits hh hr hc hl hp, fun _ _ _ hh hr hc hl hp he => teamDispatch_waits hh hr hc hl hp he,
    fun _ _ hl => dispatchWaitTimeout_done hl, fun _ _ _ _ hb hx => islandPowerUp_done hb hx,
    fun _ _ _ _ _ h => ⟨preemptDrainDeadline_done h, preemptDiscard_done h, fun hp hs =>
      ⟨preemptSave_none h hp hs, fun hok _ _ hm => preemptSave_done h hp hs hok hm⟩⟩⟩

end Sys2Proof.Proofs.MachineState
end

section
namespace Sys2Proof.Proofs.MachineState
open Sys2Proof Sys2Proof.Machine Sys2Proof.Claims Sys2Proof.Laws

/-! ## LONG_LATENCY_COMPLETE (R79, R80) -/

theorem deliverOne_parts (g : Machine.Group) (op : Nat) (w : Tgt × DWord) : (g.deliverOne op w).s = (g.deliver w.1 w.2).s ∧
    (g.deliverOne op w).em = (g.deliver w.1 w.2).em ∧ (g.deliverOne op w).lanes = (g.deliver w.1 w.2).lanes ∧
    (g.deliverOne op w).sb = (g.deliver w.1 w.2).sb := ⟨rfl, rfl, rfl, rfl⟩

theorem ident_deliver (g : Machine.Group) (t : Tgt) (v : DWord) : (g.deliver t v).ident = g.ident ∧ (g.deliver t v).sb = g.sb := by
  cases t with
  | vreg l n => exact ⟨rfl, rfl⟩
  | glove l n i => exact ⟨rfl, rfl⟩
  | sreg n m => simp only [Group.deliver, Group.putS]; split <;> exact ⟨rfl, rfl⟩

theorem ident_completeOp (g : Machine.Group) (o : PendOp) : (g.completeOp o).ident = g.ident := by
  have fold (ws : List (Tgt × DWord)) (g : Machine.Group) : (ws.foldl (fun g w => g.deliverOne o.id w) g).ident = g.ident := by
    induction ws generalizing g with
    | nil => rfl
    | cons w ws ih => exact (ih _).trans (ident_deliver g w.1 w.2).1
  exact fold o.writes g

/-- A word delivered to a vector register, and one to a whole scalar register. -/
theorem deliver_vreg (g : Machine.Group) (l r : Nat) (v : DWord) (hr : r < (g.lane l).v.length) :
    ((g.deliver (.vreg l r) v).lane l).vreg r = lo32 v ∧ (g.deliver (.vreg l r) v).s = g.s := by
  have hl : l < g.lanes.length := by
    by_contra hl
    rw [Group.lane, List.getD_eq_default _ _ (Nat.not_lt.mp hl)] at hr
    exact absurd hr (Nat.not_lt_zero r)
  refine ⟨?_, rfl⟩
  simp only [Group.deliver, lane_modLane, hl, and_self, if_true, Lane.vreg, setAt, List.getD_eq_getElem?_getD]
  rw [List.getElem?_set_self hr]
  rfl

theorem deliver_sreg (g : Machine.Group) (r : Nat) (v : DWord) (h63 : r ≠ 63) (hr : r < g.s.length) :
    (g.deliver (.sreg r (BitVec.allOnes 64)) v).s.getD r 0 = v ∧ (g.deliver (.sreg r (BitVec.allOnes 64)) v).em = g.em := by
  have e : ~~~(BitVec.allOnes 64) = 0#64 := by decide
  refine ⟨?_, by simp only [Group.deliver, Group.putS, if_neg h63]⟩
  rw [Group.deliver, getD_s_putS _ _ _ _ h63, getD_modAt, if_pos ⟨rfl, hr⟩, e, BitVec.and_zero, BitVec.zero_or, BitVec.and_allOnes]

theorem longLatencyComplete_done {s : State} {gid : Nat} {g : Machine.Group} {o : PendOp} {t : Tgt} {v : DWord}
    (hg : s.group? gid = some g) (ho : g.pend.find? (fun x => x.id == o.id) = some o) (hw : o.waiting = 0) (hs : o.writes = [(t, v)]) :
    groupAfter (exec (.longLatencyComplete gid o.id none) s) gid fun _ g' =>
      (∀ x ∈ g'.pend, x.id ≠ o.id) ∧ (o.entry < g.sb.length → g'.sb.getD o.entry 0 = g.sb.getD o.entry 0 - 1) ∧
      (∀ e, e ≠ o.entry → g'.sb.getD e 0 = g.sb.getD e 0) ∧
      (∀ l r, t = .vreg l r → r < (g.lane l).v.length → (g'.lane l).vreg r = lo32 v ∧ g'.s = g.s) ∧
      (∀ r, t = .sreg r (BitVec.allOnes 64) → r ≠ 63 → r < g.s.length → g'.s.getD r 0 = v ∧ g'.em = g.em) := by
  have hstep : exec (.longLatencyComplete gid o.id none) s = .next (s.modGroup gid fun g => g.completeOp o) := by
    show execLongLatencyComplete gid o.id none s = _
    simp only [execLongLatencyComplete, hg, Option.bind_some, ho, hw, if_true]
  have hfin := group_modGroup_self (fun g => g.completeOp o) (fun g => by rw [ident_completeOp]) hg
  have hsb : (g.completeOp o).sb = modAt g.sb o.entry (· - 1) := by
    simp only [Group.completeOp, hs, List.foldl_cons, List.foldl_nil]
    rw [(deliverOne_parts g o.id (t, v)).2.2.2, (ident_deliver g t v).2]
  obtain ⟨es, ee, el⟩ : (g.completeOp o).s = (g.deliver t v).s ∧ (g.completeOp o).em = (g.deliver t v).em ∧
      (g.completeOp o).lanes = (g.deliver t v).lanes := by
    simp only [Group.completeOp, hs, List.foldl_cons, List.foldl_nil]
    exact ⟨rfl, rfl, rfl⟩
  refine ⟨_, _, hstep, hfin, fun x hx => ?_, fun he => ?_, fun e he => ?_, ?_, ?_⟩
  · obtain ⟨-, hne⟩ := List.mem_filter.mp hx
    simpa using hne
  · rw [hsb, getD_modAt, if_pos ⟨rfl, he⟩]
  · rw [hsb, getD_modAt, if_neg fun c => he c.1]
  · rintro l r rfl hr
    obtain ⟨h1, h2⟩ := deliver_vreg g l r v hr
    exact ⟨by rw [Group.lane, el]; exact h1, es.trans h2⟩
  · rintro r rfl h63 hr
    obtain ⟨h1, h2⟩ := deliver_sreg g r v h63 hr
    exact ⟨by rw [es]; exact h1, ee.trans h2⟩

/-! ## FAULT_SPLIT_REJOIN (R18) -/

/-- Every pending poison of `ps` is in `qs`, with its lanes. -/
def PoisonIn (ps qs : List (DWord × Word × DWord)) : Prop :=
  ∀ e ∈ ps, ∃ e' ∈ qs, e'.1 = e.1 ∧ ∀ l < 32, e.2.1.getLsbD l = true → e'.2.1.getLsbD l = true

theorem poisonIn_refl (ps : List (DWord × Word × DWord)) : PoisonIn ps ps := fun e he => ⟨e, he, rfl, fun _ _ h => h⟩

theorem poisonIn_trans {ps qs rs : List (DWord × Word × DWord)} (h : PoisonIn ps qs) (k : PoisonIn qs rs) : PoisonIn ps rs := by
  intro e he
  obtain ⟨e1, h1, h2, h3⟩ := h e he
  obtain ⟨e2, k1, k2, k3⟩ := k e1 h1
  exact ⟨e2, k1, k2.trans h2, fun l hl hb => k3 l hl (h3 l hl hb)⟩

theorem poisonIn_cons (x : DWord × Word × DWord) {ps qs : List (DWord × Word × DWord)} (h : PoisonIn ps qs) : PoisonIn (x :: ps) (x :: qs) := by
  intro e he
  rcases List.mem_cons.mp he with rfl | he
  · exact ⟨e, List.mem_cons_self, rfl, fun _ _ h => h⟩
  · obtain ⟨e', h1, h2⟩ := h e he
    exact ⟨e', List.mem_cons_of_mem _ h1, h2⟩

/-- A pending poison put in keeps the others and is in. -/
theorem poisonIn_insPoison (e : DWord × Word × DWord) (ps : List (DWord × Word × DWord)) :
    PoisonIn ps (insPoison e ps) ∧ PoisonIn [e] (insPoison e ps) := by
  induction ps with
  | nil => exact ⟨nofun, poisonIn_refl [e]⟩
  | cons x xs ih =>
    unfold insPoison
    split
    · next hx =>
      constructor
      · intro y hy
        rcases List.mem_cons.mp hy with rfl | hy
        · exact ⟨_, List.mem_cons_self, rfl, fun l _ h => by simp [h]⟩
        · exact ⟨y, List.mem_cons_of_mem _ hy, rfl, fun _ _ h => h⟩
      · intro y hy
        rw [List.mem_singleton.mp hy]
        exact ⟨_, List.mem_cons_self, hx, fun l _ h => by simp [h]⟩
    · split
      · refine ⟨fun y hy => ⟨y, List.mem_cons_of_mem _ hy, rfl, fun _ _ h => h⟩, fun y hy => ?_⟩
        rw [List.mem_singleton.mp hy]
        exact ⟨e, List.mem_cons_self, rfl, fun _ _ h => h⟩
      · refine ⟨poisonIn_cons x ih.1, fun y hy => ?_⟩
        obtain ⟨e', h1, h2⟩ := ih.2 y hy
        exact ⟨e', List.mem_cons_of_mem _ h1, h2⟩

theorem poisonIn_joinPoison (a b : List (DWord × Word × DWord)) : PoisonIn a (joinPoison a b) ∧ PoisonIn b (joinPoison a b) := by
  unfold joinPoison
  induction b generalizing a with
  | nil => exact ⟨poisonIn_refl a, nofun⟩
  | cons e b ih =>
    obtain ⟨h1, h2⟩ := poisonIn_insPoison e a
    obtain ⟨k1, k2⟩ := ih (insPoison e a)
    refine ⟨poisonIn_trans h1 k1, fun x hx => ?_⟩
    rcases List.mem_cons.mp hx with rfl | hx
    · exact poisonIn_trans h2 k1 x (List.mem_singleton_self x)
    · exact k2 x hx

theorem mem_foldl_insNat (xs ys : List Nat) : (∀ j ∈ ys, j ∈ xs.foldl insNat ys) ∧ ∀ j ∈ xs, j ∈ xs.foldl insNat ys := by
  induction xs generalizing ys with
  | nil => exact ⟨fun j h => h, by simp⟩
  | cons x xs ih =>
    obtain ⟨h1, h2⟩ := mem_insNat ys x
    obtain ⟨k1, k2⟩ := ih (insNat ys x)
    exact ⟨fun j h => k1 j (h2 j h), List.forall_mem_cons.mpr ⟨k1 x h1, k2⟩⟩

/-- The gang z goes on for x: at its word, with its FMT, slices and pending poison. -/
structure GoesFor (x z : Gang) : Prop where
  pc : z.pc = x.pc
  fmt : z.fmt = x.fmt
  clause : z.clause = x.clause
  slices : ∀ j ∈ x.slices, j ∈ z.slices
  poison : PoisonIn x.poison z.poison

theorem goesFor_refl (x : Gang) : GoesFor x x := ⟨rfl, rfl, rfl, fun _ h => h, poisonIn_refl _⟩

theorem meets_iff (x y : Gang) : y.meets x = true ↔ y.pc = x.pc ∧ y.fmt = x.fmt ∧ y.clause = x.clause := by
  simp [Gang.meets, and_assoc]

/-- The gang y with the slices and the poison of x added. -/
def joined (x y : Gang) : Gang := { y with slices := x.slices.foldl insNat y.slices, poison := joinPoison y.poison x.poison }

theorem goesFor_joined {x y w : Gang} (h : GoesFor w y) : GoesFor w (joined x y) :=
  ⟨h.pc, h.fmt, h.clause, fun j hj => (mem_foldl_insNat x.slices y.slices).1 j (h.slices j hj),
    poisonIn_trans h.poison (poisonIn_joinPoison y.poison x.poison).1⟩

theorem goesFor_joined_self {x y : Gang} (h : y.meets x = true) : GoesFor x (joined x y) := by
  obtain ⟨h1, h2, h3⟩ := (meets_iff x y).mp h
  exact ⟨h1, h2, h3, (mem_foldl_insNat x.slices y.slices).2, (poisonIn_joinPoison y.poison x.poison).2⟩

/-- The gangs formed when x joins: an old one, perhaps with x added, or x under a number of its own. -/
theorem joinGang_cases (used : List Nat) (acc : List Gang × Nat) (x : Gang) :
    (joinGang used acc x).1 = acc.1.map (fun y => if y.meets x then joined x y else y) ∧ acc.1.any (·.meets x) = true ∨
    ∃ id, (joinGang used acc x).1 = acc.1 ++ [{ x with id := id }] ∧ acc.1.any (·.meets x) = false := by
  unfold joinGang
  by_cases h : acc.1.any (·.meets x) = true
  · rw [if_pos h]
    exact .inl ⟨rfl, h⟩
  · rw [if_neg h]
    refine .inr ?_
    split
    · exact ⟨acc.2, rfl, by simpa using h⟩
    · exact ⟨x.id, rfl, by simpa using h⟩

/-- One more gang joins: those formed go on for the gangs for which they went on, and one of them for x. -/
theorem goesFor_joinGang (used : List Nat) (acc : List Gang × Nat) (x : Gang) :
    (∀ w, ∀ y ∈ acc.1, GoesFor w y → ∃ z ∈ (joinGang used acc x).1, GoesFor w z) ∧ ∃ z ∈ (joinGang used acc x).1, GoesFor x z := by
  rcases joinGang_cases used acc x with ⟨e, hany⟩ | ⟨id, e, -⟩
  · rw [e]
    constructor
    · intro w y hy hw
      refine ⟨_, List.mem_map_of_mem hy, ?_⟩
      split
      · exact goesFor_joined hw
      · exact hw
    · obtain ⟨y, hy, hm⟩ := List.any_eq_true.mp hany
      exact ⟨_, List.mem_map_of_mem hy, by rw [if_pos hm]; exact goesFor_joined_self hm⟩
  · rw [e]
    exact ⟨fun w y hy hw => ⟨y, List.mem_append_left _ hy, hw⟩,
      _, List.mem_append_right _ (List.mem_singleton_self _), rfl, rfl, rfl, fun _ h => h, poisonIn_refl _⟩

/-- All gangs joined: for each there is one that goes on for it. -/
theorem goesFor_foldl (used : List Nat) (xs : List Gang) (acc : List Gang × Nat) :
    (∀ w, (∃ y ∈ acc.1, GoesFor w y) → ∃ z ∈ (xs.foldl (joinGang used) acc).1, GoesFor w z) ∧
      ∀ x ∈ xs, ∃ z ∈ (xs.foldl (joinGang used) acc).1, GoesFor x z := by
  induction xs generalizing acc with
  | nil => exact ⟨fun _ h => h, by simp⟩
  | cons x xs ih =>
    obtain ⟨h1, h2⟩ := goesFor_joinGang used acc x
    obtain ⟨k1, k2⟩ := ih (joinGang used acc x)
    exact ⟨fun w ⟨y, hy, hw⟩ => k1 w (h1 w y hy hw), List.forall_mem_cons.mpr ⟨k1 x h2, k2⟩⟩

/-- What joining leaves of every gang, whatever its slices, poison and number, holds of all that are formed. -/
theorem forall_mem_foldl_joinGang {P : Gang → Prop} (hP : ∀ y id js ps, P y → P { y with id := id, slices := js, poison := ps })
    (used : List Nat) (xs : List Gang) (acc : List Gang × Nat) (hx : ∀ x ∈ xs, P x) (ha : ∀ y ∈ acc.1, P y) :
    ∀ z ∈ (xs.foldl (joinGang used) acc).1, P z := by
  induction xs generalizing acc with
  | nil => exact ha
  | cons x xs ih =>
    obtain ⟨hx, hxs⟩ := List.forall_mem_cons.mp hx
    refine ih _ hxs ?_
    rcases joinGang_cases used acc x with ⟨e, -⟩ | ⟨id, e, -⟩
    · rw [e]
      intro z hz
      obtain ⟨y, hy, rfl⟩ := List.mem_map.mp hz
      split
      · exact hP y y.id _ _ (ha y hy)
      · exact ha y hy
    · rw [e]
      intro z hz
      rcases List.mem_append.mp hz with hz | hz
      · exact ha z hz
      · rw [List.mem_singleton.mp hz]
        exact hP x id x.slices x.poison hx

/-- Gangs that agree form one. -/
theorem length_foldl_joinGang (used : List Nat) (xs : List Gang) (acc : List Gang × Nat)
    (hm : ∀ x ∈ xs, ∀ y ∈ xs, y.meets x = true) (ha : ∀ y ∈ acc.1, ∀ x ∈ xs, y.meets x = true) (hl : acc.1.length ≤ 1) :
    (xs.foldl (joinGang used) acc).1.length ≤ 1 := by
  induction xs generalizing acc with
  | nil => exact hl
  | cons x xs ih =>
    have hm' : ∀ a ∈ xs, ∀ b ∈ xs, b.meets a = true := fun a h b k => hm a (List.mem_cons_of_mem _ h) b (List.mem_cons_of_mem _ k)
    rcases joinGang_cases used acc x with ⟨e, -⟩ | ⟨id, e, hnone⟩
    · refine ih _ hm' ?_ (by rw [e, List.length_map]; exact hl)
      rw [e]
      intro z hz a h
      obtain ⟨y, hy, rfl⟩ := List.mem_map.mp hz
      have hya := ha y hy a (List.mem_cons_of_mem _ h)
      split
      · exact hya
      · exact hya
    · have hnil : acc.1 = [] := by
        cases hacc : acc.1 with
        | nil => rfl
        | cons y ys =>
          rw [hacc, List.any_cons, ha y (hacc ▸ List.mem_cons_self) x List.mem_cons_self] at hnone
          cases hnone
      refine ih _ hm' ?_ (by rw [e, hnil]; exact Nat.le_refl 1)
      rw [e, hnil]
      intro z hz a h
      rw [List.nil_append, List.mem_singleton] at hz
      subst hz
      exact hm a (List.mem_cons_of_mem _ h) x List.mem_cons_self

theorem eq_of_mem_of_length_le_one {α : Type} {l : List α} (h : l.length ≤ 1) {x y : α} (hx : x ∈ l) (hy : y ∈ l) : x = y := by
  cases l with
  | nil => simp at hx
  | cons a l =>
    obtain rfl : l = [] := List.eq_nil_of_length_eq_zero (by rw [List.length_cons] at h; omega)
    rw [List.mem_singleton.mp hx, List.mem_singleton.mp hy]

/-- A piece of a split set as it goes on. -/
def goesOn (x : Gang) : Gang := { x with park := if x.clause.isSome && x.begun then some .resume else none, split := none }

/-- The gangs of a group after its split set has met. -/
theorem gangs_rejoin (g : Machine.Group) (split : Nat) : (g.rejoin split).gangs =
    (g.gangs.filter fun x => x.split != some split) ++
      ((((g.gangs.filter fun x => x.split == some split).map goesOn).foldl
        (joinGang ((g.gangs.filter fun x => x.split != some split).map (·.id))) ([], 0)).1) := rfl

theorem rejoin_done {g : Machine.Group} {split : Nat} : (∀ x ∈ (g.rejoin split).gangs, x.split ≠ some split) ∧
    (∀ y ∈ g.gangs, y.split = some split → ∃ x ∈ (g.rejoin split).gangs, (x.park = none ∨ x.park = some .resume) ∧ GoesFor y x) ∧
    ((∃ x ∈ g.gangs, x.split = some split) →
      (∀ y ∈ g.gangs, ∀ z ∈ g.gangs, y.split = some split → z.split = some split → y.pc = z.pc ∧ y.fmt = z.fmt ∧ y.clause = z.clause) →
      ∃ x ∈ (g.rejoin split).gangs, ∀ y ∈ g.gangs, y.split = some split → ∀ j ∈ y.slices, j ∈ x.slices) := by
  rw [gangs_rejoin]
  generalize hps : (g.gangs.filter fun x => x.split == some split).map goesOn = pieces
  generalize hid : (g.gangs.filter fun x => x.split != some split).map (·.id) = used
  have hmem (y : Gang) (hy : y ∈ g.gangs) (hs : y.split = some split) : goesOn y ∈ pieces :=
    hps ▸ List.mem_map_of_mem (List.mem_filter.mpr ⟨hy, by simpa using hs⟩)
  have hpiece : ∀ x ∈ pieces, ∃ y ∈ g.gangs, y.split = some split ∧ x = goesOn y := by
    rw [← hps]
    intro x hx
    obtain ⟨y, hy, rfl⟩ := List.mem_map.mp hx
    obtain ⟨h1, h2⟩ := List.mem_filter.mp hy
    exact ⟨y, h1, by simpa using h2, rfl⟩
  have hfree : ∀ z ∈ (pieces.foldl (joinGang used) ([], 0)).1, z.split = none ∧ (z.park = none ∨ z.park = some .resume) := by
    refine forall_mem_foldl_joinGang (P := fun z => z.split = none ∧ (z.park = none ∨ z.park = some .resume)) (fun _ _ _ _ h => h)
      used pieces ([], 0) (fun x hx => ?_) (by simp)
    obtain ⟨y, -, -, rfl⟩ := hpiece x hx
    refine ⟨rfl, ?_⟩
    simp only [goesOn]
    split
    · exact .inr rfl
    · exact .inl rfl
  obtain ⟨-, hgoes⟩ := goesFor_foldl used pieces ([], 0)
  refine ⟨fun x hx => ?_, fun y hy hs => ?_, fun ⟨x0, hx0, hs0⟩ hagree => ?_⟩
  · rcases List.mem_append.mp hx with hx | hx
    · simpa using (List.mem_filter.mp hx).2
    · rw [(hfree x hx).1]; nofun
  · obtain ⟨z, hz, h⟩ := hgoes _ (hmem y hy hs)
    exact ⟨z, List.mem_append_right _ hz, (hfree z hz).2, h.pc, h.fmt, h.clause, h.slices, h.poison⟩
  · have hmeets : ∀ a ∈ pieces, ∀ b ∈ pieces, b.meets a = true := by
      intro a ha b hb
      obtain ⟨y, hy, hys, rfl⟩ := hpiece a ha
      obtain ⟨z, hz, hzs, rfl⟩ := hpiece b hb
      exact (meets_iff _ _).mpr (hagree z hz y hy hzs hys)
    have hone := length_foldl_joinGang used pieces ([], 0) hmeets (by simp) (Nat.zero_le 1)
    obtain ⟨x, hx, -⟩ := hgoes _ (hmem x0 hx0 hs0)
    refine ⟨x, List.mem_append_right _ hx, fun y hy hs j hj => ?_⟩
    obtain ⟨z, hz, h⟩ := hgoes _ (hmem y hy hs)
    exact eq_of_mem_of_length_le_one hone hz hx ▸ h.slices j hj

theorem faultSplitRejoin_step {s : State} {gid split : Nat} {g : Machine.Group} (hg : s.group? gid = some g) (hh : g.handler = none)
    (hex : ∃ x ∈ g.gangs, x.split = some split) (hall : ∀ x ∈ g.gangs, x.split = some split → x.park = some .catchUp) :
    exec (.faultSplitRejoin gid split) s = .next (s.modGroup gid fun g => g.rejoin split) := by
  have hne : (g.gangs.filter fun x => x.split == some split).isEmpty = false := by
    obtain ⟨x, hx, hs⟩ := hex
    rw [List.isEmpty_eq_false_iff_exists_mem]
    exact ⟨x, List.mem_filter.mpr ⟨hx, by simpa using hs⟩⟩
  have hpark : ((g.gangs.filter fun x => x.split == some split).all fun x => x.park == some .catchUp) = true := by
    rw [List.all_eq_true]
    intro x hx
    obtain ⟨h1, h2⟩ := List.mem_filter.mp hx
    simpa using hall x h1 (by simpa using h2)
  show execFaultSplitRejoin gid split s = _
  simp only [execFaultSplitRejoin, hg, Group.mayRejoin, hh, hne, hpark]
  rfl

end Sys2Proof.Proofs.MachineState
end

section
namespace Sys2Proof.Proofs.MachineState
open Sys2Proof Sys2Proof.Machine Sys2Proof.Claims Sys2Proof.Laws

/-! ## Entering a handler (R340, R343, R339) -/

/-- The entry of a gang whose turn it is. -/
theorem enterTrap_enters {s : State} {gid : Nat} {g : Machine.Group} {t : Team} (gg : Gang) (i : TrapInfo) (hg : s.group? gid = some g)
    (ht : s.team? g.ident.team = some t) (hv : (s.die t.die).ctl.trapVector ≠ 0) (hh : g.handler = none) :
    s.enterTrap gid gg i = s.modGroup gid fun g => g.enterHandler gg (s.die t.die).ctl.trapVector i := by
  simp [State.enterTrap, hg, ht, hh, Group.inHandler]
  exact fun h => absurd h hv

theorem gang_modGang_self {g : Machine.Group} {k : Nat} {x : Gang} (f : Gang → Gang) (hf : ∀ x, (f x).id = x.id)
    (h : g.gang? k = some x) : (g.modGang k f).gang? k = some (f x) := by
  have hid : x.id = k := by simpa using List.find?_some h
  rw [gang_modGang g k k f hf, h, Option.map_some, if_pos hid]

/-- A gang at its handler's first word. -/
def atHandler (vec : DWord) (x : Gang) : Gang := { x.goto vec with fmt := 0, split := none }

theorem gang_closeLatches (g : Machine.Group) (gg : Gang) (k : Nat) : (g.closeLatches gg).gang? k = g.gang? k := by
  rw [Group.gang?, (keeps_closeLatches onlyNone g gg).2, Group.gang?]

/-- A group as a gang of it enters the handler. -/
theorem enterHandler_parts (g : Machine.Group) (gg : Gang) (vec : DWord) (i : TrapInfo) :
    (g.enterHandler gg vec i).ident = g.ident ∧ (g.enterHandler gg vec i).held = g.held ∧
    (g.enterHandler gg vec i).trap = { g.trap with
      cause := trapCause i gg.slices, resume := i.resume, pc := i.pc, addr := i.addr, state := pair64 gg.fmt g.emRead } ∧
    (g.enterHandler gg vec i).handler = some ⟨gg.slices, i.hdr, gg.split, false⟩ ∧
    ∀ x, g.gang? gg.id = some x → (g.enterHandler gg vec i).gang? gg.id = some (atHandler vec x) := by
  unfold Group.enterHandler
  simp only
  generalize hq : ({ g with
    trap := _, handler := _, pend := _, em := _ } : Machine.Group) = q
  have k := (keeps_closeLatches onlyNone q gg).1
  obtain ⟨q1, q2, q3, q4, q5⟩ : q.ident = g.ident ∧ q.held = g.held ∧ q.trap = { g.trap with
      cause := trapCause i gg.slices, resume := i.resume, pc := i.pc, addr := i.addr, state := pair64 gg.fmt g.emRead } ∧
      q.handler = some ⟨gg.slices, i.hdr, gg.split, false⟩ ∧ q.gangs = g.gangs := by
    rw [← hq]; exact ⟨rfl, rfl, rfl, rfl, rfl⟩
  refine ⟨k.ident.trans q1, k.held.trans q2, k.trap.trans q3, k.handler.trans q4, fun x hx => ?_⟩
  have hself : q.gang? gg.id = some x := by rw [Group.gang?, q5]; exact hx
  have hgoto := gang_modGang_self (fun y : Gang => y.goto vec) (fun _ => rfl) ((gang_closeLatches q gg gg.id).trans hself)
  exact gang_modGang_self (fun y : Gang => { y with fmt := 0, split := none }) (fun _ => rfl) hgoto

theorem heldGangHandlerEntry_done {s : State} {gid k : Nat} {c : Cx} {i : TrapInfo} {rest : List (Nat × TrapInfo)}
    (h : s.cxOf gid k = some c) (hh : c.g.handler = none) (hv : (s.die c.die).ctl.trapVector ≠ 0) (hheld : c.g.held = (k, i) :: rest) :
    groupAfter (exec (.heldGangHandlerEntry gid) s) gid fun _ g' => g'.held = rest ∧
      g'.trap.pc = i.pc ∧ g'.trap.resume = i.resume ∧ g'.trap.addr = i.addr ∧ (∃ h, g'.handler = some h ∧ h.slices = c.gg.slices) ∧
      ∃ x, g'.gang? k = some x ∧ x.pc = (s.die c.die).ctl.trapVector := by
  obtain ⟨hg, -, hk, hid, ht, -⟩ := cxOf_parts h
  let g1 : Machine.Group := { c.g with held := rest }
  have hg1 : (s.modGroup gid fun g => { g with held := rest }).group? gid = some g1 :=
    group_modGroup_self (fun g => { g with held := rest }) (fun _ => rfl) hg
  have hk1 : g1.gang? k = some c.gg := hk
  have hvec : ((s.modGroup gid fun g => { g with held := rest }).die c.t.die).ctl.trapVector = (s.die c.die).ctl.trapVector := by
    rw [die_modGroup]; rfl
  have hstep : exec (.heldGangHandlerEntry gid) s =
      .next ((s.modGroup gid fun g => { g with held := rest }).enterTrap gid c.gg i) := by
    show execHeldGangHandlerEntry gid s = _
    simp only [execHeldGangHandlerEntry, hg, hh, hheld, hk]
  rw [enterTrap_enters (t := c.t) c.gg i hg1 ht (by rw [hvec]; exact hv) hh, hvec] at hstep
  have hfin := group_modGroup_self (fun g => g.enterHandler c.gg (s.die c.die).ctl.trapVector i)
    (fun g => by rw [(enterHandler_parts _ _ _ _).1]) hg1
  obtain ⟨-, e2, e3, e4, e5⟩ := enterHandler_parts g1 c.gg (s.die c.die).ctl.trapVector i
  refine ⟨_, _, hstep, hfin, e2, ?_, ?_, ?_, ⟨_, e4, rfl⟩, _, hid ▸ e5 c.gg (hid.symm ▸ hk1), rfl⟩
  · rw [e3]
  · rw [e3]
  · rw [e3]

/-- The code and the lanes of TRAP_CAUSE. -/
theorem trapCause_fields (i : TrapInfo) (js : List Nat) : (trapCause i js).extractLsb' 0 8 = BitVec.ofNat 8 i.code.code ∧
    (trapCause i js).extractLsb' 32 32 = i.lanes := by
  constructor
  · apply BitVec.eq_of_toNat_eq
    rw [trapCause, BitVec.extractLsb'_toNat]
    repeat rw [toNat_cat]
    simp
  · apply BitVec.eq_of_toNat_eq
    have h1 := i.sw.isLt
    have h2 := (BitVec.ofNat 8 (maskOf js).toNat).isLt
    have h3 := (BitVec.ofNat 8 i.code.code).isLt
    have h4 := i.lanes.isLt
    rw [trapCause, BitVec.extractLsb'_toNat, Nat.shiftRight_eq_div_pow]
    repeat rw [toNat_cat]
    simp
    omega

theorem groupMay_held {c : Cx} (h : c.groupMay = true) (hh : c.g.handler = none) : c.g.held = [] := by
  simp only [Cx.groupMay, hh, Bool.and_eq_true] at h
  simpa using h.2

theorem poisonDelivery_done {s : State} {gid k : Nat} {c : Cx} {pc va : DWord} {lanes : Word} {rest : List (DWord × Word × DWord)}
    (h : s.cxOf gid k = some c) (hh : c.g.handler = none) (hv : (s.die c.die).ctl.trapVector ≠ 0)
    (hp : c.gg.poison = (pc, lanes, va) :: rest) (hb : c.gg.begun = false) (hpark : c.gg.park = none) (hmay : c.groupMay = true) :
    groupAfter (exec (.poisonDelivery gid k) s) gid fun _ g' => g'.trap.pc = pc ∧ g'.trap.addr = va ∧
      g'.trap.cause.extractLsb' 0 8 = 0x0C#8 ∧ g'.trap.cause.extractLsb' 32 32 = lanes ∧
      g'.trap.resume = c.gg.hdrAddr ∧ ∃ x, g'.gang? k = some x ∧ x.pc = (s.die c.die).ctl.trapVector ∧ x.poison = rest := by
  obtain ⟨hg, -, hk, hid, ht, -⟩ := cxOf_parts h
  let g1 : Machine.Group := c.g.modGang k fun x => { x with poison := rest }
  let gg1 : Gang := { c.gg with poison := rest }
  let i : TrapInfo := ⟨.poison, lanes, 0, pc, va, c.gg.hdrAddr, c.gg.hdrAddr⟩
  have hg1 : (s.modGroup gid fun g => g.modGang k fun x => { x with poison := rest }).group? gid = some g1 :=
    group_modGroup_self (fun g => g.modGang k fun x => { x with poison := rest }) (fun _ => rfl) hg
  have hk1 : g1.gang? gg1.id = some gg1 := by
    show g1.gang? c.gg.id = _
    rw [hid]
    exact gang_modGang_self (fun x : Gang => { x with poison := rest }) (fun _ => rfl) hk
  have hvec : ((s.modGroup gid fun g => g.modGang k fun x => { x with poison := rest }).die c.t.die).ctl.trapVector =
      (s.die c.die).ctl.trapVector := by rw [die_modGroup]; rfl
  have hstep : exec (.poisonDelivery gid k) s =
      .next ((s.modGroup gid fun g => g.modGang k fun x => { x with poison := rest }).takeTrap gid gg1 i) := by
    show execPoisonDelivery gid k s = _
    simp only [execPoisonDelivery, h, hp, hb, hpark, hmay]
    rfl
  rw [takeTrap_enters (t := c.t) gg1 i hg1 ht (by rw [hvec]; exact hv) hh (groupMay_held hmay hh), hvec] at hstep
  have hfin := group_modGroup_self (fun g => g.enterHandler gg1 (s.die c.die).ctl.trapVector i)
    (fun g => by rw [(enterHandler_parts _ _ _ _).1]) hg1
  obtain ⟨-, -, e3, -, e5⟩ := enterHandler_parts g1 gg1 (s.die c.die).ctl.trapVector i
  refine ⟨_, _, hstep, hfin, ?_, ?_, ?_, ?_, ?_, _, hid ▸ e5 gg1 hk1, rfl, rfl⟩
  · rw [e3]
  · rw [e3]
  · rw [e3]; exact (trapCause_fields i _).1
  · rw [e3]; exact (trapCause_fields i _).2
  · rw [e3]

/-! ## TAG_WAIT_SATISFY (R202) -/

theorem groups_modSpad (s : State) (p : Place) (f : Spad → Spad) : (s.modSpad p f).groups = s.groups := by
  cases p with
  | team id o => rfl
  | die d o => exact groups_modDie ..

theorem groups_putTags (c : Cx) (p : Place) (n t : Nat) (s : State) : (c.putTags p n t s).groups = s.groups := by
  have h : (s.setTags p n t).groups = s.groups := groups_modSpad ..
  unfold Cx.putTags
  simp only
  split
  · exact h
  · exact h

/-- A load from a scratchpad changes no group. -/
theorem groups_spadLane_load (c : Cx) (vd regs n : Nat) (sx : Bool) (t : Option Nat) (p : SPiece) (r : Perf) :
    (c.spadLane (.load vd regs sx t) n p r).s.groups = r.s.groups := by
  unfold Cx.spadLane
  simp only
  split
  · rfl
  · cases t with
    | none => rfl
    | some t => exact groups_putTags ..

/-- A group whose gang k stands where `x` does, in its clause. -/
def StandsIn (s : State) (gid k : Nat) (x : Gang) : Prop :=
  ∃ g y, s.group? gid = some g ∧ g.gang? k = some y ∧ y.pc = x.pc

theorem standsIn_modGroup {s : State} {gid k : Nat} {x : Gang} {f : Machine.Group → Machine.Group} (h : StandsIn s gid k x)
    (hf : ∀ g, (f g).ident.id = g.ident.id)
    (hk : ∀ g y, g.gang? k = some y → ∃ z, (f g).gang? k = some z ∧ z.pc = y.pc) : StandsIn (s.modGroup gid f) gid k x := by
  obtain ⟨g, y, hg, hy, hpc⟩ := h
  obtain ⟨z, hz, e⟩ := hk g y hy
  exact ⟨f g, z, group_modGroup_self f hf hg, hz, e.trans hpc⟩

theorem standsIn_notePoison {s : State} {c : Cx} {k : Nat} {x : Gang} (bad : List (Option Nat × DWord))
    (h : StandsIn s c.g.ident.id k x) : StandsIn (c.notePoison k bad s) c.g.ident.id k x := by
  cases bad with
  | nil => exact h
  | cons b bad =>
    let note (x : Gang) : Gang := x.setPoison c.gg.firstWord (maskOf ((b :: bad).filterMap (·.1))) b.2
    exact standsIn_modGroup h (fun _ => rfl) fun g y hy => ⟨note y, gang_modGang_self note (fun _ => rfl) hy, rfl⟩

/-- A gang that is released goes on after its instruction. -/
theorem gang_release {g : Machine.Group} {gg y : Gang} (n : Nat) (h : g.gang? gg.id = some y) :
    ∃ z, (g.release gg n).gang? gg.id = some z ∧ z.pc = y.pc + BitVec.ofNat 64 (4 * n) ∧ z.park = (gg.released n).park := by
  have hadv : (g.advance gg n).gang? gg.id = some (y.advance n) := by
    rw [Group.gang?, (aluFrame_advance gg n ⟨keeps_refl onlyNone g, rfl⟩).2]
    exact gang_modGang_self (fun x : Gang => x.advance n) (fun _ => rfl) h
  exact ⟨_, gang_modGang_self (fun x : Gang => { x with park := (gg.released n).park }) (fun _ => rfl) hadv, rfl, rfl⟩

theorem tagWaitSatisfy_done {s : State} {gid k l : Nat} {a : DWord} {p : Place} {c : Cx} {w : TagWait} {m : MForm}
    (h : s.cxOf gid k = some c) (hh : c.g.handler = none) (hpark : c.gg.park = some (.tag w)) (hi : c.gg.instr? = some (.vLdsp m))
    (htodo : w.todo = [(l, a, p)]) (hf : w.faulted = []) (hb : s.tagBlocked w.arrived p w.n = false)
    (ht : s.tagTest p w.n w.want = .met) :
    groupAfter (exec (.tagWaitSatisfy gid k l) s) gid fun _ g' => ∃ x, g'.gang? k = some x ∧ x.pc = c.gg.pc + 8 ∧
      x.park = if c.gg.atEnd 2 then none else some .resume := by
  obtain ⟨hg, rfl, hk, hid, -, -⟩ := cxOf_parts h
  let r : Perf := c.spadLane (ldspDo m) w.n ⟨l, a, p⟩ ⟨s, [], []⟩
  have hlane : c.tagLane (ldspDo m) w.arrived w.n w.want ⟨⟨s, [], []⟩, [], []⟩ ⟨l, a, p⟩ = ⟨r, [], []⟩ := by
    simp only [Cx.tagLane, hb, ht]
    rfl
  let s1 : State := c.notePoison k r.bad r.s
  let s2 : State := match c.gg.op with | some o => s1.modGroup c.g.ident.id fun g => g.addWrites o r.ws | none => s1
  let part (g : Machine.Group) : Machine.Group := match c.gg.op with | some o => g.opPart o | none => g
  have hstep : exec (.tagWaitSatisfy c.g.ident.id k l) s = .next (s2.modGroup c.g.ident.id fun g => (part g).release c.gg 2) := by
    show execTagWaitSatisfy c.g.ident.id k l s = _
    simp only [execTagWaitSatisfy, h, hh, hpark, hi, Option.bind_some, tagDo, htodo, hf, List.find?_cons_of_pos, beq_self_eq_true,
      hlane, List.filter_cons_of_neg, bne_self_eq_false, Bool.false_eq_true, not_false_eq_true, List.filter_nil, Cx.tagFinish]
    rfl
  have hs0 : StandsIn r.s c.g.ident.id k c.gg := by
    have e : r.s.group? c.g.ident.id = s.group? c.g.ident.id := by
      rw [State.group?, show r.s.groups = s.groups from groups_spadLane_load .., State.group?]
    exact ⟨c.g, c.gg, e.trans hg, hk, rfl⟩
  have hs1 : StandsIn s1 c.g.ident.id k c.gg := standsIn_notePoison r.bad hs0
  have hs2 : StandsIn s2 c.g.ident.id k c.gg := by
    show StandsIn (match c.gg.op with | some o => s1.modGroup c.g.ident.id fun g => g.addWrites o r.ws | none => s1) c.g.ident.id k c.gg
    cases c.gg.op with
    | none => exact hs1
    | some o => exact standsIn_modGroup hs1 (fun _ => rfl) fun g y hy => ⟨y, hy, rfl⟩
  have hpart (g : Machine.Group) : (part g).ident = g.ident ∧ (part g).gangs = g.gangs := by
    show (match c.gg.op with | some o => g.opPart o | none => g : Machine.Group).ident = g.ident ∧
      (match c.gg.op with | some o => g.opPart o | none => g : Machine.Group).gangs = g.gangs
    cases c.gg.op <;> exact ⟨rfl, rfl⟩
  obtain ⟨g, y, hg2, hy, hpc⟩ := hs2
  have hfin := group_modGroup_self (fun g => (part g).release c.gg 2)
    (fun g => by show ((part g).advance c.gg 2).ident.id = _; rw [ident_advance, (hpart g).1]) hg2
  have hy' : (part g).gang? c.gg.id = some y := by rw [Group.gang?, (hpart g).2, hid]; exact hy
  obtain ⟨z, hz, z1, z2⟩ := gang_release 2 hy'
  exact ⟨_, _, hstep, hfin, z, hid ▸ hz, by rw [z1, hpc]; rfl, z2⟩

end Sys2Proof.Proofs.MachineState
end

section
namespace Sys2Proof.Proofs.MachineState
open Sys2Proof Sys2Proof.Machine Sys2Proof.Claims Sys2Proof.Laws

/-! ## Doublewords of memory -/

theorem leNat_leBytes (n x : Nat) : leNat (leBytes n x) = x % 256 ^ n := by
  induction n generalizing x with
  | zero => simp [leBytes, leNat, Nat.mod_one]
  | succ n ih =>
    have h := Nat.mod_mul (x := x) (a := 256) (b := 256 ^ n)
    rw [leBytes, leNat, ih, BitVec.toNat_ofNat, pow_succ' 256 n, h]

/-- Bytes written are read back. -/
theorem readN_writeN_self {m : Mem} (h : Mem.wf m = true) (a : Nat) (bs : List Byte) : Mem.readN (Mem.writeN m a bs) a bs.length = bs := by
  refine List.ext_getElem (length_readN ..) fun i h1 h2 => ?_
  have e := getD_readN (Mem.writeN m a bs) a bs.length i h2
  rw [read_writeN h, if_pos ⟨Nat.le_add_right _ _, by omega⟩, Nat.add_sub_cancel_left, List.getD_eq_getElem _ _ h1,
    List.getD_eq_getElem _ _ h2] at e
  exact e

theorem dword_writeN {m : Mem} (h : Mem.wf m = true) (a : Nat) (e : DWord) : Mem.dword (Mem.writeN m a (leBytes 8 e.toNat)) a = e := by
  have hr := readN_writeN_self h a (leBytes 8 e.toNat)
  rw [length_leBytes] at hr
  have he := e.isLt
  rw [Mem.dword, hr, le64, List.take_of_length_le (by rw [length_leBytes]), leNat_leBytes, Nat.mod_eq_of_lt (by simpa using he), dw,
    BitVec.ofNat_toNat, BitVec.setWidth_eq]

/-! ## TLBs (R327, log 11) -/

/-- The bound of one TLB drops no entry of another. -/
theorem mem_capTlb_other {core : Option Nat} {t : TlbEntry} (ht : t.core ≠ core) (n : Nat) (ts : List TlbEntry) (h : t ∈ ts) :
    t ∈ capTlb core n ts := by
  induction ts generalizing n with
  | nil => exact h
  | cons u ts ih =>
    unfold capTlb
    rcases List.mem_cons.mp h with rfl | h
    · rw [if_neg ht]
      exact List.mem_cons_self
    · split
      · cases n with
        | zero => exact ih 0 h
        | succ n => exact List.mem_cons_of_mem _ (ih n h)
      · exact List.mem_cons_of_mem _ (ih n h)

/-- The newest entry stays. -/
theorem mem_capTlb_head (t : TlbEntry) {n : Nat} (hn : n ≠ 0) (ts : List TlbEntry) : t ∈ capTlb t.core n (t :: ts) := by
  cases n with
  | zero => exact absurd rfl hn
  | succ n =>
    unfold capTlb
    rw [if_pos rfl]
    exact List.mem_cons_self

/-- A fill leaves the translation in the L2 and in the L1 of the core. -/
theorem mem_fillTlb (ts : List TlbEntry) (core va level slot : Nat) (e : DWord) (q : Option Nat) (hq : q = some core ∨ q = none) :
    (⟨q, va / pageSize level * pageSize level, level, e, slot⟩ : TlbEntry) ∈ fillTlb ts (some core) va level slot e := by
  unfold fillTlb
  simp only
  rcases hq with rfl | rfl
  · exact mem_capTlb_head ⟨some core, _, _, _, _⟩ (by decide) _
  · refine mem_capTlb_other (t := ⟨none, _, _, _, _⟩) (by simp) 256 _ (List.mem_cons_of_mem _ ?_)
    refine List.mem_filter.mpr ⟨mem_capTlb_head ⟨none, _, _, _, _⟩ (by decide) _, ?_⟩
    simp [TlbEntry.hits]

/-! ## PAGE_WALK (R325, R326) -/

theorem mem_noteShared (s : State) (base n : Nat) : (s.noteShared base n).mem = s.mem := by
  unfold State.noteShared
  split
  · exact mem_modDie ..
  · rfl

/-- A translation is taken into the TLBs of a die, and memory stays. -/
theorem fillAndFinish_done (s : State) (d : DieId) (core va level slot : Nat) (e : DWord) (a : Acc3) :
    (s.fillAndFinish d (some core) va level slot e a).2.mem = s.mem ∧
    ∀ q : Option Nat, q = some core ∨ q = none → (⟨q, va / pageSize level * pageSize level, level, e, slot⟩ : TlbEntry) ∈
      ((s.fillAndFinish d (some core) va level slot e a).2.die d).tlb := by
  unfold State.fillAndFinish
  simp only
  refine ⟨?_, fun q hq => ?_⟩
  · rw [mem_modDie]
    split
    · rfl
    · exact mem_noteShared ..
  · rw [die_modDie, if_pos rfl]
    exact mem_fillTlb _ core va level slot e q hq

/-- A walk that ends at a permitted leaf sets ACCESSED, and DIRTY for a write, in it alone, and the TLBs take it. -/
theorem walkLeaf_done {s : State} {d : DieId} {core va level slot : Nat} {e : DWord} {a : Acc3} (hwf : MemCanonical s)
    (hp : s.permitted d e a = true) :
    (e = Mem.dword s.mem slot → Mem.dword (s.walkLeaf d (some core) va level slot e a).2.mem slot = touched e a.write) ∧
    (∀ x, ¬ (slot ≤ x ∧ x < slot + 8) → Mem.read (s.walkLeaf d (some core) va level slot e a).2.mem x = Mem.read s.mem x) ∧
    ∀ q : Option Nat, q = some core ∨ q = none →
      (⟨q, va / pageSize level * pageSize level, level, touched e a.write, slot⟩ : TlbEntry) ∈
        ((s.walkLeaf d (some core) va level slot e a).2.die d).tlb := by
  have hstep : s.walkLeaf d (some core) va level slot e a = (if touched e a.write = e then s else
      s.setEntry slot (touched e a.write)).fillAndFinish d (some core) va level slot (touched e a.write) a := by
    simp only [State.walkLeaf, hp]
    rfl
  rw [hstep]
  obtain ⟨hm, ht⟩ := fillAndFinish_done (if touched e a.write = e then s else s.setEntry slot (touched e a.write)) d core va level slot
    (touched e a.write) a
  refine ⟨fun he => ?_, fun x hx => ?_, ht⟩
  · rw [hm]
    split
    · next h => rw [h, he]
    · rw [State.setEntry, mem_writePa]
      exact dword_writeN hwf slot _
  · rw [hm]
    split
    · rfl
    · rw [State.setEntry, mem_writePa, read_writeN hwf, length_leBytes, if_neg hx]

/-- The walk caches change no key slot, so what is permitted stays so. -/
theorem permitted_keepPath (s : State) (d : DieId) (va : Nat) (e : DWord) (a : Acc3) :
    (s.keepPath d va).permitted d e a = s.permitted d e a := by
  have hk (x : DieId) : ((s.keepPath d va).die x).keySlots = (s.die x).keySlots := by
    rw [State.keepPath, die_modDie]
    split <;> rfl
  simp only [State.permitted, State.keyOk, hk]

theorem exec_pageWalk {s : State} {d : DieId} {core : Nat} {va : DWord} {write fetch priv lost : Bool} {r : Tr × State}
    (hc : canonical va = true) (hh : (s.die d).coresHeld = false)
    (hr : s.walkFor d (some core) (va.extractLsb' 0 57).toNat ⟨write, fetch, priv⟩ lost = r) :
    exec (.pageWalk d core va write fetch priv lost) s = .next r.2 := by
  obtain ⟨tr, t⟩ := r
  show execPageWalk d core va write fetch priv lost s = _
  unfold execPageWalk
  rw [hc, hh, hr]
  rfl

theorem pageWalk_done {s : State} {d : DieId} {core : Nat} {va : DWord} {write fetch priv lost : Bool} {slot level : Nat} {e : DWord}
    (hc : canonical va = true) (hh : (s.die d).coresHeld = false) (hwf : MemCanonical s)
    (hw : s.walk d (va.extractLsb' 0 57).toNat = .leaf slot level e) (hp : s.permitted d e ⟨write, fetch, priv⟩ = true) :
    ∃ t, exec (.pageWalk d core va write fetch priv lost) s = .next t ∧
      (e = Mem.dword s.mem slot → Mem.dword t.mem slot = touched e write) ∧
      (∀ x, ¬ (slot ≤ x ∧ x < slot + 8) → Mem.read t.mem x = Mem.read s.mem x) ∧
      ∀ q : Option Nat, q = some core ∨ q = none →
        (⟨q, (va.extractLsb' 0 57).toNat / pageSize level * pageSize level, level, touched e write, slot⟩ : TlbEntry) ∈ (t.die d).tlb := by
  have hmem : (s.keepPath d (va.extractLsb' 0 57).toNat).mem = s.mem := mem_modDie ..
  have hwf' : MemCanonical (s.keepPath d (va.extractLsb' 0 57).toNat) := by rw [MemCanonical, hmem]; exact hwf
  have h := walkLeaf_done (core := core) (va := (va.extractLsb' 0 57).toNat) (level := level) (slot := slot) (d := d)
    (a := ⟨write, fetch, priv⟩) hwf' ((permitted_keepPath s d _ e _).trans hp)
  rw [hmem] at h
  refine ⟨_, exec_pageWalk hc hh ?_, h⟩
  rw [State.walkFor, hw, State.walkEnd]

/-- Settles O50: one lemma for each event. -/
theorem completionEvents : Obligations.CompletionEvents := by
  refine ⟨⟨fun _ _ _ _ _ _ hg ho hw hs => longLatencyComplete_done hg ho hw hs, fun s gid split g hg hh hex hall => ?_,
    fun _ _ _ _ _ _ h hh hv => ⟨heldGangHandlerEntry_done h hh hv, fun _ _ _ _ => poisonDelivery_done h hh hv⟩,
    fun _ _ _ _ _ _ _ _ _ h hh hp hi ht hf hb hm => tagWaitSatisfy_done h hh hp hi ht hf hb hm⟩,
    fun _ _ _ _ _ _ _ _ _ _ _ hc hh hwf _ hw hp => pageWalk_done hc hh hwf hw hp⟩
  obtain ⟨h1, h2, h3⟩ := rejoin_done (g := g) (split := split)
  refine ⟨_, _, faultSplitRejoin_step hg hh hex hall, group_modGroup_self (fun g => g.rejoin split) (fun _ => rfl) hg, h1,
    fun y hy hs => ?_, h3 hex⟩
  obtain ⟨x, hx, hp, k⟩ := h2 y hy hs
  exact ⟨x, hx, hp, k.pc, k.fmt, k.slices, k.poison⟩

end Sys2Proof.Proofs.MachineState
end

section
namespace Sys2Proof.Proofs.MachineState
open Sys2Proof Sys2Proof.Machine Sys2Proof.Claims Sys2Proof.Laws

/-! ## One element of a floating-point result (R176) -/

/-- Element e of a lane, rounded with the draw w24. -/
def floatEl (c : Cx) (f : VForm) (op : FOp) (t : Nat) (rm : Rm) (sat : Bool) (l : Nat) (w24 : Nat) (e : Nat) : FEl :=
  let y := op.val rm ((List.range op.n).map fun i => c.fval f t i ((srcCodes f).getD i 123) l e)
  let r := op.round (typeFmt t) rm sat w24 y.v
  ⟨r.1, y.fl ||| r.2.1, y.v, r.2.2⟩

/-- The elements of a lane where no rounding draws. -/
def floatEls (c : Cx) (f : VForm) (op : FOp) (t : Nat) (rm : Rm) (sat : Bool) (l : Nat) : List FEl :=
  (List.range (typeElems t)).map (floatEl c f op t rm sat l 0)

theorem fElems_succ (c : Cx) (f : VForm) (op : FOp) (t : Nat) (rm : Rm) (sat : Bool) (l n e : Nat) (g : Machine.Group) :
    c.fElems f op t rm sat l (n + 1) e g =
      (floatEl c f op t rm sat l (c.drawIf rm g l e).1 e :: (c.fElems f op t rm sat l n (e + 1) (c.drawIf rm g l e).2).1,
        (c.fElems f op t rm sat l n (e + 1) (c.drawIf rm g l e).2).2) := rfl

theorem drawIf_of_ne_sr {rm : Rm} (h : rm ≠ .sr) (c : Cx) (g : Machine.Group) (l j : Nat) : c.drawIf rm g l j = (0, g) := by
  cases rm with
  | sr => exact absurd rfl h
  | rne => rfl
  | rtz => rfl
  | ru => rfl
  | rd => rfl

theorem fElems_of_ne_sr {rm : Rm} (h : rm ≠ .sr) (c : Cx) (f : VForm) (op : FOp) (t : Nat) (sat : Bool) (l n e : Nat)
    (g : Machine.Group) :
    c.fElems f op t rm sat l n e g = ((List.range' e n).map (floatEl c f op t rm sat l 0), g) := by
  induction n generalizing e g with
  | zero => rfl
  | succ n ih => rw [fElems_succ, drawIf_of_ne_sr h, ih]; rfl

theorem keeps_drawIf {a : Allow} {rm : Rm} (h : rm = .sr → a.draws) (c : Cx) (g : Machine.Group) (l j : Nat) :
    Keeps a g (c.drawIf rm g l j).2 ∧ (c.drawIf rm g l j).2.gangs = g.gangs := by
  by_cases hr : rm = .sr
  · subst hr
    have hd : ¬ ¬ a.draws := not_not.mpr (h rfl)
    unfold Cx.drawIf Cx.drawFor
    dsimp only
    split
    · exact ⟨keeps_refl a g, rfl⟩
    · exact keeps_modLane a g l _ (fun _ => rfl) (fun _ => rfl) (fun _ => rfl) (fun k => absurd k hd) (fun _ => rfl)
        fun _ _ _ => ⟨rfl, rfl⟩
  · rw [drawIf_of_ne_sr hr]; exact ⟨keeps_refl a g, rfl⟩

theorem keeps_fElems {a : Allow} {rm : Rm} (h : rm = .sr → a.draws) (c : Cx) (f : VForm) (op : FOp) (t : Nat) (sat : Bool)
    (l n e : Nat) (g : Machine.Group) : Keeps a g (c.fElems f op t rm sat l n e g).2 ∧
      (c.fElems f op t rm sat l n e g).2.gangs = g.gangs := by
  induction n generalizing e g with
  | zero => exact ⟨keeps_refl a g, rfl⟩
  | succ n ih =>
    have p := keeps_drawIf h c g l e
    have q := ih (e + 1) (c.drawIf rm g l e).2
    exact ⟨keeps_trans p.1 q.1, q.2.trans p.2⟩

theorem keeps_putT (a : Allow) (g : Machine.Group) (pair : Bool) (d l bits : Nat) (gl : List Word) (h : a.vreg l d)
    (h' : pair = true → a.vreg l (d + 1)) :
    Keeps a g (g.putT pair d l bits gl) ∧ (g.putT pair d l bits gl).gangs = g.gangs := by
  cases pair with
  | true => exact keeps_putD64 a g d l (dw bits) gl h (h' rfl)
  | false => exact keeps_putD a g d l (wd bits) gl fun _ => h

/-! ## One lane -/

/-- What any write of a lane's registers may change. -/
def anyReg : Allow := ⟨fun _ => False, fun _ _ => True, 0, False⟩

theorem keeps_fLane {rm : Rm} {ls : List Nat} {draws : Prop} (h : rm = .sr → draws) (c : Cx) (f : VForm) (op : FOp) (t : Nat)
    (sat : Bool) (g : Machine.Group) (l : Nat) (hl : l ∈ ls) :
    Keeps (onlyV ls f.d.toNat (t == 3) 0xFFFFFFFF draws) g (c.fLane f op t rm sat g l) ∧
      (c.fLane f op t rm sat g l).gangs = g.gangs := by
  have p := keeps_fElems (a := onlyV ls f.d.toNat (t == 3) 0xFFFFFFFF draws) h c f op t sat l (typeElems t) 0 g
  have q (w : Word) := keeps_raise (onlyV ls f.d.toNat (t == 3) 0xFFFFFFFF draws)
    (c.fElems f op t rm sat l (typeElems t) 0 g).2 w (BitVec.and_allOnes)
  have r (g' : Machine.Group) (bits : Nat) (gl : List Word) :=
    keeps_putT (onlyV ls f.d.toNat (t == 3) 0xFFFFFFFF draws) g' (t == 3) f.d.toNat l bits gl ⟨hl, .inl rfl⟩
      fun ht => ⟨hl, .inr ⟨ht, rfl⟩⟩
  exact ⟨keeps_trans (keeps_trans p.1 (q _).1) (r _ _ _).1, (r _ _ _).2.trans ((q _).2.trans p.2)⟩

/-- A lane where no rounding draws: its flags are raised, and its elements are written together. -/
theorem fLane_of_ne_sr {rm : Rm} (h : rm ≠ .sr) (c : Cx) (f : VForm) (op : FOp) (t : Nat) (sat : Bool) (g : Machine.Group) (l : Nat) :
    ∃ gl, c.fLane f op t rm sat g l =
      (g.raise ((floatEls c f op t rm sat l).foldl (fun a e => a ||| e.fl) 0)).putT (t == 3) f.d.toNat l
        (packBits t (floatEls c f op t rm sat l)) gl := by
  unfold Cx.fLane
  rw [fElems_of_ne_sr h, ← List.range_eq_range']
  exact ⟨_, rfl⟩

theorem flags_of_keeps {a : Allow} {g g' : Machine.Group} (ha : a.flags = 0) (k : Keeps a g g') : g'.flags = g.flags := by
  obtain ⟨w, hw⟩ := k.flags
  simpa [ha] using hw

theorem flags_putT (g : Machine.Group) (pair : Bool) (d l bits : Nat) (gl : List Word) : (g.putT pair d l bits gl).flags = g.flags :=
  flags_of_keeps rfl (keeps_putT anyReg g pair d l bits gl trivial fun _ => trivial).1

theorem flags_advance (g : Machine.Group) (gg : Gang) (n : Nat) : (g.advance gg n).flags = g.flags := by
  obtain ⟨xs, gs, h⟩ := advance_eq g gg n
  rw [h]

theorem flags_hold (c : Cx) (f : VForm) (g : Machine.Group) : (c.hold f g).flags = g.flags :=
  flags_of_keeps rfl (keeps_hold onlyNone c f g).1

theorem foldl_or {α : Type} (w : α → Word) (xs : List α) (a b : Word) :
    xs.foldl (fun a x => a ||| w x) (a ||| b) = a ||| xs.foldl (fun a x => a ||| w x) b := by
  induction xs generalizing b with
  | nil => rfl
  | cons x xs ih => rw [List.foldl_cons, List.foldl_cons, BitVec.or_assoc, ih]

theorem flags_fLane {rm : Rm} (h : rm ≠ .sr) (c : Cx) (f : VForm) (op : FOp) (t : Nat) (sat : Bool) (g : Machine.Group) (l : Nat) :
    (c.fLane f op t rm sat g l).flags = (List.range (typeElems t)).foldl (fun fl k => fl ||| (floatEl c f op t rm sat l 0 k).fl) g.flags := by
  obtain ⟨gl, hf⟩ := fLane_of_ne_sr h c f op t sat g l
  rw [hf, flags_putT, floatEls, List.foldl_map]
  exact (foldl_or _ _ g.flags 0).symm.trans (by rw [BitVec.ofNat_eq_ofNat, BitVec.or_zero])

theorem flags_foldl_fLane {rm : Rm} (h : rm ≠ .sr) (c : Cx) (f : VForm) (op : FOp) (t : Nat) (sat : Bool) (ls : List Nat)
    (g : Machine.Group) : (ls.foldl (c.fLane f op t rm sat) g).flags = ls.foldl (fun fl l =>
      (List.range (typeElems t)).foldl (fun fl k => fl ||| (floatEl c f op t rm sat l 0 k).fl) fl) g.flags := by
  induction ls generalizing g with
  | nil => rfl
  | cons l ls ih => rw [List.foldl_cons, ih, flags_fLane h]; rfl

/-! ## Registers read back -/

theorem vreg_writeV (g : Machine.Group) (d l : Nat) (w : Word) (gl : List Word) (r : Nat) (hl : l < g.lanes.length)
    (hd : d < (g.lane l).v.length) : ((g.writeV l d w gl).lane l).vreg r = if r = d then w else (g.lane l).vreg r := by
  rw [writeV_lane, if_pos ⟨rfl, hl⟩, vreg_put]
  simp only [hd, and_true]

/-- A pair result: the lower word in D, the upper one in D + 1. -/
theorem vreg_putD64 (g : Machine.Group) (d l : Nat) (w : DWord) (gl : List Word) (hl : l < g.lanes.length)
    (hd : d + 1 < (g.lane l).v.length) :
    ((g.putD64 d l w gl).lane l).vreg d = lo32 w ∧ ((g.putD64 d l w gl).lane l).vreg (d + 1) = hi32 w := by
  have k := (keeps_writeV anyReg g l d (lo32 w) gl trivial).1
  have hi (r : Nat) := vreg_writeV (g.writeV l d (lo32 w) gl) (d + 1) l (hi32 w) (zeroGlove g.ident.k) r
    (by rw [k.lanes]; exact hl) (by rw [k.nregs]; exact hd)
  constructor
  · exact (hi d).trans (by rw [if_neg (by omega), vreg_writeV g d l _ gl d hl (by omega), if_pos rfl])
  · exact (hi (d + 1)).trans (if_pos rfl)

theorem vreg_putT (g : Machine.Group) (pair : Bool) (d l bits : Nat) (gl : List Word) (hl : l < g.lanes.length)
    (hd : d + (if pair then 1 else 0) < (g.lane l).v.length) (h120 : d + (if pair then 1 else 0) < 120) :
    ((g.putT pair d l bits gl).lane l).vreg d = (if pair then lo32 (dw bits) else wd bits) ∧
      (pair = true → ((g.putT pair d l bits gl).lane l).vreg (d + 1) = hi32 (dw bits)) := by
  cases pair with
  | true => exact ⟨(vreg_putD64 g d l _ gl hl hd).1, fun _ => (vreg_putD64 g d l _ gl hl hd).2⟩
  | false =>
    have h120 : d < 120 := h120
    refine ⟨?_, fun h => by cases h⟩
    simp only [Group.putT, Group.putD, Bool.false_eq_true, h120, if_true, if_false]
    exact (vreg_writeV g d l _ gl d hl hd).trans (if_pos rfl)

/-- A step that writes registers of lane l alone leaves the other lanes. -/
theorem lane_putT_ne (g : Machine.Group) (pair : Bool) (d l bits : Nat) (gl : List Word) (i : Nat) (hi : i ≠ l) (hd : d < 120) :
    (g.putT pair d l bits gl).lane i = g.lane i := by
  have other (g : Machine.Group) (n : Nat) (w : Word) (gl : List Word) : (g.writeV l n w gl).lane i = g.lane i := by
    rw [writeV_lane, if_neg fun h => hi h.1]
  cases pair with
  | true => simp [Group.putT, Group.putD64, other]
  | false => simp [Group.putT, Group.putD, hd, other]

/-! ## The fold over the lanes -/

theorem lane_fLane_ne {rm : Rm} (h : rm ≠ .sr) (c : Cx) (f : VForm) (op : FOp) (t : Nat) (sat : Bool) (g : Machine.Group) (l i : Nat)
    (hi : i ≠ l) (hd : f.d.toNat < 120) : (c.fLane f op t rm sat g l).lane i = g.lane i := by
  obtain ⟨gl, hf⟩ := fLane_of_ne_sr h c f op t sat g l
  rw [hf, lane_putT_ne _ _ _ _ _ _ _ hi hd]
  rfl

theorem vreg_fLane {rm : Rm} (h : rm ≠ .sr) (c : Cx) (f : VForm) (op : FOp) (t : Nat) (sat : Bool) (g : Machine.Group) (l : Nat)
    (hl : l < g.lanes.length) (hd : f.d.toNat + (if (t == 3) = true then 1 else 0) < (g.lane l).v.length)
    (h120 : f.d.toNat + (if (t == 3) = true then 1 else 0) < 120) :
    let bits := packBits t (floatEls c f op t rm sat l)
    ((c.fLane f op t rm sat g l).lane l).vreg f.d.toNat = (if (t == 3) = true then lo32 (dw bits) else wd bits) ∧
      ((t == 3) = true → ((c.fLane f op t rm sat g l).lane l).vreg (f.d.toNat + 1) = hi32 (dw bits)) := by
  obtain ⟨gl, hf⟩ := fLane_of_ne_sr h c f op t sat g l
  rw [hf]
  exact vreg_putT (g.raise _) (t == 3) f.d.toNat l _ gl hl hd h120

theorem vreg_foldl_fLane {rm : Rm} (h : rm ≠ .sr) (c : Cx) (f : VForm) (op : FOp) (t : Nat) (sat : Bool) (ls : List Nat)
    (hn : ls.Nodup) (g : Machine.Group) (l : Nat) (hm : l ∈ ls) (hl : l < g.lanes.length)
    (hd : f.d.toNat + (if (t == 3) = true then 1 else 0) < (g.lane l).v.length)
    (h120 : f.d.toNat + (if (t == 3) = true then 1 else 0) < 120) :
    let bits := packBits t (floatEls c f op t rm sat l)
    ((ls.foldl (c.fLane f op t rm sat) g).lane l).vreg f.d.toNat = (if (t == 3) = true then lo32 (dw bits) else wd bits) ∧
      ((t == 3) = true → ((ls.foldl (c.fLane f op t rm sat) g).lane l).vreg (f.d.toNat + 1) = hi32 (dw bits)) := by
  have keeps (g : Machine.Group) (i : Nat) := (keeps_fLane (draws := True) (ls := [i]) (fun _ => trivial) c f op t sat g i
    (List.mem_singleton_self i) (rm := rm)).1
  have rest (ls : List Nat) (g : Machine.Group) (hx : l ∉ ls) : (ls.foldl (c.fLane f op t rm sat) g).lane l = g.lane l := by
    induction ls generalizing g with
    | nil => rfl
    | cons a ls ih =>
      rw [List.mem_cons, not_or] at hx
      exact (ih _ hx.2).trans (lane_fLane_ne h c f op t sat g a l hx.1 (by omega))
  induction ls generalizing g with
  | nil => cases hm
  | cons a ls ih =>
    rw [List.nodup_cons] at hn
    rcases List.mem_cons.mp hm with rfl | hm
    · rw [List.foldl_cons, rest _ _ hn.1]
      exact vreg_fLane h c f op t sat g l hl hd h120
    · exact ih hn.2 _ hm (by rw [(keeps g a).lanes]; exact hl) (by rw [(keeps g a).nregs]; exact hd)

/-! ## An arithmetic instruction -/

/-- The group after an arithmetic instruction, before it advances. -/
def arithGroup (c : Cx) (sp : VSpec) (op : FOp) (f : VForm) : Machine.Group :=
  c.lanes.foldl (c.fLane f op (c.type sp f) (c.rm f.rnd) (c.satOf f)) (c.hold f c.g)

theorem vArith_next {s : State} {c : Cx} {sp : VSpec} {op : FOp} {f : VForm} (h : s.cx? = some c) (hc : c.vCheck sp f = .ok ()) :
    vArith sp op f s = .next (s.putGroup ((arithGroup c sp op f).advance c.gg (vLen f))) :=
  local1_next h (by rw [hc]; rfl)

theorem aluFrame_arithGroup {draws : Prop} {f : VForm} (c : Cx) (sp : VSpec) (op : FOp) (h : c.rm f.rnd = .sr → draws) :
    AluFrame (onlyV c.lanes f.d.toNat (c.type sp f == 3) 0xFFFFFFFF draws) c.g c.gg (encode (.vMov f)).length
      ((arithGroup c sp op f).advance c.gg (vLen f)) := by
  have p := keeps_hold (onlyV c.lanes f.d.toNat (c.type sp f == 3) 0xFFFFFFFF draws) c f c.g
  have q := keeps_foldl _ _ c.lanes (fun g l hl => keeps_fLane h c f op (c.type sp f) (c.satOf f) g l hl) (c.hold f c.g)
  rw [encode, length_encV]
  exact aluFrame_advance c.gg _ ⟨keeps_trans p.1 q.1, q.2.trans p.2⟩

theorem vreg_arithGroup {f : VForm} (c : Cx) (sp : VSpec) (op : FOp) (h : c.rm f.rnd ≠ .sr) (n l : Nat) (hm : l ∈ c.lanes)
    (hd : f.d.toNat + (if (c.type sp f == 3) = true then 1 else 0) < (c.g.lane l).v.length)
    (h120 : f.d.toNat + (if (c.type sp f == 3) = true then 1 else 0) < 120) :
    let bits := packBits (c.type sp f) (floatEls c f op (c.type sp f) (c.rm f.rnd) (c.satOf f) l)
    let g' := (arithGroup c sp op f).advance c.gg n
    (g'.lane l).vreg f.d.toNat = (if (c.type sp f == 3) = true then lo32 (dw bits) else wd bits) ∧
      ((c.type sp f == 3) = true → (g'.lane l).vreg (f.d.toNat + 1) = hi32 (dw bits)) := by
  have p := (keeps_hold onlyNone c f c.g).1
  simp only [Lane.vreg, lane_advance]
  exact vreg_foldl_fLane h c f op (c.type sp f) (c.satOf f) c.lanes (lanesOf_nodup _ _) (c.hold f c.g) l hm
    (by rw [p.lanes]; exact active_lt c l hm) (by rw [p.nregs]; exact hd) h120

theorem flags_arithGroup {f : VForm} (c : Cx) (sp : VSpec) (op : FOp) (h : c.rm f.rnd ≠ .sr) (n : Nat) :
    ((arithGroup c sp op f).advance c.gg n).flags = c.lanes.foldl (fun fl l => (List.range (typeElems (c.type sp f))).foldl
      (fun fl k => fl ||| (floatEl c f op (c.type sp f) (c.rm f.rnd) (c.satOf f) l 0 k).fl) fl) c.g.flags := by
  rw [flags_advance, arithGroup, flags_foldl_fLane h, flags_hold]

end Sys2Proof.Proofs.MachineState
end

section
namespace Sys2Proof.Proofs.MachineState
open Sys2Proof Sys2Proof.Machine Sys2Proof.Claims Sys2Proof.Laws

/-! ## A rounding stays within its format -/

theorem maxCode_lt (fm : Fmt) : fm.maxCode < 2 ^ (fm.width - 1) := by cases fm <;> decide

theorem infCode_lt {fm : Fmt} {c : Nat} (h : fm.infCode = some c) : c < 2 ^ (fm.width - 1) := by
  cases fm <;> simp only [Fmt.infCode, Option.some.injEq, reduceCtorEq] at h <;> subst h <;> decide

theorem nan_lt (fm : Fmt) : fm.nan < 2 ^ fm.width := by cases fm <;> decide

theorem width_split (fm : Fmt) : 2 ^ fm.width = 2 ^ (fm.width - 1) + 2 ^ (fm.width - 1) := by cases fm <;> decide

theorem code_lt {fm : Fmt} {c : Nat} (h : c < 2 ^ (fm.width - 1)) (neg : Bool) : fm.code neg c < 2 ^ fm.width := by
  have w := width_split fm
  unfold Fmt.code
  split <;> omega

theorem code_lt_of_le {fm : Fmt} {c : Nat} (h : c ≤ fm.maxCode) (neg : Bool) : fm.code neg c < 2 ^ fm.width :=
  code_lt (lt_of_le_of_lt h (maxCode_lt fm)) neg

theorem overflow_lt (fm : Fmt) (rm : Rm) (sat neg : Bool) : (fm.overflow rm sat neg).1 < 2 ^ fm.width := by
  have hmax := code_lt_of_le (le_refl fm.maxCode) neg
  unfold Fmt.overflow
  dsimp only
  split_ifs
  · exact hmax
  · exact hmax
  · cases h : fm.infCode with
    | some c => exact code_lt (infCode_lt h) neg
    | none => exact nan_lt fm

theorem roundFin_lt (fm : Fmt) (rm : Rm) (sat : Bool) (w : Nat) (neg : Bool) (x : RE) :
    (fm.roundFin rm sat w neg x).bits < 2 ^ fm.width := by
  unfold Fmt.roundFin
  dsimp only
  split
  · dsimp only
    split
    · exact Nat.two_pow_pos _
    · exact code_lt (Nat.two_pow_pos _) neg
  · split
    · next h => exact code_lt_of_le (by simp only [Bool.and_eq_true, decide_eq_true_eq] at h; exact h.2) neg
    · split
      · exact overflow_lt fm rm sat neg
      · next h =>
        dsimp only
        split
        · exact Nat.two_pow_pos _
        · exact code_lt_of_le (not_lt.mp h) neg

/-- The bits that a rounding delivers fit the format. -/
theorem roundTo_lt (fm : Fmt) (rm : Rm) (sat : Bool) (w : Nat) (v : FV) : (fm.roundTo rm sat w v).bits < 2 ^ fm.width := by
  cases v with
  | nan sig => exact nan_lt fm
  | inf neg =>
    unfold Fmt.roundTo
    dsimp only
    split
    · next c hc => exact code_lt (infCode_lt hc) neg
    · split
      · exact code_lt_of_le le_rfl neg
      · split
        · exact code_lt_of_le le_rfl neg
        · exact nan_lt fm
  | fin neg m => exact roundFin_lt fm rm sat w neg m

theorem intRound_lt (fm : Fmt) (rm : Rm) (sat : Bool) (w : Nat) (v : FV) : (intRound fm rm sat w v).1 < 2 ^ fm.width := by
  cases v with
  | fin s m =>
    unfold intRound
    dsimp only
    split <;> exact roundTo_lt ..
  | nan sig => exact roundTo_lt ..
  | inf neg => exact roundTo_lt ..

/-! ## The elements of a result (R176) -/

theorem width_typeFmt_of_packed {t : Nat} (h : packed t = true) : (typeFmt t).width = 16 := by
  rcases (by simpa [packed] using h : t = 1 ∨ t = 2) with rfl | rfl <;> rfl

theorem width_typeFmt_word {t : Nat} (h : packed t ≠ true) (h3 : t ≠ 3) : (typeFmt t).width = 32 := by
  match t with
  | 0 => rfl
  | 1 => exact absurd rfl h
  | 2 => exact absurd rfl h
  | 3 => exact absurd rfl h3
  | _ + 4 => rfl

theorem packBits_single {t : Nat} (el : Nat → FEl) (h : packed t ≠ true) :
    packBits t ((List.range (typeElems t)).map el) = (el 0).bits := by
  rw [typeElems, if_neg h]; rfl

theorem packBits_two {t : Nat} (el : Nat → FEl) (h : packed t = true) :
    packBits t ((List.range (typeElems t)).map el) = (el 0).bits + 65536 * (el 1).bits := by
  rw [typeElems, if_pos h]
  exact if_pos h

theorem hi_append_lo (v : DWord) : hi32 v ++ lo32 v = v := BitVec.extractLsb'_append_extractLsb'

/-- The elements of a result are read back from the words that it writes. -/
theorem resElem_packBits {t : Nat} (el : Nat → FEl) (hel : ∀ k, (el k).bits < 2 ^ (typeFmt t).width) {w0 w1 : Word}
    (h0 : w0 = if (t == 3) = true then lo32 (dw (packBits t ((List.range (typeElems t)).map el)))
      else wd (packBits t ((List.range (typeElems t)).map el)))
    (h1 : (t == 3) = true → w1 = hi32 (dw (packBits t ((List.range (typeElems t)).map el)))) {k : Nat} (hk : k < typeElems t) :
    resElem t w0 w1 k = (el k).bits := by
  by_cases hp : packed t = true
  · have hw := width_typeFmt_of_packed hp
    have ht : t = 1 ∨ t = 2 := by simpa [packed] using hp
    have h3 : ¬ (t == 3) = true := by rw [beq_iff_eq]; omega
    have b0 := hel 0
    have b1 := hel 1
    rw [hw] at b0 b1
    rw [if_neg h3, packBits_two el hp] at h0
    rw [resElem, if_neg (by omega), if_pos ht, h0, wd, BitVec.extractLsb'_toNat, BitVec.toNat_ofNat]
    rw [typeElems, if_pos hp] at hk
    obtain rfl | rfl : k = 0 ∨ k = 1 := by omega
    · simp only [Nat.shiftRight_eq_div_pow]; omega
    · simp only [Nat.shiftRight_eq_div_pow]; omega
  · rw [typeElems, if_neg hp] at hk
    obtain rfl : k = 0 := by omega
    rw [packBits_single el hp] at h0 h1
    have b0 := hel 0
    by_cases h3 : t = 3
    · subst h3
      rw [resElem, if_pos rfl, h0, h1 rfl, if_pos (BEq.rfl), hi_append_lo, dw, BitVec.toNat_ofNat]
      exact Nat.mod_eq_of_lt b0
    · rw [width_typeFmt_word hp h3] at b0
      rw [resElem, if_neg h3, if_neg (by simpa [packed] using hp), h0, if_neg (by simpa using h3), wd, BitVec.toNat_ofNat,
        Nat.mod_eq_of_lt b0]

/-! ## The sources as binary32 values (R83) -/

theorem toNat_clear_sign (w : Word) : (w &&& 0x7FFFFFFF).toNat = w.toNat % 2 ^ 31 := by
  rw [BitVec.toNat_and]
  exact Nat.and_two_pow_sub_one_eq_mod w.toNat 31

theorem toNat_flip_sign (w : Word) :
    (w ^^^ 0x80000000).toNat = if w.toNat / 2 ^ 31 % 2 = 1 then w.toNat - 2 ^ 31 else w.toNat + 2 ^ 31 := by
  have hx : (w ^^^ 0x80000000).toNat = w.toNat ^^^ 2 ^ 31 := BitVec.toNat_xor _ _
  have hlo : (w.toNat ^^^ 2 ^ 31) % 2 ^ 31 = w.toNat % 2 ^ 31 := by
    rw [Nat.xor_mod_two_pow, Nat.mod_self, Nat.xor_zero]
  have hhi : (w.toNat ^^^ 2 ^ 31) / 2 ^ 31 = w.toNat / 2 ^ 31 ^^^ 1 := by
    rw [← Nat.shiftRight_eq_div_pow, Nat.shiftRight_xor_distrib, Nat.shiftRight_eq_div_pow, Nat.shiftRight_eq_div_pow]
    rfl
  have hw := w.isLt
  rw [hx]
  obtain h | h : w.toNat / 2 ^ 31 = 0 ∨ w.toNat / 2 ^ 31 = 1 := by omega
  · rw [h] at hhi ⊢
    rw [if_neg (by decide)]
    have : (0 ^^^ 1 : Nat) = 1 := rfl
    omega
  · rw [h] at hhi ⊢
    rw [if_pos rfl]
    have : (1 ^^^ 1 : Nat) = 0 := rfl
    omega

/-- A source of a binary32 instruction, decoded, is that of R83. -/
theorem fval_word (c : Cx) (f : VForm) (i code l : Nat) : c.fval f 0 i code l 0 = srcF32 c f i code l := by
  have habs (w : Word) : (if f.absBit i then w &&& 0x7FFFFFFF else w).toNat = if f.absBit i then w.toNat % 2 ^ 31 else w.toNat := by
    split
    · exact toNat_clear_sign w
    · rfl
  have hneg (w : Word) : (if f.negBit i then w ^^^ 0x80000000 else w).toNat =
      if f.negBit i then (if w.toNat / 2 ^ 31 % 2 = 1 then w.toNat - 2 ^ 31 else w.toNat + 2 ^ 31) else w.toNat := by
    split
    · exact toNat_flip_sign w
    · rfl
  unfold srcF32
  dsimp only
  rw [hneg, habs]
  rfl

/-! ## Parts two and three of the statement -/

/-- Every entry of Table 6.3 is one shape, and its rounding fits the format. -/
theorem exec_floatTable : ∀ e ∈ floatTable, (∀ f s, exec (e.1 f) s = vArith e.2.1 e.2.2 f s) ∧
    (e.2.2.round = stdRound ∨ e.2.2.round = intRound) := by
  intro e he
  simp only [floatTable, List.mem_cons, List.not_mem_nil, or_false] at he
  obtain rfl | rfl | rfl | rfl | rfl | rfl | rfl | rfl | rfl | rfl | rfl | rfl | rfl | rfl := he
  case inr.inr.inr.inr.inr.inr.inr.inr.inr.inr.inr.inr.inr => exact ⟨fun _ _ => rfl, .inr rfl⟩
  all_goals exact ⟨fun _ _ => rfl, .inl rfl⟩

theorem floatEl_bits_lt {op : FOp} (h : op.round = stdRound ∨ op.round = intRound) (c : Cx) (f : VForm) (t : Nat) (rm : Rm) (sat : Bool)
    (l w k : Nat) : (floatEl c f op t rm sat l w k).bits < 2 ^ (typeFmt t).width := by
  unfold floatEl
  dsimp only
  rcases h with h | h <;> rw [h]
  · exact roundTo_lt ..
  · exact intRound_lt ..

/-- An element of the result is the one rounding of the exact function. -/
theorem floatEl_eq (c : Cx) (f : VForm) (op : FOp) (t l k : Nat) :
    ((floatEl c f op t (c.rm f.rnd) (c.satOf f) l 0 k).bits, (floatEl c f op t (c.rm f.rnd) (c.satOf f) l 0 k).fl) =
      arithElem c f op t l k := rfl

/-- A binary32 element is that of the sources of R83. -/
theorem floatEl_word (c : Cx) (f : VForm) (op : FOp) (l : Nat) :
    (floatEl c f op 0 (c.rm f.rnd) (c.satOf f) l 0 0).bits = (op.round .f32 (c.rm f.rnd) (c.satOf f) 0
      (op.val (c.rm f.rnd) ((List.range op.n).map fun i => srcF32 c f i ([f.a.toNat, f.b.toNat, f.c].getD i 123) l)).v).1 := by
  simp only [← fval_word]
  rfl

theorem typeElems_eq (t : Nat) : typeElems t = if t = 1 ∨ t = 2 then 2 else 1 := by
  simp only [typeElems, packed, Bool.or_eq_true, beq_iff_eq]

/-- An arithmetic instruction completes inside its frame; where no rounding draws, D holds the elements. -/
theorem vArith_done {s : State} {c : Cx} {f : VForm} {sp : VSpec} {op : FOp} {draws : Prop} {v : Nat → List Word → Prop}
    (h : s.cx? = some c) (hc : c.vCheck sp f = .ok ()) (hop : op.round = stdRound ∨ op.round = intRound)
    (hd : c.rm f.rnd = .sr → draws) (hsr : c.rm f.rnd = .sr → ∀ l ws, v l ws)
    (hv : notSr c f → ∀ l w0 w1, (∀ k < typeElems (c.type sp f), resElem (c.type sp f) w0 w1 k =
      (floatEl c f op (c.type sp f) (c.rm f.rnd) (c.satOf f) l 0 k).bits) → v l [w0, w1]) :
    VectorDone s c f (c.type sp f == 3) 0xFFFFFFFF draws v (vArith sp op f s) := by
  refine ⟨_, vArith_next h hc, aluFrame_arithGroup c sp op hd, fun l hl h1 h2 => ?_⟩
  by_cases hr : c.rm f.rnd = .sr
  · exact hsr hr l _
  · obtain ⟨w0, w1⟩ := vreg_arithGroup c sp op hr (vLen f) l hl h1 h2
    exact hv hr l _ _ fun k hk => resElem_packBits _ (floatEl_bits_lt hop c f _ _ _ l 0) w0 w1 hk

theorem floatArithmetic_elements : ∀ (s : State) (c : Cx) (f : VForm), s.cx? = some c → ∀ e ∈ floatTable,
    c.vCheck e.2.1 f = .ok () → notSr c f →
    let t := e.2.1.type (c.gg.fmt.getLsbD 8) f
    let n := if t = 1 ∨ t = 2 then 2 else 1
    VectorDone s c f (t == 3) 0xFFFFFFFF False (fun l ws => ∃ w0 w1, ws = [w0, w1] ∧
      ∀ k < n, resElem t w0 w1 k = (arithElem c f e.2.2 t l k).1) (exec (e.1 f) s) ∧
    GroupStep s (fun g' => g'.flags = c.lanes.foldl (fun fl l => (List.range n).foldl (fun fl k =>
      fl ||| (arithElem c f e.2.2 t l k).2) fl) c.g.flags) (exec (e.1 f) s) := by
  intro s c f h e he hc hr t n
  obtain ⟨hexec, hop⟩ := exec_floatTable e he
  have hn : typeElems t = n := typeElems_eq t
  rw [hexec, ← hn]
  exact ⟨vArith_done h hc hop (fun k => hr k) (fun k => absurd k hr) fun _ l w0 w1 hw => ⟨w0, w1, rfl, hw⟩,
    _, vArith_next h hc, flags_arithGroup c e.2.1 e.2.2 hr (vLen f)⟩

theorem floatArithmetic_words : ∀ (s : State) (c : Cx) (f : VForm), s.cx? = some c → ∀ e ∈ floatTable, c.vCheck e.2.1 f = .ok () →
    let t := e.2.1.type (c.gg.fmt.getLsbD 8) f
    VectorDone s c f (t == 3) 0xFFFFFFFF (c.rm f.rnd = .sr) (fun l ws => t = 0 → notSr c f →
      let xs := (List.range e.2.2.n).map fun i => srcF32 c f i ([f.a.toNat, f.b.toNat, f.c].getD i 123) l
      ws[0]? = some (BitVec.ofNat 32
        (e.2.2.round .f32 (c.rm f.rnd) (c.satOf f) 0 (e.2.2.val (c.rm f.rnd) xs).v).1)) (exec (e.1 f) s) := by
  intro s c f h e he hc t
  obtain ⟨hexec, hop⟩ := exec_floatTable e he
  rw [hexec]
  refine vArith_done h hc hop id (fun hr _ _ _ k => absurd hr k) fun _ l w0 w1 hw ht _ => ?_
  have ht : c.type e.2.1 f = 0 := ht
  have hw := hw 0 (by rw [ht]; decide)
  rw [ht, floatEl_word] at hw
  dsimp only
  rw [← hw]
  simp [resElem]

end Sys2Proof.Proofs.MachineState
end

section
namespace Sys2Proof.Proofs.MachineState
open Sys2Proof Sys2Proof.Machine Sys2Proof.Claims Sys2Proof.Laws

/-! ## Rationals as reals -/

/-- The real that a rational stands for. -/
noncomputable def qVal (q : Q) : ℝ := (q.n : ℝ) / (q.d : ℝ)

theorem reVal_rat (q : Q) : reVal (.rat q) = qVal q := rfl

theorem den_pos {q : Q} (h : 0 < q.d) : (0 : ℝ) < q.d := Nat.cast_pos.mpr h

theorem qVal_ofInt (i : Int) : qVal (.ofInt i) = i := by simp [qVal, Q.ofInt]

theorem qVal_one : qVal .one = 1 := by simp [qVal, Q.one]

theorem qVal_neg (x : Q) : qVal x.neg = -qVal x := by simp [qVal, Q.neg, neg_div]

theorem qVal_mul (x y : Q) : qVal (x.mul y) = qVal x * qVal y := by
  simp [qVal, Q.mul, div_mul_div_comm]

theorem qVal_add {x y : Q} (hx : 0 < x.d) (hy : 0 < y.d) : qVal (x.add y) = qVal x + qVal y := by
  have hx := (den_pos hx).ne'
  have hy := (den_pos hy).ne'
  unfold Q.add qVal
  split
  · next h => rw [← h]; push_cast; field_simp
  · push_cast; field_simp

theorem d_add_pos {x y : Q} (hx : 0 < x.d) (hy : 0 < y.d) : 0 < (x.add y).d := by
  unfold Q.add
  split
  · exact hx
  · exact Nat.mul_pos hx hy

theorem qVal_sub {x y : Q} (hx : 0 < x.d) (hy : 0 < y.d) : qVal (x.sub y) = qVal x - qVal y := by
  rw [Q.sub, qVal_add hx (show 0 < y.neg.d from hy), qVal_neg, sub_eq_add_neg]

theorem qVal_inv (x : Q) : qVal x.inv = (qVal x)⁻¹ := by
  unfold Q.inv qVal
  have habs : ((x.n.natAbs : ℕ) : ℝ) = |(x.n : ℝ)| := by rw [Nat.cast_natAbs, Int.cast_abs]
  rw [inv_div]
  split
  · next h =>
    have h : (x.n : ℝ) < 0 := Int.cast_lt_zero.mpr h
    rw [habs, abs_of_neg h]
    push_cast
    rw [neg_div_neg_eq]
  · next h =>
    have h : (0 : ℝ) ≤ x.n := Int.cast_nonneg (not_lt.mp h)
    rw [habs, abs_of_nonneg h]
    push_cast
    rfl

theorem d_inv_pos {x : Q} (h : x.n ≠ 0) : 0 < x.inv.d := by
  unfold Q.inv
  split <;> exact Int.natAbs_pos.mpr h

theorem qVal_shl (x : Q) (k : Int) : qVal (x.shl k) = qVal x * (2 : ℝ) ^ k := by
  unfold Q.shl qVal
  split
  · next h =>
    obtain ⟨n, rfl⟩ : ∃ n : ℕ, k = -(n : Int) := ⟨k.natAbs, by omega⟩
    rw [zpow_neg, zpow_natCast, Int.natAbs_neg, Int.natAbs_natCast]
    push_cast
    rw [div_mul_eq_div_div, div_eq_mul_inv]
  · next h =>
    obtain ⟨n, rfl⟩ : ∃ n : ℕ, k = (n : Int) := ⟨k.natAbs, by omega⟩
    rw [zpow_natCast, Int.natAbs_natCast]
    push_cast
    ring

theorem d_shl_pos {x : Q} (h : 0 < x.d) (k : Int) : 0 < (x.shl k).d := by
  unfold Q.shl
  split
  · exact Nat.mul_pos h (Nat.two_pow_pos _)
  · exact h

theorem n_shl_nonneg {x : Q} (h : 0 ≤ x.n) (k : Int) : 0 ≤ (x.shl k).n := by
  unfold Q.shl
  split
  · exact h
  · exact Int.mul_nonneg h (by positivity)

theorem qVal_pow2 (k : Int) : qVal (.pow2 k) = (2 : ℝ) ^ k := by
  have h : Q.pow2 k = Q.one.shl k := by simp [Q.pow2, Q.shl, Q.one]
  rw [h, qVal_shl, qVal_one, one_mul]

theorem d_pow2_pos (k : Int) : 0 < (Q.pow2 k).d := by
  unfold Q.pow2
  split
  · exact Nat.two_pow_pos _
  · exact Nat.one_pos

theorem lt_iff_qVal {x y : Q} (hx : 0 < x.d) (hy : 0 < y.d) : x.lt y = true ↔ qVal x < qVal y := by
  rw [Q.lt, decide_eq_true_iff, qVal, qVal, div_lt_div_iff₀ (den_pos hx) (den_pos hy)]
  exact_mod_cast Iff.rfl

theorem eq_iff_qVal {x y : Q} (hx : 0 < x.d) (hy : 0 < y.d) : x.eq y = true ↔ qVal x = qVal y := by
  rw [Q.eq, beq_iff_eq, qVal, qVal, div_eq_div_iff (den_pos hx).ne' (den_pos hy).ne']
  exact_mod_cast Iff.rfl

theorem n_eq_zero_iff {x : Q} (hx : 0 < x.d) : x.n = 0 ↔ qVal x = 0 := by
  rw [qVal, div_eq_zero_iff, or_iff_left (den_pos hx).ne', Int.cast_eq_zero]

theorem n_neg_iff {x : Q} (hx : 0 < x.d) : x.n < 0 ↔ qVal x < 0 := by
  rw [qVal, div_lt_iff₀ (den_pos hx), zero_mul, Int.cast_lt_zero]

theorem n_nonneg_iff {x : Q} (hx : 0 < x.d) : 0 ≤ x.n ↔ 0 ≤ qVal x := by
  rw [← not_lt, n_neg_iff hx, not_lt]

/-! ## Exact reals -/

theorem isZero_rat (q : Q) : (RE.rat q).isZero = (q.n == 0) := by
  by_cases h : q.n = 0
  · simp [RE.isZero, RE.rat?, Q.isZero, h]
  · have hq : q ≠ Q.zero := fun e => h (e ▸ rfl)
    simp [RE.isZero, RE.rat?, Q.isZero, h, hq]

theorem sign_rat (q : Q) : (RE.rat q).sign = if q.n < 0 then -1 else if q.n = 0 then 0 else 1 := rfl

/-- A rational as a finite value keeps its real, whatever sign a zero takes. -/
theorem fvReal_ofRE_rat (z : Bool) {q : Q} (h : 0 < q.d) : fvReal (FV.ofRE z (.rat q)) = some (qVal q) := by
  unfold FV.ofRE
  rw [sign_rat]
  by_cases hneg : q.n < 0
  · simp only [hneg, if_true]
    norm_num [fvReal, RE.minus, reVal_rat, qVal_neg]
  · by_cases hz : q.n = 0
    · have hv := (n_eq_zero_iff h).mp hz
      simp [hz, fvReal, RE.zero, Q.zero, reVal, hv]
    · simp [hneg, hz, fvReal, reVal_rat]

theorem reVal_ofInt (i : Int) : reVal (.ofInt i) = i := qVal_ofInt i

theorem reVal_mkSqrt {q : Q} (hn : 0 ≤ q.n) (hd : 0 < q.d) : reVal (.mkSqrt q) = Real.sqrt (qVal q) := by
  unfold RE.mkSqrt
  split
  · next r hr =>
    unfold Q.sqrt? at hr
    dsimp only at hr
    split at hr
    · next hsq =>
      cases hr
      generalize isqrt (q.n.natAbs * q.d) = r at hsq
      have hN : ((q.n.natAbs : ℕ) : ℝ) = (q.n : ℝ) := by rw [Nat.cast_natAbs, abs_of_nonneg hn]
      have hsq : (r : ℝ) * r = q.n * q.d := by rw [← hN]; exact_mod_cast hsq
      have hd := den_pos hd
      have hroot : qVal q = ((r : ℝ) / q.d) ^ 2 := by
        rw [qVal, div_pow, sq (r : ℝ), hsq, sq, mul_div_mul_right _ _ hd.ne']
      rw [hroot, Real.sqrt_sq (by positivity)]
      rfl
    · cases hr
  · rfl

theorem reVal_mkLog2 {q : Q} (hd : 0 < q.d) : reVal (.mkLog2 q) = Real.logb 2 (qVal q) := by
  unfold RE.mkLog2
  split
  · next k hk =>
    unfold Q.pow2? at hk
    dsimp only at hk
    split at hk
    · cases hk
    · split at hk
      · next he =>
        cases hk
        rw [eq_iff_qVal (d_pow2_pos _) hd, qVal_pow2] at he
        rw [show reVal (.rat (.ofInt q.log2)) = q.log2 from reVal_ofInt _, ← he, ← Real.rpow_intCast, Real.logb_rpow (by norm_num) (by norm_num)]
      · cases hk
  · rfl

theorem reVal_mkExp2 {q : Q} (hd : 0 < q.d) (h : |qVal q| ≤ 4000) : reVal (.mkExp2 q) = (2 : ℝ) ^ qVal q := by
  have h := abs_le.mp h
  have hhi : ¬ (Q.ofInt 5000).lt q = true := by
    rw [lt_iff_qVal Nat.one_pos hd, qVal_ofInt]; norm_num; linarith
  have hlo : ¬ q.lt (Q.ofInt (-5000)) = true := by
    rw [lt_iff_qVal hd Nat.one_pos, qVal_ofInt]; norm_num; linarith
  unfold RE.mkExp2
  rw [if_neg hhi, if_neg hlo]
  split
  · next he =>
    rw [eq_iff_qVal Nat.one_pos hd, qVal_ofInt] at he
    rw [reVal_rat, qVal_pow2, ← he, Real.rpow_intCast]
  · rfl

/-- Reducing modulo 2 leaves the sine of π times the number. -/
theorem sin_mod2 {q : Q} (hd : 0 < q.d) : Real.sin (Real.pi * qVal q.mod2) = Real.sin (Real.pi * qVal q) := by
  rw [Q.mod2, qVal_sub hd Nat.one_pos, qVal_ofInt]
  generalize (q.mul ⟨1, 2⟩).floor = k
  rw [← Real.sin_sub_int_mul_two_pi (Real.pi * qVal q) k]
  congr 1
  push_cast
  ring

theorem d_mod2_pos {q : Q} (hd : 0 < q.d) : 0 < q.mod2.d := d_add_pos hd Nat.one_pos

theorem reVal_mkSinPi {q : Q} (hd : 0 < q.d) : reVal (.mkSinPi q) = Real.sin (Real.pi * qVal q) := by
  have hm := d_mod2_pos hd
  rw [← sin_mod2 hd]
  unfold RE.mkSinPi
  dsimp only
  split
  · next h =>
    rw [Bool.or_eq_true, Q.isZero, beq_iff_eq, n_eq_zero_iff hm, eq_iff_qVal hm Nat.one_pos, qVal_one] at h
    rcases h with h | h <;> rw [h] <;> simp [RE.zero, Q.zero, reVal]
  · split
    · next h =>
      rw [eq_iff_qVal hm Nat.two_pos] at h
      have hv : Real.pi * qVal ⟨1, 2⟩ = Real.pi / 2 := by norm_num [qVal]; ring
      rw [h, hv, Real.sin_pi_div_two, RE.one, reVal_rat, qVal_one]
    · split
      · next h =>
        rw [eq_iff_qVal hm Nat.two_pos] at h
        have hv : Real.pi * qVal ⟨3, 2⟩ = Real.pi / 2 + Real.pi := by norm_num [qVal]; ring
        rw [h, hv, Real.sin_add_pi, Real.sin_pi_div_two, reVal_ofInt]
        norm_num
      · rfl

theorem reVal_mkCosPi {q : Q} (hd : 0 < q.d) : reVal (.mkCosPi q) = Real.cos (Real.pi * qVal q) := by
  have hv : Real.pi * (qVal q + qVal ⟨1, 2⟩) = Real.pi * qVal q + Real.pi / 2 := by norm_num [qVal]; ring
  rw [RE.mkCosPi, reVal_mkSinPi (d_add_pos hd Nat.two_pos), qVal_add hd Nat.two_pos, hv, Real.sin_add_pi_div_two]

theorem qVal_abs (q : Q) : qVal q.abs = |qVal q| := by
  rw [qVal, qVal, Q.abs, abs_div, Nat.abs_cast]
  push_cast
  rfl

theorem ofInt_lt_abs (i : Int) {q : Q} (hd : 0 < q.d) : (Q.ofInt i).lt q.abs = true ↔ (i : ℝ) < |qVal q| := by
  rw [lt_iff_qVal (x := .ofInt i) (y := q.abs) Nat.one_pos hd, qVal_ofInt, qVal_abs]

theorem reVal_mkTanh {q : Q} (hd : 0 < q.d) (h : |qVal q| ≤ 2000) : reVal (.mkTanh q) = Real.tanh (qVal q) := by
  have hbig : ¬ (Q.ofInt 2000).lt q.abs = true := by
    rw [ofInt_lt_abs _ hd]; push_cast; exact not_lt.mpr h
  unfold RE.mkTanh
  rw [if_neg hbig]
  split
  · next hz =>
    rw [Q.isZero, beq_iff_eq, n_eq_zero_iff hd] at hz
    rw [hz, Real.tanh_zero]
    exact (qVal_ofInt 0).trans Int.cast_zero
  · rfl

/-- Beyond 2000 the value stands for a number of the operand's sign below 1 by 2 to the -11000. -/
theorem reVal_mkTanh_large {q : Q} (hd : 0 < q.d) (h : 2000 < |qVal q|) :
    reVal (.mkTanh q) = if qVal q < 0 then -(1 - (2 : ℝ) ^ (-11000 : ℤ)) else 1 - (2 : ℝ) ^ (-11000 : ℤ) := by
  have hbig : (Q.ofInt 2000).lt q.abs = true := by
    rw [ofInt_lt_abs _ hd]; push_cast; exact h
  have hz : ¬ q.isZero = true := by
    rw [Q.isZero, beq_iff_eq, n_eq_zero_iff hd]
    intro e
    rw [e] at h
    norm_num at h
  have ht : qVal (Q.one.sub (Q.pow2 (-11000))) = 1 - (2 : ℝ) ^ (-11000 : ℤ) := by
    rw [qVal_sub Nat.one_pos (d_pow2_pos _), qVal_one, qVal_pow2]
  unfold RE.mkTanh
  rw [if_neg hz, if_pos hbig, reVal_rat, ← ht]
  simp only [← n_neg_iff hd]
  split
  · exact qVal_neg _
  · rfl

/-! ## Decoding a binary32 word (R11, R50) -/

/-- The magnitude of a binary32 code, as a rational. -/
def f32Mag (c : Nat) : Q :=
  if c / 2 ^ 23 = 0 then (Q.ofInt c).shl (-149) else (Q.ofInt (c % 2 ^ 23 + 2 ^ 23 : Nat)).shl ((c / 2 ^ 23 : Nat) - 150)

theorem mag_f32 (c : Nat) : Fmt.f32.mag c = .rat (f32Mag c) := by
  have he : (-126 : Int) + (c / 2 ^ 23 : Nat) - 1 - 23 = (c / 2 ^ 23 : Nat) - 150 := by omega
  unfold f32Mag
  rw [← he]
  exact (apply_ite RE.rat _ _ _).symm

theorem d_f32Mag_pos (c : Nat) : 0 < (f32Mag c).d := by
  unfold f32Mag
  split <;> exact d_shl_pos Nat.one_pos _

theorem qVal_f32Mag_nonneg (c : Nat) : 0 ≤ qVal (f32Mag c) := by
  unfold f32Mag
  split <;> rw [qVal_shl, qVal_ofInt] <;> positivity

theorem toNat_exponent (w : Word) : (w.extractLsb' 23 8).toNat = w.toNat % 2 ^ 31 / 2 ^ 23 := by
  rw [BitVec.extractLsb'_toNat, Nat.shiftRight_eq_div_pow]
  omega

theorem toNat_fraction (w : Word) : (w.extractLsb' 0 23).toNat = w.toNat % 2 ^ 31 % 2 ^ 23 := by
  rw [BitVec.extractLsb'_toNat, Nat.shiftRight_eq_div_pow]
  omega

theorem signBit_eq (w : Word) : (w.toNat / 2 ^ 31 == 1) = w.getLsbD 31 := by
  have hw := w.isLt
  rw [BitVec.getLsbD, Nat.testBit_eq_decide_div_mod_eq, Nat.mod_eq_of_lt (by omega)]
  rfl

theorem decode_f32 {w : Word} (h : finiteWord w) :
    Fmt.f32.decode w.toNat = .fin (w.getLsbD 31) (.rat (f32Mag (w.toNat % 2 ^ 31))) := by
  have hw : w.toNat % 2 ^ 32 = w.toNat := Nat.mod_eq_of_lt w.isLt
  have hfin : w.toNat % 2 ^ 31 ≤ 0x7F7FFFFF := by
    have he : w.toNat % 2 ^ 31 / 2 ^ 23 ≠ 255 := fun e => h (BitVec.eq_of_toNat_eq ((toNat_exponent w).trans e))
    omega
  have hdec : Fmt.f32.decode w.toNat = if w.toNat % 2 ^ 32 % 2 ^ 31 ≤ 0x7F7FFFFF
      then .fin (w.toNat % 2 ^ 32 / 2 ^ 31 == 1) (Fmt.f32.mag (w.toNat % 2 ^ 32 % 2 ^ 31))
      else if Fmt.infCode .f32 = some (w.toNat % 2 ^ 32 % 2 ^ 31) then .inf (w.toNat % 2 ^ 32 / 2 ^ 31 == 1)
      else .nan (w.toNat % 2 ^ 32 % 2 ^ 31 / 2 ^ 22 % 2 == 0) := rfl
  rw [hdec, hw, if_pos hfin, signBit_eq, mag_f32]

theorem wordVal_eq (w : Word) : wordVal w =
    if w.getLsbD 31 then -qVal (f32Mag (w.toNat % 2 ^ 31)) else qVal (f32Mag (w.toNat % 2 ^ 31)) := by
  have hmag : qVal (f32Mag (w.toNat % 2 ^ 31)) = if (w.extractLsb' 23 8).toNat = 0
      then ((w.extractLsb' 0 23).toNat : ℝ) * (2 : ℝ) ^ (-149 : ℤ)
      else (((w.extractLsb' 0 23).toNat + 2 ^ 23 : Nat) : ℝ) * (2 : ℝ) ^ (((w.extractLsb' 23 8).toNat : ℤ) - 150) := by
    rw [toNat_exponent, toNat_fraction, f32Mag]
    split
    · next h0 =>
      rw [qVal_shl, qVal_ofInt, Int.cast_natCast, Nat.mod_eq_of_lt (Nat.lt_of_div_eq_zero (by decide) h0)]
    · rw [qVal_shl, qVal_ofInt, Int.cast_natCast]
  unfold wordVal
  dsimp only
  rw [← hmag]
  split
  · exact neg_one_mul _
  · exact one_mul _

/-! ## Finite operands -/

/-- v is the finite value of the real x with sign bit s, as a rational. -/
structure IsRat (v : FV) (s : Bool) (m : Q) (x : ℝ) : Prop where
  eq : v = .fin s (.rat m)
  den : 0 < m.d
  nonneg : 0 ≤ qVal m
  val : x = if s then -qVal m else qVal m

theorem isRat_word {w : Word} (h : finiteWord w) :
    IsRat (Fmt.f32.decode w.toNat) (w.getLsbD 31) (f32Mag (w.toNat % 2 ^ 31)) (wordVal w) :=
  ⟨decode_f32 h, d_f32Mag_pos _, qVal_f32Mag_nonneg _, wordVal_eq w⟩

/-- A magnitude with its sign. -/
def signedQ (s : Bool) (m : Q) : Q := if s then m.neg else m

section
variable {v w u : FV} {s s' s'' : Bool} {m m' m'' : Q} {x y z : ℝ}

theorem isRat_neg (h : IsRat v s m x) : IsRat v.neg (!s) m (-x) where
  eq := by rw [h.eq]; rfl
  den := h.den
  nonneg := h.nonneg
  val := by rw [h.val]; cases s <;> simp

theorem d_signedQ (h : IsRat v s m x) : 0 < (signedQ s m).d := by
  unfold signedQ
  split <;> exact h.den

theorem qVal_signedQ (h : IsRat v s m x) : qVal (signedQ s m) = x := by
  rw [h.val]
  cases s
  · rfl
  · exact qVal_neg m

theorem real_of_isRat (h : IsRat v s m x) : v.real = .rat (signedQ s m) := by
  rw [h.eq]
  cases s <;> rfl

theorem fvReal_of_isRat (h : IsRat v s m x) : fvReal v = some x := by
  rw [h.eq, h.val]
  rfl

theorem zero_iff (h : IsRat v s m x) : m.n = 0 ↔ x = 0 := by
  rw [n_eq_zero_iff h.den, h.val]
  cases s <;> simp

theorem isZero_iff (h : IsRat v s m x) : v.isZero = true ↔ x = 0 := by
  rw [h.eq, ← zero_iff h, FV.isZero, isZero_rat, beq_iff_eq]

theorem sumFV_rat (rm : Rm) (h : IsRat v s m x) (k : IsRat w s' m' y) :
    ∃ z q, sumFV rm [v, w] = ⟨FV.ofRE z (.rat q), 0⟩ ∧ 0 < q.d ∧ qVal q = x + y := by
  have hz : 0 < (Q.zero.add (signedQ s m)).d := d_add_pos Nat.one_pos (d_signedQ h)
  refine ⟨zeroSign rm [v, w], (Q.zero.add (signedQ s m)).add (signedQ s' m'), ?_, d_add_pos hz (d_signedQ k), ?_⟩
  · have hs : RE.sum [v.real, w.real] = .rat ((Q.zero.add (signedQ s m)).add (signedQ s' m')) := by
      rw [real_of_isRat h, real_of_isRat k]; rfl
    rw [← hs, h.eq, k.eq]
    rfl
  · rw [qVal_add hz (d_signedQ k), qVal_add Nat.one_pos (d_signedQ h), qVal_signedQ h, qVal_signedQ k]
    simp [qVal, Q.zero]

theorem sumFV_is (rm : Rm) (h : IsRat v s m x) (k : IsRat w s' m' y) :
    fvReal (sumFV rm [v, w]).v = some (x + y) ∧ (sumFV rm [v, w]).fl = 0 := by
  obtain ⟨z, q, hs, hd, hv⟩ := sumFV_rat rm h k
  rw [hs, ← hv]
  exact ⟨fvReal_ofRE_rat z hd, rfl⟩

theorem mulFV_rat (h : IsRat v s m x) (k : IsRat w s' m' y) :
    mulFV v w = ⟨.fin (s != s') (.rat (m.mul m')), 0⟩ ∧ IsRat (mulFV v w).v (s != s') (m.mul m') (x * y) := by
  have he : mulFV v w = ⟨.fin (s != s') (.rat (m.mul m')), 0⟩ := by
    rw [h.eq, k.eq]
    simp [mulFV, FV.isInf, FV.isNan, FV.sign, FV.magRE, RE.times]
  refine ⟨he, by rw [he], Nat.mul_pos h.den k.den, ?_, ?_⟩
  · rw [qVal_mul]; exact mul_nonneg h.nonneg k.nonneg
  · rw [qVal_mul, h.val, k.val]
    cases s <;> cases s' <;> simp

theorem divFV_rat (h : IsRat v s m x) (k : IsRat w s' m' y) (hy : y ≠ 0) :
    fvReal (divFV v w).v = some (x / y) ∧ (divFV v w).fl = 0 := by
  have hz : w.isZero = false := by rw [Bool.eq_false_iff, Ne, isZero_iff k]; exact hy
  have he : divFV v w = ⟨.fin (s != s') (.rat (m.mul m'.inv)), 0⟩ := by
    rw [k.eq] at hz
    rw [h.eq, k.eq]
    simp [divFV, hz, FV.isInf, FV.isNan, FV.sign, FV.magRE, RE.times, RE.recip]
  rw [he]
  refine ⟨?_, rfl⟩
  simp only [fvReal, reVal_rat, qVal_mul, qVal_inv, h.val, k.val, Option.some.injEq]
  cases s <;> cases s' <;> simp [div_eq_mul_inv, inv_neg]

/-- A function of one operand at a zero and at another value. -/
theorem oneFV_zero (h : IsRat v s m x) (hx : x = 0) (zero inf : Bool → FR) (fin : Q → FR) : oneFV v zero inf fin = zero s := by
  rw [h.eq, oneFV, isZero_rat, (zero_iff h).mpr hx]
  rfl

theorem oneFV_fin (h : IsRat v s m x) (hx : x ≠ 0) (zero inf : Bool → FR) (fin : Q → FR) :
    oneFV v zero inf fin = fin (signedQ s m) := by
  rw [h.eq, oneFV, isZero_rat, if_neg (by rw [beq_iff_eq, zero_iff h]; exact hx)]
  rfl

end

end Sys2Proof.Proofs.MachineState
end

section
namespace Sys2Proof.Proofs.MachineState
open Sys2Proof Sys2Proof.Machine Sys2Proof.Claims Sys2Proof.Laws

/-! ## The exact functions on finite operands (Table 6.3) -/

section
variable {v w u : FV} {s s' s'' : Bool} {m m' m'' : Q} {x y z : ℝ}

/-- The result stands for the real t, with no flag. -/
def IsExact (r : FR) (t : ℝ) : Prop := fvReal r.v = some t ∧ r.fl = 0

/-- The result is a real expression that denotes t, with no flag. -/
def IsExactOf (r : FR) (t : ℝ) : Prop := ∃ s e, r.v = FV.ofRE s e ∧ reVal e = t ∧ r.fl = 0

theorem ofRE_zero (s : Bool) : FV.ofRE s .zero = .fin s .zero := rfl
theorem ofRE_one (s : Bool) : FV.ofRE s .one = .fin false .one := rfl
theorem reVal_zero : reVal .zero = 0 := (qVal_ofInt 0).trans Int.cast_zero
theorem reVal_one : reVal .one = 1 := qVal_one

theorem fvReal_zero (s : Bool) : fvReal (.fin s .zero) = some 0 := by
  simp only [fvReal, reVal_zero, neg_zero, ite_self]

theorem mulFV_is (h : IsRat v s m x) (k : IsRat w s' m' y) : IsExact (mulFV v w) (x * y) := by
  obtain ⟨he, hp⟩ := mulFV_rat h k
  exact ⟨fvReal_of_isRat hp, by rw [he]⟩

theorem fmaFV_is (rm : Rm) (h : IsRat v s m x) (k : IsRat w s' m' y) (l : IsRat u s'' m'' z) : IsExact (fmaFV rm v w u) (x * y + z) := by
  have hp := (mulFV_rat h k).2
  have hf : fmaFV rm v w u = sumFV rm [(mulFV v w).v, u] := by
    have hn : ((mulFV v w).v.isNan || u.isNan) = false := by rw [hp.eq, l.eq]; rfl
    simp only [fmaFV, hn, Bool.false_eq_true, if_false]
  rw [hf]
  exact sumFV_is rm hp l

theorem n_signedQ_neg_iff (h : IsRat v s m x) : (signedQ s m).n < 0 ↔ x < 0 := by
  rw [n_neg_iff (d_signedQ h), qVal_signedQ h]

theorem sqrtFV_is (h : IsRat v s m x) (hx : 0 ≤ x) : IsExact (sqrtFV v) (Real.sqrt x) := by
  unfold sqrtFV
  by_cases h0 : x = 0
  · rw [oneFV_zero h h0, h0, Real.sqrt_zero]
    exact ⟨fvReal_zero s, rfl⟩
  · have hn : ¬ (signedQ s m).n < 0 := by rw [n_signedQ_neg_iff h]; exact not_lt.mpr hx
    rw [oneFV_fin h h0, if_neg hn, ← qVal_signedQ h, ← reVal_mkSqrt (not_lt.mp hn) (d_signedQ h)]
    exact ⟨rfl, rfl⟩

theorem sqrtFV_negative (h : IsRat v s m x) (hx : x < 0) : sqrtFV v = .invalid := by
  rw [sqrtFV, oneFV_fin h hx.ne, if_pos ((n_signedQ_neg_iff h).mpr hx)]

theorem rsqFV_is (h : IsRat v s m x) (hx : 0 < x) : IsExact (rsqFV v) (1 / Real.sqrt x) := by
  have hd := d_signedQ h
  have hn : ¬ (signedQ s m).n < 0 := by rw [n_signedQ_neg_iff h]; exact not_lt.mpr hx.le
  have h0 : (signedQ s m).n ≠ 0 := by rw [Ne, n_eq_zero_iff hd, qVal_signedQ h]; exact hx.ne'
  have hdi := d_inv_pos h0
  have hni : 0 ≤ (signedQ s m).inv.n := by
    rw [n_nonneg_iff hdi, qVal_inv, qVal_signedQ h]; exact inv_nonneg.mpr hx.le
  rw [rsqFV, oneFV_fin h hx.ne', if_neg hn, one_div, ← Real.sqrt_inv, ← qVal_signedQ h, ← qVal_inv, ← reVal_mkSqrt hni hdi]
  exact ⟨rfl, rfl⟩

theorem exp2FV_is (h : IsRat v s m x) (hx : |x| ≤ 4000) : IsExact (exp2FV v) ((2 : ℝ) ^ x) := by
  unfold exp2FV
  by_cases h0 : x = 0
  · rw [oneFV_zero h h0, h0, Real.rpow_zero, ← reVal_one]
    exact ⟨rfl, rfl⟩
  · rw [oneFV_fin h h0, ← qVal_signedQ h, ← reVal_mkExp2 (d_signedQ h) (by rw [qVal_signedQ h]; exact hx)]
    exact ⟨rfl, rfl⟩

theorem log2FV_is (h : IsRat v s m x) (hx : 0 < x) : IsExactOf (log2FV v) (Real.logb 2 x) := by
  have hn : ¬ (signedQ s m).n < 0 := by rw [n_signedQ_neg_iff h]; exact not_lt.mpr hx.le
  rw [log2FV, oneFV_fin h hx.ne', if_neg hn, ← qVal_signedQ h, ← reVal_mkLog2 (d_signedQ h)]
  exact ⟨false, _, rfl, rfl, rfl⟩

theorem sinpiFV_is (h : IsRat v s m x) : IsExactOf (sinpiFV v) (Real.sin (Real.pi * x)) := by
  unfold sinpiFV
  by_cases h0 : x = 0
  · rw [oneFV_zero h h0, h0, mul_zero, Real.sin_zero]
    exact ⟨s, .zero, (ofRE_zero s).symm, reVal_zero, rfl⟩
  · rw [oneFV_fin h h0, ← qVal_signedQ h, ← reVal_mkSinPi (d_signedQ h)]
    exact ⟨_, _, rfl, rfl, rfl⟩

theorem cospiFV_is (h : IsRat v s m x) : IsExactOf (cospiFV v) (Real.cos (Real.pi * x)) := by
  unfold cospiFV
  by_cases h0 : x = 0
  · rw [oneFV_zero h h0, h0, mul_zero, Real.cos_zero]
    exact ⟨false, .one, (ofRE_one false).symm, reVal_one, rfl⟩
  · rw [oneFV_fin h h0, ← qVal_signedQ h, ← reVal_mkCosPi (d_signedQ h)]
    exact ⟨_, _, rfl, rfl, rfl⟩

theorem tanhFV_is (h : IsRat v s m x) (hx : |x| ≤ 2000) : IsExactOf (tanhFV v) (Real.tanh x) := by
  unfold tanhFV
  by_cases h0 : x = 0
  · rw [oneFV_zero h h0, h0, Real.tanh_zero]
    exact ⟨s, .zero, (ofRE_zero s).symm, reVal_zero, rfl⟩
  · rw [oneFV_fin h h0, ← qVal_signedQ h, ← reVal_mkTanh (d_signedQ h) (by rw [qVal_signedQ h]; exact hx)]
    exact ⟨_, _, rfl, rfl, rfl⟩

/-- Beyond 2000 the result has the operand's sign, and lies below 1 by less than any last place. -/
theorem tanhFV_large (h : IsRat v s m x) (hx : 2000 < |x|) :
    ∃ t : ℝ, IsExactOf (tanhFV v) t ∧ 0 < t * x ∧ |t| < 1 ∧ 1 - |t| < (2 : ℝ) ^ (-2000 : ℤ) := by
  have h0 : x ≠ 0 := fun e => by rw [e, abs_zero] at hx; linarith
  have hv := reVal_mkTanh_large (d_signedQ h) (by rw [qVal_signedQ h]; exact hx)
  rw [qVal_signedQ h] at hv
  refine ⟨_, ⟨false, .mkTanh (signedQ s m), by rw [tanhFV, oneFV_fin h h0], hv, by rw [tanhFV, oneFV_fin h h0]⟩, ?_⟩
  have hpos : (0 : ℝ) < (2 : ℝ) ^ (-11000 : ℤ) := by positivity
  have hsmall : (2 : ℝ) ^ (-11000 : ℤ) < (2 : ℝ) ^ (-2000 : ℤ) := zpow_lt_zpow_right₀ (by norm_num) (by norm_num)
  have hone : (2 : ℝ) ^ (-11000 : ℤ) < 1 := zpow_lt_one_of_neg₀ (by norm_num) (by norm_num)
  generalize (2 : ℝ) ^ (-11000 : ℤ) = ε at hpos hsmall hone
  have habs : |if x < 0 then -(1 - ε) else 1 - ε| = 1 - ε := by
    split
    · rw [abs_neg, abs_of_pos (by linarith)]
    · exact abs_of_pos (by linarith)
  rw [habs]
  refine ⟨?_, by linarith, by linarith⟩
  split
  · next hneg => nlinarith
  · next hneg => exact mul_pos (by linarith) (lt_of_le_of_ne (not_lt.mp hneg) h0.symm)

theorem divFV_by_zero (h : IsRat v s m x) (k : IsRat w s' m' y) (hy : y = 0) (hx : x ≠ 0) : divFV v w = ⟨.inf (s != s'), 8⟩ := by
  have hw := (isZero_iff k).mpr hy
  have hv : v.isZero = false := by rw [Bool.eq_false_iff, Ne, isZero_iff h]; exact hx
  rw [h.eq] at hv ⊢
  rw [k.eq] at hw ⊢
  simp [divFV, hv, hw, FV.isInf, FV.isNan, FV.sign, fDivZero]

theorem divFV_zeros (h : IsRat v s m x) (k : IsRat w s' m' y) (hy : y = 0) (hx : x = 0) : divFV v w = .invalid := by
  have hw := (isZero_iff k).mpr hy
  have hv := (isZero_iff h).mpr hx
  rw [h.eq] at hv ⊢
  rw [k.eq] at hw ⊢
  simp [divFV, hv, hw, FV.isInf, FV.isNan]

theorem mulFV_zero_inf (h : IsRat v s m x) (hx : x = 0) : mulFV v (.inf false) = .invalid := by
  have hv := (isZero_iff h).mpr hx
  simp [mulFV, hv, show (FV.inf false).isInf = true from rfl]

theorem isRat_one : IsRat (.fin false .one) false .one 1 := ⟨rfl, Nat.one_pos, by rw [qVal_one]; norm_num, qVal_one.symm⟩

end

/-- The exact functions of Table 6.3, from the lemma for each. -/
theorem exactFunctions : ExactFunctions := by
  intro rm a b c ha hb hc F x y is isOf
  have hx := isRat_word ha
  have hy := isRat_word hb
  have hz := isRat_word hc
  refine ⟨⟨sumFV_is rm hx hy, ?_, ?_, fmaFV_is rm hx hy hz, ⟨fvReal_of_isRat hx, rfl⟩, divFV_rat hx hy, divFV_rat isRat_one hx⟩,
    ⟨sqrtFV_is hx, rsqFV_is hx, exp2FV_is hx, log2FV_is hx, sinpiFV_is hx, cospiFV_is hx, tanhFV_is hx, tanhFV_large hx⟩,
    ⟨divFV_by_zero hx hy, divFV_zeros hx hy, sqrtFV_negative hx, rfl, mulFV_zero_inf hx⟩⟩
  · exact sumFV_is rm hx (isRat_neg hy)
  · exact mulFV_is hx hy

/-- Settles O9: the elements of a lane are its roundings, folded over the lanes; the exact functions are those of `exactFunctions`. -/
theorem floatArithmeticResult : Obligations.FloatArithmeticResult :=
  ⟨exactFunctions, floatArithmetic_elements, floatArithmetic_words⟩

end Sys2Proof.Proofs.MachineState
end

section
namespace Sys2Proof.Proofs.NumberFormats
open Sys2Proof Sys2Proof.Machine Sys2Proof.Claims Sys2Proof.Laws Sys2Proof.Proofs.MachineState

/-! ## A lane among the steps of a fold over lanes -/

theorem keeps_mono {a b : Allow} {g g' : Machine.Group} (hs : ∀ r, a.sreg r → b.sreg r) (hv : ∀ l r, a.vreg l r → b.vreg l r)
    (hf : a.flags &&& b.flags = a.flags) (hd : a.draws → b.draws) (k : Keeps a g g') : Keeps b g g' :=
  { k with
    sreg := fun r h1 h2 => k.sreg r h1 fun h => h2 (hs r h)
    em := fun h => k.em fun h' => h (hs 63 h')
    flags := by
      obtain ⟨w, hw⟩ := k.flags
      exact ⟨w &&& a.flags, by rw [hw, BitVec.and_assoc, hf]⟩
    draw := fun h => k.draw fun h' => h (hd h')
    vreg := fun l r h => k.vreg l r fun h' => h (hv l r h') }

/-- What a step of lane l may change: that lane's registers, FLAGS and draws. -/
def onLane (l : Nat) : Allow := ⟨fun _ => False, fun i _ => i = l, 0xFFFFFFFF, True⟩
/-- What the steps of other lanes than l may change. -/
def offLane (l : Nat) : Allow := ⟨fun _ => False, fun i _ => i ≠ l, 0xFFFFFFFF, True⟩

theorem keeps_onLane {l d : Nat} {pair : Bool} {fl : Word} {draws : Prop} {g g' : Machine.Group}
    (k : Keeps (onlyV [l] d pair fl draws) g g') : Keeps (onLane l) g g' :=
  keeps_mono (a := onlyV [l] d pair fl draws) (b := onLane l) (fun _ h => h) (fun _ _ h => List.mem_singleton.mp h.1)
    BitVec.and_allOnes (fun _ => trivial) k

/-- In a fold over lanes whose steps change their own lanes alone, lane l meets its own step with its registers as they were, and
keeps them as that step leaves them. -/
theorem foldl_ownLane {σ : Type} (π : σ → Machine.Group) {f : σ → Nat → σ} (hk : ∀ x l, Keeps (onLane l) (π x) (π (f x l)))
    {ls : List Nat} (hn : ls.Nodup) {l : Nat} (hl : l ∈ ls) (x : σ) :
    ∃ y, Keeps (offLane l) (π x) (π y) ∧ Keeps (offLane l) (π (f y l)) (π (ls.foldl f x)) := by
  have off {i : Nat} (h : i ≠ l) (x : σ) : Keeps (offLane l) (π x) (π (f x i)) :=
    keeps_mono (a := onLane i) (b := offLane l) (fun _ h => h) (fun j _ (e : j = i) => fun h' => h (e.symm.trans h'))
      BitVec.and_allOnes id (hk x i)
  have rest (ls : List Nat) (x : σ) (h : l ∉ ls) : Keeps (offLane l) (π x) (π (ls.foldl f x)) := by
    induction ls generalizing x with
    | nil => exact keeps_refl _ _
    | cons i ls ih =>
      rw [List.mem_cons, not_or] at h
      exact keeps_trans (off (Ne.symm h.1) x) (ih (f x i) h.2)
  induction ls generalizing x with
  | nil => cases hl
  | cons i ls ih =>
    rw [List.nodup_cons] at hn
    rcases List.mem_cons.mp hl with rfl | hl
    · exact ⟨x, keeps_refl _ _, rest ls _ hn.1⟩
    · obtain ⟨y, h1, h2⟩ := ih hn.2 hl (f x i)
      exact ⟨y, keeps_trans (off (fun e => hn.1 (by rw [e]; exact hl)) x) h1, h2⟩

theorem vreg_of_offLane {l : Nat} {g g' : Machine.Group} (k : Keeps (offLane l) g g') (r : Nat) :
    (g'.lane l).vreg r = (g.lane l).vreg r ∧ (g'.lane l).gloves[r]? = (g.lane l).gloves[r]? :=
  k.vreg l r fun h => h rfl

theorem vreg_advance (g : Machine.Group) (gg : Gang) (n l r : Nat) :
    ((g.advance gg n).lane l).vreg r = (g.lane l).vreg r ∧ ((g.advance gg n).lane l).gloves[r]? = (g.lane l).gloves[r]? :=
  (aluFrame_advance gg n ⟨keeps_refl onlyNone g, rfl⟩).1.vreg l r fun h => h

theorem flags_foldl {f : Machine.Group → Nat → Machine.Group} {w : Nat → Word} (hf : ∀ g l, (f g l).flags = g.flags ||| w l)
    (ls : List Nat) (g : Machine.Group) : (ls.foldl f g).flags = ls.foldl (fun fl l => fl ||| w l) g.flags := by
  induction ls generalizing g with
  | nil => rfl
  | cons l ls ih => rw [List.foldl_cons, List.foldl_cons, ih, hf]

/-- One flag, raised by the lanes where p holds. -/
theorem foldl_or_any {α : Type} (p : α → Bool) (w : Word) (ls : List α) (a : Word) :
    ls.foldl (fun fl l => fl ||| if p l then w else 0) a = a ||| if ls.any p then w else 0 := by
  induction ls generalizing a with
  | nil => simp
  | cons l ls ih =>
    rw [List.foldl_cons, ih, List.any_cons, BitVec.or_assoc]
    cases p l <;> cases ls.any p <;> simp

end Sys2Proof.Proofs.NumberFormats
end

section
namespace Sys2Proof.Proofs.NumberFormats
open Sys2Proof Sys2Proof.Machine Sys2Proof.Claims Sys2Proof.Laws Sys2Proof.Proofs.MachineState

/-! ## Minimum and maximum (R48, R177) -/

theorem toNat_srcWord32 (c : Cx) (f : VForm) (i code l : Nat) : (srcWord32 c f i code l).toNat = c.elem f 0 i code l 0 := by
  have habs (w : Word) : (if f.absBit i then w &&& 0x7FFFFFFF else w).toNat = if f.absBit i then w.toNat % 2 ^ 31 else w.toNat := by
    rw [← toNat_clear_sign, apply_ite BitVec.toNat]
  have hneg (w : Word) : (if f.negBit i then w ^^^ 0x80000000 else w).toNat =
      if f.negBit i then (if w.toNat / 2 ^ 31 % 2 = 1 then w.toNat - 2 ^ 31 else w.toNat + 2 ^ 31) else w.toNat := by
    rw [← toNat_flip_sign, apply_ite BitVec.toNat]
  unfold srcWord32
  dsimp only
  rw [hneg, habs]
  rfl

theorem decode_srcWord32 (c : Cx) (f : VForm) (i code l : Nat) : Fmt.f32.decode (srcWord32 c f i code l).toNat = srcF32 c f i code l := rfl

/-- The word that `v.fmin` and `v.fmax` deliver of the words x and y. -/
def picked (max : Bool) (x y : Word) : Word :=
  let a := Fmt.f32.decode x.toNat
  let b := Fmt.f32.decode y.toNat
  if a.isNan = true ∧ b.isNan = true then 0x7FC00000 else if a.isNan = true then y else if b.isNan = true then x
    else if a.equal b = true then x else if (if max then b.below a else a.below b) = true then x else y

theorem pickBits_word (max : Bool) (x y : Word) : wd (pickBits .f32 max x.toNat y.toNat).1 = picked max x y := by
  have hw (w : Word) : wd w.toNat = w := by simp [wd]
  unfold pickBits pickFV picked
  simp only [Bool.and_eq_true]
  generalize Fmt.f32.decode x.toNat = a
  generalize Fmt.f32.decode y.toNat = b
  by_cases hab : a.isNan = true ∧ b.isNan = true
  · rw [if_pos hab, if_pos hab]; rfl
  rw [if_neg hab, if_neg hab]
  by_cases ha : a.isNan = true
  · rw [if_pos ha, if_pos ha]; exact hw y
  rw [if_neg ha, if_neg ha]
  by_cases hb : b.isNan = true
  · rw [if_pos hb, if_pos hb]; exact hw x
  rw [if_neg hb, if_neg hb]
  by_cases he : a.equal b = true
  · rw [if_pos he, if_pos he]; exact hw x
  rw [if_neg he, if_neg he]
  generalize (if max = true then b.below a else a.below b) = below
  cases below
  · exact hw y
  · exact hw x

theorem keeps_pickLane {ls : List Nat} (c : Cx) (f : VForm) (max : Bool) (t : Nat) (g : Machine.Group) {l : Nat} (hl : l ∈ ls) :
    Keeps (onlyV ls f.d.toNat (t == 3) 0xFFFFFFFF False) g (c.pickLane f max t g l) ∧ (c.pickLane f max t g l).gangs = g.gangs := by
  have raised (w : Word) := keeps_raise (onlyV ls f.d.toNat (t == 3) 0xFFFFFFFF False) g w BitVec.and_allOnes
  unfold Cx.pickLane
  dsimp only
  split
  · have p (g' : Machine.Group) (w : Word) (gl : List Word) :=
      keeps_putD (onlyV ls f.d.toNat (t == 3) 0xFFFFFFFF False) g' f.d.toNat l w gl fun _ => ⟨hl, .inl rfl⟩
    exact ⟨keeps_trans (raised _).1 (p _ _ _).1, (p _ _ _).2.trans (raised _).2⟩
  · have p (g' : Machine.Group) (bits : Nat) (gl : List Word) :=
      keeps_putT (onlyV ls f.d.toNat (t == 3) 0xFFFFFFFF False) g' (t == 3) f.d.toNat l bits gl ⟨hl, .inl rfl⟩
        fun ht => ⟨hl, .inr ⟨ht, rfl⟩⟩
    exact ⟨keeps_trans (raised _).1 (p _ _ _).1, (p _ _ _).2.trans (raised _).2⟩

/-- A binary32 lane: INVALID for a signalling NaN, and the word picked. -/
theorem pickLane_word (c : Cx) (f : VForm) (max : Bool) (g : Machine.Group) (l : Nat) : ∃ gl, c.pickLane f max 0 g l =
    (g.raise (if (srcF32 c f 0 f.a.toNat l).isSig || (srcF32 c f 1 f.b.toNat l).isSig then 16 else 0)).putD f.d.toNat l
      (picked max (srcWord32 c f 0 f.a.toNat l) (srcWord32 c f 1 f.b.toNat l)) gl := by
  rw [← pickBits_word, toNat_srcWord32, toNat_srcWord32, ← fval_word, ← fval_word]
  exact ⟨_, rfl⟩

/-- The group after `v.fmin` or `v.fmax`, before it advances. -/
def pickGroup (c : Cx) (f : VForm) (max : Bool) : Machine.Group :=
  c.lanes.foldl (c.pickLane f max (c.type spPick f)) (c.hold f c.g)

theorem vPick_next {s : State} {c : Cx} {f : VForm} (max : Bool) (h : s.cx? = some c) (hc : c.vCheck spPick f = .ok ()) :
    exec (if max then .vFmax f else .vFmin f) s = .next (s.putGroup ((pickGroup c f max).advance c.gg (vLen f))) := by
  have h : vPick max f s = .next (s.putGroup ((pickGroup c f max).advance c.gg (vLen f))) := local1_next h (by rw [hc]; rfl)
  cases max <;> exact h

theorem aluFrame_pickGroup (c : Cx) (f : VForm) (max : Bool) :
    AluFrame (onlyV c.lanes f.d.toNat (c.type spPick f == 3) 0xFFFFFFFF False) c.g c.gg (encode (.vMov f)).length
      ((pickGroup c f max).advance c.gg (vLen f)) := by
  have p := keeps_hold (onlyV c.lanes f.d.toNat (c.type spPick f == 3) 0xFFFFFFFF False) c f c.g
  have q := keeps_foldl _ _ c.lanes (fun g l hl => keeps_pickLane c f max (c.type spPick f) g hl) (c.hold f c.g)
  rw [encode, length_encV]
  exact aluFrame_advance c.gg _ ⟨keeps_trans p.1 q.1, q.2.trans p.2⟩

theorem vreg_pickGroup {c : Cx} {f : VForm} (max : Bool) (ht : c.type spPick f = 0) {l : Nat} (hl : l ∈ c.lanes)
    (hd : f.d.toNat < (c.g.lane l).v.length) (h120 : f.d.toNat < 120) : ((pickGroup c f max).lane l).vreg f.d.toNat =
      picked max (srcWord32 c f 0 f.a.toNat l) (srcWord32 c f 1 f.b.toNat l) := by
  obtain ⟨g, h1, h2⟩ := foldl_ownLane id (f := c.pickLane f max (c.type spPick f))
    (fun g i => keeps_onLane (keeps_pickLane c f max _ g (List.mem_singleton_self i)).1) (lanesOf_nodup _ _) hl (c.hold f c.g)
  obtain ⟨gl, hg⟩ := pickLane_word c f max g l
  have k := keeps_trans (keeps_hold (offLane l) c f c.g).1 h1
  refine (vreg_of_offLane h2 f.d.toNat).1.trans ?_
  rw [id, ht, hg, Group.putD, if_pos h120]
  exact (vreg_writeV (g.raise _) f.d.toNat l _ gl _ (by rw [lanes_raise]; exact k.lanes ▸ active_lt c l hl)
    (by rw [← k.nregs] at hd; exact hd)).trans (if_pos rfl)

theorem flags_pickGroup {c : Cx} {f : VForm} (max : Bool) (ht : c.type spPick f = 0) : (pickGroup c f max).flags = c.g.flags |||
    (if c.lanes.any (fun l => (srcF32 c f 0 f.a.toNat l).isSig || (srcF32 c f 1 f.b.toNat l).isSig) then 16 else 0) := by
  rw [← foldl_or_any, pickGroup, ht, ← flags_hold c f c.g]
  refine flags_foldl (fun g l => ?_) _ _
  obtain ⟨gl, hg⟩ := pickLane_word c f max g l
  exact hg ▸ flags_of_keeps rfl (keeps_putD anyReg (g.raise _) f.d.toNat l _ gl fun _ => trivial).1

/-- Settles O10: each lane holds the word picked, and the lanes' flags are folded into one. -/
theorem floatMinMaxResult : Obligations.FloatMinMaxResult := by
  intro s c f max h hc t bits
  refine ⟨⟨_, vPick_next max h hc, aluFrame_pickGroup c f max, fun l hl hd h120 ht => ?_⟩, _, vPick_next max h hc, fun ht => ?_⟩
  · have ht : c.type spPick f = 0 := ht
    have hp : ¬ (t == 3) = true := by rw [show t = 0 from ht]; decide
    rw [if_neg hp, Nat.add_zero] at hd h120
    show some _ = some _
    rw [(vreg_advance _ _ _ _ _).1, vreg_pickGroup max ht hl hd h120]
    rfl
  · rw [flags_advance]
    exact flags_pickGroup max ht

end Sys2Proof.Proofs.NumberFormats
end

section
namespace Sys2Proof.Proofs.NumberFormats
open Sys2Proof Sys2Proof.Machine Sys2Proof.Claims Sys2Proof.Laws Sys2Proof.Proofs.MachineState

/-! ## Gloves read back (R22, R108) -/

theorem gloves_writeV (g : Machine.Group) (d l : Nat) (w : Word) (gl : List Word) (r : Nat) (hl : l < g.lanes.length) :
    ((g.writeV l d w gl).lane l).gloves[r]? = if r = d ∧ d < (g.lane l).gloves.length then some gl else (g.lane l).gloves[r]? := by
  rw [writeV_lane, if_pos ⟨rfl, hl⟩]
  show ((g.lane l).gloves.set d gl)[r]? = _
  rw [List.getElem?_set]
  by_cases hr : d = r
  · subst hr
    by_cases hd : d < (g.lane l).gloves.length
    · simp [hd]
    · simp [hd]
  · simp [hr, Ne.symm hr]

theorem glove_putD {g : Machine.Group} {d l : Nat} (w : Word) (gl : List Word) (hl : l < g.lanes.length) (h120 : d < 120)
    (hd : d < (g.lane l).gloves.length) : ((g.putD d l w gl).lane l).gloves[d]? = some gl := by
  rw [Group.putD, if_pos h120, gloves_writeV _ _ _ _ _ _ hl, if_pos ⟨rfl, hd⟩]

/-- A pair result: its glove goes to the lower register, and +0.0 to the upper one. -/
theorem glove_putD64 {g : Machine.Group} {d l : Nat} (w : DWord) (gl : List Word) (hl : l < g.lanes.length) :
    (d < (g.lane l).gloves.length → ((g.putD64 d l w gl).lane l).gloves[d]? = some gl) ∧
      (d + 1 < (g.lane l).gloves.length → ((g.putD64 d l w gl).lane l).gloves[d + 1]? = some (zeroGlove g.ident.k)) := by
  have hl' : l < (g.writeV l d (lo32 w) gl).lanes.length := by rw [(keeps_writeV anyReg g l d (lo32 w) gl trivial).1.lanes]; exact hl
  have lower (r : Nat) := gloves_writeV g d l (lo32 w) gl r hl
  have upper (r : Nat) := gloves_writeV (g.writeV l d (lo32 w) gl) (d + 1) l (hi32 w) (zeroGlove g.ident.k) r hl'
  refine ⟨fun hd => ?_, fun hd => ?_⟩
  · exact (upper d).trans (by rw [if_neg (by omega), lower, if_pos ⟨rfl, hd⟩])
  · refine (upper (d + 1)).trans (if_pos ⟨rfl, ?_⟩)
    have e := lower (d + 1)
    rw [if_neg (by omega), List.getElem?_eq_getElem hd] at e
    exact (List.getElem?_eq_some_iff.mp e).1

/-! ## The gloves that a vector instruction leaves in its lanes -/

/-- Lane l of g has its registers and gloves as they were when the instruction issued. -/
def Untouched (c : Cx) (l : Nat) (g : Machine.Group) : Prop := Keeps (offLane l) c.g g

section
variable {c : Cx} {l d : Nat} {g : Machine.Group}

theorem Untouched.lanes (u : Untouched c l g) (hl : l ∈ c.lanes) : l < g.lanes.length := by
  rw [Keeps.lanes u]
  exact active_lt c l hl

theorem Untouched.glove (u : Untouched c l g) (r : Nat) : (g.lane l).gloves[r]? = (c.g.lane l).gloves[r]? := (vreg_of_offLane u r).2

theorem Untouched.gloves (u : Untouched c l g) (hd : d < (c.g.lane l).gloves.length) : d < (g.lane l).gloves.length := by
  have e := u.glove d
  rw [List.getElem?_eq_getElem hd] at e
  exact (List.getElem?_eq_some_iff.mp e).1

end

/-- A lane has the registers and gloves of another. -/
def SameRegs (x y : Lane) : Prop := ∀ r, x.vreg r = y.vreg r ∧ x.gloves[r]? = y.gloves[r]?

/-- After a fold over the active lanes each of them is as its own step left it, which met it untouched. -/
theorem laneStep_foldl {σ : Type} (π : σ → Machine.Group) {f : σ → Nat → σ} {s : State} {c : Cx} {n : Nat} {x : σ}
    {F : Cx → Except Tq Machine.Group} (h : s.cx? = some c) (hF : F c = .ok (π (c.lanes.foldl f x))) (hx : Keeps onlyNone c.g (π x))
    (hk : ∀ x l, Keeps (onLane l) (π x) (π (f x l))) :
    GroupStep s (fun g' => ∀ l ∈ c.lanes, ∃ y, Untouched c l (π y) ∧ SameRegs (g'.lane l) ((π (f y l)).lane l)) (local1 n s F) := by
  refine ⟨_, local1_next h hF, fun l hl => ?_⟩
  have hn : c.lanes.Nodup := lanesOf_nodup _ _
  obtain ⟨y, h1, h2⟩ := foldl_ownLane π hk hn hl x
  have h0 : Keeps (offLane l) c.g (π x) :=
    keeps_mono (a := onlyNone) (b := offLane l) (fun _ h => h) (fun _ _ h => h.elim) BitVec.zero_and (fun h => h.elim) hx
  refine ⟨y, keeps_trans h0 h1, fun r => ⟨?_, ?_⟩⟩
  · rw [(vreg_advance _ _ _ _ _).1, (vreg_of_offLane h2 r).1]
  · rw [(vreg_advance _ _ _ _ _).2, (vreg_of_offLane h2 r).2]

theorem groupStep_mono {s : State} {P Q : Machine.Group → Prop} {r : Res} (hPQ : ∀ g, P g → Q g) (h : GroupStep s P r) : GroupStep s Q r := by
  obtain ⟨g', hr, hg⟩ := h
  exact ⟨g', hr, hPQ g' hg⟩

/-- The gloves after a fold over the active lanes: each lane's own step decides. -/
theorem laneGloves_foldl {σ : Type} (π : σ → Machine.Group) {f : σ → Nat → σ} {s : State} {c : Cx} {n d : Nat} {x : σ}
    {F : Cx → Except Tq Machine.Group} {P : Nat → List Word → Prop} (h : s.cx? = some c)
    (hF : F c = .ok (π (c.lanes.foldl f x))) (hx : Keeps onlyNone c.g (π x)) (hk : ∀ x l, Keeps (onLane l) (π x) (π (f x l)))
    (own : ∀ y, ∀ l ∈ c.lanes, Untouched c l (π y) → d < 120 → d < (c.g.lane l).gloves.length →
      ∃ gl, ((π (f y l)).lane l).gloves[d]? = some gl ∧ P l gl) : LaneGloves s c d c.lanes P (local1 n s F) :=
  groupStep_mono (fun g' hg l hl h120 hd => by
    obtain ⟨y, u, same⟩ := hg l hl
    rw [(same d).2]
    exact own y l hl u h120 hd) (laneStep_foldl π h hF hx hk)

/-- FLAGS and draws may change, and no register. -/
def noReg : Allow := ⟨fun _ => False, fun _ _ => False, 0xFFFFFFFF, True⟩

/-- The step of a lane that writes its result to D with the glove gl, and else changes FLAGS and draws alone. -/
inductive Puts (g : Machine.Group) (d l : Nat) (gl : List Word) : Machine.Group → Prop
  | word {pre : Machine.Group} (w : Word) (k : Keeps noReg g pre) : Puts g d l gl (pre.putD d l w gl)
  | pair {pre : Machine.Group} (w : DWord) (k : Keeps noReg g pre) : Puts g d l gl (pre.putD64 d l w gl)

theorem puts_putT {g pre : Machine.Group} (pair : Bool) (d l bits : Nat) (gl : List Word) (k : Keeps noReg g pre) :
    Puts g d l gl (pre.putT pair d l bits gl) := by
  cases pair with
  | true => exact .pair _ k
  | false => exact .word _ k

section
variable {g g' : Machine.Group} {d l : Nat} {gl : List Word}

theorem onLane_of_noReg (l : Nat) (k : Keeps noReg g g') : Keeps (onLane l) g g' :=
  keeps_mono (a := noReg) (b := onLane l) (fun _ h => h) (fun _ _ h => h.elim) BitVec.and_allOnes id k

theorem keeps_of_puts (p : Puts g d l gl g') : Keeps (onLane l) g g' := by
  cases p with
  | word w k => exact keeps_trans (onLane_of_noReg l k) (keeps_putD (onLane l) _ d l w gl fun _ => rfl).1
  | pair w k => exact keeps_trans (onLane_of_noReg l k) (keeps_putD64 (onLane l) _ d l w gl rfl rfl).1

theorem lane_of_noReg (k : Keeps noReg g g') (l r : Nat) :
    (g'.lane l).vreg r = (g.lane l).vreg r ∧ (g'.lane l).gloves[r]? = (g.lane l).gloves[r]? := k.vreg l r fun h => h

theorem glove_of_puts (p : Puts g d l gl g') (hl : l < g.lanes.length) (h120 : d < 120) (hd : d < (g.lane l).gloves.length) :
    (g'.lane l).gloves[d]? = some gl := by
  have len {pre : Machine.Group} (k : Keeps noReg g pre) : l < pre.lanes.length ∧ d < (pre.lane l).gloves.length := by
    have e := (lane_of_noReg k l d).2
    rw [List.getElem?_eq_getElem hd] at e
    exact ⟨by rw [k.lanes]; exact hl, (List.getElem?_eq_some_iff.mp e).1⟩
  cases p with
  | word w k => exact glove_putD w gl (len k).1 h120 (len k).2
  | pair w k => exact (glove_putD64 w gl (len k).1).1 (len k).2

end

/-- The gloves of an instruction that writes each active lane's result to D. -/
theorem laneGloves_puts {σ : Type} (π : σ → Machine.Group) {f : σ → Nat → σ} {s : State} {c : Cx} {n d : Nat} {x : σ}
    {F : Cx → Except Tq Machine.Group} {P : Nat → List Word → Prop} {gl : Nat → List Word} (h : s.cx? = some c)
    (hF : F c = .ok (π (c.lanes.foldl f x))) (hx : Keeps onlyNone c.g (π x)) (hp : ∀ x l, Puts (π x) d l (gl l) (π (f x l)))
    (hP : ∀ l ∈ c.lanes, P l (gl l)) : LaneGloves s c d c.lanes P (local1 n s F) :=
  laneGloves_foldl π h hF hx (fun x l => keeps_of_puts (hp x l)) fun y l hl u h120 hd =>
    ⟨gl l, glove_of_puts (hp y l) (u.lanes hl) h120 (u.gloves hd), hP l hl⟩

end Sys2Proof.Proofs.NumberFormats
end

section
namespace Sys2Proof.Proofs.NumberFormats
open Sys2Proof Sys2Proof.Machine Sys2Proof.Claims Sys2Proof.Laws Sys2Proof.Proofs.MachineState

/-! ## Instructions that clear or copy gloves (R109, R111) -/

section
variable {s : State} {c : Cx} {f : VForm}

theorem keeps_hold_none (c : Cx) (f : VForm) : Keeps onlyNone c.g (c.hold f c.g) := (keeps_hold onlyNone c f c.g).1

/-- The shared shape of the integer instructions clears the glove of D. -/
theorem vIntN_clears {sp : VSpec} (res : Cx → Nat → Word) (h : s.cx? = some c) (hc : c.vCheck sp f = .ok ()) :
    LaneGloves s c f.d.toNat c.lanes (fun _ gl => gl = zeroGlove c.g.ident.k) (vIntN sp f s res) :=
  laneGloves_puts id (f := fun g l => g.putD f.d.toNat l (res c l) (zeroGlove c.g.ident.k)) h (by rw [hc]; rfl) (keeps_hold_none c f)
    (fun g _ => .word _ (keeps_refl noReg g)) fun _ _ => rfl

/-- The instruction is of that shape, with a result that its form decides. -/
def Integer (i : VForm → Instr) (sp : VSpec) : Prop := ∃ res : VForm → Cx → Nat → Word, ∀ f s, exec (i f) s = vIntN sp f s (res f)

theorem integer_of_two {i : VForm → Instr} (r : Word → Word → Word) (h : ∀ f s, exec (i f) s = vInt2 f s r) : Integer i spInt2 :=
  ⟨fun f c l => r (c.src f f.a.toNat l) (c.src f f.b.toNat l), h⟩

theorem integer_of_one {i : VForm → Instr} (r : Word → Word) (h : ∀ f s, exec (i f) s = vInt1 f s r) : Integer i spInt1 :=
  ⟨fun f c l => r (c.src f f.a.toNat l), h⟩

/-- Every entry of Table 6.2 is of that shape. -/
theorem integer_vectorTable : ∀ e ∈ vectorTable, Integer e.1 e.2.1 := by
  simp only [vectorTable, List.forall_mem_cons, List.not_mem_nil, false_imp_iff, implies_true, and_true]
  have two {i : VForm → Instr} (r : Word → Word → Word) (h : ∀ f s, exec (i f) s = vInt2 f s r) : Integer i spInt2 := integer_of_two r h
  exact ⟨two _ fun _ _ => rfl, two _ fun _ _ => rfl, two _ fun _ _ => rfl, two (fun a b => wd (a.toNat * b.toNat / 2 ^ 32)) fun _ _ => rfl,
    two (fun a b => BitVec.ofInt 32 (a.toInt * b.toInt / 2 ^ 32)) fun _ _ => rfl,
    two _ fun _ _ => rfl, two _ fun _ _ => rfl, two _ fun _ _ => rfl, two (fun a b => a &&& ~~~b) fun _ _ => rfl, two (fun a b => a <<< sh5 b) fun _ _ => rfl,
    two (fun a b => a >>> sh5 b) fun _ _ => rfl, two (fun a b => a.sshiftRight (sh5 b)) fun _ _ => rfl, two _ fun _ _ => rfl,
    two _ fun _ _ => rfl, two _ fun _ _ => rfl, two _ fun _ _ => rfl, integer_of_one (fun a => wd (popc 32 a.toNat)) fun _ _ => rfl,
    integer_of_one (fun a => wd (clz 32 a.toNat)) fun _ _ => rfl⟩

theorem integer_vIota : Integer .vIota spInt2 := ⟨fun f c l => c.src f f.a.toNat l + wd l * c.src f f.b.toNat l, fun _ _ => rfl⟩

theorem integer_vBfx : Integer .vBfx spInt2 :=
  ⟨fun f c l => vBfxV (c.type spInt2 f == 4) (c.src f f.a.toNat l) (c.src f f.b.toNat l), fun _ _ => rfl⟩

theorem integer_vBfi : Integer .vBfi spBfi :=
  ⟨fun f c l => vBfiV (c.src f f.a.toNat l) (c.src f f.b.toNat l) (c.src f f.c l), fun _ _ => rfl⟩

theorem integer_vFclass : Integer .vFclass spFclass :=
  ⟨fun f c l => wd (if packed (c.type spFclass f) then
      classOf (typeFmt (c.type spFclass f)) (c.elem f (c.type spFclass f) 0 f.a.toNat l 0) +
        65536 * classOf (typeFmt (c.type spFclass f)) (c.elem f (c.type spFclass f) 0 f.a.toNat l 1)
    else classOf (typeFmt (c.type spFclass f)) (c.elem f (c.type spFclass f) 0 f.a.toNat l 0)), fun _ _ => rfl⟩

theorem integer_clears {i : VForm → Instr} {sp : VSpec} (hi : Integer i sp) (h : s.cx? = some c) (hc : c.vCheck sp f = .ok ()) :
    LaneGloves s c f.d.toNat c.lanes (fun _ gl => gl = zeroGlove c.g.ident.k) (exec (i f) s) := by
  obtain ⟨res, hx⟩ := hi
  exact hx f s ▸ vIntN_clears (res f) h hc

theorem vMad_clears (h : s.cx? = some c) (hc : c.vCheck spMad f = .ok ()) :
    LaneGloves s c f.d.toNat c.lanes (fun _ gl => gl = zeroGlove c.g.ident.k) (exec (.vMad f) s) := by
  refine laneGloves_puts id h (by rw [hc]; rfl) (keeps_hold_none c f) (fun g l => ?_) fun _ _ => rfl
  dsimp only [id]
  split
  · exact .word _ (keeps_raise noReg g _ BitVec.and_allOnes).1
  · exact .word _ (keeps_refl noReg g)

theorem vIscan_clears (h : s.cx? = some c) (hc : c.vCheck spIscan f = .ok ()) :
    LaneGloves s c f.d.toNat c.lanes (fun _ gl => gl = zeroGlove c.g.ident.k) (exec (.vIscan f) s) :=
  laneGloves_puts Prod.snd h (by rw [hc]; rfl) (keeps_hold_none c f) (fun x _ => .word _ (keeps_refl noReg x.2)) fun _ _ => rfl

theorem vCvtfi_clears (h : s.cx? = some c) (hc : c.vCheck spCvtfi f = .ok ()) :
    LaneGloves s c f.d.toNat c.lanes (fun _ gl => gl = zeroGlove c.g.ident.k) (exec (.vCvtfi f) s) :=
  laneGloves_puts id h (by rw [hc]; rfl) (keeps_hold_none c f) (fun g l => puts_putT _ _ _ _ _
    (keeps_trans (keeps_drawIf (fun _ => trivial) c g l 0).1 (keeps_raise noReg _ _ BitVec.and_allOnes).1)) fun _ _ => rfl

theorem vSample_clears {draw : Cx → Machine.Group → Nat → Word × Machine.Group} (hd : ∀ g l, Keeps noReg g (draw c g l).2)
    (h : s.cx? = some c) (hc : c.vCheck spRnd f (f.hold == 0) = .ok ()) :
    LaneGloves s c f.d.toNat c.lanes (fun _ gl => gl = zeroGlove c.g.ident.k) (vSample f s draw) :=
  laneGloves_puts id h (by rw [hc]; rfl) (keeps_refl _ _) (fun g l => .word _ (hd g l)) fun _ _ => rfl

theorem keeps_drawWord (c : Cx) (g : Machine.Group) (l : Nat) : Keeps noReg g (c.drawWord g l).2 :=
  (keeps_modLane noReg g l (fun x => { x with draw := x.draw + 1 }) (fun _ => rfl) (fun _ => rfl) (fun _ => rfl) (fun k => absurd trivial k) (fun _ => rfl)
    fun _ _ _ => ⟨rfl, rfl⟩).1

/-- So do the three samplers. -/
theorem samplers_clear (h : s.cx? = some c) (hc : c.vCheck spRnd f (f.hold == 0) = .ok ()) :
    ∀ i ∈ [Instr.vRndu, .vRndn, .vRndg], LaneGloves s c f.d.toNat c.lanes (fun _ gl => gl = zeroGlove c.g.ident.k) (exec (i f) s) := by
  have once (value : Word → Word) := vSample_clears (draw := fun c g l => (value (c.drawWord g l).1, (c.drawWord g l).2))
    (keeps_drawWord c) h hc
  have twice (value : Word → Word → Word) := vSample_clears
    (draw := fun c g l => (value (c.drawWord g l).1 (c.drawWord (c.drawWord g l).2 l).1, (c.drawWord (c.drawWord g l).2 l).2))
    (fun g l => keeps_trans (keeps_drawWord c g l) (keeps_drawWord c _ l)) h hc
  simp only [List.forall_mem_cons, List.not_mem_nil, false_imp_iff, implies_true, and_true]
  exact ⟨once uniform, twice gaussOf, once gumbelOf⟩

/-- A 64-bit sum clears the gloves of both registers of its pair. -/
theorem vInt64_clears (res : DWord → DWord → DWord) (h : s.cx? = some c) (hc : c.vCheck spInt64 f = .ok ()) :
    LaneGloves s c f.d.toNat c.lanes (fun _ gl => gl = zeroGlove c.g.ident.k) (vInt64 f s res) ∧
    LaneGloves s c (f.d.toNat + 1) c.lanes (fun _ gl => gl = zeroGlove c.g.ident.k) (vInt64 f s res) := by
  have puts (g : Machine.Group) (l : Nat) (w : DWord) : Puts g f.d.toNat l (zeroGlove c.g.ident.k) (g.putD64 f.d.toNat l w (zeroGlove c.g.ident.k)) :=
    .pair w (keeps_refl noReg g)
  refine ⟨laneGloves_puts id h (by rw [hc]; rfl) (keeps_refl _ _) (fun g l => puts g l _) fun _ _ => rfl,
    laneGloves_foldl id h (by rw [hc]; rfl) (keeps_refl _ _) (fun g l => keeps_of_puts (puts g l _)) fun g l hl u _ hd => ?_⟩
  exact ⟨_, (glove_putD64 _ _ (u.lanes hl)).2 (u.gloves hd), by rw [Keeps.ident u]⟩

/-- An entry of the table of R111. -/
def Clears (s : State) (c : Cx) (f : VForm) (e : (VForm → Instr) × (Cx → VForm → Prop) × Bool) : Prop :=
  e.2.1 c f → LaneGloves s c f.d.toNat c.lanes (fun _ gl => gl = zeroGlove c.g.ident.k) (exec (e.1 f) s) ∧
    (e.2.2 = true → f.d.toNat + 1 < 120 →
      LaneGloves s c (f.d.toNat + 1) c.lanes (fun _ gl => gl = zeroGlove c.g.ident.k) (exec (e.1 f) s))

theorem clearTable_clears (h : s.cx? = some c) : ∀ e ∈ clearTable, Clears s c f e := by
  have integer {i : VForm → Instr} {sp : VSpec} (hi : Integer i sp) : Clears s c f (i, (fun c f => c.vCheck sp f = .ok ()), false) :=
    fun hc => ⟨integer_clears hi h hc, nofun⟩
  have wide {i : VForm → Instr} (res : DWord → DWord → DWord) (hi : exec (i f) s = vInt64 f s res) :
      Clears s c f (i, (fun c f => c.vCheck spInt64 f = .ok ()), true) :=
    fun hc => hi ▸ ⟨(vInt64_clears res h hc).1, fun _ _ => (vInt64_clears res h hc).2⟩
  have sampler {i : VForm → Instr} (hi : i ∈ [Instr.vRndu, .vRndn, .vRndg]) :
      Clears s c f (i, (fun c f => c.vCheck spRnd f (f.hold == 0) = .ok ()), false) := fun hc => ⟨samplers_clear h hc i hi, nofun⟩
  refine List.forall_mem_append.mpr ⟨List.forall_mem_map.mpr fun e he => integer (integer_vectorTable e he), ?_⟩
  simp only [List.forall_mem_cons, List.not_mem_nil, false_imp_iff, implies_true, and_true]
  refine ⟨integer integer_vIota, integer integer_vBfx, integer integer_vBfi, fun hc => ⟨vMad_clears h hc, nofun⟩,
    fun hc => ⟨vIscan_clears h hc, nofun⟩, wide (fun a b => a + b) rfl, wide (fun a b => a - b) rfl, integer integer_vFclass, fun hc => ⟨vCvtfi_clears h hc, nofun⟩,
    sampler (.head _), sampler (.tail _ (.head _)), sampler (.tail _ (.tail _ (.head _)))⟩

/-- A move copies the glove that it reads, or clears it under `pfx.pt`. -/
theorem vMove_copies {sp : VSpec} {pick : Cx → Nat → Nat × Nat} (h : s.cx? = some c) (hc : c.vCheck sp f = .ok ()) :
    LaneGloves s c f.d.toNat c.lanes (fun l gl => gl = if c.point then zeroGlove c.g.ident.k else c.srcGlove (pick c l).1 (pick c l).2)
      (vMove sp f s pick) :=
  laneGloves_puts id h (by rw [hc]; rfl) (keeps_hold_none c f) (fun g _ => .word _ (keeps_refl noReg g)) fun _ _ => rfl

theorem laneGloves_mono {d : Nat} {ls : List Nat} {P Q : Nat → List Word → Prop} {r : Res} (hPQ : ∀ l ∈ ls, ∀ gl, P l gl → Q l gl)
    (h : LaneGloves s c d ls P r) : LaneGloves s c d ls Q r :=
  groupStep_mono (fun _ hg l hl h1 h2 => (hg l hl h1 h2).imp fun gl hp => ⟨hp.1, hPQ l hl gl hp.2⟩) h

/-- Every move is of that shape, and reads the lane that R109 names. -/
theorem exec_copyGloves : ∀ e ∈ copyGloves, ∃ pick : VForm → Cx → Nat → Nat × Nat, (∀ f s, exec (e.1 f) s = vMove e.2.1 f s (pick f)) ∧
    ∀ (c : Cx) (f : VForm), ∀ l ∈ c.lanes, pick f c l = e.2.2 c f l := by
  have from_eq (c : Cx) (m : DWord) (l j : Nat) : c.shflFrom m l j = if j < c.g.ident.width ∧ m.getLsbD j = true ∧ j ∈ c.lanes then j else l := by
    simp only [Cx.shflFrom, Bool.and_eq_true, decide_eq_true_eq, List.contains_iff_mem, and_assoc]
  intro e he
  simp only [copyGloves, List.mem_cons, List.not_mem_nil, or_false] at he
  obtain rfl | rfl | rfl | rfl := he
  · exact ⟨fun f _ l => (f.a.toNat, l), fun _ _ => rfl, fun _ _ _ _ => rfl⟩
  · exact ⟨fun f c l => (if (c.g.readS f.sreg).getLsbD l then f.a.toNat else f.b.toNat, l), fun _ _ => rfl, fun _ _ _ _ => rfl⟩
  · refine ⟨fun f c l => (f.a.toNat, c.shflFrom (c.g.readS f.sreg) l ((c.src f f.b.toNat l).toNat % 32)), fun _ _ => rfl,
      fun c f l _ => ?_⟩
    dsimp only
    rw [from_eq]
  · refine ⟨fun f c l => (f.a.toNat, c.shflFrom (BitVec.allOnes 64) l (l ^^^ ((c.src f f.b.toNat l).toNat % 32))), fun _ _ => rfl,
      fun c f l hl => ?_⟩
    have hl32 : l < 32 := by
      by_contra hge
      rw [mem_lanes, BitVec.getLsbD_of_ge _ _ (by omega)] at hl
      exact absurd hl.2 (by decide)
    have hj : l ^^^ ((c.src f f.b.toNat l).toNat % 32) < 64 :=
      lt_of_lt_of_le (Nat.xor_lt_two_pow (n := 5) hl32 (Nat.mod_lt _ (by decide))) (by decide)
    dsimp only
    rw [from_eq, BitVec.getLsbD_allOnes, decide_eq_true hj]
    simp only [true_and]

theorem copyGloves_copy (h : s.cx? = some c) : ∀ e ∈ copyGloves, c.vCheck e.2.1 f = .ok () →
    LaneGloves s c f.d.toNat c.lanes (fun l gl =>
      let from' := e.2.2 c f l
      if c.gg.pfx.any Pfx.isPt then gl = zeroGlove c.g.ident.k
      else if from'.1 < c.g.ident.dw then gl = ((c.g.lane from'.2).gloves[from'.1]?).getD (List.replicate (1 + c.g.ident.k) 0)
      else gl = zeroGlove c.g.ident.k) (exec (e.1 f) s) := by
  intro e he hc
  obtain ⟨pick, hx, hpick⟩ := exec_copyGloves e he
  rw [hx]
  refine laneGloves_mono (fun l hl gl hg => ?_) (vMove_copies h hc)
  dsimp only
  rw [hpick c f l hl] at hg
  change gl = if c.gg.pfx.any Pfx.isPt then _ else _ at hg
  split
  · next hpt => rw [hg, if_pos hpt]
  · next hpt =>
    rw [if_neg hpt] at hg
    unfold Cx.srcGlove at hg
    split
    · next hdw => rw [hg, if_pos hdw]; rfl
    · next hdw => rw [hg, if_neg hdw]

theorem vSetlane_clears (h : s.cx? = some c) (hc : c.vCheck spSetlane f (f.c < c.g.ident.width) = .ok ()) :
    LaneGloves s c f.d.toNat (c.lanes.filter (· = f.c)) (fun _ gl => gl = zeroGlove c.g.ident.k) (exec (.vSetlane f) s) := by
  let g' := if c.lanes.contains f.c then (c.hold f c.g).putD f.d.toNat f.c (c.src f f.a.toNat f.c) (zeroGlove c.g.ident.k)
    else c.hold f c.g
  refine ⟨_, local1_next (g := g') h (by rw [hc]; exact (apply_ite Except.ok _ _ _).symm), fun l hl h120 hd => ⟨_, ?_, rfl⟩⟩
  obtain ⟨hl, hlc⟩ : l ∈ c.lanes ∧ l = f.c := by simpa using hl
  subst hlc
  have u : Untouched c f.c (c.hold f c.g) := (keeps_hold (offLane f.c) c f c.g).1
  rw [(vreg_advance _ _ _ _ _).2, show g' = _ from if_pos (List.contains_iff_mem.mpr hl)]
  exact glove_putD _ _ (u.lanes hl) h120 (u.gloves hd)

end

end Sys2Proof.Proofs.NumberFormats
end

section
namespace Sys2Proof.Proofs.NumberFormats
open Sys2Proof Sys2Proof.Machine Sys2Proof.Claims Sys2Proof.Laws Sys2Proof.Proofs.MachineState

/-! ## The grid of a format (R50, R51, R55) -/

theorem le_iff_qVal {x y : Q} (hx : 0 < x.d) (hy : 0 < y.d) : x.le y = true ↔ qVal x ≤ qVal y := by
  rw [Q.le, decide_eq_true_iff, qVal, qVal, div_le_div_iff₀ (den_pos hx) (den_pos hy)]
  exact_mod_cast Iff.rfl

theorem d_sub_pos {x y : Q} (hx : 0 < x.d) (hy : 0 < y.d) : 0 < (x.sub y).d := d_add_pos hx hy

theorem floor_eq (q : Q) : q.floor = ⌊qVal q⌋ := by
  rw [qVal, ← Rat.cast_intCast, ← Rat.cast_natCast, ← Rat.cast_div, Rat.floor_cast, Rat.floor_intCast_div_natCast]
  rfl

/-- The exponent of a positive rational. -/
theorem log2_bounds {q : Q} (hn : 0 < q.n) (hd : 0 < q.d) : (2 : ℝ) ^ q.log2 ≤ qVal q ∧ qVal q < (2 : ℝ) ^ (q.log2 + 1) := by
  have two : (0 : ℝ) < 2 := two_pos
  have hN : ((q.n.natAbs : ℕ) : ℝ) = (q.n : ℝ) := by rw [Nat.cast_natAbs, abs_of_pos hn]
  have hd' := den_pos hd
  have alo : (2 : ℝ) ^ q.n.natAbs.log2 ≤ q.n := by rw [← hN]; exact_mod_cast Nat.log2_self_le (by omega)
  have ahi : (q.n : ℝ) < 2 ^ (q.n.natAbs.log2 + 1) := by rw [← hN]; exact_mod_cast Nat.lt_log2_self
  have dlo : (2 : ℝ) ^ q.d.log2 ≤ q.d := by exact_mod_cast Nat.log2_self_le (by omega)
  have dhi : (q.d : ℝ) < 2 ^ (q.d.log2 + 1) := by exact_mod_cast Nat.lt_log2_self
  have hi : qVal q < (2 : ℝ) ^ ((q.n.natAbs.log2 : ℤ) - q.d.log2 + 1) := by
    rw [qVal, div_lt_iff₀ hd']
    calc (q.n : ℝ) < 2 ^ (q.n.natAbs.log2 + 1) := ahi
      _ = (2 : ℝ) ^ ((q.n.natAbs.log2 : ℤ) - q.d.log2 + 1) * 2 ^ q.d.log2 := by
        rw [← zpow_natCast, ← zpow_natCast, ← zpow_add₀ two.ne']; congr 1; push_cast; ring
      _ ≤ _ := mul_le_mul_of_nonneg_left dlo (zpow_nonneg two.le _)
  have lo : (2 : ℝ) ^ ((q.n.natAbs.log2 : ℤ) - q.d.log2 - 1) ≤ qVal q := by
    rw [qVal, le_div_iff₀ hd']
    calc (2 : ℝ) ^ ((q.n.natAbs.log2 : ℤ) - q.d.log2 - 1) * q.d
        ≤ (2 : ℝ) ^ ((q.n.natAbs.log2 : ℤ) - q.d.log2 - 1) * 2 ^ (q.d.log2 + 1) :=
          mul_le_mul_of_nonneg_left dhi.le (zpow_nonneg two.le _)
      _ = (2 : ℝ) ^ q.n.natAbs.log2 := by
        rw [← zpow_natCast, ← zpow_natCast, ← zpow_add₀ two.ne']; congr 1; push_cast; ring
      _ ≤ _ := alo
  unfold Q.log2
  dsimp only
  split
  · next h =>
    rw [le_iff_qVal (d_pow2_pos _) hd, qVal_pow2] at h
    exact ⟨h, hi⟩
  · next h =>
    rw [le_iff_qVal (d_pow2_pos _) hd, qVal_pow2, not_le] at h
    rw [sub_add_cancel]
    exact ⟨lo, h⟩

/-- The magnitude of a code of a format with a fraction and an exponent. -/
def gridQ (f : Fmt) (c : Nat) : Q :=
  if c / 2 ^ f.frac = 0 then (Q.ofInt c).shl (f.emin - f.frac)
  else (Q.ofInt (c % 2 ^ f.frac + 2 ^ f.frac : Nat)).shl (f.emin + (c / 2 ^ f.frac : Nat) - 1 - f.frac)

theorem mag_eq_gridQ {f : Fmt} (hf : f ≠ .lns6) (c : Nat) : f.mag c = .rat (gridQ f c) := by
  have hrat : f.mag c = if c / 2 ^ f.frac = 0 then .rat ((Q.ofInt c).shl (f.emin - f.frac))
      else .rat ((Q.ofInt (c % 2 ^ f.frac + 2 ^ f.frac : Nat)).shl (f.emin + (c / 2 ^ f.frac : Nat) - 1 - f.frac)) := by
    cases f with
    | lns6 => exact absurd rfl hf
    | _ => rfl
  rw [hrat, gridQ]
  split <;> rfl

theorem d_gridQ_pos (f : Fmt) (c : Nat) : 0 < (gridQ f c).d := by
  unfold gridQ
  split <;> exact d_shl_pos Nat.one_pos _

/-- A code as an exponent E and a significand k. -/
theorem qVal_gridQ (f : Fmt) {E k : Nat} (hE : E = 0 ∨ 2 ^ f.frac ≤ k) (hk : k ≤ 2 ^ (f.frac + 1)) :
    qVal (gridQ f (E * 2 ^ f.frac + k)) = (k : ℝ) * (2 : ℝ) ^ (f.emin + E - f.frac) := by
  have hm : 0 < 2 ^ f.frac := Nat.two_pow_pos _
  unfold gridQ
  rw [Nat.mul_comm E, Nat.mul_add_div hm, Nat.mul_add_mod]
  rw [Nat.pow_succ] at hk
  obtain hlt | hge | htop : k < 2 ^ f.frac ∨ (2 ^ f.frac ≤ k ∧ k < 2 ^ f.frac * 2) ∨ k = 2 ^ f.frac * 2 := by omega
  · obtain rfl : E = 0 := by omega
    rw [if_pos (by rw [Nat.div_eq_of_lt hlt]), qVal_shl, qVal_ofInt]
    simp
  · have h1 : k / 2 ^ f.frac = 1 := Nat.div_eq_of_lt_le (by omega) (by omega)
    have h2 : k % 2 ^ f.frac + 2 ^ f.frac = k := by
      have := Nat.div_add_mod k (2 ^ f.frac)
      rw [h1] at this
      omega
    rw [h1, h2, if_neg (by omega), qVal_shl, qVal_ofInt]
    push_cast
    congr 2
    ring
  · subst htop
    rw [Nat.mul_div_cancel_left _ hm, Nat.mul_mod_right, if_neg (by omega), qVal_shl, qVal_ofInt]
    push_cast
    rw [show f.emin + ((E : ℤ) + 2) - 1 - f.frac = f.emin + E - f.frac + 1 by ring, zpow_add_one₀ two_ne_zero]
    ring

theorem floorCode_eq {f : Fmt} (hf : f ≠ .lns6) {q : Q} (hn : 0 < q.n) :
    f.floorCode q = (max q.log2 f.emin - f.emin).toNat * 2 ^ f.frac +
      ((q.shl ((f.frac : Int) - max q.log2 f.emin)).floor).toNat := by
  unfold Fmt.floorCode
  rw [if_neg (by omega)]
  cases f with
  | lns6 => exact absurd rfl hf
  | _ => rfl

/-- The floor code is the grid point not above x, and the next one is above it. -/
theorem floorCode_bounds {f : Fmt} (hf : f ≠ .lns6) {q : Q} (hn : 0 < q.n) (hd : 0 < q.d) :
    qVal (gridQ f (f.floorCode q)) ≤ qVal q ∧ qVal q < qVal (gridQ f (f.floorCode q + 1)) := by
  obtain ⟨lo, hi⟩ := log2_bounds hn hd
  have hpos : 0 < qVal q := div_pos (by exact_mod_cast hn) (den_pos hd)
  rw [floorCode_eq hf hn]
  generalize he : max q.log2 f.emin = e
  have two : (2 : ℝ) ≠ 0 := two_ne_zero
  have hunit : (0 : ℝ) < 2 ^ (e - f.frac) := zpow_pos two_pos _
  have hscaled : qVal (q.shl (f.frac - e)) = qVal q / 2 ^ (e - f.frac) := by
    rw [qVal_shl, div_eq_mul_inv, ← zpow_neg, neg_sub]
  have hk0 : 0 ≤ (q.shl (f.frac - e)).floor := by
    rw [floor_eq, hscaled]
    exact Int.floor_nonneg.mpr (div_pos hpos hunit).le
  obtain ⟨k, hk⟩ := Int.eq_ofNat_of_zero_le hk0
  have hkf : ⌊qVal q / 2 ^ (e - f.frac)⌋ = (k : ℤ) := by rw [← hscaled, ← floor_eq, hk]
  obtain ⟨klo, khi⟩ := Int.floor_eq_iff.mp hkf
  rw [le_div_iff₀ hunit] at klo
  rw [div_lt_iff₀ hunit] at khi
  push_cast at klo khi
  have hexp : f.emin + ((e - f.emin).toNat : ℤ) - f.frac = e - f.frac := by omega
  -- the significand has at most frac + 1 bits, and that many above the least exponent
  have hkhi : k < 2 ^ (f.frac + 1) := by
    have : (k : ℝ) * 2 ^ (e - f.frac) < 2 ^ (f.frac + 1) * 2 ^ (e - f.frac) := by
      refine lt_of_le_of_lt klo (lt_of_lt_of_le hi ?_)
      rw [← zpow_natCast, ← zpow_add₀ two]
      exact zpow_le_zpow_right₀ one_le_two (by push_cast; omega)
    exact_mod_cast lt_of_mul_lt_mul_right this hunit.le
  have hE : (e - f.emin).toNat = 0 ∨ 2 ^ f.frac ≤ k := by
    by_cases h0 : e ≤ f.emin
    · exact .inl (by omega)
    · right
      have hlog : q.log2 = e := by omega
      have : (2 : ℝ) ^ f.frac * 2 ^ (e - f.frac) < (k + 1) * 2 ^ (e - f.frac) := by
        refine lt_of_le_of_lt (le_of_eq ?_) (lt_of_le_of_lt (hlog ▸ lo) khi)
        rw [← zpow_natCast, ← zpow_add₀ two]
        congr 1
        ring
      have : (2 : ℝ) ^ f.frac < k + 1 := lt_of_mul_lt_mul_right this hunit.le
      have : 2 ^ f.frac < k + 1 := by exact_mod_cast this
      omega
  rw [hk, Int.toNat_natCast, Nat.add_assoc, qVal_gridQ f hE hkhi.le, qVal_gridQ f (by omega) hkhi, hexp]
  push_cast
  exact ⟨klo, khi⟩

end Sys2Proof.Proofs.NumberFormats
end

section
namespace Sys2Proof.Proofs.NumberFormats
open Sys2Proof Sys2Proof.Machine Sys2Proof.Claims Sys2Proof.Laws Sys2Proof.Proofs.MachineState

/-! ## The charge of a rounding (R59) -/

/-- An overflow row delivers the largest finite value, or a pattern that is not it. -/
theorem overflow_cases (f : Fmt) (rm : Rm) (sat neg : Bool) :
    ((f.overflow rm sat neg).2.1 = 0x21 ∨ (f.overflow rm sat neg).2.1 = 5) ∧
    ((f.overflow rm sat neg).1 = f.code neg f.maxCode ∧ (f.overflow rm sat neg).2.2 = some f.maxCode ∨
      (f.overflow rm sat neg).1 ≠ f.code neg f.maxCode ∧ (f.overflow rm sat neg).2.2 = none) := by
  have special : (match f.infCode with | some c => f.code neg c | none => f.nan) ≠ f.code neg f.maxCode := by
    cases f <;> cases neg <;> decide
  unfold Fmt.overflow
  dsimp only
  split_ifs
  · exact ⟨.inl rfl, .inl ⟨rfl, rfl⟩⟩
  · exact ⟨.inr rfl, .inl ⟨rfl, rfl⟩⟩
  · exact ⟨.inr rfl, .inr ⟨special, rfl⟩⟩

/-- What a rounding of a positive rational knows of itself: it is exact, an overflow, or inexact from the floor code. -/
inductive RoundCase (f : Fmt) (rm : Rm) (sat neg : Bool) (lower : Nat) (r : Rnd) : Prop
  | exact (h : r.exact = true) (fl : r.flags = 0)
  | overflow (h : r.exact = false) (ovf : r.ovf = true) (row : f.overflow rm sat neg = (r.bits, r.flags, r.fin))
  | inexact {k : Nat} (h : r.exact = false) (ovf : r.ovf = false) (low : r.lower = lower) (fin : r.fin = some k)
      (fl : r.flags = 1 ∨ r.flags = 3)

theorem roundMag_lower (f : Fmt) (rm : Rm) (neg : Bool) (w : Nat) (x : RE) : (f.roundMag rm neg w x).1 = x.decide f.floorCode := by
  unfold Fmt.roundMag
  dsimp only
  split <;> rfl

theorem roundFin_cases (f : Fmt) (rm : Rm) (sat neg : Bool) (w : Nat) {q : Q} (hn : 0 < q.n) :
    RoundCase f rm sat neg (f.floorCode q) (f.roundFin rm sat w neg (.rat q)) := by
  have hlow : (f.roundMag rm neg w (.rat q)).1 = f.floorCode q := roundMag_lower f rm neg w (.rat q)
  unfold Fmt.roundFin
  rw [isZero_rat, if_neg (by rw [beq_iff_eq]; omega)]
  generalize f.roundMag rm neg w (.rat q) = m at hlow
  obtain ⟨lower, exact, c⟩ := m
  dsimp only at hlow ⊢
  split
  · exact .exact rfl rfl
  · split
    · exact .overflow rfl rfl rfl
    · refine .inexact rfl rfl hlow rfl ?_
      dsimp only
      split
      · exact .inr rfl
      · exact .inl rfl

theorem roundVar_inexact {f : Fmt} {rm : Rm} {r : Rnd} {k : Nat} (hf : f ≠ .lns6) (hr : rm ≠ .sr) (neg : Bool) (q : Q)
    (ex : r.exact = false) (ov : r.ovf = false) (fin : r.fin = some k) : f.roundVar rm (.fin neg (.rat q)) r =
      .re (.rat (((gridQ f (r.lower + 1)).sub (gridQ f r.lower)).sq.mul ⟨1, if rm = .rne then 12 else 3⟩)) := by
  unfold Fmt.roundVar
  simp only [ex, ov, fin, mag_eq_gridQ hf]
  cases rm with
  | sr => exact absurd rfl hr
  | _ => rfl

theorem roundVarRule : RoundVarRule := by
  intro f rm sat neg q hf hr hn hd x v r charge
  have grid (k : Nat) : reVal (f.mag k) = qVal (gridQ f k) := by rw [mag_eq_gridQ hf, reVal_rat]
  have dist {a b : Q} (ha : 0 < a.d) (hb : 0 < b.d) : 0 < (a.sub b).sq.d ∧ qVal (a.sub b).sq = (qVal a - qVal b) ^ 2 := by
    refine ⟨Nat.mul_pos (d_sub_pos ha hb) (d_sub_pos ha hb), ?_⟩
    rw [Q.sq, qVal_mul, qVal_sub ha hb, sq]
  have hstep := dist (d_gridQ_pos f (f.floorCode q + 1)) (d_gridQ_pos f (f.floorCode q))
  have hover := dist hd (d_gridQ_pos f f.maxCode)
  obtain ⟨lo, hi⟩ := floorCode_bounds hf hn hd
  refine ⟨f.floorCode q, (grid _).trans_le lo, hi.trans_eq (grid _).symm, ?_⟩
  have hcase : RoundCase f rm sat neg (f.floorCode q) r := roundFin_cases f rm sat neg 0 hn
  clear_value r
  obtain ⟨ex, fl⟩ | ⟨ex, ov, row⟩ | ⟨ex, ov, low, fin, fl⟩ := hcase
  · refine ⟨fun _ => ⟨.zero, Nat.one_pos, by simp [v, Fmt.roundVar, ex, VV.zero], reVal_zero⟩, ?_, ?_⟩
    · rw [fl]; exact fun h => absurd h (by decide)
    · rw [fl]; exact fun h => absurd h (by decide)
  · obtain ⟨flags, kind⟩ := overflow_cases f rm sat neg
    rw [row] at flags kind
    dsimp only at flags kind
    refine ⟨fun h => ?_, fun h => ?_, fun _ => ⟨fun hb => ?_, fun hb => ?_⟩⟩
    · rw [h] at flags; exact absurd flags (by decide)
    · rcases h with h | h <;> rw [h] at flags <;> exact absurd flags (by decide)
    · obtain ⟨-, hfin⟩ := kind.resolve_right fun h => h.1 hb
      refine ⟨.rat (q.sub (gridQ f f.maxCode)).sq, hover.1, ?_, ?_⟩
      · simp only [v, Fmt.roundVar, ex, hfin, ov, mag_eq_gridQ hf]
        rfl
      · rw [reVal_rat, hover.2, grid]
        rfl
    · obtain ⟨-, hfin⟩ := kind.resolve_left fun h => hb h.1
      simp [v, Fmt.roundVar, ex, hfin]
  · refine ⟨fun h => ?_, fun _ => ?_, fun h => ?_⟩
    · rw [h] at fl; exact absurd fl (by decide)
    · rw [grid, grid, ← hstep.2]
      refine ⟨_, Nat.mul_pos hstep.1 ?_, low ▸ roundVar_inexact hf hr neg q ex ov fin, ?_⟩
      · dsimp only; split <;> decide
      · rw [reVal_rat, qVal_mul, div_eq_mul_inv]
        congr 1
        rw [qVal]
        split <;> simp
    · rcases h with h | h <;> rw [h] at fl <;> exact absurd fl (by decide)

end Sys2Proof.Proofs.NumberFormats
end

section
namespace Sys2Proof.Proofs.NumberFormats
open Sys2Proof Sys2Proof.Machine Sys2Proof.Claims Sys2Proof.Laws Sys2Proof.Proofs.MachineState

/-! ## Single glove words (R22) -/

section
variable (g : Machine.Group) (l n i : Nat) (w : Word)

theorem keeps_writeGloveWord (a : Allow) (h : a.vreg l n) : Keeps a g (g.writeGloveWord l n i w) := by
  refine keeps_trans (keeps_cancel a g (.glove l n i)).1
    (keeps_modLane a _ l (fun x => { x with gloves := modAt x.gloves n fun gl => setAt gl i w }) (fun _ => rfl) (fun _ => rfl)
      (fun _ => rfl) (fun _ _ => rfl) (fun _ => rfl) fun x r hr => ⟨rfl, ?_⟩).1
  exact getElem?_modAt_ne _ _ _ _ fun e => hr (e ▸ h)

theorem lane_writeGloveWord (hl : l < g.lanes.length) : (g.writeGloveWord l n i w).lane l =
    { g.lane l with gloves := modAt (g.lane l).gloves n fun gl => setAt gl i w } := by
  rw [Group.writeGloveWord, lane_modLane, if_pos ⟨rfl, by rw [cancel_lanes]; exact hl⟩, lane_cancel]

theorem glove_writeGloveWord {gl : List Word} (hl : l < g.lanes.length) (h : (g.lane l).gloves[n]? = some gl) :
    ((g.writeGloveWord l n i w).lane l).gloves[n]? = some (gl.set i w) := by
  rw [lane_writeGloveWord _ _ _ _ _ hl]
  exact getElem?_modAt_self _ h

theorem vreg_writeGloveWord (hl : l < g.lanes.length) (r : Nat) :
    ((g.writeGloveWord l n i w).lane l).vreg r = (g.lane l).vreg r := by
  rw [lane_writeGloveWord _ _ _ _ _ hl]; rfl

end

/-- Clearing the words named of a list. -/
theorem getElem?_foldl_clear (is : List Nat) (gl : List Word) (j : Nat) :
    (is.foldl (fun gl i => gl.set i 0) gl)[j]? = if j ∈ is then gl[j]?.map fun _ => 0 else gl[j]? := by
  induction is generalizing gl with
  | nil => simp
  | cons i is ih =>
    rw [List.foldl_cons, ih, List.getElem?_set]
    by_cases hj : j ∈ is
    · rw [if_pos hj, if_pos (List.mem_cons_of_mem _ hj)]
      split
      · next e => subst e; by_cases h : i < gl.length <;> simp [h]
      · rfl
    · rw [if_neg hj]
      by_cases e : i = j
      · subst e
        rw [if_pos rfl, if_pos List.mem_cons_self]
        by_cases h : i < gl.length <;> simp [h]
      · rw [if_neg e, if_neg (by simp [hj, Ne.symm e])]

theorem foldl_clear_all {gl : List Word} {n : Nat} (h : gl.length = n) : (List.range n).foldl (fun gl i => gl.set i 0) gl = List.replicate n 0 := by
  refine List.ext_getElem? fun j => ?_
  rw [getElem?_foldl_clear, List.getElem?_replicate]
  by_cases hj : j < n
  · simp [hj, h]
  · simp [hj, h]

/-- A lane's registers after clearing the glove words named. -/
theorem lane_foldl_clear (is : List Nat) (g : Machine.Group) {l n : Nat} {gl : List Word} (hl : l < g.lanes.length)
    (h : (g.lane l).gloves[n]? = some gl) :
    let g' := is.foldl (fun g i => g.writeGloveWord l n i 0) g
    (g'.lane l).gloves[n]? = some (is.foldl (fun gl i => gl.set i 0) gl) ∧ ∀ r, (g'.lane l).vreg r = (g.lane l).vreg r := by
  induction is generalizing g gl with
  | nil => exact ⟨h, fun _ => rfl⟩
  | cons i is ih =>
    obtain ⟨h1, h2⟩ := ih (g.writeGloveWord l n i 0) (by rw [(keeps_writeGloveWord g l n i 0 (onLane l) rfl).lanes]; exact hl)
      (glove_writeGloveWord g l n i 0 hl h)
    exact ⟨h1, fun r => (h2 r).trans (vreg_writeGloveWord g l n i 0 hl r)⟩

/-- `v.dclr` clears the gloves of D and nothing else. -/
theorem vDclr_clears {s : State} {c : Cx} {f : VForm} (h : s.cx? = some c) (hc : c.dCheck dclrOk f true = .ok ()) :
    GroupStep s (fun g' => ∀ l ∈ c.lanes, ∀ gl, (c.g.lane l).gloves[f.d.toNat]? = some gl → gl.length = 1 + c.g.ident.k →
      (g'.lane l).gloves[f.d.toNat]? = some (List.replicate (1 + c.g.ident.k) 0) ∧
      (g'.lane l).vreg f.d.toNat = (c.g.lane l).vreg f.d.toNat) (exec (.vDclr f) s) := by
  let step (g : Machine.Group) (l : Nat) : Machine.Group := (List.range (1 + c.g.ident.k)).foldl (fun g i => g.writeGloveWord l f.d.toNat i 0) g
  have hk (g : Machine.Group) (l : Nat) : Keeps (onLane l) g (step g l) := by
    unfold step
    generalize List.range (1 + c.g.ident.k) = is
    induction is generalizing g with
    | nil => exact keeps_refl _ _
    | cons i is ih => exact keeps_trans (keeps_writeGloveWord g l _ i 0 (onLane l) rfl) (ih _)
  refine groupStep_mono (fun g' hg l hl gl hgl hlen => ?_)
    (laneStep_foldl id (f := step) (n := vLen f) h (by rw [hc]; rfl) (keeps_refl _ _) hk)
  obtain ⟨y, u, same⟩ := hg l hl
  have hy : (y.lane l).gloves[f.d.toNat]? = some gl := (u.glove f.d.toNat).trans hgl
  obtain ⟨h1, h2⟩ := lane_foldl_clear (List.range (1 + c.g.ident.k)) y (u.lanes hl) hy
  rw [foldl_clear_all hlen] at h1
  exact ⟨(same _).2.trans h1, (same _).1.trans ((h2 _).trans (vreg_of_offLane u _).1)⟩

end Sys2Proof.Proofs.NumberFormats
end

section
namespace Sys2Proof.Proofs.NumberFormats
open Sys2Proof Sys2Proof.Machine Sys2Proof.Claims Sys2Proof.Laws Sys2Proof.Proofs.MachineState

/-! ## Variances as rationals (R104, R105) -/

/-- A variance that is the rational x. -/
def IsVar (v : VV) (x : ℝ) : Prop := ∃ q : Q, v = .re (.rat q) ∧ 0 < q.d ∧ qVal q = x

section
variable {v w : VV} {x y : ℝ}

theorem isVar_zero : IsVar .zero 0 := ⟨.zero, rfl, Nat.one_pos, reVal_zero⟩

theorem isVar_add (h : IsVar v x) (k : IsVar w y) : IsVar (v.add w) (x + y) := by
  obtain ⟨p, rfl, hp, rfl⟩ := h
  obtain ⟨q, rfl, hq, rfl⟩ := k
  exact ⟨p.add q, rfl, d_add_pos hp hq, qVal_add hp hq⟩

theorem isVar_sq {m : Q} (h : 0 < m.d) : IsVar (.re (RE.rat m).sq) (qVal m ^ 2) :=
  ⟨m.mul m, rfl, Nat.mul_pos h h, (qVal_mul m m).trans (sq _).symm⟩

theorem isVar_scale {g : Q} (hg : 0 < g.d) (h : IsVar v x) : IsVar (v.scale (RE.rat g).sq) (qVal g ^ 2 * x) := by
  obtain ⟨p, rfl, hp, rfl⟩ := h
  exact ⟨p.mul (g.mul g), rfl, Nat.mul_pos hp (Nat.mul_pos hg hg), by rw [qVal_mul, qVal_mul]; ring⟩

/-- Its rounding upwards. -/
theorem rounds_roundUpVar (h : IsVar v x) : Rounds .f32 .ru false x (roundUpVar v).toNat := by
  obtain ⟨q, rfl, hq, rfl⟩ := h
  refine ⟨FV.ofRE false (.rat q), .inr ⟨false, .rat q, hq, rfl, rfl⟩, ?_⟩
  exact (BitVec.toNat_ofNat _ _).trans (Nat.mod_eq_of_lt (roundTo_lt ..))

end

/-- The charge of a rounding of a rational is infinite or rational. -/
theorem isVar_roundVar {f : Fmt} (hf : f ≠ .lns6) (rm : Rm) (neg : Bool) {q : Q} (hd : 0 < q.d) (r : Rnd) :
    f.roundVar rm (.fin neg (.rat q)) r = .inf ∨ ∃ x, IsVar (f.roundVar rm (.fin neg (.rat q)) r) x := by
  have hg (k : Nat) := d_gridQ_pos f k
  unfold Fmt.roundVar
  simp only [mag_eq_gridQ hf]
  split
  · exact .inr ⟨_, isVar_zero⟩
  · split
    · exact .inl rfl
    · split
      · exact .inr ⟨_, isVar_sq (d_sub_pos hd (hg _))⟩
      · refine .inr ?_
        have step : 0 < ((gridQ f (r.lower + 1)).sub (gridQ f r.lower)).d := d_sub_pos (hg _) (hg _)
        split
        · exact ⟨_, _, rfl, Nat.mul_pos (Nat.mul_pos step step) (by decide), rfl⟩
        · exact ⟨_, _, rfl, Nat.mul_pos (d_sub_pos hd (hg _)) (d_sub_pos (hg _) hd), rfl⟩
        · exact ⟨_, _, rfl, Nat.mul_pos (Nat.mul_pos step step) (by decide), rfl⟩

/-! ## Words as variances -/

/-- A binary32 word is finite, a NaN, or an infinity. -/
theorem f32_cases (w : Word) : finiteWord w ∨ (nanWord w ∧ ∃ b, f32 w = .nan b) ∨
    (w &&& 0x7FFFFFFF = 0x7F800000 ∧ ¬ nanWord w ∧ f32 w = .inf (w.getLsbD 31)) := by
  by_cases h : finiteWord w
  · exact .inl h
  have he : w.extractLsb' 23 8 = 0xFF#8 := not_not.mp h
  have hexp : w.toNat % 2 ^ 31 / 2 ^ 23 = 255 := (toNat_exponent w).symm.trans (congrArg BitVec.toNat he)
  have hdec : f32 w = if w.toNat % 2 ^ 32 % 2 ^ 31 ≤ 0x7F7FFFFF
      then .fin (w.toNat % 2 ^ 32 / 2 ^ 31 == 1) (Fmt.f32.mag (w.toNat % 2 ^ 32 % 2 ^ 31))
      else if some 0x7F800000 = some (w.toNat % 2 ^ 32 % 2 ^ 31) then .inf (w.toNat % 2 ^ 32 / 2 ^ 31 == 1)
      else .nan (w.toNat % 2 ^ 32 % 2 ^ 31 / 2 ^ 22 % 2 == 0) := rfl
  rw [Nat.mod_eq_of_lt w.isLt, signBit_eq, if_neg (by omega)] at hdec
  right
  by_cases hf : w.extractLsb' 0 23 = 0#23
  · have hfrac : w.toNat % 2 ^ 31 % 2 ^ 23 = 0 := (toNat_fraction w).symm.trans (congrArg BitVec.toNat hf)
    refine .inr ⟨BitVec.eq_of_toNat_eq ?_, fun hn => hn.2 hf, ?_⟩
    · rw [toNat_clear_sign]
      show _ = 0x7F800000
      omega
    · rw [hdec, if_pos (by congr 1; omega)]
  · refine .inl ⟨⟨he, hf⟩, _, hdec.trans (if_neg fun e => hf (BitVec.eq_of_toNat_eq ((toNat_fraction w).trans ?_)))⟩
    rw [← Option.some.inj e]
    rfl

theorem nzW_iff (w : Word) : nzW w = true ↔ w &&& 0x7FFFFFFF ≠ 0 := bne_iff_ne

theorem wordVal_of_not_nzW {w : Word} (h : ¬ nzW w = true) : wordVal w = 0 := by
  rw [nzW_iff, not_not] at h
  have h0 : w.toNat % 2 ^ 31 = 0 := (toNat_clear_sign w).symm.trans (congrArg BitVec.toNat h)
  have hm : qVal (f32Mag 0) = 0 := by simp [f32Mag, qVal_shl, qVal_ofInt]
  rw [wordVal_eq, h0, hm, neg_zero, ite_self]

theorem qVal_f32Mag (w : Word) : qVal (f32Mag (w.toNat % 2 ^ 31)) = |wordVal w| := by
  have hm := qVal_f32Mag_nonneg (w.toNat % 2 ^ 31)
  rw [wordVal_eq]
  split
  · rw [abs_neg, abs_of_nonneg hm]
  · rw [abs_of_nonneg hm]

theorem isVar_varW {w : Word} (h : finiteWord w) : IsVar (varW w) |wordVal w| := by
  refine ⟨f32Mag (w.toNat % 2 ^ 31), ?_, d_f32Mag_pos _, qVal_f32Mag w⟩
  unfold varW f32
  rw [decode_f32 h]

/-- The square of a finite word, as a variance. -/
theorem isVar_wordSq {w : Word} (h : finiteWord w) : ∃ m, f32 w = .fin (w.getLsbD 31) m ∧ IsVar (.re m.sq) (wordVal w ^ 2) :=
  ⟨_, decode_f32 h, by rw [← sq_abs, ← qVal_f32Mag]; exact isVar_sq (d_f32Mag_pos _)⟩

/-- The square of a partial. -/
noncomputable def partSq (p : Part) : ℝ := (p.elim 0 reVal) ^ 2

/-- The sum of the squared partials times the source variances. -/
theorem isVar_sumVar {gs : List Part} {ws : List Word} (h : ∀ p ∈ gs.zip ws, (∃ g : Q, p.1 = some (.rat g) ∧ 0 < g.d) ∧ finiteWord p.2) :
    ∃ v, sumVar gs ws = some v ∧ IsVar v ((gs.zip ws).map fun p => partSq p.1 * |wordVal p.2|).sum := by
  unfold sumVar
  generalize gs.zip ws = ps at h ⊢
  rw [← zero_add (List.sum _)]
  have hv := isVar_zero
  generalize VV.zero = v at hv ⊢
  generalize (0 : ℝ) = x at hv ⊢
  induction ps generalizing v x with
  | nil => exact ⟨v, rfl, by simpa using hv⟩
  | cons p ps ih =>
    obtain ⟨p, w⟩ := p
    have ih := ih fun q hq => h q (List.mem_cons_of_mem _ hq)
    obtain ⟨⟨g, hp, hg⟩, hw⟩ := h _ List.mem_cons_self
    dsimp only at hp hw
    subst hp
    rw [List.map_cons, List.sum_cons, ← add_assoc, List.foldl_cons]
    have hsq : partSq (some (.rat g)) = qVal g ^ 2 := rfl
    by_cases hz : nzW w = true
    · by_cases h0 : g.n = 0
      · have h0' : partSq (some (.rat g)) * |wordVal w| = 0 := by rw [hsq, (n_eq_zero_iff hg).mp h0]; ring
        simp only [hz, isZero_rat, h0, h0', add_zero]
        exact ih v x hv
      · simp only [hz, isZero_rat]
        rw [if_neg (by decide), if_neg (by simpa using h0)]
        exact ih _ _ (isVar_add hv (isVar_scale hg (isVar_varW hw)))
    · have h0' : partSq (some (.rat g)) * |wordVal w| = 0 := by rw [wordVal_of_not_nzW hz]; simp
      rw [Bool.not_eq_true] at hz
      simp only [hz, h0', add_zero]
      exact ih v x hv

/-- The total variance of a glove of finite words (R105, R118). -/
theorem isVar_totalVar {gl : List Word} (h : ∀ w ∈ gl, finiteWord w) :
    IsVar ((totalVar true gl).getD .zero) (|wordVal (gl.headD 0)| + ((gl.drop 1).map fun w => wordVal w ^ 2).sum) := by
  unfold totalVar
  have h0 : IsVar ((if nzW (gl.headD 0) then some (varW (gl.headD 0)) else none : Option VV).getD .zero) |wordVal (gl.headD 0)| := by
    split
    · next hz =>
      refine isVar_varW ?_
      cases gl with
      | nil => exact absurd hz (by decide)
      | cons w ws => exact h w List.mem_cons_self
    · next hz => rw [wordVal_of_not_nzW hz, abs_zero]; exact isVar_zero
  dsimp only
  rw [if_neg (by decide)]
  have hrest : ∀ w ∈ gl.drop 1, finiteWord w := fun w hw => h w (List.mem_of_mem_drop hw)
  generalize gl.drop 1 = ws at hrest
  generalize (if nzW (gl.headD 0) then some (varW (gl.headD 0)) else none : Option VV) = v at h0
  generalize |wordVal (gl.headD 0)| = x at h0
  induction ws generalizing v x with
  | nil => simpa using h0
  | cons w ws ih =>
    have ih := ih fun u hu => hrest u (List.mem_cons_of_mem _ hu)
    rw [List.map_cons, List.sum_cons, ← add_assoc, List.foldl_cons]
    by_cases hz : nzW w = true
    · obtain ⟨m, hm, hv⟩ := isVar_wordSq (hrest w List.mem_cons_self)
      simp only [hz, hm]
      exact ih _ _ (isVar_add h0 hv)
    · rw [wordVal_of_not_nzW hz, zero_pow two_ne_zero, add_zero]
      rw [Bool.not_eq_true] at hz
      simp only [hz]
      exact ih _ _ h0

end Sys2Proof.Proofs.NumberFormats
end

section
namespace Sys2Proof.Proofs.NumberFormats
open Sys2Proof Sys2Proof.Machine Sys2Proof.Claims Sys2Proof.Laws Sys2Proof.Proofs.MachineState

/-! ## Distribution instructions (R117 to R123) -/

section
variable {s : State} {c : Cx} {f : VForm} {n d : Nat} {F : Cx → Except Tq Machine.Group} {step : Machine.Group → Nat → Machine.Group}

/-- An instruction that writes a word to D in each active lane. -/
theorem laneWords_putD {w : Nat → Word} {P : Nat → Word → Prop} (h : s.cx? = some c) (hF : F c = .ok (c.lanes.foldl step c.g))
    (hs : ∀ g l, ∃ pre gl, Keeps noReg g pre ∧ step g l = pre.putD f.d.toNat l (w l) gl) (hP : ∀ l ∈ c.lanes, P l (w l)) :
    LaneWords s c f false (fun l w _ => P l w) (local1 n s F) := by
  have hk (g : Machine.Group) (l : Nat) : Keeps (onLane l) g (step g l) := by
    obtain ⟨pre, gl, k, e⟩ := hs g l
    rw [e]
    exact keeps_of_puts (.word (w l) k)
  refine groupStep_mono (fun g' hg l hl hv h120 => ?_) (laneStep_foldl id h hF (keeps_refl _ _) hk)
  obtain ⟨y, u, same⟩ := hg l hl
  obtain ⟨pre, gl, k, e⟩ := hs y l
  have hlen : f.d.toNat < (pre.lane l).v.length := by rw [k.nregs, show (y.lane l).v.length = _ from Keeps.nregs u l]; exact hv
  have h120 : f.d.toNat < 120 := h120
  have hval : ((step y l).lane l).vreg f.d.toNat = w l := by
    rw [e, Group.putD, if_pos h120, vreg_writeV _ _ _ _ _ _ (by rw [k.lanes]; exact u.lanes hl) hlen, if_pos rfl]
  exact ((same _).1.trans hval).symm ▸ hP l hl

/-- An instruction that writes a glove word of D in each active lane. -/
theorem laneGloves_write {i : Nat} {w : Nat → Word} {P : Nat → List Word → Prop} (h : s.cx? = some c)
    (hF : F c = .ok (c.lanes.foldl step c.g))
    (hs : ∀ g, ∀ l ∈ c.lanes, ∃ pre, Keeps noReg g pre ∧ step g l = pre.writeGloveWord l d i (w l))
    (hk : ∀ g l, Keeps (onLane l) g (step g l))
    (hP : ∀ l ∈ c.lanes, ∀ gl, (c.g.lane l).gloves[d]? = some gl → P l (gl.set i (w l))) :
    LaneGloves s c d c.lanes P (local1 n s F) := by
  refine laneGloves_foldl id h hF (keeps_refl _ _) hk fun y l hl u _ hd => ?_
  obtain ⟨pre, k, e⟩ := hs y l hl
  have hgl : (c.g.lane l).gloves[d]? = some (c.g.lane l).gloves[d] := List.getElem?_eq_getElem hd
  have hpre : (pre.lane l).gloves[d]? = some (c.g.lane l).gloves[d] := ((lane_of_noReg k l d).2.trans (u.glove d)).trans hgl
  refine ⟨_, ?_, hP l hl _ hgl⟩
  dsimp only [id]
  rw [e]
  exact glove_writeGloveWord pre l d i (w l) (by rw [k.lanes]; exact u.lanes hl) hpre

end

/-! ## What the distribution instructions read -/

section
variable {c : Cx} {f : VForm}

theorem getD_srcGlove (c : Cx) (code l j : Nat) : (c.srcGlove code l).getD j 0 = gloveWord c code l j := by
  unfold Cx.srcGlove gloveWord
  split
  · unfold Lane.glove
    cases (c.g.lane l).gloves[code]? with
    | some gl => rfl
    | none => rw [Option.getD_none, Option.getD_none, zeroGlove]; simp [List.getElem?_replicate]; split <;> rfl
  · rw [zeroGlove]; simp [List.getElem?_replicate]; split <;> rfl

theorem headD_srcGlove (c : Cx) (code l : Nat) : (c.srcGlove code l).headD 0 = gloveWord c code l 0 := by
  rw [← getD_srcGlove]
  cases c.srcGlove code l <;> rfl

theorem length_srcGlove (hw : glovesWhole c) {l : Nat} (hl : l ∈ c.lanes) (code : Nat) : (c.srcGlove code l).length = 1 + c.g.ident.k := by
  unfold Cx.srcGlove Lane.glove
  split
  · cases h : (c.g.lane l).gloves[code]? with
    | some gl => exact hw l hl gl (List.mem_of_getElem? h)
    | none => exact List.length_replicate
  · exact List.length_replicate

theorem sel_of_dCheck {ok : VForm → Bool} {below : Bool} (h : c.dCheck ok f below = .ok ()) : f.sel ≤ c.g.ident.k := by
  unfold Cx.dCheck at h
  dsimp only at h
  by_contra hsel
  have hf : (ok f && c.gg.pfx.isEmpty && decide (f.sel ≤ c.g.ident.k) &&
      !(below && decide (c.g.ident.dw ≤ f.d.toNat) && decide (f.d.toNat < c.g.ident.nr))) = false := by simp [hsel]
  rw [hf] at h
  cases h

/-- The total variance of a source under tracking (R118). -/
theorem isVar_total (hw : glovesWhole c) {l : Nat} (hl : l ∈ c.lanes) (code : Nat)
    (hf : ∀ j < c.g.ident.k + 1, finiteWord (gloveWord c code l j)) :
    IsVar ((totalVar true (c.srcGlove code l)).getD .zero) (|wordVal (gloveWord c code l 0)| +
      ((List.range c.g.ident.k).map fun j => wordVal (gloveWord c code l (j + 1)) ^ 2).sum) := by
  have hlen := length_srcGlove hw hl code
  have hmem : ∀ w ∈ c.srcGlove code l, finiteWord w := fun w hm => by
    obtain ⟨j, hj, rfl⟩ := List.getElem_of_mem hm
    have e := getD_srcGlove c code l j
    rw [List.getD_eq_getElem _ _ hj] at e
    exact e ▸ hf j (by omega)
  have hdrop : (c.srcGlove code l).drop 1 = (List.range c.g.ident.k).map fun j => gloveWord c code l (j + 1) := by
    refine List.ext_getElem (by simp [hlen]) fun j h1 h2 => ?_
    rw [List.getElem_map, List.getElem_range, List.getElem_drop, ← getD_srcGlove, List.getD_eq_getElem _ _ (by simp at h1; omega)]
    congr 1
    omega
  have hv := isVar_totalVar hmem
  rw [headD_srcGlove, hdrop, List.map_map] at hv
  exact hv

/-! ## Words made fit (R119, R120) -/

theorem f32_isNan (w : Word) : (f32 w).isNan = true ↔ nanWord w := by
  obtain h | ⟨hn, b, h⟩ | ⟨-, hn, h⟩ := f32_cases w
  · rw [f32, decode_f32 h]
    exact ⟨fun e => Bool.noConfusion e, fun e => absurd e.1 h⟩
  · rw [h]; exact ⟨fun _ => hn, fun _ => rfl⟩
  · rw [h]; exact ⟨fun e => Bool.noConfusion e, fun e => absurd e hn⟩

theorem f32_sign {w : Word} (h : ¬ nanWord w) : (f32 w).sign = w.getLsbD 31 := by
  obtain h | ⟨hn, -⟩ | ⟨-, -, h⟩ := f32_cases w
  · rw [f32, decode_f32 h]; rfl
  · exact absurd hn h
  · rw [h]; rfl

theorem not_nzW_iff (w : Word) : nzW w = false ↔ w = 0 ∨ w = 0x80000000 := by
  rw [← Bool.not_eq_true, nzW_iff, not_not, ← BitVec.toNat_inj, ← BitVec.toNat_inj, ← BitVec.toNat_inj, toNat_clear_sign]
  show w.toNat % 2 ^ 31 = 0 ↔ w.toNat = 0 ∨ w.toNat = 0x80000000
  omega

theorem fst_fitVar (w : Word) : (fitVar w).1 = fitWord w := by
  unfold fitVar fitWord badVar
  by_cases hn : nanWord w
  · rw [(f32_isNan w).mpr hn, if_pos (show w.extractLsb' 23 8 = 0xFF#8 ∧ w.extractLsb' 0 23 ≠ 0#23 from hn)]
    rfl
  rw [Bool.eq_false_iff.mpr (mt (f32_isNan w).mp hn), Bool.false_or, f32_sign hn,
    if_neg (show ¬ (w.extractLsb' 23 8 = 0xFF#8 ∧ w.extractLsb' 0 23 ≠ 0#23) from hn)]
  cases hz : nzW w with
  | false =>
    rw [Bool.and_false, if_neg (by decide), if_neg (by decide)]
    obtain rfl | rfl := (not_nzW_iff w).mp hz
    · rfl
    · rfl
  | true =>
    have hne : w ≠ 0x80000000 := fun e => by rw [e] at hz; exact absurd hz (by decide)
    rw [Bool.and_true, if_neg hne]
    cases w.getLsbD 31 <;> rfl

end

end Sys2Proof.Proofs.NumberFormats
end

section
namespace Sys2Proof.Proofs.NumberFormats
open Sys2Proof Sys2Proof.Machine Sys2Proof.Claims Sys2Proof.Laws Sys2Proof.Proofs.MachineState

/-! ## The instructions of Table 4.4 -/

/-- FMT.DM is that of tracking. -/
def tracked (c : Cx) : Prop := c.gg.fmt.extractLsb' 12 2 = 2#2

theorem fmtDm_eq_two (c : Cx) : fmtDm c.gg.fmt = 2 ↔ tracked c := by
  unfold tracked fmtDm fld
  rw [← BitVec.toNat_inj]
  rfl

section
variable {s : State} {c : Cx} {f : VForm}

theorem vDvar_words (h : s.cx? = some c) (hw : glovesWhole c) (hc : c.dCheck dvarOk f false = .ok ()) :
    LaneWords s c f false (fun l w _ => (¬ tracked c → w = gloveWord c f.a.toNat l 0) ∧
      (tracked c → (∀ j < c.g.ident.k + 1, finiteWord (gloveWord c f.a.toNat l j)) →
        Rounds .f32 .ru false (|wordVal (gloveWord c f.a.toNat l 0)| +
          ((List.range c.g.ident.k).map fun j => wordVal (gloveWord c f.a.toNat l (j + 1)) ^ 2).sum) w.toNat)) (exec (.vDvar f) s) := by
  refine laneWords_putD (w := fun l => c.dTotal (c.srcGlove f.a.toNat l))
    (step := fun g l => g.putD f.d.toNat l (c.dTotal (c.srcGlove f.a.toNat l)) (zeroGlove c.g.ident.k)) h (by rw [hc]; rfl)
    (fun g l => ⟨g, _, keeps_refl _ g, rfl⟩) fun l hl => ⟨fun ht => ?_, fun ht hf => ?_⟩
  · rw [Cx.dTotal, if_neg (mt (fmtDm_eq_two c).mp ht), headD_srcGlove]
  · rw [Cx.dTotal, if_pos ((fmtDm_eq_two c).mpr ht)]
    exact rounds_roundUpVar (isVar_total hw hl _ hf)

theorem vDset_sets (h : s.cx? = some c) (hc : c.dCheck dsetOk f false = .ok ()) :
    LaneWords s c f false (fun l w _ => w = c.src f f.a.toNat l) (exec (.vDset f) s) ∧
    LaneGloves s c f.d.toNat c.lanes (fun l gl => gl = fitWord (c.src f f.b.toNat l) :: List.replicate c.g.ident.k 0)
      (exec (.vDset f) s) := by
  let pre (g : Machine.Group) (l : Nat) : Machine.Group := if (fitVar (c.src f f.b.toNat l)).2 then g.raise fInvalid else g
  let step (g : Machine.Group) (l : Nat) : Machine.Group :=
    (pre g l).putD f.d.toNat l (c.src f f.a.toNat l) ((fitVar (c.src f f.b.toNat l)).1 :: List.replicate c.g.ident.k 0)
  have hpre (g : Machine.Group) (l : Nat) : Keeps noReg g (pre g l) := by
    unfold pre
    split
    · exact (keeps_raise noReg g _ BitVec.and_allOnes).1
    · exact keeps_refl _ g
  refine ⟨laneWords_putD (w := fun l => c.src f f.a.toNat l) (step := step) h (by rw [hc]; rfl)
    (fun g l => ⟨pre g l, _, hpre g l, rfl⟩) fun _ _ => rfl, ?_⟩
  exact laneGloves_puts id (f := step) h (by rw [hc]; rfl) (keeps_refl _ _) (fun g l => .word _ (hpre g l))
    fun l _ => by rw [fst_fitVar]

theorem vDgetd_words (h : s.cx? = some c) (hc : c.dCheck dgetdOk f false = .ok ()) :
    LaneWords s c f false (fun l w _ => w = gloveWord c f.a.toNat l f.sel) (exec (.vDgetd f) s) :=
  laneWords_putD (step := fun g l => g.putD f.d.toNat l ((c.srcGlove f.a.toNat l).getD f.sel 0) (zeroGlove c.g.ident.k)) h
    (by rw [hc]; rfl) (fun g _ => ⟨g, _, keeps_refl _ g, rfl⟩) fun l _ => getD_srcGlove c f.a.toNat l f.sel

/-- The word of a glove that was set, and the others. -/
theorem getD_set (gl : List Word) {i : Nat} (w : Word) (hi : i < gl.length) (j : Nat) :
    (gl.set i w).getD j 0 = if j = i then w else gl.getD j 0 := by
  rw [List.getD_eq_getElem?_getD, List.getElem?_set]
  by_cases e : i = j
  · subst e; simp [hi]
  · rw [if_neg e, if_neg (Ne.symm e), List.getD_eq_getElem?_getD]

/-- The glove that D holds in an active lane has the word that GW names. -/
theorem sel_lt_length {ok : VForm → Bool} {below : Bool} (hw : glovesWhole c) (hc : c.dCheck ok f below = .ok ()) {l : Nat}
    (hl : l ∈ c.lanes) {gl : List Word} (hgl : (c.g.lane l).gloves[f.d.toNat]? = some gl) : f.sel < gl.length := by
  have hs := sel_of_dCheck hc
  have hlen := hw l hl gl (List.mem_of_getElem? hgl)
  omega

theorem vDsetd_gloves (h : s.cx? = some c) (hw : glovesWhole c) (hc : c.dCheck dsetdOk f true = .ok ()) :
    LaneGloves s c f.d.toNat c.lanes (fun l gl => ∀ j < c.g.ident.k + 1, gl.getD j 0 =
      if j = f.sel then (if j = 0 then fitWord (c.src f f.b.toNat l) else c.src f f.b.toNat l)
      else (((c.g.lane l).gloves[f.d.toNat]?).getD []).getD j 0) (exec (.vDsetd f) s) := by
  let word (l : Nat) : Word := if f.sel = 0 then (fitVar (c.src f f.b.toNat l)).1 else c.src f f.b.toNat l
  let step (g : Machine.Group) (l : Nat) : Machine.Group :=
    if f.sel = 0 then (if (fitVar (c.src f f.b.toNat l)).2 then g.raise fInvalid else g).writeGloveWord l f.d.toNat 0 (fitVar (c.src f f.b.toNat l)).1
    else g.writeGloveWord l f.d.toNat f.sel (c.src f f.b.toNat l)
  have hs (g : Machine.Group) (l : Nat) : ∃ pre, Keeps noReg g pre ∧ step g l = pre.writeGloveWord l f.d.toNat f.sel (word l) := by
    unfold step word
    by_cases h0 : f.sel = 0
    · simp only [h0, if_true]
      refine ⟨_, ?_, rfl⟩
      split
      · exact (keeps_raise noReg g _ BitVec.and_allOnes).1
      · exact keeps_refl _ g
    · simp only [h0, if_false]
      exact ⟨g, keeps_refl _ g, rfl⟩
  have hk (g : Machine.Group) (l : Nat) : Keeps (onLane l) g (step g l) := by
    obtain ⟨pre, k, e⟩ := hs g l
    rw [e]
    exact keeps_trans (onLane_of_noReg l k) (keeps_writeGloveWord pre l _ _ _ (onLane l) rfl)
  refine laneGloves_write (step := step) h (by rw [hc]; rfl) (fun g l _ => hs g l) hk fun l hl gl hgl j _ => ?_
  rw [hgl, getD_set gl _ (sel_lt_length hw hc hl hgl)]
  by_cases e : j = f.sel
  · rw [if_pos e, if_pos e, e]
    unfold word
    split
    · exact fst_fitVar _
    · rfl
  · rw [if_neg e, if_neg e]; rfl

/-! ### Noise (R122) -/

/-- The standard deviation that `v.dnoise` takes of its operand. -/
def noiseSd (w : Word) : Word := if (f32 w).isNan then f32Inf else w &&& 0x7FFFFFFF

/-- The glove word that `v.dnoise` leaves. -/
def noiseWord (sel : Nat) (old w : Word) : Word :=
  if sel = 0 then roundUpVar ((varW old).add (match f32 (noiseSd w) with | .fin _ m => .re m.sq | _ => .inf)) else noiseSd w

theorem isVar_noise {w : Word} (h : finiteWord w) : IsVar (match f32 (noiseSd w) with | .fin _ m => .re m.sq | _ => .inf) (wordVal w ^ 2) := by
  have hn : ¬ nanWord w := fun e => h e.1
  have hsd : noiseSd w = w &&& 0x7FFFFFFF := if_neg (mt (f32_isNan w).mp hn)
  have hmag : (w &&& 0x7FFFFFFF).toNat % 2 ^ 31 = w.toNat % 2 ^ 31 := by rw [toNat_clear_sign, Nat.mod_mod]
  have hfin : finiteWord (w &&& 0x7FFFFFFF) := fun e => h (BitVec.eq_of_toNat_eq (by
    rw [toNat_exponent, ← hmag, ← toNat_exponent, e]))
  obtain ⟨m, hm, hv⟩ := isVar_wordSq hfin
  rw [← sq_abs, ← qVal_f32Mag, hmag, qVal_f32Mag, sq_abs] at hv
  rw [hsd, hm]
  exact hv

theorem vDnoise_gloves (h : s.cx? = some c) (hw : glovesWhole c) (hc : c.dCheck dnoiseOk f true = .ok ()) (ht : f.sel = 0 ∨ tracked c) :
    LaneGloves s c f.d.toNat c.lanes (fun l gl => ∃ old, (c.g.lane l).gloves[f.d.toNat]? = some old ∧ f.sel < old.length ∧
      gl = old.set f.sel (noiseWord f.sel (old.getD 0 0) (c.src f f.b.toNat l))) (exec (.vDnoise f) s) := by
  let step (g : Machine.Group) (l : Nat) : Machine.Group :=
    let g := if (f32 (c.src f f.b.toNat l)).isNan then g.raise fInvalid else g
    if f.sel = 0 then g.writeGloveWord l f.d.toNat 0 (roundUpVar ((varW (c.g.gloveWord l f.d.toNat 0)).add
      (match f32 (noiseSd (c.src f f.b.toNat l)) with | .fin _ m => .re m.sq | _ => .inf)))
    else g.writeGloveWord l f.d.toNat f.sel (noiseSd (c.src f f.b.toNat l))
  have hs (g : Machine.Group) (l : Nat) : ∃ pre, Keeps noReg g pre ∧ step g l =
      pre.writeGloveWord l f.d.toNat f.sel (noiseWord f.sel (c.g.gloveWord l f.d.toNat 0) (c.src f f.b.toNat l)) := by
    refine ⟨if (f32 (c.src f f.b.toNat l)).isNan then g.raise fInvalid else g, ?_, ?_⟩
    · split
      · exact (keeps_raise noReg g _ BitVec.and_allOnes).1
      · exact keeps_refl _ g
    · unfold step noiseWord
      by_cases h0 : f.sel = 0
      · simp only [h0, if_true]
      · simp only [h0, if_false]
  have hk (g : Machine.Group) (l : Nat) : Keeps (onLane l) g (step g l) := by
    obtain ⟨pre, k, e⟩ := hs g l
    rw [e]
    exact keeps_trans (onLane_of_noReg l k) (keeps_writeGloveWord pre l _ _ _ (onLane l) rfl)
  have hF : (do
      c.dCheck dnoiseOk f true
      need (f.sel == 0 || fmtDm c.gg.fmt == 2) .modeConflict
      pure (c.each step) : Except Tq Machine.Group) = .ok (c.lanes.foldl step c.g) := by
    rw [hc, show (f.sel == 0 || fmtDm c.gg.fmt == 2) = true by simpa [fmtDm_eq_two] using ht]
    rfl
  refine laneGloves_write (step := step) h hF (fun g l _ => hs g l) hk fun l hl gl hgl => ⟨gl, hgl, sel_lt_length hw hc hl hgl, ?_⟩
  rw [Group.gloveWord, Lane.glove, hgl]
  rfl

/-! ### Uncertain lanes (R123) -/

theorem exceeds_iff (ute : Nat) (m v : Word) : exceeds ute m v = true ↔
    nanWord m ∨ (m &&& 0x7FFFFFFF = 0x7F800000 ∧ v &&& 0x7FFFFFFF ≠ 0) ∨
      (finiteWord m ∧ (finiteWord v → ((2 : ℝ) ^ ((ute : Int) - 128)) ^ 2 * wordVal m ^ 2 < |wordVal v|)) := by
  unfold exceeds
  obtain hm | ⟨hn, b, hm⟩ | ⟨hi, hn, hm⟩ := f32_cases m
  · have hnn : ¬ nanWord m := fun e => hm e.1
    have hni : ¬ m &&& 0x7FFFFFFF = 0x7F800000 := fun e => hm (BitVec.eq_of_toNat_eq (by
      rw [toNat_exponent, ← toNat_clear_sign, e]; rfl))
    rw [f32, decode_f32 hm]
    simp only [hnn, hni, hm, false_or, false_and, true_and]
    by_cases hv : finiteWord v
    · obtain ⟨p, hp, hpd, hpv⟩ := isVar_varW hv
      have hm0 := d_f32Mag_pos (m.toNat % 2 ^ 31)
      have hqd : 0 < (((f32Mag (m.toNat % 2 ^ 31)).mul (f32Mag (m.toNat % 2 ^ 31))).mul (Q.pow2 (2 * ((ute : Int) - 128)))).d :=
        Nat.mul_pos (Nat.mul_pos hm0 hm0) (d_pow2_pos _)
      rw [hp]
      simp only [hv, true_imp_iff]
      have hpow : (2 : ℝ) ^ (2 * ((ute : Int) - 128)) = ((2 : ℝ) ^ ((ute : Int) - 128)) ^ 2 := by
        rw [mul_comm, zpow_mul, zpow_ofNat]
      have hsub := qVal_sub hqd hpd
      rw [qVal_mul, qVal_mul, qVal_pow2, qVal_f32Mag, hpv, hpow, ← sq, sq_abs] at hsub
      rw [decide_eq_true_iff, mul_comm (_ ^ 2), ← sub_neg (b := |wordVal v|), ← hsub, ← n_neg_iff (d_sub_pos hqd hpd)]
      show (RE.rat _).sign < 0 ↔ _
      rw [sign_rat]
      split
      · next hneg => exact iff_of_true (by decide) hneg
      · next hneg => exact iff_of_false (by split <;> decide) hneg
    · have hinf : varW v = .inf := by
        unfold varW
        obtain h | ⟨-, b, h⟩ | ⟨-, -, h⟩ := f32_cases v
        · exact absurd h hv
        · rw [h]
        · rw [h]
      rw [hinf]
      simp [hv]
  · rw [hm]
    simp [hn]
  · have hnf : ¬ finiteWord m := fun e => by
      rw [f32, decode_f32 e] at hm
      cases hm
    rw [hm]
    simp only [hn, hnf, hi, false_or, false_and, or_false, true_and]
    exact nzW_iff v

theorem vDchk_mask (h : s.cx? = some c) (hok : dchkOk f = true) (hp : c.gg.pfx = []) (hv : c.vregOk false f.a.toNat = true)
    (hsr : c.sregOk f.sreg = true) (ht : ¬ tracked c) (hwd : c.g.ident.width ≤ 32) :
    GroupStep s (maskWritten c f.sreg fun l => exceeds (fmtUte c.gg.fmt) (c.src f f.a.toNat l) (gloveWord c f.a.toNat l 0) = true)
      (exec (.vDchk f) s) := by
  let hit (l : Nat) : Bool := exceeds (fmtUte c.gg.fmt) (c.src f f.a.toNat l) (c.dTotal (c.srcGlove f.a.toNat l))
  let g := c.putMask f.sreg (c.lanes.filter hit) c.g
  have hF : (do
      need (dchkOk f && c.gg.pfx.isEmpty) .illegalOperand
      need (c.vregOk false f.a.toNat && c.sregOk f.sreg) .regRange
      pure (if (c.lanes.filter hit).isEmpty then g else g.raise fUncert) : Except Tq Machine.Group) =
        .ok (if (c.lanes.filter hit).isEmpty then g else g.raise fUncert) := by
    rw [hok, hp, hv, hsr]
    rfl
  refine ⟨_, local1_next (n := vLen f) h hF, maskWritten_advance ?_⟩
  have hm : maskWritten c f.sreg (fun l => exceeds (fmtUte c.gg.fmt) (c.src f f.a.toNat l) (gloveWord c f.a.toNat l 0) = true) g := by
    refine maskWritten_putMask hwd f.sreg (fun l => ?_) (keeps_refl onlyNone c.g) rfl rfl
    have htotal : c.dTotal (c.srcGlove f.a.toNat l) = gloveWord c f.a.toNat l 0 := by
      rw [Cx.dTotal, if_neg (mt (fmtDm_eq_two c).mp ht), headD_srcGlove]
    rw [← htotal]
  split
  · exact hm
  · exact hm

end

theorem distributionValues : DistributionValues := by
  intro s c f h hw d K trk total finiteGlove whole
  refine ⟨fun hc => ?_, fun hc => vDset_sets h hc, fun hc => vDgetd_words h hc, fun hc => vDsetd_gloves h hw hc, fun hc ht => ?_,
    fun hok hp hv hsr ht hwd => ?_⟩
  · refine groupStep_mono (fun g' hg l hl hv h120 => ?_) (vDvar_words h hw hc)
    obtain ⟨h1, h2⟩ := hg l hl hv h120
    exact ⟨h1, fun ht _ hf => h2 ht hf⟩
  · refine laneGloves_mono (fun l hl gl hgl => ?_) (vDnoise_gloves h hw hc ht)
    obtain ⟨old, hold, hlt, rfl⟩ := hgl
    dsimp only
    rw [hold]
    refine ⟨fun j _ hj => (getD_set old _ hlt j).trans (if_neg hj), fun h0 => ⟨fun hn => ?_, fun hn => ?_⟩, fun h0 hf hfo => ?_⟩
    · rw [getD_set old _ hlt, if_pos rfl, noiseWord, if_neg h0, noiseSd, if_pos ((f32_isNan _).mpr hn)]; rfl
    · rw [getD_set old _ hlt, if_pos rfl, noiseWord, if_neg h0, noiseSd, if_neg (mt (f32_isNan _).mp hn)]
    · rw [getD_set old _ hlt, if_pos h0.symm, noiseWord, if_pos h0]
      exact rounds_roundUpVar (isVar_add (isVar_varW hfo) (isVar_noise hf))
  · refine groupStep_mono (fun g' hg => ?_) (vDchk_mask h hok hp hv hsr ht hwd)
    simp only [exceeds_iff] at hg
    exact hg

end Sys2Proof.Proofs.NumberFormats
end

section
namespace Sys2Proof.Proofs.NumberFormats
open Sys2Proof Sys2Proof.Machine Sys2Proof.Claims Sys2Proof.Laws Sys2Proof.Proofs.MachineState

/-! ## The variance of an arithmetic result in independent mode (R104, Table 4.3) -/

/-- A partial that is a rational. -/
def RatPart (p : Part) : Prop := ∃ g : Q, p = some (.rat g) ∧ 0 < g.d

theorem ratPart_signPart {p : Part} (h : RatPart p) (neg : Bool) : RatPart (signPart neg p) ∧ partSq (signPart neg p) = partSq p := by
  obtain ⟨g, rfl, hg⟩ := h
  cases neg with
  | false => exact ⟨⟨g, rfl, hg⟩, rfl⟩
  | true => exact ⟨⟨g.neg, rfl, hg⟩, by
      show qVal g.neg ^ 2 = qVal g ^ 2
      rw [qVal_neg, neg_sq]⟩

/-- The glove of a result in independent mode without second order and tangents. -/
theorem gloveOut_independent {k : Nat} {y : FV} {rv : VV} {p : Parts} {negs : List Bool} {flat : Bool} {gls : List (List Word)} {v : VV}
    (hy : y.isNan = false)
    (hv : sumVar ((p.g.zip negs).map fun x => signPart x.2 x.1) (gls.map fun gl => gl.getD 0 0) = some v) :
    gloveOut ⟨1, false, 0⟩ k y rv p negs flat gls = roundUpVar ((v.add rv).add .zero) :: List.replicate k 0 := by
  unfold gloveOut
  dsimp only
  rw [if_neg (by decide), hy, hv]
  simp

section
variable {s : State} {c : Cx} {f : VForm}

theorem modes_independent (hp : c.gg.pfx = []) (hdm : c.gg.fmt.extractLsb' 12 2 = 1#2) (hso : c.gg.fmt.getLsbD 14 = false)
    (hidl : c.gg.fmt.getLsbD 18 = false) : c.modes = ⟨1, false, 0⟩ := by
  have hdm : fmtDm c.gg.fmt = 1 := congrArg BitVec.toNat hdm
  unfold Cx.modes effModes
  rw [hp]
  simp only [List.any_nil, Bool.false_eq_true, if_false, momOf, dualOf, List.findSome?_nil, hdm, fmtSo, hso, fmtIdl, hidl]

/-- The element of a binary32 lane. -/
def wordEl (c : Cx) (f : VForm) (op : FOp) (l : Nat) : FEl := floatEl c f op 0 (c.rm f.rnd) (c.satOf f) l 0 0

theorem vArith_gloves {sp : VSpec} {op : FOp} (h : s.cx? = some c) (hc : c.vCheck sp f = .ok ()) (ht : c.type sp f = 0)
    (hr : c.rm f.rnd ≠ .sr) : LaneGloves s c f.d.toNat c.lanes (fun l gl => gl = c.fGlove f op 0 l (wordEl c f op l)) (vArith sp op f s) := by
  refine laneGloves_puts id (gl := fun l => c.fGlove f op 0 l (wordEl c f op l)) h (by rw [hc]; rfl) (keeps_hold_none c f)
    (fun g l => ?_) fun _ _ => rfl
  have hl : c.fLane f op (c.type sp f) (c.rm f.rnd) (c.satOf f) g l = (g.raise (0 ||| (wordEl c f op l).fl)).putT false f.d.toNat l
      (packBits 0 [wordEl c f op l]) (c.fGlove f op 0 l (wordEl c f op l)) := by
    unfold Cx.fLane
    rw [ht, fElems_of_ne_sr hr]
    rfl
  dsimp only [id]
  rw [hl]
  exact puts_putT _ _ _ _ _ (keeps_raise noReg g _ BitVec.and_allOnes).1

/-- Source i of lane l as a binary32 value. -/
def laneSrc (c : Cx) (f : VForm) (l i : Nat) : FV := srcF32 c f i ((srcCodes f).getD i 123) l
/-- Its variance word. -/
def laneVar (c : Cx) (f : VForm) (l i : Nat) : Word := gloveWord c ((srcCodes f).getD i 123) l 0

/-- The parts of an operation on its sources are rational. -/
structure RatParts (op : FOp) (rm : Rm) (v : Nat → FV) (P : Nat → Part) : Prop where
  round : op.round = stdRound
  parts : (op.parts ((List.range op.n).map v)).g = (List.range op.n).map P
  rat : ∀ i < op.n, RatPart (P i)
  val : ∃ neg q, (op.val rm ((List.range op.n).map v)).v = .fin neg (.rat q) ∧ 0 < q.d

theorem fGlove_independent {op : FOp} {l : Nat} {P : Nat → Part} (hm : c.modes = ⟨1, false, 0⟩)
    (r : RatParts op (c.rm f.rnd) (laneSrc c f l) P) (hw : ∀ i < op.n, finiteWord (laneVar c f l i)) :
    let gl := c.fGlove f op 0 l (wordEl c f op l)
    let out := (op.round .f32 (c.rm f.rnd) (c.satOf f) 0 (op.val (c.rm f.rnd) ((List.range op.n).map (laneSrc c f l))).v).2.2
    (∀ e, out = .re e → Rounds .f32 .ru false
      (((List.range op.n).map fun i => partSq (P i) * |wordVal (laneVar c f l i)|).sum + reVal e) (gl.getD 0 0).toNat) ∧
    (out = .inf → gl.getD 0 0 = 0x7F800000) ∧ ∀ j, 1 ≤ j → gl.getD j 0 = 0 := by
  intro gl out
  obtain ⟨neg, q, hval, hq⟩ := r.val
  have hsrc : ((List.range op.n).map fun i => c.fval f 0 i ((srcCodes f).getD i 123) l 0) = (List.range op.n).map (laneSrc c f l) :=
    List.map_congr_left fun i _ => fval_word c f i _ l
  have hy : (wordEl c f op l).y = .fin neg (.rat q) := by
    rw [← hval, ← hsrc]; rfl
  have hrv : (wordEl c f op l).rv = out := by
    show (op.round .f32 _ _ 0 (wordEl c f op l).y).2.2 = _
    rw [hy, ← hval]
  -- the sources and their partials, together
  have hzip : ((((List.range op.n).map P).zip ((List.range op.n).map fun i => c.negPart f 0 i ((srcCodes f).getD i 123) l)).map
        fun x => signPart x.2 x.1).zip (((List.range op.n).map fun i => c.srcGlove ((srcCodes f).getD i 123) l).map fun gl => gl.getD 0 0) =
      (List.range op.n).map fun i => (signPart (c.negPart f 0 i ((srcCodes f).getD i 123) l) (P i), laneVar c f l i) := by
    rw [List.zip_map', List.map_map, List.map_map, List.zip_map']
    exact List.map_congr_left fun i _ => Prod.ext rfl (getD_srcGlove c _ l 0)
  obtain ⟨v, hv, hvar⟩ := isVar_sumVar (gs := (((List.range op.n).map P).zip ((List.range op.n).map fun i =>
      c.negPart f 0 i ((srcCodes f).getD i 123) l)).map fun x => signPart x.2 x.1)
      (ws := ((List.range op.n).map fun i => c.srcGlove ((srcCodes f).getD i 123) l).map fun gl => gl.getD 0 0) (by
    rw [hzip]
    intro p hp
    obtain ⟨i, hi, rfl⟩ := List.mem_map.mp hp
    rw [List.mem_range] at hi
    exact ⟨(ratPart_signPart (r.rat i hi) _).1, hw i hi⟩)
  rw [hzip, List.map_map] at hvar
  have hsum : ((List.range op.n).map ((fun p : Part × Word => partSq p.1 * |wordVal p.2|) ∘ fun i =>
      (signPart (c.negPart f 0 i ((srcCodes f).getD i 123) l) (P i), laneVar c f l i))).sum =
      ((List.range op.n).map fun i => partSq (P i) * |wordVal (laneVar c f l i)|).sum :=
    congrArg List.sum (List.map_congr_left fun i hi => by
      rw [Function.comp_apply, (ratPart_signPart (r.rat i (List.mem_range.mp hi)) _).2])
  rw [hsum] at hvar
  have hgl : gl = roundUpVar ((v.add out).add .zero) :: List.replicate c.g.ident.k 0 := by
    rw [← hrv]
    show gloveOut c.modes _ _ _ _ _ _ _ = _
    rw [hm, hsrc]
    refine gloveOut_independent (by rw [hy]; rfl) ?_
    rw [r.parts]
    exact hv
  have hout : out = .inf ∨ ∃ x, IsVar out x := by
    have := isVar_roundVar (f := .f32) (by decide) (c.rm f.rnd) neg hq (Fmt.f32.roundTo (c.rm f.rnd) (c.satOf f) 0 (.fin neg (.rat q)))
    rw [← hval] at this
    have hstd : out = (stdRound .f32 (c.rm f.rnd) (c.satOf f) 0 (op.val (c.rm f.rnd) ((List.range op.n).map (laneSrc c f l))).v).2.2 := by
      rw [← r.round]
    rw [hstd]
    exact this
  rw [hgl]
  refine ⟨fun e he => ?_, fun he => ?_, fun j hj => ?_⟩
  · rcases hout with h | ⟨x, hx⟩
    · rw [h] at he; cases he
    · have hxe : x = reVal e := by
        obtain ⟨p, hp, -, rfl⟩ := hx
        rw [hp] at he
        cases he
        rfl
      have := rounds_roundUpVar (isVar_add (isVar_add hvar hx) isVar_zero)
      rw [add_zero, hxe] at this
      exact this
  · obtain ⟨p, rfl, -⟩ := hvar
    rw [he]; rfl
  · obtain ⟨i, rfl⟩ : ∃ i, j = i + 1 := ⟨j - 1, by omega⟩
    rw [List.getD_cons_succ]
    simp [List.getElem?_replicate]
    split <;> rfl

end

/-! ### The partials of sum, difference, product and fused product -/

/-- A rational as a finite value. -/
theorem ofRE_fin (z : Bool) {q : Q} (h : 0 < q.d) : ∃ neg q', FV.ofRE z (.rat q) = .fin neg (.rat q') ∧ 0 < q'.d := by
  unfold FV.ofRE
  dsimp only
  split
  · exact ⟨true, q.neg, rfl, h⟩
  · split
    · exact ⟨z, .zero, rfl, Nat.one_pos⟩
    · exact ⟨false, q, rfl, h⟩

theorem ratPart_one : RatPart oneP ∧ partSq oneP = 1 := ⟨⟨.one, rfl, Nat.one_pos⟩, by
  show qVal .one ^ 2 = 1
  rw [qVal_one, one_pow]⟩

theorem ratPart_negOne : RatPart (some (re (-1))) ∧ partSq (some (re (-1))) = 1 := ⟨⟨.ofInt (-1), rfl, Nat.one_pos⟩, by
  show qVal (.ofInt (-1)) ^ 2 = 1
  rw [qVal_ofInt]; norm_num⟩

section
variable {v w u : FV} {s s' s'' : Bool} {m m' m'' : Q} {x y z : ℝ}

theorem ratPart_finP (h : IsRat v s m x) : RatPart (finP v) ∧ partSq (finP v) = x ^ 2 := by
  have hp : finP v = some (.rat (signedQ s m)) := by
    rw [finP, if_pos (by rw [h.eq]; rfl), real_of_isRat h]
  rw [hp]
  exact ⟨⟨_, rfl, d_signedQ h⟩, congrArg (· ^ 2) (qVal_signedQ h)⟩

theorem sumFV_fin (rm : Rm) (h : IsRat v s m x) (k : IsRat w s' m' y) : ∃ neg q, (sumFV rm [v, w]).v = .fin neg (.rat q) ∧ 0 < q.d := by
  obtain ⟨z, q, hs, hd, -⟩ := sumFV_rat rm h k
  rw [hs]
  exact ofRE_fin z hd

theorem fmaFV_fin (rm : Rm) (h : IsRat v s m x) (k : IsRat w s' m' y) (l : IsRat u s'' m'' z) :
    ∃ neg q, (fmaFV rm v w u).v = .fin neg (.rat q) ∧ 0 < q.d := by
  have hp := (mulFV_rat h k).2
  have hn : ((mulFV v w).v.isNan || u.isNan) = false := by rw [hp.eq, l.eq]; rfl
  have hf : fmaFV rm v w u = sumFV rm [(mulFV v w).v, u] := by
    simp only [fmaFV, hn, Bool.false_eq_true, if_false]
  rw [hf]
  exact sumFV_fin rm hp l

end

/-- The partials of an entry of the table at rational sources, and their squares. -/
def Squares (op : FOp) (sq : ℝ → ℝ → List ℝ) : Prop := ∀ (rm : Rm) (v : Nat → FV) (x y : ℝ) (s s' : Bool) (m m' : Q), IsRat (v 0) s m x → IsRat (v 1) s' m' y →
  (∀ i < op.n, ∃ s m z, IsRat (v i) s m z) → ∃ P, RatParts op rm v P ∧ ∀ i < op.n, partSq (P i) = (sq x y).getD i 0

theorem squares_opAdd : Squares opAdd fun _ _ => [1, 1] := fun rm v x y s s' m m' h k _ =>
  ⟨fun _ => oneP, ⟨rfl, rfl, fun _ _ => ratPart_one.1, sumFV_fin rm h k⟩, fun i hi => by
    have hi : i < 2 := hi
    rw [ratPart_one.2]
    interval_cases i <;> rfl⟩

theorem squares_opSub : Squares opSub fun _ _ => [1, 1] := fun rm v x y s s' m m' h k _ => by
  refine ⟨fun i => if i = 0 then oneP else some (re (-1)), ⟨rfl, rfl, fun i _ => ?_, sumFV_fin rm h (isRat_neg k)⟩, fun i hi => ?_⟩
  · split
    · exact ratPart_one.1
    · exact ratPart_negOne.1
  · have hi : i < 2 := hi
    interval_cases i
    · exact ratPart_one.2
    · exact ratPart_negOne.2

theorem squares_opMul : Squares opMul fun x y => [y ^ 2, x ^ 2] := fun rm v x y s s' m m' h k _ => by
  refine ⟨fun i => if i = 0 then finP (v 1) else finP (v 0), ⟨rfl, rfl, fun i _ => ?_,
    ⟨_, _, congrArg FR.v (mulFV_rat h k).1, Nat.mul_pos h.den k.den⟩⟩, fun i hi => ?_⟩
  · split
    · exact (ratPart_finP k).1
    · exact (ratPart_finP h).1
  · have hi : i < 2 := hi
    interval_cases i
    · exact (ratPart_finP k).2
    · exact (ratPart_finP h).2

theorem squares_opFma : Squares opFma fun x y => [y ^ 2, x ^ 2, 1] := fun rm v x y s s' m m' h k hall => by
  obtain ⟨s'', m'', z, l⟩ := hall 2 (by decide)
  refine ⟨fun i => if i = 0 then finP (v 1) else if i = 1 then finP (v 0) else oneP, ⟨rfl, rfl, fun i _ => ?_, fmaFV_fin rm h k l⟩,
    fun i hi => ?_⟩
  · split
    · exact (ratPart_finP k).1
    · split
      · exact (ratPart_finP h).1
      · exact ratPart_one.1
  · have hi : i < 3 := hi
    interval_cases i
    · exact (ratPart_finP k).2
    · exact (ratPart_finP h).2
    · exact ratPart_one.2

theorem partialSquares_arith : ∀ e ∈ partialSquares, (∀ f s, exec (e.1 f) s = vArith e.2.1 e.2.2.1 f s) ∧ Squares e.2.2.1 e.2.2.2 := by
  simp only [partialSquares, List.forall_mem_cons, List.not_mem_nil, false_imp_iff, implies_true, and_true]
  exact ⟨⟨fun _ _ => rfl, squares_opAdd⟩, ⟨fun _ _ => rfl, squares_opSub⟩, ⟨fun _ _ => rfl, squares_opMul⟩, fun _ _ => rfl, squares_opFma⟩

/-- A source that stands for a real is a rational. -/
theorem isRat_srcF32 {c : Cx} {f : VForm} {i code l : Nat} {x : ℝ} (h : fvReal (srcF32 c f i code l) = some x) :
    ∃ s m, IsRat (srcF32 c f i code l) s m x := by
  rw [← decode_srcWord32] at h ⊢
  generalize srcWord32 c f i code l = w at h ⊢
  obtain hw | ⟨-, b, hb⟩ | ⟨-, -, hb⟩ := f32_cases w
  · have hr := isRat_word hw
    rw [fvReal_of_isRat hr] at h
    cases h
    exact ⟨_, _, hr⟩
  · rw [show Fmt.f32.decode w.toNat = .nan b from hb] at h; cases h
  · rw [show Fmt.f32.decode w.toNat = .inf _ from hb] at h; cases h

/-- Settles O12: the parts of the statement in turn. -/
theorem dclrClearsGlove : Obligations.DclrClearsGlove := by
  refine ⟨roundVarRule, fun s c f h hc => vDclr_clears h hc,
    fun s c f h => ⟨clearTable_clears h, vSetlane_clears h, copyGloves_copy h⟩, ?_, distributionValues⟩
  intro s c f h hp hdm hso hidl e he hc ht hr
  obtain ⟨hexec, hsq⟩ := partialSquares_arith e he
  rw [hexec]
  refine laneGloves_mono (fun l hl gl hgl => ?_) (vArith_gloves h hc ht hr)
  subst hgl
  intro codes src x y hx hy hall hfin rm out
  obtain ⟨s0, m0, h0⟩ := isRat_srcF32 hx
  obtain ⟨s1, m1, h1⟩ := isRat_srcF32 hy
  obtain ⟨P, hP, hv⟩ := hsq rm (laneSrc c f l) x y s0 s1 m0 m1 h0 h1 fun i hi => by
    obtain ⟨z, hz⟩ := Option.isSome_iff_exists.mp (hall i hi)
    obtain ⟨s', m', h'⟩ := isRat_srcF32 hz
    exact ⟨s', m', z, h'⟩
  have key := fGlove_independent (modes_independent hp hdm hso hidl) hP hfin
  have hsum : ((List.range e.2.2.1.n).map fun i => partSq (P i) * |wordVal (laneVar c f l i)|) =
      (List.range e.2.2.1.n).map fun i => (e.2.2.2 x y).getD i 0 * |wordVal (gloveWord c (codes.getD i 123) l 0)| :=
    List.map_congr_left fun i hi => by rw [hv i (List.mem_range.mp hi)]; rfl
  rw [hsum] at key
  exact key

end Sys2Proof.Proofs.NumberFormats
end

section
namespace Sys2Proof.Proofs.NumberFormats
open Sys2Proof Sys2Proof.Machine Sys2Proof.Claims Sys2Proof.Laws Sys2Proof.Proofs.MachineState

/-! ## Decoded elements as rationals (R11, R50) -/

theorem decode_cases {f : Fmt} (hf : f ≠ .lns6) (w : Nat) :
    (∃ b, f.decode w = .nan b) ∨ (∃ s, f.decode w = .inf s) ∨ ∃ s c, f.decode w = .fin s (f.mag c) := by
  unfold Fmt.decode
  dsimp only
  split
  · exact absurd rfl hf
  · split
    · exact .inl ⟨_, rfl⟩
    · exact .inr (.inr ⟨_, _, rfl⟩)
  · split_ifs
    · exact .inr (.inr ⟨_, _, rfl⟩)
    · exact .inr (.inl ⟨_, rfl⟩)
    · exact .inl ⟨_, rfl⟩
    · exact .inl ⟨_, rfl⟩

theorem qVal_gridQ_nonneg (f : Fmt) (c : Nat) : 0 ≤ qVal (gridQ f c) := by
  unfold gridQ
  split <;> rw [qVal_shl, qVal_ofInt] <;> positivity

/-- An element that stands for a real is a rational. -/
theorem isRat_decode {f : Fmt} (hf : f ≠ .lns6) {w : Nat} {x : ℝ} (h : fvReal (f.decode w) = some x) :
    ∃ s m, IsRat (f.decode w) s m x := by
  obtain ⟨b, e⟩ | ⟨s, e⟩ | ⟨s, c, e⟩ := decode_cases hf w
  · rw [e] at h; cases h
  · rw [e] at h; cases h
  · rw [e, mag_eq_gridQ hf] at h ⊢
    exact ⟨s, gridQ f c, rfl, d_gridQ_pos f c, qVal_gridQ_nonneg f c, (Option.some.inj h).symm⟩

theorem e8m0_of_lt {c : Nat} (h : c < 255) : e8m0 c = some (Q.pow2 ((c : Int) - 127)) := if_neg (by omega)

theorem isRat_scaled {f : Fmt} (hf : f ≠ .lns6) {a sa : Nat} {x : ℝ} (hs : sa < 255) (h : fvReal (f.decode a) = some x) :
    ∃ s m, IsRat (scaled f a sa) s m (x * (2 : ℝ) ^ ((sa : ℤ) - 127)) := by
  obtain ⟨s, m, hr⟩ := isRat_decode hf h
  have hpow : (0 : ℝ) < (2 : ℝ) ^ ((sa : ℤ) - 127) := zpow_pos two_pos _
  have he : scaled f a sa = .fin s (.rat (m.mul (Q.pow2 ((sa : ℤ) - 127)))) := by
    unfold scaled
    rw [e8m0_of_lt hs, hr.eq]
    rfl
  refine ⟨s, _, he, Nat.mul_pos hr.den (d_pow2_pos _), ?_, ?_⟩
  · rw [qVal_mul, qVal_pow2]; exact mul_nonneg hr.nonneg hpow.le
  · rw [qVal_mul, qVal_pow2, hr.val]
    cases s <;> simp

/-! ## Products of elements (R52, R61, R242) -/

theorem mxProd_exact {fa fb : Fmt} {a b sa sb : Nat} {x y : ℝ} (ha : fa ≠ .lns6) (hb : fb ≠ .lns6) (hsa : sa < 255) (hsb : sb < 255)
    (hx : fvReal (fa.decode a) = some x) (hy : fvReal (fb.decode b) = some y) :
    let p := mxProd fa fb (a, sa) (b, sb)
    p.fl = 0 ∧ ratFin p.v ∧ fvReal p.v = some (x * (2 : ℝ) ^ ((sa : ℤ) - 127) * (y * (2 : ℝ) ^ ((sb : ℤ) - 127))) := by
  obtain ⟨s, m, h⟩ := isRat_scaled ha hsa hx
  obtain ⟨s', m', k⟩ := isRat_scaled hb hsb hy
  obtain ⟨he, hr⟩ := mulFV_rat h k
  have hp : mxProd fa fb (a, sa) (b, sb) = mulFV (scaled fa a sa) (scaled fb b sb) := if_neg ha
  rw [hp]
  exact ⟨congrArg FR.fl he, ⟨_, _, hr.eq, hr.den⟩, fvReal_of_isRat hr⟩

theorem lnsT_real {f : Nat} (h : f < 4) : 0 < (lnsT f).d ∧ qVal (lnsT f) = lnsConst f := by
  interval_cases f
  · exact ⟨Nat.one_pos, qVal_one⟩
  all_goals exact ⟨by decide, by norm_num [qVal, lnsT, lnsConst]⟩

/-- A product of LNS6 magnitudes through the constants T. -/
theorem lnsPow_real (l : Nat) : 0 < (lnsPow ((l : Nat) - 32)).d ∧
    qVal (lnsPow ((l : Nat) - 32)) = lnsConst (l % 4) * (2 : ℝ) ^ ((l / 4 : ℕ) - 8 : ℤ) := by
  have hmod : (((l : Int) - 32) % 4).toNat = l % 4 := by omega
  have hdiv : ((l : Int) - 32) / 4 = (l / 4 : ℕ) - 8 := by omega
  obtain ⟨hd, hv⟩ := lnsT_real (Nat.mod_lt l (by decide : 4 > 0))
  unfold lnsPow
  rw [hmod, hdiv]
  exact ⟨d_shl_pos hd _, by rw [qVal_shl, hv]⟩

theorem mxProd_lns {a b sa sb : Nat} (hsa : sa < 255) (hsb : sb < 255) (ha : a % 32 ≠ 0) (hb : b % 32 ≠ 0) :
    let p := mxProd .lns6 .lns6 (a, sa) (b, sb)
    let l := a % 32 + b % 32
    p.fl = 0 ∧ ratFin p.v ∧ fvReal p.v = some ((if a.testBit 5 != b.testBit 5 then -1 else 1) * lnsConst (l % 4) *
      (2 : ℝ) ^ ((l / 4 : ℕ) - 8 : ℤ) * (2 : ℝ) ^ ((sa : ℤ) - 127) * (2 : ℝ) ^ ((sb : ℤ) - 127)) := by
  intro p l
  obtain ⟨hd, hv⟩ := lnsPow_real l
  have hp : p = ⟨.fin (a.testBit 5 != b.testBit 5)
      (.rat (((lnsPow ((l : Nat) - 32)).mul (Q.pow2 ((sa : Int) - 127))).mul (Q.pow2 ((sb : Int) - 127)))), 0⟩ := by
    unfold p mxProd
    rw [if_pos rfl, e8m0_of_lt hsa, e8m0_of_lt hsb]
    simp only [ha, hb, false_and, or_self, if_false]
    rfl
  rw [hp]
  refine ⟨rfl, ⟨_, _, rfl, Nat.mul_pos (Nat.mul_pos hd (d_pow2_pos _)) (d_pow2_pos _)⟩, ?_⟩
  simp only [fvReal, reVal_rat, qVal_mul, qVal_pow2, hv]
  congr 1
  split <;> ring

/-- The constants T are the powers rounded upward (R52). -/
theorem lnsConst_bounds {f : ℕ} (h : f < 4) :
    (2 : ℝ) ^ ((f : ℝ) / 4) ≤ lnsConst f ∧ lnsConst f < (2 : ℝ) ^ ((f : ℝ) / 4) + (2 : ℝ) ^ (-23 : ℤ) := by
  have hpos : (0 : ℝ) ≤ (2 : ℝ) ^ ((f : ℝ) / 4) := Real.rpow_nonneg two_pos.le _
  have hpow : ((2 : ℝ) ^ ((f : ℝ) / 4)) ^ 4 = 2 ^ f := by
    rw [← Real.rpow_natCast, ← Real.rpow_mul two_pos.le, ← Real.rpow_natCast]
    congr 1
    push_cast
    ring
  have bracket {c : ℝ} (h0 : 0 ≤ c) (hlo : (2 : ℝ) ^ f ≤ c ^ 4) (hhi : (c - 2 ^ (-23 : ℤ)) ^ 4 < 2 ^ f) :
      (2 : ℝ) ^ ((f : ℝ) / 4) ≤ c ∧ c < (2 : ℝ) ^ ((f : ℝ) / 4) + 2 ^ (-23 : ℤ) :=
    ⟨le_of_pow_le_pow_left₀ four_ne_zero h0 (hpow ▸ hlo), sub_lt_iff_lt_add.mp (lt_of_pow_lt_pow_left₀ 4 hpos (hpow ▸ hhi))⟩
  interval_cases f
  all_goals exact bracket (by norm_num [lnsConst]) (by norm_num [lnsConst]) (by norm_num [lnsConst])

theorem isNan_mulFV {v w : FV} (h : v.isNan = true ∨ w.isNan = true) : (mulFV v w).v.isNan = true := by
  unfold mulFV
  dsimp only
  split_ifs with h1 h2
  · rfl
  · rfl
  · exact absurd (by simpa using h) h2
  · exact absurd (by simpa using h) h2

theorem mxProd_nan {fa fb : Fmt} {a b sa sb : Nat} (h : sa = 255 ∨ sb = 255) : (mxProd fa fb (a, sa) (b, sb)).v.isNan = true := by
  have hscale {f : Fmt} {c : Nat} : (scaled f c 255).isNan = true := rfl
  unfold mxProd
  split
  · obtain rfl | rfl := h
    · rfl
    · cases e8m0 sa <;> rfl
  · refine isNan_mulFV ?_
    obtain rfl | rfl := h
    · exact .inl hscale
    · exact .inr hscale

/-! ## The sum of an element (R242) -/

theorem any_isNan_of_ratFin {us : List FV} (h : ∀ u ∈ us, ratFin u) : us.any FV.isNan = false ∧ us.any (fun u => u.isInf && u.sign) = false ∧
    us.find? FV.isInf = none := by
  refine ⟨List.any_eq_false.mpr fun u hu => ?_, List.any_eq_false.mpr fun u hu => ?_, List.find?_eq_none.mpr fun u hu => ?_⟩
  all_goals
    obtain ⟨n, q, rfl, -⟩ := h u hu
    exact Bool.false_ne_true

/-- A finite rational as its signed rational. -/
theorem real_of_ratFin {u : FV} (h : ratFin u) : ∃ q, u.real = .rat q ∧ 0 < q.d ∧ fvReal u = some (qVal q) := by
  obtain ⟨n, q, rfl, hq⟩ := h
  cases n with
  | false => exact ⟨q, rfl, hq, rfl⟩
  | true => exact ⟨q.neg, rfl, hq, by rw [qVal_neg]; rfl⟩

theorem sum_ratFin {us : List FV} (h : ∀ u ∈ us, ratFin u) :
    ∃ q, RE.sum (us.map FV.real) = .rat q ∧ 0 < q.d ∧ qVal q = (us.map fun u => (fvReal u).getD 0).sum := by
  suffices H : ∀ p : Q, 0 < p.d → ∃ q, (us.map FV.real).foldl RE.plus (.rat p) = .rat q ∧ 0 < q.d ∧
      qVal q = qVal p + (us.map fun u => (fvReal u).getD 0).sum by
    obtain ⟨q, he, hd, hv⟩ := H .zero Nat.one_pos
    exact ⟨q, he, hd, by rw [hv, show qVal .zero = 0 from reVal_zero, zero_add]⟩
  induction us with
  | nil => exact fun p hp => ⟨p, rfl, hp, by simp⟩
  | cons u us ih =>
    intro p hp
    obtain ⟨r, hr, hd, hv⟩ := real_of_ratFin (h u List.mem_cons_self)
    obtain ⟨q, he, hq, hqv⟩ := ih (fun v hv => h v (List.mem_cons_of_mem _ hv)) (p.add r) (d_add_pos hp hd)
    refine ⟨q, ?_, hq, ?_⟩
    · rw [List.map_cons, List.foldl_cons, hr]; exact he
    · rw [hqv, qVal_add hp hd, List.map_cons, List.sum_cons, hv, Option.getD_some, add_assoc]

theorem sumFV_ratFin (rm : Rm) {us : List FV} (h : ∀ u ∈ us, ratFin u) :
    ∃ z q, sumFV rm us = ⟨FV.ofRE z (.rat q), 0⟩ ∧ 0 < q.d ∧ qVal q = (us.map fun u => (fvReal u).getD 0).sum := by
  obtain ⟨hn, hi, hf⟩ := any_isNan_of_ratFin h
  obtain ⟨q, hs, hd, hv⟩ := sum_ratFin h
  refine ⟨zeroSign rm us, q, ?_, hd, hv⟩
  unfold sumFV
  rw [hn, hi, hf, hs]
  rfl

theorem mxRound_rounds (f : Fmt) {c : FV} {ps : List FR} (tw : Word) (v : VV) (h : ∀ u ∈ c :: ps.map (·.v), ratFin u) :
    Rounds f .rne false (((c :: ps.map (·.v)).map fun u => (fvReal u).getD 0).sum) (mxRound f c ps tw v).bits := by
  obtain ⟨z, q, hs, hd, hv⟩ := sumFV_ratFin .rne h
  refine ⟨FV.ofRE z (.rat q), .inr ⟨z, .rat q, hd, hv, rfl⟩, ?_⟩
  show (f.roundTo .rne false 0 (sumFV .rne (c :: ps.map (·.v))).v).bits = _
  rw [hs]

theorem mxRound_nan {c : FV} {ps : List FR} (tw : Word) (v : VV) (h : ∃ p ∈ ps, p.v.isNan = true) :
    (mxRound .f32 c ps tw v).bits = 0x7FC00000 ∧ (mxRound .f32 c ps tw v).twin = 0x7F800000 := by
  obtain ⟨p, hp, hn⟩ := h
  have hany : (c :: ps.map (·.v)).any FV.isNan = true :=
    List.any_eq_true.mpr ⟨p.v, List.mem_cons_of_mem _ (List.mem_map_of_mem hp), hn⟩
  have hs : ∃ sig, (sumFV .rne (c :: ps.map (·.v))).v = .nan sig := by
    unfold sumFV
    rw [if_pos hany]
    exact ⟨_, rfl⟩
  obtain ⟨sig, hs⟩ := hs
  unfold mxRound
  dsimp only
  rw [hs]
  exact ⟨rfl, rfl⟩

theorem exactMatrix : ExactMatrix :=
  ⟨fun _ _ _ _ _ _ _ _ ha hb hsa hsb hx hy => mxProd_exact ha hb hsa hsb hx hy, fun _ _ _ _ hsa hsb ha hb => mxProd_lns hsa hsb ha hb,
    fun _ h => lnsConst_bounds h, fun _ _ _ _ _ _ h => mxProd_nan h, fun f _ _ tw v h => mxRound_rounds f tw v h,
    fun _ _ tw v h => mxRound_nan tw v h⟩

end Sys2Proof.Proofs.NumberFormats
end

section
namespace Sys2Proof.Proofs.NumberFormats
open Sys2Proof Sys2Proof.Machine Sys2Proof.Claims Sys2Proof.Laws Sys2Proof.Proofs.MachineState

/-! ## Streams of words bit by bit (R184) -/

theorem testBit_streamNat (ws : List Word) (k : Nat) : (streamNat ws).testBit k = (ws.getD (k / 32) 0).getLsbD (k % 32) := by
  induction ws generalizing k with
  | nil => simp [streamNat]
  | cons w ws ih =>
    rw [streamNat, Nat.add_comm, Nat.testBit_two_pow_mul_add _ w.isLt]
    split
    · next h => rw [Nat.div_eq_of_lt h, Nat.mod_eq_of_lt h]; rfl
    · next h =>
      obtain ⟨j, rfl⟩ : ∃ j, k = j + 32 := ⟨k - 32, by omega⟩
      rw [Nat.add_sub_cancel, ih, Nat.add_div_right _ (by decide), Nat.add_mod_right]
      rfl

theorem sum_bits (N n : Nat) : ((List.range n).map fun b => if N.testBit b then 2 ^ b else 0).sum = N % 2 ^ n := by
  induction n with
  | zero => simp [Nat.mod_one]
  | succ n ih =>
    rw [List.range_succ, List.map_append, List.sum_append, ih, Nat.mod_pow_succ, ← Nat.toNat_testBit]
    cases h : N.testBit n <;> simp [h]

/-- A field of a number is the bits of a stream where the bits agree. -/
theorem nbits_eq_bitsAt {N lo n : Nat} {word : Nat → Word}
    (h : ∀ b < n, N.testBit (lo + b) = (word ((lo + b) / 32)).getLsbD ((lo + b) % 32)) : nbits N lo n = bitsAt word lo n := by
  have e : nbits N lo n = (N >>> lo) % 2 ^ n := by rw [Nat.shiftRight_eq_div_pow]; rfl
  rw [e, ← sum_bits, bitsAt]
  refine congrArg List.sum (List.map_congr_left fun b hb => ?_)
  rw [Nat.testBit_shiftRight, h b (List.mem_range.mp hb)]

/-- A field of a row's words (R238). -/
theorem nbits_rowWords (o : CrewOp) (base : DWord) (pitch swz i : Nat) {bytes lo n : Nat} (h : lo + n ≤ 32 * (bytes / 4)) :
    nbits (streamNat (o.rowWords base pitch swz i bytes)) lo n = bitsAt (rowWord o base pitch swz i) lo n := by
  refine nbits_eq_bitsAt fun b hb => ?_
  have hw : (lo + b) / 32 < bytes / 4 := by omega
  rw [testBit_streamNat, CrewOp.rowWords, List.getD_eq_getElem _ _ (by simpa using hw), List.getElem_map, List.getElem_range]
  rfl

theorem getD_flatMap_pair (rs : List (List Word)) (a b w : Nat) :
    (rs.flatMap fun r => [r.getD a 0, r.getD b 0]).getD w 0 = (rs.getD (w / 2) []).getD (if w % 2 = 0 then a else b) 0 := by
  induction rs generalizing w with
  | nil => simp
  | cons r rs ih =>
    match w with
    | 0 => rfl
    | 1 => rfl
    | w + 2 =>
      have e := ih w
      rw [show (w + 2) / 2 = w / 2 + 1 by omega, show (w + 2) % 2 = w % 2 by omega]
      exact e

/-- A field of the registers of a column (R238). -/
theorem nbits_colStream (regs : List (List (List Word))) (j lo n : Nat) : nbits (colStream regs j) lo n = matB regs j lo n := by
  refine nbits_eq_bitsAt fun b _ => ?_
  unfold colStream
  rw [testBit_streamNat, getD_flatMap_pair]
  congr 2
  obtain h | h : (lo + b) / 32 % 2 = 0 ∨ (lo + b) / 32 % 2 = 1 := by omega
  · rw [if_pos h, h, Nat.mul_zero, Nat.zero_add]
  · rw [if_neg (by omega), h]

/-! ## Scales (R63, R239) -/

theorem scale_eq (o : CrewOp) (base : DWord) (r b : Nat) : o.scale base r b =
    ((o.word (base + BitVec.ofNat 64 (r / 32 * 128 + r % 32 % 8 * 16 + r % 32 / 8 * 4))).extractLsb' (8 * b) 8).toNat := by
  have e : tileWord base r = base + BitVec.ofNat 64 (r / 32 * 128 + r % 32 % 8 * 16 + r % 32 / 8 * 4) := by
    unfold tileWord tileOffset
    rw [Nat.add_zero, ← Nat.add_assoc]
    rfl
  rw [CrewOp.scale, e, BitVec.extractLsb'_toNat, Nat.shiftRight_eq_div_pow]
  rfl

theorem matScale_eq (o : CrewOp) (x : MxForm) (base : DWord) (r k : Nat) :
    matScale o x base r k = if x.scaled = 1 then o.scale base r (x.bc.toNat + k / 32) else 127 := by
  rw [matScale, scale_eq]

end Sys2Proof.Proofs.NumberFormats
end

section
namespace Sys2Proof.Proofs.NumberFormats
open Sys2Proof Sys2Proof.Machine Sys2Proof.Claims Sys2Proof.Laws Sys2Proof.Proofs.MachineState

/-! ## Shapes of the arithmetic operations (Table 8.2) -/

theorem shape_of_mxOk {complex dist : Bool} {sets : List (List Nat)} {x : MxForm} (h : mxOk complex sets dist x = true) :
    mxPair x.fa.toNat x.fb.toNat sets = true ∧ ∃ sh : MxShape, mxShapeOf complex x = sh ∧
      mxShape complex x.fa.toNat = some (sh.nb, sh.k, sh.row) := by
  unfold mxOk at h
  dsimp only at h
  cases hs : mxShape complex x.fa.toNat with
  | none => rw [hs] at h; simp at h
  | some sh =>
    rw [hs] at h
    simp only [Bool.and_eq_true] at h
    refine ⟨h.1.1.1.1.2, ⟨sh.1, sh.2.1, sh.2.2⟩, ?_, rfl⟩
    unfold mxShapeOf
    rw [hs]

/-- A row of A holds K elements. -/
theorem row_of_mxShape {complex : Bool} {f nb k row : Nat} (h : mxShape complex f = some (nb, k, row)) :
    nb * k = 32 * (row / 4) := by
  unfold mxShape at h
  split at h <;> cases h <;> rfl

theorem matShape_of_mxShape {f nb k row : Nat} (h : mxShape false f = some (nb, k, row)) : matShape f = (nb, k) := by
  unfold mxShape at h
  split at h <;> cases h
  any_goals rfl
  all_goals contradiction

/-- What an operation's shape says of its element streams. -/
structure Shaped (sh : MxShape) (nb K : Nat) : Prop where
  eqNb : sh.nb = nb
  eqK : sh.k = K
  row : nb * K = 32 * (sh.row / 4)

theorem shaped_of_mxOk {dist : Bool} {sets : List (List Nat)} {x : MxForm} (h : mxOk false sets dist x = true) :
    Shaped (mxShapeOf false x) (matShape x.fa.toNat).1 (matShape x.fa.toNat).2 := by
  obtain ⟨-, sh, he, hs⟩ := shape_of_mxOk h
  rw [he, matShape_of_mxShape hs]
  exact ⟨rfl, rfl, row_of_mxShape hs⟩

/-! ## Elements of the operands (R238, R239) -/

section
variable (o : CrewOp) (x : MxForm) {sh : MxShape} {nb K : Nat}

theorem tilesA_eq : aTiles o.vals = tilesA o := rfl
theorem tilesB_eq : bTiles o.vals = tilesB o := rfl

/-- n bits from `at'` on of element k of row i of A. -/
theorem aElem_eq (hs : Shaped sh nb K) {i k n at' : Nat} (hk : k < K) (hn : at' + n ≤ nb) :
    o.aElem x sh (streamNat (o.rowWords (o.vals.getD 0 0) x.pitch.toNat x.swz.toNat i sh.row)) i k n at' =
      (matA o x (o.vals.getD 0 0) i (nb * k + at') n, matScale o x (tilesA o) i k) := by
  have hb : nb * k + at' + n ≤ 32 * (sh.row / 4) := by
    rw [← hs.row]
    calc nb * k + at' + n ≤ nb * (k + 1) := by rw [Nat.mul_succ]; omega
      _ ≤ nb * K := Nat.mul_le_mul_left nb hk
  rw [CrewOp.aElem, hs.eqNb, nbits_rowWords o _ _ _ _ hb, matScale_eq, tilesA_eq]
  rfl

theorem bElem_eq (hs : Shaped sh nb K) (j k n at' : Nat) :
    o.bElem x sh j k n at' = (matB o.bregs j (nb * k + at') n, matScale o x (tilesB o) j k) := by
  rw [CrewOp.bElem, hs.eqNb, nbits_colStream, matScale_eq, tilesB_eq]

/-- A product of parts of elements. -/
theorem mxProd_eq (hs : Shaped sh nb K) {i k n p q : Nat} (j : Nat) (hk : k < K) (hn : p + n ≤ nb) :
    mxProd (Fmt.ofMx x.fa.toNat) (Fmt.ofMx x.fb.toNat)
      (o.aElem x sh (streamNat (o.rowWords (o.vals.getD 0 0) x.pitch.toNat x.swz.toNat i sh.row)) i k n p) (o.bElem x sh j k n q) =
      matProd o x n nb i j k p q := by
  rw [aElem_eq o x hs hk hn, bElem_eq o x hs]
  rfl

/-- The products of a row and a column. -/
theorem mxProds_eq (hs : Shaped sh nb K) (i j : Nat) : ((List.range sh.k).map fun k => mxProd (Fmt.ofMx x.fa.toNat) (Fmt.ofMx x.fb.toNat)
      (o.aElem x sh (streamNat (o.rowWords (o.vals.getD 0 0) x.pitch.toNat x.swz.toNat i sh.row)) i k sh.nb 0) (o.bElem x sh j k sh.nb 0)) =
      (List.range K).map fun k => matProd o x nb nb i j k 0 0 := by
  rw [hs.eqK, hs.eqNb]
  exact List.map_congr_left fun k hk => mxProd_eq o x hs j (List.mem_range.mp hk) (by omega)

/-- The scales that set SCALENAN (R246). -/
theorem getLsbD_scaleNan (hs : Shaped sh nb K) (m b : Nat) :
    (o.scaleNan x sh m o.members.length).getLsbD b = true ↔ scaleNanMet o x m K b := by
  have hcol (p : Nat → Bool) : ((List.range (sh.k / 32)).map (x.bc.toNat + ·)).any p = true ↔
      ∃ k < K, k % 32 = 0 ∧ k + 32 ≤ K ∧ p (x.bc.toNat + k / 32) = true := by
    rw [hs.eqK, List.any_map, List.any_eq_true]
    constructor
    · rintro ⟨q, hq, h⟩
      rw [List.mem_range] at hq
      exact ⟨32 * q, by omega, by omega, by omega, by rw [Nat.mul_div_cancel_left q (by decide)]; exact h⟩
    · rintro ⟨k, h1, h2, h3, h⟩
      exact ⟨k / 32, List.mem_range.mpr (by omega), h⟩
  have hbit (b : Nat) : fScaleNan.getLsbD b = true ↔ b = 8 := by
    by_cases hb : b < 32
    · revert b; decide
    · rw [BitVec.getLsbD_of_ge _ _ (by omega)]
      exact iff_of_false Bool.false_ne_true (by omega)
  unfold CrewOp.scaleNan scaleNanMet
  dsimp only
  split
  · next h =>
    simp only [Bool.and_eq_true, beq_iff_eq, decide_eq_true_eq, Bool.or_eq_true, List.any_eq_true (l := List.range _), List.mem_range, hcol] at h
    obtain ⟨h1, h2⟩ := h
    have hmet : ∃ k < K, k % 32 = 0 ∧ k + 32 ≤ K ∧ ((∃ r < 16, o.scale (aTiles o.vals) (16 * m + r) (x.bc.toNat + k / 32) = 255) ∨
        ∃ j < 16 * o.members.length, o.scale (bTiles o.vals) j (x.bc.toNat + k / 32) = 255) := by
      rcases h2 with ⟨r, hr, k, a1, a2, a3, a4⟩ | ⟨j, hj, k, a1, a2, a3, a4⟩
      · exact ⟨k, a1, a2, a3, .inl ⟨r, hr, a4⟩⟩
      · exact ⟨k, a1, a2, a3, .inr ⟨j, hj, a4⟩⟩
    simp only [matScale_eq, if_pos h1]
    exact (hbit b).trans (iff_self_and.mpr fun _ => ⟨h1, hmet⟩)
  · next h =>
    refine iff_of_false (by simp) ?_
    rintro ⟨-, h1, k, a1, a2, a3, a4⟩
    simp only [matScale_eq, if_pos h1] at a4
    refine h ?_
    simp only [Bool.and_eq_true, beq_iff_eq, decide_eq_true_eq, Bool.or_eq_true, List.any_eq_true (l := List.range _), List.mem_range, hcol]
    refine ⟨h1, ?_⟩
    rcases a4 with ⟨r, hr, e⟩ | ⟨j, hj, e⟩
    · exact .inl ⟨r, hr, k, a1, a2, a3, e⟩
    · exact .inr ⟨j, hj, k, a1, a2, a3, e⟩

end

end Sys2Proof.Proofs.NumberFormats
end

section
namespace Sys2Proof.Proofs.NumberFormats
open Sys2Proof Sys2Proof.Machine Sys2Proof.Claims Sys2Proof.Laws Sys2Proof.Proofs.MachineState

/-! ## Flags of a fold -/

/-- A bit of the flags that a fold gathers. -/
theorem getLsbD_foldl_or {α : Type} (w : α → Word) (xs : List α) (a : Word) (b : Nat) :
    (xs.foldl (fun f x => f ||| w x) a).getLsbD b = true ↔ a.getLsbD b = true ∨ ∃ x ∈ xs, (w x).getLsbD b = true := by
  induction xs generalizing a with
  | nil => simp
  | cons x xs ih =>
    rw [List.foldl_cons, ih, BitVec.getLsbD_or, Bool.or_eq_true, or_assoc]
    simp

/-- A flag of one bit. -/
theorem getLsbD_flag {w : Word} {i : Nat} (hi : i < 32) (h : ∀ b < 32, w.getLsbD b = true ↔ b = i) (b : Nat) : w.getLsbD b = true ↔ b = i := by
  by_cases hb : b < 32
  · exact h b hb
  · rw [BitVec.getLsbD_of_ge _ _ (by omega)]
    exact iff_of_false Bool.false_ne_true (by omega)

/-- The flags of the outputs of a member. -/
theorem getLsbD_outs (N : Nat) (fl : Nat → Nat → Word) (b : Nat) :
    ((List.range 16).foldl (fun f r => (List.range N).foldl (fun f j => f ||| fl r j) f) 0).getLsbD b = true ↔
      ∃ r < 16, ∃ j < N, (fl r j).getLsbD b = true := by
  suffices H : ∀ (rs : List Nat) (a : Word), (rs.foldl (fun f r => (List.range N).foldl (fun f j => f ||| fl r j) f) a).getLsbD b = true ↔
      a.getLsbD b = true ∨ ∃ r ∈ rs, ∃ j < N, (fl r j).getLsbD b = true by
    rw [H]
    simp
  intro rs
  induction rs with
  | nil => intro a; simp
  | cons r rs ih =>
    intro a
    rw [List.foldl_cons, ih, getLsbD_foldl_or, or_assoc]
    simp

/-! ## Rows put into an accumulator (R242, R246, R249) -/

/-- The words w of a member's 16 rows and N columns. -/
def wordRows (N : Nat) (w : Nat → Nat → Word) : List (List Word) := (List.range 16).map fun r => (List.range N).map (w r)

theorem getD_overRow (N : Nat) (f : Nat → Word) (old : List Word) {j : Nat} (hj : j < N) :
    (overRow ((List.range N).map f) old).getD j 0 = f j := by
  rw [overRow, List.getD_append _ _ _ _ (by simpa using hj), List.getD_eq_getElem _ _ (by simpa using hj), List.getElem_map,
    List.getElem_range]

theorem getD_overRows (N : Nat) (w : Nat → Nat → Word) (old : List (List Word)) {r j : Nat} (hr : r < 16) (hro : r < old.length) (hj : j < N) :
    ((overRows (wordRows N w) old).getD r []).getD j 0 = w r j := by
  have hlen : r < (overRows (wordRows N w) old).length := by
    rw [overRows, List.length_zipWith, wordRows, List.length_map, List.length_range]
    omega
  have e : (overRows (wordRows N w) old).getD r [] = overRow ((List.range N).map (w r)) old[r] := by
    rw [List.getD_eq_getElem _ _ hlen]
    simp [overRows, wordRows]
  rw [e, getD_overRow N (w r) _ hj]

theorem getLsbD_statusMask : ∀ b < 32, statusMask.getLsbD b = true ↔ b ∈ [0, 1, 2, 4, 8] := by decide

/-- What rows of outputs leave in an accumulator, with no word met in error. -/
theorem accumulated_put {N m : Nat} {y : Nat → Nat → MxOut} {word twin : MxOut → Word} {more : Nat → Prop} {a : Acc} {rows : MxRows}
    (hc : rows.c = wordRows N fun r j => word (y r j)) (ht : rows.tw = wordRows N fun r j => twin (y r j))
    (hf : ∀ b ∈ [0, 1, 2, 4, 8], rows.fl.getLsbD b = true ↔ more b ∨ ∃ r < 16, ∃ j < N, (y r j).fl.getLsbD b = true) :
    Accumulated N y word twin more a (a.put rows m []) := by
  refine ⟨fun r hr j hj => ⟨fun h => ?_, fun h => ?_⟩, fun b hb => ?_, rfl, rfl⟩
  · show ((overRows rows.c a.c).getD r []).getD j 0 = _
    rw [hc, getD_overRows N _ _ hr h hj]
  · show ((overRows rows.tw a.tw).getD r []).getD j 0 = _
    rw [ht, getD_overRows N _ _ hr h hj]
  · show (a.status ||| (rows.fl &&& statusMask)).getLsbD b = true ↔ _
    rw [BitVec.getLsbD_or, BitVec.getLsbD_and, Bool.or_eq_true, Bool.and_eq_true, getLsbD_statusMask b hb, and_comm (a := _ = true)]
    exact or_congr_right (and_congr_right fun hm => hf b hm)

/-- The step of accumulator k of a group. -/
def AccStep (g g' : Machine.Group) (k : Nat) (P : Acc → Acc → Prop) : Prop :=
  ∀ old new, g.accs[k]? = some old → g'.accs[k]? = some new → P old new

section
variable {g : Machine.Group} {k j : Nat} {f f' : Acc → Acc} {P : Acc → Acc → Prop}

theorem accStep_modAcc (h : ∀ a, g.accs[k]? = some a → P a (f a)) : AccStep g (g.modAcc k f) k P := fun old new ho hn => by
  have e : (g.modAcc k f).accs[k]? = some (f old) := getElem?_modAt_self f ho
  rw [e] at hn
  exact Option.some.inj hn ▸ h old ho

theorem accs_modAcc_ne (h : k ≠ j) : (g.modAcc j f).accs[k]? = g.accs[k]? := getElem?_modAt_ne _ _ _ _ h

/-- The two tiles of a pair, changed one after the other. -/
theorem accStep_pair_fst (h : ∀ a, g.accs[k]? = some a → P a (f a)) : AccStep g ((g.modAcc k f).modAcc (k + 1) f') k P :=
  fun old new ho hn => accStep_modAcc h old new ho (by rwa [accs_modAcc_ne (by omega)] at hn)

theorem accStep_pair_snd (h : ∀ a, g.accs[k + 1]? = some a → P a (f' a)) : AccStep g ((g.modAcc k f).modAcc (k + 1) f') (k + 1) P :=
  fun old new ho hn => accStep_modAcc (g := g.modAcc k f) (fun a ha => h a (by rwa [accs_modAcc_ne (by omega)] at ha)) old new
    (by rwa [accs_modAcc_ne (by omega)]) hn

end

/-! ## The outputs of the arithmetic operations (R242 to R246) -/

theorem mxRowsOf_words {N : Nat} (outs : Nat → Nat → MxOut) (word : MxOut → Word) :
    let rows := mxRowsOf ((List.range 16).map fun r => (List.range N).map fun j => outs r j) word
    rows.c = (wordRows N fun r j => word (outs r j)) ∧ rows.tw = (wordRows N fun r j => (outs r j).twin) ∧
      ∀ b, rows.fl.getLsbD b = true ↔ ∃ r < 16, ∃ j < N, (outs r j).fl.getLsbD b = true := by
  refine ⟨?_, ?_, fun b => ?_⟩
  · simp [mxRowsOf, wordRows, Function.comp_def]
  · simp [mxRowsOf, wordRows, Function.comp_def]
  · rw [← getLsbD_outs N fun r j => (outs r j).fl]
    simp only [mxRowsOf, List.foldl_map]

section
variable {o : CrewOp} {x : MxForm} {sh : MxShape} {nb K m : Nat} {g : Machine.Group}

/-- Word (r, j) of the means and of the twins of an accumulator. -/
def accC (g : Machine.Group) (a r j : Nat) : Word := ((g.accs.getD a .blank).c.getD r []).getD j 0
def accTw (g : Machine.Group) (a r j : Nat) : Word := ((g.accs.getD a .blank).tw.getD r []).getD j 0

/-- The stream of row i of A. -/
def aStream (o : CrewOp) (x : MxForm) (sh : MxShape) (i : Nat) : Nat :=
  streamNat (o.rowWords (o.vals.getD 0 0) x.pitch.toNat x.swz.toNat i sh.row)

/-- The sum of R245 with its flags, for `mx.mmad` alone. -/
def varOf (o : CrewOp) (dist : Bool) (x : MxForm) (sh : MxShape) (i j : Nat) : VV × Word :=
  if dist then o.varSum x sh (aStream o x sh i) i j else (.zero, 0)

/-- Element (r, j) of a member as its operation rounds it. -/
def mmaOut (o : CrewOp) (x : MxForm) (nb K m : Nat) (g : Machine.Group) (v : Nat → Nat → VV) (r j : Nat) : MxOut :=
  mxRound .f32 (Fmt.f32.decode (accC g x.acc.toNat r j).toNat) ((List.range K).map fun k => matProd o x nb nb (16 * m + r) j k 0 0)
    (accTw g x.acc.toNat r j) (v r j)

theorem mma_accumulates {dist : Bool} {v : Nat → Nat → VV} {more : Nat → Prop} (hs : Shaped sh nb K) (he : o.errs = [])
    (hv : ∀ r j, (varOf o dist x sh (16 * m + r) j).1 = v r j)
    (hmore : ∀ b ∈ [0, 1, 2, 4, 8], (∃ r < 16, ∃ j < 16 * o.members.length, (varOf o dist x sh (16 * m + r) j).2.getLsbD b = true) ↔ more b) :
    AccStep g (o.mma dist x sh m o.members.length g) x.acc.toNat (Accumulated (16 * o.members.length) (mmaOut o x nb K m g v)
      (fun y => BitVec.ofNat 32 y.bits) (·.twin) (fun b => scaleNanMet o x m K b ∨ more b)) := by
  let out (r j : Nat) : MxOut := { mmaOut o x nb K m g v r j with
    fl := (mmaOut o x nb K m g v r j).fl ||| (varOf o dist x sh (16 * m + r) j).2 }
  have hmma : o.mma dist x sh m o.members.length g = g.modAcc x.acc.toNat fun a => a.put
      { mxRowsOf ((List.range 16).map fun r => (List.range (16 * o.members.length)).map fun j => out r j) (fun y => wd y.bits) with
        fl := (mxRowsOf ((List.range 16).map fun r => (List.range (16 * o.members.length)).map fun j => out r j) (fun y => wd y.bits)).fl |||
          o.scaleNan x sh m o.members.length } m o.errs := by
    have hout : out = fun r j =>
        let p := varOf o dist x sh (16 * m + r) j
        let u := mxRound .f32 (f32 (row2 (g.acc x.acc.toNat).c r j)) ((List.range sh.k).map fun k =>
          mxProd (Fmt.ofMx x.fa.toNat) (Fmt.ofMx x.fb.toNat) (o.aElem x sh (aStream o x sh (16 * m + r)) (16 * m + r) k sh.nb 0)
            (o.bElem x sh j k sh.nb 0)) (row2 (g.acc x.acc.toNat).tw r j) p.1
        { u with fl := u.fl ||| p.2 } := by
      funext r j
      unfold out mmaOut aStream
      rw [mxProds_eq o x hs, ← hv r j]
      rfl
    rw [hout]
    rfl
  rw [hmma, he]
  refine accStep_modAcc fun a _ => ?_
  obtain ⟨hc, ht, hf⟩ := mxRowsOf_words (N := 16 * o.members.length) out fun y => wd y.bits
  refine accumulated_put hc ht fun b hb => ?_
  rw [BitVec.getLsbD_or, Bool.or_eq_true, getLsbD_scaleNan o x hs, hf, ← hmore b hb, or_assoc, or_comm]
  refine or_congr_right ?_
  simp only [out, BitVec.getLsbD_or, Bool.or_eq_true, and_or_left, exists_or]
  exact or_comm

/-! ### The variance sum of `mx.mmad` (R245) -/

theorem foldl_pair {α β γ : Type} (f : α → γ → α) (h : β → γ → β) (ks : List γ) (a : α) (b : β) :
    ks.foldl (fun acc k => (f acc.1 k, h acc.2 k)) (a, b) = (ks.foldl f a, ks.foldl h b) := by
  induction ks generalizing a b with
  | nil => rfl
  | cons k ks ih => exact ih _ _

theorem snd_upVar (code xv : Nat) : (upVar code xv).2 = code.testBit 5 := by
  unfold upVar
  split
  · next h => exact h.symm
  · next h =>
    rw [Bool.not_eq_true] at h
    rw [h]
    split
    · rfl
    · split <;> rfl

/-- Codes of the variances of row i and column j. -/
def varA (o : CrewOp) (x : MxForm) (i k : Nat) : Nat := matA o x (((o.vals.getD 2 0).extractLsb' 0 32).zeroExtend 64) i (6 * k) 6
def varB (o : CrewOp) (j k : Nat) : Nat := matB o.vregs j (6 * k) 6
def varScaleA (o : CrewOp) : Nat := ((o.vals.getD 2 0).extractLsb' 32 8).toNat
def varScaleB (o : CrewOp) : Nat := ((o.vals.getD 2 0).extractLsb' 40 8).toNat

theorem varSum_eq (hs : Shaped sh nb K) (hrow : 6 * K ≤ 32 * (varRow K / 4)) (i j : Nat) :
    varOf o true x sh i j = (matVar o x nb K i j, (List.range K).foldl (fun w k => w |||
      (if (varA o x i k).testBit 5 || (varB o j k).testBit 5 then fInvalid else 0))
        (if varScaleA o = 255 ∨ varScaleB o = 255 then fScaleNan else 0)) := by
  have hrowA (k : Nat) (hk : k ∈ List.range K) : nbits (streamNat (o.rowWords (varBase o.vals) x.pitch.toNat x.swz.toNat i (varRow K))) (6 * k) 6 =
      varA o x i k := nbits_rowWords o _ _ _ _ (by rw [List.mem_range] at hk; omega)
  unfold varOf CrewOp.varSum matVar
  rw [if_pos rfl, hs.eqK, ← foldl_pair]
  refine List.foldl_ext _ _ _ fun acc k hk => ?_
  rw [hrowA k hk, nbits_colStream, aStream, aElem_eq o x hs (List.mem_range.mp hk) (by rw [hs.eqNb]; omega), bElem_eq o x hs, hs.eqNb,
    ← snd_upVar (varA o x i k) (varScaleA o), ← snd_upVar (varB o j k) (varScaleB o)]
  rfl

/-- The flags of the variances that an operation meets (R246). -/
theorem varFlags (hs : Shaped sh nb K) (hrow : 6 * K ≤ 32 * (varRow K / 4)) (hn : 0 < o.members.length) (b : Nat) :
    (∃ r < 16, ∃ j < 16 * o.members.length, (varOf o true x sh (16 * m + r) j).2.getLsbD b = true) ↔
      (b = 4 ∧ ∃ k < K, (∃ r < 16, (varA o x (16 * m + r) k).testBit 5 = true) ∨ ∃ j < 16 * o.members.length, (varB o j k).testBit 5 = true) ∨
      (b = 8 ∧ (varScaleA o = 255 ∨ varScaleB o = 255)) := by
  have h4 := getLsbD_flag (w := fInvalid) (i := 4) (by decide) (by decide) b
  have h8 := getLsbD_flag (w := fScaleNan) (i := 8) (by decide) (by decide) b
  have hif (p : Prop) [Decidable p] (w : Word) : (if p then w else 0).getLsbD b = true ↔ p ∧ w.getLsbD b = true := by
    split <;> simp [*]
  have hone (r j : Nat) : (varOf o true x sh (16 * m + r) j).2.getLsbD b = true ↔
      ((varScaleA o = 255 ∨ varScaleB o = 255) ∧ b = 8) ∨
        ∃ k < K, ((varA o x (16 * m + r) k).testBit 5 = true ∨ (varB o j k).testBit 5 = true) ∧ b = 4 := by
    rw [varSum_eq hs hrow, getLsbD_foldl_or]
    simp only [hif, h4, h8, List.mem_range, Bool.or_eq_true]
  simp only [hone]
  constructor
  · rintro ⟨r, hr, j, hj, ⟨h, rfl⟩ | ⟨k, hk, h | h, rfl⟩⟩
    · exact .inr ⟨rfl, h⟩
    · exact .inl ⟨rfl, k, hk, .inl ⟨r, hr, h⟩⟩
    · exact .inl ⟨rfl, k, hk, .inr ⟨j, hj, h⟩⟩
  · rintro (⟨rfl, k, hk, ⟨r, hr, h⟩ | ⟨j, hj, h⟩⟩ | ⟨rfl, h⟩)
    · exact ⟨r, hr, 0, by omega, .inr ⟨k, hk, .inl h, rfl⟩⟩
    · exact ⟨0, by omega, j, hj, .inr ⟨k, hk, .inr h, rfl⟩⟩
    · exact ⟨0, by omega, 0, by omega, .inl ⟨h, rfl⟩⟩

/-! ### Complex and binary64 operations (R243, R244) -/

/-- The elements of a part of a complex operation. -/
def mmacOut (o : CrewOp) (x : MxForm) (h K m : Nat) (g : Machine.Group) (im : Bool) (r j : Nat) : MxOut :=
  let a := x.acc.toNat + if im then 1 else 0
  mxRound .f32 (Fmt.f32.decode (accC g a r j).toNat) ((List.range K).flatMap fun k =>
    if im then [matProd o x h (2 * h) (16 * m + r) j k 0 h, matProd o x h (2 * h) (16 * m + r) j k h 0]
    else [matProd o x h (2 * h) (16 * m + r) j k 0 0, (matProd o x h (2 * h) (16 * m + r) j k h h).neg]) (accTw g a r j) .zero

theorem mmac_accumulates {h : Nat} (hs : Shaped sh (2 * h) K) (he : o.errs = []) :
    let flags (im : Bool) (b : Nat) : Prop := ∃ r < 16, ∃ j < 16 * o.members.length, (mmacOut o x h K m g im r j).fl.getLsbD b = true
    AccStep g (o.mmac x sh m o.members.length g) x.acc.toNat (Accumulated (16 * o.members.length) (mmacOut o x h K m g false)
      (fun y => BitVec.ofNat 32 y.bits) (·.twin) (flags true)) ∧
    AccStep g (o.mmac x sh m o.members.length g) (x.acc.toNat + 1) (Accumulated (16 * o.members.length) (mmacOut o x h K m g true)
      (fun y => BitVec.ofNat 32 y.bits) (·.twin) (flags false)) := by
  intro flags
  let rows (im : Bool) : MxRows := mxRowsOf ((List.range 16).map fun r => (List.range (16 * o.members.length)).map fun j =>
    mmacOut o x h K m g im r j) fun y => wd y.bits
  have hmmac : o.mmac x sh m o.members.length g =
      (g.modAcc x.acc.toNat fun a => a.put { rows false with fl := (rows false).fl ||| (rows true).fl } m o.errs).modAcc (x.acc.toNat + 1)
        fun a => a.put { rows true with fl := (rows false).fl ||| (rows true).fl } m o.errs := by
    have hout : mmacOut o x h K m g = fun im r j =>
        let a := g.acc (x.acc.toNat + if im then 1 else 0)
        let f := Fmt.ofMx x.fa.toNat
        let fb := Fmt.ofMx x.fb.toNat
        let i := 16 * m + r
        let st := streamNat (o.rowWords (o.vals.getD 0 0) x.pitch.toNat x.swz.toNat i sh.row)
        mxRound .f32 (f32 (row2 a.c r j)) ((List.range sh.k).flatMap fun k =>
          let ar := o.aElem x sh st i k (sh.nb / 2) 0
          let ai := o.aElem x sh st i k (sh.nb / 2) (sh.nb / 2)
          let br := o.bElem x sh j k (sh.nb / 2) 0
          let bi := o.bElem x sh j k (sh.nb / 2) (sh.nb / 2)
          if im then [mxProd f fb ar bi, mxProd f fb ai br] else [mxProd f fb ar br, (mxProd f fb ai bi).neg]) (row2 a.tw r j) .zero := by
      funext im r j
      have hh : sh.nb / 2 = h := by rw [hs.eqNb]; omega
      dsimp only
      rw [hh, hs.eqK]
      have hps : ((List.range K).flatMap fun k =>
          if im then [matProd o x h (2 * h) (16 * m + r) j k 0 h, matProd o x h (2 * h) (16 * m + r) j k h 0]
          else [matProd o x h (2 * h) (16 * m + r) j k 0 0, (matProd o x h (2 * h) (16 * m + r) j k h h).neg]) = _ :=
        List.flatMap_congr fun k hk => by
          have hk := List.mem_range.mp hk
          rw [← mxProd_eq o x hs j hk (by omega), ← mxProd_eq o x hs j hk (by omega), ← mxProd_eq o x hs j hk (by omega),
            ← mxProd_eq o x hs j hk (by omega)]
      unfold mmacOut
      rw [hps]
      rfl
    unfold rows
    rw [hout]
    rfl
  rw [hmmac, he]
  obtain ⟨hc, ht, hf⟩ := mxRowsOf_words (N := 16 * o.members.length) (mmacOut o x h K m g false) fun y => wd y.bits
  obtain ⟨kc, kt, kf⟩ := mxRowsOf_words (N := 16 * o.members.length) (mmacOut o x h K m g true) fun y => wd y.bits
  have hfl (b : Nat) : ((rows false).fl ||| (rows true).fl).getLsbD b = true ↔ flags false b ∨ flags true b := by
    rw [BitVec.getLsbD_or, Bool.or_eq_true]
    exact or_congr (hf b) (kf b)
  exact ⟨accStep_pair_fst fun a _ => accumulated_put hc ht fun b _ => (hfl b).trans or_comm,
    accStep_pair_snd fun a _ => accumulated_put kc kt fun b _ => hfl b⟩

/-- The elements of a binary64 operation. -/
def mma64Out (o : CrewOp) (x : MxForm) (m : Nat) (g : Machine.Group) (r j : Nat) : MxOut :=
  mxRound .f64 (Fmt.f64.decode (accC g (x.acc.toNat + 1) r j ++ accC g x.acc.toNat r j).toNat)
    ((List.range 4).map fun k => matProd o x 64 64 (16 * m + r) j k 0 0) (accTw g x.acc.toNat r j) .zero

theorem mma64_accumulates (hs : Shaped sh 64 4) (hfa : Fmt.ofMx x.fa.toNat = .f64) (hfb : Fmt.ofMx x.fb.toNat = .f64) (he : o.errs = []) :
    AccStep g (o.mma64 x sh m o.members.length g) x.acc.toNat (Accumulated (16 * o.members.length) (mma64Out o x m g)
      (fun y => BitVec.ofNat 32 y.bits) (·.twin) fun _ => False) ∧
    AccStep g (o.mma64 x sh m o.members.length g) (x.acc.toNat + 1) (Accumulated (16 * o.members.length) (mma64Out o x m g)
      (fun y => BitVec.ofNat 32 (y.bits / 2 ^ 32)) (fun _ => 0) fun _ => False) := by
  let rows (word : MxOut → Word) : MxRows := mxRowsOf ((List.range 16).map fun r => (List.range (16 * o.members.length)).map fun j =>
    mma64Out o x m g r j) word
  let hi : MxRows := { rows (fun y => wd (y.bits / 2 ^ 32)) with tw := (rows (fun y => wd (y.bits / 2 ^ 32))).tw.map fun r => r.map fun _ => 0 }
  have hmma : o.mma64 x sh m o.members.length g =
      (g.modAcc x.acc.toNat fun a => a.put (rows fun y => wd y.bits) m o.errs).modAcc (x.acc.toNat + 1) fun a => a.put hi m o.errs := by
    have hout : mma64Out o x m g = fun r j =>
        let i := 16 * m + r
        let st := streamNat (o.rowWords (o.vals.getD 0 0) x.pitch.toNat x.swz.toNat i sh.row)
        mxRound .f64 (Fmt.f64.decode (pair64 (row2 (g.acc x.acc.toNat).c r j) (row2 (g.acc (x.acc.toNat + 1)).c r j)).toNat)
          ((List.range sh.k).map fun k => mxProd .f64 .f64 (o.aElem x sh st i k 64 0) (o.bElem x sh j k 64 0))
          (row2 (g.acc x.acc.toNat).tw r j) .zero := by
      funext r j
      have hps := mxProds_eq o x hs (16 * m + r) j
      rw [hfa, hfb, hs.eqNb] at hps
      unfold mma64Out
      rw [← hps]
      rfl
    unfold hi rows
    rw [hout]
    rfl
  rw [hmma, he]
  obtain ⟨hc, ht, hf⟩ := mxRowsOf_words (N := 16 * o.members.length) (mma64Out o x m g) fun y => wd y.bits
  obtain ⟨kc, kt, kf⟩ := mxRowsOf_words (N := 16 * o.members.length) (mma64Out o x m g) fun y => wd (y.bits / 2 ^ 32)
  have hzero : hi.tw = wordRows (16 * o.members.length) fun _ _ => 0 := by
    show (rows fun y => wd (y.bits / 2 ^ 32)).tw.map _ = _
    rw [kt]
    simp [wordRows, Function.comp_def]
  exact ⟨accStep_pair_fst fun a _ => accumulated_put hc ht fun b _ => (hf b).trans (iff_of_eq (false_or _)).symm,
    accStep_pair_snd fun a _ => accumulated_put kc hzero fun b _ => (kf b).trans (iff_of_eq (false_or _)).symm⟩

end

end Sys2Proof.Proofs.NumberFormats
end

section
namespace Sys2Proof.Proofs.NumberFormats
open Sys2Proof Sys2Proof.Machine Sys2Proof.Claims Sys2Proof.Laws Sys2Proof.Proofs.MachineState

/-! ## Zeroed and loaded accumulators (R248, R249) -/

section
variable {g : Machine.Group} {k : Nat} {f : Acc → Acc}

theorem accs_modAcc_self {new : Acc} (h : (g.modAcc k f).accs[k]? = some new) : ∃ old, g.accs[k]? = some old ∧ new = f old := by
  cases ho : g.accs[k]? with
  | none =>
    have e : (g.modAcc k f).accs = g.accs := by simp only [Group.modAcc, modAt, ho]
    rw [e, ho] at h
    cases h
  | some old =>
    have e : (g.modAcc k f).accs[k]? = some (f old) := getElem?_modAt_self f ho
    exact ⟨old, rfl, Option.some.inj (h.symm.trans e)⟩

/-- The accumulators after those that a mask names are made blank. -/
theorem accs_foldl_blank (mask : BitVec 8) (as : List Nat) (g : Machine.Group) {k : Nat} {acc : Acc}
    (h : (as.foldl (fun g a => if mask.getLsbD a then g.modAcc a fun _ => .blank else g) g).accs[k]? = some acc) :
    if mask.getLsbD k = true ∧ k ∈ as then acc = .blank else g.accs[k]? = some acc := by
  induction as generalizing g with
  | nil => simpa using h
  | cons a as ih =>
    rw [List.foldl_cons] at h
    have ih := ih _ h
    by_cases hk : mask.getLsbD k = true ∧ k ∈ as
    · rw [if_pos hk] at ih
      rw [if_pos ⟨hk.1, List.mem_cons_of_mem _ hk.2⟩]
      exact ih
    · rw [if_neg hk] at ih
      by_cases ha : mask.getLsbD a = true
      · rw [if_pos ha] at ih
        by_cases e : k = a
        · subst e
          obtain ⟨old, -, hb⟩ := accs_modAcc_self ih
          rw [if_pos ⟨ha, List.mem_cons_self⟩]
          exact hb
        · rw [accs_modAcc_ne e] at ih
          rw [if_neg fun hm => hk ⟨hm.1, (List.mem_cons.mp hm.2).resolve_left e⟩]
          exact ih
      · rw [if_neg ha] at ih
        have hno : ¬ (mask.getLsbD k = true ∧ k ∈ a :: as) := fun hm =>
          hk ⟨hm.1, (List.mem_cons.mp hm.2).resolve_left fun e => ha (by rw [← e]; exact hm.1)⟩
        rw [if_neg hno]
        exact ih

theorem blank_words : ∀ row ∈ Acc.blank.c ++ Acc.blank.tw, ∀ w ∈ row, w = 0 := by
  intro row hr w hw
  have hrow : row = List.replicate 64 0 := by
    rcases List.mem_append.mp hr with h | h <;> exact (List.mem_replicate.mp h).2
  rw [hrow] at hw
  exact (List.mem_replicate.mp hw).2

end

/-- A word of a variance as `mx.ldc.var` stores it (R119, R249). -/
theorem fitWord_eq (w : Word) : fitWord w = if w = 0x80000000 then 0 else if w.toNat > 0x7F800000 then 0x7F800000 else w := by
  have hsign : w.getLsbD 31 = true ↔ w.toNat / 2 ^ 31 = 1 := by rw [← signBit_eq, beq_iff_eq]
  have hnan : (w.extractLsb' 23 8 = 0xFF#8 ∧ w.extractLsb' 0 23 ≠ 0#23) ↔ 0x7F800000 < w.toNat % 2 ^ 31 := by
    rw [← BitVec.toNat_inj, Ne, ← BitVec.toNat_inj, toNat_exponent, toNat_fraction]
    show w.toNat % 2 ^ 31 / 2 ^ 23 = 255 ∧ ¬ w.toNat % 2 ^ 31 % 2 ^ 23 = 0 ↔ _
    omega
  have hzero : w = 0x80000000 ↔ w.toNat = 0x80000000 := by rw [← BitVec.toNat_inj]; rfl
  have hw := w.isLt
  unfold fitWord
  by_cases h : w.toNat > 0x7F800000
  · by_cases h0 : w = 0x80000000
    · rw [if_neg (by rw [hnan]; rw [hzero] at h0; omega), if_pos h0, if_pos h0]
    · rw [if_neg h0, if_neg h0, if_pos h]
      rw [hzero] at h0
      by_cases hn : 0x7F800000 < w.toNat % 2 ^ 31
      · rw [if_pos (hnan.mpr hn)]
      · rw [if_neg (mt hnan.mp hn), if_pos (hsign.mpr (by omega))]
  · have h0 : ¬ w = 0x80000000 := fun e => by rw [hzero] at e; omega
    rw [if_neg (by rw [hnan]; omega), if_neg h0, if_neg h0, if_neg (by rw [hsign]; omega), if_neg h]

theorem snd_fitVar (w : Word) : (fitVar w).2 = true ↔ nanWord w ∨ w.getLsbD 31 = true ∧ w ≠ 0x80000000 := by
  have hbad : (fitVar w).2 = badVar w := by
    unfold fitVar
    cases badVar w
    · rw [if_neg (by decide)]
      split <;> rfl
    · rfl
  rw [hbad, badVar, Bool.or_eq_true, Bool.and_eq_true, f32_isNan]
  by_cases hn : nanWord w
  · exact iff_of_true (.inl hn) (.inl hn)
  rw [f32_sign hn]
  refine or_congr_right (and_congr_right fun hs => ?_)
  rw [← not_iff_not, not_not, Bool.not_eq_true, not_nzW_iff]
  exact ⟨fun h => h.resolve_left fun e => by rw [e] at hs; exact absurd hs (by decide), .inr⟩

section
variable {o : CrewOp} {x : LdcForm} {m : Nat} {g : Machine.Group}

/-- Word w of row r of a load's member. -/
def loadWord (o : CrewOp) (x : LdcForm) (m r w : Nat) : Word := rowWord o (o.vals.getD 0 0) x.pitch.toNat x.swz.toNat (16 * m + r) w

theorem ldcRows_eq (n : Nat) : o.ldcRows x m (64 * n) = wordRows (16 * n) (loadWord o x m) := by
  have e : 64 * n / 4 = 16 * n := by omega
  unfold CrewOp.ldcRows CrewOp.rowWords
  rw [e]
  rfl

theorem load_means (n : Nat) (a : Acc) :
    let new := a.load (o.ldcRows x m (64 * n)) false m []
    new.status = 0 ∧ new.marks = 0 ∧ new.ops = 0 ∧ new.tw = a.tw ∧
      ∀ r < 16, r < a.c.length → ∀ w < 16 * n, (new.c.getD r []).getD w 0 = loadWord o x m r w := by
  refine ⟨rfl, rfl, rfl, rfl, fun r hr h w hw => ?_⟩
  show ((overRows _ a.c).getD r []).getD w 0 = _
  rw [ldcRows_eq, getD_overRows _ _ _ hr h hw]

theorem load_twins (n : Nat) (a : Acc) :
    let new := a.loadVar (o.ldcRows x m (64 * n)) m []
    new.c = a.c ∧ new.marks = a.marks ∧
      (∀ r < 16, r < a.tw.length → ∀ j < 16 * n, (new.tw.getD r []).getD j 0 = fitWord (loadWord o x m r j)) ∧
      ∀ b < 32, new.status.getLsbD b = true ↔ a.status.getLsbD b = true ∨ b = 4 ∧ ∃ r < 16, ∃ j < 16 * n,
        nanWord (loadWord o x m r j) ∨ (loadWord o x m r j).getLsbD 31 = true ∧ loadWord o x m r j ≠ 0x80000000 := by
  have hmap (f : Word → Word) : ((wordRows (16 * n) (loadWord o x m)).map fun r => r.map f) = wordRows (16 * n) fun r j => f (loadWord o x m r j) := by
    simp [wordRows, Function.comp_def]
  have hany : ((wordRows (16 * n) (loadWord o x m)).any fun r => r.any fun w => (fitVar w).2) = true ↔ ∃ r < 16, ∃ j < 16 * n,
      nanWord (loadWord o x m r j) ∨ (loadWord o x m r j).getLsbD 31 = true ∧ loadWord o x m r j ≠ 0x80000000 := by
    simp only [wordRows, List.any_map, List.any_eq_true, List.mem_range, Function.comp_apply, snd_fitVar]
  rw [ldcRows_eq]
  refine ⟨rfl, rfl, fun r hr h j hj => ?_, fun b hb => ?_⟩
  · show ((overRows _ a.tw).getD r []).getD j 0 = _
    rw [hmap, getD_overRows _ _ _ hr h hj, fst_fitVar]
  · show (if _ then a.status ||| fInvalid else a.status).getLsbD b = true ↔ _
    have h4 := getLsbD_flag (w := fInvalid) (i := 4) (by decide) (by decide) b
    split
    · next h => rw [BitVec.getLsbD_or, Bool.or_eq_true, h4, and_iff_left (hany.mp h)]
    · next h => exact (or_iff_left fun hb => h (hany.mpr hb.2)).symm

/-! ### Doublewords (R249) -/

theorem alternate_map (n : Nat) (f : Nat → Word) : alternate ((List.range (2 * n)).map f) =
    ((List.range n).map fun j => f (2 * j), (List.range n).map fun j => f (2 * j + 1)) := by
  induction n generalizing f with
  | zero => rfl
  | succ n ih =>
    have ih := ih fun j => f (j + 2)
    have e : (List.range (2 * (n + 1))).map f = f 0 :: f 1 :: (List.range (2 * n)).map fun j => f (j + 2) := by
      rw [Nat.mul_succ, List.range_succ_eq_map, List.range_succ_eq_map]
      simp [Function.comp_def]
    rw [e, alternate, ih, List.range_succ_eq_map]
    simp [Function.comp_def, Nat.mul_add]

theorem load_pair (n : Nat) (a : Acc) (words : Nat → Nat → Word) :
    let new := a.load (wordRows (16 * n) words) true m []
    new.status = 0 ∧ new.marks = 0 ∧ ∀ r < 16, ∀ j < 16 * n, (r < a.c.length → (new.c.getD r []).getD j 0 = words r j) ∧
      (r < a.tw.length → (new.tw.getD r []).getD j 0 = 0) := by
  refine ⟨rfl, rfl, fun r hr j hj => ⟨fun h => getD_overRows _ _ _ hr h hj, fun h => ?_⟩⟩
  have hz : ((wordRows (16 * n) words).map fun r => r.map fun _ => (0 : Word)) = wordRows (16 * n) fun _ _ => 0 := by
    simp [wordRows, Function.comp_def]
  show ((overRows ((wordRows (16 * n) words).map fun r => r.map fun _ => 0) a.tw).getD r []).getD j 0 = 0
  rw [hz, getD_overRows _ _ _ hr h hj]

theorem ldcRows_pair (n : Nat) : ((o.ldcRows x m (128 * n)).map alternate).map (·.1) = (wordRows (16 * n) fun r j => loadWord o x m r (2 * j)) ∧
    ((o.ldcRows x m (128 * n)).map alternate).map (·.2) = wordRows (16 * n) fun r j => loadWord o x m r (2 * j + 1) := by
  have e : 128 * n / 4 = 2 * (16 * n) := by omega
  have hrow (r : Nat) : alternate (o.rowWords (o.vals.getD 0 0) x.pitch.toNat x.swz.toNat (16 * m + r) (128 * n)) =
      ((List.range (16 * n)).map fun j => loadWord o x m r (2 * j), (List.range (16 * n)).map fun j => loadWord o x m r (2 * j + 1)) := by
    unfold CrewOp.rowWords
    rw [e]
    exact alternate_map (16 * n) (loadWord o x m r)
  unfold CrewOp.ldcRows wordRows
  constructor <;>
  · rw [List.map_map, List.map_map]
    exact List.map_congr_left fun r _ => by rw [Function.comp_apply, Function.comp_apply, hrow]

theorem ldcF64_loads (he : o.errs = []) (n : Nat) :
    AccStep g (o.onMember (.mxLdcF64 x) m n g) x.acc.toNat (fun old new => new.status = 0 ∧ new.marks = 0 ∧
        ∀ r < 16, ∀ j < 16 * n, (r < old.c.length → (new.c.getD r []).getD j 0 = loadWord o x m r (2 * j)) ∧
          (r < old.tw.length → (new.tw.getD r []).getD j 0 = 0)) ∧
    AccStep g (o.onMember (.mxLdcF64 x) m n g) (x.acc.toNat + 1) fun old new => new.status = 0 ∧ new.marks = 0 ∧
        ∀ r < 16, ∀ j < 16 * n, (r < old.c.length → (new.c.getD r []).getD j 0 = loadWord o x m r (2 * j + 1)) ∧
          (r < old.tw.length → (new.tw.getD r []).getD j 0 = 0) := by
  obtain ⟨h1, h2⟩ := ldcRows_pair (o := o) (x := x) (m := m) n
  have hstep : o.onMember (.mxLdcF64 x) m n g =
      (g.modAcc x.acc.toNat fun a => a.load (((o.ldcRows x m (128 * n)).map alternate).map (·.1)) true m o.errs).modAcc (x.acc.toNat + 1) fun a =>
        a.load (((o.ldcRows x m (128 * n)).map alternate).map (·.2)) true m o.errs := rfl
  rw [hstep, he, h1, h2]
  exact ⟨accStep_pair_fst fun a _ => load_pair n a _, accStep_pair_snd fun a _ => load_pair n a _⟩

/-! ### Registers (R249) -/

/-- Registers written from a list, each once, hold their words, and the others stay. -/
theorem foldl_writeV {α : Type} (d : α → Nat × Nat) (w : α → Word) (ps : List α) (hn : (ps.map d).Nodup) (gl : Machine.Group → List Word)
    (g : Machine.Group) :
    let g' := ps.foldl (fun g p => g.writeV (d p).1 (d p).2 (w p) (gl g)) g
    Keeps ⟨fun _ => False, fun l r => (l, r) ∈ ps.map d, 0, False⟩ g g' ∧
      ∀ p ∈ ps, (d p).2 < (g.lane (d p).1).v.length → (g'.lane (d p).1).vreg (d p).2 = w p := by
  induction ps generalizing g with
  | nil => exact ⟨keeps_refl _ g, fun p hp => nomatch hp⟩
  | cons p ps ih =>
    rw [List.map_cons, List.nodup_cons] at hn
    obtain ⟨k1, h1⟩ := ih hn.2 (g.writeV (d p).1 (d p).2 (w p) (gl g))
    have k0 := (keeps_writeV ⟨fun _ => False, fun l r => (l, r) ∈ (p :: ps).map d, 0, False⟩ g (d p).1 (d p).2 (w p) (gl g)
      List.mem_cons_self).1
    refine ⟨keeps_trans k0 (keeps_mono (a := ⟨fun _ => False, fun l r => (l, r) ∈ ps.map d, 0, False⟩) (fun _ h => h)
      (fun l r h => List.mem_cons_of_mem _ h) BitVec.zero_and id k1), fun q hq hlen => ?_⟩
    rcases List.mem_cons.mp hq with rfl | hq
    · have hl : (d q).1 < g.lanes.length := by
        by_contra hl
        have : (g.lane (d q).1).v.length = 0 := by
          rw [Group.lane, List.getD_eq_default _ _ (not_lt.mp hl)]; rfl
        omega
      rw [List.foldl_cons, (k1.vreg (d q).1 (d q).2 hn.1).1, vreg_writeV _ _ _ _ _ _ hl hlen, if_pos rfl]
    · exact h1 q hq (by rw [k0.nregs]; exact hlen)

/-- Lane and register of word w of row c. -/
def ldcDest (x : LdcForm) (p : Nat × Nat) : Nat × Nat := (16 * (p.2 % 2) + p.1, x.vb.toNat + p.2 / 2)

/-- The words that `mx.ldc.b` writes: row and word. -/
def ldcPairs (x : LdcForm) : List (Nat × Nat) := (List.range 16).flatMap fun c => (List.range (2 * x.nreg.toNat)).map fun w => (c, w)

theorem mem_ldcPairs {p : Nat × Nat} : p ∈ ldcPairs x ↔ p.1 < 16 ∧ p.2 < 2 * x.nreg.toNat := by
  unfold ldcPairs
  simp only [List.mem_flatMap, List.mem_map, List.mem_range]
  constructor
  · rintro ⟨c, hc, w, hw, rfl⟩; exact ⟨hc, hw⟩
  · exact fun h => ⟨p.1, h.1, p.2, h.2, rfl⟩

theorem nodup_ldcDest : ((ldcPairs x).map (ldcDest x)).Nodup := by
  have hp : (ldcPairs x).Nodup := by
    have : ldcPairs x = (List.range 16) ×ˢ (List.range (2 * x.nreg.toNat)) := rfl
    rw [this]
    exact List.nodup_range.product List.nodup_range
  refine hp.map_on fun p hp q hq e => ?_
  rw [mem_ldcPairs] at hp hq
  obtain ⟨h1, h2⟩ := Prod.mk.inj e
  exact Prod.ext (by omega) (by omega)

theorem ldcB_eq (he : o.errs = []) : o.ldcB x m g = (ldcPairs x).foldl (fun g p =>
    g.writeV (ldcDest x p).1 (ldcDest x p).2 (loadWord o x m p.1 p.2) (zeroGlove g.ident.k)) g := by
  unfold CrewOp.ldcB ldcPairs
  simp only [he, List.any_nil, Bool.false_eq_true, if_false, List.foldl_flatMap, List.foldl_map]
  rfl

end

end Sys2Proof.Proofs.NumberFormats
end

section
namespace Sys2Proof.Proofs.NumberFormats
open Sys2Proof Sys2Proof.Machine Sys2Proof.Claims Sys2Proof.Laws Sys2Proof.Proofs.MachineState

/-! ## What the queue of a crew leaves of a group (R235, R253) -/

/-- A group's arrays, flags and registers. -/
structure SameData (g g' : Machine.Group) : Prop where
  ident : g'.ident = g.ident
  accs : g'.accs = g.accs
  flags : g'.flags = g.flags
  vreg : ∀ l r, (g'.lane l).vreg r = (g.lane l).vreg r

theorem SameData.refl (g : Machine.Group) : SameData g g := ⟨rfl, rfl, rfl, fun _ _ => rfl⟩

theorem SameData.trans {a b c : Machine.Group} (p : SameData a b) (q : SameData b c) : SameData a c :=
  ⟨q.ident.trans p.ident, q.accs.trans p.accs, q.flags.trans p.flags, fun l r => (q.vreg l r).trans (p.vreg l r)⟩

/-- A change of the other fields. -/
theorem SameData.congr {g h h' : Machine.Group} (p : SameData g h) (hi : h'.ident = h.ident) (ha : h'.accs = h.accs) (hf : h'.flags = h.flags)
    (hl : h'.lanes = h.lanes) : SameData g h' :=
  ⟨hi.trans p.ident, ha.trans p.accs, hf.trans p.flags, fun l r => by
    have e : h'.lane l = h.lane l := by unfold Group.lane; rw [hl]
    rw [e]
    exact p.vreg l r⟩

theorem sameData_ite {g x y : Machine.Group} {p : Prop} [Decidable p] (hx : SameData g x) (hy : SameData g y) : SameData g (if p then x else y) := by
  split
  · exact hx
  · exact hy

/-- Draws alone may change. -/
def onlyDraws : Allow := ⟨fun _ => False, fun _ _ => False, 0, True⟩

theorem sameData_of_keeps {g g' : Machine.Group} (k : Keeps onlyDraws g g') : SameData g g' :=
  ⟨k.ident, k.arrays.1, flags_of_keeps rfl k, fun l r => (k.vreg l r fun h => h).1⟩

theorem sameData_closeLatches (g : Machine.Group) (gg : Gang) : SameData g (g.closeLatches gg) :=
  sameData_of_keeps (keeps_closeLatches onlyDraws g gg).1

theorem sameData_advance (g : Machine.Group) (gg : Gang) (n : Nat) : SameData g (g.advance gg n) :=
  sameData_of_keeps (aluFrame_advance gg n ⟨keeps_refl onlyDraws g, rfl⟩).1

theorem sameData_release (g : Machine.Group) (gg : Gang) (n : Nat) : SameData g (g.release gg n) :=
  (sameData_advance g gg n).congr rfl rfl rfl rfl

theorem sameData_modGang (g : Machine.Group) (k : Nat) (f : Gang → Gang) : SameData g (g.modGang k f) := (SameData.refl g).congr rfl rfl rfl rfl

theorem sameData_goto (g : Machine.Group) (gg : Gang) (pc : DWord) : SameData g (g.goto gg pc) :=
  (sameData_closeLatches g gg).trans (sameData_modGang _ _ _)

theorem sameData_enterHandler (g : Machine.Group) (gg : Gang) (vec : DWord) (i : TrapInfo) : SameData g (g.enterHandler gg vec i) := by
  unfold Group.enterHandler
  dsimp only
  refine SameData.trans ?_ (sameData_modGang _ _ _)
  refine SameData.trans ?_ (sameData_goto _ _ _)
  exact (SameData.refl g).congr rfl rfl rfl rfl

theorem sameData_settleStats (g : Machine.Group) (op : Nat) : SameData g (g.settleStats op) := by
  have fold (xs : List MxStat) (g : Machine.Group) :
      SameData g (xs.foldl (fun g x => (g.addWrites x.op [(x.tgt, (g.acc x.acc).stat)]).opPart x.op) g) := by
    induction xs generalizing g with
    | nil => exact .refl g
    | cons x xs ih =>
      refine SameData.trans ?_ (ih ((g.addWrites x.op [(x.tgt, (g.acc x.acc).stat)]).opPart x.op))
      exact (SameData.refl g).congr rfl rfl rfl rfl
  unfold Group.settleStats
  dsimp only
  refine SameData.trans ?_ (fold _ _)
  exact (SameData.refl g).congr rfl rfl rfl rfl

/-! ### The frame of a state -/

/-- Every group keeps its arrays, flags and registers, and the scratchpads stay. -/
structure CrewFrame (s t : State) : Prop where
  groups : ∀ k g, s.group? k = some g → ∃ g', t.group? k = some g' ∧ SameData g g'
  teams : t.teams = s.teams
  dspad : ∀ d, (t.die d).dspad = (s.die d).dspad

theorem CrewFrame.refl (s : State) : CrewFrame s s := ⟨fun _ g h => ⟨g, h, .refl g⟩, rfl, fun _ => rfl⟩

theorem CrewFrame.trans {r s t : State} (p : CrewFrame r s) (q : CrewFrame s t) : CrewFrame r t where
  groups k g h := by
    obtain ⟨g1, h1, d1⟩ := p.groups k g h
    obtain ⟨g2, h2, d2⟩ := q.groups k g1 h1
    exact ⟨g2, h2, d1.trans d2⟩
  teams := q.teams.trans p.teams
  dspad d := (q.dspad d).trans (p.dspad d)

theorem CrewFrame.withCrewOps {s t : State} (h : CrewFrame s t) (ops : List CrewOp) : CrewFrame s { t with crewOps := ops } :=
  ⟨h.groups, h.teams, h.dspad⟩

theorem CrewFrame.withNextId {s t : State} (h : CrewFrame s t) (n : Nat) : CrewFrame s { t with nextId := n } :=
  ⟨h.groups, h.teams, h.dspad⟩

theorem crewFrame_foldl {α : Type} {f : State → α → State} {xs : List α}
    {s0 : State} (h : ∀ s, ∀ x ∈ xs, CrewFrame s0 s → CrewFrame s0 (f s x))
    {s : State} (hs : CrewFrame s0 s) : CrewFrame s0 (xs.foldl f s) := by
  induction xs generalizing s with
  | nil => exact hs
  | cons x xs ih => exact ih (fun s y hy => h s y (List.mem_cons_of_mem _ hy)) (h s x List.mem_cons_self hs)

/-- Lookup after a change that keeps the number of the group changed. -/
theorem group_modGroup_of_id {i : Nat} {f : Machine.Group → Machine.Group} (h : ∀ g, g.ident.id = i → (f g).ident.id = i) (s : State) (k : Nat) :
    (s.modGroup i f).group? k = (s.group? k).map fun g => if g.ident.id = i then f g else g := by
  have e : s.modGroup i f = s.modGroup i fun g => if g.ident.id = i then f g else g := by
    unfold State.modGroup
    congr 1
    refine List.map_congr_left fun g _ => ?_
    dsimp only
    split <;> rfl
  rw [e, group_modGroup s i k (fun g => if g.ident.id = i then f g else g) fun g => by
    split
    · next hg => rw [h g hg, hg]
    · rfl]
  congr 1
  funext g
  split <;> rfl

/-- A group is replaced by one with the data that it had in the state s0. -/
theorem crewFrame_modGroup {s0 s : State} {i : Nat} {f : Machine.Group → Machine.Group} (h : ∀ g, g.ident.id = i → (f g).ident.id = i)
    (hs : CrewFrame s0 s) (hd : ∀ g0 g, s0.group? i = some g0 → s.group? i = some g → SameData g0 (f g)) : CrewFrame s0 (s.modGroup i f) where
  groups k g0 h0 := by
    obtain ⟨g, hg, d⟩ := hs.groups k g0 h0
    rw [group_modGroup_of_id h, hg]
    by_cases hk : g.ident.id = i
    · have e : k = i := (group_id hg).symm.trans hk
      subst e
      exact ⟨f g, by rw [Option.map_some, if_pos hk], hd g0 g h0 hg⟩
    · exact ⟨g, by rw [Option.map_some, if_neg hk], d⟩
  teams := hs.teams
  dspad d := by rw [die_modGroup]; exact hs.dspad d

/-- A group changes in other fields. -/
theorem crewFrame_modSame (s : State) (i : Nat) {f : Machine.Group → Machine.Group} (hf : ∀ g, SameData g (f g)) : CrewFrame s (s.modGroup i f) :=
  crewFrame_modGroup (fun g hg => by rw [(hf g).ident]; exact hg) (.refl s) fun g0 g h0 hg => by
    rw [h0] at hg
    cases hg
    exact hf g0

theorem crewFrame_modCtl (s : State) (d : DieId) (f : CtlRegs → CtlRegs) : CrewFrame s (s.modCtl d f) where
  groups k g h := ⟨g, by rw [State.modCtl, group_modDie]; exact h, .refl g⟩
  teams := by cases d <;> rfl
  dspad e := by rw [State.modCtl, die_modDie]; split <;> rfl

theorem crewFrame_interrupt (s : State) (d : DieId) (bit : Nat) : CrewFrame s (s.interrupt d bit) := by
  have hmsi (s : State) (v : Nat) : CrewFrame s (s.sendMsi d v) := by
    unfold State.sendMsi
    split
    · exact ⟨fun k g h => ⟨g, by rw [group_modDie]; exact h, .refl g⟩, by cases d <;> rfl, fun e => by rw [die_modDie]; split <;> rfl⟩
    · exact ⟨fun _ g h => ⟨g, h, .refl g⟩, rfl, fun e => by cases e <;> rfl⟩
  unfold State.interrupt
  dsimp only
  split
  · exact (crewFrame_modCtl s d _).trans (hmsi _ _)
  · exact crewFrame_modCtl s d _

theorem crewFrame_doubleTrap (s : State) (gid : Nat) (gg : Gang) (hdr : DWord) : CrewFrame s (s.doubleTrap gid gg hdr) := by
  unfold State.doubleTrap
  split
  · exact .refl s
  · split
    · exact .refl s
    · dsimp only
      refine CrewFrame.trans ?_ (crewFrame_interrupt _ _ _)
      refine CrewFrame.trans ?_ (crewFrame_modCtl _ _ _)
      exact crewFrame_modSame s gid fun g => (SameData.refl g).congr rfl rfl rfl rfl

theorem crewFrame_takeTrap (s : State) (gid : Nat) (gg : Gang) (i : TrapInfo) : CrewFrame s (s.takeTrap gid gg i) := by
  have enter : CrewFrame s (s.enterTrap gid gg i) := by
    unfold State.enterTrap
    split
    · exact .refl s
    · split
      · exact .refl s
      · dsimp only
        split
        · exact crewFrame_doubleTrap s gid gg _
        · exact crewFrame_modSame s gid fun g => sameData_enterHandler g gg _ i
  unfold State.takeTrap
  split
  · exact .refl s
  · split
    · exact .refl s
    · split
      · exact crewFrame_modSame s gid fun g => (SameData.refl g).congr rfl rfl rfl rfl
      · exact enter

theorem crewFrame_trapMember (s : State) (gid gang : Nat) (q : Tq) : CrewFrame s (s.trapMember gid gang q) := by
  unfold State.trapMember
  split
  · exact .refl s
  · split
    · exact .refl s
    · dsimp only
      refine CrewFrame.trans ?_ (crewFrame_takeTrap _ _ _ _)
      exact crewFrame_modSame s gid fun g => (SameData.refl g).congr rfl rfl rfl rfl

theorem sameData_foldl {σ α : Type} (π : σ → Machine.Group) {f : σ → α → σ} (h : ∀ a x, SameData (π a) (π (f a x)))
    (xs : List α) (a : σ) :
    SameData (π a) (π (xs.foldl f a)) := by
  induction xs generalizing a with
  | nil => exact .refl _
  | cons x xs ih => exact (h a x).trans (ih _)

theorem sameData_capture (c : Cx) (i : Instr) (rm n : Nat) : SameData c.g (c.capture i rm n).2.2 := by
  have draw (g : Machine.Group) (l j : Nat) : Keeps onlyDraws g (c.drawFor g l j).2 := by
    unfold Cx.drawFor
    split
    · exact keeps_refl _ g
    · exact (keeps_modLane onlyDraws g l (fun x => { x with draw := x.draw + 1 }) (fun _ => rfl) (fun _ => rfl) (fun _ => rfl)
        (fun k => absurd trivial k) (fun _ => rfl) fun _ _ _ => ⟨rfl, rfl⟩).1
  have draws : SameData c.g (c.stcDraws n).2 :=
    sameData_foldl (σ := List (List Word) × Machine.Group) Prod.snd (fun a t =>
      sameData_foldl (σ := List Word × Machine.Group) Prod.snd (fun b l => sameData_of_keeps (draw b.2 l t)) _ ([], a.2)) _ ([], c.g)
  unfold Cx.capture
  split
  · exact .refl _
  · split
    · exact draws
    · exact .refl _
  · split
    · exact .refl _
    · exact .refl _

theorem crewFrame_acceptOp {s : State} {cs : List Cx} (hcs : ∀ c ∈ cs, s.group? c.g.ident.id = some c.g) (i : Instr) (e : SlotEntry) :
    CrewFrame s (s.acceptOp cs i e) := by
  unfold State.acceptOp State.fresh
  dsimp only
  refine CrewFrame.withCrewOps (crewFrame_foldl (s0 := s) (fun t x hx ht => ?_) ((CrewFrame.refl s).withNextId _)) _
  obtain ⟨c, cap⟩ := x
  rw [List.zip, List.zipWith_map_right, List.zipWith_self] at hx
  obtain ⟨p, hc, he⟩ := List.mem_map.mp hx
  obtain ⟨rfl, rfl⟩ := Prod.mk.inj he
  have hcap := sameData_capture p i e.rm cs.length
  have hslot : SameData p.g { (p.capture i e.rm cs.length).2.2 with slot := none } := hcap.congr rfl rfl rfl rfl
  have hnew {g' : Machine.Group} (h : SameData { (p.capture i e.rm cs.length).2.2 with slot := none } g') :
      CrewFrame s (t.modGroup p.g.ident.id fun _ => g') := by
    have hd := hslot.trans h
    refine crewFrame_modGroup (fun _ _ => by rw [hd.ident]) ht fun g0 g h0 _ => ?_
    rw [hcs p hc] at h0
    cases h0
    exact hd
  exact hnew (sameData_ite (.congr (.refl _) rfl rfl rfl rfl) (sameData_ite (sameData_advance _ _ _) (sameData_release _ _ _)))

theorem crewFrame_meetLatch (s : State) (gs : List Machine.Group) : CrewFrame s (s.meetLatch gs) := by
  have hcs : ∀ c ∈ gs.filterMap fun g => g.slot.bind fun e => s.cxOf g.ident.id e.gang, s.group? c.g.ident.id = some c.g := by
    intro c hc
    obtain ⟨g, -, h⟩ := List.mem_filterMap.mp hc
    obtain ⟨e, -, h⟩ := Option.bind_eq_some_iff.mp h
    obtain ⟨hg, hid, -⟩ := cxOf_parts h
    rw [hid]
    exact hg
  have trapAll (cs : List Cx) (q : Tq) : CrewFrame s (cs.foldl (fun s c => s.trapMember c.g.ident.id c.gg.id q) s) :=
    crewFrame_foldl (fun t c _ ht => ht.trans (crewFrame_trapMember t _ _ q)) (.refl s)
  unfold State.meetLatch
  dsimp only
  split
  · split
    · exact trapAll _ _
    · split
      · exact .refl s
      · split
        · split
          · exact trapAll _ _
          · exact crewFrame_acceptOp hcs _ _
        · exact .refl s
  · exact .refl s

/-- Completing latches leaves every group's arrays, flags and registers, and the scratchpads. -/
theorem crewFrame_settleLatches (s : State) (team : Nat) : CrewFrame s (s.settleLatches team) := by
  refine crewFrame_foldl (fun t g _ ht => ?_) (.refl s)
  dsimp only
  split
  · exact ht
  · split
    · exact ht.trans (crewFrame_meetLatch t _)
    · exact ht

end Sys2Proof.Proofs.NumberFormats
end

section
namespace Sys2Proof.Proofs.NumberFormats
open Sys2Proof Sys2Proof.Machine Sys2Proof.Claims Sys2Proof.Laws Sys2Proof.Proofs.MachineState

/-! ## The end of an operation (R238, R249, R253) -/

/-- A change of group k alone, by f but for what the queue of a crew may change. -/
structure MemberStep (k : Nat) (f : Machine.Group → Machine.Group) (s t : State) : Prop where
  member : ∀ g, s.group? k = some g → ∃ g', t.group? k = some g' ∧ SameData (f g) g'
  other : ∀ j, j ≠ k → t.group? j = s.group? j
  teams : t.teams = s.teams
  dspad : ∀ d, (t.die d).dspad = (s.die d).dspad

theorem memberStep_modGroup {k : Nat} {f f' : Machine.Group → Machine.Group} (hf : ∀ g, (f g).ident = g.ident)
    (hd : ∀ g, SameData (f g) (f' g)) (s : State) :
    MemberStep k f s (s.modGroup k f') := by
  have hid : ∀ g : Machine.Group, g.ident.id = k → (f' g).ident.id = k := fun g hg => by rw [(hd g).ident, hf]; exact hg
  refine ⟨fun g hg => ⟨f' g, ?_, hd g⟩, fun j hj => ?_, rfl, fun d => by rw [die_modGroup]⟩
  · rw [group_modGroup_of_id hid, hg, Option.map_some, if_pos (group_id hg)]
  · rw [group_modGroup_of_id hid]
    cases hg : s.group? j with
    | none => rfl
    | some g => rw [Option.map_some, if_neg fun h => hj ((group_id hg).symm.trans h)]

theorem MemberStep.then_modGroup {k : Nat} {f f' : Machine.Group → Machine.Group} {s t : State}
    (h : MemberStep k f s t) (hd : ∀ g, SameData g (f' g)) :
    MemberStep k f s (t.modGroup k f') := by
  have h2 := memberStep_modGroup (k := k) (f := id) (fun _ => rfl) hd t
  refine ⟨fun g hg => ?_, fun j hj => (h2.other j hj).trans (h.other j hj), h.teams, fun d => (h2.dspad d).trans (h.dspad d)⟩
  obtain ⟨g1, hg1, d1⟩ := h.member g hg
  obtain ⟨g2, hg2, d2⟩ := h2.member g1 hg1
  exact ⟨g2, hg2, d1.trans d2⟩

/-- What the end of an operation does for one member and its place. -/
def endMember (o : CrewOp) (i : Instr) (s : State) (gm : Nat × Nat) : State :=
  let s := s.modGroup gm.1 fun g => (o.onMember i gm.2 o.members.length g).settleStats o.id
  match i, s.group? gm.1 with
  | .mxLdcB x, some g =>
    match g.gangs.find? fun y => y.park == some (.crewB o.id) with
    | none => s
    | some gg =>
      let lost := o.lostWords x gm.2 3
      let bad := o.lostWords x gm.2 2
      if !lost.isEmpty then
        s.trapMember gm.1 gg.id { code := .tagFault, lanes := maskOf (lost.map (·.1)), addr := lowestAddr lost }
      else
        let pc := gg.firstWord
        let s := s.modGroup gm.1 fun g => g.release gg 2
        if bad.isEmpty then s
        else s.modGroup gm.1 fun g => g.modGang gg.id fun y => y.setPoison pc (maskOf (bad.map (·.1))) (lowestAddr bad)
  | _, _ => s

theorem endOp_eq (s : State) (o : CrewOp) (i : Instr) : s.endOp o i =
    (o.members.zipIdx.foldl (endMember o i) { s with crewOps := s.crewOps.filter (·.id != o.id) }).settleLatches o.team := rfl

section
variable {o : CrewOp} {i : Instr}

theorem ident_foldl {α : Type} {f : Machine.Group → α → Machine.Group} (h : ∀ g x, (f g x).ident = g.ident) (xs : List α) (g : Machine.Group) :
    (xs.foldl f g).ident = g.ident := by
  induction xs generalizing g with
  | nil => rfl
  | cons x xs ih => exact (ih _).trans (h g x)

theorem ident_onMember (m n : Nat) (g : Machine.Group) : (o.onMember i m n g).ident = g.ident := by
  unfold CrewOp.onMember
  split
  · exact ident_foldl (fun g x => by split <;> rfl) _ g
  · rfl
  · rfl
  · rfl
  · rfl
  · rfl
  · rfl
  · rfl
  · exact ident_foldl (fun g c => ident_foldl (fun g w => by
      dsimp only
      split
      · rfl
      · exact (keeps_writeV ⟨fun _ => False, fun _ _ => True, 0, False⟩ _ _ _ _ _ trivial).1.ident) _ g) _ g
  · exact ident_foldl (f := fun g a => g.modAcc a fun a => { a with ops := a.ops + 1 }) (fun _ _ => rfl) _ g
  · rfl

theorem lostWords_nil (he : o.errs = []) (x : LdcForm) (m kind : Nat) : o.lostWords x m kind = [] := by
  unfold CrewOp.lostWords
  simp [he]

theorem memberStep_endMember (he : ∀ x, i = .mxLdcB x → o.errs = []) (s : State) (gm : Nat × Nat) :
    MemberStep gm.1 (o.onMember i gm.2 o.members.length) s (endMember o i s gm) := by
  have h1 := memberStep_modGroup (k := gm.1) (ident_onMember (o := o) (i := i) gm.2 o.members.length)
    (fun g => sameData_settleStats (o.onMember i gm.2 o.members.length g) o.id) s
  unfold endMember
  dsimp only
  split
  · split
    · exact h1
    · next x _ _ _ gg _ =>
      rw [lostWords_nil (he x rfl), lostWords_nil (he x rfl)]
      exact h1.then_modGroup fun g => sameData_release g gg 2
  · exact h1

/-- Every member of an operation ends with the effect of its place. -/
theorem endMembers (he : ∀ x, i = .mxLdcB x → o.errs = []) (gms : List (Nat × Nat)) (hn : (gms.map (·.1)).Nodup) (s : State) :
    let t := gms.foldl (endMember o i) s
    (∀ gm ∈ gms, ∀ g, s.group? gm.1 = some g → ∃ g', t.group? gm.1 = some g' ∧ SameData (o.onMember i gm.2 o.members.length g) g') ∧
      (∀ k, k ∉ gms.map (·.1) → t.group? k = s.group? k) ∧ t.teams = s.teams ∧ ∀ d, (t.die d).dspad = (s.die d).dspad := by
  induction gms generalizing s with
  | nil => exact ⟨fun _ h => (nomatch h), fun _ _ => rfl, rfl, fun _ => rfl⟩
  | cons gm gms ih =>
    have hn := List.nodup_cons.mp hn
    have h1 := memberStep_endMember he s gm
    obtain ⟨hm, ho, ht, hd⟩ := ih hn.2 (endMember o i s gm)
    refine ⟨fun x hx g hg => ?_, fun k hk => ?_, ht.trans h1.teams, fun d => (hd d).trans (h1.dspad d)⟩
    · rcases List.mem_cons.mp hx with rfl | hx
      · rw [List.foldl_cons, ho _ hn.1]
        exact h1.member g hg
      · refine hm x hx g ?_
        rw [h1.other _ fun e => hn.1 (List.mem_map.mpr ⟨x, hx, e⟩)]
        exact hg
    · rw [List.map_cons, List.mem_cons, not_or] at hk
      exact (ho k hk.2).trans (h1.other k hk.1)

/-- The end of an operation: its effect on a member, with the scratchpads as they were. -/
theorem endOp_ends (he : ∀ x, i = .mxLdcB x → o.errs = []) (hn : o.members.Nodup) (s : State) :
    (∀ (m k : Nat) (g : Machine.Group), o.members[m]? = some k → s.group? k = some g → ∃ g', (s.endOp o i).group? k = some g' ∧
      SameData (o.onMember i m o.members.length g) g') ∧
      (s.endOp o i).teams = s.teams ∧ ∀ d, ((s.endOp o i).die d).dspad = (s.die d).dspad := by
  obtain ⟨hm, -, ht, hd⟩ := endMembers he o.members.zipIdx (by rw [List.zipIdx_map_fst]; exact hn)
    { s with crewOps := s.crewOps.filter (·.id != o.id) }
  have hf := crewFrame_settleLatches (o.members.zipIdx.foldl (endMember o i) { s with crewOps := s.crewOps.filter (·.id != o.id) }) o.team
  rw [endOp_eq]
  refine ⟨fun m k g hk hg => ?_, hf.teams.trans ht, fun d => (hf.dspad d).trans (hd d)⟩
  obtain ⟨g1, hg1, d1⟩ := hm (k, m) (List.mk_mem_zipIdx_iff_getElem?.mpr hk) g hg
  obtain ⟨g2, hg2, d2⟩ := hf.groups k g1 hg1
  exact ⟨g2, hg2, d1.trans d2⟩

/-! ### The step (R238, R253) -/

section
variable {s : State} {c : Cx} {m : Nat} {g : Machine.Group}

theorem reapAfterOp_live (h : OpPerforms s o i c m g) (t : State) : s.reapAfterOp o t = t := by
  unfold State.reapAfterOp
  rw [if_neg]
  intro ha
  have := List.all_eq_true.mp ha g.ident.id (List.mem_of_getElem? h.member)
  rw [h.group, Option.all_some, h.live] at this
  cases this

/-- An operation with all its words read is performed: its effect on a member. -/
theorem performed (h : OpPerforms s o i c m g) (hr : o.reads = []) (hs : ∀ x, i ≠ .mxStc x) (he : ∀ x, i = .mxLdcB x → o.errs = []) :
    groupAfter (exec (.crewOpExecute o.id) s) g.ident.id fun _ g' => SameData (o.onMember i m o.members.length g) g' := by
  let o' : CrewOp := { o with started := some (o.started.getD s.tick) }
  have hexec : exec (.crewOpExecute o.id) s = .next (s.endOp o' i) := by
    show execCrewOpExecute o.id s = _
    unfold execCrewOpExecute
    rw [h.queued]
    dsimp only
    rw [h.first, h.instr]
    dsimp only
    rw [h.turn, if_neg (by decide)]
    split
    · next x => exact absurd rfl (hs x)
    · rw [hr]
      exact congrArg Host.Outcome.next (reapAfterOp_live h _)
  obtain ⟨hm, -, -⟩ := endOp_ends (o := o') he h.nodup s
  obtain ⟨g', hg', d⟩ := hm m _ g h.member h.group
  exact ⟨_, g', hexec, hg', d⟩

end
end

end Sys2Proof.Proofs.NumberFormats
end

section
namespace Sys2Proof.Proofs.NumberFormats
open Sys2Proof Sys2Proof.Machine Sys2Proof.Claims Sys2Proof.Laws Sys2Proof.Proofs.MachineState

/-! ## The arithmetic operations and the loads performed (R242 to R249) -/

section
variable {s : State} {o : CrewOp} {i : Instr} {c : Cx} {m : Nat} {g : Machine.Group}

/-- An accumulator of a member after its operation. -/
theorem accAfter_of_step {k : Nat} {P : Acc → Acc → Prop} (h : OpPerforms s o i c m g) (hr : o.reads = []) (he : o.errs = [])
    (hs : ∀ x, i ≠ .mxStc x) (hstep : AccStep g (o.onMember i m o.members.length g) k P) :
        accAfter (exec (.crewOpExecute o.id) s) g.ident.id g k P := by
  obtain ⟨t, g', hexec, hg', d⟩ := performed h hr hs fun _ _ => he
  exact ⟨t, g', hexec, hg', fun old new ho hn => hstep old new ho (by rwa [d.accs] at hn)⟩

theorem accumulated_congr {N : Nat} {y : Nat → Nat → MxOut} {word twin : MxOut → Word} {more more' : Nat → Prop} {old new : Acc}
    (hm : ∀ b, more b ↔ more' b) (h : Accumulated N y word twin more old new) : Accumulated N y word twin more' old new := by
  rwa [show more = more' from funext fun b => propext (hm b)] at h

theorem toNat_eq_255 (w : BitVec 8) : w.toNat = 255 ↔ w = 0xFF#8 := by rw [← BitVec.toNat_inj]; rfl

theorem members_pos (h : OpPerforms s o i c m g) : 0 < o.members.length :=
  lt_of_le_of_lt (Nat.zero_le m) (List.getElem?_eq_some_iff.mp h.member).1

/-- The formats of `mx.mmad` have rows of variances of whole words (Table 8.2). -/
theorem varRow_of_mmadOk {x : MxForm} (h : mmadOk x = true) : 6 * (matShape x.fa.toNat).2 ≤ 32 * (varRow (matShape x.fa.toNat).2 / 4) := by
  obtain ⟨hp, sh, -, hs⟩ := shape_of_mxOk h
  have hset : x.fa.toNat ∈ [7, 8, 1, 2, 3, 4, 5, 6] := by
    obtain ⟨set, hset, hfa⟩ := List.any_eq_true.mp hp
    have hfa : x.fa.toNat ∈ set := List.contains_iff_mem.mp (Bool.and_eq_true_iff.mp hfa).1
    simp only [narrowSets, List.mem_cons, List.not_mem_nil, or_false] at hset ⊢
    rcases hset with rfl | rfl | rfl | rfl | rfl <;> simp only [List.mem_cons, List.not_mem_nil, or_false] at hfa <;> omega
  exact (by decide : ∀ f ∈ [7, 8, 1, 2, 3, 4, 5, 6], 6 * (matShape f).2 ≤ 32 * (varRow (matShape f).2 / 4)) _ hset

theorem complexShape {f nb k row : Nat} (hf : f = 7 ∨ f = 8 ∨ f = 9) (h : mxShape true f = some (nb, k, row)) :
    nb = 2 * (if f = 9 then (32, 4) else (16, 16) : Nat × Nat).1 ∧ k = (if f = 9 then (32, 4) else (16, 16) : Nat × Nat).2 := by
  rcases hf with rfl | rfl | rfl <;> cases h <;> exact ⟨rfl, rfl⟩

/-- The shape of a complex operation: element parts of h bits and K of them. -/
theorem shaped_of_mmacOk {x : MxForm} (h : mmacOk x = true) :
    Shaped (mxShapeOf true x) (2 * (if x.fa = 9 then (32, 4) else (16, 16) : Nat × Nat).1) (if x.fa = 9 then (32, 4) else (16, 16) : Nat × Nat).2 := by
  obtain ⟨hp, sh, he, hs⟩ := shape_of_mxOk h
  have h9 : x.fa = 9 ↔ x.fa.toNat = 9 := by rw [← BitVec.toNat_inj]; rfl
  have hset : x.fa.toNat = 7 ∨ x.fa.toNat = 8 ∨ x.fa.toNat = 9 := by
    obtain ⟨set, hset, hfa⟩ := List.any_eq_true.mp hp
    have hfa : x.fa.toNat ∈ set := List.contains_iff_mem.mp (Bool.and_eq_true_iff.mp hfa).1
    simp only [List.mem_cons, List.not_mem_nil, or_false] at hset
    rcases hset with rfl | rfl <;> simp only [List.mem_cons, List.not_mem_nil, or_false] at hfa <;> omega
  have hsh : sh.nb = 2 * (if x.fa = 9 then (32, 4) else (16, 16) : Nat × Nat).1 ∧ sh.k = (if x.fa = 9 then (32, 4) else (16, 16) : Nat × Nat).2 := by
    simp only [h9]
    exact complexShape hset hs
  rw [he]
  exact ⟨hsh.1, hsh.2, by rw [← hsh.1, ← hsh.2]; exact row_of_mxShape hs⟩

/-- The two formats of a binary64 operation. -/
theorem shaped_of_mma64Ok {x : MxForm} (h : mma64Ok x = true) :
    Shaped (mxShapeOf false x) 64 4 ∧ Fmt.ofMx x.fa.toNat = .f64 ∧ Fmt.ofMx x.fb.toNat = .f64 := by
  obtain ⟨hp, -⟩ := shape_of_mxOk h
  have hs := shaped_of_mxOk h
  obtain ⟨set, hset, hf⟩ := List.any_eq_true.mp hp
  obtain ⟨hfa, hfb⟩ := Bool.and_eq_true_iff.mp hf
  rw [List.mem_singleton] at hset
  rw [hset, List.contains_iff_mem, List.mem_singleton] at hfa hfb
  rw [hfa] at hs
  exact ⟨hs, by rw [hfa]; rfl, by rw [hfb]; rfl⟩

theorem arithmeticEffects : ArithmeticEffects := by
  intro s o i c m g h hr he
  refine ⟨fun x hi hok => ?_, fun x hi hok => ?_, fun x hi hok => ?_, fun x hi hok => ?_⟩
  · subst hi
    refine accAfter_of_step h hr he (fun _ e => nomatch e) ?_
    have hplain (b : Nat) : (∃ r < 16, ∃ j < 16 * o.members.length,
        (varOf o false x (mxShapeOf false x) (16 * m + r) j).2.getLsbD b = true) ↔ False := by
      simp [varOf]
    have hstep := mma_accumulates (m := m) (g := g) (dist := false) (v := fun _ _ => .zero) (more := fun _ => False) (shaped_of_mxOk hok) he
      (fun _ _ => rfl) fun b _ => hplain b
    exact fun old new ho hn => accumulated_congr (fun b => (iff_of_eq (or_false _))) (hstep old new ho hn)
  · subst hi
    refine accAfter_of_step h hr he (fun _ e => nomatch e) ?_
    have hs := shaped_of_mxOk hok
    have hrow := varRow_of_mmadOk hok
    exact mma_accumulates (dist := true) (v := fun r j => matVar o x (matShape x.fa.toNat).1 (matShape x.fa.toNat).2 (16 * m + r) j) hs he
      (fun r j => by rw [varSum_eq hs hrow]) fun b _ => (varFlags hs hrow (members_pos h) b).trans
        (or_congr_right (and_congr_right fun _ => or_congr (toNat_eq_255 _) (toNat_eq_255 _)))
  · subst hi
    obtain ⟨hre, him⟩ := mmac_accumulates (m := m) (g := g) (shaped_of_mmacOk hok) he
    exact ⟨accAfter_of_step h hr he (fun _ e => nomatch e) hre, accAfter_of_step h hr he (fun _ e => nomatch e) him⟩
  · subst hi
    obtain ⟨hs, hfa, hfb⟩ := shaped_of_mma64Ok hok
    obtain ⟨hlo, hhi⟩ := mma64_accumulates (m := m) (g := g) hs hfa hfb he
    exact ⟨accAfter_of_step h hr he (fun _ e => nomatch e) hlo, accAfter_of_step h hr he (fun _ e => nomatch e) hhi⟩

end

end Sys2Proof.Proofs.NumberFormats
end

section
namespace Sys2Proof.Proofs.NumberFormats
open Sys2Proof Sys2Proof.Machine Sys2Proof.Claims Sys2Proof.Laws Sys2Proof.Proofs.MachineState

/-! ## The loads performed (R119, R249) -/

/-- The registers that `mx.ldc.b` writes, and the others. -/
theorem ldcB_loads {o : CrewOp} {m : Nat} (x : LdcForm) (g : Machine.Group) (he : o.errs = []) :
    (o.ldcB x m g).accs = g.accs ∧
      (∀ k < 16, ∀ w < 2 * x.nreg.toNat, x.vb.toNat + w / 2 < (g.lane (16 * (w % 2) + k)).v.length →
        ((o.ldcB x m g).lane (16 * (w % 2) + k)).vreg (x.vb.toNat + w / 2) = loadWord o x m k w) ∧
      ∀ l n, (n < x.vb.toNat ∨ x.vb.toNat + x.nreg.toNat ≤ n) → ((o.ldcB x m g).lane l).vreg n = (g.lane l).vreg n := by
  obtain ⟨k, hw⟩ := foldl_writeV (ldcDest x) (fun p => loadWord o x m p.1 p.2) (ldcPairs x) nodup_ldcDest (fun g => zeroGlove g.ident.k) g
  rw [ldcB_eq he]
  refine ⟨k.arrays.1, fun c hc w hw' hlen => hw (c, w) (mem_ldcPairs.mpr ⟨hc, hw'⟩) hlen, fun l n hn => (k.vreg l n fun hm => ?_).1⟩
  obtain ⟨p, hp, e⟩ := List.mem_map.mp hm
  obtain ⟨-, h2⟩ := Prod.mk.inj e
  have := (mem_ldcPairs.mp hp).2
  omega

theorem loadEffects : LoadEffects := by
  intro s o i c m g h hr he
  refine ⟨fun x hi => ?_, fun x hi => ⟨?_, fun _ => ?_⟩, fun x hi => ?_⟩
  · subst hi
    refine accAfter_of_step h hr he (fun _ e => nomatch e) (accStep_modAcc fun a _ => ?_)
    rw [he]
    obtain ⟨hc, hm, htw, hst⟩ := load_twins (o := o) (x := x) (m := m) o.members.length a
    exact ⟨hc, hm, fun r hr hlen j hj => (htw r hr hlen j hj).trans (fitWord_eq _), hst⟩
  · subst hi
    exact accAfter_of_step h hr he (fun _ e => nomatch e) (ldcF64_loads he o.members.length).1
  · subst hi
    exact accAfter_of_step h hr he (fun _ e => nomatch e) (ldcF64_loads he o.members.length).2
  · subst hi
    obtain ⟨t, g', hexec, hg', d⟩ := performed h hr (fun _ e => nomatch e) fun _ _ => he
    obtain ⟨ha, hw, hk⟩ := ldcB_loads (m := m) x g he
    exact ⟨t, g', hexec, hg', d.accs.trans ha, fun k hk w hw' _ hlen => (d.vreg _ _).trans (hw k hk w hw' hlen),
      fun l n hn => (d.vreg _ _).trans (hk l n hn)⟩

end Sys2Proof.Proofs.NumberFormats
end

section
namespace Sys2Proof.Proofs.NumberFormats
open Sys2Proof Sys2Proof.Machine Sys2Proof.Claims Sys2Proof.Laws Sys2Proof.Proofs.MachineState

/-! ## `mx.zero` and `mx.ldc` performed (R248, R249) -/

section
variable {s : State} {o : CrewOp} {c : Cx} {m : Nat} {g : Machine.Group}

/-- What `mx.zero` leaves in each accumulator. -/
theorem zero_performed {x : ZeroForm} (h : OpPerforms s o (.mxZero x) c m g) (hr : o.reads = []) :
    groupAfter (exec (.crewOpExecute o.id) s) g.ident.id fun _ g' => ∀ a : Fin 8, ∀ acc, g'.accs[a.val]? = some acc →
      if x.mask.getLsbD a.val then (∀ row ∈ acc.c ++ acc.tw, ∀ w ∈ row, w = 0) ∧ acc.status = 0 ∧ acc.marks = 0 ∧ acc.ops = 0
      else g.accs[a.val]? = some acc := by
  obtain ⟨t, g', hexec, hg', d⟩ := performed h hr (fun _ e => nomatch e) fun _ e => nomatch e
  refine ⟨t, g', hexec, hg', fun a acc ha => ?_⟩
  rw [d.accs] at ha
  have hb := accs_foldl_blank x.mask (List.range 8) g ha
  by_cases hm : x.mask.getLsbD a.val = true
  · rw [if_pos ⟨hm, List.mem_range.mpr a.isLt⟩] at hb
    rw [if_pos hm, hb]
    exact ⟨blank_words, rfl, rfl, rfl⟩
  · rw [if_neg fun e => hm e.1] at hb
    rw [if_neg hm]
    exact hb

/-- What `mx.ldc` leaves in its accumulator. -/
theorem ldc_performed {x : LdcForm} (h : OpPerforms s o (.mxLdc x) c m g) (hr : o.reads = []) (he : o.errs = []) :
    groupAfter (exec (.crewOpExecute o.id) s) g.ident.id fun _ g' =>
      ∀ acc old, g.accs[x.acc.toNat]? = some old → g'.accs[x.acc.toNat]? = some acc →
        acc.status = 0 ∧ acc.marks = 0 ∧ acc.ops = 0 ∧ acc.tw = old.tw ∧
        ∀ r < 16, r < old.c.length → ∀ w < 16 * o.members.length, (acc.c.getD r []).getD w 0 = loadWord o x m r w := by
  obtain ⟨t, g', hexec, hg', d⟩ := performed h hr (fun _ e => nomatch e) fun _ e => nomatch e
  refine ⟨t, g', hexec, hg', fun acc old ho ha => ?_⟩
  rw [d.accs] at ha
  refine accStep_modAcc (g := g) (k := x.acc.toNat) (P := fun old acc => acc.status = 0 ∧ acc.marks = 0 ∧ acc.ops = 0 ∧ acc.tw = old.tw ∧
    ∀ r < 16, r < old.c.length → ∀ w < 16 * o.members.length, (acc.c.getD r []).getD w 0 = loadWord o x m r w)
    (fun a _ => load_means (o := o) (x := x) (m := m) o.members.length a) old acc ho ?_
  rw [← he]
  exact ha

end

/-! ## `mx.stat` with no operation outstanding (R252) -/

theorem stat_bits (a : Acc) : a.stat.extractLsb' 32 32 = a.ops ∧ (a.stat.getLsbD 9 = true ↔ a.marks ≠ 0) ∧
    a.stat.getLsbD 8 = a.status.getLsbD 8 ∧ a.stat.getLsbD 4 = a.status.getLsbD 4 ∧ a.stat.extractLsb' 0 3 = a.status.extractLsb' 0 3 ∧
    a.stat.extractLsb' 10 22 = 0#22 ∧ a.stat.extractLsb' 5 3 = 0#3 ∧ a.stat.getLsbD 3 = false := by
  have hops (i : Nat) (hi : i < 32) : a.stat.getLsbD (32 + i) = a.ops.getLsbD i := by
    unfold Acc.stat
    rw [BitVec.getLsbD_append, if_neg (by omega)]
    congr 1
    omega
  have hflags (i : Nat) (hi : i < 10) : a.stat.getLsbD i = if i = 9 then a.marks != 0 else i ∈ [0, 1, 2, 4, 8] && a.status.getLsbD i := by
    unfold Acc.stat
    simp only [BitVec.getLsbD_append, BitVec.getLsbD_extractLsb', BitVec.getLsbD_ofBool, BitVec.getLsbD_zero]
    interval_cases i <;> simp
  have hzero (i : Nat) (hi : i < 22) : a.stat.getLsbD (10 + i) = false := by
    unfold Acc.stat
    simp only [BitVec.getLsbD_append, BitVec.getLsbD_extractLsb', BitVec.getLsbD_ofBool, BitVec.getLsbD_zero]
    interval_cases i <;> simp
  refine ⟨BitVec.eq_of_getLsbD_eq fun i hi => ?_, ?_, ?_, ?_, BitVec.eq_of_getLsbD_eq fun i hi => ?_, BitVec.eq_of_getLsbD_eq fun i hi => ?_,
    BitVec.eq_of_getLsbD_eq fun i hi => ?_, ?_⟩
  · rw [BitVec.getLsbD_extractLsb', hops i hi]; simp [hi]
  · rw [hflags 9 (by decide)]; simp
  · rw [hflags 8 (by decide)]; simp
  · rw [hflags 4 (by decide)]; simp
  · rw [BitVec.getLsbD_extractLsb', BitVec.getLsbD_extractLsb', hflags _ (by omega)]
    have : i = 0 ∨ i = 1 ∨ i = 2 := by omega
    rcases this with rfl | rfl | rfl <;> simp
  · rw [BitVec.getLsbD_extractLsb', hzero i hi]; simp
  · rw [BitVec.getLsbD_extractLsb', hflags _ (by omega)]
    have : i = 0 ∨ i = 1 ∨ i = 2 := by omega
    rcases this with rfl | rfl | rfl <;> simp
  · rw [hflags 3 (by decide)]; simp

theorem mxStat_done {s : State} {c : Cx} {x : StatForm} (h : s.cx? = some c) (hc : c.mxCheck (noPfx (statOk x) c) [x.sd.toNat] [] = .ok ())
    (ho : c.gg.op = none) (hq : ∀ o ∈ s.crewOps, c.g.ident.id ∉ o.members) :
    groupAfter (exec (.mxStat x) s) c.g.ident.id fun t g' => Advanced t c 2 ∧
      Returns g' fun ws => ws = [(c.gg.sTgt x.sd.toNat, (c.g.acc x.acc.toNat).stat)] := by
  obtain ⟨-, -, hgang, -⟩ := cx_parts h
  obtain ⟨g', hg', ⟨sb, ps, rfl⟩, o, ho1, ho2, ho3⟩ := group_result (ws := [(c.gg.sTgt x.sd.toNat, (c.g.acc x.acc.toNat).stat)]) h ho
  have hnone : (s.crewOps.filter fun o => o.members.contains c.g.ident.id && o.names.contains x.acc.toNat) = [] :=
    List.filter_eq_nil_iff.mpr fun o ho e => hq o ho (List.contains_iff_mem.mp (Bool.and_eq_true_iff.mp e).1)
  have hstep : exec (.mxStat x) s =
      .next ((c.result s [(c.gg.sTgt x.sd.toNat, (c.g.acc x.acc.toNat).stat)]).modGroup c.g.ident.id fun g => g.advance c.gg 2) := by
    show execMxStat x s = _
    simp only [execMxStat, issue_cx h, hc, hnone]
    rfl
  have hfin := group_modGroup_self (fun g => g.advance c.gg 2) (fun g => by rw [ident_advance]) hg'
  refine ⟨_, _, hstep, hfin, advanced_of_group (g := { c.g with sb := sb, pend := ps }) hgang hfin, o, ?_, ho2, ho3⟩
  rw [pend_advance]
  exact ho1

end Sys2Proof.Proofs.NumberFormats
end

section
namespace Sys2Proof.Proofs.NumberFormats
open Sys2Proof Sys2Proof.Machine Sys2Proof.Claims Sys2Proof.Laws Sys2Proof.Proofs.MachineState

/-! ## The conversion of a store (R250, R251) -/

theorem testBit_joinBits {n : Nat} (hn : 0 < n) (cs : List Nat) (k : Nat) : (joinBits n cs).testBit k = (cs.getD (k / n) 0).testBit (k % n) := by
  induction cs generalizing k with
  | nil => simp [joinBits]
  | cons x xs ih =>
    rw [joinBits, Nat.add_comm, Nat.testBit_two_pow_mul_add _ (Nat.mod_lt _ (Nat.two_pow_pos n))]
    split
    · next h =>
      rw [Nat.div_eq_of_lt h, Nat.mod_eq_of_lt h, Nat.testBit_mod_two_pow, decide_eq_true h, Bool.true_and]
      rfl
    · next h =>
      obtain ⟨j, rfl⟩ : ∃ j, k = j + n := ⟨k - n, by omega⟩
      rw [Nat.add_sub_cancel, ih, Nat.add_div_right _ hn, Nat.add_mod_right]
      rfl

theorem length_codeWords (nb : Nat) (codes : List Nat) : (codeWords nb codes).length = codes.length * nb / 32 := by
  simp [codeWords]

/-- The bits of the words that hold a row of codes. -/
theorem getLsbD_codeWords {nb : Nat} (hn : 0 < nb) (codes : List Nat) {w b : Nat} (hw : w < codes.length * nb / 32) (hb : b < 32) :
    ((codeWords nb codes).getD w 0).getLsbD b = (codes.getD ((32 * w + b) / nb) 0).testBit ((32 * w + b) % nb) := by
  have hbit : (nbits (joinBits nb codes) (32 * w) 32).testBit b = (joinBits nb codes).testBit (32 * w + b) := by
    unfold nbits
    rw [Nat.testBit_mod_two_pow, decide_eq_true hb, Bool.true_and, Nat.testBit_div_two_pow, Nat.add_comm]
  unfold codeWords
  rw [List.getD_eq_getElem _ _ (by simpa using hw), List.getElem_map, List.getElem_range, wd, BitVec.getLsbD_ofNat, decide_eq_true hb, Bool.true_and,
    hbit, testBit_joinBits hn]

/-- A list whose elements are all found is found in order. -/
theorem filterMap_getElem? {α β : Type} (f : α → Option β) (ks : List α) (h : ∀ k ∈ ks, (f k).isSome = true) :
    (ks.filterMap f).length = ks.length ∧ ∀ (m : Nat) (k : α), ks[m]? = some k → (ks.filterMap f)[m]? = f k := by
  induction ks with
  | nil => exact ⟨rfl, fun m k hk => by simp at hk⟩
  | cons a ks ih =>
    obtain ⟨v, hv⟩ := Option.isSome_iff_exists.mp (h a List.mem_cons_self)
    obtain ⟨hlen, hget⟩ := ih fun k hk => h k (List.mem_cons_of_mem _ hk)
    rw [List.filterMap_cons_some hv]
    refine ⟨by rw [List.length_cons, List.length_cons, hlen], fun m k hk => ?_⟩
    cases m with
    | zero => cases hk; exact hv.symm
    | succ m => exact hget m k hk

/-- The number of lanes' codes, each of the width of the format. -/
theorem width_pos (f : Fmt) : 0 < f.width := by cases f <;> decide

section
variable (o : CrewOp) (x : StcForm) (gs : List Machine.Group) (tick : Nat) {m : Nat} {g : Machine.Group}

/-- The rows that a conversion makes: number, mark of error, codes with their flags. -/
def convRows : List (Nat × Bool × List (Nat × Word)) := gs.zipIdx.flatMap fun gm => (List.range 16).map fun r =>
  (16 * gm.2 + r, ((mxNames (.mxStc x)).any fun a => (gm.1.acc a).marks.getLsbD r), o.stcRow x gm.1 gm.2 gs.length r)

theorem mem_convRows (hg : gs[m]? = some g) {r : Nat} (hr : r < 16) (hm : ∀ k ∈ mxNames (.mxStc x), (g.acc k).marks.getLsbD r = false) :
    (16 * m + r, false, o.stcRow x g m gs.length r) ∈ convRows o x gs := by
  have hany : ((mxNames (.mxStc x)).any fun a => (g.acc a).marks.getLsbD r) = false :=
    List.any_eq_false.mpr fun k hk => by rw [hm k hk]; decide
  refine List.mem_flatMap.mpr ⟨(g, m), List.mk_mem_zipIdx_iff_getElem?.mpr hg, List.mem_map.mpr ⟨r, List.mem_range.mpr hr, ?_⟩⟩
  rw [hany]

theorem flags_convert (b : Nat) : (o.convert x gs tick).flags.getLsbD b = true ↔
    ∃ row ∈ convRows o x gs, ∃ e ∈ row.2.2, e.2.getLsbD b = true := by
  show (((convRows o x gs).flatMap fun r => r.2.2).foldl (fun (f : Word) (e : Nat × Word) => f ||| e.2) 0).getLsbD b = true ↔ _
  have h0 : ¬ (0 : Word).getLsbD b = true := by simp
  rw [getLsbD_foldl_or, or_iff_right h0]
  simp only [List.mem_flatMap]
  exact ⟨fun ⟨e, ⟨row, hrow, he⟩, hb⟩ => ⟨row, hrow, e, he, hb⟩, fun ⟨row, hrow, e, he, hb⟩ => ⟨e, ⟨row, hrow, he⟩, hb⟩⟩

/-- Each word of a row with no error is to be written. -/
theorem mem_writes_convert {row : Nat} {els : List (Nat × Word)} (h : (row, false, els) ∈ convRows o x gs) {w : Nat}
    (hw : w < els.length * (Fmt.ofMx x.outf.toNat).width / 32) :
    (⟨row, swizzle (o.vals.getD 0 0 + dw (row * 16 * x.pitch.toNat + 4 * w)) x.swz.toNat,
      (codeWords (Fmt.ofMx x.outf.toNat).width (els.map (·.1))).getD w 0, false⟩ : CrewWrite) ∈ (o.convert x gs tick).writes := by
  have hlen : w < (codeWords (Fmt.ofMx x.outf.toNat).width (els.map (·.1))).length := by rwa [length_codeWords, List.length_map]
  refine List.mem_flatMap.mpr ⟨_, h, List.mem_map.mpr ⟨((codeWords (Fmt.ofMx x.outf.toNat).width (els.map (·.1))).getD w 0, w), ?_, rfl⟩⟩
  rw [List.mk_mem_zipIdx_iff_getElem?, List.getElem?_eq_getElem hlen, List.getD_eq_getElem _ _ hlen]

end

/-! ### The step that converts -/

section
variable {s : State} {o : CrewOp} {x : StcForm} {c : Cx} {m : Nat} {g : Machine.Group}

theorem cxMember_s {k : Nat} (h : s.cxMember k = some c) : c.s = s ∧ s.team? c.g.ident.team = some c.t := by
  unfold State.cxMember at h
  obtain ⟨g, hg, h⟩ := Option.bind_eq_some_iff.mp h
  obtain ⟨t, ht, h⟩ := Option.bind_eq_some_iff.mp h
  obtain ⟨l, -, rfl⟩ := Option.map_eq_some_iff.mp h
  exact ⟨rfl, ht⟩

theorem cx_of_first {i : Instr} (h : OpPerforms s o i c m g) : c.s = s ∧ s.team? c.g.ident.team = some c.t := by
  obtain ⟨k, -, hk⟩ := Option.bind_eq_some_iff.mp h.first
  exact cxMember_s hk

theorem stc_exec (h : OpPerforms s o (.mxStc x) c m g) : exec (.crewOpExecute o.id) s = .next (c.stcStep o x) := by
  show execCrewOpExecute o.id s = _
  unfold execCrewOpExecute
  rw [h.queued]
  dsimp only
  rw [h.first, h.instr]
  dsimp only
  rw [h.turn, if_neg (by decide)]
  exact congrArg Host.Outcome.next (reapAfterOp_live h _)

/-- The queue holds the operation as it is after its step. -/
theorem mem_queue_map {i : Instr} (h : OpPerforms s o i c m g) (o' : CrewOp) : o' ∈ s.crewOps.map fun y => if y.id = o.id then o' else y :=
  List.mem_map.mpr ⟨o, List.mem_of_find?_eq_some h.queued, if_pos rfl⟩

/-- The value that element (r, j) of a member converts. -/
def stcValue (x : StcForm) (g : Machine.Group) (r j : Nat) : FV :=
  let a := g.accs.getD x.acc.toNat .blank
  let b := g.accs.getD (x.acc.toNat + 1) .blank
  let at_ (xs : List (List Word)) : Word := (xs.getD r []).getD j 0
  if x.var = 1 then Fmt.f32.decode (at_ a.tw).toNat
    else if x.outf = 10 then Fmt.f64.decode (at_ b.c ++ at_ a.c).toNat else Fmt.f32.decode (at_ a.c).toNat

/-- Its code, rounded once. -/
def stcCode (o : CrewOp) (x : StcForm) (m : Nat) (g : Machine.Group) (r j : Nat) : Rnd :=
  (Fmt.ofMx x.outf.toNat).roundTo (Rm.ofCode o.rm) o.sat
    ((((o.bregs.getD m []).getD (16 * (j / 32) + r) []).getD (j % 32) 0).extractLsb' 8 24).toNat (stcValue x g r j)

theorem draw_eq (w : Word) : w.toNat / 256 = (w.extractLsb' 8 24).toNat := by
  rw [BitVec.extractLsb'_toNat, Nat.shiftRight_eq_div_pow]
  have := w.isLt
  omega

theorem stcRow_eq (n r : Nat) : o.stcRow x g m n r = (List.range (16 * n)).map fun j => ((stcCode o x m g r j).bits, (stcCode o x m g r j).flags) := by
  refine List.map_congr_left fun j _ => ?_
  unfold stcElem stcCode CrewOp.stcDraw
  rw [draw_eq]
  rfl

theorem store_converts (h : OpPerforms s o (.mxStc x) c m g) (hall : ∀ k ∈ o.members, (s.group? k).isSome = true) (hs : o.started = none) :
    ∃ t o', exec (.crewOpExecute o.id) s = .next t ∧ o' ∈ t.crewOps ∧ o'.id = o.id ∧ t.groups = s.groups ∧
      ∀ r < 16, (∀ k ∈ mxNames (.mxStc x), (g.accs.getD k .blank).marks.getLsbD r = false) →
        (∀ j < 16 * o.members.length, ∀ b < 32, (stcCode o x m g r j).flags.getLsbD b = true → o'.flags.getLsbD b = true) ∧
        ∀ w < o.members.length * (Fmt.ofMx x.outf.toNat).width / 2, ∃ e ∈ o'.writes, e.row = 16 * m + r ∧ e.bad = false ∧
          e.addr = swizzle (o.vals.getD 0 0 + BitVec.ofNat 64 ((16 * m + r) * 16 * x.pitch.toNat + 4 * w)) x.swz.toNat ∧
          ∀ b < 32, e.word.getLsbD b = (stcCode o x m g r ((32 * w + b) / (Fmt.ofMx x.outf.toNat).width)).bits.testBit
            ((32 * w + b) % (Fmt.ofMx x.outf.toNat).width) := by
  obtain ⟨hlen, hget⟩ := filterMap_getElem? s.group? o.members hall
  have hg := (hget m _ h.member).trans h.group
  let gs := o.members.filterMap s.group?
  let o' := o.convert x gs s.tick
  have hwords : 16 * o.members.length * (Fmt.ofMx x.outf.toNat).width / 32 = o.members.length * (Fmt.ofMx x.outf.toNat).width / 2 := by
    rw [Nat.mul_assoc]; omega
  have hexec : exec (.crewOpExecute o.id) s = .next { s with crewOps := s.crewOps.map fun y => if y.id = o.id then o' else y } := by
    rw [stc_exec h]
    unfold Cx.stcStep
    rw [hs, (cx_of_first h).1]
    rfl
  refine ⟨_, o', hexec, mem_queue_map h o', rfl, rfl, fun r hr hm => ?_⟩
  have hrow := mem_convRows o x gs hg hr hm
  rw [hlen, stcRow_eq] at hrow
  refine ⟨fun j hj b _ hb => ?_, fun w hw => ⟨_, mem_writes_convert o x gs s.tick hrow (w := w) ?_, rfl, rfl, rfl, fun b hb => ?_⟩⟩
  · exact (flags_convert o x gs s.tick b).mpr ⟨_, hrow, _, List.mem_map.mpr ⟨j, List.mem_range.mpr hj, rfl⟩, hb⟩
  · rwa [List.length_map, List.length_range, hwords]
  · rw [List.map_map, getLsbD_codeWords (width_pos _) _ (by rwa [List.length_map, List.length_range, hwords]) hb]
    have hj : (32 * w + b) / (Fmt.ofMx x.outf.toNat).width < 16 * o.members.length := by
      rw [Nat.div_lt_iff_lt_mul (width_pos _)]
      omega
    rw [List.getD_eq_getElem _ _ (by simpa using hj), List.getElem_map, List.getElem_range]
    rfl

end

end Sys2Proof.Proofs.NumberFormats
end

section
namespace Sys2Proof.Proofs.NumberFormats
open Sys2Proof Sys2Proof.Machine Sys2Proof.Claims Sys2Proof.Laws Sys2Proof.Proofs.MachineState

/-! ## A word of a scratchpad with its tag (R193, R200) -/

/-- A scratchpad after a whole word and its tag are written. -/
def putSpad (x : Spad) (off : Nat) (w : Word) (tag : Nat) : Spad := (x.store off (leBytes 4 w.toNat)).setTag off tag

/-- The canonical form of a scratchpad. -/
def SpadWf (x : Spad) : Prop := Mem.wf x.bytes = true ∧ Mem.wf x.marks = true

section
variable {x : Spad} {off tag : Nat}

theorem length_leBytes4 (n : Nat) : (leBytes 4 n).length = 4 := rfl

/-- An aligned word is one word of marks. -/
theorem wordsOf_aligned (h : off % 4 = 0) : wordsOf off 4 = [off] := by
  have e : (off + 4 + 3) / 4 - off / 4 = 1 := by omega
  have e2 : off / 4 * 4 = off := by omega
  simp [wordsOf, e, e2]

theorem putSpad_eq (h : off % 4 = 0) (w : Word) : putSpad x off w tag =
    (({ x with bytes := Mem.writeN x.bytes off (leBytes 4 w.toNat) } : Spad).clearPoison off).setTag off tag := by
  unfold putSpad Spad.store
  rw [if_pos (by rw [length_leBytes4]), length_leBytes4, wordsOf_aligned h]
  rfl

theorem wf_putSpad (hx : SpadWf x) (h : off % 4 = 0) (w : Word) : SpadWf (putSpad x off w tag) := by
  rw [putSpad_eq h]
  exact ⟨wf_writeN hx.1 _ _, wf_write (wf_write hx.2 _ _) _ _⟩

theorem byte_putSpad (hx : SpadWf x) (h : off % 4 = 0) (w : Word) (b : Nat) : Mem.read (putSpad x off w tag).bytes b =
    if off ≤ b ∧ b < off + 4 then w.extractLsb' (8 * (b - off)) 8 else Mem.read x.bytes b := by
  have e : (putSpad x off w tag).bytes = Mem.writeN x.bytes off (leBytes 4 w.toNat) := by rw [putSpad_eq h]; rfl
  rw [e, read_writeN hx.1, length_leBytes4]
  split
  · next hb =>
    rw [getD_leBytes _ _ _ (by omega), show 256 = 2 ^ 8 from rfl, ← Nat.pow_mul, ← BitVec.toNat_inj, BitVec.toNat_ofNat, BitVec.extractLsb'_toNat,
      Nat.shiftRight_eq_div_pow]
  · rfl

theorem tag_putSpad (hx : SpadWf x) (h : off % 4 = 0) (ht : tag < 4) (w : Word) (b : Nat) : (putSpad x off w tag).tag b =
    if b / 4 = off / 4 then tag else x.tag b := by
  rw [putSpad_eq h]
  unfold Spad.setTag Spad.clearPoison Spad.tag
  dsimp only
  rw [read_write (lo := 0) (wf_write hx.2 _ _), read_write (lo := 0) hx.2, read_write (lo := 0) hx.2]
  split
  · rw [if_pos rfl, BitVec.toNat_ofNat, BitVec.toNat_ofNat]
    omega
  · rfl

end

/-! ## The scratchpads of a state -/

/-- The scratchpad of a place is there. -/
def Stands (s : State) : Place → Prop
  | .team id _ => (s.team? id).isSome = true
  | .die _ _ => True

section
variable {s : State} {p q : Place}

theorem id_of_team {s : State} {k : Nat} {t : Team} (h : s.team? k = some t) : t.id = k :=
  beq_iff_eq.mp (List.find?_some (p := fun t : Team => t.id == k) h)

theorem team_modTeam (s : State) (i k : Nat) {f : Team → Team} (hf : ∀ t, (f t).id = t.id) :
    (s.modTeam i f).team? k = (s.team? k).map fun t => if t.id = i then f t else t := by
  unfold State.team? State.modTeam
  rw [List.find?_map]
  congr 2
  funext t
  rw [Function.comp_apply]
  split
  · rw [hf]
  · rfl

theorem team_modSpad (s : State) (i a k : Nat) (f : Spad → Spad) : (s.modSpad (.team i a) f).team? k =
    (s.team? k).map fun t => if t.id = i then { t with spad := f t.spad } else t :=
  team_modTeam s i k fun _ => rfl

theorem stands_modSpad {f : Spad → Spad} (h : Stands s q) : Stands (s.modSpad p f) q := by
  cases q with
  | die d b => trivial
  | team k b =>
    show Option.isSome _ = true
    cases p with
    | team i a => rw [team_modSpad, Option.isSome_map]; exact h
    | die d a => exact (congrArg Option.isSome (team_modDie s d k _)).trans h

/-- The scratchpad of a team after a change of one. -/
theorem spad_modTeam {i : Nat} (hp : (s.team? i).isSome = true) (f : Spad → Spad) (k a b : Nat) :
    (s.modSpad (.team i a) f).spad (.team k b) = if i = k then f (s.spad (.team k b)) else s.spad (.team k b) := by
  show (((s.modSpad (.team i a) f).team? k).map (·.spad)).getD _ = _
  rw [team_modSpad]
  by_cases h : i = k
  · subst h
    obtain ⟨t, ht⟩ := Option.isSome_iff_exists.mp hp
    have hid : t.id = i := id_of_team ht
    simp [State.spad, ht, hid]
  · rw [if_neg h]
    cases hk : s.team? k with
    | none => simp [State.spad, hk]
    | some u =>
      have hid : ¬ u.id = i := fun e => h (e.symm.trans (id_of_team hk))
      simp [State.spad, hk, hid]

theorem spad_modSpad (hp : Stands s p) (f : Spad → Spad) (q : Place) : (s.modSpad p f).spad q = if p.same q = true then f (s.spad q) else s.spad q := by
  cases p with
  | team i a =>
    cases q with
    | team k b => simp only [spad_modTeam hp, Place.same, beq_iff_eq]
    | die d b => exact congrArg Die.dspad (die_modTeam ..)
  | die d a =>
    cases q with
    | team k b => exact congrArg (fun t : Option Team => (t.map (·.spad)).getD ⟨[], []⟩) (team_modDie s d k _)
    | die e b =>
      refine (congrArg Die.dspad (die_modDie s d e _)).trans ?_
      by_cases h : d = e
      · subst h; simp [Place.same, State.spad]
      · simp [Place.same, State.spad, h, Ne.symm h]

theorem spadWf_of_canonical (h : SpadsCanonical s) (q : Place) : SpadWf (s.spad q) := by
  cases q with
  | team i a =>
    unfold State.spad
    dsimp only
    cases ht : s.team? i with
    | none => exact ⟨rfl, rfl⟩
    | some t => exact h.1 t (List.mem_of_find?_eq_some ht)
  | die d a => exact h.2 d

end

/-! ## Words put in scratchpads (R250) -/

/-- The word at p and its tag are written, and nothing else. -/
structure WordPut (s t : State) (p : Place) (w : Word) (tag : Nat) : Prop where
  byte : ∀ i < 4, spadByte t (placePlus p i) = w.extractLsb' (8 * i) 8
  tagged : spadTag t p = tag
  kept : ∀ q, (∀ i < 4, placePlus p i ≠ q) → spadByte t q = spadByte s q ∧ spadTag t q = spadTag s q
  groups : t.groups = s.groups
  crewOps : t.crewOps = s.crewOps
  wf : ∀ q, SpadWf (t.spad q)
  stands : ∀ q, Stands s q → Stands t q

theorem placePlus_same (p : Place) (i : Nat) : p.same (placePlus p i) = true := by
  cases p <;> exact beq_self_eq_true _

theorem off_placePlus (p : Place) (i : Nat) : (placePlus p i).off = p.off + i := by cases p <;> rfl

theorem eq_placePlus {p q : Place} (h : p.same q = true) (ho : p.off ≤ q.off) : placePlus p (q.off - p.off) = q := by
  cases p <;> cases q <;> simp only [Place.same, Bool.false_eq_true, beq_iff_eq] at h <;> subst h <;>
    simp only [Place.off] at ho ⊢ <;> simp only [placePlus] <;> congr 1 <;> omega

theorem wordPut_modSpad {s : State} {p : Place} (hp : Stands s p) (hw : ∀ q, SpadWf (s.spad q)) (ha : p.off % 4 = 0) (w : Word) {tag : Nat}
    (ht : tag < 4) : WordPut s (s.modSpad p fun x => putSpad x p.off w tag) p w tag := by
  have hspad := spad_modSpad hp fun x => putSpad x p.off w tag
  have hself : p.same p = true := by cases p <;> exact beq_self_eq_true _
  refine ⟨fun i hi => ?_, ?_, fun q hq => ?_, groups_modSpad .., ?_, fun q => ?_, fun q h => stands_modSpad h⟩
  · unfold spadByte
    rw [hspad, if_pos (placePlus_same p i), byte_putSpad (hw _) ha, off_placePlus, if_pos (by omega), Nat.add_sub_cancel_left]
  · unfold spadTag
    rw [hspad, if_pos hself, tag_putSpad (hw _) ha ht, if_pos rfl]
  · unfold spadByte spadTag
    rw [hspad]
    split
    · next h =>
      have hout : ¬ (p.off ≤ q.off ∧ q.off < p.off + 4) := fun ⟨h1, h2⟩ => hq (q.off - p.off) (by omega) (eq_placePlus h h1)
      rw [byte_putSpad (hw _) ha, if_neg hout, tag_putSpad (hw _) ha ht, if_neg (by omega)]
      exact ⟨rfl, rfl⟩
    · exact ⟨rfl, rfl⟩
  · cases p with
    | team i a => rfl
    | die d a => cases d <;> rfl
  · rw [hspad]
    split
    · exact wf_putSpad (hw _) ha w
    · exact hw q

/-! ### Places of a gang's windows (R194) -/

section
variable {c : Cx} {a : DWord} {n : Nat} {p : Place}

/-- A place is in a scratchpad of the state, at an offset as aligned as its address. -/
theorem place_stands (ht : (c.s.team? c.t.id).isSome = true) (h : c.place a n = some p) : Stands c.s p ∧ (a.toNat % 4 = 0 → p.off % 4 = 0) := by
  unfold Cx.place at h
  dsimp only at h
  split at h
  · split at h
    · cases h; exact ⟨ht, id⟩
    · cases h
  · split at h
    · split at h
      · cases h
      · split at h
        · cases h
        · next id _ =>
          split at h
          · next t hid =>
            split at h
            · cases h
              refine ⟨by show Option.isSome _ = true; rw [hid]; rfl, fun ha => ?_⟩
              show nbits a.toNat 0 19 % 4 = 0
              unfold nbits
              omega
            · cases h
          · cases h
    · split at h
      · split at h
        · cases h
          refine ⟨trivial, fun ha => ?_⟩
          show nbits a.toNat 0 26 % 4 = 0
          unfold nbits
          omega
        · cases h
      · cases h

end

end Sys2Proof.Proofs.NumberFormats
end

section
namespace Sys2Proof.Proofs.NumberFormats
open Sys2Proof Sys2Proof.Machine Sys2Proof.Claims Sys2Proof.Laws Sys2Proof.Proofs.MachineState

/-! ## The words that a store writes (R250) -/

section
variable {s : State} {o : CrewOp} {x : StcForm} {c : Cx} {m : Nat} {g : Machine.Group}

theorem wordPut_putWord {c : Cx} {a : DWord} {p : Place} {t : State} (hpl : c.place a 4 = some p) (hp : Stands t p) (hw : ∀ q, SpadWf (t.spad q))
    (ha : p.off % 4 = 0) (w : Word) {tag : Nat} (ht : tag < 4) : WordPut t (c.putWord a w tag t) p w tag := by
  have e : c.putWord a w tag t = t.modSpad p fun x => putSpad x p.off w tag := by unfold Cx.putWord; rw [hpl]; rfl
  rw [e]
  exact wordPut_modSpad hp hw ha w ht

theorem first_stands {i : Instr} (h : OpPerforms s o i c m g) {a : DWord} {n : Nat} {p : Place} (hpl : c.place a n = some p) :
    Stands s p ∧ (a.toNat % 4 = 0 → p.off % 4 = 0) := by
  obtain ⟨hs, ht⟩ := cx_of_first h
  have hid := id_of_team ht
  have := place_stands (by rw [hs, hid, ht]; rfl) hpl
  rwa [hs] at this

/-- A data word is written with its tag. -/
theorem store_writes (h : OpPerforms s o (.mxStc x) c m g) {t0 : Nat} {w : CrewWrite} {p : Place} (hst : o.started = some t0)
    (hf : o.writes.find? (fun w => c.writeReady x t0 w.addr) = some w) (hpl : c.place w.addr 4 = some p)
    (hno : ¬ (x.tm = 1 ∧ s.tagTest p 4 tagEmpty = .fault)) (hc : SpadsCanonical s) (ha : w.addr.toNat % 4 = 0) :
    ∃ t, exec (.crewOpExecute o.id) s = .next t ∧ (∀ i < 4, spadByte t (placePlus p i) = w.word.extractLsb' (8 * i) 8) ∧
      spadTag t p = (if w.bad then 2 else 1) ∧ (∀ q, (∀ i < 4, placePlus p i ≠ q) → spadByte t q = spadByte s q) ∧
      ∃ o' ∈ t.crewOps, o'.id = o.id ∧ o'.writes = o.writes.erase w := by
  obtain ⟨hs, -⟩ := cx_of_first h
  obtain ⟨hp, hoff⟩ := first_stands h hpl
  have hhit : (x.tm == 1 && s.tagTest p 4 tagEmpty == .fault) = false := by simpa using hno
  have hput := wordPut_putWord hpl hp (spadWf_of_canonical hc) (hoff ha) w.word (tag := if w.bad then tagFault else tagFull) (by split <;> decide)
  let o' : CrewOp := { o with writes := o.writes.erase w, errs := o.errs }
  let t := c.putWord w.addr w.word (if w.bad then tagFault else tagFull) s
  have hexec : exec (.crewOpExecute o.id) s = .next { t with crewOps := t.crewOps.map fun y => if y.id = o.id then o' else y } := by
    rw [stc_exec h]
    unfold Cx.stcStep
    rw [hst]
    dsimp only
    rw [hf]
    dsimp only
    unfold Cx.crewWrite
    rw [hpl, hs]
    dsimp only
    simp only [hhit, Bool.or_false, Bool.false_eq_true, if_false]
    rfl
  refine ⟨_, hexec, hput.byte, hput.tagged, fun q hq => (hput.kept q hq).1, o', ?_, rfl, rfl⟩
  show o' ∈ t.crewOps.map _
  rw [hput.crewOps]
  exact mem_queue_map h o'

/-! ### The status word -/

theorem statusWord_bits (o : CrewOp) : o.statusWord.getLsbD 0 = true ∧ (o.statusWord.getLsbD 1 = true ↔ o.errs ≠ []) ∧
    o.statusWord.extractLsb' 8 8 = o.flags.extractLsb' 0 8 ∧ o.statusWord.extractLsb' 32 16 = BitVec.ofNat 16 o.satCount ∧
    o.statusWord.extractLsb' 48 16 = 0#16 := by
  have hlow (i : Nat) (hi : i < 2) : o.statusWord.getLsbD i = if i = 0 then true else !o.errs.isEmpty := by
    unfold CrewOp.statusWord
    simp only [BitVec.getLsbD_append, BitVec.getLsbD_ofBool]
    interval_cases i <;> simp
  have hflags (i : Nat) (hi : i < 8) : o.statusWord.getLsbD (8 + i) = o.flags.getLsbD i := by
    unfold CrewOp.statusWord
    simp only [BitVec.getLsbD_append, BitVec.getLsbD_extractLsb']
    interval_cases i <;> simp
  have hsat (i : Nat) (hi : i < 16) : o.statusWord.getLsbD (32 + i) = (BitVec.ofNat 16 o.satCount).getLsbD i := by
    unfold CrewOp.statusWord
    simp only [BitVec.getLsbD_append]
    interval_cases i <;> simp
  have hzero (i : Nat) (hi : i < 16) : o.statusWord.getLsbD (48 + i) = false := by
    unfold CrewOp.statusWord
    simp only [BitVec.getLsbD_append]
    interval_cases i <;> simp
  refine ⟨hlow 0 (by decide), ?_, BitVec.eq_of_getLsbD_eq fun i hi => ?_, BitVec.eq_of_getLsbD_eq fun i hi => ?_,
    BitVec.eq_of_getLsbD_eq fun i hi => ?_⟩
  · rw [hlow 1 (by decide)]
    simp
  · rw [BitVec.getLsbD_extractLsb', BitVec.getLsbD_extractLsb', hflags i hi, Nat.zero_add]
  · rw [BitVec.getLsbD_extractLsb', hsat i hi, decide_eq_true hi, Bool.true_and]
  · rw [BitVec.getLsbD_extractLsb', hzero i hi, Bool.and_false, BitVec.getLsbD_zero]

theorem group_foldl_other {f : Machine.Group → Machine.Group} (hf : ∀ g, (f g).ident = g.ident) (ks : List Nat) (s : State) {k : Nat} (hk : k ∉ ks) :
    (ks.foldl (fun s k => s.modGroup k f) s).group? k = s.group? k := by
  induction ks generalizing s with
  | nil => rfl
  | cons a ks ih =>
    rw [List.mem_cons, not_or] at hk
    rw [List.foldl_cons, ih _ hk.2, group_modGroup_of_id fun g h => by rw [hf]; exact h]
    cases hg : s.group? k with
    | none => rfl
    | some g => rw [Option.map_some, if_neg fun e => hk.1 ((group_id hg).symm.trans e)]

/-- The groups after the members' flags are raised. -/
theorem group_foldl_modGroup {f : Machine.Group → Machine.Group} (hf : ∀ g, (f g).ident = g.ident)
    (ks : List Nat) (hn : ks.Nodup) (s : State) {k : Nat}
    (hk : k ∈ ks) {g : Machine.Group} (hg : s.group? k = some g) : (ks.foldl (fun s k => s.modGroup k f) s).group? k = some (f g) := by
  induction ks generalizing s with
  | nil => cases hk
  | cons a ks ih =>
    obtain ⟨ha, hn⟩ := List.nodup_cons.mp hn
    have hid : ∀ g : Machine.Group, g.ident.id = a → (f g).ident.id = a := fun g h => by rw [hf]; exact h
    rcases List.mem_cons.mp hk with rfl | hk
    · rw [List.foldl_cons, group_foldl_other hf ks _ ha, group_modGroup_of_id hid, hg, Option.map_some, if_pos (group_id hg)]
    · refine ih hn _ hk ?_
      rw [group_modGroup_of_id hid, hg, Option.map_some, if_neg fun e => ha (by rwa [← e, group_id hg])]

theorem frame_foldl_modGroup (f : Machine.Group → Machine.Group) (ks : List Nat) (s : State) :
    (ks.foldl (fun s k => s.modGroup k f) s).teams = s.teams ∧ ∀ d, ((ks.foldl (fun s k => s.modGroup k f) s).die d) = s.die d := by
  induction ks generalizing s with
  | nil => exact ⟨rfl, fun _ => rfl⟩
  | cons a ks ih => exact ⟨(ih _).1, fun d => ((ih _).2 d).trans (die_modGroup ..)⟩

theorem spad_congr {s t : State} (ht : t.teams = s.teams) (hd : ∀ d, (t.die d).dspad = (s.die d).dspad) (q : Place) : t.spad q = s.spad q := by
  cases q with
  | team i a => unfold State.spad State.team?; rw [ht]
  | die d a => exact hd d

theorem stands_congr {s t : State} (ht : t.teams = s.teams) {q : Place} (h : Stands s q) : Stands t q := by
  cases q with
  | team i a => unfold Stands State.team? at *; rwa [ht]
  | die d a => trivial

theorem flags_onMember_stc (m n : Nat) (g : Machine.Group) : (o.onMember (.mxStc x) m n g).flags = g.flags := by
  show (o.names.foldl _ g).flags = g.flags
  induction o.names generalizing g with
  | nil => rfl
  | cons a as ih => exact (ih _).trans rfl

theorem putStatus_eq {p q : Place} {t : State} (htm : x.tm = 0) (hp : c.place (stcStatusAddr x (o.vals.getD 0 0) o.members.length) 4 = some p)
    (hq : c.place (stcStatusAddr x (o.vals.getD 0 0) o.members.length + 4) 4 = some q) :
    c.putStatus o x t = c.putWord (stcStatusAddr x (o.vals.getD 0 0) o.members.length + 4) (hi32 o.statusWord) tagFull
      (c.putWord (stcStatusAddr x (o.vals.getD 0 0) o.members.length) (lo32 o.statusWord) tagFull t) := by
  have h1 : ¬ x.tm = 1 := fun e => by rw [htm] at e; exact absurd e (by decide)
  unfold Cx.putStatus
  dsimp only
  rw [hp, hq]
  simp only [h1, false_and, if_false]

/-- A byte of a word of a doubleword. -/
theorem byte_of_word (v : DWord) (lo : Nat) {i : Nat} (hi : i < 4) : (v.extractLsb' lo 32).extractLsb' (8 * i) 8 = v.extractLsb' (lo + 8 * i) 8 :=
  BitVec.eq_of_getLsbD_eq fun b hb => by
    have h32 : 8 * i + b < 32 := by omega
    simp only [BitVec.getLsbD_extractLsb', h32, decide_true, Bool.true_and, Nat.add_assoc]

/-- Two words put next to each other are a doubleword. -/
theorem doubleword_put {s t u : State} {p : Place} {v : DWord} {tag : Nat} (h1 : WordPut s t p (lo32 v) tag)
    (h2 : WordPut t u (placePlus p 4) (hi32 v) tag) : (∀ i < 8, spadByte u (placePlus p i) = v.extractLsb' (8 * i) 8) ∧ spadTag u p = tag ∧
      spadTag u (placePlus p 4) = tag := by
  have hplus (i : Nat) : placePlus (placePlus p 4) i = placePlus p (4 + i) := by cases p <;> simp only [placePlus, Nat.add_assoc]
  have happ (i j : Nat) (h : placePlus p i = placePlus p j) : i = j := by
    have := congrArg Place.off h
    rw [off_placePlus, off_placePlus] at this
    omega
  have hzero : placePlus p 0 = p := by cases p <;> rfl
  have hout (j : Nat) (hj : j < 4) (i : Nat) (_ : i < 4) : placePlus (placePlus p 4) i ≠ placePlus p j := fun e => by
    rw [hplus] at e
    have := happ _ _ e
    omega
  refine ⟨fun i hi => ?_, ?_, h2.tagged⟩
  · by_cases h4 : i < 4
    · rw [(h2.kept _ (hout i h4)).1, h1.byte i h4, lo32, byte_of_word v 0 h4, Nat.zero_add]
    · obtain ⟨j, rfl⟩ : ∃ j, i = 4 + j := ⟨i - 4, by omega⟩
      rw [← hplus, h2.byte j (by omega), hi32, byte_of_word v 32 (by omega), show 32 + 8 * j = 8 * (4 + j) by omega]
  · have := (h2.kept (placePlus p 0) (hout 0 (by decide))).2
    rw [hzero] at this
    rw [this, h1.tagged]

/-- The status word is written, the flags are raised, and the store ends. -/
theorem store_ends (h : OpPerforms s o (.mxStc x) c m g) {t0 : Nat} {p : Place} (hst : o.started = some t0) (hw : o.writes = [])
    (hpl : c.place (stcStatusAddr x (o.vals.getD 0 0) o.members.length) 4 = some p)
    (hpl4 : c.place (stcStatusAddr x (o.vals.getD 0 0) o.members.length + 4) 4 = some (placePlus p 4))
    (hr : c.writeReady x t0 (stcStatusAddr x (o.vals.getD 0 0) o.members.length) = true)
    (hr4 : c.writeReady x t0 (stcStatusAddr x (o.vals.getD 0 0) o.members.length + 4) = true) (hc : SpadsCanonical s)
    (ha : (stcStatusAddr x (o.vals.getD 0 0) o.members.length).toNat % 8 = 0) (htm : x.tm = 0) :
    groupAfter (exec (.crewOpExecute o.id) s) g.ident.id fun t g' => g'.flags = g.flags ||| o.flags ∧
      spadTag t p = 1 ∧ spadTag t (placePlus p 4) = 1 ∧ ∀ i < 8, spadByte t (placePlus p i) = o.statusWord.extractLsb' (8 * i) 8 := by
  obtain ⟨hs, -⟩ := cx_of_first h
  obtain ⟨hp, hoff⟩ := first_stands h hpl
  have hp4 := (first_stands h hpl4).1
  have hoff := hoff (by omega)
  let s1 := o.members.foldl (fun s k => s.modGroup k fun g => g.raise o.flags) s
  obtain ⟨hteams, hdie⟩ := frame_foldl_modGroup (fun g => g.raise o.flags) o.members s
  have hwf (q : Place) : SpadWf (s1.spad q) := by
    rw [spad_congr hteams (fun d => congrArg Die.dspad (hdie d)) q]
    exact spadWf_of_canonical hc q
  have hput1 := wordPut_putWord hpl (stands_congr hteams hp) hwf hoff (lo32 o.statusWord) (tag := tagFull) (by decide)
  have hput2 := wordPut_putWord hpl4 (hput1.stands _ (stands_congr hteams hp4)) hput1.wf (by rw [off_placePlus]; omega) (hi32 o.statusWord)
    (tag := tagFull) (by decide)
  obtain ⟨hbyte, htag, htag4⟩ := doubleword_put hput1 hput2
  have hexec : exec (.crewOpExecute o.id) s = .next ((c.putStatus o x s1).endOp o (.mxStc x)) := by
    rw [stc_exec h]
    unfold Cx.stcStep
    rw [hst, hw]
    dsimp only
    rw [List.find?_nil]
    dsimp only
    rw [hr, hr4, hs]
    rfl
  rw [putStatus_eq htm hpl hpl4] at hexec
  have hg1 := group_foldl_modGroup (f := fun g => g.raise o.flags) (fun _ => rfl) o.members h.nodup s (List.mem_of_getElem? h.member) h.group
  obtain ⟨hm, ht, hd⟩ := endOp_ends (o := o) (i := .mxStc x) (fun _ e => nomatch e) h.nodup
    (c.putWord (stcStatusAddr x (o.vals.getD 0 0) o.members.length + 4) (hi32 o.statusWord) tagFull
      (c.putWord (stcStatusAddr x (o.vals.getD 0 0) o.members.length) (lo32 o.statusWord) tagFull s1))
  obtain ⟨g', hg', d⟩ := hm m _ _ h.member (by
    unfold State.group? at *
    rw [hput2.groups, hput1.groups]
    exact hg1)
  refine ⟨_, g', hexec, hg', ?_, ?_, ?_, fun i hi => ?_⟩
  · rw [d.flags, flags_onMember_stc]
    rfl
  · unfold spadTag
    rw [spad_congr ht hd]
    exact htag
  · unfold spadTag
    rw [spad_congr ht hd]
    exact htag4
  · unfold spadByte
    rw [spad_congr ht hd]
    exact hbyte i hi

end

theorem storeEffects : StoreEffects := by
  intro s o x c m g h hall _
  refine ⟨fun hst => store_converts h hall hst, fun t0 w p hst hf hpl hno hc ha => store_writes h hst hf hpl hno hc ha,
    fun t0 p hst hw hpl4 hpl hr hr4 hc ha htm => ?_⟩
  obtain ⟨t, g', hexec, hg', hfl, htag, htag4, hbyte⟩ := store_ends h hst hw hpl hpl4 hr hr4 hc ha htm
  obtain ⟨h0, h1, hf, hsat, hz⟩ := statusWord_bits o
  exact ⟨t, g', hexec, hg', hfl, htag, htag4, o.statusWord, hbyte, h0, h1, hf, hsat, hz⟩

end Sys2Proof.Proofs.NumberFormats
end

section
namespace Sys2Proof.Proofs.NumberFormats
open Sys2Proof Sys2Proof.Machine Sys2Proof.Claims Sys2Proof.Laws Sys2Proof.Proofs.MachineState

/-! ## O45 -/

/-- Settles O45: an operation's end changes each member by its effect alone (`performed`); the effects are read off the sums, rows and words
that they put into the accumulators, and a store's steps off the scratchpad words that they write. -/
theorem crewOperationEffects : Obligations.CrewOperationEffects := by
  refine ⟨exactMatrix, arithmeticEffects, loadEffects, storeEffects, ?_, ?_⟩
  · intro s op o i c hq hi hf ht hr hu hn m gid g hm hg ha hl
    have hop : o.id = op := by simpa using List.find?_some hq
    have hgid := group_id hg
    subst hop hgid
    have h : OpPerforms s o i c m g := ⟨hq, hi, hf, ht, hu, hn, hm, hg, hl, ha⟩
    refine ⟨fun x hx => ?_, fun x hx he => ?_⟩
    · subst hx
      exact zero_performed h hr
    · subst hx
      exact ldc_performed h hr he
  · intro s c x h hc ho hq
    obtain ⟨t, g', hexec, hg', hadv, o, ho, hz, hws⟩ := mxStat_done h hc ho hq
    exact ⟨t, g', hexec, hg', hadv, o, ho, hz, _, hws, stat_bits _⟩

end Sys2Proof.Proofs.NumberFormats
end
